-- ==== Sys2Proof/Word.lean ====
section
/-!
DEFINITION. The word types of the KCX-4A and their plainest arithmetic.
-/

namespace Sys2Proof

/-- A 32-bit register or instruction word (02 R34). -/
abbrev Word := BitVec 32

/-- A byte of memory. -/
abbrev Byte := BitVec 8

/-- A 64-bit pair, even register in the low half (04 R96). -/
abbrev DWord := BitVec 64

/-- The 64-bit lane mask of a group: bit `i` is lane `i`. -/
abbrev LaneMask := BitVec 64

/-- Bits `[lo + n - 1 : lo]` of a word, as a bit vector of width `n`. -/
abbrev bitsOf {w : Nat} (x : BitVec w) (lo n : Nat) : BitVec n := x.extractLsb' lo n

/-- Bit `i` of a word. -/
abbrev bitOf {w : Nat} (x : BitVec w) (i : Nat) : Bool := x.getLsbD i

/-- A Boolean as a one-bit vector. -/
abbrev bit1 (b : Bool) : BitVec 1 := BitVec.ofBool b

end Sys2Proof
end

