-- ==== Sys2Proof/Config.lean ====
section
/-!
DEFINITION. What an implementation fixes (00 R1) and the free values: constants with no body, so that nothing can
be proved of them but what holds for every value. Each free value is named in a log entry.
-/

namespace Sys2Proof.Config

/-- Dies of the package, clusters of a die, cores of a cluster (00 R1). -/
def dies : Nat := 4
def clustersPerDie : Nat := 16
def coresPerCluster : Nat := 4
/-- Rows of a core, and of core 0 of a cluster, whose last row is the service group's (00 R1, 11 R262). -/
def rowsPerCore : Nat := 32
/-- Bytes of a core's register pool (01 R15). -/
def registerPool : Nat := 1572864
/-- Bytes of a core's local memory (06 R143). -/
def localBytes : Nat := 524288
/-- Cycles of the Shadow window (06 R150). -/
def shadowWindow : Nat := 256
/-- Words of a run (01 R21). -/
def runWords : Nat := 128
/-- Side-log entries of a core (06 R172). -/
def sideLogEntries : Nat := 128
/-- Return slots of a core (11 R264). -/
def returnSlots : Nat := 128
/-- Lines of the Amber store buffer and of the read table (10 R246). -/
def amberStoreLines : Nat := 64
def amberReadLines : Nat := 512
/-- Block translation buffer entries of a gather engine (16 R335). -/
def btbEntries : Nat := 256
/-- Entries of a cluster's compaction queue (16 R342). -/
def compactionEntries : Nat := 1024
/-- Buffered contributions of a cluster reduction unit (11 R265). -/
def cruBuffer : Nat := 256
/-- Live nodes of the package (18 R357). -/
def liveNodes : Nat := 4096
/-- Bytes of one die's part of TIER 0 (15 R300). -/
def hbmBytes : Nat := 0x21C0000000
/-- FEAT0 as published (00 R8). -/
def feat0 : BitVec 64 := 0x3FF
/-- EWREF (15 R312). -/
def ewref : BitVec 64 := 0x0001E0000F000180

/-- Free choice number `n`: which of the values the spec allows a read of a register written earlier in its run
returns (01 R22, 05 R129). Log entry 3. -/
opaque freeChoice : Nat → Bool

/-- Free 32-bit value number `n`, for a value the spec leaves open. Log entry 3. -/
opaque freeWord : Nat → BitVec 32

/-- The FP32 value that function number `m` of `sfu` gives at `a`, where it lies within the error bound of 04 R116:
a fixed function of a's bits. Log entry 5. -/
opaque sfuValue : Nat → BitVec 32 → BitVec 32

/-- The key store's own random source (16 R333): draw number `n`. Log entry 6. -/
opaque keyDraw : Nat → BitVec 256

/-- The hash of the firmware's public key in the fuses (20 R409). Log entry 7. -/
opaque keyHash : BitVec 256

/-- The device's XMSS signature with one-time index `n` over a message (20 R411, R412). Log entry 7. -/
opaque xmssSign : Nat → List Byte → List Byte

/-- The 16-byte fuse identity of the package (20 R411). Log entry 7. -/
opaque fuseId : BitVec 128

/-- The serial number in the identity store (20 R413). Log entry 7. -/
opaque serialNumber : BitVec 128

/-- The identity public key, 68 bytes (20 R413). Log entry 7. -/
opaque identityKey : BitVec 544

end Sys2Proof.Config
end

