-- ==== Sys2Proof/Syntax.lean ====
section
/-!
DEFINITION. The syntax of the KCX-4A: the fields of each word format (02 R36), the prefix word
(02 R44), the operands of the table's events, and `Instr`, one constructor per row of the opcode table.
-/

namespace Sys2Proof

/-- Three-register format (02 R36). -/
structure FmtRRR where
  s : Bool
  d : BitVec 7
  a : BitVec 7
  b : BitVec 7
  la : Bool
  lb : Bool
  x : Bool
  deriving DecidableEq, Repr

/-- Register format with a minor code (02 R36). -/
structure FmtRM where
  s : Bool
  d : BitVec 7
  a : BitVec 7
  m : BitVec 7
  la : Bool
  x : Bool
  deriving DecidableEq, Repr

/-- Register and 9-bit immediate (02 R36). -/
structure FmtRI where
  s : Bool
  d : BitVec 7
  a : BitVec 7
  imm : BitVec 9
  la : Bool
  deriving DecidableEq, Repr

/-- Register and 17-bit immediate (02 R36). -/
structure FmtRL where
  s : Bool
  d : BitVec 7
  imm : BitVec 17
  deriving DecidableEq, Repr

/-- Branch format: predicate, inversion, word offset (02 R36, R38). -/
structure FmtBR where
  s : Bool
  p : BitVec 4
  n : Bool
  off : BitVec 19
  deriving DecidableEq, Repr

/-- Compare format: predicate destination, combine code, condition (02 R36, R39). `b` is IMM7 in `cmpi`. -/
structure FmtCP where
  s : Bool
  pd : BitVec 4
  pc : BitVec 3
  a : BitVec 7
  b : BitVec 7
  cond : BitVec 3
  deriving DecidableEq, Repr

/-- Memory format: `w` is the width (M, MI), the AOP (A), or the operation (cctl, msc, soft); `o` is IMM7 in MI (02 R36). -/
structure FmtM where
  s : Bool
  d : BitVec 7
  c : BitVec 7
  o : BitVec 7
  w : BitVec 3
  deriving DecidableEq, Repr

/-- Matrix format (02 R36). -/
structure FmtMX where
  s : Bool
  d : BitVec 7
  a : BitVec 7
  cv : BitVec 3
  af : BitVec 3
  ru : Bool
  ar : Bool
  pt : BitVec 2
  deriving DecidableEq, Repr

/-- Fence and control format (02 R36). -/
structure FmtF where
  s : Bool
  scope : BitVec 3
  kind : BitVec 3
  deriving DecidableEq, Repr

/-- Engine format (02 R36). -/
structure FmtE where
  s : Bool
  cls : BitVec 3
  id : BitVec 4
  a : BitVec 7
  b : BitVec 7
  deriving DecidableEq, Repr

/-- The prefix word's fields (02 R44). -/
structure Prefix where
  pr : BitVec 4
  pn : Bool
  mz : Bool
  rm : BitVec 3
  c : BitVec 7
  lc : Bool
  na : Bool
  nb : Bool
  nc : Bool
  sat : Bool
  deriving DecidableEq, Repr

/-- The prefix of a prefixed pair, or none. -/
abbrev Pfx := Option Prefix

/-- A group of a launch: launch identifier, block index, group index within the block (01 R9). -/
structure GKey where
  launch : Nat
  block : Nat
  idx : Nat
  deriving DecidableEq, Repr

/-- What issues words: nothing, a group, or an engine program (10 R230). -/
inductive Agent where
  | none
  | group (k : GKey)
  | engine (id : Nat)
  deriving DecidableEq, Repr

/-- A node of the dependence graph: context and node number (18 R357). -/
structure NKey where
  ctx : Nat
  num : Nat
  deriving DecidableEq, Repr

/-- The sequencer kinds (10 R229). -/
inductive SeqKind where
  | ce | ge | ke
  deriving DecidableEq, Repr

/-- A sequencer: its kind and its core (CE, GE) or cluster (KE) number in the package (10 R229). -/
structure Sequencer where
  kind : SeqKind
  unit : Nat
  deriving DecidableEq, Repr

/-- The sources whose requests a home keeps in order (11 R263). -/
inductive Source where
  | core (c : Nat)
  | engine (id : Nat)
  | copy (id : Nat)
  | cp
  deriving DecidableEq, Repr

/-- A barrier of a block, of a band, or of the tree (10 R240, 11 R271). -/
inductive BarKey where
  | block (launch block id : Nat)
  | band (launch band id : Nat)
  | tree (launch n : Nat)
  deriving DecidableEq, Repr

/-- Where one block is seated: its core, the partner core of a two-core block, and its rows (10 R252, R253).
A row number is slot * 8 + row. -/
structure Seat where
  block : Nat
  core : Nat
  rows : List Nat
  core2 : Option Nat
  rows2 : List Nat
  deriving DecidableEq, Repr

/-- The loader's choice for one band: the band and a seat for each of its blocks (10 R253). -/
structure BandPlan where
  launch : Nat
  band : Nat
  seats : List Seat
  deriving DecidableEq, Repr

/-- One 8-byte write to a page-table entry: physical address in TIER 0 and value (15 R316). -/
structure EntryWrite where
  pa : Nat
  val : BitVec 64
  deriving DecidableEq, Repr

/-- A page that moves, or is copied into a replica or a weight store: memory keys (tier * 2^52 + pa) of the destination, in
TIER 0 or 1, and of the source, in any tier, and bytes (18 R365 to R367). -/
structure FrameCopy where
  dst : Nat
  src : Nat
  len : Nat
  deriving DecidableEq, Repr

/-- The placement engine's choice for one launch (18 R364 to R371): the leaves it writes, the frames it
copies, each die's root table where it is not the context's, the argument page (va, pa), the wire of each tree number it
asks for, and the LLC range registers it sets (die, number, CTL, LIM). -/
structure PlacePlan where
  node : NKey
  leaves : List EntryWrite
  copies : List FrameCopy
  roots : List (Nat × Nat)
  argVa : Nat
  argPa : Nat
  wires : List (Nat × Nat)
  lranges : List (Nat × Nat × BitVec 64 × BitVec 64)
  deriving DecidableEq, Repr

/-- The fault service's choice for one page: context, page address, the leaf it writes, which names the frame, and
frames for the tables that the page needs and that do not exist (15 R327). -/
structure PageMap where
  ctx : Nat
  va : Nat
  leaf : BitVec 64
  tables : List Nat
  deriving DecidableEq, Repr

/-- The structures of an error record (19 R398), with their STRUCT codes. -/
inductive Struct where
  | none | regBank | l1Way | localBank | arrayColumn | accPath | ceGe | coreLogic | llcWay | serviceGroup
  | cru | compactionQueue | ke | memoryPort | hbmRow | hbmChannel | edramRow | checkCache | abarathLane
  | biliqueLane | treeWire | cmdProcessor | keyStore
  deriving DecidableEq, Repr

/-- The regions of a strike report (19 R377); `found` is the damage a checked region could not correct
(19 R383): lines, slots of reduction units (launch, band, slot) and entries of compaction queues (launch, band, place)
that it poisons, or unnamed damage. -/
inductive Region where
  | core (c : Nat)
  | ke (cluster : Nat)
  | cluster (c : Nat)
  | uncore (die : Nat)
  | package
  deriving DecidableEq, Repr

/-- A strike report (19 R377, R383, R384); `corrected` are the keys of errors that were repaired in place (15 R307). -/
structure Strike where
  region : Region
  cycle : Nat
  flaggedLate : Bool
  poisoned : List Nat
  cru : List (Nat × Nat × Nat)
  cq : List (Nat × Nat × Nat)
  unnamed : Bool
  corrected : List Nat
  /-- the structure concerned, which is tested, and its place in its unit (19 R392) -/
  struct : Struct := .none
  index : Nat := 0
  deriving DecidableEq, Repr

/-- The verdict of a targeted self-test on one structure (19 R392, R393); and what could not be read as its contents were copied to
a spare: registers of lanes, and words of local memory, each by launch and block (19 R394). -/
structure SelfTest where
  struct : Struct
  die : Nat
  cluster : Nat
  core : Nat
  index : Nat
  passed : Bool
  regs : List (GKey × Nat × Nat) := []
  words : List (Nat × Nat × Nat) := []
  deriving DecidableEq, Repr

/-- An error met in the matrix arrays (09 R223). -/
inductive LatchError where
  | parity
  | corrected
  | uncorrectable (lane reg : Nat)
  deriving DecidableEq, Repr

/-- The firmware image as the boot ROM finds it: its bytes (20 R409). -/
structure Firmware where
  image : List Byte
  deriving DecidableEq, Repr

/-- A host access through an aperture (20 R401). -/
structure HostAccess where
  aperture : Nat
  addr : Nat
  size : Nat
  write : Bool
  data : List Byte
  deriving DecidableEq, Repr

/-- A fabric message (22 R421). -/
structure Msg where
  type : Nat
  poison : Bool
  last : Bool
  src : Nat
  dst : Nat
  tag : Nat
  addr : Nat
  size : Nat
  code : Nat
  phase : Nat
  data : List Byte
  deriving DecidableEq, Repr

/-- Why a fetch gives no instruction (02 R35, R43, R57): the trap code and what TVAL holds. -/
inductive DecodeFault where
  | misaligned (pc : Word)
  | outOfCode (pc : Word)
  | badWord (w : Word)
  | badPrefix (w : Word)
  deriving DecidableEq, Repr

/-- One constructor per row of the opcode table: 198 encoded words, then 88 events. -/
inductive Instr where
  /-- ADD (R61). Adds a and b at 32 or 64 bits, wrapping or saturating. -/
  | add (p : Pfx) (f : FmtRRR)
  /-- SUB (R61). Subtracts b from a at 32 or 64 bits. -/
  | sub (p : Pfx) (f : FmtRRR)
  /-- MUL (R61). Writes the low bits of a times b. -/
  | mul (p : Pfx) (f : FmtRRR)
  /-- MULH (R61). Writes the high 32 bits of the signed or unsigned product. -/
  | mulh (p : Pfx) (f : FmtRRR)
  /-- AND (R61). Bitwise AND of a and b. -/
  | and_ (p : Pfx) (f : FmtRRR)
  /-- OR (R61). Bitwise OR of a and b. -/
  | or_ (p : Pfx) (f : FmtRRR)
  /-- XOR (R61). Bitwise XOR of a and b. -/
  | xor_ (p : Pfx) (f : FmtRRR)
  /-- ANDN (R61). Bitwise a AND NOT b. -/
  | andn (p : Pfx) (f : FmtRRR)
  /-- SHL (R61). Shifts a left by b. -/
  | shl (p : Pfx) (f : FmtRRR)
  /-- SHR (R61). Shifts a right, logically or arithmetically. -/
  | shr (p : Pfx) (f : FmtRRR)
  /-- ROT (R61). Rotates a left by b. -/
  | rot (p : Pfx) (f : FmtRRR)
  /-- MIN (R61). Signed or unsigned minimum. -/
  | min (p : Pfx) (f : FmtRRR)
  /-- MAX (R61). Signed or unsigned maximum. -/
  | max (p : Pfx) (f : FmtRRR)
  /-- MOVC (R61). Moves b to d when a is non-zero or zero. -/
  | movc (p : Pfx) (f : FmtRRR)
  /-- BFX (R62). Extracts a bit field of a. -/
  | bfx (p : Pfx) (f : FmtRRR)
  /-- BFI (R62). Inserts a bit field of a into d. -/
  | bfi (p : Pfx) (f : FmtRRR)
  /-- NEG (R63). Negates a. -/
  | neg (p : Pfx) (f : FmtRM)
  /-- NOT (R63). Inverts every bit of a. -/
  | not_ (p : Pfx) (f : FmtRM)
  /-- ABS (R63). Signed absolute value of a. -/
  | abs (p : Pfx) (f : FmtRM)
  /-- POPC (R63). Counts the ones in a. -/
  | popc (p : Pfx) (f : FmtRM)
  /-- CLZ (R63). Counts leading zeros of a. -/
  | clz (p : Pfx) (f : FmtRM)
  /-- CTZ (R63). Counts trailing zeros of a. -/
  | ctz (p : Pfx) (f : FmtRM)
  /-- BREV (R63). Reverses the bit order of a. -/
  | brev (p : Pfx) (f : FmtRM)
  /-- BSWAP (R63). Reverses the byte order of a. -/
  | bswap (p : Pfx) (f : FmtRM)
  /-- SEXT8 (R63). Sign-extends the low byte of a. -/
  | sext8 (p : Pfx) (f : FmtRM)
  /-- SEXT16 (R63). Sign-extends the low half of a. -/
  | sext16 (p : Pfx) (f : FmtRM)
  /-- ZEXT8 (R63). Zero-extends the low byte of a. -/
  | zext8 (p : Pfx) (f : FmtRM)
  /-- ZEXT16 (R63). Zero-extends the low half of a. -/
  | zext16 (p : Pfx) (f : FmtRM)
  /-- MOV (R63). Copies a to d. -/
  | mov (p : Pfx) (f : FmtRM)
  /-- PGET (R63). Reads the predicate word into d. -/
  | pget (p : Pfx) (f : FmtRM)
  /-- PPUT (R64). Writes p0-p14 from a, committed at the drain. -/
  | pput (p : Pfx) (f : FmtRM)
  /-- SEXT32 (R63). Sign-extends a into a 64-bit pair. -/
  | sext32 (p : Pfx) (f : FmtRM)
  /-- ZEXT32 (R63). Zero-extends a into a 64-bit pair. -/
  | zext32 (p : Pfx) (f : FmtRM)
  /-- CMP_I32 (R69). Signed 32-bit compare writing a predicate. -/
  | cmpI32 (p : Pfx) (f : FmtCP)
  /-- CMP_UI32 (R69). Unsigned 32-bit compare writing a predicate. -/
  | cmpUi32 (p : Pfx) (f : FmtCP)
  /-- CMP_I64 (R69). Signed 64-bit compare writing a predicate. -/
  | cmpI64 (p : Pfx) (f : FmtCP)
  /-- CMP_UI64 (R69). Unsigned 64-bit compare writing a predicate. -/
  | cmpUi64 (p : Pfx) (f : FmtCP)
  /-- ADDI (R65). Adds a signed 9-bit immediate. -/
  | addi (p : Pfx) (f : FmtRI)
  /-- ANDI (R65). ANDs a signed 9-bit immediate. -/
  | andi (p : Pfx) (f : FmtRI)
  /-- ORI (R65). ORs a signed 9-bit immediate. -/
  | ori (p : Pfx) (f : FmtRI)
  /-- XORI (R65). XORs a signed 9-bit immediate. -/
  | xori (p : Pfx) (f : FmtRI)
  /-- SHI (R66). Shifts or rotates by a constant of the selected kind. -/
  | shi (p : Pfx) (f : FmtRI)
  /-- CMPI (R70). Signed compare of a with a 7-bit immediate writing a predicate. -/
  | cmpi (p : Pfx) (f : FmtCP)
  /-- LI (R67). Loads a sign-extended 17-bit immediate. -/
  | li (p : Pfx) (f : FmtRL)
  /-- LUI (R67). Sets the upper 17 bits of d keeping its low 15 bits. -/
  | lui (p : Pfx) (f : FmtRL)
  /-- MAD (R68). Integer multiply-add with c from the prefix. -/
  | mad (p : Pfx) (f : FmtRRR)
  /-- MOVS (R72). Reads or writes a special register. -/
  | movs (f : FmtRM)
  /-- FADD (R109). FP32 addition. -/
  | fadd (p : Pfx) (f : FmtRRR)
  /-- FSUB (R109). FP32 subtraction. -/
  | fsub (p : Pfx) (f : FmtRRR)
  /-- FMUL (R109). FP32 multiplication. -/
  | fmul (p : Pfx) (f : FmtRRR)
  /-- FFMA (R109). FP32 fused multiply-add with one rounding. -/
  | ffma (p : Pfx) (f : FmtRRR)
  /-- FMIN (R110). IEEE minimumNumber of two FP32 values. -/
  | fmin (p : Pfx) (f : FmtRRR)
  /-- FMAX (R110). IEEE maximumNumber of two FP32 values. -/
  | fmax (p : Pfx) (f : FmtRRR)
  /-- FCMP (R112). NaN-safe FP32 compare writing a predicate. -/
  | fcmp (p : Pfx) (f : FmtCP)
  /-- HADD2 (R113). Packed FP16 or BF16 addition. -/
  | hadd2 (p : Pfx) (f : FmtRRR)
  /-- HMUL2 (R113). Packed FP16 or BF16 multiplication. -/
  | hmul2 (p : Pfx) (f : FmtRRR)
  /-- HFMA2 (R113). Packed FP16 or BF16 fused multiply-add. -/
  | hfma2 (p : Pfx) (f : FmtRRR)
  /-- FCVT (R119). Converts a between the formats named by M. -/
  | fcvt (p : Pfx) (f : FmtRM)
  /-- FABS (R115). Clears the sign bit of a. -/
  | fabs (p : Pfx) (f : FmtRM)
  /-- FNEG (R115). Inverts the sign bit of a. -/
  | fneg (p : Pfx) (f : FmtRM)
  /-- FSQRT (R115). Correctly rounded square root. -/
  | fsqrt (p : Pfx) (f : FmtRM)
  /-- FRINT (R115). Rounds a to an integral FP32 value. -/
  | frint (p : Pfx) (f : FmtRM)
  /-- FRCP (R115). Correctly rounded reciprocal. -/
  | frcp (p : Pfx) (f : FmtRM)
  /-- FSAT (R115). Clamps a to [+0, 1]. -/
  | fsat (p : Pfx) (f : FmtRM)
  /-- SFU_RCP (R116). Approximate reciprocal. -/
  | sfuRcp (p : Pfx) (f : FmtRM)
  /-- SFU_RSQRT (R116). Approximate reciprocal square root. -/
  | sfuRsqrt (p : Pfx) (f : FmtRM)
  /-- SFU_EXP2 (R116). Approximate power of two. -/
  | sfuExp2 (p : Pfx) (f : FmtRM)
  /-- SFU_LOG2 (R116). Approximate base-2 logarithm. -/
  | sfuLog2 (p : Pfx) (f : FmtRM)
  /-- SFU_SIN (R116). Approximate sine of a turns. -/
  | sfuSin (p : Pfx) (f : FmtRM)
  /-- SFU_COS (R116). Approximate cosine of a turns. -/
  | sfuCos (p : Pfx) (f : FmtRM)
  /-- SFU_TANH (R116). Approximate hyperbolic tangent. -/
  | sfuTanh (p : Pfx) (f : FmtRM)
  /-- FCLASS (R118). Writes a one-hot class mask of a in the named format. -/
  | fclass (p : Pfx) (f : FmtRM)
  /-- DOT2 (R114). Two-term half-precision dot product into FP32. -/
  | dot2 (p : Pfx) (f : FmtRRR)
  /-- FMIN_NAN (R111). IEEE minimum propagating NaNs. -/
  | fminNan (p : Pfx) (f : FmtRM)
  /-- FMAX_NAN (R111). IEEE maximum propagating NaNs. -/
  | fmaxNan (p : Pfx) (f : FmtRM)
  /-- FMINMAG (R111). Operand of lesser magnitude. -/
  | fminmag (p : Pfx) (f : FmtRM)
  /-- FMAXMAG (R111). Operand of greater magnitude. -/
  | fmaxmag (p : Pfx) (f : FmtRM)
  /-- RAND (R124). Draws a Philox block and advances the lane's call count. -/
  | rand (p : Pfx) (f : FmtRM)
  /-- BRA (R75). Branches the fibres in which p(P) XOR N is 1. -/
  | bra (f : FmtBR)
  /-- CALL (R76). Writes the return address to d and transfers control. -/
  | call (f : FmtRL)
  /-- JR (R77). Jumps each fibre to its own register target. -/
  | jr (f : FmtRI)
  /-- FORK (R78). Creates child fibres in free lanes of the group. -/
  | fork (f : FmtBR)
  /-- END (R79). Ends the issuing fibres, leaving helpers or freeing quads. -/
  | endF (f : FmtF)
  /-- YIELD (R19). Parks the issuing fibres until the others have issued. -/
  | yield (f : FmtF)
  /-- WIN (R82). Sets the vector and uniform window bases. -/
  | win (f : FmtRL)
  /-- TRAP (R92). Raises BREAK with the immediate in TVAL. -/
  | trap (f : FmtRL)
  /-- SVC (R93). Requests a command-processor service and parks for the reply. -/
  | svc (f : FmtRL)
  /-- RTT (R91). Leaves the handler and retries at each TPC. -/
  | rtt (f : FmtRM)
  /-- RTT_SKIP (R91). Leaves the handler skipping the trapping word. -/
  | rttSkip (f : FmtRM)
  /-- PSET (R71). Computes a predicate from two predicates. -/
  | pset (f : FmtCP)
  /-- CVDECL_LIVE (R80). Declares a convergence set of every live fibre. -/
  | cvdeclLive (f : FmtRM)
  /-- CVDECL_SET (R80). Declares a convergence set of the issuing set. -/
  | cvdeclSet (f : FmtRM)
  /-- CVSIGN (R81). Signs a convergence register and parks until the set completes. -/
  | cvsign (f : FmtRM)
  /-- NOP (R94). Does nothing beyond its place in the run. -/
  | nop (f : FmtF)
  /-- SHFL_IDX (R132). Reads a from the lane each receiver's b selects. -/
  | shflIdx (p : Pfx) (f : FmtRRR)
  /-- SHFL_REL (R133). Reads a from a lane given by a fixed relative rule. -/
  | shflRel (p : Pfx) (f : FmtRI)
  /-- QSWP_H (R134). Exchanges with the horizontal quad neighbour. -/
  | qswpH (p : Pfx) (f : FmtRM)
  /-- QSWP_V (R134). Exchanges with the vertical quad neighbour. -/
  | qswpV (p : Pfx) (f : FmtRM)
  /-- QSWP_D (R134). Exchanges with the diagonal quad neighbour. -/
  | qswpD (p : Pfx) (f : FmtRM)
  /-- QBC (R134). Broadcasts one lane of each quad. -/
  | qbc (p : Pfx) (f : FmtRM)
  /-- QDDX (R135). Horizontal quad derivative. -/
  | qddx (p : Pfx) (f : FmtRM)
  /-- QDDY (R135). Vertical quad derivative. -/
  | qddy (p : Pfx) (f : FmtRM)
  /-- VOTE_SOME (R136). 1 if any contributing lane's predicate is set. -/
  | voteSome (p : Pfx) (f : FmtRM)
  /-- VOTE_EVERY (R136). 1 if every contributing lane's predicate is set. -/
  | voteEvery (p : Pfx) (f : FmtRM)
  /-- VOTE_AGREE (R136). 1 if all contributing lanes agree. -/
  | voteAgree (p : Pfx) (f : FmtRM)
  /-- VOTE_MASK (R136). 64-bit mask of lanes whose predicate is set. -/
  | voteMask (p : Pfx) (f : FmtRM)
  /-- VOTE_COUNT (R136). Number of lanes whose predicate is set. -/
  | voteCount (p : Pfx) (f : FmtRM)
  /-- VOTE_FIRST (R136). Lowest lane whose predicate is set. -/
  | voteFirst (p : Pfx) (f : FmtRM)
  /-- VOTE_LAST (R136). Highest lane whose predicate is set. -/
  | voteLast (p : Pfx) (f : FmtRM)
  /-- MATCH (R137). Finds lanes with bitwise-equal values: mask, count or rank. -/
  | matchF (p : Pfx) (f : FmtRM)
  /-- REDG (R139). Reduces over a fixed pairwise tree of all lanes. -/
  | redg (p : Pfx) (f : FmtRM)
  /-- SCANG (R140). Inclusive or exclusive scan over the reduction tree. -/
  | scang (p : Pfx) (f : FmtRM)
  /-- BCAST (R141). Broadcasts a from one lane. -/
  | bcast (p : Pfx) (f : FmtRI)
  /-- LD (R156). Loads from global memory through a capability and register offset. -/
  | ld (p : Pfx) (f : FmtM)
  /-- ST (R157). Stores to global memory through the hold queue. -/
  | st (p : Pfx) (f : FmtM)
  /-- LDI (R156). Loads from global memory with an immediate offset. -/
  | ldi (p : Pfx) (f : FmtM)
  /-- STI (R157). Stores to global memory with an immediate offset. -/
  | sti (p : Pfx) (f : FmtM)
  /-- LDL (R156). Loads from local or cluster memory. -/
  | ldl (p : Pfx) (f : FmtM)
  /-- STL (R157). Stores to local or cluster memory. -/
  | stl (p : Pfx) (f : FmtM)
  /-- LDLN (R160). Loads a contiguous span, consecutive elements per lane. -/
  | ldln (p : Pfx) (f : FmtM)
  /-- ATOM_I32 (R162). 32-bit atomic at the home returning the old value. -/
  | atomI32 (p : Pfx) (f : FmtM)
  /-- ATOM_I64 (R162). 64-bit atomic returning the old value. -/
  | atomI64 (p : Pfx) (f : FmtM)
  /-- ATOM_F32 (R162). FP32 atomic returning the old value. -/
  | atomF32 (p : Pfx) (f : FmtM)
  /-- RED_I32 (R162). 32-bit no-return reduction. -/
  | redI32 (p : Pfx) (f : FmtM)
  /-- RED_I64 (R162). 64-bit no-return reduction. -/
  | redI64 (p : Pfx) (f : FmtM)
  /-- RED_F32 (R162). FP32 no-return reduction. -/
  | redF32 (p : Pfx) (f : FmtM)
  /-- ATOML (R162). 32-bit atomic on local or cluster memory. -/
  | atoml (p : Pfx) (f : FmtM)
  /-- CAS (R163). Compare-and-swap or exchange at the home. -/
  | cas (p : Pfx) (f : FmtM)
  /-- FENCE_ACQ (R164). Acquire: invalidates L1 at blk scope or wider. -/
  | fenceAcq (f : FmtF)
  /-- FENCE_REL (R164). Release: waits for the scope's acknowledgements. -/
  | fenceRel (f : FmtF)
  /-- FENCE_AR (R164). Release followed by acquire. -/
  | fenceAr (f : FmtF)
  /-- FENCE_XPATH (R285). Orders the group's writes before its engine reads and invalidates L1. -/
  | fenceXpath (f : FmtF)
  /-- CCTL_INVL1 (R165). Invalidates every line of the core's L1. -/
  | cctlInvl1 (f : FmtM)
  /-- CCTL_INVLINE (R165). Invalidates the L1 line of each lane's address. -/
  | cctlInvline (f : FmtM)
  /-- CCTL_INVPT (R165). Invalidates the context's translations at every port. -/
  | cctlInvpt (f : FmtM)
  /-- CCTL_INVPG (R165). Invalidates the translations of named pages at every port. -/
  | cctlInvpg (f : FmtM)
  /-- CCTL_PF_L1 (R165). Prefetches a line into L1. -/
  | cctlPfL1 (f : FmtM)
  /-- CCTL_PF_LLC (R165). Prefetches a line into its home LLC slice. -/
  | cctlPfLlc (f : FmtM)
  /-- WAITC (R238). Parks until a counter holds n or fewer operations. -/
  | waitc (f : FmtE)
  /-- CPA (R234). Starts a copy issued by the group. -/
  | cpa (f : FmtE)
  /-- MSC_FILL (R166). Memory-side fill of a range with a pattern. -/
  | mscFill (f : FmtM)
  /-- MSC_RDO (R166). Memory-side ordered reduction of k contributions. -/
  | mscRdo (f : FmtM)
  /-- MSC_AXPY (R166). Memory-side y = a*x + y. -/
  | mscAxpy (f : FmtM)
  /-- MSC_COPY (R166). Memory-side copy. -/
  | mscCopy (f : FmtM)
  /-- PKR_SET (R169). Writes PKR and broadcasts it to every memory port. -/
  | pkrSet (f : FmtRM)
  /-- PKR_GET (R169). Reads the context's PKR value. -/
  | pkrGet (f : FmtRM)
  /-- CAP_MOV (R86). Copies a capability with its tag. -/
  | capMov (p : Pfx) (f : FmtRM)
  /-- CAP_GETADDR (R86). Reads a capability's address. -/
  | capGetaddr (p : Pfx) (f : FmtRM)
  /-- CAP_GETBASE (R86). Reads a capability's base. -/
  | capGetbase (p : Pfx) (f : FmtRM)
  /-- CAP_GETLEN (R86). Reads a capability's length. -/
  | capGetlen (p : Pfx) (f : FmtRM)
  /-- CAP_GETRIGHTS (R86). Reads a capability's rights. -/
  | capGetrights (p : Pfx) (f : FmtRM)
  /-- CAP_GETTAG (R86). Reads a capability's tag. -/
  | capGettag (p : Pfx) (f : FmtRM)
  /-- CAP_RESTRICT (R86). ANDs a capability's rights with a mask. -/
  | capRestrict (p : Pfx) (f : FmtRM)
  /-- CAP_SETADDR (R86). Sets a capability's address. -/
  | capSetaddr (p : Pfx) (f : FmtRM)
  /-- CAP_INCADDR (R86). Adds to a capability's address. -/
  | capIncaddr (p : Pfx) (f : FmtRM)
  /-- CAP_CLRTAG (R86). Clears a capability's tag. -/
  | capClrtag (p : Pfx) (f : FmtRM)
  /-- CBND (R87). Narrows a capability's bounds to start at its address. -/
  | cbnd (p : Pfx) (f : FmtRRR)
  /-- SLD (R183). Soft load of the weighted expectation of a region. -/
  | sld (p : Pfx) (f : FmtM)
  /-- SST (R184). Soft blend or additive store into a region. -/
  | sst (p : Pfx) (f : FmtM)
  /-- SSHIFT (R185). Moves a weight distribution by at most one slot. -/
  | sshift (p : Pfx) (f : FmtRRR)
  /-- SNORM (R186). Normalises a weight run. -/
  | snorm (p : Pfx) (f : FmtRM)
  /-- HARDEN (R187). Chooses the slot of greatest weight. -/
  | harden (p : Pfx) (f : FmtRM)
  /-- SLDG (R188). Adjoint of a soft load. -/
  | sldg (p : Pfx) (f : FmtM)
  /-- SSTG (R189). Adjoint of a soft store. -/
  | sstg (p : Pfx) (f : FmtM)
  /-- MWL (R206). Loads a weight tile into the slice's shadow latch. -/
  | mwl (f : FmtMX)
  /-- MMA (R216). Signs a convergence register for a dense matrix product. -/
  | mma (f : FmtMX)
  /-- MMA_S (R218). Signs for a structured-sparse matrix product. -/
  | mmaS (f : FmtMX)
  /-- MMA_D (R219). Signs for a dual-gradient matrix product. -/
  | mmaD (f : FmtMX)
  /-- MSWAP (R209). Exchanges the current and shadow latches. -/
  | mswap (f : FmtMX)
  /-- MSCL (R221). Signs for writing the slice's column scales. -/
  | mscl (f : FmtMX)
  /-- FORKE (R231). Starts an engine program on a CE, GE or KE. -/
  | forke (f : FmtE)
  /-- RDV (R232). Parks until a start slot's status is final and reads it. -/
  | rdv (f : FmtE)
  /-- RDV_TEST (R232). Reads a start slot's status without waiting. -/
  | rdvTest (f : FmtE)
  /-- BAR (R241). Parks the issuing fibres at a block or cluster barrier. -/
  | bar (f : FmtE)
  /-- BARO_INIT (R244). Initialises a barrier object. -/
  | baroInit (f : FmtE)
  /-- BARO_ARRIVE (R244). Releases and arrives at a barrier object. -/
  | baroArrive (f : FmtE)
  /-- BARO_WAIT (R244). Parks until a barrier object's phase changes. -/
  | baroWait (f : FmtE)
  /-- BARO_AW (R244). Arrives and then waits at a barrier object. -/
  | baroAw (f : FmtE)
  /-- TBAR (R272). Parks at a device-wide tree barrier. -/
  | tbar (f : FmtE)
  /-- CQ_PUSH (R343). Pushes token indices onto the compaction queue. -/
  | cqPush (f : FmtE)
  /-- CQ_POP (R343). Pops entries of the compaction queue into lanes. -/
  | cqPop (f : FmtE)
  /-- CQ_RESET (R343). Discards the band's compaction-queue entries. -/
  | cqReset (f : FmtE)
  /-- CQ_COUNT (R343). Reads the band's compaction-queue entry count. -/
  | cqCount (f : FmtE)
  /-- CRED_INIT (R266). Empties a CRU slot and sets its expected count. -/
  | credInit (f : FmtE)
  /-- CRED_TRI (R266). Contributes a triple to a CRU slot in triple mode. -/
  | credTri (f : FmtE)
  /-- CRED_SUM (R266). Contributes to a CRU slot in sum mode. -/
  | credSum (f : FmtE)
  /-- CRED_GET (R268). Parks until a CRU slot is complete and reads the result. -/
  | credGet (f : FmtE)
  /-- LNCH (R346). Submits a command record to a command-processor queue. -/
  | lnch (f : FmtE)
  /-- SEQEND (R339). Retires a sequence by destroying its key. -/
  | seqend (f : FmtE)
  /-- WAITT (R239). Waits for a completion token with a timeout. -/
  | waitt (f : FmtE)
  /-- ECOPY (R234). Starts a copy from an engine program. -/
  | ecopy (f : FmtE)
  /-- EMCAST (R270). Copies a source into every block of the band. -/
  | emcast (f : FmtE)
  /-- EGKV_LD (R337). Gathers and deciphers consecutive KV rows. -/
  | egkvLd (f : FmtE)
  /-- EGKV_LDX (R337). Gathers and deciphers KV rows by index list. -/
  | egkvLdx (f : FmtE)
  /-- EGKV_ST (R337). Enciphers and stores KV rows. -/
  | egkvSt (f : FmtE)
  /-- EGKV_PURGE (R337). Purges a stream's BTB entries in every GE. -/
  | egkvPurge (f : FmtE)
  /-- EMERGE (R345). Intersects or unites two sorted key-value streams. -/
  | emerge (f : FmtE)
  /-- ESIG (R235). Adds to a completion token after earlier commands complete. -/
  | esig (f : FmtE)
  /-- BLOCK_PLACE (R253). The loader places a whole pending block in free rows. -/
  | blockPlace (plan : BandPlan)
  /-- DRAIN (R21). A run's results are all written and the group unparks. -/
  | drain (g : GKey)
  /-- HOLD_QUEUE_LEAVE (R150). A request older than the Shadow window leaves the hold queue. -/
  | holdQueueLeave (core : Nat) (g : GKey)
  /-- SNAPSHOT_COPY_DONE (R323). The page is copied, SNAP cleared and the access woken; `tables` are frames for the tables
  that splitting a larger leaf needs. -/
  | snapshotCopyDone (ctx va : Nat) (tables : List Nat)
  /-- PAGE_MAPPED (R328). A page is mapped; parked groups unpark and cores are told. -/
  | pageMapped (m : PageMap)
  /-- SIDE_LOG_REPLAY (R172). A core replays its side-log entries for a mapped page. -/
  | sideLogReplay (core ctx va : Nat)
  /-- HOME_REQUEST (R263). A home performs one request-queue entry as one step. -/
  | homeRequest (home : Nat) (src : Source)
  /-- HOME_ACK (R170). An acknowledgement completes a write and retires counters in order. -/
  | homeAck (id : Nat)
  /-- REPLY (R264). A reply writes lane values and frees the return slot. -/
  | reply (id : Nat)
  /-- PORT_INVAL_ACK (R321). A port acknowledges a translation invalidation. -/
  | portInvalAck (port id : Nat)
  /-- BAR_GROUP_ARRIVE (R241). A group with all live fibres parked releases and arrives. -/
  | barGroupArrive (g : GKey)
  /-- BAR_COMPLETE (R241). The barrier completes; waiters acquire and continue. -/
  | barComplete (b : BarKey)
  /-- TREE_COMPLETE (R272). The barrier tree completes a phase and releases waiters. -/
  | treeComplete (launch n : Nat)
  /-- MATRIX_ISSUE (R212). A matrix operation issues once its set is signed and its latches ready. -/
  | matrixIssue (g : GKey) (cv : Nat)
  /-- MWL_LATCH_WRITE (R210). An mwl's tile is written into the shadow latch. -/
  | mwlLatchWrite (id : Nat)
  /-- LATCH_PARITY_ERROR (R223). A latch cell parity error discards and recomputes a product. -/
  | latchParityError (g : GKey) (arr col : Nat) (e : LatchError)
  /-- ENGINE_CONTEXT_START (R229). A queued engine program takes a free context. -/
  | engineContextStart (q : Sequencer)
  /-- ENGINE_STATUS_FINAL (R230). An engine program's status becomes final and its context frees. -/
  | engineStatusFinal (id : Nat)
  /-- COPY_COMPLETE (R234). A copy's writes are acknowledged and its token incremented. -/
  | copyComplete (id : Nat)
  /-- MSC_COMPLETE (R167). A memory-side command's last element is written. -/
  | mscComplete (id : Nat)
  /-- WAITT_TIMEOUT (R239). A token wait times out and writes p(PD) = 0. -/
  | waittTimeout (a : Agent)
  /-- CRU_RECORD (R267). The CRU keeps or discards a contribution and merges in index order. -/
  | cruRecord (id : Nat)
  /-- SHADOW_CHECKPOINT (R378). A core takes a rolling Shadow checkpoint every 32 cycles. -/
  | shadowCheckpoint (core : Nat)
  /-- STRIKE_REPORT (R379). A strike report rolls the region back to an earlier checkpoint. -/
  | strikeReport (s : Strike)
  /-- LAUNCH_REPLAY (R390). A launch is stopped, restored from its snapshot and made ready again. -/
  | launchReplay (launch : Nat)
  /-- SELF_TEST_COMPLETE (R393). A targeted self-test ends and classes the structure. -/
  | selfTestComplete (t : SelfTest)
  /-- ERROR_RECORD_WRITE (R397). A held error record is written when the ring has room. -/
  | errorRecordWrite (die : Nat)
  /-- HBM_SCRUB (R310). Background scrub reads and repairs a line. -/
  | hbmScrub (line : Nat) (corrected : Bool)
  /-- EDRAM_REFRESH (R313). A weight-store bank's refresh window begins or ends. -/
  | edramRefresh (die bank : Nat) (begins : Bool)
  /-- QUEUE_ACCEPT (R353). The command processor accepts a queue's head record into the graph. -/
  | queueAccept (q : Nat)
  /-- LAUNCH (R364). A ready LAUNCH is placed and its blocks offered. -/
  | launch (plan : PlacePlan)
  /-- COPY (R355). A COPY command runs from the command processor. -/
  | copy (n : NKey)
  /-- MSC (R355). An MSC command runs a memory-side command. -/
  | msc (n : NKey)
  /-- SIGNAL (R355). A SIGNAL command completes at once. -/
  | signal (n : NKey)
  /-- WAIT (R355). A WAIT command completes when its token reaches the value. -/
  | wait (n : NKey)
  /-- EVICT (R438). Eviction streams the device's state to a neighbour. -/
  | evict (n : NKey)
  /-- EVICT_GRACE_EXPIRY (R438). The grace period ends and running launches are pre-empted. -/
  | evictGraceExpiry
  /-- NODE_COMPLETE (R358). A node releases, signals its token and readies successors. -/
  | nodeComplete (n : NKey)
  /-- PRIORITY_PREEMPT (R373). A starved higher-priority launch pre-empts a lower one after 200 us. -/
  | priorityPreempt (launch starved : Nat)
  /-- LAUNCH_RESUME (R375). A pre-empted launch is placed again and restored. -/
  | launchResume (plan : PlacePlan)
  /-- CTXCREATE (R406). Installs a context at every memory port. -/
  | ctxcreate
  /-- CTXDESTROY (R406). Removes a context from every port. -/
  | ctxdestroy
  /-- SEQOPEN (R406). Draws keys and makes a key slot live. -/
  | seqopen
  /-- SEQCLOSE (R406). Retires a key slot without a descriptor. -/
  | seqclose
  /-- CANCEL (R406). Fails a live node and aborts a running launch. -/
  | cancel
  /-- PREEMPT (R374). Pre-empts a launch and saves its state. -/
  | preempt
  /-- INVAL (R406). Invalidates translations on the driver's behalf. -/
  | inval
  /-- QTAIL_WRITE (R352). A host appends records by writing QTAIL. -/
  | qtailWrite (q : Nat) (v : BitVec 64)
  /-- QCFG_WRITE (R351). Configures or enables a queue. -/
  | qcfgWrite (q : Nat) (v : BitVec 64)
  /-- LRANGE_WRITE (R305). Writes an LLC range register, ignored if it breaks the limits. -/
  | lrangeWrite (die n : Nat) (lim : Bool) (v : BitVec 64)
  /-- FACCEPT_WRITE (R410). Accepts features and moves the device to Ready. -/
  | facceptWrite (n : Nat) (v : BitVec 64)
  /-- ARB_WRITE (R409). Blows anti-rollback fuses up to the running SVN. -/
  | arbWrite (v : BitVec 64)
  /-- ATTESTATION_REQUEST (R412). Writes a signed attestation report. -/
  | attestationRequest
  /-- PWRREQ_WRITE (R414). Requests a power state. -/
  | pwrreqWrite (v : BitVec 64)
  /-- POWER_STATE_CHANGE (R414). The requested power state takes effect once no launch runs. -/
  | powerStateChange
  /-- POWER_CAP_THROTTLE (R415). The power cap inserts idle issue cycles. -/
  | powerCapThrottle (on : Bool)
  /-- EVREQ_WRITE (R405). Starts an eviction from the management bus. -/
  | evreqWrite (v : BitVec 32)
  /-- FDEVID_WRITE (R423). Sets the device's fabric number in Offer. -/
  | fdevidWrite (v : BitVec 64)
  /-- FBD_WRITE (R432). Writes a fabric barrier descriptor. -/
  | fbdWrite (n : Nat) (v : BitVec 64)
  /-- REGISTER_WRITE (R4). Writes a register that has no behaviour of its own. -/
  | registerWrite (aperture offset : Nat) (v : BitVec 64)
  /-- POWER_ON_RESET (R408). Power-on or reset starts boot in ROM. -/
  | powerOnReset (fw : Firmware)
  /-- MEMORY_TRAINED (R408). Memory training and clearing complete. -/
  | memoryTrained (ok : Bool)
  /-- LINK_TRAINED (R408). The Abarath Link trains and features are offered. -/
  | linkTrained (lanes : Nat)
  /-- HOST_APERTURE_ACCESS (R401). A host access through an aperture. -/
  | hostApertureAccess (a : HostAccess)
  /-- HOST_ACK (R402). The host answers a device access. -/
  | hostAck (id : Nat) (ok : Bool) (data : List Byte)
  /-- HOST_TIMEOUT (R402). A host access is not answered within HTO. -/
  | hostTimeout (id : Nat)
  /-- RD (R426). A remote read request arrives at the target. -/
  | rd (m : Msg)
  /-- RDRESP (R429). A read response arrives at the initiator. -/
  | rdresp (m : Msg)
  /-- WR (R426). A remote write arrives at the target. -/
  | wr (m : Msg)
  /-- WRACK (R429). A write acknowledgement arrives at the initiator. -/
  | wrack (m : Msg)
  /-- ATOM (R426). A remote atomic arrives at the target. -/
  | atom (m : Msg)
  /-- ATOMRESP (R429). An atomic response arrives at the initiator. -/
  | atomresp (m : Msg)
  /-- NACK (R427). A refusal arrives at the initiator. -/
  | nack (m : Msg)
  /-- ARRIVE (R433). A fabric barrier arrival reaches the root. -/
  | arrive (m : Msg)
  /-- RELEASE (R433). A fabric barrier release reaches a member. -/
  | release (m : Msg)
  /-- WITHDRAW (R438). A partner stops routing to the evicting device. -/
  | withdraw (m : Msg)
  /-- WDACK (R438). A partner acknowledges a withdrawal. -/
  | wdack (m : Msg)
  /-- EVSTREAM (R439). A portion of the evicted state reaches the neighbour. -/
  | evstream (m : Msg)
  /-- FABRIC_TIMEOUT (R428). A remote request times out. -/
  | fabricTimeout (tag : Nat)
  /-- FABRIC_BARRIER_TIMEOUT (R433). A fabric barrier phase times out and waiters trap REMTIME. -/
  | fabricBarrierTimeout (launch n : Nat)
  /-- DECODING_FAULT (R57). A group fetches or issues a word with an unassigned or reserved major or minor, a bad fetch PC, or an engine-only major, and it traps ILLEGAL or ALIGN. -/
  | decodingFault (c : DecodeFault)
  /-- EGKV_COMMAND_COMPLETE (R337). An egkv gather or store finishes its last row, drops its key-slot reference and increments its token. -/
  | egkvCommandComplete (id : Nat)
  /-- BTB_PURGE_ACK (R339). A gather engine acknowledges a BTB purge, and the last acknowledgement completes egkv.purge, seqend or SEQCLOSE. -/
  | btbPurgeAck (core id : Nat)
  /-- PKR_PORT_ACK (R169). A memory port acknowledges a broadcast PKR value, and the last acknowledgement unparks the pkr.set fibres. -/
  | pkrPortAck (port id : Nat)
  /-- PREEMPTION_ABANDONED (R395). A pre-emption not complete within its bound (1 ms on core retirement, 1 s in an eviction drain) is abandoned, and its launches are replayed or abort. -/
  | preemptionAbandoned (launch : Nat)
  /-- EVICT_PHASE_OVERRUN (R440). An eviction phase overruns its time bound, the eviction fails, and a service request is raised. -/
  | evictPhaseOverrun
  /-- ATTESTATION_REPORT_WRITTEN (R412). The signed report is written to the host buffer, up to 60 ms after GO, and ATTCTL.STATUS becomes 2, 3 or 4. -/
  | attestationReportWritten (reached : Bool)
  /-- POWER_LOSS (R411). Module power is lost unrequested; nothing of the device stays powered, and an identity index being signed is burnt. -/
  | powerLoss
  deriving DecidableEq, Repr

end Sys2Proof
end

