-- ==== Sys2Proof/Machine/State.lean ====
section
/-!
DEFINITION. The state of the whole device as plain data: fibres, groups, blocks, bands, cores, engine programs,
dies with their memory ports, memory, the command processor, the key store, the device's registers, the fabric; and
what acts next. Tables are sparse lists: an entry that is absent is in its initial state. INVENTORY.md names the rule
of spec/ behind every field.
-/

namespace Sys2Proof.Machine

open Sys2Proof

/-! ### Registers -/

/-- A live register: its value and whether it is poisoned (01 R25, 03 R59). -/
structure Reg where
  val : Word
  poison : Bool
  deriving DecidableEq, Repr

/-- A register file: its live registers in rising order of number, the quads (number / 4) whose capability tag is set (03 R83),
and, of registers that a load filled with poison, the key of the poisoned byte in memory (19 R385). -/
structure RegFile where
  regs : List (Nat × Reg)
  tags : List Nat
  srcs : List (Nat × Nat) := []
  deriving DecidableEq, Repr

/-! ### Fibres -/

/-- A lane holds a live fibre, a helper, or is free (01 R17, R26, R27). -/
inductive LaneStatus where
  | live | helper | free
  deriving DecidableEq, Repr

/-- Why a live fibre is parked (01 R17). -/
inductive Park where
  /-- waits at a convergence register it signed -/
  | cv (n : Nat)
  /-- waits at `bar` or `tbar`: the barrier, the address of its word, its count -/
  | barrier (b : BarKey) (amber : Bool) (pc : Word) (count : Option Word)
  /-- after `yield`: the lanes that have not issued since -/
  | yield (owed : LaneMask)
  /-- for the completion of the pending instruction with this number -/
  | await (op : Nat)
  /-- its word is held back: a counter, the side log, return slots or another structure is full or busy -/
  | held
  /-- its wait ended while the group was in its handler: parked until `rtt` (01 R32) -/
  | untilRtt
  /-- at a load or atomic that faulted: parked until the group's pages are mapped, and then it issues the word again -/
  | fault
  deriving DecidableEq, Repr

/-- One lane of a group: the state of its fibre or helper (01 R12). -/
structure Lane where
  status : LaneStatus
  park : Option Park
  pc : Word
  preds : BitVec 16
  predPoison : BitVec 16
  /-- predicate writes of the run, committed at its drain: values, which are written, poison (01 R23) -/
  predNew : BitVec 16
  predMask : BitVec 16
  predNewPoison : BitVec 16
  vb : Nat
  v : RegFile
  fpsr : BitVec 7
  /-- the last `movs` write of fpsr in the run, and the flags the run raised (04 R104) -/
  fpsrWrite : Option (BitVec 7)
  flags : BitVec 7
  calls : BitVec 64
  tpc : Word
  /-- entered the trap handler, to be resumed by `rtt` (01 R32) -/
  trapped : Bool
  /-- parked when the group entered its handler, which it did not enter (01 R32) -/
  outside : Bool
  deriving DecidableEq, Repr

/-! ### Groups -/

/-- A convergence register (03 R80, R81, 09 R212): the declared set, the members that signed with the address of
the word each signed at, and the matrix word that signs it. -/
structure CvReg where
  declared : Option LaneMask
  signed : List (Nat × Word)
  op : Option Instr
  queued : Bool
  deriving DecidableEq, Repr

/-- A register written in the current run, with what it held before (01 R22, R31): `lane` is none for a uniform
register, `old` is none for a dead one; `oldTag` is its quad's tag before; `pending` is the reply that still brings
the new value; `src` is the lane the reply names, where a child shares its parent's pending register (01 R12, R26);
`freed` marks a last use, which is undone like a write but is none (01 R24). The latest entry stands first. -/
structure RunWrite where
  lane : Option Nat
  reg : Nat
  old : Option Reg
  oldTag : Bool
  pending : Option Nat
  src : Option Nat := none
  freed : Bool := false
  deriving DecidableEq, Repr

/-- An instruction whose completion parks its fibres (01 R17): its address and size give the word to trap at and
the word to go on from. -/
structure PendOp where
  id : Nat
  lanes : LaneMask
  pc : Word
  instr : Instr
  /-- values read at issue -/
  args : List Word
  /-- where its results go: lane (none for a uniform register) and first absolute register number -/
  dst : List (Option Nat × Nat)
  /-- acknowledgements still awaited -/
  acks : List Nat
  deadline : Option Nat
  /-- the cycle of its issue; its request's number in the group, and whether that has been sent -/
  issued : Nat
  seq : Nat
  sent : Bool
  /-- the pending instruction has been answered: what it waits for is done -/
  ready : Bool
  /-- lanes whose access failed at the host or a peer: lane, code, virtual address (01 R31, 22 R429) -/
  fails : List (Nat × BitVec 8 × Nat) := []
  deriving DecidableEq, Repr

/-- The outstanding counters (10 R237). -/
inductive Ctr where
  | st | ce | ge | me | ke | ms
  deriving DecidableEq, Repr

/-- An operation counted in a counter, in issue order; a completed one is counted until the older ones of its
class have completed (06 R170, 10 R237). -/
structure Outst where
  ctr : Ctr
  id : Nat
  done : Bool
  /-- the cycle from which a write to the core's own local memory is past the Shadow window (06 R150, R170) -/
  due : Option Nat := none
  deriving DecidableEq, Repr

/-- A recorded write failure: trap code and address (06 R174, 22 R430). -/
structure FailRec where
  code : BitVec 8
  addr : BitVec 64
  deriving DecidableEq, Repr

/-- A start slot: its status word, and the program that keeps it busy (10 R231, R232). -/
structure StartSlot where
  status : Word
  engine : Option Nat
  deriving DecidableEq, Repr

/-- The operand-collector latch (09 R215). -/
structure Collector where
  a : BitVec 7
  af : BitVec 3
  extent : Nat
  cv : Nat
  rows : List (Nat × List Reg)
  deriving DecidableEq, Repr

/-- The rename checkpoint behind a word that may trap after later words of its run have issued (01 R31): how much of the
run stood before it, the group's registers that have no entry in the run's writes, and each lane that later words have
touched, as it was. `pc` and `lanes` name the word. -/
structure RunMark where
  pc : Word
  lanes : LaneMask
  cycle : Nat
  writes : Nat
  seq : Nat
  nextId : Nat
  runCount : Nat
  ub : Nat
  fpcrWrite : Option (BitVec 5)
  msrWrite : Option Word
  cvs : List CvReg
  slots : List StartSlot
  collector : Option Collector
  before : List (Nat × Lane)
  deriving DecidableEq, Repr

/-- The Amber states (10 R249). -/
inductive AmberState where
  | idle | speculating | stalled | waiting | draining
  deriving DecidableEq, Repr

/-- The Amber checkpoint, and the cycle in which it was taken (10 R245). -/
structure AmberCkpt where
  cycle : Nat
  bar : BarKey
  lanes : List Lane
  s : RegFile
  ub : Nat
  fpcr : BitVec 5
  msr : Word
  cvs : List CvReg
  slots : List StartSlot
  collector : Option Collector
  runCount : Nat
  written : List RunWrite
  fpcrWrite : Option (BitVec 5)
  msrWrite : Option Word
  pend : List PendOp
  deriving DecidableEq, Repr

/-- A value that entered the region, to be taken again in re-execution (19 R378, R380): the word's cycle and address,
the request it answers if that waited in the hold queue, and per lane the registers; the mark is the tag of a load, or
tells a weight run from a datum. -/
structure Ret where
  group : GKey
  cycle : Nat
  pc : Word
  op : Option Nat
  vals : List (Nat × List Reg × Bool)
  deriving DecidableEq, Repr

/-- A valid line of L1: 128 bytes, and of its eight granules the tags and the poison (06 R149, 15 R311). -/
structure L1Line where
  data : List Byte
  tags : BitVec 8
  poison : BitVec 8
  deriving DecidableEq, Repr

/-- A resident group (01 R9, R12, R30). -/
structure Group where
  key : GKey
  ctx : Nat
  core : Nat
  row : Nat
  pos : Nat
  w : Nat
  lanes : List Lane
  s : RegFile
  ub : Nat
  fpcr : BitVec 5
  fpcrWrite : Option (BitVec 5)
  msr : Word
  msrWrite : Option Word
  cvs : List CvReg
  /-- the run: words issued, registers written, and whether it is draining (01 R21, R22) -/
  runCount : Nat
  written : List RunWrite
  draining : Bool
  /-- words of the run that may still trap (01 R31) -/
  marks : List RunMark := []
  tcause : BitVec 8
  tval : BitVec 64
  tmask : LaneMask
  handler : Bool
  outst : List Outst
  fails : List FailRec
  fabFails : List FailRec
  slots : List StartSlot
  collector : Option Collector
  amber : AmberState
  ckpt : Option AmberCkpt
  pend : List PendOp
  /-- pages the group waits for, and the host or peer accesses its load (2 * tag) or atomic (2 * request + 1) waits
  for -/
  faultPages : List Nat
  remote : List Nat
  /-- lines that the host or peers have answered the group's load with, until it executes again -/
  fetched : List (Nat × L1Line)
  /-- the failure a host or peer answered the group's load with: code and line address -/
  remoteFail : List (BitVec 8 × Nat)
  /-- consumed poison in a replayable launch: nothing more issues (19 R385) -/
  stopped : Bool
  /-- write-class requests issued, and values to take again after a rollback (19 R378, R380) -/
  seq : Nat
  redo : List Ret
  /-- groups of its row that must issue, or stop being ready, before it is eligible again (10 R251) -/
  after : List GKey
  deriving DecidableEq, Repr

/-! ### Requests -/

/-- The memory a request goes to. -/
inductive Space where
  | global
  | cluster
  | partner
  deriving DecidableEq, Repr

/-- The read-modify-write operations (06 R161, R163). -/
inductive AtomOp where
  | i32 (aop : Nat)
  | i64 (aop : Nat)
  | f32 (aop : Nat)
  | cas (wide : Bool)
  | xchg (wide : Bool)
  deriving DecidableEq, Repr

/-- One lane's store: its address (virtual or local; at a home a memory key), its virtual address, bytes, and the
tag a width-7 store writes (06 R155, R157). -/
structure LaneStore where
  lane : Nat
  addr : Nat
  va : Nat
  bytes : List Byte
  tag : Option Bool
  /-- the data is poisoned: a soft step's tape, or a copy (07 R196, 10 R234) -/
  poison : Bool
  /-- places of bytes that a higher lane of the instruction writes instead (06 R158) -/
  hidden : List Nat := []
  deriving DecidableEq, Repr

/-- One lane's read-modify-write: address, virtual address, operand, compare value (06 R162, R163). -/
structure LaneRmw where
  lane : Nat
  addr : Nat
  va : Nat
  x : DWord
  cmp : DWord
  deriving DecidableEq, Repr

/-- The soft operations (07 R183, R184, R188, R189). -/
inductive SoftOp where
  | sld
  | sst (add : Bool)
  | sldg
  | sstg (add : Bool)
  /-- the second steps: `sst` at its tape, `sldg` at the gradient region, `sstg` at the gradient region after its tape
  was read -/
  | tape
  | grad
  | back
  deriving DecidableEq, Repr

/-- How far a lane's step has come: it waits for the lane's first step, is not begun, or is reading or writing its region. -/
inductive SoftStage where
  | wait | idle | read | write
  deriving DecidableEq, Repr

/-- One lane of a soft instruction, or of one of its steps at a home: the value or tape region by address, in the hold queue
the prefix's region too, slots, elements, weights, and the stored value or gradient (07 R183 to R189). -/
structure LaneSoft where
  lane : Nat
  addr : Nat
  va : Nat
  addr2 : Option Nat
  va2 : Nat
  n : Nat
  k : Nat
  weights : List Word
  vals : List Word
  /-- what the first step leaves for the second: the elements read, or the weight results of `sldg` -/
  carry : List Reg
  stage : SoftStage := .idle
  /-- the elements to be written, and the results computed -/
  store : List Reg := []
  datum : List Reg := []
  run : List Reg := []
  deriving DecidableEq, Repr

/-- Where a reply is written: the destination's field number resolved per lane; none for nothing to return. -/
structure Dest where
  /-- uniform destination -/
  uniform : Bool
  /-- (lane, first register) for a vector destination; one entry for a uniform one -/
  regs : List (Nat × Nat)
  /-- registers written per lane -/
  count : Nat
  deriving DecidableEq, Repr

/-- What a queued request does. -/
inductive ReqBody where
  | store (sp : Space) (lanes : List LaneStore)
  | rmw (sp : Space) (op : AtomOp) (dst : Option Dest) (lanes : List LaneRmw)
  | soft (op : SoftOp) (dst : Dest) (runs : Dest) (lanes : List LaneSoft)
  | msc (id : Nat)
  /-- a request of R381 to a unit outside the core: the word, the pending instruction, the values it carries with
  the lane each comes from -/
  | unit (i : Instr) (args : List Reg) (laneArgs : List (Nat × Reg))
  deriving DecidableEq, Repr

/-- A request in a core's hold queue (06 R150, 19 R381). `after` names the `msc` with REL = 1 it must wait for
(12 R287). -/
structure Req where
  id : Nat
  seq : Nat
  group : GKey
  issued : Nat
  after : Option Nat
  /-- an engine program's store: the program, its place in it, its address (10 R230) -/
  eng : Option (Nat × Nat × Word)
  body : ReqBody
  deriving DecidableEq, Repr

/-- A request whose parts have left: how many are still to be performed and acknowledged, and what it counts in
(06 R170). -/
structure Inflight where
  id : Nat
  group : GKey
  core : Nat
  eng : Option (Nat × Nat × Word)
  parts : Nat
  deriving DecidableEq, Repr

/-- An entry of a home's request queue (11 R263), with physical addresses. -/
structure HomeReq where
  id : Nat
  src : Source
  group : GKey
  home : Nat
  body : ReqBody
  /-- the core whose hold queue it left: an engine program's is known when the program has ended -/
  core : Nat
  deriving DecidableEq, Repr

/-- A reply on its way to a core (11 R264): for each value its lane (none for a uniform register), its first absolute
register number, its registers, and whether it is a weight run. -/
structure ReplyMsg where
  id : Nat
  group : GKey
  vals : List (Option Nat × Nat × List Reg × Bool)
  deriving DecidableEq, Repr

/-- Lanes of a write that faulted resolvably: in the side log, or waiting at the port for want of an entry
(06 R172, R173). -/
structure LogEntry where
  id : Nat
  group : GKey
  ctx : Nat
  page : Nat
  inLog : Bool
  body : ReqBody
  deriving DecidableEq, Repr

/-! ### Cores -/

/-- A superblock of L1: context, virtual address bits from 9 up, four lines (06 R149). -/
structure SuperBlock where
  ctx : Nat
  tag : Nat
  lines : List (Option L1Line)
  deriving DecidableEq, Repr

/-- The source of a latched tile (09 R208). -/
structure TileSrc where
  hdr0 : Word
  hdr1 : Word
  capAddr : Nat
  group : GKey
  ctx : Nat
  deriving DecidableEq, Repr

/-- A weight tile (09 R201, R204): format, declared rows and columns, element bits row-major over W columns. -/
structure Tile where
  fmt : Nat
  krows : Nat
  cols : Nat
  elems : List Word
  poison : Bool
  src : TileSrc
  deriving DecidableEq, Repr

/-- An operation that stands in a slice's order (09 R210). -/
inductive SliceOp where
  | mwl (id : Nat)
  | mswap (id : Nat)
  | mscl (vals : List (Nat × Reg))
  | product (g : GKey) (cv : Nat)
  /-- a latch is reloaded from its tile's source (09 R208) -/
  | reload (id : Nat)
  deriving DecidableEq, Repr

/-- A slice of an array: its columns, latches, scales and the operations that stand in its order (09 R201, R210). -/
structure Slice where
  arr : Nat
  base : Nat
  width : Nat
  cur : Option Tile
  shadow : Option Tile
  scales : List Reg
  order : List SliceOp
  deriving DecidableEq, Repr

/-- An `mwl` whose tile is not yet latched (09 R206, R210), or the reload of a latch from its tile's source: of the
shadow latch or the current one (09 R208). `behind` lists the group's older local writes that had not reached their
memory when it issued. -/
structure MwlOp where
  id : Nat
  group : GKey
  core : Nat
  arr : Nat
  base : Nat
  src : TileSrc
  width : Nat := 8
  behind : List Nat := []
  reload : Option Bool := none
  deriving DecidableEq, Repr

/-- A word that changes a slice: its cycle and group, the slice, the operation, and the `mwl` (09 R226). -/
structure LatchUse where
  cycle : Nat
  group : GKey
  arr : Nat
  base : Nat
  width : Nat
  op : SliceOp
  load : Option MwlOp
  deriving DecidableEq, Repr

/-- A local-memory write kept for a rollback (19 R378): what it replaced and wrote, whether it came from outside the
region, the command or the group that made it, and the poisoned words before and after (10 R234). -/
structure Undo where
  cycle : Nat
  writer : Option GKey
  block : Nat
  launch : Nat
  addr : Nat
  old : List Byte
  new : List Byte
  outside : Bool
  cmd : Option Nat
  oldBad : List Nat
  newBad : Bool
  deriving DecidableEq, Repr

/-- An entry of a gather engine's block translation buffer (16 R335). -/
structure BtbEntry where
  ctx : Nat
  seq : Word
  stream : Nat
  block : Nat
  phys : Word
  kslot : Nat
  deriving DecidableEq, Repr

/-- A row of a core's lease table (10 R252). -/
inductive RowState where
  | loading | running | draining
  deriving DecidableEq, Repr

/-- A row in use: its number, state, launch, width and lease (01 R15, 10 R252). -/
structure RowUse where
  row : Nat
  state : RowState
  launch : Nat
  w : Nat
  lease : Nat
  deriving DecidableEq, Repr

/-- A line of the Amber store buffer: the group, the store as issued (10 R246). -/
structure AmberStore where
  group : GKey
  space : Option Space
  store : LaneStore
  deriving DecidableEq, Repr

/-- A line of the Amber read table: group, global (with context) or local (with block) line (10 R246). -/
structure AmberRead where
  group : GKey
  isLocal : Bool
  line : Nat
  deriving DecidableEq, Repr

/-! ### Engines and commands -/

/-- A command failure of an engine program: place in program order, status code, word address (10 R230). -/
structure EngFail where
  order : Nat
  code : Nat
  pc : Word
  deriving DecidableEq, Repr

/-- A `waitt` of an engine program in progress: the token's address, the value, its last cycle, PD (10 R239). -/
structure EngWait where
  va : Nat
  want : Nat
  deadline : Option Nat
  pd : Nat
  /-- t = 0: the token is tested once -/
  once : Bool := false
  deriving DecidableEq, Repr

/-- An engine program, waiting for or holding a context (10 R229, R230). -/
structure Engine where
  id : Nat
  seqr : Sequencer
  group : GKey
  slot : Nat
  ctx : Nat
  started : Bool
  pc : Word
  s : RegFile
  preds : BitVec 16
  predPoison : BitVec 16
  /-- words executed, and commands started and not complete -/
  count : Nat
  cmds : List Nat
  fails : List EngFail
  /-- the program has stopped or ended: its own status -/
  stopped : Option Nat
  stopPc : Word
  /-- a `waitt` in progress -/
  waitt : Option EngWait
  /-- a load's access to the host or a peer, and the bytes it was answered with, with their poison -/
  remote : Option Nat
  data : Option (List Byte × Bool)
  /-- values and commands to take again after a rollback (19 R380) -/
  redo : List Ret
  /-- when its sequencer took it last, on the model's own count (10 R229) -/
  lastTurn : Nat := 0
  deriving DecidableEq, Repr

/-- Who started a command: a group's word, an engine's word at a place in its program, or the command processor. -/
inductive Owner where
  | group (g : GKey)
  | engine (id order : Nat) (pc : Word)
  | node (n : NKey)
  deriving DecidableEq, Repr

/-- One side of a copy (10 R233). -/
inductive Side where
  | global (va : Nat)
  | localMem (launch block addr : Nat)
  deriving DecidableEq, Repr

/-- A granule read by a copy and not yet written, or an element of an `emerge`: bytes, tag, poison (10 R234, 16 R345). -/
structure Granule where
  bytes : List Byte
  tag : Bool
  poison : Bool
  deriving DecidableEq, Repr

/-- A copy, multicast or command-processor COPY in progress (10 R234, 11 R270, 18 R355). -/
structure Copy where
  id : Nat
  owner : Owner
  ctx : Nat
  core : Nat
  src : Side
  dst : List Side
  len : Nat
  tags : Bool
  token : Option Nat
  /-- what the token gains -/
  inc : DWord
  issued : Nat
  readPos : Nat
  buf : List Granule
  writePos : Nat
  /-- where the last poisoned granule written ends -/
  badTo : Nat := 0
  deriving DecidableEq, Repr

/-- The forms of `egkv` (16 R336). -/
inductive GatherForm where
  | ld | ldx | st | purge
  deriving DecidableEq, Repr

/-- An `egkv` in progress (16 R337). -/
structure Gather where
  id : Nat
  owner : Owner
  ge : Nat
  ctx : Nat
  form : GatherForm
  seq : Word
  stream : Nat
  kslot : Nat
  ntok : Nat
  nblk : Nat
  rowb : Nat
  table : Nat
  pool : Nat
  t0 : Nat
  n : Nat
  k : Nat
  laddr : Nat
  launch : Nat
  block : Nat
  token : Option Nat
  issued : Nat
  acks : List Nat
  deriving DecidableEq, Repr

/-- A memory-side command in progress (06 R166, R167). -/
structure MscOp where
  id : Nat
  owner : Owner
  ctx : Nat
  core : Nat
  cmd : Nat
  rel : Bool
  target : Nat
  source : Nat
  p0 : Word
  p1 : Word
  p2 : Word
  left : Bool
  /-- next element, and its source elements read at the host or a peer -/
  pos : Nat
  buf : List Reg
  /-- the element of the host that is being read and written, which no other access may reach meanwhile, and its new value -/
  held : Option Nat := none
  out : Option Reg := none
  /-- requests of the core that had left before it (06 R167) -/
  before : List Nat
  deriving DecidableEq, Repr

/-! ### Blocks and bands -/

/-- Local or cluster memory: bytes that are not 0 in rising order of address, and poisoned 4-byte words
(06 R146, 10 R234). -/
structure LocalMem where
  cells : List Host.Cell
  poison : List Nat
  deriving DecidableEq, Repr

/-- A hardware barrier (10 R240 to R242): phase, groups arrived, the count of the phase, groups that arrive next. -/
structure BarState where
  id : Nat
  phase : Nat
  arrived : List GKey
  count : Option Nat
  deriving DecidableEq, Repr

/-- A resident block (10 R253). -/
structure Block where
  launch : Nat
  index : Nat
  band : Nat
  core : Nat
  core2 : Option Nat
  len : Nat
  split : Nat
  groups : Nat
  ended : List Nat
  mem : LocalMem
  bars : List BarState
  deriving DecidableEq, Repr

/-- A contribution to the cluster reduction unit (11 R266, R267). -/
structure Contrib where
  slot : Nat
  k : Nat
  sum : Bool
  m : Reg
  l : Reg
  acc : List Reg
  deriving DecidableEq, Repr

/-- A slot of the cluster reduction unit (11 R265). -/
structure CruSlot where
  id : Nat
  n : Nat
  mode : Option Bool
  received : List Nat
  merged : Nat
  m : Reg
  l : Reg
  acc : List Reg
  complete : Bool
  err : Bool
  deriving DecidableEq, Repr

/-- A resident band (11 R256, R265, 16 R342). -/
structure Band where
  launch : Nat
  index : Nat
  cluster : Nat
  clen : Nat
  mem : LocalMem
  bars : List BarState
  cru : Bool
  slots : List CruSlot
  buffered : List Contrib
  cq : List Reg
  deriving DecidableEq, Repr

/-! ### Cores and dies -/

/-- A rolling Shadow checkpoint (19 R378). -/
structure ShadowCkpt where
  cycle : Nat
  /-- the cycle in which it was last restored -/
  restored : Nat
  groups : List Group
  engines : List Engine
  slices : List Slice
  mwls : List MwlOp
  stores : List AmberStore
  reads : List AmberRead
  deriving DecidableEq, Repr

/-- A core that holds or has held something (00 R1). -/
structure Core where
  id : Nat
  hold : List Req
  l1 : List SuperBlock
  log : List LogEntry
  stores : List AmberStore
  reads : List AmberRead
  rows : List RowUse
  slices : List Slice
  /-- launches whose groups have changed latches or scales here; and those that have started here since the latches were
  last cleared, with the core whose saved latches were put back (09 R202, R226) -/
  matrixUsers : List Nat
  matrixFor : List (Nat × Option Nat)
  /-- words that changed a slice while checkpoints may need them (09 R226) -/
  sliceUses : List LatchUse
  slotsUsed : List Nat
  btb : List BtbEntry
  ckpts : List ShadowCkpt
  /-- the checkpoints of its cluster's KE, kept with core 0 -/
  keCkpts : List ShadowCkpt := []
  record : List Ret
  undo : List Undo
  /-- requests that have left the hold queue: group, number in the group, identity (19 R380) -/
  left : List (GKey × Nat × Nat)
  /-- the row each slot chose last (10 R251) -/
  chosen : List (Nat × Nat)
  deriving DecidableEq, Repr

/-- An entry of a translation buffer: the page, the level of its leaf (15 R317), the leaf entry (15 R320). -/
structure TbEntry where
  ctx : Nat
  page : Nat
  level : Nat
  leaf : BitVec 64
  deriving DecidableEq, Repr

/-- An entry of the walk cache: the part of the address walked, and the next table (15 R314, R324). -/
structure WalkEntry where
  ctx : Nat
  level : Nat
  part : Nat
  table : Nat
  deriving DecidableEq, Repr

/-- An error record (19 R398). -/
structure ErrRec where
  evt : Nat
  struct : Nat
  die : Nat
  cluster : Nat
  core : Nat
  flags : Nat
  index : Nat
  time : Nat
  launch : Nat
  ctx : Nat
  addr : Nat
  deriving DecidableEq, Repr

/-- A die: its clock, home table, registers and memory port (11 R261, 15, 19 R397). -/
structure Die where
  clock : Nat
  homes : List Nat
  lctl : List (BitVec 64)
  llim : List (BitVec 64)
  eqbase : BitVec 64
  eqhead : Word
  eqtail : Word
  eqlost : Word
  scnt : DWord
  held : List ErrRec
  /-- installed contexts: number and root table address (15 R315) -/
  desc : List (Nat × Nat)
  tb : List TbEntry
  walks : List WalkEntry
  pkr : List (Nat × DWord)
  /-- resolvable faults reported and not served: context and page (15 R327) -/
  faults : List (Nat × Nat)
  /-- a weight-store bank in its refresh window (15 R313) -/
  refresh : Option Nat
  deriving DecidableEq, Repr

/-! ### Memory -/

/-- A home's latest step for a launch, by its service group or by the slice alone: the cluster, the clock of its die
(11 R262, R274). -/
structure Served where
  home : Nat
  launch : Nat
  group : Bool
  cycle : Nat
  deriving DecidableEq, Repr

/-- A launch's latest presence in a region that it has left: a group, an engine program or a request, and the clock of the
region's die (19 R384). -/
structure Seen where
  region : Region
  launch : Nat
  cycle : Nat
  deriving DecidableEq, Repr

/-- Memory of the package: TIER 0 and TIER 1 bytes that are not 0 in rising order of key, set granule tags and
poisoned lines (granules of TIER 1). The key of a byte is tier * 2^52 + pa (15 R300, R307, R309, R311). -/
structure Memory where
  cells : List Host.Cell
  tags : List Nat
  poison : List Nat
  deriving DecidableEq, Repr

/-! ### Command processor -/

/-- A queue's registers (18 R351). -/
structure Queue where
  n : Nat
  base : BitVec 64
  cfg : BitVec 64
  head : Word
  tail : Word
  /-- records that `lnch` appended and that are not accepted: index, launch, whether withdrawn (18 R372) -/
  owners : List (Word × Nat × Bool)
  /-- the command accepted last, for SER (18 R354) -/
  last : Option NKey
  deriving DecidableEq, Repr

/-- The state of a live node (18 R357 to R359). -/
inductive NodeState where
  | waiting | ready | running | effectDone
  deriving DecidableEq, Repr

/-- A live node: its record's bytes as a 512-bit number, unmet predecessors, successors (18 R357). -/
structure Node where
  key : NKey
  queue : Nat
  index : Word
  record : BitVec 512
  count : Nat
  succs : List NKey
  state : NodeState
  /-- the launch that appended it by `lnch` (18 R372) -/
  by' : Option Nat
  launch : Option Nat
  /-- its place in the order in which nodes became ready (18 R353) -/
  readyNo : Nat
  /-- the cycle in which it became ready (18 R373) -/
  readyAt : Nat
  deriving DecidableEq, Repr

/-- A range entry (18 R361). -/
structure RangeEntry where
  va : Nat
  len : Nat
  img : Nat
  slice : Nat
  use : Nat
  reuse : Nat
  lazy : Bool
  deriving DecidableEq, Repr

/-- The states of a launch: running; being pre-empted; saved; stopped for a restoration; restored, to be placed again
(18 R374, 19 R390). -/
inductive LaunchState where
  | running | draining | saved | restoring | replaying
  deriving DecidableEq, Repr

/-- Why a launch is pre-empted (18 R373, 19 R395, 20 R414). -/
inductive DrainFor where
  | driver | priority | evict | retire | power
  deriving DecidableEq, Repr

/-- Why a launch aborted: KIND, CAUSE, TRAP and ADDR of its record (19 R443). -/
structure AbortRec where
  kind : Nat
  cause : Nat
  trap : Nat
  addr : Nat
  deriving DecidableEq, Repr

/-- A page copied to the snapshot area, or a fresh page of a lazy range (19 R386): page address, key of its frame, its
place in the area. -/
structure SnapPage where
  va : Nat
  frame : Nat
  area : Option Nat
  deriving DecidableEq, Repr

/-- A tree number a launch holds: its wire, phase, and the groups that arrived (11 R271, R272, 18 R371). -/
structure TreeUse where
  n : Nat
  wire : Nat
  phase : Nat
  arrived : List GKey
  /-- a fabric barrier: the cycle since which the device, complete itself, waits for the others (22 R433) -/
  since : Option Nat
  deriving DecidableEq, Repr

/-- A launch (18 R360 to R375, 19 R386 to R390). -/
structure Launch where
  id : Nat
  ctx : Nat
  node : NKey
  prio : Nat
  seed : DWord
  code : Nat
  codeLen : Nat
  entry : Nat
  trapv : Nat
  w : Nat
  band : Nat
  cru : Bool
  bfibres : Nat
  regs : Nat
  uniform : Nat
  localLen : Nat
  clen : Nat
  nblocks : Nat
  ranges : List RangeEntry
  argVa : Nat
  argLen : Nat
  pendingBands : List Nat
  state : LaunchState
  /-- a pre-emption in progress: its reason, and the cycle in which it began (18 R373, R374) -/
  drain : Option (DrainFor × Nat)
  /-- the cycle in which it was placed, or a block of it was placed last (18 R373) -/
  lastPlaced : Nat
  attempt : Nat
  nonReplay : Option Nat
  /-- poison consumed, or a late strike: a replay is due (19 R384, R385) -/
  replayDue : Bool
  poisonSrc : Option Nat
  pages : List SnapPage
  trees : List TreeUse
  saved : List Group
  savedEngines : List Engine
  savedBlocks : List Block
  savedBands : List Band
  /-- slices by block and half, and the core they were on (09 R226) -/
  savedSlices : List (Nat × Nat × Nat × List Slice)
  /-- LLC range registers before its placement set them: die, number, CTL, LIM (18 R368) -/
  lranges : List (Nat × Nat × BitVec 64 × BitVec 64)
  deriving DecidableEq, Repr

/-- A range of a context whose unmapped pages fault resolvably: placed lazily, or in the host tier (15 R326). -/
structure LazyRange where
  ctx : Nat
  va : Nat
  len : Nat
  img : Nat
  imgLen : Nat
  /-- capability slots of the image: offset in the range and value (18 R363) -/
  slots : List (Nat × BitVec 128)
  /-- placed in the host tier, not lazily: its pages' frames are the host's -/
  hosted : Bool
  deriving DecidableEq, Repr

/-- A fault that the service could not complete: until the groups and engine programs that waited for it have issued again, the
page is unresolvable; `going` are those that are issuing (15 R329). -/
structure BadPage where
  ctx : Nat
  page : Nat
  waiters : List Agent
  going : List Agent
  deriving DecidableEq, Repr

/-- A page-table entry that placement has made invalid: the launch that is being placed, the addresses the entry serves, where
it stands, and what it held (18 R365). -/
structure Moving where
  launch : Nat
  ctx : Nat
  va : Nat
  size : Nat
  addr : Nat
  entry : BitVec 64
  deriving DecidableEq, Repr

/-- A context (20 R406). -/
structure Context where
  num : Nat
  root : Nat
  savePa : Nat
  saveLen : Nat
  snapPa : Nat
  snapLen : Nat
  logPa : Nat
  pkr : DWord
  deriving DecidableEq, Repr

/-- A key slot that is not free (16 R333). -/
structure KeySlot where
  n : Nat
  retiring : Bool
  ctx : Nat
  seq : Word
  k1 : BitVec 256
  k2 : BitVec 256
  refs : List Nat
  deriving DecidableEq, Repr

/-- A retirement in progress at the key store: the pending `seqend` of a group, or SEQCLOSE (16 R339, 20 R406). -/
structure Retire where
  id : Nat
  slot : Nat
  group : Option GKey
  acks : List Nat
  purging : Bool
  deriving DecidableEq, Repr

/-- The command processor's and the key store's state. -/
structure CmdProc where
  queues : List Queue
  nodes : List Node
  launches : List Launch
  nextLaunch : Nat
  ctxs : List Context
  lazy : List LazyRange
  /-- CPARG0 to CPARG7, and what they held when the driver's command in progress started -/
  arg : List (BitVec 64)
  cmd : List (BitVec 64)
  status : Nat
  result : Nat
  op : Nat
  /-- acknowledgements an INVAL still awaits -/
  invalAcks : List Nat
  nextQueue : Nat
  wires : List (Nat × Nat)
  retiredWires : List Nat
  seqsUsed : List Word
  keys : List KeySlot
  retires : List Retire
  keyDraws : Nat
  /-- snapshot faults that wait for the snapshot manager: context and page (15 R323) -/
  snapFaults : List (Nat × Nat)
  /-- pages whose fault the service could not complete (15 R329) -/
  badPages : List BadPage
  /-- page-table entries that placement has made invalid while it moves their pages (18 R365) -/
  moving : List Moving
  /-- ranges with copies in the dies' tables: context, address, bytes (18 R367) -/
  replicas : List (Nat × Nat × Nat)
  deriving DecidableEq, Repr

/-! ### Device registers, reliability, fabric -/

/-- The phases of an eviction (22 R438); `failed` after R440. -/
inductive EvictPhase where
  | stop | drain | keys | stream | routes | unlatch | failed
  deriving DecidableEq, Repr

/-- An eviction (22 R436 to R440). -/
structure Eviction where
  neigh : Nat
  grace : Nat
  force : Bool
  node : Option NKey
  phase : EvictPhase
  /-- the cycle in which the phase began, and whether its grace has ended -/
  since : Nat
  expired : Bool
  /-- link partners whose WDACK is awaited -/
  partners : List Nat
  deriving DecidableEq, Repr

/-- The registers of the device outside its dies (20, 22). -/
structure DevRegs where
  facc : List (BitVec 64)
  locked : Bool
  linkto : Word
  flinkto : Word
  fdevid : BitVec 12
  frecvEn : Bool
  frecvSrc : BitVec 12
  froute : List (Nat × Word)
  fwinCtl : List (Nat × BitVec 64)
  fwinLim : List (Nat × BitVec 64)
  fbd : List (Nat × BitVec 64)
  /-- PWRREQ and the power state (20 R405, R414) -/
  pwrReq : Nat
  pwrPend : Bool
  pwrPreempt : Bool
  pwr : Nat
  throt : Bool
  unlatch : Bool
  evictBit : Bool
  svcreq : Bool
  bstate : Nat
  bcause : Nat
  fuses : Nat
  svn : Nat
  measurement : BitVec 256
  attStatus : Nat
  attIndex : Nat
  attBuf : BitVec 64
  attNonce : List (BitVec 64)
  /-- the report in progress, without its signature; once it is written, the whole of it -/
  attReport : List Byte
  eviction : Option Eviction
  /-- the value that the last read by the host, or on the management bus, returned (20 R401, R413) -/
  hostReply : Option (List Byte)
  deriving DecidableEq, Repr

/-- What an access to the host or a peer is for (20 R402, 22 R429). -/
inductive RemoteFor where
  /-- a load's line for a group, by virtual address -/
  | line (g : GKey) (va : Nat)
  /-- a home's request, forwarded: one lane -/
  | req (r : HomeReq)
  /-- a piece of the operation with this number: a copy, a gather, a memory-side command, a soft step, a token -/
  | op (id key : Nat)
  /-- an engine program's load -/
  | engine (id : Nat)
  deriving DecidableEq, Repr

/-- An outstanding access to the host (20 R402) or to a peer (22 R428). `tag` is its number. -/
structure Remote where
  tag : Nat
  host : Bool
  pa : Nat
  size : Nat
  sent : Nat
  for' : RemoteFor
  deriving DecidableEq, Repr

/-- What the host or a peer answered for a piece of an operation: its bytes, or the trap code of its failure. -/
structure Answer where
  id : Nat
  key : Nat
  fail : Option (BitVec 8)
  poison : Bool
  data : List Byte
  deriving DecidableEq, Repr

/-- A self-test that has started: the structure's STRUCT code, its unit, its place there, its die and the cycle (19 R392). -/
structure Testing where
  struct : Nat
  unit : Nat
  index : Nat
  die : Nat
  since : Nat
  deriving DecidableEq, Repr

/-- Reliability: retired parts, spares used, event times of the self-test (19 R393 to R395). -/
structure Repair where
  cores : List Nat
  clusters : List Nat
  spares : List (Nat × Nat × Nat)
  events : List (Nat × Nat × Nat × Nat)
  tests : List Testing := []
  deriving DecidableEq, Repr

/-- The fabric side (22). -/
structure Fabric where
  portsUp : BitVec 16
  remote : List Remote
  answers : List Answer
  nextTag : Nat
  /-- messages sent, each with the port it left by: 0 to 15 the device's ports, 16 where none took it, 17 the Abarath Link
  (20 R402, 22 R424) -/
  sent : List (Nat × Msg)
  withdrawn : List Nat
  received : List Msg
  /-- ARRIVEs counted: barrier number, phase, device (22 R433) -/
  arrives : List (Nat × Nat × Nat)
  deriving DecidableEq, Repr

/-! ### What acts next -/

/-- What the outside world or the schedule supplies: an event, the agent that issues next, or cycles that pass. -/
inductive Input where
  | event (i : Instr)
  | issue (a : Agent)
  | wait (n : Nat)
  deriving DecidableEq, Repr

/-- The state of the device. -/
structure State where
  mem : Memory
  dies : List Die
  cores : List Core
  groups : List Group
  engines : List Engine
  blocks : List Block
  bands : List Band
  homes : List HomeReq
  inflight : List Inflight
  acks : List Nat
  replies : List ReplyMsg
  copies : List Copy
  gathers : List Gather
  mscs : List MscOp
  mwls : List MwlOp
  cp : CmdProc
  dev : DevRegs
  repair : Repair
  fabric : Fabric
  /-- the next number for requests, commands and engine programs (the model's own) -/
  nextId : Nat
  /-- the counter behind the free values (the model's own) -/
  free : Nat
  inputs : List Input
  turn : Agent
  /-- agents that have still to issue in this cycle (10 R229, R251) -/
  round : List Agent
  /-- what the homes have performed, for the reports of strikes (11 R274, 19 R384) -/
  served : List Served
  /-- when launches left regions, for the reports of strikes (19 R384) -/
  seen : List Seen
  deriving DecidableEq, Repr

/-- Why the machine stops. -/
inductive Fault where
  /-- Raised by every encoded word when no group or engine program can issue it: `turn` names none that exists, or
  the group has no live unparked fibre. Not the spec's; safe: the step never executes a word in that case. -/
  | noIssuer
  deriving DecidableEq, Repr

/-- Why an instruction has no meaning. -/
inductive Refusal where
  /-- Raised by an arm of `exec` that has no meaning yet. Safe. -/
  | notModelled (mnemonic : String)
  deriving DecidableEq, Repr

/-! ### Reset -/

/-- A register file with every register dead (01 R25, R30). -/
def RegFile.empty : RegFile := ⟨[], [], []⟩

/-- A die after reset (11 R261, 15 R303, R312, 19 R397). -/
def Die.reset : Die :=
  { clock := 0, homes := List.range 16, lctl := List.replicate 8 0, llim := List.replicate 8 0,
    eqbase := 0, eqhead := 0, eqtail := 0, eqlost := 0, scnt := 0, held := [],
    desc := [], tb := [], walks := [], pkr := [], faults := [], refresh := none }

/-- The command processor after reset (18 R351, R362, 20 R406, R408). -/
def CmdProc.reset : CmdProc :=
  { queues := [], nodes := [], launches := [], nextLaunch := 1, ctxs := [], lazy := [],
    arg := List.replicate 8 0, cmd := List.replicate 8 0, status := 0, result := 0, op := 0, invalAcks := [], nextQueue := 0, wires := [],
    retiredWires := [], seqsUsed := [], keys := [], retires := [], keyDraws := 0, snapFaults := [], badPages := [], moving := [],
    replicas := [] }

/-- The device registers after reset (20 R402, R405, R408, R410, R412, R413, 22 R423 to R437). -/
def DevRegs.reset : DevRegs :=
  { facc := List.replicate 4 0, locked := false, linkto := 2000, flinkto := 2000, fdevid := 0xFFF,
    frecvEn := false, frecvSrc := 0, froute := [], fwinCtl := [], fwinLim := [], fbd := [],
    pwrReq := 0, pwrPend := false, pwrPreempt := false, pwr := 0, throt := false, unlatch := false,
    evictBit := false, svcreq := false, bstate := 1, bcause := 0, fuses := 0, svn := 0, measurement := 0,
    attStatus := 0, attIndex := 0, attBuf := 0, attNonce := List.replicate 4 0, attReport := [],
    eviction := none, hostReply := none }

/-- The machine right after reset: BSTATE is ROM, nothing is resident, memory is clear (20 R408). -/
def State.reset : State :=
  { mem := ⟨[], [], []⟩, dies := List.replicate 4 Die.reset, cores := [], groups := [], engines := [],
    blocks := [], bands := [], homes := [], inflight := [], acks := [], replies := [], copies := [],
    gathers := [], mscs := [], mwls := [], cp := CmdProc.reset, dev := DevRegs.reset,
    repair := ⟨[], [], [], [], []⟩,
    fabric := ⟨0xFFFF, [], [], 0, [], [], [], []⟩,
    nextId := 0, free := 0, inputs := [], turn := .none, round := [], served := [], seen := [] }

end Sys2Proof.Machine
end

