-- ==== Sys2Proof/Machine/Regs.lean ====
section
/-!
DEFINITION. Sorted association lists, register files with their capability tags (03 R83), values of one, two or four
registers, the fields of capabilities (03 R83), and small helpers over lists and lane masks.
-/

namespace Sys2Proof.Machine

open Sys2Proof

/-! ### Sorted lists -/

/-- The entry at a key. -/
def lookupKey {α : Type} (k : Nat) : List (Nat × α) → Option α
  | [] => none
  | (j, v) :: t => if j = k then some v else lookupKey k t

/-- Sets the entry at a key of a list in rising order. -/
def putKey {α : Type} (k : Nat) (v : α) : List (Nat × α) → List (Nat × α)
  | [] => [(k, v)]
  | (j, w) :: t => if k < j then (k, v) :: (j, w) :: t else if k = j then (k, v) :: t else (j, w) :: putKey k v t

/-- Removes the entry at a key. -/
def dropKey {α : Type} (k : Nat) : List (Nat × α) → List (Nat × α)
  | [] => []
  | (j, w) :: t => if j = k then dropKey k t else (j, w) :: dropKey k t

/-- Adds a number to a rising list of numbers. -/
def putNat (k : Nat) : List Nat → List Nat
  | [] => [k]
  | j :: t => if k < j then k :: j :: t else if k = j then j :: t else j :: putNat k t

/-- Removes a number. -/
def dropNat (k : Nat) (l : List Nat) : List Nat := l.filter (fun j => j != k)

/-- Changes the first entry that fits. -/
def modifyFirst {α : Type} (p : α → Bool) (f : α → α) : List α → List α
  | [] => []
  | x :: t => if p x then f x :: t else x :: modifyFirst p f t

/-- Removes the first entry that fits. -/
def dropFirst {α : Type} (p : α → Bool) : List α → List α
  | [] => []
  | x :: t => if p x then t else x :: dropFirst p t

/-- The first `n` numbers from `k`. -/
def rangeFrom (k n : Nat) : List Nat := (List.range n).map (fun i => k + i)

/-! ### Numbers -/

/-- The bytes of a number, lowest first (02 R34). -/
def natBytes : Nat → Nat → List Byte
  | 0, _ => []
  | n + 1, x => BitVec.ofNat 8 x :: natBytes n (x / 256)

/-- The number of bytes, lowest first. -/
def bytesNat : List Byte → Nat
  | [] => 0
  | b :: t => b.toNat + 256 * bytesNat t

/-- The number of ones among the low `n` bits. -/
def onesIn (x : Nat) (n : Nat) : Nat := ((List.range n).filter x.testBit).length

/-- The mask of a list of lanes. -/
def maskOf (ls : List Nat) : LaneMask := ls.foldl (fun m l => m ||| (1 <<< l)) 0

/-! ### Register files -/

/-- The content of register `n`; none when it is dead (01 R25). -/
def RegFile.get? (f : RegFile) (n : Nat) : Option Reg := lookupKey n f.regs

/-- The tag of the quad that holds register `n` (03 R83). -/
def RegFile.tag (f : RegFile) (n : Nat) : Bool := f.tags.contains (n / 4)

/-- An untagged write: the register is live and its quad's tag is cleared (01 R25, 03 R83). -/
def RegFile.put (f : RegFile) (n : Nat) (r : Reg) : RegFile :=
  { regs := putKey n r f.regs, tags := dropNat (n / 4) f.tags, srcs := dropKey n f.srcs }

/-- Frees a register: it is dead (01 R24). -/
def RegFile.free (f : RegFile) (n : Nat) : RegFile :=
  { regs := dropKey n f.regs, tags := dropNat (n / 4) f.tags, srcs := dropKey n f.srcs }

/-- Sets the tag of the quad that holds register `n`. -/
def RegFile.setTag (f : RegFile) (n : Nat) (b : Bool) : RegFile :=
  { f with tags := if b then putNat (n / 4) f.tags else dropNat (n / 4) f.tags }

/-- The registers v(base) to v(base + 95) of a file and their tags, which a child shares (01 R12). -/
def RegFile.window (f : RegFile) (base : Nat) : RegFile :=
  { regs := f.regs.filter (fun r => base ≤ r.1 && r.1 < base + 96),
    tags := f.tags.filter (fun q => base ≤ 4 * q && 4 * q < base + 96),
    srcs := f.srcs.filter (fun r => base ≤ r.1 && r.1 < base + 96) }

/-- Notes where the poison of registers from `n` on was loaded from (19 R385). -/
def RegFile.noteSource (f : RegFile) (n count key : Nat) : RegFile :=
  { f with srcs := (rangeFrom n count).foldl (fun l m => putKey m key l) f.srcs }

/-- A register that is poisoned and live. -/
def Reg.isPoisoned : Option Reg → Bool
  | some r => r.poison
  | none => false

/-! ### Values of one, two or four registers -/

/-- A value read from an operand: its registers, low first, in the low bits; the quad's tag; poison. -/
structure Val where
  bits : BitVec 128
  tag : Bool
  poison : Bool
  deriving DecidableEq, Repr

/-- Zero, untagged and clean. -/
def Val.zero : Val := ⟨0, false, false⟩

/-- The low 32 bits of a value. -/
def Val.w (v : Val) : Word := bitsOf v.bits 0 32
/-- The low 64 bits of a value. -/
def Val.dw (v : Val) : DWord := bitsOf v.bits 0 64
/-- The value of a 32-bit word. -/
def Val.ofWord (w : Word) : Val := ⟨w.setWidth 128, false, false⟩

/-- The value of registers, low first: a dead register (none) reads 0 (01 R28). -/
def Val.ofRegs (tag : Bool) (rs : List (Option Reg)) : Val :=
  { bits := BitVec.ofNat 128 (rs.foldr (fun r acc => (r.elim 0 (fun x => x.val.toNat)) + 2 ^ 32 * acc) 0),
    tag := tag, poison := rs.any Reg.isPoisoned }

/-- The registers of a value, low first. -/
def Val.toRegs (v : Val) (n : Nat) : List Reg :=
  (List.range n).map fun k => ⟨bitsOf v.bits (32 * k) 32, v.poison⟩

/-! ### Capabilities (03 R83) -/

/-- The fields of a capability (03 R83). -/
structure Cap where
  rights : BitVec 8
  le : Nat
  lm : Nat
  base : Nat
  addr : Nat
  tag : Bool
  deriving DecidableEq, Repr

/-- The capability a value holds. -/
def Cap.ofVal (v : Val) : Cap :=
  { rights := bitsOf v.bits 120 8, le := (bitsOf v.bits 114 6).toNat, lm := (bitsOf v.bits 96 18).toNat,
    base := (bitsOf v.bits 48 48).toNat, addr := (bitsOf v.bits 0 48).toNat, tag := v.tag }

/-- Length (03 R83). -/
def Cap.length (c : Cap) : Nat := (c.lm + 1) * 2 ^ c.le

/-- The 128 bits of a capability. -/
def Cap.toBits (c : Cap) : BitVec 128 :=
  c.rights ++ BitVec.ofNat 6 c.le ++ BitVec.ofNat 18 c.lm ++ BitVec.ofNat 48 c.base ++ BitVec.ofNat 48 c.addr

/-- The right bits of 03 R83 in a rights byte: R, W, X, RC, WC, A, S, M from bit 7 down. -/
def rightR : BitVec 8 := 0x80
def rightW : BitVec 8 := 0x40
def rightX : BitVec 8 := 0x20
def rightRC : BitVec 8 := 0x10
def rightWC : BitVec 8 := 0x08
def rightA : BitVec 8 := 0x04
def rightS : BitVec 8 := 0x02
def rightM : BitVec 8 := 0x01

/-- The capability holds every right of a mask. -/
def Cap.has (c : Cap) (r : BitVec 8) : Bool := c.rights &&& r == r

end Sys2Proof.Machine
end

