-- ==== Sys2Proof/Machine/Aes.lean ====
section
/-!
DEFINITION. XTS-AES-256 (16 R334): the cipher of FIPS 197 with a 256-bit key, and the XTS mode of IEEE 1619 over a data
unit of whole 16-byte blocks. Log entry 14.
-/

namespace Sys2Proof.Machine

open Sys2Proof

/-! ### The field GF(2^8) -/

/-- Doubling modulo x^8 + x^4 + x^3 + x + 1. -/
def gfDouble (a : Byte) : Byte := if bitOf a 7 then (a <<< 1) ^^^ 0x1B else a <<< 1

/-- The product of `a` with the low `n` bits of `b`. -/
def gfMulBits : Nat → Byte → Byte → Byte
  | 0, _, _ => 0
  | n + 1, a, b => (if bitOf b 0 then a else 0) ^^^ gfMulBits n (gfDouble a) (b >>> 1)

/-- The product. -/
def gfMul (a b : Byte) : Byte := gfMulBits 8 a b

/-- The inverse, a^254; 0 for 0. -/
def gfInv (a : Byte) : Byte :=
  let a2 := gfMul a a
  let a4 := gfMul a2 a2
  let a8 := gfMul a4 a4
  let a16 := gfMul a8 a8
  let a32 := gfMul a16 a16
  let a64 := gfMul a32 a32
  let a128 := gfMul a64 a64
  gfMul a2 (gfMul a4 (gfMul a8 (gfMul a16 (gfMul a32 (gfMul a64 a128)))))

/-- The substitution of a byte. -/
def subByte (a : Byte) : Byte :=
  let b := gfInv a
  b ^^^ b.rotateLeft 1 ^^^ b.rotateLeft 2 ^^^ b.rotateLeft 3 ^^^ b.rotateLeft 4 ^^^ 0x63

/-- The inverse substitution. -/
def invSubByte (a : Byte) : Byte := gfInv (a.rotateLeft 1 ^^^ a.rotateLeft 3 ^^^ a.rotateLeft 6 ^^^ 0x05)

/-! ### Rounds on a block of 16 bytes, column by column -/

/-- Byte `i` of a list. -/
def byteAt (l : List Byte) (i : Nat) : Byte := l[i]?.getD 0

/-- The exclusive or of two lists. -/
def xorBytes (a b : List Byte) : List Byte := (a.zip b).map fun p => p.1 ^^^ p.2

/-- Row r of the state moves left by r columns. -/
def shiftRows (x : List Byte) : List Byte :=
  (List.range 16).map fun i => byteAt x ((i + 4 * (i % 4)) % 16)

/-- The inverse of `shiftRows`. -/
def invShiftRows (x : List Byte) : List Byte :=
  (List.range 16).map fun i => byteAt x ((i + 12 * (i % 4)) % 16)

/-- Each column times the circulant of four coefficients. -/
def mixWith (c : List Byte) (x : List Byte) : List Byte :=
  (List.range 16).map fun i =>
    (List.range 4).foldl (fun acc k => acc ^^^ gfMul (byteAt c ((k + 4 - i % 4) % 4)) (byteAt x (i / 4 * 4 + k))) 0

/-- The words of the expanded key beyond the first eight, newest first; `n` more are made; `rc` is the round constant. -/
def expandKey : Nat → Byte → Nat → List (List Byte) → List (List Byte)
  | 0, _, _, ws => ws
  | n + 1, rc, i, ws =>
    let t := ws[0]?.getD []
    let back := ws[7]?.getD []
    let t' := if i % 8 == 0 then
        xorBytes [subByte (byteAt t 1), subByte (byteAt t 2), subByte (byteAt t 3), subByte (byteAt t 0)] [rc, 0, 0, 0]
      else if i % 8 == 4 then t.map subByte else t
    expandKey n (if i % 8 == 0 then gfDouble rc else rc) (i + 1) (xorBytes back t' :: ws)

/-- The 15 round keys of a 256-bit key, whose first byte is its lowest. -/
def roundKeys (key : BitVec 256) : List (List Byte) :=
  let k := natBytes 32 key.toNat
  let ws := (List.range 8).map fun i => (k.drop (4 * i)).take 4
  let all := (expandKey 52 1 8 ws.reverse).reverse
  (List.range 15).map fun r => ((all.drop (4 * r)).take 4).flatten

/-- Enciphers a block. -/
def aesEnc (keys : List (List Byte)) (x : List Byte) : List Byte :=
  let key (r : Nat) : List Byte := keys[r]?.getD []
  let x := (List.range 13).foldl (fun x r =>
    xorBytes (mixWith [2, 3, 1, 1] (shiftRows (x.map subByte))) (key (r + 1))) (xorBytes x (key 0))
  xorBytes (shiftRows (x.map subByte)) (key 14)

/-- Deciphers a block. -/
def aesDec (keys : List (List Byte)) (x : List Byte) : List Byte :=
  let key (r : Nat) : List Byte := keys[r]?.getD []
  let x := (List.range 13).foldl (fun x r =>
    mixWith [14, 11, 13, 9] (xorBytes ((invShiftRows x).map invSubByte) (key (13 - r)))) (xorBytes x (key 14))
  xorBytes ((invShiftRows x).map invSubByte) (key 0)

/-! ### XTS -/

/-- The product of a tweak with the primitive element. -/
def xtsDouble (t : BitVec 128) : BitVec 128 := if bitOf t 127 then (t <<< 1) ^^^ 0x87 else t <<< 1

/-- A row's blocks, each with its tweak. -/
def xtsRow (f : List Byte → List Byte) : Nat → BitVec 128 → List Byte → List Byte
  | 0, _, _ => []
  | n + 1, t, bs =>
    let tb := natBytes 16 t.toNat
    xorBytes (f (xorBytes (bs.take 16) tb)) tb ++ xtsRow f n (xtsDouble t) (bs.drop 16)

/-- Enciphers or deciphers a row under K1, K2 and its tweak value (16 R334). -/
def xts (enc : Bool) (k1 k2 : BitVec 256) (tweak : BitVec 128) (row : List Byte) : List Byte :=
  let keys := roundKeys k1
  let t0 : BitVec 128 := BitVec.ofNat 128 (bytesNat (aesEnc (roundKeys k2) (natBytes 16 tweak.toNat)))
  xtsRow (if enc then aesEnc keys else aesDec keys) (row.length / 16) t0 row

end Sys2Proof.Machine
end

