-- ==== Sys2Proof/WellFormed.lean ====
section
/-!
DEFINITION. Well-formed instructions: the fields that the opcode table fixes hold their fixed value
(02 R36, R37). A well-formed instruction is one that some word or pair encodes. Whether it is legal (alignment of
pairs and quads, reserved codes, prefix fields in use) is judged at issue, where the machine traps ILLEGAL.
-/

namespace Sys2Proof

/-- The prefix's rounding code is not reserved (02 R44, R45). -/
def Prefix.wf (p : Prefix) : Bool := p.rm != 6 && p.rm != 7

/-- An optional prefix is well formed. -/
def Pfx.wf : Pfx → Bool
  | none => true
  | some p => p.wf

/-- The fixed fields of an instruction's word hold their fixed values. Events have no word. -/
def Instr.wf : Instr → Bool
  | .add p _ => Pfx.wf p
  | .sub p _ => Pfx.wf p
  | .mul p _ => Pfx.wf p
  | .mulh p _ => Pfx.wf p
  | .and_ p _ => Pfx.wf p
  | .or_ p _ => Pfx.wf p
  | .xor_ p _ => Pfx.wf p
  | .andn p _ => Pfx.wf p
  | .shl p _ => Pfx.wf p
  | .shr p _ => Pfx.wf p
  | .rot p _ => Pfx.wf p
  | .min p _ => Pfx.wf p
  | .max p _ => Pfx.wf p
  | .movc p _ => Pfx.wf p
  | .bfx p _ => Pfx.wf p
  | .bfi p f => Pfx.wf p && !f.x
  | .neg p f => Pfx.wf p && f.m == 0
  | .not_ p f => Pfx.wf p && f.m == 1
  | .abs p f => Pfx.wf p && f.m == 2
  | .popc p f => Pfx.wf p && f.m == 3
  | .clz p f => Pfx.wf p && f.m == 4
  | .ctz p f => Pfx.wf p && f.m == 5
  | .brev p f => Pfx.wf p && f.m == 6
  | .bswap p f => Pfx.wf p && f.m == 7
  | .sext8 p f => Pfx.wf p && f.m == 8 && !f.x
  | .sext16 p f => Pfx.wf p && f.m == 9 && !f.x
  | .zext8 p f => Pfx.wf p && f.m == 10 && !f.x
  | .zext16 p f => Pfx.wf p && f.m == 11 && !f.x
  | .mov p f => Pfx.wf p && f.m == 12
  | .pget p f => Pfx.wf p && f.a == 0 && f.m == 13 && !f.la && !f.x
  | .pput p f => Pfx.wf p && f.d == 0 && f.m == 14 && !f.x
  | .sext32 p f => Pfx.wf p && f.m == 15 && f.x
  | .zext32 p f => Pfx.wf p && f.m == 16 && f.x
  | .cmpI32 p _ => Pfx.wf p
  | .cmpUi32 p _ => Pfx.wf p
  | .cmpI64 p _ => Pfx.wf p
  | .cmpUi64 p _ => Pfx.wf p
  | .addi p _ => Pfx.wf p
  | .andi p _ => Pfx.wf p
  | .ori p _ => Pfx.wf p
  | .xori p _ => Pfx.wf p
  | .shi p _ => Pfx.wf p
  | .cmpi p _ => Pfx.wf p
  | .li p _ => Pfx.wf p
  | .lui p _ => Pfx.wf p
  | .mad p _ => Pfx.wf p
  | .movs _ => true
  | .fadd p f => Pfx.wf p && !f.x
  | .fsub p f => Pfx.wf p && !f.x
  | .fmul p f => Pfx.wf p && !f.x
  | .ffma p f => Pfx.wf p && !f.x
  | .fmin p f => Pfx.wf p && !f.x
  | .fmax p f => Pfx.wf p && f.x
  | .fcmp p _ => Pfx.wf p
  | .hadd2 p _ => Pfx.wf p
  | .hmul2 p _ => Pfx.wf p
  | .hfma2 p _ => Pfx.wf p
  | .fcvt p f => Pfx.wf p && bitsOf f.m 0 1 == 0
  | .fabs p f => Pfx.wf p && f.m == 0 && !f.x
  | .fneg p f => Pfx.wf p && f.m == 1 && !f.x
  | .fsqrt p f => Pfx.wf p && f.m == 2 && !f.x
  | .frint p f => Pfx.wf p && f.m == 3 && !f.x
  | .frcp p f => Pfx.wf p && f.m == 4 && !f.x
  | .fsat p f => Pfx.wf p && f.m == 5 && !f.x
  | .sfuRcp p f => Pfx.wf p && f.m == 0 && !f.x
  | .sfuRsqrt p f => Pfx.wf p && f.m == 1 && !f.x
  | .sfuExp2 p f => Pfx.wf p && f.m == 2 && !f.x
  | .sfuLog2 p f => Pfx.wf p && f.m == 3 && !f.x
  | .sfuSin p f => Pfx.wf p && f.m == 4 && !f.x
  | .sfuCos p f => Pfx.wf p && f.m == 5 && !f.x
  | .sfuTanh p f => Pfx.wf p && f.m == 6 && !f.x
  | .fclass p f => Pfx.wf p && !f.x
  | .dot2 p _ => Pfx.wf p
  | .fminNan p f => Pfx.wf p && f.m == 0 && !f.x
  | .fmaxNan p f => Pfx.wf p && f.m == 1 && !f.x
  | .fminmag p f => Pfx.wf p && f.m == 2 && !f.x
  | .fmaxmag p f => Pfx.wf p && f.m == 3 && !f.x
  | .rand p f => Pfx.wf p && f.a == 0 && !f.la && !f.x
  | .bra _ => true
  | .call _ => true
  | .jr f => f.d == 0
  | .fork f => !f.n
  | .endF f => f.scope == 0 && f.kind == 0
  | .yield f => f.scope == 0 && f.kind == 0
  | .win f => f.d == 0 && bitsOf f.imm 10 7 == 0
  | .trap f => f.d == 0
  | .svc _ => true
  | .rtt f => f.d == 0 && f.a == 0 && f.m == 0 && !f.la && !f.x
  | .rttSkip f => f.d == 0 && f.a == 0 && f.m == 0 && !f.la && f.x
  | .pset f => bitsOf f.a 4 3 == 0 && bitsOf f.b 4 3 == 0
  | .cvdeclLive f => f.d == 0 && f.a == 0 && bitsOf f.m 3 4 == 0 && !f.la && !f.x
  | .cvdeclSet f => f.d == 0 && f.a == 0 && bitsOf f.m 3 4 == 0 && !f.la && f.x
  | .cvsign f => f.d == 0 && f.a == 0 && bitsOf f.m 3 4 == 0 && !f.la && !f.x
  | .nop f => f.scope == 0 && f.kind == 0
  | .shflIdx p _ => Pfx.wf p
  | .shflRel p _ => Pfx.wf p
  | .qswpH p f => Pfx.wf p && f.m == 0 && !f.x
  | .qswpV p f => Pfx.wf p && f.m == 1 && !f.x
  | .qswpD p f => Pfx.wf p && f.m == 2 && !f.x
  | .qbc p f => Pfx.wf p && bitsOf f.m 2 5 == 1 && !f.x
  | .qddx p f => Pfx.wf p && f.m == 8 && !f.x
  | .qddy p f => Pfx.wf p && f.m == 9 && !f.x
  | .voteSome p f => Pfx.wf p && bitsOf f.a 4 3 == 0 && f.m == 0 && !f.la
  | .voteEvery p f => Pfx.wf p && bitsOf f.a 4 3 == 0 && f.m == 1 && !f.la
  | .voteAgree p f => Pfx.wf p && bitsOf f.a 4 3 == 0 && f.m == 2 && !f.la
  | .voteMask p f => Pfx.wf p && bitsOf f.a 4 3 == 0 && f.m == 3 && !f.la
  | .voteCount p f => Pfx.wf p && bitsOf f.a 4 3 == 0 && f.m == 4 && !f.la
  | .voteFirst p f => Pfx.wf p && bitsOf f.a 4 3 == 0 && f.m == 5 && !f.la
  | .voteLast p f => Pfx.wf p && bitsOf f.a 4 3 == 0 && f.m == 6 && !f.la
  | .matchF p f => Pfx.wf p && !f.x
  | .redg p f => Pfx.wf p && !f.x
  | .scang p _ => Pfx.wf p
  | .bcast p _ => Pfx.wf p
  | .ld p _ => Pfx.wf p
  | .st p _ => Pfx.wf p
  | .ldi p _ => Pfx.wf p
  | .sti p _ => Pfx.wf p
  | .ldl p _ => Pfx.wf p
  | .stl p _ => Pfx.wf p
  | .ldln p _ => Pfx.wf p
  | .atomI32 p _ => Pfx.wf p
  | .atomI64 p _ => Pfx.wf p
  | .atomF32 p _ => Pfx.wf p
  | .redI32 p _ => Pfx.wf p
  | .redI64 p _ => Pfx.wf p
  | .redF32 p _ => Pfx.wf p
  | .atoml p _ => Pfx.wf p
  | .cas p _ => Pfx.wf p
  | .fenceAcq f => f.kind == 0
  | .fenceRel f => f.kind == 1
  | .fenceAr f => f.kind == 2
  | .fenceXpath f => f.scope == 0 && f.kind == 3
  | .cctlInvl1 f => f.d == 0 && f.c == 0 && f.o == 0 && f.w == 0
  | .cctlInvline f => f.d == 0 && f.w == 1
  | .cctlInvpt f => f.d == 0 && f.c == 0 && f.o == 0 && f.w == 2
  | .cctlInvpg f => f.d == 0 && f.w == 3
  | .cctlPfL1 f => f.d == 0 && f.w == 4
  | .cctlPfLlc f => f.d == 0 && f.w == 5
  | .waitc f => f.id == 0 && f.a == 0
  | .cpa f => bitsOf f.id 1 3 == 0
  | .mscFill f => bitsOf f.w 0 2 == 0
  | .mscRdo f => bitsOf f.w 0 2 == 1
  | .mscAxpy f => bitsOf f.w 0 2 == 2
  | .mscCopy f => bitsOf f.w 0 2 == 3
  | .pkrSet f => f.d == 0 && f.m == 0 && !f.x
  | .pkrGet f => f.a == 0 && f.m == 1 && !f.la && !f.x
  | .capMov p f => Pfx.wf p && f.m == 0 && !f.x
  | .capGetaddr p f => Pfx.wf p && f.m == 1 && !f.x
  | .capGetbase p f => Pfx.wf p && f.m == 2 && !f.x
  | .capGetlen p f => Pfx.wf p && f.m == 3 && !f.x
  | .capGetrights p f => Pfx.wf p && f.m == 4 && !f.x
  | .capGettag p f => Pfx.wf p && f.m == 5 && !f.x
  | .capRestrict p f => Pfx.wf p && f.m == 6 && !f.x
  | .capSetaddr p f => Pfx.wf p && f.m == 7 && !f.x
  | .capIncaddr p f => Pfx.wf p && f.m == 8 && !f.x
  | .capClrtag p f => Pfx.wf p && f.m == 9 && !f.x
  | .cbnd p _ => Pfx.wf p
  | .sld p f => Pfx.wf p && bitsOf f.w 2 1 == 0
  | .sst p _ => Pfx.wf p
  | .sshift p _ => Pfx.wf p
  | .snorm p f => Pfx.wf p && !f.x
  | .harden p f => Pfx.wf p && !f.x
  | .sldg p f => Pfx.wf p && bitsOf f.w 2 1 == 0
  | .sstg p _ => Pfx.wf p
  | .mwl f => f.cv == 0 && f.af == 0 && !f.ru && f.pt == 0
  | .mma _ => true
  | .mmaS _ => true
  | .mmaD f => bitsOf f.af 1 2 == 0 && !f.ru && f.pt == 0
  | .mswap f => f.d == 0 && f.a == 0 && f.cv == 0 && f.af == 0 && !f.ru && f.pt == 0
  | .mscl f => f.d == 0 && f.af == 0 && !f.ru && f.pt == 0
  | .forke _ => true
  | .rdv f => f.cls == 0 && f.b == 0
  | .rdvTest f => f.cls == 1 && f.b == 0
  | .bar f => f.b == 0
  | .baroInit f => f.cls == 0 && f.id == 0
  | .baroArrive f => f.cls == 1 && bitsOf f.id 1 3 == 0
  | .baroWait f => f.cls == 2 && f.id == 0
  | .baroAw f => f.cls == 3 && bitsOf f.id 1 3 == 0 && f.b == 0
  | .tbar f => bitsOf f.cls 2 1 == 0 && f.a == 0 && f.b == 0
  | .cqPush f => f.cls == 0 && f.b == 0
  | .cqPop f => f.cls == 1 && f.id == 0
  | .cqReset f => f.cls == 2 && f.id == 0 && f.a == 0 && f.b == 0
  | .cqCount f => f.cls == 3 && f.id == 0 && f.a == 0
  | .credInit f => f.cls == 0 && f.b == 0
  | .credTri f => f.cls == 1
  | .credSum f => f.cls == 2
  | .credGet f => f.cls == 3
  | .lnch _ => true
  | .seqend f => f.cls == 0 && f.id == 0
  | .waitt f => f.cls == 0
  | .ecopy f => bitsOf f.id 1 3 == 0
  | .emcast f => bitsOf f.id 1 3 == 0
  | .egkvLd f => f.cls == 0 && bitsOf f.id 1 3 == 0
  | .egkvLdx f => f.cls == 1 && bitsOf f.id 1 3 == 0
  | .egkvSt f => f.cls == 2 && bitsOf f.id 1 3 == 0
  | .egkvPurge f => f.cls == 3 && bitsOf f.id 1 3 == 0
  | .emerge f => bitsOf f.id 2 2 == 0
  | .esig f => f.cls == 0 && f.id == 0
  | .blockPlace _ => true
  | .drain _ => true
  | .holdQueueLeave _ _ => true
  | .snapshotCopyDone _ _ _ => true
  | .pageMapped _ => true
  | .sideLogReplay _ _ _ => true
  | .homeRequest _ _ => true
  | .homeAck _ => true
  | .reply _ => true
  | .portInvalAck _ _ => true
  | .barGroupArrive _ => true
  | .barComplete _ => true
  | .treeComplete _ _ => true
  | .matrixIssue _ _ => true
  | .mwlLatchWrite _ => true
  | .latchParityError _ _ _ _ => true
  | .engineContextStart _ => true
  | .engineStatusFinal _ => true
  | .copyComplete _ => true
  | .mscComplete _ => true
  | .waittTimeout _ => true
  | .cruRecord _ => true
  | .shadowCheckpoint _ => true
  | .strikeReport _ => true
  | .launchReplay _ => true
  | .selfTestComplete _ => true
  | .errorRecordWrite _ => true
  | .hbmScrub _ _ => true
  | .edramRefresh _ _ _ => true
  | .queueAccept _ => true
  | .launch _ => true
  | .copy _ => true
  | .msc _ => true
  | .signal _ => true
  | .wait _ => true
  | .evict _ => true
  | .evictGraceExpiry => true
  | .nodeComplete _ => true
  | .priorityPreempt _ _ => true
  | .launchResume _ => true
  | .ctxcreate => true
  | .ctxdestroy => true
  | .seqopen => true
  | .seqclose => true
  | .cancel => true
  | .preempt => true
  | .inval => true
  | .qtailWrite _ _ => true
  | .qcfgWrite _ _ => true
  | .lrangeWrite _ _ _ _ => true
  | .facceptWrite _ _ => true
  | .arbWrite _ => true
  | .attestationRequest => true
  | .pwrreqWrite _ => true
  | .powerStateChange => true
  | .powerCapThrottle _ => true
  | .evreqWrite _ => true
  | .fdevidWrite _ => true
  | .fbdWrite _ _ => true
  | .registerWrite _ _ _ => true
  | .powerOnReset _ => true
  | .memoryTrained _ => true
  | .linkTrained _ => true
  | .hostApertureAccess _ => true
  | .hostAck _ _ _ => true
  | .hostTimeout _ => true
  | .rd _ => true
  | .rdresp _ => true
  | .wr _ => true
  | .wrack _ => true
  | .atom _ => true
  | .atomresp _ => true
  | .nack _ => true
  | .arrive _ => true
  | .release _ => true
  | .withdraw _ => true
  | .wdack _ => true
  | .evstream _ => true
  | .fabricTimeout _ => true
  | .fabricBarrierTimeout _ _ => true
  | .decodingFault _ => true
  | .egkvCommandComplete _ => true
  | .btbPurgeAck _ _ => true
  | .pkrPortAck _ _ => true
  | .preemptionAbandoned _ => true
  | .evictPhaseOverrun => true
  | .attestationReportWritten _ => true
  | .powerLoss => true

end Sys2Proof
end

