-- ==== Sys2Proof/Decode.lean ====
section
/-!
DEFINITION. The decoder, total on words and bytes, and the encoder written from the same encoding
tables (02 R34, R36, R42, R44 and the opcode table). A word whose major, minor, kind or class is unassigned, whose
fixed bits are not as the table gives, or that does not follow a legal prefix, is rejected by name.
-/

namespace Sys2Proof

/-- The fields of a word in format RRR (02 R36). -/
def FmtRRR.ofWord (w : Word) : FmtRRR :=
  ⟨bitOf w 31, bitsOf w 17 7, bitsOf w 10 7, bitsOf w 3 7, bitOf w 2, bitOf w 1, bitOf w 0⟩

/-- The word of format RRR with major opcode `op` (02 R36). -/
def FmtRRR.toWord (op : BitVec 7) (f : FmtRRR) : Word :=
  bit1 f.s ++ op ++ f.d ++ f.a ++ f.b ++ bit1 f.la ++ bit1 f.lb ++ bit1 f.x

/-- The fields of a word in format RM (02 R36). -/
def FmtRM.ofWord (w : Word) : FmtRM :=
  ⟨bitOf w 31, bitsOf w 17 7, bitsOf w 10 7, bitsOf w 3 7, bitOf w 2, bitOf w 0⟩

/-- The word of format RM with major opcode `op` (02 R36). -/
def FmtRM.toWord (op : BitVec 7) (f : FmtRM) : Word :=
  bit1 f.s ++ op ++ f.d ++ f.a ++ f.m ++ bit1 f.la ++ (0 : BitVec 1) ++ bit1 f.x

/-- The fields of a word in format RI (02 R36). -/
def FmtRI.ofWord (w : Word) : FmtRI :=
  ⟨bitOf w 31, bitsOf w 17 7, bitsOf w 10 7, bitsOf w 1 9, bitOf w 0⟩

/-- The word of format RI with major opcode `op` (02 R36). -/
def FmtRI.toWord (op : BitVec 7) (f : FmtRI) : Word :=
  bit1 f.s ++ op ++ f.d ++ f.a ++ f.imm ++ bit1 f.la

/-- The fields of a word in format RL (02 R36). -/
def FmtRL.ofWord (w : Word) : FmtRL :=
  ⟨bitOf w 31, bitsOf w 17 7, bitsOf w 0 17⟩

/-- The word of format RL with major opcode `op` (02 R36). -/
def FmtRL.toWord (op : BitVec 7) (f : FmtRL) : Word :=
  bit1 f.s ++ op ++ f.d ++ f.imm

/-- The fields of a word in format BR (02 R36). -/
def FmtBR.ofWord (w : Word) : FmtBR :=
  ⟨bitOf w 31, bitsOf w 20 4, bitOf w 19, bitsOf w 0 19⟩

/-- The word of format BR with major opcode `op` (02 R36). -/
def FmtBR.toWord (op : BitVec 7) (f : FmtBR) : Word :=
  bit1 f.s ++ op ++ f.p ++ bit1 f.n ++ f.off

/-- The fields of a word in format CP (02 R36). -/
def FmtCP.ofWord (w : Word) : FmtCP :=
  ⟨bitOf w 31, bitsOf w 20 4, bitsOf w 17 3, bitsOf w 10 7, bitsOf w 3 7, bitsOf w 0 3⟩

/-- The word of format CP with major opcode `op` (02 R36). -/
def FmtCP.toWord (op : BitVec 7) (f : FmtCP) : Word :=
  bit1 f.s ++ op ++ f.pd ++ f.pc ++ f.a ++ f.b ++ f.cond

/-- The fields of a word in format M (02 R36). -/
def FmtM.ofWord (w : Word) : FmtM :=
  ⟨bitOf w 31, bitsOf w 17 7, bitsOf w 10 7, bitsOf w 3 7, bitsOf w 0 3⟩

/-- The word of format M with major opcode `op` (02 R36). -/
def FmtM.toWord (op : BitVec 7) (f : FmtM) : Word :=
  bit1 f.s ++ op ++ f.d ++ f.c ++ f.o ++ f.w

/-- The fields of a word in format MX (02 R36). -/
def FmtMX.ofWord (w : Word) : FmtMX :=
  ⟨bitOf w 31, bitsOf w 17 7, bitsOf w 10 7, bitsOf w 7 3, bitsOf w 4 3, bitOf w 3, bitOf w 2, bitsOf w 0 2⟩

/-- The word of format MX with major opcode `op` (02 R36). -/
def FmtMX.toWord (op : BitVec 7) (f : FmtMX) : Word :=
  bit1 f.s ++ op ++ f.d ++ f.a ++ f.cv ++ f.af ++ bit1 f.ru ++ bit1 f.ar ++ f.pt

/-- The fields of a word in format F (02 R36). -/
def FmtF.ofWord (w : Word) : FmtF :=
  ⟨bitOf w 31, bitsOf w 21 3, bitsOf w 18 3⟩

/-- The word of format F with major opcode `op` (02 R36). -/
def FmtF.toWord (op : BitVec 7) (f : FmtF) : Word :=
  bit1 f.s ++ op ++ f.scope ++ f.kind ++ (0 : BitVec 18)

/-- The fields of a word in format E (02 R36). -/
def FmtE.ofWord (w : Word) : FmtE :=
  ⟨bitOf w 31, bitsOf w 21 3, bitsOf w 17 4, bitsOf w 10 7, bitsOf w 3 7⟩

/-- The word of format E with major opcode `op` (02 R36). -/
def FmtE.toWord (op : BitVec 7) (f : FmtE) : Word :=
  bit1 f.s ++ op ++ f.cls ++ f.id ++ f.a ++ f.b ++ (0 : BitVec 3)

/-- The prefix fields of a word (02 R44). -/
def Prefix.ofWord (w : Word) : Prefix :=
  ⟨bitsOf w 20 4, bitOf w 19, bitOf w 18, bitsOf w 15 3, bitsOf w 8 7, bitOf w 7, bitOf w 6, bitOf w 5,
    bitOf w 4, bitOf w 3⟩

/-- The prefix word (02 R44). -/
def Prefix.toWord (p : Prefix) : Word :=
  (0 : BitVec 1) ++ (0x7F : BitVec 7) ++ p.pr ++ bit1 p.pn ++ bit1 p.mz ++ p.rm ++ p.c ++ bit1 p.lc ++ bit1 p.na
    ++ bit1 p.nb ++ bit1 p.nc ++ bit1 p.sat ++ (0 : BitVec 3)

/-- The major opcode of a word, bits [30:24] (02 R42). -/
def majorOf (w : Word) : BitVec 7 := bitsOf w 24 7

/-- The majors a prefix may precede (02 R45). -/
def prefixEligible (op : BitVec 7) : Bool :=
  (0x01 ≤ op && op ≤ 0x1E) || (0x20 ≤ op && op ≤ 0x2F) || (0x40 ≤ op && op ≤ 0x56) || (0x5E ≤ op && op ≤ 0x66)

/-- The bits a format leaves out of its fields are 0: bit 1 of RM, bits [2:0] of E, bits [17:0] of F
(02 R36, R37). -/
def reservedZero (w : Word) : Bool :=
  match (majorOf w).toNat with
  | 0x11 | 0x1f | 0x29 | 0x2a | 0x2b | 0x2c | 0x2e | 0x2f | 0x39 | 0x3c | 0x3d | 0x42 | 0x43 | 0x44 | 0x45 | 0x46 | 0x5d | 0x5e | 0x63 | 0x64 => !bitOf w 1
  | 0x34 | 0x35 | 0x3e | 0x57 => bitsOf w 0 18 == 0
  | 0x59 | 0x5a | 0x70 | 0x71 | 0x72 | 0x73 | 0x74 | 0x75 | 0x76 | 0x77 | 0x78 | 0x79 | 0x7a | 0x7b | 0x7c | 0x7d | 0x7e => bitsOf w 0 3 == 0
  | _ => true

/-- The instruction that a base word's major, minor, kind, class or X bit selects (02 R42), before its fixed
fields are tested. -/
def selectBase (p : Pfx) (w : Word) : Option Instr :=
  match (majorOf w).toNat with
  | 0x1 => some (.add p (FmtRRR.ofWord w))
  | 0x2 => some (.sub p (FmtRRR.ofWord w))
  | 0x3 => some (.mul p (FmtRRR.ofWord w))
  | 0x4 => some (.mulh p (FmtRRR.ofWord w))
  | 0x5 => some (.and_ p (FmtRRR.ofWord w))
  | 0x6 => some (.or_ p (FmtRRR.ofWord w))
  | 0x7 => some (.xor_ p (FmtRRR.ofWord w))
  | 0x8 => some (.andn p (FmtRRR.ofWord w))
  | 0x9 => some (.shl p (FmtRRR.ofWord w))
  | 0xa => some (.shr p (FmtRRR.ofWord w))
  | 0xb => some (.rot p (FmtRRR.ofWord w))
  | 0xc => some (.min p (FmtRRR.ofWord w))
  | 0xd => some (.max p (FmtRRR.ofWord w))
  | 0xe => some (.movc p (FmtRRR.ofWord w))
  | 0xf => some (.bfx p (FmtRRR.ofWord w))
  | 0x10 => some (.bfi p (FmtRRR.ofWord w))
  | 0x11 =>
    match (bitsOf w 3 7).toNat with
    | 0 => some (.neg p (FmtRM.ofWord w))
    | 1 => some (.not_ p (FmtRM.ofWord w))
    | 2 => some (.abs p (FmtRM.ofWord w))
    | 3 => some (.popc p (FmtRM.ofWord w))
    | 4 => some (.clz p (FmtRM.ofWord w))
    | 5 => some (.ctz p (FmtRM.ofWord w))
    | 6 => some (.brev p (FmtRM.ofWord w))
    | 7 => some (.bswap p (FmtRM.ofWord w))
    | 8 => some (.sext8 p (FmtRM.ofWord w))
    | 9 => some (.sext16 p (FmtRM.ofWord w))
    | 10 => some (.zext8 p (FmtRM.ofWord w))
    | 11 => some (.zext16 p (FmtRM.ofWord w))
    | 12 => some (.mov p (FmtRM.ofWord w))
    | 13 => some (.pget p (FmtRM.ofWord w))
    | 14 => some (.pput p (FmtRM.ofWord w))
    | 15 => some (.sext32 p (FmtRM.ofWord w))
    | 16 => some (.zext32 p (FmtRM.ofWord w))
    | _ => none
  | 0x12 => some (.cmpI32 p (FmtCP.ofWord w))
  | 0x13 => some (.cmpUi32 p (FmtCP.ofWord w))
  | 0x14 => some (.cmpI64 p (FmtCP.ofWord w))
  | 0x15 => some (.cmpUi64 p (FmtCP.ofWord w))
  | 0x16 => some (.addi p (FmtRI.ofWord w))
  | 0x17 => some (.andi p (FmtRI.ofWord w))
  | 0x18 => some (.ori p (FmtRI.ofWord w))
  | 0x19 => some (.xori p (FmtRI.ofWord w))
  | 0x1a => some (.shi p (FmtRI.ofWord w))
  | 0x1b => some (.cmpi p (FmtCP.ofWord w))
  | 0x1c => some (.li p (FmtRL.ofWord w))
  | 0x1d => some (.lui p (FmtRL.ofWord w))
  | 0x1e => some (.mad p (FmtRRR.ofWord w))
  | 0x1f => some (.movs (FmtRM.ofWord w))
  | 0x20 => some (.fadd p (FmtRRR.ofWord w))
  | 0x21 => some (.fsub p (FmtRRR.ofWord w))
  | 0x22 => some (.fmul p (FmtRRR.ofWord w))
  | 0x23 => some (.ffma p (FmtRRR.ofWord w))
  | 0x24 => if bitOf w 0 then some (.fmax p (FmtRRR.ofWord w)) else some (.fmin p (FmtRRR.ofWord w))
  | 0x25 => some (.fcmp p (FmtCP.ofWord w))
  | 0x26 => some (.hadd2 p (FmtRRR.ofWord w))
  | 0x27 => some (.hmul2 p (FmtRRR.ofWord w))
  | 0x28 => some (.hfma2 p (FmtRRR.ofWord w))
  | 0x29 => some (.fcvt p (FmtRM.ofWord w))
  | 0x2a =>
    match (bitsOf w 3 7).toNat with
    | 0 => some (.fabs p (FmtRM.ofWord w))
    | 1 => some (.fneg p (FmtRM.ofWord w))
    | 2 => some (.fsqrt p (FmtRM.ofWord w))
    | 3 => some (.frint p (FmtRM.ofWord w))
    | 4 => some (.frcp p (FmtRM.ofWord w))
    | 5 => some (.fsat p (FmtRM.ofWord w))
    | _ => none
  | 0x2b =>
    match (bitsOf w 3 7).toNat with
    | 0 => some (.sfuRcp p (FmtRM.ofWord w))
    | 1 => some (.sfuRsqrt p (FmtRM.ofWord w))
    | 2 => some (.sfuExp2 p (FmtRM.ofWord w))
    | 3 => some (.sfuLog2 p (FmtRM.ofWord w))
    | 4 => some (.sfuSin p (FmtRM.ofWord w))
    | 5 => some (.sfuCos p (FmtRM.ofWord w))
    | 6 => some (.sfuTanh p (FmtRM.ofWord w))
    | _ => none
  | 0x2c => some (.fclass p (FmtRM.ofWord w))
  | 0x2d => some (.dot2 p (FmtRRR.ofWord w))
  | 0x2e =>
    match (bitsOf w 3 7).toNat with
    | 0 => some (.fminNan p (FmtRM.ofWord w))
    | 1 => some (.fmaxNan p (FmtRM.ofWord w))
    | 2 => some (.fminmag p (FmtRM.ofWord w))
    | 3 => some (.fmaxmag p (FmtRM.ofWord w))
    | _ => none
  | 0x2f => some (.rand p (FmtRM.ofWord w))
  | 0x30 => some (.bra (FmtBR.ofWord w))
  | 0x31 => some (.call (FmtRL.ofWord w))
  | 0x32 => some (.jr (FmtRI.ofWord w))
  | 0x33 => some (.fork (FmtBR.ofWord w))
  | 0x34 => some (.endF (FmtF.ofWord w))
  | 0x35 => some (.yield (FmtF.ofWord w))
  | 0x36 => some (.win (FmtRL.ofWord w))
  | 0x37 => some (.trap (FmtRL.ofWord w))
  | 0x38 => some (.svc (FmtRL.ofWord w))
  | 0x39 => if bitOf w 0 then some (.rttSkip (FmtRM.ofWord w)) else some (.rtt (FmtRM.ofWord w))
  | 0x3b => some (.pset (FmtCP.ofWord w))
  | 0x3c => if bitOf w 0 then some (.cvdeclSet (FmtRM.ofWord w)) else some (.cvdeclLive (FmtRM.ofWord w))
  | 0x3d => some (.cvsign (FmtRM.ofWord w))
  | 0x3e => some (.nop (FmtF.ofWord w))
  | 0x40 => some (.shflIdx p (FmtRRR.ofWord w))
  | 0x41 => some (.shflRel p (FmtRI.ofWord w))
  | 0x42 =>
    match (bitsOf w 3 7).toNat with
    | 0 => some (.qswpH p (FmtRM.ofWord w))
    | 1 => some (.qswpV p (FmtRM.ofWord w))
    | 2 => some (.qswpD p (FmtRM.ofWord w))
    | 4 | 5 | 6 | 7 => some (.qbc p (FmtRM.ofWord w))
    | 8 => some (.qddx p (FmtRM.ofWord w))
    | 9 => some (.qddy p (FmtRM.ofWord w))
    | _ => none
  | 0x43 =>
    match (bitsOf w 3 7).toNat with
    | 0 => some (.voteSome p (FmtRM.ofWord w))
    | 1 => some (.voteEvery p (FmtRM.ofWord w))
    | 2 => some (.voteAgree p (FmtRM.ofWord w))
    | 3 => some (.voteMask p (FmtRM.ofWord w))
    | 4 => some (.voteCount p (FmtRM.ofWord w))
    | 5 => some (.voteFirst p (FmtRM.ofWord w))
    | 6 => some (.voteLast p (FmtRM.ofWord w))
    | _ => none
  | 0x44 => some (.matchF p (FmtRM.ofWord w))
  | 0x45 => some (.redg p (FmtRM.ofWord w))
  | 0x46 => some (.scang p (FmtRM.ofWord w))
  | 0x47 => some (.bcast p (FmtRI.ofWord w))
  | 0x48 => some (.ld p (FmtM.ofWord w))
  | 0x49 => some (.st p (FmtM.ofWord w))
  | 0x4a => some (.ldi p (FmtM.ofWord w))
  | 0x4b => some (.sti p (FmtM.ofWord w))
  | 0x4c => some (.ldl p (FmtM.ofWord w))
  | 0x4d => some (.stl p (FmtM.ofWord w))
  | 0x4e => some (.ldln p (FmtM.ofWord w))
  | 0x4f => some (.atomI32 p (FmtM.ofWord w))
  | 0x50 => some (.atomI64 p (FmtM.ofWord w))
  | 0x51 => some (.atomF32 p (FmtM.ofWord w))
  | 0x52 => some (.redI32 p (FmtM.ofWord w))
  | 0x53 => some (.redI64 p (FmtM.ofWord w))
  | 0x54 => some (.redF32 p (FmtM.ofWord w))
  | 0x55 => some (.atoml p (FmtM.ofWord w))
  | 0x56 => some (.cas p (FmtM.ofWord w))
  | 0x57 =>
    match (bitsOf w 18 3).toNat with
    | 0 => some (.fenceAcq (FmtF.ofWord w))
    | 1 => some (.fenceRel (FmtF.ofWord w))
    | 2 => some (.fenceAr (FmtF.ofWord w))
    | 3 => some (.fenceXpath (FmtF.ofWord w))
    | _ => none
  | 0x58 =>
    match (bitsOf w 0 3).toNat with
    | 0 => some (.cctlInvl1 (FmtM.ofWord w))
    | 1 => some (.cctlInvline (FmtM.ofWord w))
    | 2 => some (.cctlInvpt (FmtM.ofWord w))
    | 3 => some (.cctlInvpg (FmtM.ofWord w))
    | 4 => some (.cctlPfL1 (FmtM.ofWord w))
    | 5 => some (.cctlPfLlc (FmtM.ofWord w))
    | _ => none
  | 0x59 => some (.waitc (FmtE.ofWord w))
  | 0x5a => some (.cpa (FmtE.ofWord w))
  | 0x5b =>
    match (bitsOf w 0 2).toNat with
    | 0 => some (.mscFill (FmtM.ofWord w))
    | 1 => some (.mscRdo (FmtM.ofWord w))
    | 2 => some (.mscAxpy (FmtM.ofWord w))
    | 3 => some (.mscCopy (FmtM.ofWord w))
    | _ => none
  | 0x5d =>
    match (bitsOf w 3 7).toNat with
    | 0 => some (.pkrSet (FmtRM.ofWord w))
    | 1 => some (.pkrGet (FmtRM.ofWord w))
    | _ => none
  | 0x5e =>
    match (bitsOf w 3 7).toNat with
    | 0 => some (.capMov p (FmtRM.ofWord w))
    | 1 => some (.capGetaddr p (FmtRM.ofWord w))
    | 2 => some (.capGetbase p (FmtRM.ofWord w))
    | 3 => some (.capGetlen p (FmtRM.ofWord w))
    | 4 => some (.capGetrights p (FmtRM.ofWord w))
    | 5 => some (.capGettag p (FmtRM.ofWord w))
    | 6 => some (.capRestrict p (FmtRM.ofWord w))
    | 7 => some (.capSetaddr p (FmtRM.ofWord w))
    | 8 => some (.capIncaddr p (FmtRM.ofWord w))
    | 9 => some (.capClrtag p (FmtRM.ofWord w))
    | _ => none
  | 0x5f => some (.cbnd p (FmtRRR.ofWord w))
  | 0x60 => some (.sld p (FmtM.ofWord w))
  | 0x61 => some (.sst p (FmtM.ofWord w))
  | 0x62 => some (.sshift p (FmtRRR.ofWord w))
  | 0x63 => some (.snorm p (FmtRM.ofWord w))
  | 0x64 => some (.harden p (FmtRM.ofWord w))
  | 0x65 => some (.sldg p (FmtM.ofWord w))
  | 0x66 => some (.sstg p (FmtM.ofWord w))
  | 0x68 => some (.mwl (FmtMX.ofWord w))
  | 0x69 => some (.mma (FmtMX.ofWord w))
  | 0x6a => some (.mmaS (FmtMX.ofWord w))
  | 0x6b => some (.mmaD (FmtMX.ofWord w))
  | 0x6c => some (.mswap (FmtMX.ofWord w))
  | 0x6d => some (.mscl (FmtMX.ofWord w))
  | 0x70 => some (.forke (FmtE.ofWord w))
  | 0x71 =>
    match (bitsOf w 21 3).toNat with
    | 0 => some (.rdv (FmtE.ofWord w))
    | 1 => some (.rdvTest (FmtE.ofWord w))
    | _ => none
  | 0x72 => some (.bar (FmtE.ofWord w))
  | 0x73 =>
    match (bitsOf w 21 3).toNat with
    | 0 => some (.baroInit (FmtE.ofWord w))
    | 1 => some (.baroArrive (FmtE.ofWord w))
    | 2 => some (.baroWait (FmtE.ofWord w))
    | 3 => some (.baroAw (FmtE.ofWord w))
    | _ => none
  | 0x74 => some (.tbar (FmtE.ofWord w))
  | 0x75 =>
    match (bitsOf w 21 3).toNat with
    | 0 => some (.cqPush (FmtE.ofWord w))
    | 1 => some (.cqPop (FmtE.ofWord w))
    | 2 => some (.cqReset (FmtE.ofWord w))
    | 3 => some (.cqCount (FmtE.ofWord w))
    | _ => none
  | 0x76 =>
    match (bitsOf w 21 3).toNat with
    | 0 => some (.credInit (FmtE.ofWord w))
    | 1 => some (.credTri (FmtE.ofWord w))
    | 2 => some (.credSum (FmtE.ofWord w))
    | 3 => some (.credGet (FmtE.ofWord w))
    | _ => none
  | 0x77 => some (.lnch (FmtE.ofWord w))
  | 0x78 => some (.seqend (FmtE.ofWord w))
  | 0x79 => some (.waitt (FmtE.ofWord w))
  | 0x7a => some (.ecopy (FmtE.ofWord w))
  | 0x7b => some (.emcast (FmtE.ofWord w))
  | 0x7c =>
    match (bitsOf w 21 3).toNat with
    | 0 => some (.egkvLd (FmtE.ofWord w))
    | 1 => some (.egkvLdx (FmtE.ofWord w))
    | 2 => some (.egkvSt (FmtE.ofWord w))
    | 3 => some (.egkvPurge (FmtE.ofWord w))
    | _ => none
  | 0x7d => some (.emerge (FmtE.ofWord w))
  | 0x7e => some (.esig (FmtE.ofWord w))
  | _ => none

/-- The instruction of a base word, with the prefix before it if there is one; none for a word that the opcode
table does not list. -/
def decodeBase (p : Pfx) (w : Word) : Option Instr :=
  match selectBase p w with
  | some i => if reservedZero w && i.wf then some i else none
  | none => none

/-- A word is a prefix word (02 R42). -/
def isPrefix (w : Word) : Bool := majorOf w == 0x7F

/-- The prefix word's own form is legal: bit 31 and bits [2:0] are 0 and RM is not reserved (02 R45). -/
def prefixForm (w : Word) : Bool := !bitOf w 31 && bitsOf w 0 3 == 0 && (Prefix.ofWord w).wf

/-- Why words give no instruction (02 R43, R45, R47). -/
inductive DecodeError where
  /-- a base word that is not an instruction: the offending word -/
  | badWord (w : Word)
  /-- a prefix word that is illegal, or that no eligible word follows: the prefix -/
  | badPrefix (w : Word)
  /-- the second word of a pair is missing -/
  | truncated
  deriving DecidableEq, Repr

/-- Decodes the word at the PC and the word after it, when there is one. The checks run in the order of 02 R57:
the prefix first, then the base word. DEDUCED (log entry 122): a second word whose major is unassigned, reserved or for
engines only takes no prefix, and the prefix is the offending word. -/
def decodeWords (w : Word) (next : Option Word) : Except DecodeError Instr :=
  if isPrefix w then
    match next with
    | none => .error .truncated
    | some b =>
      if prefixForm w && prefixEligible (majorOf b) then
        match decodeBase (some (Prefix.ofWord w)) b with
        | some i => .ok i
        | none => .error (.badWord b)
      else .error (.badPrefix w)
  else
    match decodeBase none w with
    | some i => .ok i
    | none => .error (.badWord w)

/-- The little-endian word of four bytes (02 R34). -/
def wordOfBytes (b0 b1 b2 b3 : Byte) : Word := b3 ++ b2 ++ b1 ++ b0

/-- The four bytes of a word, lowest address first (02 R34). -/
def bytesOfWord (w : Word) : List Byte := [bitsOf w 0 8, bitsOf w 8 8, bitsOf w 16 8, bitsOf w 24 8]

/-- Decodes an instruction at the head of a byte list and gives the rest of the list. Total on any bytes. -/
def decode : List Byte → Except DecodeError (Instr × List Byte)
  | b0 :: b1 :: b2 :: b3 :: rest =>
    let w := wordOfBytes b0 b1 b2 b3
    if isPrefix w then
      match rest with
      | c0 :: c1 :: c2 :: c3 :: rest' => (decodeWords w (some (wordOfBytes c0 c1 c2 c3))).map (·, rest')
      | _ => .error .truncated
    else (decodeWords w none).map (·, rest)
  | _ => .error .truncated

/-- The base word of an instruction (02 R36, R42); 0 for an event, which has none. -/
def Instr.baseWord : Instr → Word
  | .add _ f => f.toWord 0x1
  | .sub _ f => f.toWord 0x2
  | .mul _ f => f.toWord 0x3
  | .mulh _ f => f.toWord 0x4
  | .and_ _ f => f.toWord 0x5
  | .or_ _ f => f.toWord 0x6
  | .xor_ _ f => f.toWord 0x7
  | .andn _ f => f.toWord 0x8
  | .shl _ f => f.toWord 0x9
  | .shr _ f => f.toWord 0xa
  | .rot _ f => f.toWord 0xb
  | .min _ f => f.toWord 0xc
  | .max _ f => f.toWord 0xd
  | .movc _ f => f.toWord 0xe
  | .bfx _ f => f.toWord 0xf
  | .bfi _ f => f.toWord 0x10
  | .neg _ f => f.toWord 0x11
  | .not_ _ f => f.toWord 0x11
  | .abs _ f => f.toWord 0x11
  | .popc _ f => f.toWord 0x11
  | .clz _ f => f.toWord 0x11
  | .ctz _ f => f.toWord 0x11
  | .brev _ f => f.toWord 0x11
  | .bswap _ f => f.toWord 0x11
  | .sext8 _ f => f.toWord 0x11
  | .sext16 _ f => f.toWord 0x11
  | .zext8 _ f => f.toWord 0x11
  | .zext16 _ f => f.toWord 0x11
  | .mov _ f => f.toWord 0x11
  | .pget _ f => f.toWord 0x11
  | .pput _ f => f.toWord 0x11
  | .sext32 _ f => f.toWord 0x11
  | .zext32 _ f => f.toWord 0x11
  | .cmpI32 _ f => f.toWord 0x12
  | .cmpUi32 _ f => f.toWord 0x13
  | .cmpI64 _ f => f.toWord 0x14
  | .cmpUi64 _ f => f.toWord 0x15
  | .addi _ f => f.toWord 0x16
  | .andi _ f => f.toWord 0x17
  | .ori _ f => f.toWord 0x18
  | .xori _ f => f.toWord 0x19
  | .shi _ f => f.toWord 0x1a
  | .cmpi _ f => f.toWord 0x1b
  | .li _ f => f.toWord 0x1c
  | .lui _ f => f.toWord 0x1d
  | .mad _ f => f.toWord 0x1e
  | .movs f => f.toWord 0x1f
  | .fadd _ f => f.toWord 0x20
  | .fsub _ f => f.toWord 0x21
  | .fmul _ f => f.toWord 0x22
  | .ffma _ f => f.toWord 0x23
  | .fmin _ f => f.toWord 0x24
  | .fmax _ f => f.toWord 0x24
  | .fcmp _ f => f.toWord 0x25
  | .hadd2 _ f => f.toWord 0x26
  | .hmul2 _ f => f.toWord 0x27
  | .hfma2 _ f => f.toWord 0x28
  | .fcvt _ f => f.toWord 0x29
  | .fabs _ f => f.toWord 0x2a
  | .fneg _ f => f.toWord 0x2a
  | .fsqrt _ f => f.toWord 0x2a
  | .frint _ f => f.toWord 0x2a
  | .frcp _ f => f.toWord 0x2a
  | .fsat _ f => f.toWord 0x2a
  | .sfuRcp _ f => f.toWord 0x2b
  | .sfuRsqrt _ f => f.toWord 0x2b
  | .sfuExp2 _ f => f.toWord 0x2b
  | .sfuLog2 _ f => f.toWord 0x2b
  | .sfuSin _ f => f.toWord 0x2b
  | .sfuCos _ f => f.toWord 0x2b
  | .sfuTanh _ f => f.toWord 0x2b
  | .fclass _ f => f.toWord 0x2c
  | .dot2 _ f => f.toWord 0x2d
  | .fminNan _ f => f.toWord 0x2e
  | .fmaxNan _ f => f.toWord 0x2e
  | .fminmag _ f => f.toWord 0x2e
  | .fmaxmag _ f => f.toWord 0x2e
  | .rand _ f => f.toWord 0x2f
  | .bra f => f.toWord 0x30
  | .call f => f.toWord 0x31
  | .jr f => f.toWord 0x32
  | .fork f => f.toWord 0x33
  | .endF f => f.toWord 0x34
  | .yield f => f.toWord 0x35
  | .win f => f.toWord 0x36
  | .trap f => f.toWord 0x37
  | .svc f => f.toWord 0x38
  | .rtt f => f.toWord 0x39
  | .rttSkip f => f.toWord 0x39
  | .pset f => f.toWord 0x3b
  | .cvdeclLive f => f.toWord 0x3c
  | .cvdeclSet f => f.toWord 0x3c
  | .cvsign f => f.toWord 0x3d
  | .nop f => f.toWord 0x3e
  | .shflIdx _ f => f.toWord 0x40
  | .shflRel _ f => f.toWord 0x41
  | .qswpH _ f => f.toWord 0x42
  | .qswpV _ f => f.toWord 0x42
  | .qswpD _ f => f.toWord 0x42
  | .qbc _ f => f.toWord 0x42
  | .qddx _ f => f.toWord 0x42
  | .qddy _ f => f.toWord 0x42
  | .voteSome _ f => f.toWord 0x43
  | .voteEvery _ f => f.toWord 0x43
  | .voteAgree _ f => f.toWord 0x43
  | .voteMask _ f => f.toWord 0x43
  | .voteCount _ f => f.toWord 0x43
  | .voteFirst _ f => f.toWord 0x43
  | .voteLast _ f => f.toWord 0x43
  | .matchF _ f => f.toWord 0x44
  | .redg _ f => f.toWord 0x45
  | .scang _ f => f.toWord 0x46
  | .bcast _ f => f.toWord 0x47
  | .ld _ f => f.toWord 0x48
  | .st _ f => f.toWord 0x49
  | .ldi _ f => f.toWord 0x4a
  | .sti _ f => f.toWord 0x4b
  | .ldl _ f => f.toWord 0x4c
  | .stl _ f => f.toWord 0x4d
  | .ldln _ f => f.toWord 0x4e
  | .atomI32 _ f => f.toWord 0x4f
  | .atomI64 _ f => f.toWord 0x50
  | .atomF32 _ f => f.toWord 0x51
  | .redI32 _ f => f.toWord 0x52
  | .redI64 _ f => f.toWord 0x53
  | .redF32 _ f => f.toWord 0x54
  | .atoml _ f => f.toWord 0x55
  | .cas _ f => f.toWord 0x56
  | .fenceAcq f => f.toWord 0x57
  | .fenceRel f => f.toWord 0x57
  | .fenceAr f => f.toWord 0x57
  | .fenceXpath f => f.toWord 0x57
  | .cctlInvl1 f => f.toWord 0x58
  | .cctlInvline f => f.toWord 0x58
  | .cctlInvpt f => f.toWord 0x58
  | .cctlInvpg f => f.toWord 0x58
  | .cctlPfL1 f => f.toWord 0x58
  | .cctlPfLlc f => f.toWord 0x58
  | .waitc f => f.toWord 0x59
  | .cpa f => f.toWord 0x5a
  | .mscFill f => f.toWord 0x5b
  | .mscRdo f => f.toWord 0x5b
  | .mscAxpy f => f.toWord 0x5b
  | .mscCopy f => f.toWord 0x5b
  | .pkrSet f => f.toWord 0x5d
  | .pkrGet f => f.toWord 0x5d
  | .capMov _ f => f.toWord 0x5e
  | .capGetaddr _ f => f.toWord 0x5e
  | .capGetbase _ f => f.toWord 0x5e
  | .capGetlen _ f => f.toWord 0x5e
  | .capGetrights _ f => f.toWord 0x5e
  | .capGettag _ f => f.toWord 0x5e
  | .capRestrict _ f => f.toWord 0x5e
  | .capSetaddr _ f => f.toWord 0x5e
  | .capIncaddr _ f => f.toWord 0x5e
  | .capClrtag _ f => f.toWord 0x5e
  | .cbnd _ f => f.toWord 0x5f
  | .sld _ f => f.toWord 0x60
  | .sst _ f => f.toWord 0x61
  | .sshift _ f => f.toWord 0x62
  | .snorm _ f => f.toWord 0x63
  | .harden _ f => f.toWord 0x64
  | .sldg _ f => f.toWord 0x65
  | .sstg _ f => f.toWord 0x66
  | .mwl f => f.toWord 0x68
  | .mma f => f.toWord 0x69
  | .mmaS f => f.toWord 0x6a
  | .mmaD f => f.toWord 0x6b
  | .mswap f => f.toWord 0x6c
  | .mscl f => f.toWord 0x6d
  | .forke f => f.toWord 0x70
  | .rdv f => f.toWord 0x71
  | .rdvTest f => f.toWord 0x71
  | .bar f => f.toWord 0x72
  | .baroInit f => f.toWord 0x73
  | .baroArrive f => f.toWord 0x73
  | .baroWait f => f.toWord 0x73
  | .baroAw f => f.toWord 0x73
  | .tbar f => f.toWord 0x74
  | .cqPush f => f.toWord 0x75
  | .cqPop f => f.toWord 0x75
  | .cqReset f => f.toWord 0x75
  | .cqCount f => f.toWord 0x75
  | .credInit f => f.toWord 0x76
  | .credTri f => f.toWord 0x76
  | .credSum f => f.toWord 0x76
  | .credGet f => f.toWord 0x76
  | .lnch f => f.toWord 0x77
  | .seqend f => f.toWord 0x78
  | .waitt f => f.toWord 0x79
  | .ecopy f => f.toWord 0x7a
  | .emcast f => f.toWord 0x7b
  | .egkvLd f => f.toWord 0x7c
  | .egkvLdx f => f.toWord 0x7c
  | .egkvSt f => f.toWord 0x7c
  | .egkvPurge f => f.toWord 0x7c
  | .emerge f => f.toWord 0x7d
  | .esig f => f.toWord 0x7e
  | .blockPlace _ => 0
  | .drain _ => 0
  | .holdQueueLeave _ _ => 0
  | .snapshotCopyDone _ _ _ => 0
  | .pageMapped _ => 0
  | .sideLogReplay _ _ _ => 0
  | .homeRequest _ _ => 0
  | .homeAck _ => 0
  | .reply _ => 0
  | .portInvalAck _ _ => 0
  | .barGroupArrive _ => 0
  | .barComplete _ => 0
  | .treeComplete _ _ => 0
  | .matrixIssue _ _ => 0
  | .mwlLatchWrite _ => 0
  | .latchParityError _ _ _ _ => 0
  | .engineContextStart _ => 0
  | .engineStatusFinal _ => 0
  | .copyComplete _ => 0
  | .mscComplete _ => 0
  | .waittTimeout _ => 0
  | .cruRecord _ => 0
  | .shadowCheckpoint _ => 0
  | .strikeReport _ => 0
  | .launchReplay _ => 0
  | .selfTestComplete _ => 0
  | .errorRecordWrite _ => 0
  | .hbmScrub _ _ => 0
  | .edramRefresh _ _ _ => 0
  | .queueAccept _ => 0
  | .launch _ => 0
  | .copy _ => 0
  | .msc _ => 0
  | .signal _ => 0
  | .wait _ => 0
  | .evict _ => 0
  | .evictGraceExpiry => 0
  | .nodeComplete _ => 0
  | .priorityPreempt _ _ => 0
  | .launchResume _ => 0
  | .ctxcreate => 0
  | .ctxdestroy => 0
  | .seqopen => 0
  | .seqclose => 0
  | .cancel => 0
  | .preempt => 0
  | .inval => 0
  | .qtailWrite _ _ => 0
  | .qcfgWrite _ _ => 0
  | .lrangeWrite _ _ _ _ => 0
  | .facceptWrite _ _ => 0
  | .arbWrite _ => 0
  | .attestationRequest => 0
  | .pwrreqWrite _ => 0
  | .powerStateChange => 0
  | .powerCapThrottle _ => 0
  | .evreqWrite _ => 0
  | .fdevidWrite _ => 0
  | .fbdWrite _ _ => 0
  | .registerWrite _ _ _ => 0
  | .powerOnReset _ => 0
  | .memoryTrained _ => 0
  | .linkTrained _ => 0
  | .hostApertureAccess _ => 0
  | .hostAck _ _ _ => 0
  | .hostTimeout _ => 0
  | .rd _ => 0
  | .rdresp _ => 0
  | .wr _ => 0
  | .wrack _ => 0
  | .atom _ => 0
  | .atomresp _ => 0
  | .nack _ => 0
  | .arrive _ => 0
  | .release _ => 0
  | .withdraw _ => 0
  | .wdack _ => 0
  | .evstream _ => 0
  | .fabricTimeout _ => 0
  | .fabricBarrierTimeout _ _ => 0
  | .decodingFault _ => 0
  | .egkvCommandComplete _ => 0
  | .btbPurgeAck _ _ => 0
  | .pkrPortAck _ _ => 0
  | .preemptionAbandoned _ => 0
  | .evictPhaseOverrun => 0
  | .attestationReportWritten _ => 0
  | .powerLoss => 0

/-- The prefix of an instruction, where its form takes one and it has one. -/
def Instr.pfx : Instr → Pfx
  | .add p _ => p
  | .sub p _ => p
  | .mul p _ => p
  | .mulh p _ => p
  | .and_ p _ => p
  | .or_ p _ => p
  | .xor_ p _ => p
  | .andn p _ => p
  | .shl p _ => p
  | .shr p _ => p
  | .rot p _ => p
  | .min p _ => p
  | .max p _ => p
  | .movc p _ => p
  | .bfx p _ => p
  | .bfi p _ => p
  | .neg p _ => p
  | .not_ p _ => p
  | .abs p _ => p
  | .popc p _ => p
  | .clz p _ => p
  | .ctz p _ => p
  | .brev p _ => p
  | .bswap p _ => p
  | .sext8 p _ => p
  | .sext16 p _ => p
  | .zext8 p _ => p
  | .zext16 p _ => p
  | .mov p _ => p
  | .pget p _ => p
  | .pput p _ => p
  | .sext32 p _ => p
  | .zext32 p _ => p
  | .cmpI32 p _ => p
  | .cmpUi32 p _ => p
  | .cmpI64 p _ => p
  | .cmpUi64 p _ => p
  | .addi p _ => p
  | .andi p _ => p
  | .ori p _ => p
  | .xori p _ => p
  | .shi p _ => p
  | .cmpi p _ => p
  | .li p _ => p
  | .lui p _ => p
  | .mad p _ => p
  | .movs _ => none
  | .fadd p _ => p
  | .fsub p _ => p
  | .fmul p _ => p
  | .ffma p _ => p
  | .fmin p _ => p
  | .fmax p _ => p
  | .fcmp p _ => p
  | .hadd2 p _ => p
  | .hmul2 p _ => p
  | .hfma2 p _ => p
  | .fcvt p _ => p
  | .fabs p _ => p
  | .fneg p _ => p
  | .fsqrt p _ => p
  | .frint p _ => p
  | .frcp p _ => p
  | .fsat p _ => p
  | .sfuRcp p _ => p
  | .sfuRsqrt p _ => p
  | .sfuExp2 p _ => p
  | .sfuLog2 p _ => p
  | .sfuSin p _ => p
  | .sfuCos p _ => p
  | .sfuTanh p _ => p
  | .fclass p _ => p
  | .dot2 p _ => p
  | .fminNan p _ => p
  | .fmaxNan p _ => p
  | .fminmag p _ => p
  | .fmaxmag p _ => p
  | .rand p _ => p
  | .bra _ => none
  | .call _ => none
  | .jr _ => none
  | .fork _ => none
  | .endF _ => none
  | .yield _ => none
  | .win _ => none
  | .trap _ => none
  | .svc _ => none
  | .rtt _ => none
  | .rttSkip _ => none
  | .pset _ => none
  | .cvdeclLive _ => none
  | .cvdeclSet _ => none
  | .cvsign _ => none
  | .nop _ => none
  | .shflIdx p _ => p
  | .shflRel p _ => p
  | .qswpH p _ => p
  | .qswpV p _ => p
  | .qswpD p _ => p
  | .qbc p _ => p
  | .qddx p _ => p
  | .qddy p _ => p
  | .voteSome p _ => p
  | .voteEvery p _ => p
  | .voteAgree p _ => p
  | .voteMask p _ => p
  | .voteCount p _ => p
  | .voteFirst p _ => p
  | .voteLast p _ => p
  | .matchF p _ => p
  | .redg p _ => p
  | .scang p _ => p
  | .bcast p _ => p
  | .ld p _ => p
  | .st p _ => p
  | .ldi p _ => p
  | .sti p _ => p
  | .ldl p _ => p
  | .stl p _ => p
  | .ldln p _ => p
  | .atomI32 p _ => p
  | .atomI64 p _ => p
  | .atomF32 p _ => p
  | .redI32 p _ => p
  | .redI64 p _ => p
  | .redF32 p _ => p
  | .atoml p _ => p
  | .cas p _ => p
  | .fenceAcq _ => none
  | .fenceRel _ => none
  | .fenceAr _ => none
  | .fenceXpath _ => none
  | .cctlInvl1 _ => none
  | .cctlInvline _ => none
  | .cctlInvpt _ => none
  | .cctlInvpg _ => none
  | .cctlPfL1 _ => none
  | .cctlPfLlc _ => none
  | .waitc _ => none
  | .cpa _ => none
  | .mscFill _ => none
  | .mscRdo _ => none
  | .mscAxpy _ => none
  | .mscCopy _ => none
  | .pkrSet _ => none
  | .pkrGet _ => none
  | .capMov p _ => p
  | .capGetaddr p _ => p
  | .capGetbase p _ => p
  | .capGetlen p _ => p
  | .capGetrights p _ => p
  | .capGettag p _ => p
  | .capRestrict p _ => p
  | .capSetaddr p _ => p
  | .capIncaddr p _ => p
  | .capClrtag p _ => p
  | .cbnd p _ => p
  | .sld p _ => p
  | .sst p _ => p
  | .sshift p _ => p
  | .snorm p _ => p
  | .harden p _ => p
  | .sldg p _ => p
  | .sstg p _ => p
  | .mwl _ => none
  | .mma _ => none
  | .mmaS _ => none
  | .mmaD _ => none
  | .mswap _ => none
  | .mscl _ => none
  | .forke _ => none
  | .rdv _ => none
  | .rdvTest _ => none
  | .bar _ => none
  | .baroInit _ => none
  | .baroArrive _ => none
  | .baroWait _ => none
  | .baroAw _ => none
  | .tbar _ => none
  | .cqPush _ => none
  | .cqPop _ => none
  | .cqReset _ => none
  | .cqCount _ => none
  | .credInit _ => none
  | .credTri _ => none
  | .credSum _ => none
  | .credGet _ => none
  | .lnch _ => none
  | .seqend _ => none
  | .waitt _ => none
  | .ecopy _ => none
  | .emcast _ => none
  | .egkvLd _ => none
  | .egkvLdx _ => none
  | .egkvSt _ => none
  | .egkvPurge _ => none
  | .emerge _ => none
  | .esig _ => none
  | .blockPlace _ => none
  | .drain _ => none
  | .holdQueueLeave _ _ => none
  | .snapshotCopyDone _ _ _ => none
  | .pageMapped _ => none
  | .sideLogReplay _ _ _ => none
  | .homeRequest _ _ => none
  | .homeAck _ => none
  | .reply _ => none
  | .portInvalAck _ _ => none
  | .barGroupArrive _ => none
  | .barComplete _ => none
  | .treeComplete _ _ => none
  | .matrixIssue _ _ => none
  | .mwlLatchWrite _ => none
  | .latchParityError _ _ _ _ => none
  | .engineContextStart _ => none
  | .engineStatusFinal _ => none
  | .copyComplete _ => none
  | .mscComplete _ => none
  | .waittTimeout _ => none
  | .cruRecord _ => none
  | .shadowCheckpoint _ => none
  | .strikeReport _ => none
  | .launchReplay _ => none
  | .selfTestComplete _ => none
  | .errorRecordWrite _ => none
  | .hbmScrub _ _ => none
  | .edramRefresh _ _ _ => none
  | .queueAccept _ => none
  | .launch _ => none
  | .copy _ => none
  | .msc _ => none
  | .signal _ => none
  | .wait _ => none
  | .evict _ => none
  | .evictGraceExpiry => none
  | .nodeComplete _ => none
  | .priorityPreempt _ _ => none
  | .launchResume _ => none
  | .ctxcreate => none
  | .ctxdestroy => none
  | .seqopen => none
  | .seqclose => none
  | .cancel => none
  | .preempt => none
  | .inval => none
  | .qtailWrite _ _ => none
  | .qcfgWrite _ _ => none
  | .lrangeWrite _ _ _ _ => none
  | .facceptWrite _ _ => none
  | .arbWrite _ => none
  | .attestationRequest => none
  | .pwrreqWrite _ => none
  | .powerStateChange => none
  | .powerCapThrottle _ => none
  | .evreqWrite _ => none
  | .fdevidWrite _ => none
  | .fbdWrite _ _ => none
  | .registerWrite _ _ _ => none
  | .powerOnReset _ => none
  | .memoryTrained _ => none
  | .linkTrained _ => none
  | .hostApertureAccess _ => none
  | .hostAck _ _ _ => none
  | .hostTimeout _ => none
  | .rd _ => none
  | .rdresp _ => none
  | .wr _ => none
  | .wrack _ => none
  | .atom _ => none
  | .atomresp _ => none
  | .nack _ => none
  | .arrive _ => none
  | .release _ => none
  | .withdraw _ => none
  | .wdack _ => none
  | .evstream _ => none
  | .fabricTimeout _ => none
  | .fabricBarrierTimeout _ _ => none
  | .decodingFault _ => none
  | .egkvCommandComplete _ => none
  | .btbPurgeAck _ _ => none
  | .pkrPortAck _ _ => none
  | .preemptionAbandoned _ => none
  | .evictPhaseOverrun => none
  | .attestationReportWritten _ => none
  | .powerLoss => none

/-- The instruction is a word of the instruction set, not an event. -/
def Instr.isWord : Instr → Bool
  | .add _ _ => true
  | .sub _ _ => true
  | .mul _ _ => true
  | .mulh _ _ => true
  | .and_ _ _ => true
  | .or_ _ _ => true
  | .xor_ _ _ => true
  | .andn _ _ => true
  | .shl _ _ => true
  | .shr _ _ => true
  | .rot _ _ => true
  | .min _ _ => true
  | .max _ _ => true
  | .movc _ _ => true
  | .bfx _ _ => true
  | .bfi _ _ => true
  | .neg _ _ => true
  | .not_ _ _ => true
  | .abs _ _ => true
  | .popc _ _ => true
  | .clz _ _ => true
  | .ctz _ _ => true
  | .brev _ _ => true
  | .bswap _ _ => true
  | .sext8 _ _ => true
  | .sext16 _ _ => true
  | .zext8 _ _ => true
  | .zext16 _ _ => true
  | .mov _ _ => true
  | .pget _ _ => true
  | .pput _ _ => true
  | .sext32 _ _ => true
  | .zext32 _ _ => true
  | .cmpI32 _ _ => true
  | .cmpUi32 _ _ => true
  | .cmpI64 _ _ => true
  | .cmpUi64 _ _ => true
  | .addi _ _ => true
  | .andi _ _ => true
  | .ori _ _ => true
  | .xori _ _ => true
  | .shi _ _ => true
  | .cmpi _ _ => true
  | .li _ _ => true
  | .lui _ _ => true
  | .mad _ _ => true
  | .movs _ => true
  | .fadd _ _ => true
  | .fsub _ _ => true
  | .fmul _ _ => true
  | .ffma _ _ => true
  | .fmin _ _ => true
  | .fmax _ _ => true
  | .fcmp _ _ => true
  | .hadd2 _ _ => true
  | .hmul2 _ _ => true
  | .hfma2 _ _ => true
  | .fcvt _ _ => true
  | .fabs _ _ => true
  | .fneg _ _ => true
  | .fsqrt _ _ => true
  | .frint _ _ => true
  | .frcp _ _ => true
  | .fsat _ _ => true
  | .sfuRcp _ _ => true
  | .sfuRsqrt _ _ => true
  | .sfuExp2 _ _ => true
  | .sfuLog2 _ _ => true
  | .sfuSin _ _ => true
  | .sfuCos _ _ => true
  | .sfuTanh _ _ => true
  | .fclass _ _ => true
  | .dot2 _ _ => true
  | .fminNan _ _ => true
  | .fmaxNan _ _ => true
  | .fminmag _ _ => true
  | .fmaxmag _ _ => true
  | .rand _ _ => true
  | .bra _ => true
  | .call _ => true
  | .jr _ => true
  | .fork _ => true
  | .endF _ => true
  | .yield _ => true
  | .win _ => true
  | .trap _ => true
  | .svc _ => true
  | .rtt _ => true
  | .rttSkip _ => true
  | .pset _ => true
  | .cvdeclLive _ => true
  | .cvdeclSet _ => true
  | .cvsign _ => true
  | .nop _ => true
  | .shflIdx _ _ => true
  | .shflRel _ _ => true
  | .qswpH _ _ => true
  | .qswpV _ _ => true
  | .qswpD _ _ => true
  | .qbc _ _ => true
  | .qddx _ _ => true
  | .qddy _ _ => true
  | .voteSome _ _ => true
  | .voteEvery _ _ => true
  | .voteAgree _ _ => true
  | .voteMask _ _ => true
  | .voteCount _ _ => true
  | .voteFirst _ _ => true
  | .voteLast _ _ => true
  | .matchF _ _ => true
  | .redg _ _ => true
  | .scang _ _ => true
  | .bcast _ _ => true
  | .ld _ _ => true
  | .st _ _ => true
  | .ldi _ _ => true
  | .sti _ _ => true
  | .ldl _ _ => true
  | .stl _ _ => true
  | .ldln _ _ => true
  | .atomI32 _ _ => true
  | .atomI64 _ _ => true
  | .atomF32 _ _ => true
  | .redI32 _ _ => true
  | .redI64 _ _ => true
  | .redF32 _ _ => true
  | .atoml _ _ => true
  | .cas _ _ => true
  | .fenceAcq _ => true
  | .fenceRel _ => true
  | .fenceAr _ => true
  | .fenceXpath _ => true
  | .cctlInvl1 _ => true
  | .cctlInvline _ => true
  | .cctlInvpt _ => true
  | .cctlInvpg _ => true
  | .cctlPfL1 _ => true
  | .cctlPfLlc _ => true
  | .waitc _ => true
  | .cpa _ => true
  | .mscFill _ => true
  | .mscRdo _ => true
  | .mscAxpy _ => true
  | .mscCopy _ => true
  | .pkrSet _ => true
  | .pkrGet _ => true
  | .capMov _ _ => true
  | .capGetaddr _ _ => true
  | .capGetbase _ _ => true
  | .capGetlen _ _ => true
  | .capGetrights _ _ => true
  | .capGettag _ _ => true
  | .capRestrict _ _ => true
  | .capSetaddr _ _ => true
  | .capIncaddr _ _ => true
  | .capClrtag _ _ => true
  | .cbnd _ _ => true
  | .sld _ _ => true
  | .sst _ _ => true
  | .sshift _ _ => true
  | .snorm _ _ => true
  | .harden _ _ => true
  | .sldg _ _ => true
  | .sstg _ _ => true
  | .mwl _ => true
  | .mma _ => true
  | .mmaS _ => true
  | .mmaD _ => true
  | .mswap _ => true
  | .mscl _ => true
  | .forke _ => true
  | .rdv _ => true
  | .rdvTest _ => true
  | .bar _ => true
  | .baroInit _ => true
  | .baroArrive _ => true
  | .baroWait _ => true
  | .baroAw _ => true
  | .tbar _ => true
  | .cqPush _ => true
  | .cqPop _ => true
  | .cqReset _ => true
  | .cqCount _ => true
  | .credInit _ => true
  | .credTri _ => true
  | .credSum _ => true
  | .credGet _ => true
  | .lnch _ => true
  | .seqend _ => true
  | .waitt _ => true
  | .ecopy _ => true
  | .emcast _ => true
  | .egkvLd _ => true
  | .egkvLdx _ => true
  | .egkvSt _ => true
  | .egkvPurge _ => true
  | .emerge _ => true
  | .esig _ => true
  | .blockPlace _ => false
  | .drain _ => false
  | .holdQueueLeave _ _ => false
  | .snapshotCopyDone _ _ _ => false
  | .pageMapped _ => false
  | .sideLogReplay _ _ _ => false
  | .homeRequest _ _ => false
  | .homeAck _ => false
  | .reply _ => false
  | .portInvalAck _ _ => false
  | .barGroupArrive _ => false
  | .barComplete _ => false
  | .treeComplete _ _ => false
  | .matrixIssue _ _ => false
  | .mwlLatchWrite _ => false
  | .latchParityError _ _ _ _ => false
  | .engineContextStart _ => false
  | .engineStatusFinal _ => false
  | .copyComplete _ => false
  | .mscComplete _ => false
  | .waittTimeout _ => false
  | .cruRecord _ => false
  | .shadowCheckpoint _ => false
  | .strikeReport _ => false
  | .launchReplay _ => false
  | .selfTestComplete _ => false
  | .errorRecordWrite _ => false
  | .hbmScrub _ _ => false
  | .edramRefresh _ _ _ => false
  | .queueAccept _ => false
  | .launch _ => false
  | .copy _ => false
  | .msc _ => false
  | .signal _ => false
  | .wait _ => false
  | .evict _ => false
  | .evictGraceExpiry => false
  | .nodeComplete _ => false
  | .priorityPreempt _ _ => false
  | .launchResume _ => false
  | .ctxcreate => false
  | .ctxdestroy => false
  | .seqopen => false
  | .seqclose => false
  | .cancel => false
  | .preempt => false
  | .inval => false
  | .qtailWrite _ _ => false
  | .qcfgWrite _ _ => false
  | .lrangeWrite _ _ _ _ => false
  | .facceptWrite _ _ => false
  | .arbWrite _ => false
  | .attestationRequest => false
  | .pwrreqWrite _ => false
  | .powerStateChange => false
  | .powerCapThrottle _ => false
  | .evreqWrite _ => false
  | .fdevidWrite _ => false
  | .fbdWrite _ _ => false
  | .registerWrite _ _ _ => false
  | .powerOnReset _ => false
  | .memoryTrained _ => false
  | .linkTrained _ => false
  | .hostApertureAccess _ => false
  | .hostAck _ _ _ => false
  | .hostTimeout _ => false
  | .rd _ => false
  | .rdresp _ => false
  | .wr _ => false
  | .wrack _ => false
  | .atom _ => false
  | .atomresp _ => false
  | .nack _ => false
  | .arrive _ => false
  | .release _ => false
  | .withdraw _ => false
  | .wdack _ => false
  | .evstream _ => false
  | .fabricTimeout _ => false
  | .fabricBarrierTimeout _ _ => false
  | .decodingFault _ => false
  | .egkvCommandComplete _ => false
  | .btbPurgeAck _ _ => false
  | .pkrPortAck _ _ => false
  | .preemptionAbandoned _ => false
  | .evictPhaseOverrun => false
  | .attestationReportWritten _ => false
  | .powerLoss => false

/-- The words of an instruction, in address order: the prefix word, if any, then the base word (02 R46). -/
def encode (i : Instr) : List Word :=
  match i.pfx with
  | some p => [p.toWord, i.baseWord]
  | none => [i.baseWord]

/-- The bytes of an instruction in memory (02 R34). -/
def encodeBytes (i : Instr) : List Byte := (encode i).flatMap bytesOfWord

/-- The bytes an instruction occupies: 8 for a prefixed pair, 4 otherwise (02 R46). -/
def Instr.size (i : Instr) : Nat := if i.pfx.isSome then 8 else 4

/-- The decoder's answer for a word numbered as the opcode table numbers it: the table's rows are one 32-bit word,
stored little-endian. A prefix word alone is followed by a second word of zeros. -/
def decodeTableWord (_nbits w : Nat) : Option Instr :=
  match decode (bytesOfWord (BitVec.ofNat 32 w) ++ bytesOfWord (BitVec.ofNat 32 (w >>> 32))) with
  | .ok (i, _) => some i
  | .error _ => none

end Sys2Proof
end

