-- ==== Sys2Proof/Machine/Flags.lean ====
section
/-!
DEFINITION. The seven sticky flags of FPSR (04 R103) and how a run merges them (04 R104).
-/

namespace Sys2Proof.Machine

open Sys2Proof

/-- The flags of FPSR in the order of its map (04 R103). -/
abbrev Flags := BitVec 7

/-- No flag. -/
def fNone : Flags := 0
/-- Inexact. -/
def fNX : Flags := 0x01
/-- Underflow. -/
def fUF : Flags := 0x02
/-- Overflow. -/
def fOF : Flags := 0x04
/-- Division by zero, or a pole. -/
def fDZ : Flags := 0x08
/-- Invalid operation. -/
def fNV : Flags := 0x10
/-- A non-finite result. -/
def fNF : Flags := 0x20
/-- A result changed by saturation. -/
def fSAT : Flags := 0x40

/-- The flag when the condition holds. -/
def flagIf (c : Bool) (f : Flags) : Flags := if c then f else fNone

/-- FPSR after the drain of a run: the last value written in it, or the old one, with the flags the run raised
(04 R104). -/
def fpsrAtDrain (old : Flags) (written : Option Flags) (raised : Flags) : Flags := written.getD old ||| raised

end Sys2Proof.Machine
end

