-- ==== Sys2Proof/Machine/Float.lean ====
section
/-!
DEFINITION. Floating point: formats (04 R96 to R99), exact values, rounding and status (04 R100 to R108), the
operations of 04 R109 to R118 on one lane's values, conversions (04 R119 to R122), and the random generator (04 R124).
An exact finite value is a sign, a natural mantissa and a power of two, so every operation is exact until `roundTo`.
-/

namespace Sys2Proof.Machine

open Sys2Proof

/-! ### Formats and exact values -/

/-- A binary floating format: exponent bits, fraction bits, and whether it is E4M3, which has no infinity. -/
structure FloatFmt where
  ebits : Nat
  fbits : Nat
  e4m3 : Bool
  deriving DecidableEq, Repr

/-- FP32 (04 R97). -/
def fp32 : FloatFmt := ⟨8, 23, false⟩
/-- FP16 (04 R97). -/
def fp16 : FloatFmt := ⟨5, 10, false⟩
/-- BF16 (04 R97). -/
def bf16 : FloatFmt := ⟨8, 7, false⟩
/-- E4M3 (04 R98). -/
def e4m3 : FloatFmt := ⟨4, 3, true⟩
/-- E5M2 (04 R98). -/
def e5m2 : FloatFmt := ⟨5, 2, false⟩

/-- Bits of an encoding. -/
def FloatFmt.width (f : FloatFmt) : Nat := 1 + f.ebits + f.fbits
/-- The exponent of the least normal value (04 R97, R98). -/
def FloatFmt.emin (f : FloatFmt) : Int := 2 - (2 ^ (f.ebits - 1) : Nat)
/-- The exponent of the least subnormal value. -/
def FloatFmt.qmin (f : FloatFmt) : Int := f.emin - f.fbits
/-- The encoding of +∞; E4M3 has none, and the number is that of its NaN. -/
def FloatFmt.infEnc (f : FloatFmt) : Nat := if f.e4m3 then 0x7F else (2 ^ f.ebits - 1) * 2 ^ f.fbits
/-- The encoding of the greatest finite value. -/
def FloatFmt.maxEnc (f : FloatFmt) : Nat := f.infEnc - 1
/-- The sign bit of an encoding. -/
def FloatFmt.signBit (f : FloatFmt) (neg : Bool) : Nat := if neg then 2 ^ (f.ebits + f.fbits) else 0
/-- The default NaN (04 R97, R98). -/
def FloatFmt.defaultNaN (f : FloatFmt) : Nat := if f.e4m3 then 0x7F else f.infEnc + 2 ^ (f.fbits - 1)

/-- A value as an instruction takes it: a NaN with its sign, whether it signals and its fraction; an infinity; or
the finite value (-1)^neg * m * 2^e, zero being m = 0. -/
inductive FloatVal where
  | nan (neg signalling : Bool) (frac fbits : Nat)
  | inf (neg : Bool)
  | fin (neg : Bool) (m : Nat) (e : Int)
  deriving DecidableEq, Repr

/-- The value of an encoding (04 R97, R98). -/
def unpack (f : FloatFmt) (n : Nat) : FloatVal :=
  let neg := n.testBit (f.ebits + f.fbits)
  let frac := n % 2 ^ f.fbits
  let ex := n / 2 ^ f.fbits % 2 ^ f.ebits
  if f.e4m3 && ex == 15 && frac == 7 then .nan neg false frac f.fbits
  else if !f.e4m3 && ex == 2 ^ f.ebits - 1 then
    if frac == 0 then .inf neg else .nan neg (!frac.testBit (f.fbits - 1)) frac f.fbits
  else if ex == 0 then .fin neg frac f.qmin
  else .fin neg (2 ^ f.fbits + frac) (f.qmin + (ex - 1 : Nat))

/-- The value of a packed half, by the X bit of a packed instruction (04 R113). -/
def halfFmt (x : Bool) : FloatFmt := if x then bf16 else fp16

/-- Negates a value's sign, a NaN's too (04 R102). -/
def FloatVal.negateIf (c : Bool) : FloatVal → FloatVal
  | .nan n s f b => .nan (n != c) s f b
  | .inf n => .inf (n != c)
  | .fin n m e => .fin (n != c) m e

/-- A NaN. -/
def FloatVal.isNaN : FloatVal → Bool
  | .nan .. => true
  | _ => false

/-- A signalling NaN. -/
def FloatVal.isSNaN : FloatVal → Bool
  | .nan _ s _ _ => s
  | _ => false

/-- An infinity. -/
def FloatVal.isInf : FloatVal → Bool
  | .inf _ => true
  | _ => false

/-- A zero. -/
def FloatVal.isZero : FloatVal → Bool
  | .fin _ m _ => m == 0
  | _ => false

/-- The sign. -/
def FloatVal.neg : FloatVal → Bool
  | .nan n _ _ _ => n
  | .inf n => n
  | .fin n _ _ => n

/-! ### Rounding -/

/-- The rounding modes (04 R100). -/
inductive Rounding where
  | rne | rtz | rup | rdn | rna
  deriving DecidableEq, Repr

/-- The mode of a prefix RM or FPCR RMODE code; 0 is RNE (04 R100, R105). -/
def Rounding.ofCode (c : Nat) : Rounding :=
  match c with
  | 2 => .rtz
  | 3 => .rup
  | 4 => .rdn
  | 5 => .rna
  | _ => .rne

/-- Whether a magnitude with quotient parity `odd` and remainder `rem` of `2^k`, k > 0, goes up by one unit. -/
def roundsUp (mode : Rounding) (neg odd : Bool) (rem k : Nat) : Bool :=
  let half := 2 ^ (k - 1)
  match mode with
  | .rne => decide (half < rem) || (rem == half && odd)
  | .rtz => false
  | .rup => !neg && rem != 0
  | .rdn => neg && rem != 0
  | .rna => decide (half ≤ rem)

/-- `m * 2^e` in units of `2^q`, rounded; and whether it was inexact. -/
def roundUnits (mode : Rounding) (neg : Bool) (m : Nat) (e q : Int) : Nat × Bool :=
  if q ≤ e then (m * 2 ^ (e - q).toNat, false)
  else
    let k := (q - e).toNat
    let n := m / 2 ^ k
    let rem := m % 2 ^ k
    (if roundsUp mode neg (n % 2 == 1) rem k then n + 1 else n, rem != 0)

/-- The encoding of the overflowed result of a sign (04 R101). -/
def overflowEnc (f : FloatFmt) (mode : Rounding) (neg : Bool) : Nat :=
  match mode, neg with
  | .rtz, _ => f.maxEnc
  | .rup, true => f.maxEnc
  | .rdn, false => f.maxEnc
  | _, _ => f.infEnc

/-- A result: the encoding and the flags raised. -/
structure FloatRes where
  bits : Nat
  flags : Flags
  deriving DecidableEq, Repr

/-- Rounds the exact finite value into the format: encoding, subnormals, tininess after rounding, overflow, SAT and
NF (04 R100, R101, R103, R108). A zero keeps the sign given. -/
def roundTo (f : FloatFmt) (mode : Rounding) (sat : Bool) (neg : Bool) (m : Nat) (e : Int) : FloatRes :=
  if m == 0 then ⟨f.signBit neg, fNone⟩
  else
    let p := f.fbits + 1
    let qu := e + (m.log2 + 1 : Nat) - p
    let q := max qu f.qmin
    let (n, inexact) := roundUnits mode neg m e q
    let (nu, _) := roundUnits mode neg m e qu
    let tiny := decide (qu < f.qmin) && !(decide (qu + 1 = f.qmin) && nu == 2 ^ p)
    -- n units of 2^q as an encoding: a subnormal is n itself, and a carry into the next binade is absorbed
    let enc := n + (q - f.qmin).toNat * 2 ^ f.fbits
    if f.maxEnc < enc then
      -- under SAT every overflowed result becomes the greatest finite value, and SAT is set, whatever the mode gives (04 R126)
      if sat then ⟨f.signBit neg + f.maxEnc, fOF ||| fNX ||| fSAT⟩
      else
        let o := overflowEnc f mode neg
        ⟨f.signBit neg + o, fOF ||| fNX ||| flagIf (o == f.infEnc) fNF⟩
    else ⟨f.signBit neg + enc, flagIf inexact fNX ||| flagIf (inexact && tiny) fUF⟩

/-- An infinite result, or the greatest finite value under SAT (04 R103, R108). DEDUCED (log entry 130): in E4M3 it is the NaN
of its sign (R120) under DN = 1 too, as is what `roundTo` makes of an overflow. -/
def infResult (f : FloatFmt) (sat neg : Bool) : FloatRes :=
  if sat then ⟨f.signBit neg + f.maxEnc, fSAT⟩ else ⟨f.signBit neg + f.infEnc, fNF⟩

/-- A NaN in the destination format, quiet and with its sign (04 R121). -/
def nanInto (f : FloatFmt) (neg : Bool) (frac fbits : Nat) : Nat :=
  if f.e4m3 then f.signBit neg + 0x7F
  else
    let fr := if f.fbits ≤ fbits then frac / 2 ^ (fbits - f.fbits) else frac * 2 ^ (f.fbits - fbits)
    f.signBit neg + f.infEnc + (fr ||| 2 ^ (f.fbits - 1))

/-- The NaN result of an operation over its sources in their order: the default NaN, or the first NaN (04 R102). -/
def nanResult (f : FloatFmt) (dn : Bool) : List FloatVal → Nat
  | [] => f.defaultNaN
  | .nan neg _ frac fb :: _ => if dn then f.defaultNaN else nanInto f neg frac fb
  | _ :: t => nanResult f dn t

/-- NV when any source signals (04 R102). -/
def snanFlag (vs : List FloatVal) : Flags := flagIf (vs.any FloatVal.isSNaN) fNV

/-! ### Sums of products -/

/-- A signed sum of finite values, exact, over the least exponent: sign and magnitude of the sum. -/
def exactSum (ts : List (Bool × Nat × Int)) : Int × Int :=
  let emin := ts.foldl (fun acc t => min acc t.2.2) (ts.head?.elim 0 (·.2.2))
  let n := ts.foldl (fun (acc : Int) t =>
    let mag : Int := (t.2.1 * 2 ^ (t.2.2 - emin).toNat : Nat)
    if t.1 then acc - mag else acc + mag) 0
  (n, emin)

/-- The sign of an exact zero sum: that of the terms when they are all zeros of one sign, else + but - under RDN
(04 R101). -/
def zeroSign (mode : Rounding) (ts : List (Bool × Nat × Int)) : Bool :=
  if ts.all (fun t => t.2.1 == 0 && t.1) then true
  else if ts.all (fun t => t.2.1 == 0 && !t.1) then false
  else mode == .rdn

/-- The exact product of two values that are not NaNs: none when invalid (0 * ∞). -/
def exactMul : FloatVal → FloatVal → Option FloatVal
  | .fin n1 m1 e1, .fin n2 m2 e2 => some (.fin (n1 != n2) (m1 * m2) (e1 + e2))
  | a, b => if a.isZero || b.isZero then none else some (.inf (a.neg != b.neg))

/-- The sum of exact terms rounded once, with NaN sources `srcs` in their order, products already formed: `none`
among the terms is an invalid product (04 R102, R109, R114). -/
def sumResult (f : FloatFmt) (mode : Rounding) (dn sat : Bool) (srcs : List FloatVal)
    (terms : List (Option FloatVal)) : FloatRes :=
  let bad := terms.any Option.isNone
  let infs := (terms.filterMap id).filter FloatVal.isInf
  let clash := infs.any FloatVal.neg && infs.any (fun v => !v.neg)
  if srcs.any FloatVal.isNaN then
    ⟨nanResult f dn srcs, snanFlag srcs ||| flagIf (bad || clash) fNV ||| fNF⟩
  else if bad || clash then ⟨f.defaultNaN, fNV ||| fNF⟩
  else match infs with
    | v :: _ => infResult f sat v.neg
    | [] =>
      let ts := (terms.filterMap id).filterMap fun
        | .fin n m e => some (n, m, e)
        | _ => none
      let (n, e) := exactSum ts
      if n == 0 then ⟨f.signBit (zeroSign mode ts), fNone⟩
      else roundTo f mode sat (decide (n < 0)) n.natAbs e

/-- The product of two values for `sumResult`; a NaN operand gives a placeholder zero, since NaN sources decide
the result before it is used, but 0 * ∞ beside a NaN addend still counts as invalid (04 R109). -/
def prodTerm (a b : FloatVal) : Option FloatVal :=
  if a.isNaN || b.isNaN then some (.fin false 0 0) else exactMul a b

/-- How an instruction rounds and chooses NaNs: mode, DN, SAT. -/
structure FloatEnv where
  mode : Rounding
  dn : Bool
  sat : Bool
  deriving DecidableEq, Repr

/-- Addition (04 R109). -/
def floatAdd (f : FloatFmt) (v : FloatEnv) (a b : FloatVal) : FloatRes :=
  sumResult f v.mode v.dn v.sat [a, b] [some a, some b]

/-- Multiplication (04 R109): the sign of a zero product is the product's. -/
def floatMul (f : FloatFmt) (v : FloatEnv) (a b : FloatVal) : FloatRes :=
  sumResult f v.mode v.dn v.sat [a, b] [prodTerm a b]

/-- Fused multiply-add (04 R109). -/
def floatFma (f : FloatFmt) (v : FloatEnv) (a b c : FloatVal) : FloatRes :=
  sumResult f v.mode v.dn v.sat [a, b, c] [prodTerm a b, some c]

/-- The two-term dot product into FP32 (04 R114). -/
def floatDot2 (v : FloatEnv) (al bl ah bh c : FloatVal) : FloatRes :=
  sumResult fp32 v.mode v.dn v.sat [al, bl, ah, bh, c] [prodTerm al bl, prodTerm ah bh, some c]

/-! ### Order -/

/-- Compares two values that are not NaNs, with -0 = +0: `lt`, `eq` or `gt`. -/
def floatOrd : FloatVal → FloatVal → Ordering
  | .inf n1, .inf n2 => if n1 == n2 then .eq else if n1 then .lt else .gt
  | .inf n1, _ => if n1 then .lt else .gt
  | _, .inf n2 => if n2 then .gt else .lt
  | .fin n1 m1 e1, .fin n2 m2 e2 =>
    let (d, _) := exactSum [(n1, m1, e1), (!n2, m2, e2)]
    if d == 0 then .eq else if d < 0 then .lt else .gt
  | _, _ => .eq

/-- `a` is below `b`, with -0 below +0 (04 R110). -/
def floatBelow (a b : FloatVal) : Bool :=
  match floatOrd a b with
  | .lt => true
  | .gt => false
  | .eq => a.neg && !b.neg

/-- NF for a result that is not finite. -/
def nonFinite (f : FloatFmt) (n : Nat) : Flags :=
  match unpack f n with
  | .fin .. => fNone
  | _ => fNF

/-- minimumNumber and maximumNumber on FP32 encodings (04 R110). -/
def floatMinMax (dn isMax : Bool) (a b : Nat) : FloatRes :=
  let va := unpack fp32 a
  let vb := unpack fp32 b
  let nv := snanFlag [va, vb]
  let r := if va.isNaN && vb.isNaN then nanResult fp32 dn [va, vb]
    else if va.isNaN then b
    else if vb.isNaN then a
    else if isMax then (if floatBelow va vb then b else a)
    else (if floatBelow vb va then b else a)
  ⟨r, nv ||| nonFinite fp32 r⟩

/-- IEEE minimum and maximum, which pass NaNs on (04 R111). -/
def floatMinMaxNaN (dn isMax : Bool) (a c : Nat) : FloatRes :=
  let va := unpack fp32 a
  let vc := unpack fp32 c
  if va.isNaN || vc.isNaN then ⟨nanResult fp32 dn [va, vc], snanFlag [va, vc] ||| fNF⟩
  else floatMinMax dn isMax a c

/-- The operand of lesser or greater magnitude (04 R111). -/
def floatMinMaxMag (dn isMax : Bool) (a c : Nat) : FloatRes :=
  let va := unpack fp32 a
  let vc := unpack fp32 c
  if va.isNaN || vc.isNaN then floatMinMax dn isMax a c
  else
    match floatOrd (va.negateIf va.neg) (vc.negateIf vc.neg) with
    | .eq => floatMinMax dn isMax a c
    | .lt => let r := if isMax then c else a
             ⟨r, nonFinite fp32 r⟩
    | .gt => let r := if isMax then a else c
             ⟨r, nonFinite fp32 r⟩

/-- The compare of 04 R112: the result under a COND code, and NV. -/
def floatCmp (cond : Nat) (a b : FloatVal) : Bool × Flags :=
  let un := a.isNaN || b.isNaN
  let o := floatOrd a b
  let res := match cond with
    | 0 => !un && o == .eq
    | 1 => un || o != .eq
    | 2 => !un && o == .lt
    | 3 => !un && o != .gt
    | 4 => !un && o == .gt
    | 5 => !un && o != .lt
    | 6 => un
    | _ => !un
  let nv := if cond == 2 || cond == 3 || cond == 4 || cond == 5 then un else a.isSNaN || b.isSNaN
  (res, flagIf nv fNV)

/-! ### Unary functions -/

/-- The integer square root of `n`, bit by bit from bit `k` down. -/
def sqrtBits (n : Nat) : Nat → Nat → Nat
  | 0, r => if (r + 1) * (r + 1) ≤ n then r + 1 else r
  | k + 1, r =>
    let t := r + 2 ^ (k + 1)
    sqrtBits n k (if t * t ≤ n then t else r)

/-- The integer square root. -/
def natSqrt (n : Nat) : Nat := sqrtBits n (n.log2 / 2 + 1) 0

/-- Square root, correctly rounded (04 R115). -/
def floatSqrt (v : FloatEnv) (a : FloatVal) : FloatRes :=
  match a with
  | .nan .. => ⟨nanResult fp32 v.dn [a], snanFlag [a] ||| fNF⟩
  | .inf neg => if neg then ⟨fp32.defaultNaN, fNV ||| fNF⟩ else infResult fp32 false false
  | .fin neg m e =>
    if m == 0 then ⟨fp32.signBit neg, fNone⟩
    else if neg then ⟨fp32.defaultNaN, fNV ||| fNF⟩
    else
      let sh : Nat := if e % 2 == 0 then 60 else 61
      let m' := m * 2 ^ sh
      let r := natSqrt m'
      roundTo fp32 v.mode false false (4 * r + (if r * r == m' then 0 else 1)) ((e - sh) / 2 - 2)

/-- Reciprocal, correctly rounded (04 R115). -/
def floatRcp (v : FloatEnv) (a : FloatVal) : FloatRes :=
  match a with
  | .nan .. => ⟨nanResult fp32 v.dn [a], snanFlag [a] ||| fNF⟩
  | .inf neg => ⟨fp32.signBit neg, fNone⟩
  | .fin neg m e =>
    if m == 0 then ⟨fp32.signBit neg + fp32.infEnc, fDZ ||| fNF⟩
    else
      let q := 2 ^ 80 / m
      roundTo fp32 v.mode false neg (4 * q + (if 2 ^ 80 % m == 0 then 0 else 1)) (-e - 80 - 2)

/-- Rounds to an integral FP32 value (04 R115). -/
def floatRint (v : FloatEnv) (bits : Nat) : FloatRes :=
  match unpack fp32 bits with
  | .nan n s f b => ⟨nanResult fp32 v.dn [.nan n s f b], flagIf s fNV ||| fNF⟩
  | .inf _ => ⟨bits, fNF⟩
  | .fin neg m e =>
    if m == 0 then ⟨bits, fNone⟩
    else
      let (n, _) := roundUnits v.mode neg m e 0
      if 0 ≤ e then ⟨bits, fNone⟩
      else if n == 0 then ⟨fp32.signBit neg, fNone⟩
      else ⟨(roundTo fp32 .rne false neg n 0).bits, fNone⟩

/-- Clamps to [+0, 1] (04 R115). -/
def floatSat01 (bits : Nat) : FloatRes :=
  match unpack fp32 bits with
  | .nan _ s _ _ => ⟨0, flagIf s fNV⟩
  | .inf neg => ⟨if neg then 0 else 0x3F800000, fNone⟩
  | .fin neg m e =>
    if neg || m == 0 then ⟨0, fNone⟩
    else if floatOrd (.fin false m e) (.fin false 1 0) == .gt then ⟨0x3F800000, fNone⟩
    else ⟨bits, fNone⟩

/-- The class bit of a value in a format (04 R118). -/
def floatClass (f : FloatFmt) (n : Nat) : Nat :=
  match unpack f n with
  | .nan _ s _ _ => if s then 2 ^ 8 else 2 ^ 9
  | .inf neg => if neg then 2 ^ 0 else 2 ^ 7
  | .fin neg m _ =>
    if m == 0 then (if neg then 2 ^ 3 else 2 ^ 4)
    else if m < 2 ^ f.fbits then (if neg then 2 ^ 2 else 2 ^ 5)
    else (if neg then 2 ^ 1 else 2 ^ 6)

/-! ### Approximate functions

The exact result is known here to 2^-100 or better in fixed point of 160 bits; any FP32 value within the stated bound
of it may be the device's (04 R116), so the value is the free value `Config.sfuValue` where that one is within the
bound, and the nearest value where it is not. Log entry 5. -/

/-- Fraction bits of the fixed-point numbers below. -/
def sfuP : Nat := 160

/-- ln 2 in units of 2^-160. -/
def ln2Fix : Nat := 0xB17217F7D1CF79ABC9E3B39803F2F6AF40F34326
/-- 2π in units of 2^-160. -/
def twoPiFix : Nat := 0x6487ED5110B4611A62633145C06E0E68948127044
/-- log2 e in units of 2^-160. -/
def log2eFix : Nat := 0x171547652B82FE1777D0FFDA0D23A7D11D6AEF551

/-- A value in units of 2^-160, truncated. -/
def toFix (m : Nat) (e : Int) : Nat :=
  if 0 ≤ e + sfuP then m * 2 ^ (e + sfuP).toNat else m / 2 ^ (-(e + sfuP)).toNat

/-- The sum of `n` terms of the exponential series of x from term k on. -/
def expSeries (x : Nat) : Nat → Nat → Nat → Nat → Nat
  | 0, _, _, acc => acc
  | n + 1, k, t, acc => expSeries x n (k + 1) (t * x / 2 ^ sfuP / (k + 1)) (acc + t)

/-- 2^f for a fraction f in fixed point. -/
def exp2Frac (f : Nat) : Nat := expSeries (f * ln2Fix / 2 ^ sfuP) 50 0 (2 ^ sfuP) 0

/-- The series of sine (k odd) or cosine (k even) from the term `t` of degree k on. -/
def trigSeries (x2 : Nat) : Nat → Nat → Nat → Int → Bool → Int
  | 0, _, _, acc, _ => acc
  | n + 1, k, t, acc, minus =>
    trigSeries x2 n (k + 2) (t * x2 / 2 ^ sfuP / ((k + 1) * (k + 2))) (if minus then acc - t else acc + t) (!minus)

/-- The binary logarithm of y in [1, 2), bit by bit. -/
def log2Bits : Nat → Nat → Nat → Nat
  | 0, _, acc => acc
  | n + 1, y, acc =>
    let y2 := y * y / 2 ^ sfuP
    if 2 ^ (sfuP + 1) ≤ y2 then log2Bits n (y2 / 2) (2 * acc + 1) else log2Bits n y2 (2 * acc)

/-- A value in units of 2^-160 as an exact value. -/
def fixVal (n : Int) : FloatVal := .fin (decide (n < 0)) n.natAbs (-160)

/-- The exact result of function `m` at a finite non-special argument, as a value known to about 2^-100
of itself (rcp, rsqrt, exp2) or absolutely (log2, sin, cos, tanh). -/
def sfuExact (m : Nat) (neg : Bool) (mant : Nat) (e : Int) : FloatVal :=
  match m with
  | 0 => .fin neg (2 ^ 160 / mant) (-e - 160)
  | 1 =>
    let sh : Nat := if e % 2 == 0 then 320 else 321
    .fin false (natSqrt (2 ^ sh / mant)) (if e % 2 == 0 then -160 - e / 2 else (-321 - e) / 2)
  | 2 =>
    if decide (9 ≤ e + (mant.log2 : Nat)) then .fin false 1 (if neg then -600 else 600) else
    let x := toFix mant e
    let fr := x % 2 ^ sfuP
    let n : Int := (x / 2 ^ sfuP : Nat)
    if neg then
      (if fr == 0 then .fin false 1 (-n) else .fin false (exp2Frac (2 ^ sfuP - fr)) (-n - 1 - 160))
    else .fin false (exp2Frac fr) (n - 160)
  | 3 =>
    let k := mant.log2
    let y := mant * 2 ^ (sfuP - k)
    fixVal ((e + (k : Nat)) * ((2 ^ sfuP : Nat) : Int) + (log2Bits 120 y 0 * 2 ^ (sfuP - 120) : Nat))
  | 4 =>
    let x := toFix mant e % 2 ^ sfuP * twoPiFix / 2 ^ sfuP
    let r := trigSeries (x * x / 2 ^ sfuP) 40 1 x 0 false
    fixVal (if neg then -r else r)
  | 5 =>
    let x := toFix mant e % 2 ^ sfuP * twoPiFix / 2 ^ sfuP
    fixVal (trigSeries (x * x / 2 ^ sfuP) 40 0 (2 ^ sfuP) 0 false)
  | _ =>
    let x := toFix mant e
    if 64 * 2 ^ sfuP ≤ x then .fin neg 1 0
    else
      let t := 2 * x * log2eFix / 2 ^ sfuP
      let ex := exp2Frac (t % 2 ^ sfuP) * 2 ^ (t / 2 ^ sfuP)
      .fin neg ((ex - 2 ^ sfuP) * 2 ^ sfuP / (ex + 2 ^ sfuP)) (-160)

/-- The error bound of function `m` at a result x, as m * 2^e: ulps of x, or absolute (04 R116). -/
def sfuBound (m : Nat) (inUnit : Bool) (x : FloatVal) : Nat × Int :=
  let ulp : Int := match x with
    | .fin _ n e => if n == 0 then -149 else max (e + n.log2) (-126) - 23
    | _ => -149
  match m with
  | 0 => (1, ulp)
  | 1 => (2, ulp)
  | 2 => (2, ulp)
  | 3 => if inUnit then (1, -22) else (2, ulp)
  | _ => (1, -21)

/-- Whether value `c` lies within the bound of `x`, the bound widened by 2^-60 of itself for what is not known of x. -/
def withinBound (c x : FloatVal) (b : Nat × Int) : Bool :=
  match c, x with
  | .fin n1 m1 e1, .fin n2 m2 e2 =>
    let (d, de) := exactSum [(n1, m1, e1), (!n2, m2, e2)]
    floatOrd (.fin false d.natAbs de) (.fin false (b.1 * (2 ^ 60 + 1)) (b.2 - 60)) != .gt
  | _, _ => false

/-- The special and exact cases of 04 R116 and R117; none elsewhere. -/
def sfuSpecial (m : Nat) (dn : Bool) (a : FloatVal) : Option FloatRes :=
  let nan : FloatRes := ⟨fp32.defaultNaN, fNV ||| fNF⟩
  let one : FloatRes := ⟨0x3F800000, fNone⟩
  match a with
  | .nan .. => some ⟨nanResult fp32 dn [a], snanFlag [a] ||| fNF⟩
  | .inf neg => some (match m with
    | 0 => ⟨fp32.signBit neg, fNone⟩
    | 1 => if neg then nan else ⟨0, fNone⟩
    | 2 => if neg then ⟨0, fNone⟩ else infResult fp32 false false
    | 3 => if neg then nan else infResult fp32 false false
    | 4 => nan
    | 5 => nan
    | _ => ⟨fp32.signBit neg + 0x3F800000, fNone⟩)
  | .fin neg mant e =>
    if mant == 0 then some (match m with
      | 0 => ⟨fp32.signBit neg + fp32.infEnc, fDZ ||| fNF⟩
      | 1 => ⟨fp32.signBit neg + fp32.infEnc, fDZ ||| fNF⟩
      | 2 => one
      | 3 => ⟨fp32.signBit true + fp32.infEnc, fDZ ||| fNF⟩
      | 4 => ⟨fp32.signBit neg, fNone⟩
      | 5 => one
      | _ => ⟨fp32.signBit neg, fNone⟩)
    else
      let k := mant.log2
      let pow2 := mant == 2 ^ k
      let x : Int := e + k
      match m with
      | 0 => if pow2 then some ⟨(roundTo fp32 .rne false neg 1 (-x)).bits,
               flagIf (decide (128 ≤ -x)) (fOF ||| fNF)⟩ else none
      | 1 => if neg then some nan
             else if pow2 && x % 2 == 0 then some ⟨(roundTo fp32 .rne false false 1 (-x / 2)).bits, fNone⟩ else none
      | 2 =>
        let int := decide (0 ≤ e) || mant % 2 ^ (-e).toNat == 0
        let n := if 0 ≤ e then mant * 2 ^ e.toNat else mant / 2 ^ (-e).toNat
        if !int then (if !neg && decide (8 ≤ x) then some ⟨fp32.infEnc, fOF ||| fNF⟩ else none)
        else if neg then (if n ≤ 149 then some ⟨(roundTo fp32 .rne false false 1 (-(n : Int))).bits, fNone⟩ else none)
        else if n ≤ 127 then some ⟨(roundTo fp32 .rne false false 1 n).bits, fNone⟩
        else some ⟨fp32.infEnc, fOF ||| fNF⟩
      | 3 => if neg then some nan
             else if pow2 then some ⟨(roundTo fp32 .rne false (decide (x < 0)) x.natAbs 0).bits, fNone⟩ else none
      | 4 => if decide (-1 ≤ e) || mant % 2 ^ (-1 - e).toNat == 0 then some ⟨fp32.signBit neg, fNone⟩ else none
      | 5 =>
        if decide (0 ≤ e) || mant % 2 ^ (-e).toNat == 0 then some one
        else if (decide (-2 ≤ e) || mant % 2 ^ (-2 - e).toNat == 0) &&
            (toFix mant e / 2 ^ (sfuP - 2)) % 2 == 1 then some ⟨0, fNone⟩
        else none
      | _ => none

/-- Function `m` of an FP32 encoding: the special and exact cases, else a value within the bound of the exact result;
for exp2 and rcp a result beyond the greatest finite value overflows (04 R116, R117). -/
def sfu (m : Nat) (dn : Bool) (bits : Nat) : FloatRes :=
  let a := unpack fp32 bits
  match sfuSpecial m dn a with
  | some r => r
  | none =>
    match a with
    | .fin neg mant e =>
      let x := sfuExact m neg mant e
      let near := match x with
        | .fin n mm ee => roundTo fp32 .rne false n mm ee
        | _ => ⟨0, fNone⟩
      if near.flags &&& fOF != 0 then ⟨near.bits, fOF ||| fNF⟩
      else
        let inUnit := floatOrd a (.fin false 1 (-1)) != .lt && floatOrd a (.fin false 1 1) != .gt
        let c := (Config.sfuValue m (BitVec.ofNat 32 bits)).toNat
        let ok := withinBound (unpack fp32 c) x (sfuBound m inUnit x)
        ⟨if ok then c else near.bits, fNone⟩
    | _ => ⟨fp32.defaultNaN, fNF⟩

/-! ### SPT8 -/

/-- T(e) of 04 R99. -/
def sptTerm (e : Nat) : Int := if e == 7 then 0 else (64 / 2 ^ e : Nat)

/-- The value of an SPT8 code in units of 1/64 (04 R99). -/
def sptValue (n : Nat) : Int :=
  let t1 := sptTerm (n / 16 % 8)
  let t2 := sptTerm (n % 8)
  (if n.testBit 7 then -t1 else t1) + (if n.testBit 3 then -t2 else t2)

/-- The canonical code of an SPT8 value in units of 1/64 (04 R122): among the codes of the value, +0 is 0x77, ±2 has
both terms 1, a power of two has a zero second term, and any other has |t1| > |t2|, a sum before a difference. -/
def sptCanonical (v : Int) : Option Nat :=
  if v == 0 then some 0x77
  else if v == 128 then some 0x00
  else if v == -128 then some 0x88
  else
    let codes := (List.range 256).filter (fun c => sptValue c == v && decide (c / 16 % 8 < c % 8))
    (codes.find? (fun c => c % 16 == 7)).orElse fun _ =>
      (codes.find? (fun c => c.testBit 7 == c.testBit 3)).orElse fun _ => codes.head?

/-- The SPT8 value nearest to a finite value, in units of 1/64: ties to the lesser magnitude (04 R122). -/
def sptNearest (neg : Bool) (m : Nat) (e : Int) : Int :=
  let dist (v : Int) : FloatVal :=
    let (d, de) := exactSum [(neg, m, e), (decide (0 ≤ v), v.natAbs, -6)]
    .fin false d.natAbs de
  (List.range 256).foldl (fun best c =>
    let v := sptValue c
    match floatOrd (dist v) (dist best) with
    | .lt => v
    | .eq => if v.natAbs < best.natAbs then v else best
    | .gt => best) 0

/-- `fcvt.spt8.f32` (04 R122). -/
def toSpt8 (a : FloatVal) : FloatRes :=
  match a with
  | .nan .. => ⟨0x77, fNV ||| fNF⟩
  | .inf neg => ⟨if neg then 0x88 else 0x00, fSAT ||| fNF⟩
  | .fin neg m e =>
    if floatOrd (.fin false m e) (.fin false 2 0) == .gt then ⟨if neg then 0x88 else 0x00, fSAT ||| fNX⟩
    else
      let v := sptNearest neg m e
      ⟨(sptCanonical v).getD 0x77, flagIf (floatOrd a (.fin (decide (v < 0)) v.natAbs (-6)) != .eq) fNX⟩

/-! ### Conversions -/

/-- The float format of a conversion code (04 R119). -/
def cvtFmt (code : Nat) : FloatFmt :=
  match code with
  | 0 => fp32
  | 1 => fp16
  | 2 => bf16
  | 3 => e4m3
  | _ => e5m2

/-- The pairs of conversion codes that are legal (04 R119), and the X bit. -/
def cvtLegal (dst src : Nat) (x : Bool) : Bool :=
  dst != src && !(dst == 5 && src == 6) && !(dst == 6 && src == 5) &&
  (src != 7 || dst ≤ 2) && (dst != 7 || src == 0) &&
  (!x || dst == 5 || dst == 6 || src == 5 || src == 6)

/-- The exact value of a conversion source (04 R119, R120). -/
def cvtSource (code : Nat) (x : Bool) (n : Nat) : FloatVal :=
  let w := if x then 64 else 32
  match code with
  | 5 => let i := (BitVec.ofNat w n).toInt
         .fin (decide (i < 0)) i.natAbs 0
  | 6 => .fin false (n % 2 ^ w) 0
  | 7 => let v := sptValue (n % 256)
         .fin (decide (v < 0)) v.natAbs (-6)
  | c => unpack (cvtFmt c) (n % 2 ^ (cvtFmt c).width)

/-- A float to an integer of `w` bits (04 R120). -/
def toInteger (mode : Rounding) (signed : Bool) (w : Nat) (a : FloatVal) : FloatRes :=
  let hi : Int := (if signed then (2 ^ (w - 1) - 1 : Nat) else (2 ^ w - 1 : Nat) : Nat)
  let lo : Int := if signed then -((2 ^ (w - 1) : Nat) : Int) else 0
  let enc (i : Int) : Nat := (i % ((2 ^ w : Nat) : Int)).toNat
  match a with
  | .nan .. => ⟨0, fNV ||| fNF⟩
  | .inf neg => ⟨enc (if neg then lo else hi), fNV ||| fNF⟩
  | .fin neg m e =>
    let (n, inexact) := roundUnits mode neg m e 0
    let i : Int := if neg then -(n : Int) else n
    if hi < i then ⟨enc hi, fNV⟩
    else if i < lo then ⟨enc lo, fNV⟩
    else ⟨enc i, flagIf inexact fNX⟩

/-- A value to a float format: a NaN, an infinity, or rounding (04 R120, R121). -/
def toFloat (f : FloatFmt) (v : FloatEnv) (a : FloatVal) : FloatRes :=
  match a with
  | .nan .. => ⟨nanResult f v.dn [a], snanFlag [a] ||| fNF⟩
  | .inf neg => let r := infResult f v.sat neg
                ⟨r.bits, r.flags ||| fNF⟩
  | .fin neg m e => roundTo f v.mode v.sat neg m e

/-- `fcvt`: the conversion of 04 R120 to R122 from the bits of a. -/
def convert (v : FloatEnv) (dst src : Nat) (x : Bool) (n : Nat) : FloatRes :=
  let a := cvtSource src x n
  match dst with
  | 5 => toInteger v.mode true (if x then 64 else 32) a
  | 6 => toInteger v.mode false (if x then 64 else 32) a
  | 7 => toSpt8 a
  | c => toFloat (cvtFmt c) v a

/-! ### Random numbers -/

/-- One Philox round and its key step (04 R124). -/
def philoxRound (k : Nat × Nat) (x : Nat × Nat × Nat × Nat) : (Nat × Nat) × (Nat × Nat × Nat × Nat) :=
  let p0 := 0xD2511F53 * x.1
  let p1 := 0xCD9E8D57 * x.2.2.1
  (((k.1 + 0x9E3779B9) % 2 ^ 32, (k.2 + 0xBB67AE85) % 2 ^ 32),
   ((p1 / 2 ^ 32 ^^^ x.2.1) ^^^ k.1, p1 % 2 ^ 32, (p0 / 2 ^ 32 ^^^ x.2.2.2) ^^^ k.2, p0 % 2 ^ 32))

/-- `n` Philox rounds. -/
def philoxRounds : Nat → (Nat × Nat) → (Nat × Nat × Nat × Nat) → Nat × Nat × Nat × Nat
  | 0, _, x => x
  | n + 1, k, x => let r := philoxRound k x
                   philoxRounds n r.1 r.2

/-- The Philox-4x32-10 block of a seed, a call count and a global fibre id (04 R124), x0 in the low word. -/
def philox (seed n g : Nat) : BitVec 128 :=
  let x := philoxRounds 10 (seed % 2 ^ 32, seed / 2 ^ 32 % 2 ^ 32)
    (n % 2 ^ 32, n / 2 ^ 32 % 2 ^ 32, g % 2 ^ 32, g / 2 ^ 32 % 2 ^ 32)
  BitVec.ofNat 128 (x.1 + x.2.1 * 2 ^ 32 + x.2.2.1 * 2 ^ 64 + x.2.2.2 * 2 ^ 96)

end Sys2Proof.Machine
end

