-- ==== Sys2Proof/Machine/Memory.lean ====
section
/-!
DEFINITION. Named operations over memory: bytes in one canonical form, granule tags (06 R155), poisoned lines
(15 R309); local and cluster memory with its poisoned words (06 R146). An unlisted byte reads 0: memory is cleared
before the device is Ready (20 R408).
-/

namespace Sys2Proof.Machine

open Sys2Proof

/-- The tier of a key, and a key of a tier and physical address (15 R300). -/
def memKey (tier pa : Nat) : Nat := tier * 2 ^ 52 + pa
/-- The tier of a key. -/
def keyTier (k : Nat) : Nat := k / 2 ^ 52
/-- The physical address of a key. -/
def keyPa (k : Nat) : Nat := k % 2 ^ 52

/-- What an unlisted address reads as (20 R408). -/
def unlisted : Byte := 0

/-- The byte at an address. -/
def cellsRead (c : List Host.Cell) (a : Nat) : Byte := (lookupKey a c).getD unlisted

/-- Writes a byte; the value of an unlisted byte is not listed. -/
def cellsWrite (c : List Host.Cell) (a : Nat) (b : Byte) : List Host.Cell :=
  if b = unlisted then dropKey a c else putKey a b c

/-- Bytes from an address up. -/
def cellsReadN (c : List Host.Cell) (a n : Nat) : List Byte := (List.range n).map fun i => cellsRead c (a + i)

/-- Writes bytes from an address up. -/
def cellsWriteN (c : List Host.Cell) (a : Nat) : List Byte → List Host.Cell
  | [] => c
  | b :: t => cellsWriteN (cellsWrite c a b) (a + 1) t

/-- Addresses rise strictly. -/
def risingKeys {α : Type} : List (Nat × α) → Bool
  | [] => true
  | [_] => true
  | x :: y :: t => decide (x.1 < y.1) && risingKeys (y :: t)

/-- The canonical form of a list of cells: rising addresses, and nothing listed that an unlisted byte reads as. -/
def cellsWf (c : List Host.Cell) : Bool := risingKeys c && c.all (fun x => x.2 != unlisted)

/-- Numbers rise strictly. -/
def rising : List Nat → Bool
  | [] => true
  | [_] => true
  | x :: y :: t => decide (x < y) && rising (y :: t)

/-- Memory is in canonical form: its cells, its tags and its poisoned lines. -/
def Memory.wf (m : Memory) : Bool := cellsWf m.cells && rising m.tags && rising m.poison

/-- The byte at a key. -/
def Memory.read (m : Memory) (k : Nat) : Byte := cellsRead m.cells k

/-- `n` bytes from a key up. -/
def Memory.readN (m : Memory) (k n : Nat) : List Byte := cellsReadN m.cells k n

/-- A little-endian number of `n` bytes. -/
def Memory.readNat (m : Memory) (k n : Nat) : Nat := bytesNat (m.readN k n)

/-- Writes one byte, leaving tags and poison. -/
def Memory.put (m : Memory) (k : Nat) (b : Byte) : Memory := { m with cells := cellsWrite m.cells k b }

/-- The granules (16 bytes) that `n` bytes from `k` touch. -/
def granulesOf (k n : Nat) : List Nat := if n = 0 then [] else rangeFrom (k / 16) ((k + n - 1) / 16 - k / 16 + 1)

/-- The lines (128 bytes) that `n` bytes from `k` touch. -/
def linesOf (k n : Nat) : List Nat := if n = 0 then [] else rangeFrom (k / 128) ((k + n - 1) / 128 - k / 128 + 1)

/-- The tag of a granule. -/
def Memory.tag (m : Memory) (k : Nat) : Bool := m.tags.contains (k / 16)

/-- Sets or clears the tag of a granule. -/
def Memory.setTag (m : Memory) (k : Nat) (b : Bool) : Memory :=
  { m with tags := if b then putNat (k / 16) m.tags else dropNat (k / 16) m.tags }

/-! ### Poison

Poison lies on 128-byte lines, and in the eDRAM weight store (TIER 1) on 16-byte granules (15 R307, R309, R311). -/

/-- The bytes of the unit of poison that a key lies in. -/
def poisonSize (k : Nat) : Nat := if keyTier k == 1 then 16 else 128

/-- The unit of poison that a key lies in: the numbers of TIER 1's units lie above those of all other tiers. -/
def poisonUnit (k : Nat) : Nat := k / poisonSize k

/-- The key of a unit's first byte. -/
def unitKey (u : Nat) : Nat := if 2 ^ 48 ≤ u then 16 * u else 128 * u

/-- The units of poison that `n` bytes from a key touch. -/
def unitsOf (k n : Nat) : List Nat :=
  if n = 0 then [] else rangeFrom (poisonUnit k) (poisonUnit (k + n - 1) - poisonUnit k + 1)

/-- Whether the unit of a byte is poisoned. -/
def Memory.poisoned (m : Memory) (k : Nat) : Bool := m.poison.contains (poisonUnit k)

/-- Whether any unit of a range is poisoned. -/
def Memory.poisonedN (m : Memory) (k n : Nat) : Bool := (unitsOf k n).any m.poison.contains

/-- Marks or clears the poison of a byte's unit. -/
def Memory.setPoison (m : Memory) (k : Nat) (b : Bool) : Memory :=
  { m with poison := if b then putNat (poisonUnit k) m.poison else dropNat (poisonUnit k) m.poison }

/-- Poisons every unit of a range. -/
def Memory.spoil (m : Memory) (k n : Nat) : Memory :=
  (unitsOf k n).foldl (fun (m : Memory) u => m.setPoison (unitKey u) true) m

/-- A write of a range ends the poison of the units it covers whole; poisoned data poisons all that it touches (15 R309). -/
def Memory.settle (m : Memory) (k n : Nat) (poison : Bool) : Memory :=
  if poison then m.spoil k n
  else (unitsOf k n).foldl (fun (m : Memory) u =>
    let a := unitKey u
    if k ≤ a && a + poisonSize a ≤ k + n then m.setPoison a false else m) m

/-- An error that cannot be corrected: the unit reads as poisoned, with its tags cleared (15 R307, R311). -/
def Memory.damage (m : Memory) (k : Nat) : Memory :=
  let a := unitKey (poisonUnit k)
  { m.setPoison k true with tags := m.tags.filter (fun g => !(granulesOf a (poisonSize k)).contains g) }

/-- Stores bytes that are not a capability: they clear the tags of the granules they touch (06 R155). -/
def Memory.store (m : Memory) (k : Nat) (bs : List Byte) : Memory :=
  { m with cells := cellsWriteN m.cells k bs,
           tags := m.tags.filter (fun g => !(granulesOf k bs.length).contains g) }

/-- Writes bytes at a home of this device: a line wholly written is clean (15 R309). -/
def Memory.write (m : Memory) (key : Nat) (bs : List Byte) (poison : Bool) : Memory :=
  (m.store key bs).settle key bs.length poison

/-- Stores a number of `n` bytes. -/
def Memory.storeNat (m : Memory) (k n x : Nat) : Memory := m.store k (natBytes n x)

/-- Stores 16 bytes with a tag (06 R155). -/
def Memory.storeCap (m : Memory) (k : Nat) (bs : List Byte) (tag : Bool) : Memory := (m.store k bs).setTag k tag

/-! ### Local and cluster memory -/

/-- Empty local memory: every byte 0 (06 R143, 11 R256). -/
def LocalMem.empty : LocalMem := ⟨[], []⟩

/-- `n` bytes from an address up. -/
def LocalMem.readN (m : LocalMem) (a n : Nat) : List Byte := cellsReadN m.cells a n

/-- The 4-byte words that `n` bytes from `a` touch. -/
def wordsOf (a n : Nat) : List Nat := if n = 0 then [] else rangeFrom (a / 4) ((a + n - 1) / 4 - a / 4 + 1)

/-- Whether any word of a range is poisoned. -/
def LocalMem.poisonedN (m : LocalMem) (a n : Nat) : Bool := (wordsOf a n).any m.poison.contains

/-- Writes bytes; the words the write covers whole lose their poison. -/
def LocalMem.store (m : LocalMem) (a : Nat) (bs : List Byte) : LocalMem :=
  { cells := cellsWriteN m.cells a bs,
    poison := m.poison.filter (fun w => !(decide (a ≤ 4 * w) && decide (4 * w + 4 ≤ a + bs.length))) }

/-- Marks the words of a range poisoned. -/
def LocalMem.markPoison (m : LocalMem) (a n : Nat) : LocalMem :=
  { m with poison := (wordsOf a n).foldl (fun p w => putNat w p) m.poison }

/-- Local memory is in canonical form. -/
def LocalMem.wf (m : LocalMem) : Bool := cellsWf m.cells && rising m.poison

end Sys2Proof.Machine
end

