-- ==== Sys2Proof/Machine/Operands.lean ====
section
/-!
DEFINITION. The operands of every encoded word: which registers a word names, how many each operand takes and whether
it reads or writes them, which prefix fields it uses, its feature, and the legality of its codes. Everything that the
checks of 02 R57 need of a word is said here once.
-/

namespace Sys2Proof.Machine

open Sys2Proof

/-- The part an operand plays in its word. -/
inductive Role where
  | d | a | b | c | x | y
  deriving DecidableEq, Repr

/-- One register operand (01 R14, 02 R36, R37). -/
structure Opnd where
  role : Role
  field : BitVec 7
  count : Nat
  align : Nat
  /-- a source or a destination of the word, for 01 R16 -/
  read : Bool
  write : Bool
  /-- freed after the read (01 R24) -/
  last : Bool
  /-- held against the `.regs` and `.uniform` counts when the word is decoded (01 R15, 02 R55) -/
  bounds : Bool
  /-- read when the word issues, under 01 R22 and R25 -/
  now : Bool
  deriving DecidableEq, Repr

/-- The prefix fields a word uses (02 R45). -/
structure PfxUse where
  mask : Bool := true
  mz : Bool := false
  rm : Bool := false
  c : Bool := false
  na : Bool := false
  nb : Bool := false
  nc : Bool := false
  sat : Bool := false
  deriving DecidableEq, Repr

/-- What the checks need of a word. -/
structure Desc where
  ops : List Opnd := []
  use : PfxUse := { mask := false }
  /-- a uniform destination may have vector sources (01 R16, 05 R131) -/
  uniDst : Bool := false
  /-- the FEAT0 bit that gates the word (00 R8) -/
  feature : Option Nat := none
  /-- the word's codes are assigned and its fixed fields hold their values (02 R37) -/
  legal : Bool := true
  /-- the prefix by itself is legal for this form -/
  pfxLegal : Bool := true
  deriving DecidableEq, Repr

/-- A field that names a uniform register (01 R14). -/
def isUni (f : BitVec 7) : Bool := decide (96 ≤ f.toNat)

/-- The alignment of an operand of `n` registers (02 R37). -/
def alignOf (n : Nat) : Nat := if n == 2 then 2 else if n == 4 then 4 else if n == 8 then 8 else 1

/-- A source. -/
def src (r : Role) (f : BitVec 7) (n : Nat := 1) (last : Bool := false) : Opnd :=
  ⟨r, f, n, alignOf n, true, false, last, true, true⟩
/-- A destination. -/
def dst (r : Role) (f : BitVec 7) (n : Nat := 1) : Opnd := ⟨r, f, n, alignOf n, false, true, false, true, true⟩
/-- A register that is read and then written. -/
def srcDst (r : Role) (f : BitVec 7) (n : Nat := 1) : Opnd := ⟨r, f, n, alignOf n, true, true, false, true, true⟩
/-- A source whose registers have no alignment of their own. -/
def srcRun (r : Role) (f : BitVec 7) (n : Nat) (last : Bool := false) : Opnd := ⟨r, f, n, 1, true, false, last, true, true⟩
/-- A destination run. -/
def dstRun (r : Role) (f : BitVec 7) (n : Nat) : Opnd := ⟨r, f, n, 1, false, true, false, true, true⟩
/-- An operand whose registers are read or written later, when how many they are is known; its first register is held against
the counts with the others (01 R15, R33). -/
def late (r : Role) (f : BitVec 7) (read write : Bool) : Opnd := ⟨r, f, 1, 1, read, write, false, true, false⟩
/-- An extent that is only held against the counts and its alignment. -/
def extent (r : Role) (f : BitVec 7) (n align : Nat) (read write : Bool) : Opnd :=
  ⟨r, f, n, align, read, write, false, true, false⟩

/-- The fourth operand: the prefix's C, or D without a prefix (02 R44). It stands last with a prefix, and first, as
the D field, without one (01 R442). -/
def withC (p : Pfx) (d : BitVec 7) (n : Nat) (ops : List Opnd) : List Opnd :=
  match p with
  | some q => ops ++ [src .c q.c n q.lc]
  | none => src .c d n :: ops

/-- Registers of a 32- or 64-bit operand by its X bit. -/
def xCount (x : Bool) : Nat := if x then 2 else 1

/-- Registers of an access width (02 R41). -/
def widthRegs (w : Nat) : Nat := if w == 5 then 2 else if w == 6 || w == 7 then 4 else 1

/-- Bytes of an access width (02 R41). -/
def widthBytes (w : Nat) : Nat :=
  match w with
  | 0 => 1
  | 1 => 1
  | 2 => 2
  | 3 => 2
  | 4 => 4
  | 5 => 8
  | _ => 16

/-- Only the mask fields of a prefix. -/
def useMask : PfxUse := { mz := true }

/-- An RRR word whose operands all have `n` registers, B having `nb`. -/
def descRRR (f : FmtRRR) (n nb : Nat) (use : PfxUse) (legal : Bool := true) : Desc :=
  { ops := [dst .d f.d n, src .a f.a n f.la, src .b f.b nb f.lb], use := use, legal := legal }

/-- An RM word with one source. -/
def descRM (f : FmtRM) (nd na : Nat) (use : PfxUse) (legal : Bool := true) : Desc :=
  { ops := [dst .d f.d nd, src .a f.a na f.la], use := use, legal := legal }

/-- An RI word with one source. -/
def descRI (f : FmtRI) (n : Nat) (use : PfxUse) (legal : Bool := true) : Desc :=
  { ops := [dst .d f.d n, src .a f.a n f.la], use := use, legal := legal }

/-- A compare of two registers (02 R39). -/
def descCP (f : FmtCP) (n : Nat) (use : PfxUse) : Desc :=
  { ops := [src .a f.a n, src .b f.b n], use := use, legal := decide (f.pc.toNat ≤ 3) }

/-- A floating RRR word with a fourth operand (04 R107). -/
def descFma (p : Pfx) (f : FmtRRR) (legal : Bool) : Desc :=
  { ops := withC p f.d 1 [dst .d f.d, src .a f.a 1 f.la, src .b f.b 1 f.lb],
    use := { mz := true, rm := true, c := true, na := true, nb := true, nc := true, sat := true }, legal := legal }

/-- The word's floating add, subtract and multiply prefix fields (04 R107). -/
def useAddMul : PfxUse := { mz := true, rm := true, na := true, nb := true, sat := true }

/-- `fminmax` (04 R107, R111). -/
def descMinMax (p : Pfx) (f : FmtRM) : Desc :=
  { ops := withC p f.d 1 [dst .d f.d, src .a f.a 1 f.la],
    use := { mz := true, c := true, na := true, nc := true }, legal := !f.x }

/-- The special registers of `movs`: width in registers, fibre scope, writable (03 R72). -/
def specialReg (m : Nat) : Option (Nat × Bool × Bool) :=
  match m with
  | 0x00 => some (1, true, false)
  | 0x01 => some (1, true, false)
  | 0x02 => some (1, false, false)
  | 0x03 => some (1, false, false)
  | 0x04 => some (1, false, false)
  | 0x05 => some (1, false, false)
  | 0x06 => some (1, false, false)
  | 0x07 => some (1, false, false)
  | 0x08 => some (1, false, false)
  | 0x09 => some (1, false, false)
  | 0x0A => some (1, false, false)
  | 0x0B => some (2, true, false)
  | 0x0C => some (2, false, false)
  | 0x0D => some (2, false, false)
  | 0x0E => some (1, true, true)
  | 0x0F => some (1, false, true)
  | 0x10 => some (1, false, false)
  | 0x11 => some (2, false, false)
  | 0x12 => some (1, true, false)
  | 0x13 => some (2, false, false)
  | 0x14 => some (1, false, true)
  | 0x15 => some (2, false, false)
  | 0x16 => some (2, false, false)
  | 0x17 => some (2, false, false)
  | 0x18 => some (2, false, false)
  | _ => none

/-- `movs` (03 R72): a write of fpcr or msr takes a uniform source. -/
def descMovs (f : FmtRM) : Desc :=
  match specialReg f.m.toNat with
  | none => { legal := false }
  | some (n, fibre, rw) =>
    if f.x then
      { ops := [src .a f.a n f.la], legal := rw && f.d == 0 && (f.m == 0x0E || isUni f.a) }
    else { ops := [dst .d f.d n], legal := f.a == 0 && !f.la && !(fibre && isUni f.d) }

/-- A global load or store, or a local one (06 R152, R156, R157). -/
def descMem (f : FmtM) (dOp : Opnd) (cap off : Bool) (use : PfxUse) (legal : Bool := true) : Desc :=
  { ops := [dOp, src .a f.c (if cap then 4 else 1)] ++ (if off then [src .b f.o] else []), use := use, legal := legal }

/-- An atomic or reduction: registers of the datum, whether it returns, and its last legal AOP (06 R161). -/
def descAtom (f : FmtM) (n : Nat) (returns cap : Bool) (maxAop : Nat) : Desc :=
  { ops := [if returns then srcDst .d f.d n else src .d f.d n, src .a f.c (if cap then 4 else 1), src .b f.o],
    use := { mz := returns }, legal := decide (f.w.toNat ≤ maxAop) }

/-- `cas` and exchange (06 R151, R163). -/
def descCas (p : Pfx) (f : FmtM) : Desc :=
  let n := if f.w == 1 || f.w == 3 then 2 else 1
  let ops := [srcDst .d f.d n, src .a f.c 4, src .b f.o]
  if f.w == 0 || f.w == 1 then { ops := withC p f.d n ops, use := { mz := true, c := true } }
  else { ops := ops, use := { mz := true }, legal := decide (f.w.toNat ≤ 3) }

/-- A fence of a scope (06 R164). -/
def descFence (f : FmtF) (xpath : Bool) : Desc :=
  { legal := f.scope != 7 && (!xpath || f.scope == 0), feature := if f.scope == 5 then some 9 else none }

/-- `cctl` with an address (06 R165). -/
def descCctl (f : FmtM) : Desc := { ops := [src .a f.c 4, src .b f.o], legal := f.d == 0 }

/-- `msc`: the parameter words it reads, by offset from s(D), in roles d, x (06 R166). -/
def descMsc (f : FmtM) (params : List (Role × Nat)) (fill : Bool) : Desc :=
  { ops := extent .y f.d 4 4 true false :: params.map (fun p => src p.1 (f.d + BitVec.ofNat 7 p.2)) ++
      [src .a f.c 4, src .b f.o 4],
    legal := isUni f.d && isUni f.c && isUni f.o && (!fill || f.o == f.c), feature := some 7 }

/-- A capability operation (03 R58, R86). -/
def descCap (f : FmtRM) (n : Nat) : Desc := descRM f n 4 useMask (!f.x)

/-- A capability operation with a third source (03 R58, R86). -/
def descCapC (p : Pfx) (f : FmtRM) (n : Nat) : Desc :=
  { ops := withC p f.d n [dst .d f.d 4, src .a f.a 4 f.la], use := { mz := true, c := true }, legal := !f.x }

/-- Elements of a slot from KC (07 R180); 0 when KC is reserved. -/
def softK (w : BitVec 3) : Nat :=
  match (bitsOf w 0 2).toNat with
  | 0 => 1
  | 1 => 2
  | 2 => 4
  | _ => 0

/-- A memory-side soft word: the weight run and the second region are judged per lane (07 R180 to R189). -/
def descSoft (p : Pfx) (f : FmtM) (dOp : Opnd) (runWritten : Bool) (use : PfxUse) (legal pfxLegal : Bool) : Desc :=
  let region2 := match p with
    | some q => if use.c && q.c != f.d then [src .c q.c 4 q.lc] else []
    | none => []
  { ops := [dOp, src .a f.c 4, late .b f.o true runWritten] ++ region2, use := use, feature := some 0,
    legal := legal && softK f.w != 0, pfxLegal := pfxLegal }

/-- A run of `n` registers stays within its half of the fields (07 R181). -/
def runInField (f : BitVec 7) (n : Nat) : Bool :=
  if isUni f then decide (f.toNat + n ≤ 128) else decide (f.toNat + n ≤ 96)

/-- A copy's sides and token (10 R233): `dl` and `sl` say which sides are local. -/
def descCopy (f : FmtE) (dl sl legal : Bool) : Desc :=
  let tok := bitOf f.id 0
  { ops := [extent .y f.a 8 8 true false, ⟨.a, f.a, if dl then 2 else 4, 4, true, false, false, true, true⟩,
            ⟨.c, f.a + 4, if sl then 2 else 4, 4, true, false, false, true, true⟩] ++
           (if tok then [src .b f.b 4] else []),
    legal := legal && bitsOf f.id 1 3 == 0 && isUni f.a && (if tok then isUni f.b else f.b == 0) }

/-- `egkv` over a run of `n` registers (16 R336). -/
def descGather (f : FmtE) (n : Nat) (reads : Nat) : Desc :=
  let tok := bitOf f.id 0
  { ops := [extent .y f.a n n true false, ⟨.a, f.a, reads, 4, true, false, false, true, true⟩] ++
           (if n == 8 then [⟨.c, f.a + 4, 3, 1, true, false, false, true, true⟩] else []) ++
           (if tok then [src .b f.b 4] else []),
    legal := bitsOf f.id 1 3 == 0 && isUni f.a && (if tok then isUni f.b else f.b == 0), feature := some 2 }

/-- A matrix product's extents in a group of width `w` (09 R214 to R219). -/
def descProduct (f : FmtMX) (nd na : Nat) (feature : Option Nat) (legal : Bool) : Desc :=
  { ops := [extent .d f.d nd 1 true true, extent .a f.a na 1 true false], feature := feature,
    legal := legal && !isUni f.d && !isUni f.a && decide (f.d.toNat + nd ≤ 96) && decide (f.a.toNat + na ≤ 96) }

/-- Registers of kept values and of their index nibbles in a sparse operand (09 R218). -/
def sparseRegs (pt af : Nat) : Nat × Nat :=
  let half := af == 0 || af == 1
  if pt == 1 then (8, if half then 2 else 4) else (16, if half then 4 else 8)

/-- The description of a word in a group of width `w`; events have none. DEDUCED (log entry 123): LA is a field that a form
whose A names no register does not use, so it must be 0 there. -/
def describe (w : Nat) (i : Instr) : Desc :=
  match i with
  -- 03: two-source integer words
  | .add _ f => descRRR f (xCount f.x) (xCount f.x) { mz := true, sat := true }
  | .sub _ f => descRRR f (xCount f.x) (xCount f.x) { mz := true, sat := true }
  | .mul _ f => descRRR f (xCount f.x) (xCount f.x) useMask
  | .mulh _ f => descRRR f 1 1 useMask
  | .and_ _ f => descRRR f (xCount f.x) (xCount f.x) useMask
  | .or_ _ f => descRRR f (xCount f.x) (xCount f.x) useMask
  | .xor_ _ f => descRRR f (xCount f.x) (xCount f.x) useMask
  | .andn _ f => descRRR f (xCount f.x) (xCount f.x) useMask
  | .shl _ f => descRRR f (xCount f.x) 1 useMask
  | .shr _ f => descRRR f 1 1 useMask
  | .rot _ f => descRRR f (xCount f.x) 1 useMask
  | .min _ f => descRRR f 1 1 useMask
  | .max _ f => descRRR f 1 1 useMask
  | .movc _ f => descRRR f 1 1 useMask
  | .bfx _ f => descRRR f 1 1 useMask
  | .bfi _ f =>
    { ops := [srcDst .d f.d, src .a f.a 1 f.la, src .b f.b 1 f.lb], use := useMask, legal := !f.x }
  -- unary integer words
  | .neg _ f => descRM f (xCount f.x) (xCount f.x) { mz := true, sat := true }
  | .not_ _ f => descRM f (xCount f.x) (xCount f.x) useMask
  | .abs _ f => descRM f (xCount f.x) (xCount f.x) { mz := true, sat := true }
  | .popc _ f => descRM f 1 (xCount f.x) useMask
  | .clz _ f => descRM f 1 (xCount f.x) useMask
  | .ctz _ f => descRM f 1 (xCount f.x) useMask
  | .brev _ f => descRM f (xCount f.x) (xCount f.x) useMask
  | .bswap _ f => descRM f (xCount f.x) (xCount f.x) useMask
  | .sext8 _ f => descRM f 1 1 useMask (!f.x)
  | .sext16 _ f => descRM f 1 1 useMask (!f.x)
  | .zext8 _ f => descRM f 1 1 useMask (!f.x)
  | .zext16 _ f => descRM f 1 1 useMask (!f.x)
  | .mov _ f => descRM f (xCount f.x) (xCount f.x) useMask
  | .pget _ f => { ops := [dst .d f.d], use := useMask, legal := !f.x && f.a == 0 && !f.la && !isUni f.d }
  | .pput _ f => { ops := [src .a f.a 1 f.la], use := useMask, legal := !f.x && f.d == 0 }
  | .sext32 _ f => descRM f 2 1 useMask f.x
  | .zext32 _ f => descRM f 2 1 useMask f.x
  | .cmpI32 _ f => descCP f 1 useMask
  | .cmpUi32 _ f => descCP f 1 useMask
  | .cmpI64 _ f => descCP f 2 useMask
  | .cmpUi64 _ f => descCP f 2 useMask
  | .addi _ f => descRI f 1 { mz := true, sat := true }
  | .andi _ f => descRI f 1 useMask
  | .ori _ f => descRI f 1 useMask
  | .xori _ f => descRI f 1 useMask
  | .shi _ f => descRI f (xCount (bitOf f.imm 8)) useMask (bitOf f.imm 8 || !bitOf f.imm 5)
  | .cmpi _ f => { ops := [src .a f.a], use := useMask, legal := decide (f.pc.toNat ≤ 3) }
  | .li _ f => { ops := [dst .d f.d], use := useMask }
  | .lui _ f => { ops := [srcDst .d f.d], use := useMask }
  | .mad p f =>
    { ops := withC p f.d (xCount f.x) [dst .d f.d (xCount f.x), src .a f.a 1 f.la, src .b f.b 1 f.lb],
      use := { mz := true, c := true } }
  | .movs f => descMovs f
  -- 04: floating-point words
  | .fadd _ f => descRRR f 1 1 useAddMul (!f.x)
  | .fsub _ f => descRRR f 1 1 useAddMul (!f.x)
  | .fmul _ f => descRRR f 1 1 useAddMul (!f.x)
  | .ffma p f => descFma p f (!f.x)
  | .fmin _ f => descRRR f 1 1 { mz := true, na := true, nb := true }
  | .fmax _ f => descRRR f 1 1 { mz := true, na := true, nb := true }
  | .fcmp _ f => descCP f 1 { mz := true, na := true, nb := true }
  | .hadd2 _ f => descRRR f 1 1 useAddMul
  | .hmul2 _ f => descRRR f 1 1 useAddMul
  | .hfma2 p f => descFma p f true
  | .fcvt _ f =>
    let dc := (bitsOf f.m 4 3).toNat
    let sc := (bitsOf f.m 1 3).toNat
    { ops := [dst .d f.d (if f.x && (dc == 5 || dc == 6) then 2 else 1),
              src .a f.a (if f.x && (sc == 5 || sc == 6) then 2 else 1) f.la],
      use := { mz := true, rm := dc != 7, sat := dc != 5 && dc != 6 && dc != 7 },
      legal := bitsOf f.m 0 1 == 0 && cvtLegal dc sc f.x }
  | .fabs _ f => descRM f 1 1 useMask (!f.x)
  | .fneg _ f => descRM f 1 1 useMask (!f.x)
  | .fsqrt _ f => descRM f 1 1 { mz := true, rm := true } (!f.x)
  | .frint _ f => descRM f 1 1 { mz := true, rm := true } (!f.x)
  | .frcp _ f => descRM f 1 1 { mz := true, rm := true } (!f.x)
  | .fsat _ f => descRM f 1 1 useMask (!f.x)
  | .sfuRcp _ f => descRM f 1 1 useMask (!f.x)
  | .sfuRsqrt _ f => descRM f 1 1 useMask (!f.x)
  | .sfuExp2 _ f => descRM f 1 1 useMask (!f.x)
  | .sfuLog2 _ f => descRM f 1 1 useMask (!f.x)
  | .sfuSin _ f => descRM f 1 1 useMask (!f.x)
  | .sfuCos _ f => descRM f 1 1 useMask (!f.x)
  | .sfuTanh _ f => descRM f 1 1 useMask (!f.x)
  | .fclass _ f => descRM f 1 1 useMask (!f.x && decide (f.m.toNat ≤ 4))
  | .dot2 p f => descFma p f true
  | .fminNan p f => descMinMax p f
  | .fmaxNan p f => descMinMax p f
  | .fminmag p f => descMinMax p f
  | .fmaxmag p f => descMinMax p f
  | .rand _ f =>
    let n := match f.m.toNat with
      | 1 => 2
      | 2 => 4
      | _ => 1
    { ops := [dst .d f.d n], use := useMask,
      legal := !f.x && f.a == 0 && !f.la && !isUni f.d && decide (f.m.toNat ≤ 3) }
  -- 03: control and system words
  | .bra _ => {}
  | .call f => { ops := [dst .d f.d], legal := !isUni f.d }
  | .jr f => { ops := [src .a f.a 1 f.la], legal := f.d == 0 }
  | .fork f => { legal := !f.n }
  | .endF f => { legal := f.scope == 0 && f.kind == 0 }
  | .yield f => { legal := f.scope == 0 && f.kind == 0 }
  | .win f =>
    { legal := f.d == 0 && bitsOf f.imm 10 7 == 0 && (bitOf f.imm 9 || decide ((bitsOf f.imm 5 3).toNat ≤ 4)) &&
        (bitOf f.imm 8 || decide ((bitsOf f.imm 0 5).toNat ≤ 26)) }
  | .trap f => { legal := f.d == 0 }
  | .svc f =>
    let args := if f.imm == 1 then [src .d f.d 4] else if f.imm == 2 then [src .d f.d] else []
    { ops := extent .y f.d 4 4 true true :: args, legal := isUni f.d }
  | .rtt f => { legal := f.d == 0 && f.a == 0 && f.m == 0 && !f.la }
  | .rttSkip f => { legal := f.d == 0 && f.a == 0 && f.m == 0 && !f.la }
  | .pset f =>
    { legal := bitsOf f.a 4 3 == 0 && bitsOf f.b 4 3 == 0 && decide (f.pc.toNat ≤ 3) && f.cond != 7 &&
        (f.cond != 4 || f.b == 0) && ((f.cond != 5 && f.cond != 6) || (f.a == 0 && f.b == 0)) }
  | .cvdeclLive f => { legal := f.d == 0 && f.a == 0 && bitsOf f.m 3 4 == 0 && !f.la }
  | .cvdeclSet f => { legal := f.d == 0 && f.a == 0 && bitsOf f.m 3 4 == 0 && !f.la }
  | .cvsign f => { legal := f.d == 0 && f.a == 0 && bitsOf f.m 3 4 == 0 && !f.la && !f.x }
  | .nop f => { legal := f.scope == 0 && f.kind == 0 }
  -- 05: cross-lane words
  | .shflIdx _ f => descRRR f 1 1 useMask (!isUni f.d)
  | .shflRel _ f =>
    let mode := (bitsOf f.imm 7 2).toNat
    let g := (bitsOf f.imm 0 3).toNat
    descRI f 1 useMask (!isUni f.d && (mode != 2 || !bitOf f.imm 6) &&
      (mode != 3 || (bitsOf f.imm 3 4 == 0 && decide (1 ≤ g) && decide (g ≤ 6))))
  | .qswpH _ f => descRM f 1 1 useMask (!f.x && !isUni f.d)
  | .qswpV _ f => descRM f 1 1 useMask (!f.x && !isUni f.d)
  | .qswpD _ f => descRM f 1 1 useMask (!f.x && !isUni f.d)
  | .qbc _ f => descRM f 1 1 useMask (!f.x && !isUni f.d)
  | .qddx _ f => descRM f 1 1 { mz := true, rm := true } (!f.x && !isUni f.d)
  | .qddy _ f => descRM f 1 1 { mz := true, rm := true } (!f.x && !isUni f.d)
  | .voteSome _ f => { ops := [dst .d f.d], use := useMask, uniDst := true, legal := bitsOf f.a 4 3 == 0 && !f.la }
  | .voteEvery _ f => { ops := [dst .d f.d], use := useMask, uniDst := true, legal := bitsOf f.a 4 3 == 0 && !f.la }
  | .voteAgree _ f => { ops := [dst .d f.d], use := useMask, uniDst := true, legal := bitsOf f.a 4 3 == 0 && !f.la }
  | .voteMask _ f => { ops := [dst .d f.d 2], use := useMask, uniDst := true, legal := bitsOf f.a 4 3 == 0 && !f.la }
  | .voteCount _ f => { ops := [dst .d f.d], use := useMask, uniDst := true, legal := bitsOf f.a 4 3 == 0 && !f.la }
  | .voteFirst _ f => { ops := [dst .d f.d], use := useMask, uniDst := true, legal := bitsOf f.a 4 3 == 0 && !f.la }
  | .voteLast _ f => { ops := [dst .d f.d], use := useMask, uniDst := true, legal := bitsOf f.a 4 3 == 0 && !f.la }
  | .matchF _ f =>
    descRM f (if f.m == 0 || f.m == 1 then 2 else 1) (if bitOf f.m 0 then 2 else 1) useMask
      (!f.x && !isUni f.d && decide (f.m.toNat ≤ 5))
  | .redg _ f =>
    { descRM f (if f.m == 11 then 2 else 1) (if f.m == 11 then 2 else 1) { mz := !isUni f.d, rm := f.m == 1 }
        (!f.x && decide (f.m.toNat ≤ 11)) with uniDst := true }
  | .scang _ f =>
    descRM f (if f.m == 11 then 2 else 1) (if f.m == 11 then 2 else 1) { mz := true, rm := f.m == 1 }
      (!isUni f.d && decide (f.m.toNat ≤ 11))
  | .bcast _ f =>
    { descRI f 1 { mz := !isUni f.d } (f.imm == 0x1FF || (!bitOf f.imm 8 && decide (f.imm.toNat < 64) && decide (f.imm.toNat < w)))
        with uniDst := true }
  -- 06: memory words
  | .ld _ f => descMem f (dst .d f.d (widthRegs f.w.toNat)) true true useMask
  | .st _ f => descMem f (src .d f.d (widthRegs f.w.toNat)) true true {}
  | .ldi _ f => descMem f (dst .d f.d (widthRegs f.w.toNat)) true false useMask
  | .sti _ f => descMem f (src .d f.d (widthRegs f.w.toNat)) true false {}
  | .ldl _ f => descMem f (dst .d f.d (widthRegs f.w.toNat)) false true useMask (f.w != 7)
  | .stl _ f => descMem f (src .d f.d (widthRegs f.w.toNat)) false true {} (f.w != 7)
  | .ldln _ f =>
    descMem f (dst .d f.d (widthRegs f.w.toNat)) true true useMask
      ((f.w == 4 || f.w == 5 || f.w == 6) && isUni f.c && isUni f.o && !isUni f.d)
  | .atomI32 _ f => descAtom f 1 true true 7
  | .atomI64 _ f => descAtom f 2 true true 5
  | .atomF32 _ f => descAtom f 1 true true 2
  | .redI32 _ f => descAtom f 1 false true 7
  | .redI64 _ f => descAtom f 2 false true 5
  | .redF32 _ f => descAtom f 1 false true 2
  | .atoml _ f => descAtom f 1 true false 7
  | .cas p f => descCas p f
  | .fenceAcq f => descFence f false
  | .fenceRel f => descFence f false
  | .fenceAr f => descFence f false
  | .fenceXpath f => descFence f true
  | .cctlInvl1 f => { legal := f.d == 0 && f.c == 0 && f.o == 0 }
  | .cctlInvline f => descCctl f
  | .cctlInvpt f => { legal := f.d == 0 && f.c == 0 && f.o == 0 }
  | .cctlInvpg f => descCctl f
  | .cctlPfL1 f => descCctl f
  | .cctlPfLlc f => descCctl f
  | .mscFill f => descMsc f [(.d, 0), (.x, 1)] true
  | .mscRdo f => descMsc f [(.d, 0), (.x, 1)] false
  | .mscAxpy f => descMsc f [(.d, 0), (.x, 2)] false
  | .mscCopy f => descMsc f [(.x, 1)] false
  | .pkrSet f => { ops := [src .a f.a 2 f.la], legal := isUni f.a && f.d == 0 && !f.x }
  | .pkrGet f => { ops := [dst .d f.d 2], legal := isUni f.d && f.a == 0 && !f.la && !f.x }
  -- 03: capabilities
  | .capMov _ f => descCap f 4
  | .capGetaddr _ f => descCap f 2
  | .capGetbase _ f => descCap f 2
  | .capGetlen _ f => descCap f 2
  | .capGetrights _ f => descCap f 1
  | .capGettag _ f => descCap f 1
  | .capRestrict p f => descCapC p f 1
  | .capSetaddr p f => descCapC p f 2
  | .capIncaddr p f => descCapC p f 1
  | .capClrtag _ f => descCap f 4
  | .cbnd _ f => { ops := [dst .d f.d 4, src .a f.a 4 f.la, src .b f.b 2 f.lb], use := useMask }
  -- 07: soft memory
  | .sld p f => descSoft p f (dst .d f.d (softK f.w)) false useMask (!bitOf f.w 2) true
  | .sst p f => descSoft p f (src .d f.d (softK f.w)) false { c := true } true true
  | .sldg p f =>
    descSoft p f (src .d f.d (softK f.w)) true { mz := true, c := true } (!bitOf f.w 2 && p.isSome)
      (p.all (fun q => q.c != f.d))
  | .sstg p f =>
    descSoft p f (srcDst .d f.d (softK f.w)) true { mz := true, c := true }
      (p.any (fun q => !bitOf f.w 2 || q.c == f.c)) (p.all (fun q => q.c != f.d))
  | .sshift _ f =>
    { ops := [late .d f.d false true, late .a f.a true false, src .b f.b 4 f.lb],
      use := { mz := true, rm := true }, feature := some 0 }
  | .snorm _ f =>
    let n := (bitsOf f.m 0 6).toNat + 1
    { ops := [dstRun .d f.d n, srcRun .a f.a n f.la], use := { mz := true, rm := true }, feature := some 0,
      legal := !f.x && runInField f.d n && runInField f.a n }
  | .harden _ f =>
    let n := (bitsOf f.m 0 6).toNat + 1
    let nd := if bitOf f.m 6 then n else 1
    { ops := [dstRun .d f.d nd, srcRun .a f.a n f.la], use := useMask, feature := some 0,
      legal := !f.x && runInField f.d nd && runInField f.a n }
  -- 09: the matrix engine
  | .mwl f =>
    { ops := (if f.d == 0 then [] else [src .d f.d 4]) ++ [src .a f.a 2],
      legal := (f.d == 0 || isUni f.d) && isUni f.a && f.cv == 0 && f.af == 0 && !f.ru && f.pt == 0 }
  | .mma f => descProduct f w (if f.pt == 1 then 32 else 16) none (decide (f.pt.toNat ≤ 1) && !(f.pt == 1 && f.ar))
  | .mmaS f =>
    let r := sparseRegs f.pt.toNat f.af.toNat
    descProduct f w (r.1 + r.2) (some 3) (decide (f.pt.toNat ≤ 2))
  | .mmaD f => descProduct f (2 * w) 32 (some 4) (!f.ru && f.pt == 0)
  | .mswap f => { legal := f.d == 0 && f.a == 0 && f.cv == 0 && f.af == 0 && !f.ru && f.pt == 0 }
  | .mscl f =>
    { ops := [extent .a f.a 1 1 true false], legal := f.d == 0 && !isUni f.a && f.af == 0 && !f.ru && f.pt == 0 }
  -- 10, 11, 16: engines, barriers, reductions, queues
  | .forke f =>
    { ops := [src .a f.a, src .b f.b 4],
      legal := isUni f.a && isUni f.b && (f.cls == 1 || f.cls == 2 || f.cls == 4) }
  | .rdv f => { ops := [dst .a f.a], legal := isUni f.a && f.b == 0 }
  | .rdvTest f => { ops := [dst .a f.a], legal := isUni f.a && f.b == 0 }
  | .bar f =>
    { ops := if bitOf f.cls 2 then [src .a f.a] else [], legal := f.b == 0 && (if bitOf f.cls 2 then isUni f.a else f.a == 0),
      feature := if bitOf f.cls 1 then some 1 else none }
  | .baroInit f => { ops := [src .a f.a, src .b f.b], legal := isUni f.a && isUni f.b && f.id == 0 }
  | .baroArrive f => { ops := [src .a f.a, dst .b f.b], legal := isUni f.a && isUni f.b && bitsOf f.id 1 3 == 0 }
  | .baroWait f => { ops := [src .a f.a, src .b f.b], legal := isUni f.a && isUni f.b && f.id == 0 }
  | .baroAw f => { ops := [src .a f.a], legal := isUni f.a && f.b == 0 && bitsOf f.id 1 3 == 0 }
  | .tbar f =>
    { legal := !bitOf f.cls 2 && f.a == 0 && f.b == 0, feature := if bitOf f.cls 1 then some 1 else none }
  | .cqPush f => { ops := [src .a f.a], legal := !isUni f.a && f.b == 0 }
  | .cqPop f => { ops := [dst .a f.a, dst .b f.b], legal := !isUni f.a && isUni f.b && f.id == 0 }
  | .cqReset f => { legal := f.id == 0 && f.a == 0 && f.b == 0 }
  | .cqCount f => { ops := [dst .b f.b], legal := isUni f.b && f.id == 0 && f.a == 0 }
  | .credInit f => { ops := [src .a f.a], legal := isUni f.a && f.b == 0 }
  | .credTri f =>
    { ops := [⟨.a, f.a, 3, 4, true, false, false, true, true⟩, src .b f.b], legal := isUni f.a && !isUni f.b }
  | .credSum f =>
    { ops := [⟨.a, f.a, 3, 4, true, false, false, true, true⟩, src .b f.b], legal := isUni f.a && !isUni f.b }
  | .credGet f => { ops := [dst .a f.a 4, dst .b f.b], legal := isUni f.a && !isUni f.b }
  | .lnch f => { ops := [src .a f.a 4, dst .b f.b], legal := isUni f.a && isUni f.b && decide (f.cls.toNat ≤ 3) }
  | .seqend f =>
    { ops := [src .a f.a 4, dst .b f.b], legal := isUni f.a && isUni f.b && f.cls == 0 && f.id == 0, feature := some 2 }
  | .waitc f => { legal := f.a == 0 && f.id == 0 && decide (f.cls.toNat ≤ 5) && decide (f.b.toNat ≤ 63) }
  | .waitt f =>
    { ops := [src .a f.a 4, ⟨.b, f.b, 3, 4, true, false, false, true, true⟩], legal := isUni f.a && isUni f.b && f.cls == 0 }
  | .cpa f => descCopy f (bitOf f.cls 0) (bitOf f.cls 1) (decide (f.cls.toNat ≤ 3))
  | .ecopy f => descCopy f (bitOf f.cls 0) (bitOf f.cls 1) (decide (f.cls.toNat ≤ 3))
  | .emcast f => descCopy f true (bitOf f.cls 0) (decide (f.cls.toNat ≤ 1))
  | .egkvLd f => descGather f 8 4
  | .egkvLdx f => descGather f 8 4
  | .egkvSt f => descGather f 8 4
  | .egkvPurge f => descGather f 4 4
  | .emerge f =>
    let tok := bitOf f.id 0
    { ops := [extent .y f.a 8 8 true true, ⟨.a, f.a, 6, 1, true, false, false, true, true⟩] ++
             (if tok then [src .b f.b 4] else []),
      legal := bitsOf f.id 2 2 == 0 && decide (f.cls.toNat ≤ 1) && isUni f.a && (if tok then isUni f.b else f.b == 0) }
  | .esig f => { ops := [src .a f.a 4, src .b f.b], legal := isUni f.a && isUni f.b && f.cls == 0 && f.id == 0 }
  | _ => {}

/-- Every register operand is uniform, and there is one: the word executes once for the group (01 R16). -/
def Desc.once (d : Desc) : Bool := !d.ops.isEmpty && d.ops.all (fun o => isUni o.field)

/-- The prefix holds a non-reset value only in fields the word uses, and no mask on a word that executes once
(02 R45). DESIGN CHOICE (log entry 142): a C that is no multiple of its pair's or quad's size is judged here, with the prefix that
holds it, though 02 R57 names alignment in check 4 and gives no order inside that check. -/
def Desc.pfxOk (d : Desc) (p : Pfx) : Bool :=
  match p with
  | none => true
  | some q =>
    let masked := q.pr != 15 || q.pn || q.mz
    (d.use.mask || !(q.pr != 15 || q.pn)) && (d.use.mz || !q.mz) && (d.use.rm || q.rm == 0) &&
    (d.use.c || (q.c == 0 && !q.lc)) && (d.use.na || !q.na) && (d.use.nb || !q.nb) && (d.use.nc || !q.nc) &&
    (d.use.sat || !q.sat) && !(d.once && masked) && d.pfxLegal &&
    d.ops.all (fun o => o.role != .c || o.field.toNat % o.align == 0)

/-- Pairs, quads and runs of eight are aligned (02 R37). -/
def Desc.aligned (d : Desc) : Bool := d.ops.all (fun o => o.field.toNat % o.align == 0)

/-- No uniform destination with a vector source, but where the word allows it (01 R16). -/
def Desc.mixOk (d : Desc) : Bool :=
  d.uniDst || !(d.ops.any (fun o => o.write && isUni o.field) && d.ops.any (fun o => o.read && !isUni o.field))

/-- The operand in a role; the first that is read or written with the word. -/
def Desc.opnd? (d : Desc) (r : Role) : Option Opnd := d.ops.find? (fun o => o.role == r && o.now)

end Sys2Proof.Machine
end

