-- ==== Sys2Proof/Machine/Slices.lean ====
section
/-!
DEFINITION. The slices of a core's matrix arrays (09 R201, R202, R210): their latches, scales, and the order in which
operations on them take effect.
-/

namespace Sys2Proof.Machine

open Sys2Proof

/-- The scale 1.0. -/
def unitScale : Reg := ⟨0x3F800000, false⟩

/-- A slice whose latches are empty and whose scales are 1.0 (09 R202). -/
def Slice.empty (arr base w : Nat) : Slice :=
  { arr := arr, base := base, width := w, cur := none, shadow := none, scales := List.replicate w unitScale, order := [] }

/-- A slice of a core. -/
def Core.slice (c : Core) (arr base w : Nat) : Slice :=
  (c.slices.find? fun y => y.arr == arr && y.base == base && y.width == w).getD (Slice.empty arr base w)

/-- Puts a slice. -/
def Core.setSlice (c : Core) (y : Slice) : Core :=
  { c with slices := (c.slices.filter fun z => !(z.arr == y.arr && z.base == y.base && z.width == y.width)) ++ [y] }

/-- The first column of a group's slice. -/
def Group.column (g : Group) : Nat := g.pos * g.w

/-- What stands at the head of the order and waits for nothing takes effect: exchanges of latches, and scales. -/
def settleOrder : List SliceOp → Slice → Slice
  | .mswap _ :: t, y => settleOrder t { y with cur := y.shadow, shadow := y.cur, order := t }
  | .mscl vals :: t, y =>
    settleOrder t { y with scales := vals.foldl (fun sc v => sc.set v.1 v.2) y.scales, order := t }
  | _, y => y

/-- Settles a slice. -/
def Slice.settle (y : Slice) : Slice := settleOrder y.order y

/-- Takes operations out of a slice's order; what waited behind them takes effect. -/
def Slice.without (y : Slice) (gone : SliceOp → Bool) : Slice :=
  ({ y with order := y.order.filter fun o => !gone o } : Slice).settle

/-- The product of a convergence register of a group. -/
def SliceOp.isProduct (o : SliceOp) (k : GKey) (n : Nat) : Bool := o == .product k n

/-- A product of a group. -/
def SliceOp.ofGroup (o : SliceOp) (k : GKey) : Bool :=
  match o with
  | .product g _ => g == k
  | _ => false

/-- The arrays whose slices a matrix operation that signs uses (09 R216, R221). -/
def productArrays (i : Instr) : List Nat :=
  match i with
  | .mma f => if f.pt == 1 then [0, 1] else [if f.ar then 1 else 0]
  | .mmaS f => [if f.ar then 1 else 0]
  | .mmaD f => [if f.ar then 1 else 0]
  | .mscl f => [if f.ar then 1 else 0]
  | _ => []

end Sys2Proof.Machine
end

