-- ==== Sys2Proof/Machine/Base.lean ====
section
/-!
DEFINITION. Looking up and changing the parts of the state; error records (19 R397 to R399); the dependence graph's
completion and failure (18 R357 to R359); and the end of a launch's residence, shared by abort and replay.
-/

namespace Sys2Proof.Machine

open Sys2Proof

/-! ### Numbers of cores, clusters, dies -/

/-- The die of a core (00 R1). -/
def dieOfCore (c : Nat) : Nat := c / 64
/-- The cluster, counted over the package, of a core. -/
def clusterOfCore (c : Nat) : Nat := c / 4

/-- Cycles in a microsecond (00 R1: 1.9 GHz). -/
def usCycles : Nat := 1900

/-! ### Parts of the state -/

/-- A core with nothing in it. -/
def Core.empty (id : Nat) : Core :=
  { id := id, hold := [], l1 := [], log := [], stores := [], reads := [], rows := [], slices := [],
    matrixUsers := [], matrixFor := [], sliceUses := [], slotsUsed := [], btb := [], ckpts := [], record := [], undo := [],
    left := [], chosen := [] }

/-- The core of a number. -/
def State.core (s : State) (c : Nat) : Core := (s.cores.find? (fun x => x.id == c)).getD (Core.empty c)

/-- Puts a core. -/
def State.setCore (s : State) (c : Core) : State :=
  if s.cores.any (fun x => x.id == c.id) then { s with cores := s.cores.map fun x => if x.id == c.id then c else x }
  else { s with cores := s.cores ++ [c] }

/-- Changes a core. -/
def State.modCore (s : State) (c : Nat) (f : Core → Core) : State := s.setCore (f (s.core c))

/-- The die of a number. -/
def State.die (s : State) (d : Nat) : Die := s.dies[d]?.getD Die.reset

/-- Changes a die. -/
def State.modDie (s : State) (d : Nat) (f : Die → Die) : State := { s with dies := s.dies.modify d f }

/-- A resident group. -/
def State.group? (s : State) (k : GKey) : Option Group := s.groups.find? (fun g => g.key == k)

/-- The free values go on: none that was drawn is drawn again. -/
def State.drawn (s : State) : State := { s with free := s.free + 1 }

/-- Puts a resident group back. -/
def State.setGroup (s : State) (g : Group) : State :=
  { s with groups := s.groups.map fun x => if x.key == g.key then g else x }

/-- Changes a resident group. -/
def State.modGroup (s : State) (k : GKey) (f : Group → Group) : State :=
  { s with groups := s.groups.map fun x => if x.key == k then f x else x }

/-- An engine program. -/
def State.engine? (s : State) (id : Nat) : Option Engine := s.engines.find? (fun e => e.id == id)

/-- Changes an engine program. -/
def State.modEngine (s : State) (id : Nat) (f : Engine → Engine) : State :=
  { s with engines := s.engines.map fun x => if x.id == id then f x else x }

/-- A resident block. -/
def State.block? (s : State) (launch index : Nat) : Option Block :=
  s.blocks.find? (fun b => b.launch == launch && b.index == index)

/-- Changes a resident block. -/
def State.modBlock (s : State) (launch index : Nat) (f : Block → Block) : State :=
  { s with blocks := s.blocks.map fun b => if b.launch == launch && b.index == index then f b else b }

/-- A resident band. -/
def State.band? (s : State) (launch index : Nat) : Option Band :=
  s.bands.find? (fun b => b.launch == launch && b.index == index)

/-- Changes a resident band. -/
def State.modBand (s : State) (launch index : Nat) (f : Band → Band) : State :=
  { s with bands := s.bands.map fun b => if b.launch == launch && b.index == index then f b else b }

/-- A launch. -/
def State.launch? (s : State) (id : Nat) : Option Launch := s.cp.launches.find? (fun l => l.id == id)

/-- Changes the command processor. -/
def State.modCp (s : State) (f : CmdProc → CmdProc) : State := { s with cp := f s.cp }

/-- Changes the device registers. -/
def State.modDev (s : State) (f : DevRegs → DevRegs) : State := { s with dev := f s.dev }

/-- Changes a launch. -/
def State.modLaunch (s : State) (id : Nat) (f : Launch → Launch) : State :=
  s.modCp fun c => { c with launches := c.launches.map fun l => if l.id == id then f l else l }

/-- A context. -/
def State.ctx? (s : State) (n : Nat) : Option Context := s.cp.ctxs.find? (fun c => c.num == n)

/-- A node of the graph. -/
def State.node? (s : State) (k : NKey) : Option Node := s.cp.nodes.find? (fun n => n.key == k)

/-- Changes a node. -/
def State.modNode (s : State) (k : NKey) (f : Node → Node) : State :=
  s.modCp fun c => { c with nodes := c.nodes.map fun n => if n.key == k then f n else n }

/-- A queue's registers; a queue never written has its reset values (18 R351). -/
def State.queue (s : State) (n : Nat) : Queue :=
  (s.cp.queues.find? (fun q => q.n == n)).getD { n := n, base := 0, cfg := 4 <<< 55, head := 0, tail := 0, owners := [], last := none }

/-- Puts a queue's registers. -/
def State.setQueue (s : State) (q : Queue) : State :=
  s.modCp fun c =>
    if c.queues.any (fun x => x.n == q.n) then { c with queues := c.queues.map fun x => if x.n == q.n then q else x }
    else { c with queues := c.queues ++ [q] }

/-- A fresh number. -/
def State.fresh (s : State) : Nat × State := (s.nextId, { s with nextId := s.nextId + 1 })

/-- Whether the driver has accepted a feature of FEAT0 (00 R8, 20 R410). -/
def State.accepted (s : State) (bit : Nat) : Bool :=
  bitOf Config.feat0 bit && bitOf (s.dev.facc[0]?.getD 0) bit

/-! ### Error records -/

/-- A record with nothing but its event (19 R398). -/
def ErrRec.blank (evt : Nat) : ErrRec :=
  { evt := evt, struct := 0, die := 0, cluster := 0xFF, core := 0xFF, flags := 0, index := 0, time := 0,
    launch := 0, ctx := 0, addr := 0 }

/-- The 32 bytes of a record (19 R398). -/
def ErrRec.bytes (r : ErrRec) : List Byte :=
  natBytes 1 r.evt ++ natBytes 1 r.struct ++ natBytes 1 r.die ++ natBytes 1 r.cluster ++ natBytes 1 r.core ++
  natBytes 1 r.flags ++ natBytes 2 r.index ++ natBytes 8 r.time ++ natBytes 4 r.launch ++ natBytes 4 r.ctx ++
  natBytes 8 r.addr

/-- EQBASE.EN is 1 and the ring of 1,024 records has room (19 R397). -/
def Die.ringOpen (d : Die) : Bool := bitOf d.eqbase 0 && decide ((d.eqtail - d.eqhead).toNat < 1024)

/-- Writes a record into a die's ring and then advances TAIL (19 R397). -/
def State.ringWrite (s : State) (die : Nat) (r : ErrRec) : State :=
  let d := s.die die
  let pa := (bitsOf d.eqbase 15 37).toNat * 2 ^ 15 + 32 * (d.eqtail.toNat % 1024)
  { s with mem := s.mem.store (memKey 0 pa) r.bytes }.modDie die fun d => { d with eqtail := d.eqtail + 1 }

/-- Records an event in a die's error queue: a replay or abort record waits when it cannot be written, another is
then dropped and counted (19 R397). -/
def State.logError (s : State) (die : Nat) (r : ErrRec) : State :=
  let d := s.die die
  let r := { r with die := die, time := d.clock }
  if r.evt == 0x08 || r.evt == 0x09 then
    if d.ringOpen && d.held.isEmpty then s.ringWrite die r
    else s.modDie die fun d => { d with held := d.held ++ [r] }
  else if d.ringOpen then s.ringWrite die r
  else s.modDie die fun d => { d with eqlost := d.eqlost + 1 }

/-! ### Self-tests (19 R392, R394) -/

/-- The STRUCT code (19 R398). -/
def structCode (x : Struct) : Nat :=
  match x with
  | .none => 0
  | .regBank => 1
  | .l1Way => 2
  | .localBank => 3
  | .arrayColumn => 4
  | .accPath => 5
  | .ceGe => 6
  | .coreLogic => 7
  | .llcWay => 8
  | .serviceGroup => 9
  | .cru => 10
  | .compactionQueue => 11
  | .ke => 12
  | .memoryPort => 13
  | .hbmRow => 14
  | .hbmChannel => 15
  | .edramRow => 16
  | .checkCache => 17
  | .abarathLane => 18
  | .biliqueLane => 19
  | .treeWire => 20
  | .cmdProcessor => 21
  | .keyStore => 22

/-- The core and the cluster of a test, counted over the package. -/
def testCluster (t : SelfTest) : Nat := 16 * t.die + t.cluster
/-- The core. -/
def testCore (t : SelfTest) : Nat := 4 * testCluster t + t.core

/-- The unit that a structure's spares belong to: an array, a core, a slice, a pseudo-channel, a stack, a bank, the link, a
port (19 R394, 22 R422). A column's INDEX counts the columns of both arrays, a pseudo-channel's those of the die's three
stacks; a row's INDEX names its pseudo-channel or bank, a Bilique lane's counts the nine lanes of each port. -/
def testUnit (t : SelfTest) : Nat :=
  match t.struct with
  | .regBank => testCore t
  | .l1Way => testCore t
  | .localBank => testCore t
  | .arrayColumn => 2 * testCore t + t.index / 64 % 2
  | .llcWay => testCluster t
  | .hbmRow => 192 * t.die + t.index
  | .hbmChannel => 3 * t.die + t.index / 64
  | .edramRow => 32 * t.die + t.index
  | .biliqueLane => t.index / 9
  | .cru => testCluster t
  | .compactionQueue => testCluster t
  | .ke => testCluster t
  | .serviceGroup => testCluster t
  | _ => 0

/-- How long the test of a structure lasts, in microseconds (19 R392). -/
def testTime (struct : Nat) : Nat :=
  match struct with
  | 1 => 8
  | 2 => 4
  | 3 => 6
  | 4 => 2
  | 8 => 12
  | 10 => 16
  | 11 => 16
  | 12 => 16
  | 14 => 40
  | 16 => 20
  | 18 => 10
  | 19 => 10
  | _ => 0

/-- A structure's test is running. -/
def State.testing (s : State) (struct unit : Nat) : Bool :=
  s.repair.tests.any fun t => t.struct == struct && t.unit == unit &&
    decide ((s.die t.die).clock < t.since + testTime struct * usCycles)

/-- A test of a structure starts (19 R392). -/
def State.startTest (s : State) (struct unit index die : Nat) : State :=
  { s with repair := { s.repair with tests :=
      (s.repair.tests.filter fun t => !(t.struct == struct && t.unit == unit && t.index == index)) ++
        [⟨struct, unit, index, die, (s.die die).clock⟩] } }

/-- The test of a core's local memory is running: the core's local accesses wait (19 R392). -/
def State.localTested (s : State) (core : Nat) : Bool := s.testing 3 core

/-! ### The dependence graph -/

/-- IGNF of a record (18 R354). -/
def Node.ignf (n : Node) : Bool := bitOf n.record 12
/-- OP of a record. -/
def Node.op (n : Node) : Nat := (bitsOf n.record 0 8).toNat
/-- The virtual address of record `i` of a queue (18 R351). -/
def Queue.recordAddr (q : Queue) (i : Word) : Nat :=
  (bitsOf q.base 0 48).toNat + 64 * (i.toNat % 2 ^ (bitsOf q.cfg 55 4).toNat)
/-- PRIO of a queue. -/
def Queue.prio (q : Queue) : Nat := (bitsOf q.cfg 59 3).toNat
/-- CTX of a queue. -/
def Queue.ctx (q : Queue) : Nat := (bitsOf q.cfg 44 11).toNat
/-- LOG2N of a queue. -/
def Queue.log2n (q : Queue) : Nat := (bitsOf q.cfg 55 4).toNat

/-- A predecessor is satisfied: the count falls, and at 0 the node is ready (18 R357). -/
def State.satisfy (s : State) (k : NKey) : State :=
  { (s.modNode k fun n =>
      let c := n.count - 1
      { n with count := c, state := if c == 0 && n.state == .waiting then .ready else n.state, readyNo := s.nextId, readyAt := (s.die 0).clock })
    with nextId := s.nextId + 1 }

/-- Removes a node that fails, and records its failure; it follows no other node any more, and a COPY or MSC of it that runs
stops (18 R357, R359). DESIGN CHOICE (log entry 128): what a command that the driver cancels has not done yet is not done. -/
def State.dropFailed (s : State) (n : Node) : State :=
  let left := (s.cp.nodes.filter fun m => m.key != n.key).map fun m => { m with succs := m.succs.filter (· != n.key) }
  let s : State := { s with
    copies := s.copies.filter fun c => c.owner != .node n.key
    mscs := s.mscs.filter fun m => m.owner != .node n.key }
  (s.modCp fun c => { c with nodes := left }).logError 0
    { ErrRec.blank 0x0A with index := n.key.num, ctx := n.key.ctx, addr := (s.queue n.queue).recordAddr n.index }

/-- Nodes fail, and the failure spreads to successors without IGNF (18 R359); `fuel` bounds the graph's edges. -/
def failNodes : Nat → List NKey → State → State
  | 0, _, s => s
  | _, [], s => s
  | fuel + 1, k :: rest, s =>
    match s.node? k with
    | none => failNodes fuel rest s
    | some n =>
      let s := s.dropFailed n
      let ignoring := n.succs.filter fun m => (s.node? m).any Node.ignf
      let failing := n.succs.filter fun m => (s.node? m).any (fun x => !x.ignf)
      failNodes fuel (failing ++ rest) (ignoring.foldl (fun s m => s.satisfy m) s)

/-- A node fails (18 R359). -/
def State.failNode (s : State) (k : NKey) : State := failNodes (16 * Config.liveNodes) [k] s

/-- A node completes: each successor's count falls, in their order (18 R358). -/
def State.finishNode (s : State) (n : Node) : State :=
  n.succs.foldl (fun s m => s.satisfy m)
    (s.modCp fun c => { c with nodes := c.nodes.filter fun m => m.key != n.key })

/-- Withdraws the commands a launch appended by `lnch`: they fail, and the failure does not spread outside them
(18 R372). -/
def State.withdraw (s : State) (launch : Nat) : State :=
  let s := s.modCp fun c => { c with queues := c.queues.map fun q =>
    { q with owners := q.owners.map fun o => if o.2.1 == launch then (o.1, o.2.1, true) else o } }
  let own := s.cp.nodes.filter fun n => n.by' == some launch
  own.foldl (fun s n =>
    (n.succs.filter fun m => !own.any (fun x => x.key == m)).foldl (fun s m => s.satisfy m) (s.dropFailed n)) s

/-! ### Presence in regions -/

/-- The die of a region; the package counts with die 0. -/
def regionDie (r : Region) : Nat :=
  match r with
  | .core c => dieOfCore c
  | .ke u => u / 16
  | .cluster k => k / 16
  | .uncore d => d
  | .package => 0

/-- The region of an engine program (19 R377). -/
def Engine.region (e : Engine) : Region := if e.seqr.kind == SeqKind.ke then .ke e.seqr.unit else .core e.seqr.unit

/-- A launch's group, engine program or request leaves regions in this cycle (19 R384). -/
def State.noteSeen (s : State) (rs : List Region) (launch : Nat) : State :=
  { s with seen := rs.foldl (fun l r =>
      l.filter (fun e => !(e.region == r && e.launch == launch)) ++ [⟨r, launch, (s.die (regionDie r)).clock⟩]) s.seen }

/-- Launches that left a region since a cycle (19 R384). -/
def State.seenSince (s : State) (r : Region) (cycle : Nat) : List Nat :=
  (s.seen.filter fun e => e.region == r && decide (cycle ≤ e.cycle)).map (·.launch)

/-! ### The end of a launch's residence -/

/-- A request belongs to a launch. -/
def ofLaunch (l : Nat) (k : GKey) : Bool := k.launch == l

/-- A Shadow checkpoint without the groups and engine programs of a launch. -/
def ShadowCkpt.without (k : ShadowCkpt) (l : Nat) : ShadowCkpt :=
  { k with groups := k.groups.filter (fun g => !ofLaunch l g.key), engines := k.engines.filter fun e => !ofLaunch l e.group }

/-- Puts what enters a core from outside into every checkpoint it keeps; one is made for an empty core, whose earlier
checkpoints hold nothing (19 R378). -/
def Core.ckptAll (c : Core) (now : Nat) (f : ShadowCkpt → ShadowCkpt) : Core :=
  { c with ckpts := if c.ckpts.isEmpty then [f ⟨now / 32 * 32, 0, [], [], c.slices, [], [], []⟩] else c.ckpts.map f }

/-- Puts a program that its cluster's KE takes into every checkpoint of the KE. -/
def Core.keCkptAll (c : Core) (now : Nat) (f : ShadowCkpt → ShadowCkpt) : Core :=
  { c with keCkpts := if c.keCkpts.isEmpty then [f ⟨now / 32 * 32, 0, [], [], [], [], [], []⟩] else c.keCkpts.map f }

/-- Stops everything of a launch at once and frees what it holds: groups, engine programs, blocks, bands, rows,
requests that have not left a core, tree wires (19 R390, steps 1 and 3). What has left completes by itself. -/
def State.dropResident (s : State) (l : Nat) : State :=
  let mine := ofLaunch l
  let gone := (s.cores.flatMap fun c => c.hold).filterMap fun r =>
    match r.body with
    | .msc id => if mine r.group then some id else none
    | _ => none
  let lost := (s.mwls.filter fun m => mine m.group).map (·.id)
  let places := (s.groups.filter fun g => mine g.key).flatMap (fun g => [Region.core g.core, .uncore (dieOfCore g.core)]) ++
    (s.engines.filter fun e => mine e.group).flatMap fun e => [e.region, .uncore (regionDie e.region)]
  let s := s.noteSeen places.eraseDups l
  { s with
    groups := s.groups.filter fun g => !mine g.key
    engines := s.engines.filter fun e => !mine e.group
    blocks := s.blocks.filter fun b => b.launch != l
    bands := s.bands.filter fun b => b.launch != l
    replies := s.replies.filter fun r => !mine r.group
    mwls := s.mwls.filter fun m => !mine m.group
    mscs := s.mscs.filter fun m => !gone.contains m.id
    cores := s.cores.map fun c =>
      { c with
        hold := c.hold.filter fun r => !mine r.group
        log := c.log.filter fun e => !mine e.group
        stores := c.stores.filter fun e => !mine e.group
        reads := c.reads.filter fun e => !mine e.group
        rows := c.rows.filter fun r => r.launch != l
        ckpts := c.ckpts.map fun k => k.without l
        keCkpts := c.keCkpts.map fun k => k.without l
        record := c.record.filter fun r => !mine r.group
        left := c.left.filter fun p => !mine p.1
        undo := c.undo.filter fun u => u.launch != l
        slices := if c.matrixUsers == [l] then [] else c.slices.map fun sl =>
          sl.without fun o => match o with
            | .product g _ => mine g
            | .mwl id => lost.contains id
            | .reload id => lost.contains id
            | _ => false
        matrixUsers := c.matrixUsers.filter (· != l)
        matrixFor := c.matrixFor.filter fun q => q.1 != l
        sliceUses := c.sliceUses.filter fun q => !mine q.group }
    cp := { s.cp with wires := s.cp.wires.filter fun w => w.2 != l } }

/-- A launch aborts and reports: it stops, its commands are withdrawn, its node fails, and die 0 records EVT 0x09
(01 R32, 18 R359, 19 R443). -/
def State.abortLaunch (s : State) (l : Nat) (a : AbortRec) : State :=
  match s.launch? l with
  | none => s
  | some lr =>
    let s := (s.dropResident l).withdraw l
    let s := ({ s with seen := s.seen.filter fun e => e.launch != l } : State).modCp fun c =>
      { c with launches := c.launches.filter fun x => x.id != l }
    let s := s.failNode lr.node
    s.logError 0 { ErrRec.blank 0x09 with
      flags := 0x20, index := a.kind * 4096 + a.cause * 256 + a.trap, launch := l, ctx := lr.ctx, addr := a.addr }

/-- A launch becomes non-replayable at the first of the events of 19 R388. -/
def State.markNonReplay (s : State) (l cause : Nat) : State :=
  s.modLaunch l fun x => { x with nonReplay := if x.nonReplay.isSome then x.nonReplay else some cause }

/-- Poison is consumed, or a strike reported late, in a launch: a replayable one is due for its replay, another
aborts (19 R384, R385, R388, R389). -/
def State.replayOrAbort (s : State) (l : Nat) (kind trap addr : Nat) (src : Option Nat) : State :=
  match s.launch? l with
  | none => s
  | some x =>
    if x.replayDue then s else
    let x := if !s.accepted 8 && x.nonReplay.isNone then { x with nonReplay := some 1 }
      else if decide (3 ≤ x.attempt) && x.nonReplay.isNone then { x with nonReplay := some 7 } else x
    match x.nonReplay with
    | some c => s.abortLaunch l ⟨kind, c, trap, addr⟩
    | none => s.modLaunch l fun x => { x with replayDue := true, poisonSrc := src }

end Sys2Proof.Machine
end

