-- ==== Sys2Proof/Machine/Ops.lean ====
section
/-!
DEFINITION. The shared operations of issue: choosing the issuing set (01 R18), the checks of 02 R57, reading and
writing operands under the run hazard (01 R22), dead registers (01 R25), last use (01 R24) and poison, retiring a
word, TAKING A TRAP (01 R31, R32, 03 R90) and returning from one (03 R91), consuming poison (19 R385), and the same
for engine programs (10 R230).
-/

namespace Sys2Proof.Machine

open Sys2Proof

/-- The outcome of every meaning. -/
abbrev Out := Host.Outcome State Fault Refusal

/-! ### Lanes -/

/-- The lanes of a group, numbered. -/
def Group.laneList (g : Group) : List (Nat × Lane) := g.lanes.zipIdx.map fun p => (p.2, p.1)

/-- Lane `i`, if the group has it. -/
def Group.lane? (g : Group) (i : Nat) : Option Lane := g.lanes[i]?

/-- Changes a lane. -/
def Group.modLane (g : Group) (i : Nat) (f : Lane → Lane) : Group := { g with lanes := g.lanes.modify i f }

/-- Changes the lanes of a list. -/
def Group.modLanes (g : Group) (ls : List Nat) (f : Lane → Lane) : Group :=
  { g with lanes := g.lanes.zipIdx.map fun p => if ls.contains p.2 then f p.1 else p.1 }

/-- A live, unparked fibre stands in the lane (01 R17). -/
def Lane.ready (l : Lane) : Bool := l.status == .live && l.park.isNone

/-- The lanes of live, unparked fibres. -/
def Group.readyLanes (g : Group) : List Nat := (g.laneList.filter fun p => p.2.ready).map (·.1)

/-- The lanes of live fibres. -/
def Group.liveLanes (g : Group) : List Nat := (g.laneList.filter fun p => p.2.status == .live).map (·.1)

/-- The least PC among the live, unparked fibres (01 R18). -/
def Group.minPc (g : Group) : Option Word :=
  ((g.laneList.filter fun p => p.2.ready).map fun p => p.2.pc).foldl
    (fun acc pc => match acc with
      | none => some pc
      | some m => some (if pc.toNat < m.toNat then pc else m)) none

/-- The issuing set: every live, unparked fibre at the least PC (01 R18). -/
def Group.issuingSet (g : Group) : List Nat :=
  match g.minPc with
  | none => []
  | some pc => (g.laneList.filter fun p => p.2.ready && p.2.pc == pc).map (·.1)

/-- A `cq.push` whose predicate results are still to come. -/
def isPush (i : Instr) : Bool :=
  match i with
  | .cqPush _ => true
  | _ => false

/-- The group waits for pages of a load or an atomic (06 R171); one whose fibres stay out of the group's handler does not keep
the handler waiting (01 R32). -/
def Group.faulted (g : Group) : Bool := g.lanes.any fun l => l.park == some .fault && !(g.handler && l.outside)

/-- Parks the fibres of a load or atomic that faulted on pages (01 R17, 06 R171). -/
def Group.parkFault (g : Group) (issuing pages : List Nat) : Group :=
  { g.modLanes issuing fun l => { l with park := some .fault } with faultPages := (g.faultPages ++ pages).eraseDups }

/-- Fibres parked at a fault issue their word again: those that stayed out of the group's handler after `rtt`. -/
def Group.clearFaults (g : Group) : Group :=
  { g with
    faultPages := []
    lanes := g.lanes.map fun l =>
      if l.park == some .fault then { l with park := if g.handler && l.outside then some .untilRtt else none } else l }

/-- A page that the group waits for is mapped. -/
def Group.pageServed (g : Group) (page : Nat) : Group :=
  let left := g.faultPages.filter (· != page)
  if left.isEmpty && !g.faultPages.isEmpty then g.clearFaults else { g with faultPages := left }

/-- Nothing but the choice of the row keeps the group from issuing (10 R251). A word after a `cq.push` of its run waits
for the push's predicate results. -/
def Group.canIssue (g : Group) : Bool :=
  !g.draining && !g.stopped && !g.pend.any (fun p => isPush p.instr) && !g.faulted && g.remote.isEmpty && g.amber != .stalled &&
  g.laneList.any (fun p => p.2.ready)

/-- Bits of a predicate word: p15 reads 1 (01 R13). -/
def predBit (preds : BitVec 16) (p : Nat) : Bool := p == 15 || bitOf preds p

/-- Fibres parked after `yield` go on once every other live, unparked fibre has issued, or none is left (01 R19). DEDUCED (log
entry 118): these are the fibres that were unparked when `yield` executed; one that parks meanwhile is owed no more. -/
def Group.wakeYield (g : Group) (issued : List Nat) : Group :=
  let ready := maskOf g.readyLanes
  let did := maskOf issued
  { g with lanes := g.lanes.map fun l =>
      match l.park with
      | some (.yield owed) =>
        let left := owed &&& ~~~did &&& ready
        { l with park := if left == 0 then none else some (.yield left) }
      | _ => l }

/-! ### What issues -/

/-- A word at issue in a group: the parts its lanes take (01 R18, R28, 05 R127). -/
structure Issue where
  key : GKey
  pc : Word
  size : Nat
  instr : Instr
  desc : Desc
  pfx : Pfx
  issuing : List Nat
  active : List Nat
  helpers : List Nat
  /-- masked-off lanes that write 0 under MZ: of the issuing set, and helpers of its quads -/
  zeroed : List Nat
  once : Bool
  deriving DecidableEq, Repr

/-- The units that execute the word: the group once, or each active lane (01 R16). -/
def Issue.units (x : Issue) : List (Option Nat) := if x.once then [none] else x.active.map some

/-- The active lanes with the active helpers. -/
def Issue.receiving (x : Issue) : List Nat := (List.range 64).filter fun l => x.active.contains l || x.helpers.contains l

/-- The units with the helpers that execute the word's register effects. -/
def Issue.allUnits (x : Issue) : List (Option Nat) := if x.once then [none] else x.receiving.map some

/-- The masked-off lanes of the issuing set: those in which a predicate write writes 0 under MZ (02 R39, 03 R64). -/
def Issue.zeroedFibres (x : Issue) : List Nat := x.zeroed.filter x.issuing.contains

/-- The prefix's lane mask in a lane (02 R44). -/
def maskBit (p : Pfx) (l : Lane) : Bool :=
  match p with
  | none => true
  | some q => predBit l.preds q.pr.toNat != q.pn

/-- The issue of a word by a group. -/
def Group.issue (g : Group) (i : Instr) : Issue :=
  let d := describe g.w i
  let p := i.pfx
  let set := g.issuingSet
  let quads := set.map (· / 4)
  let isHelper (q : Nat × Lane) : Bool := q.2.status == .helper && quads.contains (q.1 / 4)
  let on (l : Nat) : Bool := (g.lane? l).any (maskBit p)
  let helpers := (g.laneList.filter isHelper).map (·.1)
  { key := g.key, pc := g.minPc.getD 0, size := i.size, instr := i, desc := d, pfx := p, issuing := set,
    active := set.filter on, helpers := helpers.filter on,
    zeroed := if p.any (fun q => q.mz) then (set ++ helpers).filter (fun l => !on l) else [],
    once := d.once }

/-! ### Naming and reading registers -/

/-- The absolute number of the register that field number `f` names in a lane (01 R14). -/
def Group.regNum (g : Group) (u : Option Nat) (f : Nat) : Nat :=
  if 96 ≤ f then g.ub + (f - 96)
  else (match u with
    | some l => (g.lane? l).elim 0 (·.vb)
    | none => 0) + f

/-- The file that a field names a register of. -/
def Group.file (g : Group) (u : Option Nat) (f : Nat) : RegFile :=
  if 96 ≤ f then g.s
  else match u with
    | some l => (g.lane? l).elim RegFile.empty (·.v)
    | none => RegFile.empty

/-- The lane a run's write entry is kept under: none for a uniform register. -/
def writeLane (u : Option Nat) (f : Nat) : Option Nat := if 96 ≤ f then none else u

/-- The run's writes of a register, the latest first (01 R22). -/
def Group.runWrites (g : Group) (u : Option Nat) (f : Nat) : List RunWrite :=
  let n := g.regNum u f
  g.written.filter fun w => w.lane == writeLane u f && w.reg == n && !w.freed

/-- A number for each place a value is read from: the step's counter, the lane (none for a uniform register), the field and
the register. DESIGN CHOICE (log entry 115): two operands of a word that name one register take one choice. -/
def choiceNo (free : Nat) (u : Option Nat) (f k : Nat) : Nat :=
  ((free * 128 + u.elim 127 id) * 128 + f) * 64 + k

/-- Which of the values the spec allows a read returns (01 R22): the newest, or what stood before the write, and so
on; and whether the one chosen has not arrived yet, so that the word cannot issue yet. -/
def pickWrite : Nat → List RunWrite → Option Reg → Option Reg × Bool
  | _, [], cur => (cur, false)
  | n, w :: t, cur => if Config.freeChoice n then (cur, w.pending.isSome) else pickWrite (n + 1) t w.old

/-- The register that a field names, as a read finds it: its content (none when dead), and whether the read must
wait for a reply. -/
def readField (s : State) (g : Group) (u : Option Nat) (f : Nat) : Option Reg × Bool :=
  let cur := (g.file u f).get? (g.regNum u f)
  match g.runWrites u f with
  | [] => (cur, false)
  | ws => pickWrite (choiceNo s.free (writeLane u f) f 0) ws cur

/-- The tag of the quad that a field names. -/
def readTag (s : State) (g : Group) (u : Option Nat) (f : Nat) : Bool :=
  let cur := (g.file u f).tag (g.regNum u f)
  match (List.range 4).findSome? fun k => (g.runWrites u (f + k)).head? with
  | none => cur
  | some w => if Config.freeChoice (choiceNo s.free (writeLane u f) f 32) then cur else w.oldTag

/-- The registers of an operand, low first, as a read finds them. -/
def readOpndRegs (s : State) (g : Group) (u : Option Nat) (o : Opnd) : List (Option Reg) :=
  (List.range o.count).map fun k => (readField s g u (o.field.toNat + k)).1

/-- The value of an operand. -/
def readOpnd (s : State) (g : Group) (u : Option Nat) (o : Opnd) : Val :=
  Val.ofRegs (o.count == 4 && readTag s g u o.field.toNat) (readOpndRegs s g u o)

/-- The value of the operand in a role; 0 when the word has none. -/
def readRole (s : State) (g : Group) (d : Desc) (u : Option Nat) (r : Role) : Val :=
  match d.opnd? r with
  | some o => readOpnd s g u o
  | none => Val.zero

/-! ### The checks of 02 R57 -/

/-- A trap as R31 forms it: cause, TVAL, TMASK. -/
structure TrapInfo where
  code : BitVec 8
  tval : BitVec 64
  mask : List Nat
  deriving DecidableEq, Repr

/-- The trap codes (03 R88). -/
def tILLEGAL : BitVec 8 := 0x01
def tDEADREG : BitVec 8 := 0x02
def tHAZARD : BitVec 8 := 0x03
def tCAPTAG : BitVec 8 := 0x04
def tCAPBOUNDS : BitVec 8 := 0x05
def tCAPRIGHTS : BitVec 8 := 0x06
def tALIGN : BitVec 8 := 0x07
def tPAGE : BitVec 8 := 0x08
def tPKEY : BitVec 8 := 0x09
def tPOISON : BitVec 8 := 0x0A
def tREMFAULT : BitVec 8 := 0x0B
def tREMTIME : BitVec 8 := 0x0C
def tBLACKOUT : BitVec 8 := 0x0D
def tSOFTREGION : BitVec 8 := 0x0E
def tMATRIX : BitVec 8 := 0x0F
def tFEATURE : BitVec 8 := 0x10
def tBREAK : BitVec 8 := 0x11
def tLOCALBOUNDS : BitVec 8 := 0x14

/-- What one unit raises: the first check it fails. -/
structure UnitErr where
  unit : Option Nat
  code : BitVec 8
  tval : BitVec 64
  deriving DecidableEq, Repr

/-- The base word and the prefix word of an instruction. -/
def baseWord64 (i : Instr) : BitVec 64 := i.baseWord.setWidth 64
def pfxWord64 (i : Instr) : BitVec 64 := (i.pfx.elim 0 Prefix.toWord).setWidth 64

/-- A count of registers as a limit: `.regs` or `.uniform` of the launch (01 R15, 02 R55). -/
def State.regLimits (s : State) (k : GKey) : Nat × Nat :=
  match s.launch? k.launch with
  | some l => (l.regs, l.uniform)
  | none => (512, 160)

/-- The first register of a word's fields at or beyond its count, in a lane (01 R15, 02 R55, 01 R442). -/
def beyondCount (g : Group) (lim : Nat × Nat) (d : Desc) (u : Option Nat) : Option Nat :=
  (d.ops.filter (·.bounds)).findSome? fun o => (List.range o.count).findSome? fun k =>
    let f := o.field.toNat + k
    let n := g.regNum u f
    if (if 96 ≤ f then lim.2 else lim.1) ≤ n then some n else none

/-- Checks 2 to 7 of 02 R57 in a group: cause and TVAL of the first that fails. DEDUCED (log entry 117): check 6 looks at
every fibre of the issuing set, masked off or not, and the lowest lane with an offending register gives TVAL; the word
named for C = D in `sldg` and `sstg` is the prefix (07 R188, R189), and for another C in `sstg.add` the base word. -/
def wordChecks (s : State) (g : Group) (x : Issue) : Option (BitVec 8 × BitVec 64) :=
  let d := x.desc
  let i := x.instr
  if decide (0x7A ≤ (majorOf i.baseWord).toNat) then some (tILLEGAL, baseWord64 i)
  else if !d.pfxOk x.pfx then some (tILLEGAL, pfxWord64 i)
  else if !(i.wf && d.legal && d.aligned && d.mixOk) then some (tILLEGAL, baseWord64 i)
  else
    match x.issuing.findSome? fun l => beyondCount g (s.regLimits g.key) d (some l) with
    | some n => some (tILLEGAL, BitVec.ofNat 64 n)
    | none =>
      match d.feature with
      | some b => if s.accepted b then none else some (tFEATURE, BitVec.ofNat 64 b)
      | none => none

/-- The field numbers a unit reads when the word issues, in the order of 01 R442. -/
def readFields (d : Desc) : List Nat :=
  (d.ops.filter fun o => o.read && o.now).flatMap fun o => (List.range o.count).map fun k => o.field.toNat + k

/-- The register was written in the run for the same lane, and not for a parent whose pending register the lane shares
(01 R22). -/
def Group.hazard (g : Group) (u : Option Nat) (f : Nat) : Bool := (g.runWrites u f).any fun w => w.src.isNone

/-- Checks 8 and 9 of 02 R57 over field numbers, in one unit: HAZARD, then DEADREG. DESIGN CHOICE (log entry 143): without HAZCHK a
register that was dead before a write of the run whose value has not come may be read as the new value or trap (01 R22, R25); the
model traps, whichever value the read would choose. -/
def regChecks (s : State) (g : Group) (u : Option Nat) (fs : List Nat) : Option UnitErr :=
  match if s.accepted 6 then fs.find? (g.hazard u) else none with
  | some f => some ⟨u, tHAZARD, BitVec.ofNat 64 (g.regNum u f)⟩
  | none =>
    match fs.find? (fun f => (readField s g u f).1.isNone) with
    | some f => some ⟨u, tDEADREG, BitVec.ofNat 64 (g.regNum u f)⟩
    | none => none

/-- The lanes of the issuing set whose mask predicate is poisoned consume it (03 R59, 19 R385). -/
def maskPoison (g : Group) (x : Issue) : List UnitErr :=
  match x.pfx with
  | none => []
  | some q => (x.issuing.filter fun l => (g.lane? l).any (fun y => bitOf y.predPoison q.pr.toNat)).map
      fun l => ⟨some l, tPOISON, 0x100 + q.pr.setWidth 64⟩

/-- The first poisoned register among fields, as a consumption (19 R385). -/
def consumes (s : State) (g : Group) (u : Option Nat) (fs : List Nat) : Option UnitErr :=
  (fs.find? fun f => Reg.isPoisoned (readField s g u f).1).map
    fun f => ⟨u, tPOISON, BitVec.ofNat 64 (g.regNum u f)⟩

/-- The field numbers of the operands in the given roles. -/
def roleFields (d : Desc) (rs : List Role) : List Nat :=
  (d.ops.filter fun o => o.now && o.read && rs.contains o.role).flatMap fun o =>
    (List.range o.count).map fun k => o.field.toNat + k

/-- The trap of a list of errors: the lowest code, the units that raise it, the value of the lowest (01 R31). -/
def verdict (x : Issue) (errs : List UnitErr) : Option TrapInfo :=
  match errs with
  | [] => none
  | e :: t =>
    let code := t.foldl (fun c y => if y.code.toNat < c.toNat then y.code else c) e.code
    let those := errs.filter fun y => y.code == code
    some { code := code, tval := those.head?.elim 0 (·.tval),
           mask := if those.any (fun y => y.unit.isNone) then x.issuing else those.filterMap (·.unit) }

/-! ### Runs of registers whose length an operand gives (07 R181) -/

/-- The slots of a well-formed region of `k` elements a slot; none when it is not well formed (07 R179). -/
def softSlots (c : Cap) (k : Nat) : Option Nat :=
  let s := 4 * k
  let n := c.length / s
  if c.addr == c.base && c.length % s == 0 && decide (1 ≤ n) && decide (n ≤ 64) && c.base % s == 0 &&
      c.base / 4096 == (c.base + c.length - 1) / 4096 then some n else none

/-- The length of a run in a `sshift` descriptor. -/
def shiftLen (b : Val) : Nat := (bitsOf b.bits 96 6).toNat + 1

/-- The first register of a run of fields at or beyond its count. -/
def runBeyond (s : State) (g : Group) (u : Option Nat) (f : BitVec 7) (n : Nat) : Option Nat :=
  let lim := s.regLimits g.key
  ((rangeFrom f.toNat n).find? fun k => decide ((if 96 ≤ k then lim.2 else lim.1) ≤ g.regNum u k)).map (g.regNum u)

/-- The run that a unit reads, where its length is known late: its first field and its registers (07 R181). None while the
operand that gives the length cannot: a region that is not well formed, or a dead descriptor; and none of a run that crosses its
limit, which is no run. -/
def lateRun (s : State) (g : Group) (x : Issue) (u : Option Nat) : Option (BitVec 7 × Nat) :=
  let fits (f : BitVec 7) (n : Nat) : Option (BitVec 7 × Nat) :=
    if runInField f n && (runBeyond s g u f n).isNone then some (f, n) else none
  let soft (f : FmtM) : Option (BitVec 7 × Nat) :=
    let c := Cap.ofVal (readRole s g x.desc u .a)
    (if c.tag then softSlots c (softK f.w) else none).bind (fits f.o)
  match x.instr with
  | .sld _ f => soft f
  | .sst _ f => soft f
  | .sldg _ f => soft f
  | .sstg _ f => soft f
  | .sshift _ f =>
    if (readField s g u (f.b.toNat + 3)).1.isNone then none else fits f.a (shiftLen (readRole s g x.desc u .b))
  | _ => none

/-- The fields a unit reads, the registers of such a run among them, in the order of 01 R442. -/
def unitFields (s : State) (g : Group) (x : Issue) (u : Option Nat) : List Nat :=
  match lateRun s g x u with
  | none => readFields x.desc
  | some r =>
    (x.desc.ops.filter (·.read)).flatMap fun o =>
      if o.now then (List.range o.count).map fun k => o.field.toNat + k else rangeFrom r.1.toNat r.2

/-- A read that takes a value which has not come yet: the word issues when it has, and the group stands still till then;
no fibre parks (DESIGN CHOICE, log entry 116). It asks the units that execute the word and their helpers alone: where a lane that
does not issue supplies a value, the new one has come or the old one is taken (05 R129, log entry 143). -/
def mustWait (s : State) (g : Group) (x : Issue) : Bool :=
  x.allUnits.any fun u => (unitFields s g x u).any fun f => (readField s g u f).2

/-! ### Traps -/

/-- The group of an Amber checkpoint: what completed meanwhile stays complete (10 R245, R249). What a Shadow rollback had recorded
of the words after it belongs to the speculation, and goes with it: they read anew (10 R250). -/
def Group.toCkpt (g : Group) (c : AmberCkpt) : Group :=
  { g with
    lanes := c.lanes, s := c.s, ub := c.ub, fpcr := c.fpcr, msr := c.msr, cvs := c.cvs,
    slots := (g.slots.zip c.slots).map (fun p => if p.1.engine.isNone then p.1 else p.2),
    collector := c.collector, fpcrWrite := c.fpcrWrite, msrWrite := c.msrWrite, runCount := c.runCount,
    written := c.written, draining := false, marks := [],
    pend := c.pend.filter (fun p => g.pend.any fun q => q.id == p.id),
    faultPages := [], remote := [], fetched := [], remoteFail := [], redo := [], amber := .waiting, ckpt := none }

/-- Space has freed in a core's Amber structures: stalled speculators go on, and stall again at a word that must wait
(10 R249). -/
def State.unstall (s : State) (core : Nat) : State :=
  { s with groups := s.groups.map fun g =>
      if g.core == core && g.amber == .stalled then { g with amber := .speculating } else g }

/-- Parks every live fibre again at the Amber barrier with the state of the checkpoint; what was buffered and read is
discarded (10 R249). -/
def State.amberRollback (s : State) (k : GKey) : State :=
  match s.group? k with
  | none => s
  | some g =>
    match g.ckpt with
    | none => s
    | some c =>
      ((s.setGroup (g.toCkpt c)).modCore g.core fun co =>
        { co with stores := co.stores.filter fun e => e.group != k
                  reads := co.reads.filter fun e => e.group != k
                  slices := co.slices.map fun sl => sl.without fun o => o.ofGroup k }).unstall g.core

/-- The handler's address, when a trap of this code in this group is handled (03 R90, 19 R385). -/
def State.handlerPc (s : State) (g : Group) (code : BitVec 8) : Option Word :=
  match s.launch? g.key.launch with
  | none => none
  | some l =>
    if code == tPOISON || g.handler || decide (l.codeLen ≤ l.trapv) then none else some (BitVec.ofNat 32 l.trapv)

/-- TAKING A TRAP (01 R31, R32, 03 R89, R90): the word has no effect. Handled: every live fibre that is not parked, or
only after `yield`, saves its resume PC in TPC and goes to the handler; TCAUSE, TVAL and TMASK are written; the
words issued before in the run complete first, at a drain. Unhandled: the launch aborts. A trap raised in Amber
speculation rolls back instead (10 R249). -/
def State.takeTrap (s : State) (k : GKey) (pc : Word) (t : TrapInfo) : State :=
  match s.group? k with
  | none => s
  | some g =>
    if g.amber == .speculating || g.amber == .stalled then s.amberRollback k
    else
      match s.handlerPc g t.code with
      | none => s.abortLaunch k.launch ⟨0, 0, t.code.toNat, t.tval.toNat⟩
      | some h =>
        let enter (i : Nat) (l : Lane) : Lane :=
          match l.status, l.park with
          | .live, none => { l with tpc := if t.mask.contains i then pc else l.pc, pc := h, trapped := true }
          | .live, some (.yield _) => { l with tpc := l.pc, pc := h, trapped := true, park := none }
          | .live, _ => { l with outside := true }
          | _, _ => l
        s.setGroup { g with
          lanes := g.lanes.zipIdx.map (fun p => enter p.2 p.1)
          tcause := t.code, tval := t.tval, tmask := maskOf t.mask, handler := true, draining := true
          fetched := [], remoteFail := [] }

/-- A consumption of poison that was loaded from `src`: the group stops and the launch is replayed, or it aborts (19 R385). -/
def State.consume (s : State) (k : GKey) (tval : BitVec 64) (src : Option Nat) : State :=
  let s := s.replayOrAbort k.launch 0 tPOISON.toNat tval.toNat src
  s.modGroup k fun g => { g with stopped := true }

/-- Where the poison that a word consumes was loaded from, when the device knows it: the register reported is the lane's or the
group's, as only one of the two is poisoned, and a load of memory filled it (19 R385; DESIGN CHOICE, log entry 154). -/
def Group.sourceOf (g : Group) (t : TrapInfo) : Option Nat :=
  let n := t.tval.toNat
  let bad (f : RegFile) : Option RegFile := if Reg.isPoisoned (f.get? n) then some f else none
  match (t.mask.head?.bind g.lane?).bind (fun l => bad l.v), bad g.s with
  | some f, none => lookupKey n f.srcs
  | none, some f => lookupKey n f.srcs
  | _, _ => none

/-- The trap or the consumption that R31 chooses among errors. -/
def State.raise (s : State) (x : Issue) (t : TrapInfo) : State :=
  if t.code == tPOISON then s.consume x.key t.tval ((s.group? x.key).bind fun g => g.sourceOf t)
  else s.takeTrap x.key x.pc t

/-- Leaves the handler state: every fibre that entered goes on at its TPC, under `skip` those of TMASK after the
trapping word, whose size in bytes is `size`; fibres whose wait ended meanwhile go on (01 R32, 03 R91). -/
def Group.leaveHandler (g : Group) (skip : Bool) (size : Word → Nat) : Group :=
  { g with
    handler := false
    lanes := g.lanes.zipIdx.map fun p =>
      let l := p.1
      let l := if l.park == some .untilRtt || l.park == some .held then { l with park := none } else l
      let l := { l with outside := false }
      if l.trapped then
        { l with trapped := false
                 pc := if l.status == .live then
                     (if skip && bitOf g.tmask p.2 then l.tpc + BitVec.ofNat 32 (size l.tpc) else l.tpc) else l.pc
                 park := if l.status == .live then none else l.park }
      else l }

/-! ### Words that trap late (01 R31)

A word whose fibres park may trap after fibres at other PCs have issued words of the same run. Those words then have no
effect: their register writes are undone through the rename checkpoint, and their stores never leave the core. -/

/-- Words that may trap after they have issued: releases, arrivals, `waitt`, `lnch`, `seqend`, signatures, and words that are
answered from the host or a peer. -/
def mayTrapLate (i : Instr) : Bool :=
  match i with
  | .atomI32 _ _ => true
  | .atomI64 _ _ => true
  | .atomF32 _ _ => true
  | .cas _ _ => true
  | .fenceRel _ => true
  | .fenceAr _ => true
  | .fenceXpath _ => true
  | .cvsign _ => true
  | .sld _ _ => true
  | .sldg _ _ => true
  | .sstg _ _ => true
  | .mma _ => true
  | .mmaS _ => true
  | .mmaD _ => true
  | .mscl _ => true
  | .bar _ => true
  | .baroArrive _ => true
  | .baroAw _ => true
  | .tbar _ => true
  | .lnch _ => true
  | .seqend _ => true
  | .waitt _ => true
  | _ => false

/-- Marks the run before a word that may still trap, at a clock, when the next number is `nextId`. -/
def Group.mark (g : Group) (x : Issue) (clock nextId : Nat) : Group :=
  { g with marks := g.marks ++
      [{ pc := x.pc, lanes := maskOf x.issuing, cycle := clock, writes := g.written.length, seq := g.seq, nextId := nextId,
         runCount := g.runCount, ub := g.ub, fpcrWrite := g.fpcrWrite, msrWrite := g.msrWrite, cvs := g.cvs, slots := g.slots,
         collector := g.collector, before := [] }] }

/-- Takes a run's latest write back: one whose value has not come has changed nothing. -/
def Group.unwrite (g : Group) (w : RunWrite) : Group :=
  if w.pending.isSome then g
  else
    let back (f : RegFile) : RegFile :=
      (match w.old with
        | some r => f.put w.reg r
        | none => f.free w.reg).setTag w.reg w.oldTag
    match w.lane with
    | none => { g with s := back g.s }
    | some l => g.modLane l fun y => { y with v := back y.v }

/-- A lane that the word or later words of the run touched, as it was; its registers have been taken back by themselves. -/
def Group.putLane (g : Group) (p : Nat × Lane) : Group := g.modLane p.1 fun y => { p.2 with v := y.v }

/-- A convergence register without what later words did: the declaration of the mark, if one of those lanes signed since
or declared another. -/
def RunMark.cvBack (m : RunMark) (n : Nat) (c : CvReg) : CvReg :=
  let old := m.cvs[n]?.getD ⟨none, [], none, false⟩
  let mine (l : Nat) : Bool := m.before.any fun q => q.1 == l
  if c.declared == old.declared && !(c.signed.any fun q => mine q.1) then c
  else { old with signed := old.signed.filter fun q => !mine q.1 }

/-- The mark of the word at an address that fibres of a mask issued last. -/
def Group.markAt (g : Group) (pc : Word) (lanes : LaneMask) : Option RunMark :=
  (g.marks.filter fun m => m.pc == pc && m.lanes &&& lanes != 0).getLast?

/-- The group without the marked word and the words of the run after it. -/
def Group.undoTo (g : Group) (m : RunMark) : Group :=
  let later := g.written.take (g.written.length - m.writes)
  let g := later.foldl Group.unwrite { g with written := g.written.drop (g.written.length - m.writes) }
  let g := m.before.foldl Group.putLane g
  { g with ub := m.ub, fpcrWrite := m.fpcrWrite, msrWrite := m.msrWrite, runCount := m.runCount, collector := m.collector
           cvs := g.cvs.zipIdx.map fun p => m.cvBack p.2 p.1
           marks := g.marks.filter fun y => decide (y.cycle < m.cycle) }

/-- UNDOES A MARKED WORD AND THE WORDS OF ITS RUN AFTER IT (01 R31): registers, predicates and flags, requests that have not left the core,
commands and programs started, and writes of the core's own local memory. -/
def State.undoRun (s : State) (k : GKey) (pc : Word) (lanes : LaneMask) : State :=
  match (s.group? k).bind fun g => (g.markAt pc lanes).map fun m => (g, m) with
  | none => s
  | some (g, m) =>
    let mine (o : Owner) (id : Nat) : Bool := o == .group k && decide (m.nextId ≤ id)
    let lanes := m.before.map (·.1)
    let awaited (id : Nat) : Bool := lanes.any fun l => (g.lane? l).any fun y => y.park == some (.await id)
    let goneOp (p : PendOp) : Bool := decide (m.cycle < p.issued) || awaited p.id
    let goneReq (r : Req) : Bool := r.group == k && r.eng.isNone && decide (m.seq < r.seq)
    let hold := (s.core g.core).hold.filter goneReq
    let engines := (s.engines.filter fun e => e.group == k && decide (m.nextId ≤ e.id)).map (·.id)
    let mwls := (s.mwls.filter fun y => y.group == k && y.reload.isNone && decide (m.nextId ≤ y.id)).map (·.id)
    let ops := (g.pend.filter goneOp).map (·.id) ++ hold.map (·.id) ++ engines ++ mwls ++
      (s.copies.filter fun c => mine c.owner c.id).map (·.id) ++ (s.gathers.filter fun c => mine c.owner c.id).map (·.id) ++
      (s.mscs.filter fun c => mine c.owner c.id && !c.left).map (·.id)
    let back := ((s.core g.core).undo.filter fun u => u.writer == some k && decide (m.cycle < u.cycle)).reverse
    let s := back.foldl (fun s u => s.modBlock u.launch u.block fun b =>
      let mem := b.mem.store u.addr u.old
      let poison := mem.poison.filter fun w => !(wordsOf u.addr u.old.length).contains w
      { b with mem := { mem with poison := u.oldBad.foldl (fun p w => putNat w p) poison } }) s
    let s : State := { s with
      engines := s.engines.filter fun e => !engines.contains e.id
      mwls := s.mwls.filter fun y => !mwls.contains y.id
      copies := s.copies.filter fun c => !mine c.owner c.id
      gathers := s.gathers.filter fun c => !mine c.owner c.id
      mscs := s.mscs.filter fun c => !(mine c.owner c.id && !c.left) }
    let s := s.modCore g.core fun c =>
      { c with
        hold := c.hold.filter fun r => !goneReq r
        slotsUsed := c.slotsUsed.filter fun id => !ops.contains id
        undo := c.undo.filter fun u => !(u.writer == some k && decide (m.cycle < u.cycle))
        slices := c.slices.map fun y =>
          let late (u : LatchUse) : Option Nat :=
            if u.group == k && u.arr == y.arr && u.base == y.base && u.width == y.width then
              (match u.op with
                | .mswap id => if decide (m.nextId ≤ id) then some id else none
                | _ => none)
            else none
          let swaps := c.sliceUses.filterMap late
          let done := swaps.filter fun id => !y.order.contains (.mswap id)
          let y := if done.length % 2 == 1 then { y with cur := y.shadow, shadow := y.cur } else y
          y.without fun o => match o with
            | .mwl id => mwls.contains id
            | .mswap id => swaps.contains id
            | _ => false
        sliceUses := c.sliceUses.filter fun u => !(u.group == k && (match u.op with
          | .mswap id => decide (m.nextId ≤ id)
          | .mwl id => decide (m.nextId ≤ id)
          | _ => false)) }
    s.modGroup k fun g =>
      let g := g.undoTo m
      { g with
        pend := g.pend.filter fun p => !goneOp p
        outst := g.outst.filter fun o => !(ops.contains o.id || (o.due.isSome && decide (m.nextId ≤ o.id)))
        slots := (g.slots.zip m.slots).map fun p => if p.1.engine.any engines.contains then p.2 else p.1 }

/-! ### Retiring a word -/

/-- Each lane of a list that a mark has not met since it was set is kept as it is (01 R31). -/
def Group.keepLanes (g : Group) (ls : List Nat) : Group :=
  { g with marks := g.marks.map fun m =>
      { m with before := m.before ++ g.laneList.filter fun p => ls.contains p.1 && !m.before.any fun q => q.1 == p.1 } }

/-- The lanes that a word may change: those that issue it, and the helpers of their quads. -/
def Group.touchedLanes (g : Group) (ls : List Nat) : List Nat :=
  ls ++ (g.laneList.filter fun p => p.2.status == .helper && ls.any fun i => i / 4 == p.1 / 4).map (·.1)

/-- The word has issued: each fibre of the issuing set goes on to the next word, the run counts it, and ends after a
word with S = 1 or after 128 words (01 R18, R21). -/
def Group.advance (g : Group) (x : Issue) : Group :=
  let g := (g.keepLanes (g.touchedLanes x.issuing)).modLanes x.issuing fun l => { l with pc := x.pc + BitVec.ofNat 32 x.size }
  let n := g.runCount + 1
  ({ g with runCount := n, draining := bitOf x.instr.baseWord 31 || decide (Config.runWords ≤ n) }).wakeYield x.issuing

/-- Parks the issuing fibres at their word, which has not issued: a structure it needs is full or busy (01 R17). -/
def State.holdBack (s : State) (x : Issue) : State :=
  s.modGroup x.key fun g =>
    let g := g.modLanes x.issuing fun l => { l with park := some .held }
    g.wakeYield []

/-- Fibres held back try again, but for those that stayed out of the group's handler (01 R32). -/
def Group.release (g : Group) : Group :=
  { g with lanes := g.lanes.map fun l =>
      if l.park == some .held && (!g.handler || !l.outside) then { l with park := none } else l }

/-- Every held-back fibre tries again: something that was full or busy has changed. -/
def State.releaseHeld (s : State) : State := { s with groups := s.groups.map Group.release }

/-- The words at which a group passing an Amber barrier stalls (10 R247, 07 R197, 09 R225, 16 R341). -/
def amberStalls (i : Instr) : Bool :=
  match (majorOf i.baseWord).toNat with
  | 0x33 => true
  | 0x34 => true
  | 0x37 => true
  | 0x38 => true
  | 0x57 => true
  | 0x58 => true
  | 0x5A => true
  | 0x5B => true
  | 0x5D => true
  | 0x60 => true
  | 0x61 => true
  | 0x65 => true
  | 0x66 => true
  | 0x68 => true
  | 0x6C => true
  | 0x6D => true
  | 0x70 => true
  | m => (decide (0x4F ≤ m) && decide (m ≤ 0x56)) || (decide (0x72 ≤ m) && decide (m ≤ 0x78))

/-- The fibres that count as raising a cause of the word as a whole: the active ones; the whole issuing set where none is
active (01 R31). -/
def Issue.wholeMask (x : Issue) : List Nat := if x.active.isEmpty then x.issuing else x.active

/-- What the meaning of a word does after every check has passed: it completes with a new state, it cannot issue yet,
or a check of its own fails late. -/
inductive Effect where
  | done (s : State)
  /-- its fibres park at the word: a structure is full, or a load or atomic meets a write that it parks for (01 R17, 06 R173,
  12 R278) -/
  | hold
  /-- the word stands still, and no fibre parks (log entry 75) -/
  | wait
  | fail (t : TrapInfo)

/-- What the units of a word raise, the lowest lane first: a register it may not read, a cause of its own, or a poisoned
mask predicate, which comes after every register (01 R31, R442). A word that executes once has no mask. -/
def issueErrs (s : State) (g : Group) (x : Issue) (own : Issue → Group → Option Nat → Option UnitErr) : List UnitErr :=
  let unit (u : Option Nat) : Option UnitErr := (regChecks s g u (unitFields s g x u)).or (own x g u)
  if x.once then (unit none).toList
  else
    let masks := maskPoison g x
    x.issuing.filterMap fun l =>
      (if x.active.contains l then unit (some l) else none).or (masks.find? fun e => e.unit == some l)

/-! ### Clock and records -/

/-- The clock of a core's die (03 R74). -/
def State.clockOf (s : State) (core : Nat) : Nat := (s.die (dieOfCore core)).clock

/-- Rolling checkpoints are live (19 R378). -/
def Core.shadowed (c : Core) : Bool := !(c.ckpts.isEmpty && c.keCkpts.isEmpty)

/-- Keeps a value that entered the region while checkpoints are live (19 R378). -/
def State.remember (s : State) (g : Group) (pc : Word) (vals : List (Nat × List Reg × Bool)) : State :=
  s.modCore g.core fun c =>
    if !c.shadowed then c else { c with record := c.record ++ [⟨g.key, s.clockOf g.core, pc, none, vals⟩] }

/-- Keeps what answered a request, beside what answered it before. -/
def State.rememberOp (s : State) (g : Group) (op : PendOp) (vals : List (Nat × List Reg × Bool)) : State :=
  s.modCore g.core fun c =>
    if !c.shadowed then c
    else if c.record.any fun r => r.op == some op.id then
      { c with record := c.record.map fun r => if r.op == some op.id then { r with vals := r.vals ++ vals } else r }
    else { c with record := c.record ++ [⟨g.key, op.issued, op.pc, some op.id, vals⟩] }

/-- Keeps what answered a request that left at once. -/
def State.rememberOnce (s : State) (g : Group) (op : PendOp) (vals : List (Nat × List Reg × Bool)) : State :=
  s.modCore g.core fun c =>
    if !c.shadowed then c else { c with record := c.record ++ [⟨g.key, op.issued, op.pc, none, vals⟩] }

/-- Keeps again a record that re-execution has used. -/
def State.rememberRet (s : State) (g : Group) (r : Ret) : State :=
  s.modCore g.core fun c => if !c.shadowed then c else { c with record := c.record ++ [r] }

/-- The recorded value that a word at `pc` takes again after a rollback (19 R380). -/
def Group.redo? (g : Group) (pc : Word) : Option Ret := g.redo.find? fun r => r.op.isNone && r.pc == pc

/-- Uses up a recorded value. -/
def Group.dropRedo (g : Group) (pc : Word) : Group :=
  { g with redo := dropFirst (fun r => r.op.isNone && r.pc == pc) g.redo }

/-- The recorded answer to a request. -/
def Group.redoOp? (g : Group) (id : Nat) : Option Ret := g.redo.find? fun r => r.op == some id

/-- Uses up a recorded answer. -/
def Group.dropRedoOp (g : Group) (id : Nat) : Group := { g with redo := dropFirst (fun r => r.op == some id) g.redo }

/-- A check outside the core that failed, as a record keeps it: the cause, the address, how many requests the group had issued,
and the lanes that raised it (19 R378). -/
def TrapInfo.kept (t : TrapInfo) (seq : Nat) : List (Nat × List Reg × Bool) :=
  (125, [⟨t.code.setWidth 32, false⟩, ⟨bitsOf t.tval 0 32, false⟩, ⟨bitsOf t.tval 32 32, false⟩, ⟨BitVec.ofNat 32 seq, false⟩], false) ::
    t.mask.map fun l => (l, [], false)

/-- The failed check of a record, with the group's count of requests. -/
def Ret.trap? (r : Ret) : Option (TrapInfo × Nat) :=
  match r.vals with
  | (125, [c, lo, hi, seq], _) :: lanes => some (⟨bitsOf c.val 0 8, hi.val ++ lo.val, lanes.map (·.1)⟩, seq.val.toNat)
  | _ => none

/-- What translation gave the units of a word, as a record keeps it; the mark tells the second region of a soft word. -/
def keptKeys (second : Bool) (ks : List Nat) : Nat × List Reg × Bool :=
  (124, ks.flatMap fun k => [⟨BitVec.ofNat 32 k, false⟩, ⟨BitVec.ofNat 32 (k / 2 ^ 32), false⟩], second)

/-- The record of a word's passed translations. -/
def Ret.ofKeys (r : Ret) : Bool := r.vals.any fun v => v.1 == 124

/-- What translation gave the units of a word before a rollback (19 R380). -/
def Group.redoKeys? (g : Group) (pc : Word) (second : Bool) : Option (List Nat) :=
  ((g.redo? pc).bind fun r => r.vals.find? fun v => v.1 == 124 && v.2.2 == second).map fun v =>
    (List.range (v.2.1.length / 2)).map fun i =>
      (v.2.1[2 * i]?.elim 0 (·.val.toNat)) + 2 ^ 32 * (v.2.1[2 * i + 1]?.elim 0 (·.val.toNat))

/-- Uses up the record of a word's passed translations. -/
def Group.dropKeys (g : Group) (pc : Word) : Group :=
  { g with redo := dropFirst (fun r => r.op.isNone && r.pc == pc && r.ofKeys) g.redo }

/-- What follows from the effect of a word: `s` is the state in which it has not issued. -/
def Effect.outcome (e : Effect) (s : State) (x : Issue) : Out :=
  match e with
  | .done s' => .next s'
  | .hold => .next (s.holdBack x)
  | .wait => .next s
  | .fail t => .next (((s.group? x.key).elim s fun g => s.remember g x.pc (t.kept g.seq)).raise x t)

/-- THE ISSUE OF A WORD BY A GROUP: the checks of 02 R57, the word's own checks in each unit that passed them, then
its effect on a state in which the word has already retired. Every read of the word finds the choices of the state before
it (01 R22). After a rollback, a check outside the core that had failed fails again (19 R380). -/
def issueGroup (i : Instr) (s : State) (k : GKey) (own : Issue → Group → Option Nat → Option UnitErr)
    (eff : Issue → Group → State → Effect) : Out :=
  match s.group? k with
  | none => .fault .noIssuer
  | some g =>
    if !g.canIssue then .fault .noIssuer
    else if g.amber == .speculating && amberStalls i then
      .next (s.drawn.modGroup k fun g => { g with amber := .stalled })
    else
      let x := g.issue i
      match wordChecks s g x, verdict x (issueErrs s g x own) with
      | some (c, v), _ => .next (s.drawn.takeTrap k x.pc ⟨c, v, x.wholeMask⟩)
      | none, some t => .next (s.drawn.raise x t)
      | none, none =>
        match (g.redo? x.pc).bind fun r => r.trap?.map fun t => (r, t) with
        | some (r, t, seq) =>
          .next (((s.drawn.modGroup k fun g => { g.dropRedo x.pc with seq := max g.seq seq }).rememberRet g r).raise x t)
        | none =>
          if mustWait s g x then .next s.drawn
          else
            let g' := if mayTrapLate i then g.mark x (s.die (dieOfCore g.core)).clock s.nextId else g
            (eff x g (s.drawn.setGroup (g'.advance x))).outcome s.drawn x

/-! ### Writing registers -/

/-- Writes the register that a field names in a unit, remembering what it held for 01 R22; with `pending`, the reply of
that number brings the value. -/
def Group.writeReg (g : Group) (u : Option Nat) (f : Nat) (r : Reg) (pending : Option Nat) : Group :=
  let n := g.regNum u f
  let file := g.file u f
  let w : RunWrite := { lane := writeLane u f, reg := n, old := file.get? n, oldTag := file.tag n, pending := pending }
  let g : Group := { g with written := w :: g.written }
  if pending.isSome then g
  else if 96 ≤ f then { g with s := g.s.put n r }
  else match u with
    | some l => g.modLane l fun y => { y with v := y.v.put n r }
    | none => g

/-- Writes registers of a unit from a field on, low first. -/
def Group.writeRun (g : Group) (u : Option Nat) (f : Nat) (pending : Option Nat) : List Reg → Group
  | [] => g
  | r :: t => (g.writeReg u f r pending).writeRun u (f + 1) pending t

/-- Sets the tag of the quad that a field names in a unit. -/
def Group.tagQuad (g : Group) (u : Option Nat) (f : Nat) : Group :=
  let n := g.regNum u f
  if 96 ≤ f then { g with s := g.s.setTag n true }
  else match u with
    | some l => g.modLane l fun y => { y with v := y.v.setTag n true }
    | none => g

/-- Notes where the poison of registers of a unit from a field on was loaded from (19 R385). -/
def Group.noteSource (g : Group) (u : Option Nat) (f count key : Nat) : Group :=
  let n := g.regNum u f
  if 96 ≤ f then { g with s := g.s.noteSource n count key }
  else match u with
    | some l => g.modLane l fun y => { y with v := y.v.noteSource n count key }
    | none => g

/-- Writes registers of a unit from a field on; `tag` is the tag of a capability written to a quad. `pending` names the
reply that will bring the values. -/
def Group.writeRegs (g : Group) (u : Option Nat) (f : Nat) (vals : List Reg) (tag : Bool) (pending : Option Nat := none) :
    Group :=
  let g := g.writeRun u f pending vals
  if tag && pending.isNone && vals.length == 4 then g.tagQuad u f else g

/-- Writes a value to a destination operand of a unit. -/
def Group.writeOpnd (g : Group) (u : Option Nat) (o : Opnd) (v : Val) : Group :=
  g.writeRegs u o.field.toNat (v.toRegs o.count) v.tag

/-- Changes a register that a field names in a unit, which is no write of the run; the run remembers what it held
(01 R31). -/
def Group.alterField (g : Group) (u : Option Nat) (f : Nat) (h : RegFile → Nat → RegFile) : Group :=
  let n := g.regNum u f
  let file := g.file u f
  let w : RunWrite :=
    { lane := writeLane u f, reg := n, old := file.get? n, oldTag := file.tag n, pending := none, freed := true }
  let g : Group := { g with written := w :: g.written }
  if 96 ≤ f then { g with s := h g.s n }
  else match u with
    | some l => g.modLane l fun y => { y with v := h y.v n }
    | none => g

/-- Frees a register that a field names in a unit (01 R24). -/
def Group.freeField (g : Group) (u : Option Nat) (f : Nat) : Group := g.alterField u f RegFile.free

/-- A register that a word writes before it issues again (06 R176). -/
def Group.putField (g : Group) (u : Option Nat) (f : Nat) (r : Reg) : Group := g.alterField u f fun file n => file.put n r

/-- Frees the sources marked as last use, in each active lane or once (01 R24). -/
def Group.freeLast (g : Group) (x : Issue) : Group :=
  (x.desc.ops.filter (·.last)).foldl (fun g o =>
    (List.range o.count).foldl (fun g k =>
      let f := o.field.toNat + k
      if 96 ≤ f then (if x.allUnits.isEmpty then g else g.freeField none f)
      else x.allUnits.foldl (fun g u => g.freeField u f) g) g) g

/-- Masked-off lanes write 0 under MZ, helpers among them (02 R44, 05 R127). -/
def Group.zeroMasked (g : Group) (x : Issue) (o : Opnd) : Group :=
  x.zeroed.foldl (fun g l => g.writeOpnd (some l) o Val.zero) g

/-- Raises flags in a unit: in the lane, or in every active fibre for a word that executes once; never in a helper
(04 R104). -/
def Group.raiseFlags (g : Group) (x : Issue) (u : Option Nat) (fl : Flags) : Group :=
  if fl == 0 then g
  else match u with
    | some l => if x.active.contains l then g.modLane l fun y => { y with flags := y.flags ||| fl } else g
    | none => g.modLanes x.active fun y => { y with flags := y.flags ||| fl }

/-- A predicate write of the run: value and poison, committed at the drain (01 R23); p15 discards it (01 R13). -/
def Lane.writePred (l : Lane) (p : Nat) (v poison : Bool) : Lane :=
  if p == 15 then l
  else
    let bit : BitVec 16 := 1 <<< p
    { l with predMask := l.predMask ||| bit
             predNew := if v then l.predNew ||| bit else l.predNew &&& ~~~bit
             predNewPoison := if poison then l.predNewPoison ||| bit else l.predNewPoison &&& ~~~bit }

/-! ### Register-to-register words -/

/-- The source values of one unit. -/
structure Srcs where
  a : Val
  b : Val
  c : Val
  d : Val
  deriving DecidableEq, Repr

/-- The result of a register-to-register operation: the value (none leaves d unwritten), a capability's tag, flags. -/
structure LaneOut where
  val : Option (BitVec 128)
  tag : Bool := false
  flags : Flags := 0
  deriving DecidableEq, Repr

/-- A plain result. -/
def LaneOut.of {w : Nat} (x : BitVec w) (fl : Flags := 0) : LaneOut := ⟨some (x.setWidth 128), false, fl⟩

/-- The sources of a unit. -/
def readSrcs (s : State) (g : Group) (d : Desc) (u : Option Nat) : Srcs :=
  ⟨readRole s g d u .a, readRole s g d u .b, readRole s g d u .c,
   match d.ops.find? (fun o => o.role == .d && o.read) with
   | some o => readOpnd s g u o
   | none => Val.zero⟩

/-- A result is poisoned when any source is (03 R59, 04 R106). -/
def Srcs.poison (x : Srcs) : Bool := x.a.poison || x.b.poison || x.c.poison || x.d.poison

/-- The rounding mode and DN of a word in a group (04 R100, R102). -/
def Group.floatEnv (g : Group) (p : Pfx) : FloatEnv :=
  { mode := Rounding.ofCode (match p with
      | some q => if q.rm == 0 then (bitsOf g.fpcr 0 3).toNat else q.rm.toNat
      | none => (bitsOf g.fpcr 0 3).toNat)
    dn := bitOf g.fpcr 4
    sat := p.any (·.sat) }

/-- The group after a register-to-register operation: sources read, last uses freed, results, zeros and flags
written. -/
def Group.aluWrite (g : Group) (s : State) (g0 : Group) (x : Issue) (f : FloatEnv → Srcs → LaneOut) : Group :=
  match x.desc.ops.find? (fun o => o.role == .d && o.write) with
  | none => g
  | some o =>
    let env := g0.floatEnv x.pfx
    let outs := x.allUnits.map fun u => (u, readSrcs s g0 x.desc u)
    let g := g.freeLast x
    let g := outs.foldl (fun g p =>
      let r := f env p.2
      match r.val with
      | some v => (g.writeOpnd p.1 o ⟨v, r.tag, p.2.poison⟩).raiseFlags x p.1 r.flags
      | none => g.raiseFlags x p.1 r.flags) g
    g.zeroMasked x o

/-! ### Engine programs -/

/-- Stops an engine program with a status at its word (10 R230). -/
def State.stopEngine (s : State) (id code : Nat) : State :=
  s.modEngine id fun e => { e with stopped := some code, stopPc := e.pc }

/-- A consumption of poison by an engine program's word (19 R385): a replay, or status fault and an abort. -/
def State.engineConsume (s : State) (e : Engine) (reg : Nat) : State :=
  (s.stopEngine e.id 4).replayOrAbort e.group.launch 0 tPOISON.toNat reg (lookupKey reg e.s.srcs)

/-- The value of an engine's operand (10 R230): nothing is dead, and there is no window. -/
def Engine.readOpnd (e : Engine) (o : Opnd) : Val :=
  let n := o.field.toNat - 96
  Val.ofRegs (o.count == 4 && e.s.tag n) ((List.range o.count).map fun k => some ((e.s.get? (n + k)).getD ⟨0, false⟩))

/-- The value in a role. -/
def Engine.readRole (e : Engine) (d : Desc) (r : Role) : Val :=
  match d.opnd? r with
  | some o => e.readOpnd o
  | none => Val.zero

/-- Writes an engine's registers. -/
def Engine.writeRegs (e : Engine) (f : Nat) (vals : List Reg) (tag : Bool) : Engine :=
  let s := vals.zipIdx.foldl (fun (r : RegFile) p => r.put (f - 96 + p.2) p.1) e.s
  { e with s := if tag && vals.length == 4 then s.setTag (f - 96) true else s }

/-- Frees the sources marked as last use: there are no dead registers in an engine, so nothing is freed (10 R230). -/
def Engine.advance (e : Engine) (i : Instr) : Engine :=
  { e with pc := e.pc + BitVec.ofNat 32 i.size, count := e.count + 1 }

/-- Registers of an engine word that name none: below 96 or above 127 (10 R230). -/
def engineFieldsOk (d : Desc) : Bool :=
  d.ops.all fun o => decide (96 ≤ o.field.toNat) && decide (o.field.toNat + o.count ≤ 128)

/-- The majors every engine context executes (10 R230). -/
def engineMajor (m : Nat) : Bool :=
  (decide (0x01 ≤ m) && decide (m ≤ 0x1D)) || m == 0x30 || m == 0x34 || m == 0x3B || m == 0x3E || m == 0x4A || m == 0x4B ||
  m == 0x79

/-- The engine-only majors a sequencer accepts (10 R236). -/
def sequencerMajor (k : SeqKind) (m : Nat) : Bool :=
  match k with
  | .ce => m == 0x7A || m == 0x7E
  | .ge => m == 0x7A || m == 0x7C || m == 0x7D || m == 0x7E
  | .ke => m == 0x7A || m == 0x7B || m == 0x7E

/-- An engine program that can execute its next word. -/
def Engine.canIssue (e : Engine) : Bool := e.started && e.stopped.isNone && e.waitt.isNone

/-- THE ISSUE OF A WORD BY AN ENGINE PROGRAM (10 R230): the checks that stop it with a status, else the effect. A prefix word
lies outside the subset (02 R43). -/
def issueEngine (i : Instr) (s : State) (id : Nat) (eff : Engine → Desc → State → State) : Out :=
  match s.engine? id with
  | none => .fault .noIssuer
  | some e =>
    if !e.canIssue then .fault .noIssuer
    else
      let d := describe 64 i
      let m := (majorOf i.baseWord).toNat
      let bad := !(engineMajor m || sequencerMajor e.seqr.kind m) || i.pfx.isSome || !i.wf || !d.legal || !d.aligned ||
        !d.mixOk || !engineFieldsOk d || d.feature.any (fun b => !s.accepted b)
      if bad then .next (s.stopEngine id 3) else .next (eff e d s)

/-- A word that only groups issue, in whatever issues it. -/
def issueWord (i : Instr) (s : State) (own : Issue → Group → Option Nat → Option UnitErr)
    (eff : Issue → Group → State → Effect) (eng : Engine → Desc → State → State) : Out :=
  match s.turn with
  | .none => .fault .noIssuer
  | .group k => issueGroup i s k own eff
  | .engine id => issueEngine i s.drawn id eng

/-- No check of its own. -/
def noCheck : Issue → Group → Option Nat → Option UnitErr := fun _ _ _ => none

/-- A group's word: in an engine it lies outside the subset, and `issueEngine` has stopped the program before this
is reached; it changes nothing. -/
def noEngine : Engine → Desc → State → State := fun _ _ s => s

/-- A register-to-register word: one pure function of a unit's sources, in a group or an engine program. -/
def alu (i : Instr) (s : State) (f : FloatEnv → Srcs → LaneOut) : Out :=
  issueWord i s noCheck
    (fun x g s' => .done (s'.modGroup x.key fun g' => g'.aluWrite s g x f))
    (fun e d s' =>
      let src : Srcs := ⟨e.readRole d .a, e.readRole d .b, e.readRole d .c,
        match d.ops.find? (fun o => o.role == .d && o.read) with
        | some o => e.readOpnd o
        | none => Val.zero⟩
      let r := f ⟨.rne, false, i.pfx.any (·.sat)⟩ src
      s'.modEngine e.id fun e =>
        let e := e.advance i
        match r.val, d.ops.find? (fun o => o.role == .d && o.write) with
        | some v, some o => e.writeRegs o.field.toNat ((⟨v, r.tag, src.poison⟩ : Val).toRegs o.count) r.tag
        | _, _ => e)

/-- The PC of a compare combined with the old predicate (02 R39). -/
def combine (pc : Nat) (old res : Bool) : Bool :=
  match pc with
  | 0 => res
  | 1 => old && res
  | 2 => old || res
  | _ => !res

/-- A word that computes one predicate bit per unit and writes PD (02 R39, 03 R69): `f` gives the bit and flags. -/
def compareWord (i : Instr) (s : State) (pd pcc : Nat) (f : Srcs → Bool × Flags) : Out :=
  issueWord i s noCheck
    (fun x g s' => .done (s'.modGroup x.key fun g' =>
      let outs := x.allUnits.map fun u => (u, readSrcs s g x.desc u)
      let g' := g'.freeLast x
      let write (g' : Group) (ls : List Nat) (src : Srcs) (r : Bool) : Group :=
        g'.modLanes ls fun l =>
          l.writePred pd (combine pcc (predBit l.preds pd) r)
            (src.poison || ((pcc == 1 || pcc == 2) && bitOf l.predPoison pd))
      let g' := outs.foldl (fun g' p =>
        let r := f p.2
        let ls := match p.1 with
          | some l => [l]
          | none => x.receiving
        (write g' ls p.2 r.1).raiseFlags x p.1 r.2) g'
      g'.modLanes x.zeroedFibres fun l => l.writePred pd false false))
    (fun e d s' =>
      let src : Srcs := ⟨e.readRole d .a, e.readRole d .b, e.readRole d .c, Val.zero⟩
      let r := (f src).1
      s'.modEngine e.id fun e =>
        let v := combine pcc (predBit e.preds pd) r
        let bit : BitVec 16 := 1 <<< pd
        let poison := src.poison || ((pcc == 1 || pcc == 2) && bitOf e.predPoison pd)
        let e := e.advance i
        if pd == 15 then e
        else { e with preds := if v then e.preds ||| bit else e.preds &&& ~~~bit
                      predPoison := if poison then e.predPoison ||| bit else e.predPoison &&& ~~~bit })

end Sys2Proof.Machine
end

