-- ==== Sys2Proof/Machine/Integer.lean ====
section
/-!
DEFINITION. The integer words of 03: majors 0x01 to 0x1E, each a pure function of a unit's sources, and the
capability words `cap` and `cbnd` (03 R86, R87).
-/

namespace Sys2Proof.Machine

open Sys2Proof

/-! ### Pure operations -/

/-- A sum or difference of `w` bits: wrapping, or saturating as signed with the flag when that changed it
(03 R59, R61). -/
def addSub {w : Nat} (sat minus : Bool) (a b : BitVec w) : LaneOut :=
  let wrap := if minus then a - b else a + b
  if sat then
    let t : Int := if minus then a.toInt - b.toInt else a.toInt + b.toInt
    let hi : Int := 2 ^ (w - 1) - 1
    let lo : Int := -(2 ^ (w - 1))
    let r : Int := if hi < t then hi else if t < lo then lo else t
    LaneOut.of (BitVec.ofInt w r) (flagIf (r != t) fSAT)
  else LaneOut.of wrap

/-- The 64-bit or 32-bit form by the X bit. -/
def byX (x : Bool) (s : Srcs) (f : (w : Nat) → BitVec w → BitVec w → BitVec w) : LaneOut :=
  if x then LaneOut.of (f 64 s.a.dw s.b.dw) else LaneOut.of (f 32 s.a.w s.b.w)

/-- The unary form by the X bit. -/
def byX1 (x : Bool) (s : Srcs) (f : (w : Nat) → BitVec w → BitVec w) : LaneOut :=
  if x then LaneOut.of (f 64 s.a.dw) else LaneOut.of (f 32 s.a.w)

/-- `mulh` (03 R61). -/
def mulHigh (signed : Bool) (a b : Word) : Word :=
  if signed then bitsOf (a.signExtend 64 * b.signExtend 64) 32 32 else bitsOf (a.setWidth 64 * b.setWidth 64) 32 32

/-- `shl`: 0 when the count reaches the width (03 R61). -/
def shiftLeft {w : Nat} (a : BitVec w) (n : Nat) : BitVec w := if w ≤ n then 0 else a <<< n

/-- `shr`: a count of 32 or more gives 0 or all sign bits (03 R61). -/
def shiftRight {w : Nat} (signed : Bool) (a : BitVec w) (n : Nat) : BitVec w :=
  if signed then a.sshiftRight (min n w) else a >>> (min n w)

/-- `rot`: left by the count modulo the width (03 R61). -/
def rotLeft {w : Nat} (a : BitVec w) (n : Nat) : BitVec w := (a <<< (n % w)) ||| (a >>> (w - n % w))

/-- Minimum or maximum, `a` when they are equal (03 R61). -/
def minMax (signed isMax : Bool) (a b : Word) : Word :=
  let le := if signed then decide (a.toInt ≤ b.toInt) else decide (a.toNat ≤ b.toNat)
  let ge := if signed then decide (b.toInt ≤ a.toInt) else decide (b.toNat ≤ a.toNat)
  if isMax then (if ge then a else b) else (if le then a else b)

/-- Position and effective length of a field descriptor (03 R62). -/
def fieldDesc (b : Word) : Nat × Nat :=
  let pos := (bitsOf b 0 5).toNat
  let len := (bitsOf b 8 6).toNat
  (pos, min len (min 32 (32 - pos)))

/-- `bfx` (03 R62). -/
def bitExtract (signed : Bool) (a b : Word) : Word :=
  let (pos, l) := fieldDesc b
  let v := (a >>> pos) &&& BitVec.ofNat 32 (2 ^ l - 1)
  if signed && l != 0 && bitOf v (l - 1) then v ||| ~~~(BitVec.ofNat 32 (2 ^ l - 1)) else v

/-- `bfi` (03 R62). -/
def bitInsert (d a b : Word) : Word :=
  let (pos, l) := fieldDesc b
  let m : Word := BitVec.ofNat 32 (2 ^ l - 1) <<< pos
  (d &&& ~~~m) ||| ((a <<< pos) &&& m)

/-- Ones in a value. -/
def popCount {w : Nat} (a : BitVec w) : Nat := onesIn a.toNat w

/-- Leading zeros; the width for 0 (03 R63). -/
def leadingZeros {w : Nat} (a : BitVec w) : Nat := if a == 0 then w else w - 1 - a.toNat.log2

/-- Trailing zeros; the width for 0 (03 R63). -/
def trailingZeros {w : Nat} (a : BitVec w) : Nat := ((List.range w).find? (fun i => bitOf a i)).getD w

/-- The bits in the opposite order (03 R63). -/
def reverseBits {w : Nat} (a : BitVec w) : BitVec w :=
  BitVec.ofNat w ((List.range w).foldl (fun acc i => acc * 2 + (if bitOf a i then 1 else 0)) 0)

/-- The bytes in the opposite order (03 R63). -/
def reverseBytes {w : Nat} (a : BitVec w) : BitVec w := BitVec.ofNat w (bytesNat (natBytes (w / 8) a.toNat).reverse)

/-- `abs`: the most negative value stays itself, or saturates (03 R63). -/
def absOut {w : Nat} (sat : Bool) (a : BitVec w) : LaneOut :=
  if a.msb then addSub sat true (0 : BitVec w) a else LaneOut.of a

/-- `shi` (03 R66). -/
def shiftImm (imm : BitVec 9) (s : Srcs) : LaneOut :=
  let n := (bitsOf imm 0 6).toNat
  match (bitsOf imm 6 3).toNat with
  | 0 => LaneOut.of (shiftLeft s.a.w n)
  | 1 => LaneOut.of (shiftRight false s.a.w n)
  | 2 => LaneOut.of (shiftRight true s.a.w n)
  | 3 => LaneOut.of (rotLeft s.a.w n)
  | 4 => LaneOut.of (shiftLeft s.a.dw n)
  | 5 => LaneOut.of (shiftRight false s.a.dw n)
  | 6 => LaneOut.of (shiftRight true s.a.dw n)
  | _ => LaneOut.of (rotLeft s.a.dw n)

/-- The result of a compare under COND (02 R40). -/
def compareBits {w : Nat} (signed : Bool) (cond : Nat) (a b : BitVec w) : Bool :=
  let lt := if signed then decide (a.toInt < b.toInt) else decide (a.toNat < b.toNat)
  match cond with
  | 0 => a == b
  | 1 => a != b
  | 2 => lt
  | 3 => lt || a == b
  | 4 => !lt && a != b
  | 5 => !lt
  | 6 => (a &&& b) != 0
  | _ => (a &&& b) == 0

/-! ### Two-source words (03 R60 to R62) -/

def execAdd (p : Pfx) (f : FmtRRR) (s : State) : Out :=
  alu (.add p f) s fun e x => if f.x then addSub e.sat false x.a.dw x.b.dw else addSub e.sat false x.a.w x.b.w
def execSub (p : Pfx) (f : FmtRRR) (s : State) : Out :=
  alu (.sub p f) s fun e x => if f.x then addSub e.sat true x.a.dw x.b.dw else addSub e.sat true x.a.w x.b.w
def execMul (p : Pfx) (f : FmtRRR) (s : State) : Out := alu (.mul p f) s fun _ x => byX f.x x fun _ a b => a * b
def execMulh (p : Pfx) (f : FmtRRR) (s : State) : Out :=
  alu (.mulh p f) s fun _ x => LaneOut.of (mulHigh f.x x.a.w x.b.w)
def execAnd (p : Pfx) (f : FmtRRR) (s : State) : Out := alu (.and_ p f) s fun _ x => byX f.x x fun _ a b => a &&& b
def execOr (p : Pfx) (f : FmtRRR) (s : State) : Out := alu (.or_ p f) s fun _ x => byX f.x x fun _ a b => a ||| b
def execXor (p : Pfx) (f : FmtRRR) (s : State) : Out := alu (.xor_ p f) s fun _ x => byX f.x x fun _ a b => a ^^^ b
def execAndn (p : Pfx) (f : FmtRRR) (s : State) : Out := alu (.andn p f) s fun _ x => byX f.x x fun _ a b => a &&& ~~~b
def execShl (p : Pfx) (f : FmtRRR) (s : State) : Out :=
  alu (.shl p f) s fun _ x => byX1 f.x x fun _ a => shiftLeft a x.b.w.toNat
def execShr (p : Pfx) (f : FmtRRR) (s : State) : Out :=
  alu (.shr p f) s fun _ x => LaneOut.of (shiftRight f.x x.a.w x.b.w.toNat)
def execRot (p : Pfx) (f : FmtRRR) (s : State) : Out :=
  alu (.rot p f) s fun _ x => byX1 f.x x fun _ a => rotLeft a x.b.w.toNat
def execMin (p : Pfx) (f : FmtRRR) (s : State) : Out :=
  alu (.min p f) s fun _ x => LaneOut.of (minMax f.x false x.a.w x.b.w)
def execMax (p : Pfx) (f : FmtRRR) (s : State) : Out :=
  alu (.max p f) s fun _ x => LaneOut.of (minMax f.x true x.a.w x.b.w)
def execMovc (p : Pfx) (f : FmtRRR) (s : State) : Out :=
  alu (.movc p f) s fun _ x => if (x.a.w != 0) != f.x then LaneOut.of x.b.w else ⟨none, false, 0⟩
def execBfx (p : Pfx) (f : FmtRRR) (s : State) : Out :=
  alu (.bfx p f) s fun _ x => LaneOut.of (bitExtract f.x x.a.w x.b.w)
def execBfi (p : Pfx) (f : FmtRRR) (s : State) : Out :=
  alu (.bfi p f) s fun _ x => LaneOut.of (bitInsert x.d.w x.a.w x.b.w)

/-! ### Unary words (03 R63) -/

def execNeg (p : Pfx) (f : FmtRM) (s : State) : Out :=
  alu (.neg p f) s fun e x => if f.x then addSub e.sat true 0 x.a.dw else addSub e.sat true 0 x.a.w
def execNot (p : Pfx) (f : FmtRM) (s : State) : Out := alu (.not_ p f) s fun _ x => byX1 f.x x fun _ a => ~~~a
def execAbs (p : Pfx) (f : FmtRM) (s : State) : Out :=
  alu (.abs p f) s fun e x => if f.x then absOut e.sat x.a.dw else absOut e.sat x.a.w
def execPopc (p : Pfx) (f : FmtRM) (s : State) : Out :=
  alu (.popc p f) s fun _ x => LaneOut.of (BitVec.ofNat 32 (if f.x then popCount x.a.dw else popCount x.a.w))
def execClz (p : Pfx) (f : FmtRM) (s : State) : Out :=
  alu (.clz p f) s fun _ x => LaneOut.of (BitVec.ofNat 32 (if f.x then leadingZeros x.a.dw else leadingZeros x.a.w))
def execCtz (p : Pfx) (f : FmtRM) (s : State) : Out :=
  alu (.ctz p f) s fun _ x => LaneOut.of (BitVec.ofNat 32 (if f.x then trailingZeros x.a.dw else trailingZeros x.a.w))
def execBrev (p : Pfx) (f : FmtRM) (s : State) : Out := alu (.brev p f) s fun _ x => byX1 f.x x fun _ a => reverseBits a
def execBswap (p : Pfx) (f : FmtRM) (s : State) : Out := alu (.bswap p f) s fun _ x => byX1 f.x x fun _ a => reverseBytes a
def execSext8 (p : Pfx) (f : FmtRM) (s : State) : Out :=
  alu (.sext8 p f) s fun _ x => LaneOut.of ((bitsOf x.a.w 0 8).signExtend 32)
def execSext16 (p : Pfx) (f : FmtRM) (s : State) : Out :=
  alu (.sext16 p f) s fun _ x => LaneOut.of ((bitsOf x.a.w 0 16).signExtend 32)
def execZext8 (p : Pfx) (f : FmtRM) (s : State) : Out :=
  alu (.zext8 p f) s fun _ x => LaneOut.of (bitsOf x.a.w 0 8)
def execZext16 (p : Pfx) (f : FmtRM) (s : State) : Out :=
  alu (.zext16 p f) s fun _ x => LaneOut.of (bitsOf x.a.w 0 16)
def execMov (p : Pfx) (f : FmtRM) (s : State) : Out := alu (.mov p f) s fun _ x => byX1 f.x x fun _ a => a
def execSext32 (p : Pfx) (f : FmtRM) (s : State) : Out :=
  alu (.sext32 p f) s fun _ x => LaneOut.of (x.a.w.signExtend 64)
def execZext32 (p : Pfx) (f : FmtRM) (s : State) : Out := alu (.zext32 p f) s fun _ x => LaneOut.of x.a.w

/-- `pget`: the predicate word as it stood when the run began, poisoned when any of its predicates is
(03 R59, R63, R64). -/
def execPget (p : Pfx) (f : FmtRM) (s : State) : Out :=
  issueWord (.pget p f) s noCheck
    (fun x _ s' => .done (s'.modGroup x.key fun g =>
      let o := dst .d f.d
      let g := x.receiving.foldl (fun g l =>
        match g.lane? l with
        | some y => g.writeOpnd (some l) o ⟨(y.preds ||| 0x8000).setWidth 128, false, y.predPoison != 0⟩
        | none => g) g
      g.zeroMasked x o))
    (fun e _ s' => s'.stopEngine e.id 3)

/-- `pput`: p0 to p14 of each active lane, or of every active fibre from a uniform source (03 R64). -/
def execPput (p : Pfx) (f : FmtRM) (s : State) : Out :=
  issueWord (.pput p f) s noCheck
    (fun x g s' => .done (s'.modGroup x.key fun g' =>
      let put (l : Lane) (v : Word) (poison : Bool) : Lane :=
        { l with predMask := l.predMask ||| 0x7FFF
                 predNew := (l.predNew &&& 0x8000) ||| (bitsOf v 0 15).setWidth 16
                 predNewPoison := if poison then l.predNewPoison ||| 0x7FFF else l.predNewPoison &&& 0x8000 }
      let vals := x.receiving.map fun l => (l, readRole s g x.desc (some l) .a)
      let g' := g'.freeLast x
      let g' := vals.foldl (fun g' q => g'.modLane q.1 fun l => put l q.2.w q.2.poison) g'
      g'.modLanes x.zeroedFibres fun l => put l 0 false))
    (fun e d s' =>
      let v := e.readRole d .a
      s'.modEngine e.id fun e =>
        { e.advance (.pput p f) with
            preds := (e.preds &&& 0x8000) ||| (bitsOf v.w 0 15).setWidth 16
            predPoison := if v.poison then 0x7FFF else 0 })

/-! ### Immediates and constants (03 R65 to R68) -/

def execAddi (p : Pfx) (f : FmtRI) (s : State) : Out :=
  alu (.addi p f) s fun e x => addSub e.sat false x.a.w (f.imm.signExtend 32)
def execAndi (p : Pfx) (f : FmtRI) (s : State) : Out :=
  alu (.andi p f) s fun _ x => LaneOut.of (x.a.w &&& f.imm.signExtend 32)
def execOri (p : Pfx) (f : FmtRI) (s : State) : Out :=
  alu (.ori p f) s fun _ x => LaneOut.of (x.a.w ||| f.imm.signExtend 32)
def execXori (p : Pfx) (f : FmtRI) (s : State) : Out :=
  alu (.xori p f) s fun _ x => LaneOut.of (x.a.w ^^^ f.imm.signExtend 32)
def execShi (p : Pfx) (f : FmtRI) (s : State) : Out := alu (.shi p f) s fun _ x => shiftImm f.imm x
def execLi (p : Pfx) (f : FmtRL) (s : State) : Out := alu (.li p f) s fun _ _ => LaneOut.of (f.imm.signExtend 32)
def execLui (p : Pfx) (f : FmtRL) (s : State) : Out :=
  alu (.lui p f) s fun _ x => LaneOut.of (f.imm ++ bitsOf x.d.w 0 15)
def execMad (p : Pfx) (f : FmtRRR) (s : State) : Out :=
  alu (.mad p f) s fun _ x =>
    if f.x then LaneOut.of (x.a.w.setWidth 64 * x.b.w.setWidth 64 + x.c.dw) else LaneOut.of (x.a.w * x.b.w + x.c.w)

/-! ### Compares (03 R69, R70) -/

def execCmpI32 (p : Pfx) (f : FmtCP) (s : State) : Out :=
  compareWord (.cmpI32 p f) s f.pd.toNat f.pc.toNat fun x => (compareBits true f.cond.toNat x.a.w x.b.w, 0)
def execCmpUi32 (p : Pfx) (f : FmtCP) (s : State) : Out :=
  compareWord (.cmpUi32 p f) s f.pd.toNat f.pc.toNat fun x => (compareBits false f.cond.toNat x.a.w x.b.w, 0)
def execCmpI64 (p : Pfx) (f : FmtCP) (s : State) : Out :=
  compareWord (.cmpI64 p f) s f.pd.toNat f.pc.toNat fun x => (compareBits true f.cond.toNat x.a.dw x.b.dw, 0)
def execCmpUi64 (p : Pfx) (f : FmtCP) (s : State) : Out :=
  compareWord (.cmpUi64 p f) s f.pd.toNat f.pc.toNat fun x => (compareBits false f.cond.toNat x.a.dw x.b.dw, 0)
def execCmpi (p : Pfx) (f : FmtCP) (s : State) : Out :=
  compareWord (.cmpi p f) s f.pd.toNat f.pc.toNat fun x =>
    (compareBits true f.cond.toNat x.a.w (f.b.signExtend 32), 0)

/-! ### Capabilities (03 R83 to R87) -/

/-- Division rounded up. -/
def ceilDiv (a b : Nat) : Nat := (a + b - 1) / b

/-- The length exponent and mantissa that represent a length (03 R84). -/
def encodeLength (len : Nat) : Nat × Nat :=
  let le := ((List.range 31).find? (fun e => decide (ceilDiv len (2 ^ e) ≤ 2 ^ 18))).getD 30
  (le, ceilDiv len (2 ^ le) - 1)

/-- `cbnd` (03 R87). -/
def capBound (up : Bool) (a : Cap) (len : Nat) : Cap :=
  if len == 0 || decide (2 ^ 48 < len) then { a with base := a.addr, le := 0, lm := 0, tag := false }
  else
    let (le, lm) := encodeLength len
    let nlen := (lm + 1) * 2 ^ le
    let ok := a.tag && (up || len % 2 ^ le == 0) && decide (a.base ≤ a.addr) &&
      decide (a.addr + nlen ≤ a.base + a.length)
    { a with base := a.addr, le := le, lm := lm, tag := ok }

/-- A capability result. -/
def capOut (c : Cap) : LaneOut := ⟨some c.toBits, c.tag, 0⟩

def execCapMov (p : Pfx) (f : FmtRM) (s : State) : Out :=
  alu (.capMov p f) s fun _ x => ⟨some x.a.bits, x.a.tag, 0⟩
def execCapGetaddr (p : Pfx) (f : FmtRM) (s : State) : Out :=
  alu (.capGetaddr p f) s fun _ x => LaneOut.of (bitsOf x.a.bits 0 48)
def execCapGetbase (p : Pfx) (f : FmtRM) (s : State) : Out :=
  alu (.capGetbase p f) s fun _ x => LaneOut.of (bitsOf x.a.bits 48 48)
def execCapGetlen (p : Pfx) (f : FmtRM) (s : State) : Out :=
  alu (.capGetlen p f) s fun _ x => LaneOut.of (BitVec.ofNat 64 (min (Cap.ofVal x.a).length (2 ^ 48)))
def execCapGetrights (p : Pfx) (f : FmtRM) (s : State) : Out :=
  alu (.capGetrights p f) s fun _ x => LaneOut.of (bitsOf x.a.bits 120 8)
def execCapGettag (p : Pfx) (f : FmtRM) (s : State) : Out :=
  alu (.capGettag p f) s fun _ x => LaneOut.of (bit1 x.a.tag)
def execCapRestrict (p : Pfx) (f : FmtRM) (s : State) : Out :=
  alu (.capRestrict p f) s fun _ x =>
    ⟨some ((bitsOf x.a.bits 120 8 &&& bitsOf x.c.w 0 8) ++ bitsOf x.a.bits 0 120), x.a.tag, 0⟩
def execCapSetaddr (p : Pfx) (f : FmtRM) (s : State) : Out :=
  alu (.capSetaddr p f) s fun _ x => ⟨some (bitsOf x.a.bits 48 80 ++ bitsOf x.c.dw 0 48), x.a.tag, 0⟩
def execCapIncaddr (p : Pfx) (f : FmtRM) (s : State) : Out :=
  alu (.capIncaddr p f) s fun _ x =>
    ⟨some (bitsOf x.a.bits 48 80 ++ (bitsOf x.a.bits 0 48 + x.c.w.signExtend 48)), x.a.tag, 0⟩
def execCapClrtag (p : Pfx) (f : FmtRM) (s : State) : Out :=
  alu (.capClrtag p f) s fun _ x => ⟨some x.a.bits, false, 0⟩
def execCbnd (p : Pfx) (f : FmtRRR) (s : State) : Out :=
  alu (.cbnd p f) s fun _ x => capOut (capBound f.x (Cap.ofVal x.a) x.b.dw.toNat)

end Sys2Proof.Machine
end

