-- ==== Sys2Proof/Machine/FloatWords.lean ====
section
/-!
DEFINITION. The floating-point words of 04: majors 0x20 to 0x2F.
-/

namespace Sys2Proof.Machine

open Sys2Proof

/-- The FP32 value of a source, negated by its prefix bit (04 R102). -/
def f32 (v : Val) (neg : Bool := false) : FloatVal := (unpack fp32 v.w.toNat).negateIf neg

/-- The prefix's negations of a, b and c. -/
def negA (p : Pfx) : Bool := p.any (·.na)
def negB (p : Pfx) : Bool := p.any (·.nb)
def negC (p : Pfx) : Bool := p.any (·.nc)

/-- A floating result as a lane's output. -/
def LaneOut.ofFloat (r : FloatRes) : LaneOut := ⟨some (BitVec.ofNat 128 r.bits), false, r.flags⟩

/-- One half of a packed operand (04 R113): lo or hi. -/
def halfVal (x : Bool) (v : Val) (hi neg : Bool) : FloatVal :=
  (unpack (halfFmt x) (if hi then v.w.toNat / 65536 else v.w.toNat % 65536)).negateIf neg

/-- A packed result of two halves; the flags are the OR of theirs (04 R113). -/
def packed (lo hi : FloatRes) : LaneOut := ⟨some (BitVec.ofNat 128 (lo.bits + 65536 * hi.bits)), false, lo.flags ||| hi.flags⟩

/-- An encoding with its sign inverted when asked, for operations that move encodings. -/
def flipSign (neg : Bool) (v : Val) : Nat := (if neg then v.w ^^^ 0x80000000 else v.w).toNat

def execFadd (p : Pfx) (f : FmtRRR) (s : State) : Out :=
  alu (.fadd p f) s fun e x => .ofFloat (floatAdd fp32 e (f32 x.a (negA p)) (f32 x.b (negB p)))
/-- `fsub` adds the negated b, whose NaN keeps its own sign (04 R102, R109). -/
def floatSub (e : FloatEnv) (a b : FloatVal) : FloatRes :=
  sumResult fp32 e.mode e.dn e.sat [a, b] [some a, some (b.negateIf true)]
def execFsub (p : Pfx) (f : FmtRRR) (s : State) : Out :=
  alu (.fsub p f) s fun e x => .ofFloat (floatSub e (f32 x.a (negA p)) (f32 x.b (negB p)))
def execFmul (p : Pfx) (f : FmtRRR) (s : State) : Out :=
  alu (.fmul p f) s fun e x => .ofFloat (floatMul fp32 e (f32 x.a (negA p)) (f32 x.b (negB p)))
def execFfma (p : Pfx) (f : FmtRRR) (s : State) : Out :=
  alu (.ffma p f) s fun e x =>
    .ofFloat (floatFma fp32 e (f32 x.a (negA p)) (f32 x.b (negB p)) (f32 x.c (negC p)))
def execFmin (p : Pfx) (f : FmtRRR) (s : State) : Out :=
  alu (.fmin p f) s fun e x => .ofFloat (floatMinMax e.dn false (flipSign (negA p) x.a) (flipSign (negB p) x.b))
def execFmax (p : Pfx) (f : FmtRRR) (s : State) : Out :=
  alu (.fmax p f) s fun e x => .ofFloat (floatMinMax e.dn true (flipSign (negA p) x.a) (flipSign (negB p) x.b))
def execFcmp (p : Pfx) (f : FmtCP) (s : State) : Out :=
  compareWord (.fcmp p f) s f.pd.toNat f.pc.toNat fun x =>
    floatCmp f.cond.toNat (f32 x.a (negA p)) (f32 x.b (negB p))

def execHadd2 (p : Pfx) (f : FmtRRR) (s : State) : Out :=
  alu (.hadd2 p f) s fun e x =>
    let h (hi : Bool) := floatAdd (halfFmt f.x) e (halfVal f.x x.a hi (negA p)) (halfVal f.x x.b hi (negB p))
    packed (h false) (h true)
def execHmul2 (p : Pfx) (f : FmtRRR) (s : State) : Out :=
  alu (.hmul2 p f) s fun e x =>
    let h (hi : Bool) := floatMul (halfFmt f.x) e (halfVal f.x x.a hi (negA p)) (halfVal f.x x.b hi (negB p))
    packed (h false) (h true)
def execHfma2 (p : Pfx) (f : FmtRRR) (s : State) : Out :=
  alu (.hfma2 p f) s fun e x =>
    let h (hi : Bool) := floatFma (halfFmt f.x) e (halfVal f.x x.a hi (negA p)) (halfVal f.x x.b hi (negB p))
      (halfVal f.x x.c hi (negC p))
    packed (h false) (h true)
def execDot2 (p : Pfx) (f : FmtRRR) (s : State) : Out :=
  alu (.dot2 p f) s fun e x =>
    let a (hi : Bool) := halfVal f.x x.a hi (negA p)
    let b (hi : Bool) := halfVal f.x x.b hi (negB p)
    .ofFloat (floatDot2 e (a false) (b false) (a true) (b true) (f32 x.c (negC p)))

/-- `fcvt`; NF also for a source that is not finite (04 R120). -/
def execFcvt (p : Pfx) (f : FmtRM) (s : State) : Out :=
  alu (.fcvt p f) s fun e x =>
    .ofFloat (convert e (bitsOf f.m 4 3).toNat (bitsOf f.m 1 3).toNat f.x x.a.dw.toNat)

/-- A word that moves an encoding with its sign changed: NF for a result that is not finite (04 R115). DEDUCED (log entry
129): with DN = 1 a NaN keeps its payload here too, as R115 says, though R105 speaks of every NaN result. -/
def signMove (n : Nat) : LaneOut := .ofFloat ⟨n, nonFinite fp32 n⟩

def execFabs (p : Pfx) (f : FmtRM) (s : State) : Out :=
  alu (.fabs p f) s fun _ x => signMove (x.a.w &&& 0x7FFFFFFF).toNat
def execFneg (p : Pfx) (f : FmtRM) (s : State) : Out :=
  alu (.fneg p f) s fun _ x => signMove (x.a.w ^^^ 0x80000000).toNat
def execFsqrt (p : Pfx) (f : FmtRM) (s : State) : Out := alu (.fsqrt p f) s fun e x => .ofFloat (floatSqrt e (f32 x.a))
def execFrint (p : Pfx) (f : FmtRM) (s : State) : Out := alu (.frint p f) s fun e x => .ofFloat (floatRint e x.a.w.toNat)
def execFrcp (p : Pfx) (f : FmtRM) (s : State) : Out := alu (.frcp p f) s fun e x => .ofFloat (floatRcp e (f32 x.a))
def execFsat (p : Pfx) (f : FmtRM) (s : State) : Out := alu (.fsat p f) s fun _ x => .ofFloat (floatSat01 x.a.w.toNat)

def execSfuRcp (p : Pfx) (f : FmtRM) (s : State) : Out := alu (.sfuRcp p f) s fun e x => .ofFloat (sfu 0 e.dn x.a.w.toNat)
def execSfuRsqrt (p : Pfx) (f : FmtRM) (s : State) : Out := alu (.sfuRsqrt p f) s fun e x => .ofFloat (sfu 1 e.dn x.a.w.toNat)
def execSfuExp2 (p : Pfx) (f : FmtRM) (s : State) : Out := alu (.sfuExp2 p f) s fun e x => .ofFloat (sfu 2 e.dn x.a.w.toNat)
def execSfuLog2 (p : Pfx) (f : FmtRM) (s : State) : Out := alu (.sfuLog2 p f) s fun e x => .ofFloat (sfu 3 e.dn x.a.w.toNat)
def execSfuSin (p : Pfx) (f : FmtRM) (s : State) : Out := alu (.sfuSin p f) s fun e x => .ofFloat (sfu 4 e.dn x.a.w.toNat)
def execSfuCos (p : Pfx) (f : FmtRM) (s : State) : Out := alu (.sfuCos p f) s fun e x => .ofFloat (sfu 5 e.dn x.a.w.toNat)
def execSfuTanh (p : Pfx) (f : FmtRM) (s : State) : Out := alu (.sfuTanh p f) s fun e x => .ofFloat (sfu 6 e.dn x.a.w.toNat)

def execFclass (p : Pfx) (f : FmtRM) (s : State) : Out :=
  alu (.fclass p f) s fun _ x =>
    let fm := cvtFmt f.m.toNat
    LaneOut.of (BitVec.ofNat 32 (floatClass fm (x.a.w.toNat % 2 ^ fm.width)))

def execFminNan (p : Pfx) (f : FmtRM) (s : State) : Out :=
  alu (.fminNan p f) s fun e x => .ofFloat (floatMinMaxNaN e.dn false (flipSign (negA p) x.a) (flipSign (negC p) x.c))
def execFmaxNan (p : Pfx) (f : FmtRM) (s : State) : Out :=
  alu (.fmaxNan p f) s fun e x => .ofFloat (floatMinMaxNaN e.dn true (flipSign (negA p) x.a) (flipSign (negC p) x.c))
def execFminmag (p : Pfx) (f : FmtRM) (s : State) : Out :=
  alu (.fminmag p f) s fun e x => .ofFloat (floatMinMaxMag e.dn false (flipSign (negA p) x.a) (flipSign (negC p) x.c))
def execFmaxmag (p : Pfx) (f : FmtRM) (s : State) : Out :=
  alu (.fmaxmag p f) s fun e x => .ofFloat (floatMinMaxMag e.dn true (flipSign (negA p) x.a) (flipSign (negC p) x.c))

/-- The global fibre id of a lane (01 R11). -/
def State.gfid (s : State) (g : Group) (lane : Nat) : Nat :=
  let bf := (s.launch? g.key.launch).elim 0 (·.bfibres)
  g.key.block * bf + g.key.idx * g.w + lane

/-- What `rand` writes of a Philox block (04 R123). -/
def randOut (m : Nat) (x : BitVec 128) : BitVec 128 :=
  match m with
  | 0 => (bitsOf x 0 32).setWidth 128
  | 1 => (bitsOf x 0 64).setWidth 128
  | 2 => x
  | _ => BitVec.ofNat 128 (roundTo fp32 .rne false false (bitsOf x 8 24).toNat (-24)).bits

/-- `rand`: each active lane draws and counts; a helper draws and does not count; a masked-off lane does neither
(04 R123 to R125). -/
def execRand (p : Pfx) (f : FmtRM) (s : State) : Out :=
  issueWord (.rand p f) s noCheck
    (fun x g s' => .done (s'.modGroup x.key fun g' =>
      let seed := ((s.launch? x.key.launch).elim 0 (·.seed)).toNat
      match x.desc.ops.head? with
      | none => g'
      | some o =>
        let g' := x.receiving.foldl (fun g' l =>
          let n := (g.lane? l).elim 0 (·.calls)
          g'.writeOpnd (some l) o ⟨randOut f.m.toNat (philox seed n.toNat (s.gfid g l)), false, false⟩) g'
        (g'.modLanes x.active fun l => { l with calls := l.calls + 1 }).zeroMasked x o))
    (fun e _ s' => s'.stopEngine e.id 3)

end Sys2Proof.Machine
end

