-- ==== Sys2Proof/Machine/CrossLane.lean ====
section
/-!
DEFINITION. The quad and group words of 05: shuffles, quad exchanges and derivatives, votes, matching, reductions,
scans and broadcast.
-/

namespace Sys2Proof.Machine

open Sys2Proof

/-- The value of an operand in the lane that supplies it: 0 in a free lane or where the register is dead (05 R128). DEDUCED (log
entry 131): the register is the one that the operand names in the supplying lane, by that lane's own window base, though the
lane may not issue. -/
def supply (s : State) (g : Group) (o : Opnd) (j : Nat) : Val :=
  match g.lane? j with
  | none => Val.zero
  | some l => if l.status == .free then Val.zero else readOpnd s g (some j) o

/-- The destinations of a cross-lane word: every receiving lane, or the group once (05 R127). -/
def crossUnits (x : Issue) (o : Opnd) : List (Option Nat) :=
  if isUni o.field then [none] else x.receiving.map some

/-- A `bcast.first` that no lane contributes to, with a vector destination (05 R142). -/
def firstOfNone (x : Issue) (o : Opnd) : Bool :=
  x.active.isEmpty && !isUni o.field && match x.instr with
    | .bcast _ f => f.imm == 0x1FF
    | _ => false

/-- The group after a cross-lane word whose result in a unit is `f`; every source is read before any write. A vector destination
of `bcast.first` with no contributing lane receives nothing (05 R142). -/
def Group.crossWrite (g : Group) (x : Issue) (f : Option Nat → Val × Flags) : Group :=
  match x.desc.ops.find? (fun o => o.role == .d && o.write) with
  | none => g
  | some o =>
    let outs := (if firstOfNone x o then [] else crossUnits x o).map fun u => (u, f u)
    let g := g.freeLast x
    let g := outs.foldl (fun g p => (g.writeOpnd p.1 o p.2.1).raiseFlags x p.1 p.2.2) g
    g.zeroMasked x o

/-- A cross-lane word: `f` gives each unit's result from the group as it stood. -/
def crossWord (i : Instr) (s : State) (f : Issue → Group → Opnd → Option Nat → Val × Flags) : Out :=
  issueWord i s noCheck
    (fun x g s' => .done (s'.modGroup x.key fun g' =>
      let a := (x.desc.opnd? .a).getD (src .a 0)
      g'.crossWrite x (f x g a)))
    (fun e _ s' => s'.stopEngine e.id 3)

/-- A word that moves a value: the lane that supplies each receiving lane. -/
def moveWord (i : Instr) (s : State) (from_ : Issue → Group → Nat → Nat) : Out :=
  crossWord i s fun x g a u => (supply s g a (from_ x g (u.getD 0)), 0)

/-! ### Shuffles (05 R132, R133) -/

/-- `shfl.idx`. DESIGN CHOICE (log entry 132): a poisoned selector b does not poison d; only the value moved does (05 R129). -/
def execShflIdx (p : Pfx) (f : FmtRRR) (s : State) : Out :=
  moveWord (.shflIdx p f) s fun x g i =>
    let k := (readRole s g x.desc (some i) .b).w.toNat
    if f.x then (if k < g.w then k else i) else k % g.w

/-- The source lane of `shfl.rel` (05 R133). -/
def relLane (imm : BitVec 9) (w i : Nat) : Nat :=
  let k := (bitsOf imm 0 7).toInt
  match (bitsOf imm 7 2).toNat with
  | 0 => (min (max ((i : Int) + k) 0) ((w : Int) - 1)).toNat
  | 1 => (((i : Int) + k) % (w : Int)).toNat
  | 2 => (i ^^^ (bitsOf imm 0 6).toNat) % w
  | _ =>
    let n := 2 ^ (bitsOf imm 0 3).toNat
    if n ≤ w then i ^^^ (n - 1) else w - 1 - i

def execShflRel (p : Pfx) (f : FmtRI) (s : State) : Out :=
  moveWord (.shflRel p f) s fun _ g i => relLane f.imm g.w i

/-! ### Quad exchanges and derivatives (05 R134, R135) -/

def execQswpH (p : Pfx) (f : FmtRM) (s : State) : Out := moveWord (.qswpH p f) s fun _ _ i => i ^^^ 1
def execQswpV (p : Pfx) (f : FmtRM) (s : State) : Out := moveWord (.qswpV p f) s fun _ _ i => i ^^^ 2
def execQswpD (p : Pfx) (f : FmtRM) (s : State) : Out := moveWord (.qswpD p f) s fun _ _ i => i ^^^ 3
def execQbc (p : Pfx) (f : FmtRM) (s : State) : Out :=
  moveWord (.qbc p f) s fun _ _ i => i / 4 * 4 + (bitsOf f.m 0 2).toNat

/-- The difference of two lanes' values (05 R135). -/
def derivative (i : Instr) (s : State) (bit : Nat) : Out :=
  crossWord i s fun x g a u =>
    let l := u.getD 0
    let hi := supply s g a (l ||| bit)
    let lo := supply s g a (if l.testBit (bit / 2) then l - bit else l)
    let r := floatSub { g.floatEnv x.pfx with sat := false } (f32 hi) (f32 lo)
    (⟨BitVec.ofNat 128 r.bits, false, hi.poison || lo.poison⟩, r.flags)

def execQddx (p : Pfx) (f : FmtRM) (s : State) : Out := derivative (.qddx p f) s 1
def execQddy (p : Pfx) (f : FmtRM) (s : State) : Out := derivative (.qddy p f) s 2

/-! ### Votes (05 R136) -/

/-- A vote: `f` gives the value from the voting lanes v, the contributing lanes c; `empty` with no contributing lane. -/
def voteWord (i : Instr) (fm : FmtRM) (s : State) (empty : Nat) (f : List Nat → List Nat → Nat) : Out :=
  crossWord i s fun x g _ _ =>
    let p := (bitsOf fm.a 0 4).toNat
    let v := x.active.filter fun l => (g.lane? l).any fun y => predBit y.preds p != fm.x
    let poison := x.active.any fun l => (g.lane? l).any fun y => bitOf y.predPoison p
    (⟨BitVec.ofNat 128 (if x.active.isEmpty then empty else f v x.active), false, poison⟩, 0)

/-- 1 or 0. -/
def oneIf (b : Bool) : Nat := if b then 1 else 0

def execVoteSome (p : Pfx) (f : FmtRM) (s : State) : Out :=
  voteWord (.voteSome p f) f s 0 fun v _ => oneIf (!v.isEmpty)
def execVoteEvery (p : Pfx) (f : FmtRM) (s : State) : Out :=
  voteWord (.voteEvery p f) f s 0 fun v c => oneIf (v.length == c.length)
def execVoteAgree (p : Pfx) (f : FmtRM) (s : State) : Out :=
  voteWord (.voteAgree p f) f s 0 fun v c => oneIf (v.isEmpty || v.length == c.length)
def execVoteMask (p : Pfx) (f : FmtRM) (s : State) : Out :=
  voteWord (.voteMask p f) f s 0 fun v _ => (maskOf v).toNat
def execVoteCount (p : Pfx) (f : FmtRM) (s : State) : Out :=
  voteWord (.voteCount p f) f s 0 fun v _ => v.length
def execVoteFirst (p : Pfx) (f : FmtRM) (s : State) : Out :=
  voteWord (.voteFirst p f) f s 0xFFFFFFFF fun v _ => v.head?.getD 0xFFFFFFFF
def execVoteLast (p : Pfx) (f : FmtRM) (s : State) : Out :=
  voteWord (.voteLast p f) f s 0xFFFFFFFF fun v _ => v.getLast?.getD 0xFFFFFFFF

/-! ### Matching (05 R137) -/

/-- What `match` writes in lane `i` from the set of contributing lanes whose value equals its own. -/
def matchOut (m : Nat) (i : Nat) (e : List Nat) : Nat :=
  if m ≤ 1 then (maskOf e).toNat
  else if m ≤ 3 then (if e.head? == some i then e.length else 0)
  else (e.filter (· < i)).length

def execMatch (p : Pfx) (f : FmtRM) (s : State) : Out :=
  crossWord (.matchF p f) s fun x g a u =>
    let i := u.getD 0
    let own := readOpnd s g (some i) a
    let vals := x.active.map fun l => (l, readOpnd s g (some l) a)
    let e := (vals.filter fun q => q.2.dw == own.dw).map (·.1)
    (⟨BitVec.ofNat 128 (matchOut f.m.toNat i e), false, own.poison || vals.any (fun q => q.2.poison)⟩, 0)

/-! ### Reductions and scans (05 R138 to R140) -/

/-- A node of the reduction tree: its value, the flags of the combines below it, its poison. -/
structure FoldNode where
  val : DWord
  flags : Flags
  poison : Bool
  deriving DecidableEq, Repr

/-- The identity of a reduction (05 R138). -/
def foldIdentity (m : Nat) : DWord :=
  match m with
  | 1 => 0x80000000
  | 2 => 0x7FFFFFFF
  | 3 => 0x80000000
  | 4 => 0xFFFFFFFF
  | 6 => 0xFFFFFFFF
  | 9 => 0x7F800000
  | 10 => 0xFF800000
  | _ => 0

/-- The operation of a reduction on two values, left operand first (05 R138, R139). DESIGN CHOICE (log entry 147): the identity
of `add.f32` is added like any value, so that under RDN a +0 beside it gives -0 (04 R101), though 05 R138 says that x + (-0.0) is
x in every rounding mode. -/
def foldOp (m : Nat) (e : FloatEnv) (a b : DWord) : DWord × Flags :=
  let a32 := bitsOf a 0 32
  let b32 := bitsOf b 0 32
  let w (x : Word) : DWord × Flags := (x.setWidth 64, 0)
  let fl (r : FloatRes) : DWord × Flags := (BitVec.ofNat 64 r.bits, r.flags &&& ~~~fNF)
  match m with
  | 0 => w (a32 + b32)
  | 1 => fl (floatAdd fp32 e (unpack fp32 a32.toNat) (unpack fp32 b32.toNat))
  | 2 => w (minMax true false a32 b32)
  | 3 => w (minMax true true a32 b32)
  | 4 => w (minMax false false a32 b32)
  | 5 => w (minMax false true a32 b32)
  | 6 => w (a32 &&& b32)
  | 7 => w (a32 ||| b32)
  | 8 => w (a32 ^^^ b32)
  | 9 => fl (floatMinMax e.dn false a32.toNat b32.toNat)
  | 10 => fl (floatMinMax e.dn true a32.toNat b32.toNat)
  | _ => (a + b, 0)

/-- Combines two nodes. -/
def foldCombine (m : Nat) (e : FloatEnv) (a b : FoldNode) : FoldNode :=
  let r := foldOp m e a.val b.val
  ⟨r.1, a.flags ||| b.flags ||| r.2, a.poison || b.poison⟩

/-- One level of the tree from the level below. -/
def foldPairs (m : Nat) (e : FloatEnv) : List FoldNode → List FoldNode
  | a :: b :: t => foldCombine m e a b :: foldPairs m e t
  | t => t

/-- The levels of the tree, leaves first: `n` levels above the leaves (05 R139). -/
def foldLevels (m : Nat) (e : FloatEnv) : Nat → List FoldNode → List (List FoldNode)
  | 0, l => [l]
  | n + 1, l => l :: foldLevels m e n (foldPairs m e l)

/-- The leaves: a contributing lane's value, every other lane the identity (05 R138). -/
def foldLeaves (s : State) (g : Group) (x : Issue) (a : Opnd) (m : Nat) : List FoldNode :=
  (List.range g.w).map fun l =>
    if x.active.contains l then
      let v := readOpnd s g (some l) a
      ⟨v.dw, 0, v.poison⟩
    else ⟨foldIdentity m, 0, false⟩

/-- NF for a value of a floating reduction (05 R139). -/
def foldNF (m : Nat) (v : DWord) : Flags :=
  if m == 1 || m == 9 || m == 10 then nonFinite fp32 (v.toNat % 2 ^ 32) else 0

def execRedg (p : Pfx) (f : FmtRM) (s : State) : Out :=
  crossWord (.redg p f) s fun x g a _ =>
    let m := f.m.toNat
    let lv := foldLevels m { g.floatEnv x.pfx with sat := false } g.w.log2 (foldLeaves s g x a m)
    let top := ((lv.getLast?.bind (·.head?))).getD ⟨0, 0, false⟩
    (⟨top.val.setWidth 128, false, top.poison⟩, top.flags ||| foldNF m top.val)

/-- The fold over lanes 0 to n - 1 from the tree's nodes, largest block first (05 R140). -/
def scanFold (m : Nat) (e : FloatEnv) (lv : List (List FoldNode)) (n : Nat) :
    Nat → Nat → Option FoldNode → Option FoldNode
  | 0, _, acc => acc
  | k + 1, start, acc =>
    if n.testBit k then
      let node := ((lv[k]?).bind (fun l => l[start / 2 ^ k]?)).getD ⟨0, 0, false⟩
      scanFold m e lv n k (start + 2 ^ k) (some (match acc with
        | none => node
        | some a => foldCombine m e a node))
    else scanFold m e lv n k start acc

def execScang (p : Pfx) (f : FmtRM) (s : State) : Out :=
  crossWord (.scang p f) s fun x g a u =>
    let m := f.m.toNat
    let e := { g.floatEnv x.pfx with sat := false }
    let lv := foldLevels m e g.w.log2 (foldLeaves s g x a m)
    let out (i : Nat) : FoldNode :=
      (scanFold m e lv (if f.x then i else i + 1) (g.w.log2 + 1) 0 none).getD ⟨foldIdentity m, 0, false⟩
    let r := out (u.getD 0)
    (⟨r.val.setWidth 128, false, r.poison⟩,
     x.receiving.foldl (fun fl i => let y := out i
                                    fl ||| y.flags ||| foldNF m y.val) 0)

/-! ### Broadcast (05 R141) -/

def execBcast (p : Pfx) (f : FmtRI) (s : State) : Out :=
  crossWord (.bcast p f) s fun x g a _ =>
    if f.imm == 0x1FF then
      (match x.active.head? with
        | some j => supply s g a j
        | none => Val.zero, 0)
    else (supply s g a f.imm.toNat, 0)

end Sys2Proof.Machine
end

