-- ==== Sys2Proof/Machine/Waits.lean ====
section
/-!
DEFINITION. What groups wait for: convergence registers (03 R80, R81), outstanding counters (10 R237), write failures
(06 R174), results that arrive later (01 R21, R22), the completion of instructions that park (01 R17), start slots
(10 R232), and barrier objects (10 R243, R244). `State.wake` lets everything go on whose wait has ended.
-/

namespace Sys2Proof.Machine

open Sys2Proof

/-! ### Lines on their way -/

/-- Lines that the loads of a core's groups have been answered with, or have asked the host or a peer for, and have not yet
read, are asked for again. -/
def State.dropFetches (s : State) (core : Nat) (stale : Nat → Bool) : State :=
  let s : State := { s with groups := s.groups.map fun g =>
    if g.core == core then { g with fetched := g.fetched.filter fun q => !stale (q.1 / 128) } else g }
  let old := s.fabric.remote.filter fun r => match r.for' with
    | .line g a => (s.group? g).any (fun y => y.core == core) && stale (a / 128)
    | _ => false
  if old.isEmpty then s
  else
    { s with
      fabric := { s.fabric with remote := s.fabric.remote.filter fun r => !old.any fun y => y.tag == r.tag }
      groups := s.groups.map fun g => { g with remote := g.remote.filter fun t => !old.any fun y => 2 * y.tag == t } }

/-- Invalidates every line of a core's L1; no line that was read before brings its old contents back (06 R164, 12 R281,
R282). -/
def State.invalL1 (s : State) (core : Nat) : State :=
  (s.modCore core fun c => { c with l1 := [] }).dropFetches core fun _ => true

/-! ### Convergence registers (03 R80, R81) -/

/-- A convergence register with no declared set (01 R30). -/
def CvReg.empty : CvReg := ⟨none, [], none, false⟩

/-- The slice of a group in an array. -/
def State.sliceOf (s : State) (g : Group) (arr : Nat) : Slice := (s.core g.core).slice arr g.column g.w

/-- Changes a group's slice and settles it. -/
def State.modSlice (s : State) (g : Group) (arr : Nat) (f : Slice → Slice) : State :=
  s.modCore g.core fun c => c.setSlice (f (c.slice arr g.column g.w)).settle

/-- Convergence register `n`. -/
def Group.cv (g : Group) (n : Nat) : CvReg := g.cvs[n]?.getD CvReg.empty

/-- Changes convergence register `n` of the eight. -/
def Group.modCv (g : Group) (n : Nat) (f : CvReg → CvReg) : Group :=
  { g with cvs := (List.range 8).map fun i => if i == n then f (g.cv i) else g.cv i }

/-- Every member of the declared set has signed, and at least one has. -/
def CvReg.complete (c : CvReg) : Bool :=
  match c.declared with
  | none => false
  | some m => !c.signed.isEmpty && m &&& ~~~maskOf (c.signed.map (·.1)) == 0

/-- The set is done: its parked members go on, and no member has signed (03 R81). -/
def Group.cvRelease (g : Group) (n : Nat) : Group :=
  let g : Group := { g with lanes := g.lanes.map fun l => if l.park == some (.cv n) then { l with park := none } else l }
  (g.modCv n fun c => { c with signed := [], op := none, queued := false }).wakeYield []

/-- Settles a set after a signature or an end: a plain set completes at once; a matrix operation is queued, and its
members stay parked until it issues (03 R81, 09 R212). -/
def Group.cvSettle (g : Group) (n : Nat) : Group :=
  let c := g.cv n
  if c.complete then
    match c.op with
    | none => g.cvRelease n
    | some _ => g.modCv n fun c => { c with queued := true }
  else g

/-- Signs a register in the issuing lanes: `op` is the matrix word, if it is one (03 R81, 09 R212). A plain signature leaves
the matrix word that another member has signed at: the operation then meets members that signed at different words. -/
def Group.cvSign (g : Group) (x : Issue) (n : Nat) (op : Option Instr) : Group :=
  let g := g.modLanes x.issuing fun l => { l with park := some (.cv n) }
  let g := g.modCv n fun c => { c with signed := c.signed ++ x.issuing.map (fun l => (l, x.pc)), op := op.orElse fun _ => c.op }
  (g.wakeYield []).cvSettle n

/-- Operations of a group whose sets are complete take their places in the orders of their slices (09 R210, R212). -/
def State.queueProducts (s : State) (k : GKey) : State :=
  match s.group? k with
  | none => s
  | some g =>
    (List.range 8).foldl (fun s n =>
      let c := g.cv n
      match if c.queued then c.op else none with
      | none => s
      | some i => (productArrays i).foldl (fun s arr =>
          if (s.sliceOf g arr).order.contains (.product k n) then s
          else s.modSlice g arr fun y => { y with order := y.order ++ [SliceOp.product k n] }) s) s

/-- The check of a signature: a lane outside the declared set traps ILLEGAL with the register's number (03 R81). -/
def cvSignCheck (g : Group) (n : Nat) (l : Nat) : Option UnitErr :=
  if (g.cv n).declared.any (fun m => bitOf m l) then none else some ⟨some l, tILLEGAL, BitVec.ofNat 64 n⟩

/-! ### Requests that wait in the hold queue (06 R150, 19 R381) -/

/-- Takes the number of a group's next request: its identity, and whether it is still to be sent. After a rollback, a
request that had left is not sent again (19 R380). -/
def State.claim (s : State) (k : GKey) : Nat × Bool × State :=
  match s.group? k with
  | none => (s.nextId, true, s)
  | some g =>
    let seq := g.seq + 1
    let s := s.modGroup k fun g => { g with seq := seq }
    match (s.core g.core).left.find? fun p => p.1 == k && p.2.1 == seq with
    | some p => (p.2.2, false, s)
    | none => (s.nextId, true, { s with nextId := s.nextId + 1 })

/-- The youngest `msc` with REL = 1 of a group that is not complete: later writes wait for it (12 R287). -/
def State.pendingRel (s : State) (k : GKey) : Option Nat :=
  ((s.mscs.filter fun m => m.rel && m.owner == .group k).getLast?).map (·.id)

/-- Puts the group's request number `seq` at the end of the hold queue. -/
def State.sendAs (s : State) (k : GKey) (id seq : Nat) (body : ReqBody) : State :=
  match s.group? k with
  | none => s
  | some g =>
    s.modCore g.core fun c =>
      { c with hold := c.hold ++ [⟨id, seq, k, s.clockOf g.core, s.pendingRel k, none, body⟩] }

/-- Puts a claimed request at the end of the hold queue. -/
def State.send (s : State) (k : GKey) (claimed : Nat × Bool) (body : ReqBody) : State :=
  match s.group? k with
  | none => s
  | some g => if claimed.2 then s.sendAs k claimed.1 g.seq body else s

/-! ### Counters (10 R237) -/

/-- The value of a counter. -/
def Group.count (g : Group) (c : Ctr) : Nat := (g.outst.filter fun o => o.ctr == c).length

/-- The counter stands at 63: an instruction that would raise it waits. -/
def Group.full (g : Group) (c : Ctr) : Bool := decide (63 ≤ g.count c)

/-- Counts an operation. -/
def Group.startOp (g : Group) (c : Ctr) (id : Nat) (done : Bool := false) : Group :=
  { g with outst := g.outst ++ [{ ctr := c, id := id, done := done }] }

/-- Counts a write to the core's own local memory, which is complete when it is past the Shadow window (06 R170). -/
def Group.startAged (g : Group) (id now : Nat) : Group :=
  { g with outst := g.outst ++ [{ ctr := .st, id := id, done := false, due := some (now + Config.shadowWindow) }] }

/-- Operations retire in the order of issue of their class. -/
def retireOps (os : List Outst) : List Outst :=
  os.foldl (fun kept o => if o.done && !kept.any (fun k => k.ctr == o.ctr) then kept else kept ++ [o]) []

/-- An operation is complete. -/
def Group.endOp (g : Group) (id : Nat) : Group :=
  { g with outst := retireOps (g.outst.map fun o => if o.id == id then { o with done := true } else o) }

/-- Writes to the core's own local memory that are past the Shadow window are complete. -/
def Group.ageOps (g : Group) (now : Nat) : Group :=
  if g.outst.any fun o => o.due.any (· ≤ now) then
    { g with outst := retireOps (g.outst.map fun o => if o.due.any (· ≤ now) then { o with done := true, due := none } else o) }
  else g

/-- Records a write failure against a group; a group that has ended cannot trap, so its launch aborts (06 R174). -/
def State.recordFail (s : State) (k : GKey) (f : FailRec) : State :=
  match s.group? k with
  | some _ => s.modGroup k fun g => { g with fails := g.fails ++ [f] }
  | none => s.abortLaunch k.launch ⟨3, 0, 0, f.addr.toNat⟩

/-- Records a failed access to a peer: its cause is REMFAULT, a timeout's too (22 R430). -/
def State.recordFabFail (s : State) (k : GKey) (f : FailRec) : State :=
  let f : FailRec := { f with code := tREMFAULT }
  match s.group? k with
  | some _ => s.modGroup k fun g => { g with fabFails := g.fabFails ++ [f] }
  | none => s.abortLaunch k.launch ⟨3, 0, 0, f.addr.toNat⟩

/-! ### Results that arrive later (01 R21, R22) -/

/-- Fills the pending write `id` of a register, a lane's own or one that it shares with its parent `src` (01 R12): the list of
writes, and whether the value reaches the register itself (no later write of the run stands before it). -/
def settleWrite (lane src : Option Nat) (reg id : Nat) (r : Reg) : List RunWrite → List RunWrite × Bool
  | [] => ([], false)
  | w :: t =>
    if w.lane == lane && w.reg == reg then
      if w.pending == some id && w.src == src then ({ w with pending := none } :: t, true)
      else
        let q := settleWrite lane src reg id r t
        if q.2 then ({ w with old := some r } :: q.1, false) else (w :: q.1, false)
    else
      let q := settleWrite lane src reg id r t
      (w :: q.1, q.2)

/-- A result of instruction `id` arrives in one register, given by its absolute number; `u` is none for a uniform one, `src` the
parent that a lane shares it with. -/
def Group.answerOne (g : Group) (id : Nat) (u src : Option Nat) (reg : Nat) (r : Reg) : Group :=
  let q := settleWrite u src reg id r g.written
  let g := { g with written := q.1 }
  if q.2 then
    match u with
    | none => { g with s := g.s.put reg r }
    | some l => g.modLane l fun y => { y with v := y.v.put reg r }
  else g

/-- A result of instruction `id` arrives in a register, and in the lanes of children that share it (01 R12, R26). -/
def Group.answer (g : Group) (id : Nat) (u : Option Nat) (reg : Nat) (r : Reg) : Group :=
  let shared := g.written.filter fun w => w.pending == some id && w.reg == reg && w.src.isSome && w.src == u
  (shared.map (·.lane)).foldl (fun g v => g.answerOne id v u reg r) (g.answerOne id u none reg r)

/-- Results of several registers. -/
def Group.answers (g : Group) (id : Nat) (u : Option Nat) (reg : Nat) (rs : List Reg) : Group :=
  rs.zipIdx.foldl (fun g p => g.answer id u (reg + p.2) p.1) g

/-- A write of the run that is no more: no lane has it. -/
def RunWrite.void (w : RunWrite) : RunWrite := { w with lane := some 64, pending := none, src := none }

/-- Parks the issuing lanes for the completion of an instruction (01 R17). -/
def Group.parkOp (g : Group) (x : Issue) (op : PendOp) : Group :=
  ({ g.modLanes x.issuing (fun l => { l with park := some (.await op.id) }) with pend := g.pend ++ [op] } : Group).wakeYield []

/-- A pending instruction with nothing filled in. -/
def pendOf (x : Issue) (id : Nat) (args : List Word) : PendOp :=
  { id := id, lanes := maskOf x.issuing, pc := x.pc, instr := x.instr, args := args, dst := [], acks := [], deadline := none,
    issued := 0, seq := 0, sent := false, ready := false }

/-- A word that waits at a barrier object: it completes as though no trap had been taken (01 R32). -/
def waitsAtObject (i : Instr) : Bool :=
  match i with
  | .baroWait _ => true
  | .baroAw _ => true
  | _ => false

/-- The instruction is complete: its fibres go on, those that stayed out of the group's handler only after `rtt`, but for a
wait at a barrier object (01 R32). -/
def Group.finishOp (g : Group) (id : Nat) : Group :=
  let always := g.pend.any fun p => p.id == id && waitsAtObject p.instr
  ({ g with
      pend := g.pend.filter fun p => p.id != id
      lanes := g.lanes.map fun l =>
        if l.park == some (.await id) then
          { l with park := if g.handler && l.outside && !always then some .untilRtt else none }
        else l } : Group).wakeYield []

/-- An answer comes for a request that had left before a rollback, and whose word the group has yet to issue again: it is
kept for that word (19 R380). None when the group waits for the answer. A pending instruction without lanes stands for
such a word, so that a broadcast's acknowledgements are counted on. -/
def State.earlyAnswer (s : State) (k : GKey) (id : Nat) (vals : List (Nat × List Reg × Bool)) : Option State :=
  match s.group? k with
  | none => none
  | some g =>
    let early := match g.pend.find? fun p => p.id == id with
      | some op => op.lanes == 0
      | none => (s.core g.core).left.any fun p => p.1 == k && p.2.2 == id
    if !early then none
    else
      let redo := if g.redo.any fun r => r.op == some id then
          g.redo.map fun r => if r.op == some id then { r with vals := r.vals ++ vals } else r
        else g.redo ++ [⟨k, s.clockOf g.core, 0, some id, vals⟩]
      some (s.modGroup k fun g => { g with redo := redo, pend := g.pend.filter fun p => p.id != id })

/-- A word whose request goes to another unit and waits out the Shadow window: its results come later in `dsts`
(unit, field, registers), and its fibres park if `park`. After a rollback, results that had come are taken again
(19 R380, R381). -/
def unitRequest (x : Issue) (g : Group) (s : State) (dsts : List (Option Nat × Nat × Nat)) (args : List Reg)
    (laneArgs : List (Nat × Reg)) (park : Bool) (ctr : Option Ctr := none) : State :=
  let (id, send, s) := s.claim x.key
  match g.redoOp? id with
  | some r =>
    (s.modGroup x.key fun g' =>
      (dsts.zip r.vals).foldl (fun g' p => g'.writeRegs p.1.1 p.1.2.1 p.2.2.1 false) (g'.dropRedoOp id)).rememberRet g r
  | none =>
    let s := s.modGroup x.key fun g' =>
      let begun := (g.pend.find? fun p => p.id == id).getD (pendOf x id [])
      let op := { pendOf x id begun.args with
        dst := dsts.map (fun d => (d.1, g.regNum d.1 d.2.1)), issued := s.clockOf g.core, acks := begun.acks }
      let g' := { g' with pend := g'.pend.filter fun p => p.id != id }
      let g' := dsts.foldl (fun g' d => g'.writeRegs d.1 d.2.1 (List.replicate d.2.2 ⟨0, false⟩) false (some id)) g'
      let g' := match ctr with
        | some c => if send then g'.startOp c id else g'
        | none => g'
      if park then g'.parkOp x op else { g' with pend := g'.pend ++ [op] }
    s.send x.key (id, send) (.unit x.instr args laneArgs)

/-- The unit answers: results are written and remembered, and the instruction is complete. -/
def State.answerUnit (s : State) (k : GKey) (id : Nat) (vals : List (List Reg)) : State :=
  match s.earlyAnswer k id (vals.map fun v => (0, v, false)), s.group? k with
  | some s, _ => s
  | _, none => s
  | none, some g =>
    match g.pend.find? fun p => p.id == id with
    | none => s
    | some op =>
      (s.modGroup k fun g' =>
        ((op.dst.zip vals).foldl (fun g' p => g'.answers id p.1.1 p.1.2 p.2) g').finishOp id).rememberOp g op
          (vals.map fun v => (0, v, false))

/-- The fibres of a pending instruction. -/
def PendOp.fibres (op : PendOp) : List Nat := (List.range 64).filter fun l => bitOf op.lanes l

/-- A parked instruction traps precisely at its own word, in the fibres of a list: it and the words of its run that have issued
since have no effect (01 R31, 06 R174, 10 R239, 16 R339). -/
def State.trapPendIn (s : State) (k : GKey) (op : PendOp) (code : BitVec 8) (tval : BitVec 64) (mask : List Nat) : State :=
  let s := (s.undoRun k op.pc op.lanes).modGroup k fun g =>
    { g with
      pend := g.pend.filter fun p => p.id != op.id
      written := g.written.map fun w => if w.pending == some op.id then w.void else w
      lanes := g.lanes.map fun l => if l.park == some (.await op.id) then { l with park := none, pc := op.pc } else l }
  s.takeTrap k op.pc ⟨code, tval, mask⟩

/-- A parked instruction traps in all its fibres: a cause of the word as a whole. -/
def State.trapPend (s : State) (k : GKey) (op : PendOp) (code : BitVec 8) (tval : BitVec 64) : State :=
  s.trapPendIn k op code tval op.fibres

/-- The number that stands for requests whose soft step a peer performs, among the homes of requests. -/
def farHome : Nat := 512

/-- The home's request that an access to the host or a peer carries: a write or atomic, or a soft step that a peer performs. -/
def State.forwarded (s : State) (r : Remote) : Option HomeReq :=
  match r.for' with
  | .req q => some q
  | .op id key => s.homes.find? fun q => q.id == id && q.home == farHome && match q.body with
      | .soft _ _ _ (l :: _) => decide (l.addr ≤ key) && decide (key < l.addr + 4 * l.n * l.k)
      | _ => false
  | _ => none

/-- A check outside the core fails for a pending instruction: its failure is kept in place of what had answered it, and it traps
(19 R378). -/
def State.failPend (s : State) (k : GKey) (op : PendOp) (code : BitVec 8) (tval : BitVec 64) (mask : List Nat) : State :=
  match s.group? k with
  | none => s
  | some g =>
    let own (r : Ret) : Bool := r.group == k &&
      (r.op == some op.id || (r.op.isNone && r.pc == op.pc && r.cycle == op.issued))
    let s := s.modCore g.core fun c => { c with record := c.record.filter fun r => !own r }
    (s.rememberOnce g op ((⟨code, tval, mask⟩ : TrapInfo).kept g.seq)).trapPendIn k op code tval mask

/-- Nothing of request `id` is still on its way to a home, at the host or a peer, or back. -/
def State.allAnswered (s : State) (id : Nat) : Bool :=
  !(s.homes.any fun r => r.id == id) && !(s.replies.any fun r => r.id == id) &&
  !(s.fabric.remote.any fun r => match r.for' with
    | .req q => q.id == id
    | .op i _ => i == id
    | _ => false)

/-- Lanes of a parked request have failed at the host or a peer, and every other is answered: the lowest code is the cause, the
lanes that raise it are in TMASK, and the lowest of them gives TVAL; a word that executes once has one unit (01 R31, 22 R429). -/
def State.settleFails (s : State) (k : GKey) (id : Nat) : State :=
  match (s.group? k).bind fun g => (g.pend.find? fun p => p.id == id).map fun op => (g, op) with
  | none => s
  | some (g, op) =>
    match op.fails with
    | [] => s
    | f :: t =>
      if !s.allAnswered id then s
      else
        let code := t.foldl (fun c y => if y.2.1.toNat < c.toNat then y.2.1 else c) f.2.1
        let those := op.fails.filter fun y => y.2.1 == code
        let lanes := (List.range 64).filter fun l =>
          bitOf op.lanes l && ((describe g.w op.instr).once || those.any fun y => y.1 == l)
        let tval := (lanes.findSome? fun l => those.find? fun y => y.1 == l).or those.head? |>.elim 0 (·.2.2)
        let s := (s.modCore g.core fun c => { c with slotsUsed := c.slotsUsed.filter (· != id) }).modGroup k fun g =>
          { g with remote := g.remote.filter (· != 2 * id + 1) }
        s.failPend k op code (BitVec.ofNat 64 tval) lanes

/-- Wakes fibres whose barrier, convergence wait or other park has ended. -/
def Group.unparkIf (g : Group) (p : Park → Bool) : Group :=
  ({ g with lanes := g.lanes.map fun l => if l.park.any p then { l with park := none } else l } : Group).wakeYield []

/-! ### Start slots (10 R232) -/

/-- A slot's status word: 2 when it was never started. -/
def Group.slotStatus (g : Group) (n : Nat) : Word := (g.slots[n]?.getD ⟨2, none⟩).status

/-- The status is final. -/
def finalStatus (w : Word) : Bool := bitsOf w 0 8 != 0

/-- A status that acquires the program's writes. -/
def acquiringStatus (w : Word) : Bool :=
  let c := (bitsOf w 0 8).toNat
  c == 1 || (decide (3 ≤ c) && decide (c ≤ 6))

/-! ### Local memory as a group's words reach it (06 R143 to R148, 11 R257) -/

/-- The block of a group. -/
def State.blockOf (s : State) (k : GKey) : Option Block := s.block? k.launch k.block

/-- The band of a block, which may outlive it (10 R253). -/
def State.bandOfBlock (s : State) (launch block : Nat) : Option Band :=
  (s.launch? launch).bind fun l => s.band? launch (block / l.band)

/-- The band of a group. -/
def State.bandOf (s : State) (k : GKey) : Option Band := s.bandOfBlock k.launch k.block

/-- Where a block-local address lies. -/
inductive Place where
  /-- the block's own local memory, at a physical offset; whether it lies in the partner core's half -/
  | localMem (off : Nat) (partner : Bool)
  /-- the band's cluster memory -/
  | cluster (off : Nat)
  deriving DecidableEq, Repr

/-- The physical offset of the skew view (06 R148). -/
def skewOffset (x : Nat) : Nat :=
  let r := x / 64 % 16
  let c := x / 4 % 16
  x / 1024 * 1024 + 64 * r + 4 * ((r + c) % 16) + x % 4

/-- The check of 06 R144 on `size` bytes at a block-local address. -/
def localOk (len clen a size : Nat) : Bool :=
  let off := a % 2 ^ 30
  let g := a.testBit 30
  let k := a.testBit 31
  if k && g then false
  else if g then decide (off + size ≤ clen)
  else decide (off + size ≤ len) && (!k || decide (off / 1024 * 1024 + 1024 ≤ len))

/-- A block's LEN and its band's CLEN. -/
def State.localLimits (s : State) (launch block : Nat) : Nat × Nat :=
  match s.block? launch block with
  | none => (s.launch? launch).elim (0, 0) fun l => (l.localLen, l.clen)
  | some b => (b.len, (s.band? launch b.band).elim 0 (·.clen))

/-- The place of a block-local address for a core of the block. -/
def placeOf (b : Block) (core a : Nat) : Place :=
  let off := a % 2 ^ 30
  if a.testBit 30 then .cluster off
  else
    let off := if a.testBit 31 then skewOffset off else off
    .localMem off (b.core2.isSome && ((core == b.core) != decide (off < b.split)))

/-- The LocalMem of a place. -/
def State.placeMem (s : State) (launch block : Nat) (p : Place) : LocalMem :=
  match p with
  | .localMem .. => (s.block? launch block).elim LocalMem.empty (·.mem)
  | .cluster _ => (s.bandOfBlock launch block).elim LocalMem.empty (·.mem)

/-- The offset of a place. -/
def Place.off : Place → Nat
  | .localMem o _ => o
  | .cluster o => o

/-- Writes the memory of a place. -/
def State.setPlaceMem (s : State) (launch block : Nat) (p : Place) (f : LocalMem → LocalMem) : State :=
  match p with
  | .localMem .. => s.modBlock launch block fun b => { b with mem := f b.mem }
  | .cluster _ =>
    match s.bandOfBlock launch block with
    | none => s
    | some b => s.modBand launch b.index fun d => { d with mem := f d.mem }

/-! ### Pending instructions that end by themselves -/

/-- Two ranges overlap. -/
def overlaps (a : Nat × Nat) (b n : Nat) : Bool := decide (a.1 < b + n) && decide (b < a.1 + a.2)

/-- A local write of the partner core's own agents that is not yet 256 cycles old keeps a read from outside waiting
(19 R382); and so does a test of that core's local memory (R392). -/
def State.youngLocal (s : State) (core launch block a n : Nat) : Bool :=
  s.localTested core || (s.core core).undo.any fun u => u.launch == launch && u.block == block && !u.outside &&
    overlaps (u.addr, u.new.length) a n && decide (s.clockOf core < u.cycle + Config.shadowWindow)

/-- The partner core of a two-core block. -/
def Block.otherCore (b : Block) (core : Nat) : Nat := if core == b.core then b.core2.getD b.core else b.core

/-- A read of `n` bytes at a place by a group of a core waits: for a partner's write that a rollback could undo, or for a test of the
local memory (19 R382, R392). -/
def State.localWaits (s : State) (b : Block) (core : Nat) (k : GKey) (p : Place) (n : Nat) : Bool :=
  match p with
  | .localMem off true => s.youngLocal (b.otherCore core) k.launch k.block off n
  | .localMem _ false => s.localTested core
  | .cluster _ => false


/-- The phase of the object at `addr` differs from `was`, as a waiter of `core` sees it (10 R244); a half of the partner
core shows no write that a rollback could undo, and a local memory under test shows nothing (19 R382, R392). -/
def State.phaseMoved (s : State) (k : GKey) (core addr : Nat) (was : Word) : Bool :=
  match s.blockOf k with
  | none => false
  | some b =>
    let p := placeOf b core addr
    !s.localWaits b core k p 4 && bytesNat ((s.placeMem k.launch k.block p).readN p.off 4) != was.toNat

/-- Everything that left the core before the release and must be acknowledged is acknowledged (12 R280). -/
def State.acksDone (s : State) (op : PendOp) : Bool :=
  !op.acks.any fun a => s.inflight.any fun i => i.id == a

/-- Host or peer accesses that are not yet answered, of the group's writes and of those that had left its core before
the release `acks` (06 R164, 12 R280 e, R295). -/
def State.awaitsRemote (s : State) (k : GKey) (acks : List Nat) (host : Bool) : Bool :=
  s.fabric.remote.any fun r => r.host == host && (s.forwarded r).any fun q => q.group == k || acks.contains q.id

/-- Writes that have left a core's hold queue, its groups' and its engine programs', and are not acknowledged, by their homes
or by the host or a peer (12 R280 b, c, e). -/
def State.leftWrites (s : State) (core : Nat) : List Nat :=
  (s.inflight.filter fun y => y.core == core).map (·.id) ++
    s.fabric.remote.filterMap fun r => ((s.forwarded r).filter fun q => q.core == core).map (·.id)

/-- The waits of a release of a scope (06 R164). -/
def State.releaseReady (s : State) (g : Group) (op : PendOp) (scope : Nat) : Bool :=
  scope == 0 ||
  (g.count .st == 0 && s.acksDone op &&
    (scope != 4 || !s.awaitsRemote g.key op.acks true) &&
    (scope != 5 || !s.awaitsRemote g.key op.acks false) &&
    (scope != 6 || g.count .ms == 0))

/-- The failure a release, `fence xpath` or barrier arrival reports: the earliest record (06 R174, 22 R430). -/
def Group.failure (g : Group) (fab : Bool) : Option FailRec :=
  match g.fails with
  | f :: _ => some f
  | [] => if fab then g.fabFails.head? else none

/-- Taking the trap clears the records. -/
def Group.clearFails (g : Group) : Group :=
  if g.fails.isEmpty then { g with fabFails := [] } else { g with fails := [] }

/-- The completion of a release: its failure traps at its word, or it is done and `after` follows. -/
def State.finishRelease (s : State) (k : GKey) (op : PendOp) (fab : Bool) (after : State → State) : State :=
  match s.group? k with
  | none => s
  | some g =>
    match g.failure fab with
    | some f => (s.modGroup k Group.clearFails).trapPend k op f.code f.addr
    | none => after s

/-- A fence: its scope, and whether it releases and acquires. -/
def fenceParts (i : Instr) : Option (Nat × Bool × Bool) :=
  match i with
  | .fenceAcq f => some (f.scope.toNat, false, true)
  | .fenceRel f => some (f.scope.toNat, true, false)
  | .fenceAr f => some (f.scope.toNat, true, true)
  | .fenceXpath _ => some (1, true, true)
  | _ => none

/-- The counter and bound of `waitc`, and whether it acquires (10 R238). -/
def waitcParts (cls : BitVec 3) : Ctr × Bool :=
  match cls.toNat with
  | 0 => (.st, false)
  | 1 => (.ce, true)
  | 2 => (.ge, true)
  | 3 => (.me, false)
  | 4 => (.ke, true)
  | _ => (.ms, true)

/-- The arrival step at a barrier object: PHASE as it stood, and the object after it (10 R244). -/
def baroArrive (obj : BitVec 128) (mst : BitVec 4) : Word × BitVec 128 :=
  let phase : Word := bitsOf obj 0 32
  let pending : Word := bitsOf obj 32 32 - 1
  let status : Word := bitsOf obj 64 32 ||| mst.setWidth 32
  let expect : Word := bitsOf obj 96 32
  if pending == 0 then (phase, expect ++ status ++ expect ++ (phase + 1)) else (phase, expect ++ status ++ pending ++ phase)

/-- Changes a pending instruction. -/
def Group.modPend (g : Group) (id : Nat) (f : PendOp → PendOp) : Group :=
  { g with pend := g.pend.map fun p => if p.id == id then f p else p }

/-- The arrival of a `baro` whose release is done goes to the hold queue, once (10 R244, 19 R381). -/
def State.sendArrival (s : State) (k : GKey) (g : Group) (op : PendOp) : State :=
  if op.sent || !s.releaseReady g op 1 then s
  else
    s.finishRelease k op false fun s =>
      (s.modGroup k fun g => g.modPend op.id fun p => { p with sent := true }).sendAs k op.id op.seq
        (.unit op.instr (op.args.map fun w => ⟨w, false⟩) [])

/-- A pending instruction goes on when its wait has ended; `ready` marks one whose other unit has answered. -/
def State.pollOp (s : State) (k : GKey) (op : PendOp) : State :=
  match s.group? k with
  | none => s
  | some g =>
    let done (s : State) : State := s.modGroup k fun g => g.finishOp op.id
    match op.instr with
    | .waitc f =>
      let (c, acq) := waitcParts f.cls
      if g.count c ≤ f.b.toNat then done (if acq then s.invalL1 g.core else s) else s
    | .rdv f =>
      let st := g.slotStatus f.id.toNat
      if finalStatus st then
        let s := s.modGroup k fun g =>
          (op.dst.foldl (fun (g : Group) d => g.answer op.id d.1 d.2 ⟨st, false⟩) g).finishOp op.id
        if acquiringStatus st then s.invalL1 g.core else s
      else s
    | .baroArrive _ => s.sendArrival k g op
    | .baroWait _ =>
      if s.phaseMoved k g.core (op.args[0]?.getD 0).toNat (op.args[1]?.getD 0) then done (s.invalL1 g.core) else s
    | .baroAw _ =>
      if op.ready then
        if s.phaseMoved k g.core (op.args[0]?.getD 0).toNat (op.args[1]?.getD 0) then done (s.invalL1 g.core) else s
      else s.sendArrival k g op
    | i =>
      match fenceParts i with
      | none => if op.ready then done s else s
      | some (scope, rel, acq) =>
        if !rel || s.releaseReady g op scope then
          let finish (s : State) : State := done (if acq && scope != 0 then s.invalL1 g.core else s)
          if rel && scope != 0 then s.finishRelease k op (scope == 5) finish else finish s
        else s

/-- Every pending instruction of a group whose wait has ended goes on. -/
def State.pollGroup (s : State) (k : GKey) : State :=
  match s.group? k with
  | none => s
  | some g => g.pend.foldl (fun s op => if (s.group? k).any (fun g => g.pend.any fun p => p.id == op.id) then s.pollOp k op else s) s

/-- Everything whose wait has ended goes on, and words held back are tried again. -/
def State.wake (s : State) : State := (s.groups.foldl (fun s g => s.pollGroup g.key) s).releaseHeld

end Sys2Proof.Machine
end

