-- ==== Sys2Proof/Machine/Control.lean ====
section
/-!
DEFINITION. Control and system words of 03: special registers, transfers of control, fibres, convergence, the
window, traps and services.
-/

namespace Sys2Proof.Machine

open Sys2Proof

/-- The target of an offset in words (02 R38). -/
def wordTarget {w : Nat} (pc : Word) (off : BitVec w) : Word := pc + (off.signExtend 32 <<< 2)

/-- Consumption of a poisoned predicate as a guard (03 R59, 19 R385). -/
def guardPoison (p : Nat) : Issue → Group → Option Nat → Option UnitErr := fun _ g u =>
  match u.bind g.lane? with
  | some l => if bitOf l.predPoison p then some ⟨u, tPOISON, 0x100 + BitVec.ofNat 64 p⟩ else none
  | none => none

/-! ### Special registers (03 R72 to R74) -/

/-- The value of a special register in a lane (none: read once for the group), with its width above 32 bits. -/
def specialValue (s : State) (g : Group) (u : Option Nat) (m : Nat) : Nat :=
  let l := u.getD 0
  let lane := g.lane? l
  let launch := s.launch? g.key.launch
  match m with
  | 0x00 => l
  | 0x01 => l / 4
  | 0x02 => g.key.idx
  | 0x03 => g.key.block
  | 0x04 => launch.elim 0 (·.nblocks)
  | 0x05 => g.w
  | 0x06 => launch.elim 0 (·.bfibres)
  | 0x07 => g.core % 4
  | 0x08 => g.core / 4 % 16
  | 0x09 => dieOfCore g.core
  | 0x0A => g.key.launch
  | 0x0B => s.gfid g l
  | 0x0C => s.clockOf g.core
  | 0x0D => launch.elim 0 (·.seed.toNat)
  | 0x0E => lane.elim 0 (·.fpsr.toNat)
  | 0x0F => g.fpcr.toNat
  | 0x10 => g.tcause.toNat
  | 0x11 => g.tval.toNat
  | 0x12 => lane.elim 0 (·.tpc.toNat)
  | 0x13 => g.tmask.toNat
  | 0x14 => g.msr.toNat
  | 0x15 => Config.feat0.toNat
  | _ => 0

/-- A write of FPCR with a reserved rounding mode traps ILLEGAL with the written value (03 R73). -/
def movsCheck (s : State) (f : FmtRM) : Issue → Group → Option Nat → Option UnitErr := fun x g u =>
  if f.x && f.m == 0x0F then
    let v := (readRole s g x.desc u .a).w
    if 6 ≤ (bitsOf v 0 3).toNat then some ⟨u, tILLEGAL, v.setWidth 64⟩ else none
  else none

/-- The bits of FPCR that `movs` writes (04 R105). -/
def fpcrMask : BitVec 5 := 0x17

/-- The bits of MSR that `movs` writes (09 R222). -/
def msrMask : Word := 0x00FFFE0F

/-- `movs` reads a special register, or writes fpsr, fpcr or msr at the drain (03 R72, R73). DESIGN CHOICE (log entry 146): a
poisoned source is no consumption there, and those registers hold no poison: the value is taken. -/
def execMovs (f : FmtRM) (s : State) : Out :=
  issueWord (.movs f) s (movsCheck s f)
    (fun x g s' =>
      if f.x then
        .done (s'.modGroup x.key fun g' =>
          let g' := g'.freeLast x
          let val (u : Option Nat) : Word := (readRole s g x.desc u .a).w
          match f.m.toNat with
          | 0x0E =>
            let one (g' : Group) (l : Nat) (v : Word) : Group :=
              g'.modLane l fun y => { y with fpsrWrite := some (bitsOf v 0 7) }
            if x.once then x.receiving.foldl (fun g' l => one g' l (val none)) g'
            else x.receiving.foldl (fun g' l => one g' l (val (some l))) g'
          | 0x0F => { g' with fpcrWrite := some (bitsOf (val none) 0 5 &&& fpcrMask) }
          | _ => { g' with msrWrite := some (val none &&& msrMask) })
      else
        match x.desc.opnd? .d with
        | none => .done s'
        | some o =>
          let units := if x.once then [none] else x.receiving.map some
          if f.m == 0x0C then
            match g.redo? x.pc with
            | some r =>
              let s' := s'.modGroup x.key fun g' =>
                let rs := (r.vals.head?.elim [] (·.2.1))
                units.foldl (fun g' u => g'.writeRegs u o.field.toNat rs false) (g'.dropRedo x.pc)
              .done (s'.remember g x.pc r.vals)
            | none =>
              let v := specialValue s g none 0x0C
              let s' := s'.modGroup x.key fun g' =>
                units.foldl (fun g' u => g'.writeOpnd u o ⟨BitVec.ofNat 128 v, false, false⟩) g'
              .done (s'.remember g x.pc [(0, (⟨BitVec.ofNat 128 v, false, false⟩ : Val).toRegs 2, false)])
          else
            .done (s'.modGroup x.key fun g' =>
              units.foldl (fun g' u =>
                g'.writeOpnd u o ⟨BitVec.ofNat 128 (specialValue s g u f.m.toNat), false, false⟩) g'))
    noEngine

/-! ### Transfers of control (03 R75 to R77) -/

/-- `bra`: the fibres in which it is taken go to its target (02 R38, 03 R75). -/
def execBra (f : FmtBR) (s : State) : Out :=
  issueWord (.bra f) s (guardPoison f.p.toNat)
    (fun x g s' => .done (s'.modGroup x.key fun g' =>
      let taken := x.issuing.filter fun l => (g.lane? l).any fun y => predBit y.preds f.p.toNat != f.n
      g'.modLanes taken fun l => { l with pc := wordTarget x.pc f.off }))
    (fun e _ s' =>
      if bitOf e.predPoison f.p.toNat then s'.engineConsume e (0x100 + f.p.toNat)
      else s'.modEngine e.id fun e' =>
        let e' := e'.advance (.bra f)
        if predBit e.preds f.p.toNat != f.n then { e' with pc := wordTarget e.pc f.off } else e')

/-- `call`: d receives the address after the word, and the fibres go to the target (03 R76). -/
def execCall (f : FmtRL) (s : State) : Out :=
  issueWord (.call f) s noCheck
    (fun x _ s' => .done (s'.modGroup x.key fun g' =>
      let g' := x.receiving.foldl (fun g' l => g'.writeRegs (some l) f.d.toNat [⟨x.pc + 4, false⟩] false) g'
      g'.modLanes x.issuing fun l => { l with pc := wordTarget x.pc f.imm }))
    noEngine

/-- `jr`: each fibre goes to its own register target (03 R77); a poisoned target is consumed (03 R59). -/
def execJr (f : FmtRI) (s : State) : Out :=
  issueWord (.jr f) s (fun x g u => consumes s g u (roleFields x.desc [.a]))
    (fun x g s' => .done (s'.modGroup x.key fun g' =>
      let target (u : Option Nat) : Word := wordTarget (readRole s g x.desc u .a).w f.imm
      let g' := g'.freeLast x
      x.issuing.foldl (fun g' l =>
        g'.modLane l fun y => { y with pc := target (if x.once then none else some l) }) g'))
    noEngine

/-! ### Creating, ending and yielding (01 R26, R27, 03 R78, R79) -/

/-- A free lane's place in the group. -/
def Group.lowestFree (g : Group) : Option Nat := (g.laneList.find? fun p => p.2.status == .free).map (·.1)

/-- The child a fibre forks (01 R12): its window's registers are the parent's. DESIGN CHOICE (log entry 145): its TPC is 0, not
what the lane held; the spec gives none. -/
def childLane (parent old : Lane) (pc : Word) : Lane :=
  { status := .live, park := none, pc := pc, preds := parent.preds, predPoison := parent.predPoison,
    predNew := 0, predMask := 0, predNewPoison := 0, vb := parent.vb, v := parent.v.window parent.vb,
    fpsr := 0, fpsrWrite := none, flags := 0, calls := old.calls, tpc := 0, trapped := false, outside := false }

/-- The run's writes when a child takes lane `l`: results that are on their way to the parent's window come to the child too,
and none of the fibre that ended in the lane comes any more (01 R12, R26). -/
def Group.forkWrites (g : Group) (parent l : Nat) (p : Lane) : List RunWrite :=
  (g.written.filter fun w => w.lane == some parent && w.pending.isSome && decide (p.vb ≤ w.reg) && decide (w.reg < p.vb + 96)).map
    (fun w => { w with lane := some l, src := w.src.orElse fun _ => some parent }) ++
  g.written.map fun w => if w.lane == some l then w.void else w

/-- One forking fibre takes the lowest free lane, or none (03 R78). -/
def Group.forkOne (g : Group) (parent : Nat) (target : Word) : Group × Bool :=
  match g.lowestFree, g.lane? parent with
  | some l, some p =>
    let g := g.keepLanes [l]
    (({ g with written := g.forkWrites parent l p } : Group).modLane l fun old => childLane p old target, true)
  | _, _ => (g, false)

/-- `fork` (03 R78). -/
def execFork (f : FmtBR) (s : State) : Out :=
  issueWord (.fork f) s (guardPoison f.p.toNat)
    (fun x g s' => .done (s'.modGroup x.key fun g' =>
      let forking := x.issuing.filter fun l => (g.lane? l).any fun y => predBit y.preds f.p.toNat
      forking.foldl (fun g' l =>
        let r := g'.forkOne l (wordTarget x.pc f.off)
        r.1.modLane l fun y => y.writePred f.p.toNat r.2 false) g'))
    noEngine

/-- Lanes end: a lane becomes a helper while its quad lives, else the quad is free; it leaves convergence sets
(01 R27). -/
def Group.endLanes (g : Group) (ls : List Nat) : Group :=
  let g := g.modLanes ls fun l => { l with status := .helper, park := none, trapped := false, outside := false }
  let quads := g.liveLanes.map (· / 4)
  let freed := (List.range g.lanes.length).filter fun l => !quads.contains (l / 4)
  let g := g.modLanes freed fun l => { l with status := .free, park := none }
  let gone := maskOf ls
  let g : Group := { g with cvs := g.cvs.map fun c =>
    { c with declared := c.declared.map (· &&& ~~~gone), signed := c.signed.filter fun q => !ls.contains q.1 } }
  ((List.range 8).foldl Group.cvSettle g).wakeYield []

/-- The last live fibre of a group has ended (01 R27, 10 R252): a failure still recorded aborts the launch (06 R174,
22 R430); the row's place is released; the last group of a block ends the block, the last block of a band the
band. -/
def State.endGroup (s : State) (k : GKey) : State :=
  match s.group? k with
  | none => s
  | some g =>
    match g.failure true with
    | some f => s.abortLaunch k.launch ⟨3, 0, 0, f.addr.toNat⟩
    | none =>
      let s := ({ s with groups := s.groups.filter fun x => x.key != k } : State).noteSeen
        [.core g.core, .uncore (dieOfCore g.core)] k.launch
      let s := s.modLaunch k.launch fun l =>
        { l with trees := l.trees.map fun t => { t with arrived := t.arrived.filter (· != k) } }
      let rowLive := s.groups.any fun x => x.core == g.core && x.row == g.row
      let s := s.modCore g.core fun c =>
        { c with rows := if rowLive then c.rows.map fun r => if r.row == g.row then { r with state := .draining } else r
                   else c.rows.filter fun r => r.row != g.row
                 stores := c.stores.filter fun e => e.group != k
                 reads := c.reads.filter fun e => e.group != k }
      let s := s.modBlock k.launch k.block fun b => { b with ended := putNat k.idx b.ended }
      if s.groups.any fun x => x.key.launch == k.launch && x.key.block == k.block then s
      else
        match s.block? k.launch k.block with
        | none => s
        | some b =>
          let s := { s with blocks := s.blocks.filter fun y => !(y.launch == k.launch && y.index == k.block) }
          if s.blocks.any fun y => y.launch == k.launch && y.band == b.band then s
          else { s with bands := s.bands.filter fun y => !(y.launch == k.launch && y.index == b.band) }

/-- Ends the issuing fibres, and the group with the last of them. A matrix operation whose set they complete takes its place
(09 R210, R212). -/
def State.endFibres (s : State) (k : GKey) (ls : List Nat) : State :=
  let s := (s.modGroup k fun g => g.endLanes ls).queueProducts k
  if (s.group? k).any (fun g => g.liveLanes.isEmpty) then s.endGroup k else s

/-- `end` (03 R79); in an engine it ends the program (10 R230). -/
def execEnd (f : FmtF) (s : State) : Out :=
  issueWord (.endF f) s noCheck
    (fun x _ s' => .done ((s'.endFibres x.key x.issuing).wake))
    (fun e _ s' => s'.stopEngine e.id 1)

/-- `yield` parks each fibre until the other live, unparked fibres have issued (01 R19). -/
def execYield (f : FmtF) (s : State) : Out :=
  issueWord (.yield f) s noCheck
    (fun x _ s' => .done (s'.modGroup x.key fun g' =>
      let others := maskOf (g'.readyLanes.filter fun l => !x.issuing.contains l)
      (g'.modLanes x.issuing fun l => { l with park := some (.yield others) }).wakeYield []))
    noEngine

/-! ### Convergence (03 R80, R81) -/

/-- The number of a convergence register in the M field. -/
def cvOf (f : FmtRM) : Nat := (bitsOf f.m 0 3).toNat

/-- Declares a set. -/
def declareWord (i : Instr) (f : FmtRM) (s : State) (set : Group → Issue → LaneMask) : Out :=
  issueWord i s
    (fun _ g u => if (g.cv (cvOf f)).signed.isEmpty then none else some ⟨u, tILLEGAL, BitVec.ofNat 64 (cvOf f)⟩)
    (fun x g s' => .done (s'.modGroup x.key fun g' =>
      g'.modCv (cvOf f) fun _ => ⟨some (set g x), [], none, false⟩))
    noEngine

/-- `cvdecl.live`: every live fibre of the group. -/
def execCvdeclLive (f : FmtRM) (s : State) : Out := declareWord (.cvdeclLive f) f s fun g _ => maskOf g.liveLanes

/-- `cvdecl.set`: the issuing set. -/
def execCvdeclSet (f : FmtRM) (s : State) : Out := declareWord (.cvdeclSet f) f s fun _ x => maskOf x.issuing

/-- `cvsign`; where members have signed at a matrix word, the operation stands in its place and traps there (03 R81,
09 R212). -/
def execCvsign (f : FmtRM) (s : State) : Out :=
  issueWord (.cvsign f) s (fun _ g u => u.bind (cvSignCheck g (cvOf f)))
    (fun x _ s' => .done ((s'.modGroup x.key fun g' => g'.cvSign x (cvOf f) none).queueProducts x.key).wake)
    noEngine

/-! ### The window, predicates, traps, services -/

/-- `win` sets the window bases (03 R82). -/
def execWin (f : FmtRL) (s : State) : Out :=
  issueWord (.win f) s noCheck
    (fun x _ s' => .done (s'.modGroup x.key fun g' =>
      let g' := if bitOf f.imm 8 then g'
        else g'.modLanes x.issuing fun l => { l with vb := 16 * (bitsOf f.imm 0 5).toNat }
      if bitOf f.imm 9 then g' else { g' with ub := 32 * (bitsOf f.imm 5 3).toNat }))
    noEngine

/-- The function of `pset` (03 R71). -/
def psetFn (cond : Nat) (a b : Bool) : Bool :=
  match cond with
  | 0 => a && b
  | 1 => a || b
  | 2 => a != b
  | 3 => a && !b
  | 4 => a
  | 5 => false
  | _ => true

/-- The source predicates that a function of `pset` reads. -/
def psetSources (f : FmtCP) : List Nat :=
  let a := (bitsOf f.a 0 4).toNat
  let b := (bitsOf f.b 0 4).toNat
  match f.cond.toNat with
  | 4 => [a]
  | 5 => []
  | 6 => []
  | _ => [a, b]

/-- `pset` (03 R71): every fibre of the issuing set, and the helpers of its quads. -/
def execPset (f : FmtCP) (s : State) : Out :=
  let pd := f.pd.toNat
  let new (preds : BitVec 16) : Bool :=
    combine f.pc.toNat (predBit preds pd)
      (psetFn f.cond.toNat (predBit preds (bitsOf f.a 0 4).toNat) (predBit preds (bitsOf f.b 0 4).toNat))
  let bad (poison : BitVec 16) : Bool :=
    (psetSources f).any (fun q => bitOf poison q) || ((f.pc == 1 || f.pc == 2) && bitOf poison pd)
  issueWord (.pset f) s noCheck
    (fun x _ s' => .done (s'.modGroup x.key fun g' =>
      g'.modLanes x.receiving fun l => l.writePred pd (new l.preds) (bad l.predPoison)))
    (fun e _ s' => s'.modEngine e.id fun e' =>
      let e' := e'.advance (.pset f)
      let bit : BitVec 16 := 1 <<< pd
      if pd == 15 then e'
      else { e' with preds := if new e.preds then e'.preds ||| bit else e'.preds &&& ~~~bit
                     predPoison := if bad e.predPoison then e'.predPoison ||| bit else e'.predPoison &&& ~~~bit })

/-- `trap` raises BREAK in every fibre of the issuing set (03 R92). -/
def execTrap (f : FmtRL) (s : State) : Out :=
  issueWord (.trap f) s (fun _ _ u => some ⟨u, tBREAK, f.imm.setWidth 64⟩) (fun _ _ s' => .done s') noEngine

/-- `svc` asks the command processor for a service; its request waits out the Shadow window (03 R93, 19 R381). -/
def execSvc (f : FmtRL) (s : State) : Out :=
  issueWord (.svc f) s noCheck
    (fun x g s' =>
      let n := if f.imm == 1 then 4 else if f.imm == 2 then 1 else 0
      let args := (List.range n).map fun k => ((readField s g none (f.d.toNat + k)).1).getD ⟨0, false⟩
      .done (unitRequest x g s' [(none, f.d.toNat, 1)] args [] true))
    noEngine

/-- The size in bytes of the word at an address, given the code's bytes: a prefixed pair has 8 (02 R46). -/
def wordSize (read : Word → Word) (pc : Word) : Nat := if majorOf (read pc) == 0x7F then 8 else 4

/-- `rtt` outside the handler state traps ILLEGAL (03 R91). -/
def rttCheck : Issue → Group → Option Nat → Option UnitErr := fun x g u =>
  if g.handler then none else some ⟨u, tILLEGAL, baseWord64 x.instr⟩

/-- `rtt`: each fibre that entered the handler goes on at its TPC (01 R32, 03 R91). -/
def execRtt (f : FmtRM) (s : State) : Out :=
  issueWord (.rtt f) s rttCheck
    (fun x _ s' => .done (s'.modGroup x.key fun g' => (g'.leaveHandler false fun _ => 4).wakeYield []))
    noEngine

/-- `nop` (03 R94). -/
def execNop (f : FmtF) (s : State) : Out :=
  issueWord (.nop f) s noCheck (fun _ _ s' => .done s')
    (fun e _ s' => s'.modEngine e.id fun e' => e'.advance (.nop f))

end Sys2Proof.Machine
end

