-- ==== Sys2Proof/Machine/Port.lean ====
section
/-!
DEFINITION. The memory port: physical addresses and homes (15 R300, 11 R261), translation (15 R314 to R323),
protection keys (06 R168), the fault service's answer (15 R326), the effect of a launch's writes on its replay
(19 R387, R388), and the fetch of instructions.
-/

namespace Sys2Proof.Machine

open Sys2Proof

/-! ### Physical addresses -/

/-- A physical address lies within the TIER 0 layout (15 R300). -/
def inTier0 (pa : Nat) : Bool := decide (pa < 2 ^ 40) && decide (pa % 2 ^ 38 < Config.hbmBytes)

/-- A page of `size` bytes at `pa` lies within its tier's layout (15 R300). -/
def inTier (tier pa size : Nat) : Bool :=
  match tier with
  | 0 => inTier0 pa && decide (pa % 2 ^ 38 + size ≤ Config.hbmBytes)
  | 1 => decide (pa < 2 ^ 40) && decide (pa % 2 ^ 38 + size ≤ 2 ^ 29)
  | 2 => true
  | _ => inTier0 (pa % 2 ^ 40) && decide (pa % 2 ^ 38 + size ≤ Config.hbmBytes)

/-- The home of a physical address: die * 16 + cluster; for a host or peer frame the die is that of the port
(11 R261). -/
def State.homeOf (s : State) (port tier pa : Nat) : Nat :=
  let die := if tier ≤ 1 then pa / 2 ^ 38 % 4 else port
  let h := (pa / 2 ^ 12 % 16) ^^^ (pa / 2 ^ 16 % 16) ^^^ (pa / 2 ^ 20 % 16)
  die * 16 + ((s.die die).homes[h]?.getD h)

/-! ### Leaf entries (15 R316) -/

/-- Fields of an entry. -/
def leafV (e : BitVec 64) : Bool := bitOf e 0
def leafL (e : BitVec 64) : Bool := bitOf e 1
def leafR (e : BitVec 64) : Bool := bitOf e 2
def leafW (e : BitVec 64) : Bool := bitOf e 3
def leafD (e : BitVec 64) : Bool := bitOf e 5
def leafSnap (e : BitVec 64) : Bool := bitOf e 6
def leafKeyed (e : BitVec 64) : Bool := bitOf e 7
def leafTier (e : BitVec 64) : Nat := (bitsOf e 8 2).toNat
def leafPa (e : BitVec 64) : Nat := (bitsOf e 12 40).toNat * 4096
def leafPk (e : BitVec 64) : Nat := (bitsOf e 52 5).toNat
/-- SW[63]: a replica or weight-store copy (18 R367). -/
def leafCopy (e : BitVec 64) : Bool := bitOf e 63

/-- How an access uses a page. -/
structure Access where
  write : Bool := false
  /-- needs R and W: an atomic, `cas` or reduction -/
  rmw : Bool := false
  /-- may reach KEYED pages: copies and `egkv` (15 R319) -/
  keyed : Bool := false
  /-- the page must allow R and W, whichever the access is: the pool and the table of `egkv.st` (16 R332) -/
  both : Bool := false
  deriving DecidableEq, Repr

/-- What translation answers: a memory key with the page's entry; a resolvable fault; or an unresolvable one. -/
inductive Xlat where
  | ok (key : Nat) (leaf : BitVec 64)
  | resolvable
  | fail (code : BitVec 8)
  deriving DecidableEq, Repr

/-- PKR's verdict on a key: it denies the access (06 R168). -/
def pkrDenies (pkr : DWord) (k : Nat) (write : Bool) : Bool := bitOf pkr (2 * k) || (write && bitOf pkr (2 * k + 1))

/-- The checks of a leaf of a page of `size` bytes (15 R319). FABRIC gates peer pages, and SEQKEY KEYED ones (00 R8): the spec
gives no place for these two among the checks; here they follow BLACKOUT and precede the snapshot fault (DESIGN CHOICE,
entry 124). -/
def leafCheck (e : BitVec 64) (size : Nat) (pkr : DWord) (accepted : Nat → Bool) (a : Access) : Option Xlat :=
  let write := a.write || a.rmw
  if bitsOf e 10 2 != 0 || leafPa e % size != 0 || !inTier (leafTier e) (leafPa e) size then some (.fail tPAGE)
  else if (!write && !leafR e) || (write && !leafW e) || (write && leafTier e == 1 && !leafSnap e) ||
      (a.rmw && !leafR e) || (a.both && !(leafR e && leafW e)) then some (.fail tPAGE)
  else if pkrDenies pkr (leafPk e) write then some (.fail tPKEY)
  else if leafKeyed e && !a.keyed then some (.fail tBLACKOUT)
  else if (leafTier e == 3 && !accepted 9) || (leafKeyed e && !accepted 2) then some (.fail tFEATURE)
  else if leafSnap e && write then some .resolvable
  else none

/-- The page size of a level (15 R317). -/
def levelSize (lvl : Nat) : Nat := if lvl == 2 then 2 ^ 33 else if lvl == 1 then 2 ^ 25 else 2 ^ 16

/-- The index of a level (15 R317). -/
def levelIndex (lvl va : Nat) : Nat :=
  if lvl == 2 then va / 2 ^ 33 % 32768 else if lvl == 1 then va / 2 ^ 25 % 256 else va / 2 ^ 16 % 512

/-- What a walk finds: a leaf with its entry's address and level, no entry, or a misformed entry. -/
inductive WalkEnd where
  | leaf (addr lvl : Nat) (e : BitVec 64)
  | absent
  | misformed (addr : Nat)
  deriving DecidableEq, Repr

/-- The walk from a table at a level down (15 R318), with the pointers it follows. -/
def walk (m : Memory) (va : Nat) : Nat → Nat → WalkEnd × List (Nat × Nat)
  | lvl, t =>
    let a := t + 8 * levelIndex lvl va
    let e : BitVec 64 := BitVec.ofNat 64 (m.readNat (memKey 0 a) 8)
    if !leafV e then (.absent, [])
    else if leafL e then (.leaf a lvl e, [])
    else
      match lvl with
      | 0 => (.misformed a, [])
      | n + 1 =>
        if !inTier0 (leafPa e) then (.misformed a, [])
        else
          let r := walk m va n (leafPa e)
          (r.1, (n, leafPa e) :: r.2)

/-- The walk cache's lowest table for an address (15 R314). -/
def walkStart (d : Die) (ctx va root : Nat) : Nat × Nat :=
  let hit (lvl : Nat) : Option WalkEntry :=
    d.walks.find? fun w => w.ctx == ctx && w.level == lvl && w.part == va / levelSize (lvl + 1)
  match hit 0 with
  | some w => (0, w.table)
  | none =>
    match hit 1 with
    | some w => (1, w.table)
    | none => (2, root)

/-- The service could not complete a fault on a page, and what waited for it has still to find that out (15 R329). -/
def State.failedAt (s : State) (ctx va : Nat) : Bool :=
  s.cp.badPages.any fun b => b.ctx == ctx && b.page == va / 65536 * 65536

/-- Placement is moving the page of an address (18 R365). -/
def State.movingAt (s : State) (ctx va : Nat) : Bool :=
  s.cp.moving.any fun m => m.ctx == ctx && decide (m.va ≤ va) && decide (va < m.va + m.size)

/-- The fault service's class of an unmapped address: in a range placed lazily or in the host tier, or being moved
(15 R326). -/
def State.lazyAt (s : State) (ctx va : Nat) : Bool :=
  !s.failedAt ctx va && (s.movingAt ctx va ||
    s.cp.lazy.any fun r => r.ctx == ctx && decide (r.va ≤ va) && decide (va < r.va + r.len))

/-- Faulting pages that a port tracks at once (15 R327). -/
def portFaults : Nat := 64

/-- A port reports a resolvable fault; with 64 tracked, one more waits there (15 R327). -/
def State.reportFault (s : State) (port ctx va : Nat) : State :=
  s.modDie port fun d =>
    let f := (ctx, va / 65536 * 65536)
    if d.faults.contains f || decide (portFaults ≤ d.faults.length) then d else { d with faults := d.faults ++ [f] }

/-- A snapshot fault waits for the snapshot manager, unless the page's fault could not be completed (15 R323, R329). -/
def State.snapshotFault (s : State) (port ctx va : Nat) : Xlat × State :=
  if s.failedAt ctx va then (.fail tPAGE, s)
  else (.resolvable, (s.modCp fun c =>
    let f := (ctx, va / 65536 * 65536)
    if c.snapFaults.contains f then c else { c with snapFaults := c.snapFaults ++ [f] }).reportFault port ctx va)

/-- Translates an address at a die's port, setting A and D (15 R318 to R320). -/
def State.translate (s : State) (port ctx va : Nat) (a : Access) : Xlat × State :=
  let d := s.die port
  let write := a.write || a.rmw
  let pkr := (lookupKey ctx d.pkr).getD 0
  let judge (e : BitVec 64) (size : Nat) : Xlat :=
    (leafCheck e size pkr s.accepted a).getD (.ok (memKey (leafTier e) (leafPa e + va % size)) e)
  let snapped (r : Xlat) (s : State) : Xlat × State := if r == .resolvable then s.snapshotFault port ctx va else (r, s)
  match d.tb.find? fun t => t.ctx == ctx && decide (t.page ≤ va) && decide (va < t.page + levelSize t.level) && (!write || leafD t.leaf) with
  | some t => snapped (judge t.leaf (levelSize t.level)) s
  | none =>
    match lookupKey ctx d.desc with
    | none => (.fail tPAGE, s)
    | some root =>
      let start := walkStart d ctx va root
      match walk s.mem va start.1 start.2 with
      | (.absent, _) => if s.lazyAt ctx va then (.resolvable, s.reportFault port ctx va) else (.fail tPAGE, s)
      | (.misformed e, _) => (.fail tPAGE, s.logError port { ErrRec.blank 0x0C with ctx := ctx, addr := e })
      | (.leaf addr lvl e, ptrs) =>
        let size := levelSize lvl
        match leafCheck e size pkr s.accepted a with
        | some r =>
          let misformed := bitsOf e 10 2 != 0 || leafPa e % size != 0 || !inTier (leafTier e) (leafPa e) size
          snapped r (if misformed then s.logError port { ErrRec.blank 0x0C with ctx := ctx, addr := addr } else s)
        | none =>
          let want := e ||| 0x10 ||| (if write then 0x20 else 0)
          let s := if want == e then s else { s with mem := s.mem.storeNat (memKey 0 addr) 8 want.toNat }
          let page := va / size * size
          let s := s.modDie port fun d =>
            { d with
              tb := (⟨ctx, page, lvl, want⟩ :: d.tb.filter fun t => !(t.ctx == ctx && t.page == page && t.level == lvl)).take 8192
              walks := (ptrs.map (fun p => (⟨ctx, p.1, va / levelSize (p.1 + 1), p.2⟩ : WalkEntry)) ++ d.walks).take 512 }
          (judge want size, s)

/-- The pages of 64 KiB that a range touches. -/
def pagesOf (va n : Nat) : List Nat := if n = 0 then [] else (rangeFrom (va / 65536) ((va + n - 1) / 65536 - va / 65536 + 1)).map (· * 65536)

/-- Translations of a range of at most a few pages: each page's outcome, in order. -/
def State.translateRange (s : State) (port ctx va n : Nat) (a : Access) : List (Nat × Xlat) × State :=
  (pagesOf va n).foldl (fun (acc : List (Nat × Xlat) × State) p =>
    let at_ := max va p
    let r := acc.2.translate port ctx at_ a
    (acc.1 ++ [(at_, r.1)], r.2)) ([], s)

/-- The lowest unresolvable cause among outcomes. -/
def worstFail (rs : List (Nat × Xlat)) : Option (BitVec 8) :=
  rs.foldl (fun acc r => match r.2, acc with
    | .fail c, none => some c
    | .fail c, some b => some (if c.toNat < b.toNat then c else b)
    | _, acc => acc) none

/-- The pages that wait for the fault service. -/
def resolvablePages (rs : List (Nat × Xlat)) : List Nat :=
  rs.filterMap fun r => if r.2 == .resolvable then some (r.1 / 65536 * 65536) else none

/-- The memory key of an address within translated pages. -/
def keyAt (rs : List (Nat × Xlat)) (va : Nat) : Nat :=
  match rs.find? (fun r => r.1 / 65536 == va / 65536) with
  | some (b, .ok k _) => k + va - b
  | _ => 0

/-! ### Writes and the replay of a launch (19 R387, R388) -/

/-- A write of a launch at a translated address: outside its write ranges, or read-modify-write of a host or peer page,
makes it non-replayable. -/
def State.noteWrite (s : State) (launch va n tier : Nat) (rmw : Bool) : State :=
  match s.launch? launch with
  | none => s
  | some l =>
    let inside := l.ranges.any fun r => r.use != 1 && decide (r.va ≤ va) && decide (va + n ≤ r.va + r.len)
    let s := if inside then s else s.markNonReplay launch 2
    if rmw && decide (2 ≤ tier) then s.markNonReplay launch 3 else s

/-! ### Fetch (02 R35) -/

/-- The 32-bit word of code at a byte offset, read through the launch's context at the core's die; 0 where the code
is not mapped. Instructions are read, and never change the state. -/
def State.codeWord (s : State) (k : GKey) (core : Nat) (pc : Word) : Word :=
  match s.launch? k.launch with
  | none => 0
  | some l =>
    match (s.translate (dieOfCore core) l.ctx (l.code + pc.toNat) {}).1 with
    | .ok key _ => BitVec.ofNat 32 (s.mem.readNat key 4)
    | _ => 0

/-- `rtt.skip`: as `rtt`, the fibres of TMASK going on after the trapping word with its prefix (01 R32, 03 R91). -/
def execRttSkip (f : FmtRM) (s : State) : Out :=
  issueWord (.rttSkip f) s rttCheck
    (fun x g s' => .done (s'.modGroup x.key fun g' =>
      (g'.leaveHandler true (wordSize (s.codeWord g.key g.core))).wakeYield []))
    noEngine

end Sys2Proof.Machine
end

