-- ==== Sys2Proof/Machine/Loads.lean ====
section
/-!
DEFINITION. Loads: L1 (06 R149), forwarding from a group's own writes (06 R150), the checks of memory words (06 R152,
R153, 03 R85), global and local loads (06 R156 to R160), and an engine program's loads (10 R230, 12 R284).
-/

namespace Sys2Proof.Machine

open Sys2Proof

/-! ### L1 (06 R149) -/

/-- The valid line of an address. -/
def Core.l1Line (c : Core) (ctx va : Nat) : Option L1Line :=
  (c.l1.find? fun b => b.ctx == ctx && b.tag == va / 512).bind fun b => (b.lines[va / 128 % 4]?).join

/-- Keeps the ten youngest superblocks of each set, the most recently used first. -/
def l1Evict (set : Nat) (l : List SuperBlock) : List SuperBlock :=
  (l.foldl (fun (acc : List SuperBlock × Nat) b =>
    if b.tag % 128 == set then (if acc.2 < 10 then (acc.1 ++ [b], acc.2 + 1) else acc) else (acc.1 ++ [b], acc.2)) ([], 0)).1

/-- Fills a line; its superblock is the youngest of its set. -/
def Core.l1Fill (c : Core) (ctx va : Nat) (ln : L1Line) : Core :=
  let old := c.l1.find? fun b => b.ctx == ctx && b.tag == va / 512
  let b : SuperBlock := old.getD ⟨ctx, va / 512, [none, none, none, none]⟩
  let b := { b with lines := b.lines.set (va / 128 % 4) (some ln) }
  { c with l1 := l1Evict (va / 512 % 128) (b :: c.l1.filter fun y => !(y.ctx == ctx && y.tag == va / 512)) }

/-- A load that hits makes its superblock the youngest of its set. -/
def Core.l1Touch (c : Core) (ctx va : Nat) : Core :=
  match c.l1.find? fun b => b.ctx == ctx && b.tag == va / 512 with
  | none => c
  | some b => { c with l1 := b :: c.l1.filter fun y => !(y.ctx == ctx && y.tag == va / 512) }

/-- Invalidates the line of an address. -/
def Core.l1Drop (c : Core) (ctx va : Nat) : Core :=
  { c with l1 := c.l1.map fun b =>
      if b.ctx == ctx && b.tag == va / 512 then { b with lines := b.lines.set (va / 128 % 4) none } else b }

/-- Puts bytes into a list at a position. -/
def putBytes (l : List Byte) (pos : Nat) (bs : List Byte) : List Byte :=
  bs.zipIdx.foldl (fun l p => l.set (pos + p.2) p.1) l

/-- The runs of bytes that a store's lane writes itself (06 R158). -/
def LaneStore.runs (l : LaneStore) : List LaneStore :=
  if l.hidden.isEmpty then [l]
  else
    let add (acc : List (Nat × List Byte)) (q : Byte × Nat) : List (Nat × List Byte) :=
      if l.hidden.contains q.2 then acc
      else match acc with
        | (j, bs) :: t => if j + bs.length == q.2 then (j, bs ++ [q.1]) :: t else (q.2, [q.1]) :: acc
        | [] => [(q.2, [q.1])]
    (l.bytes.zipIdx.foldl add []).reverse.map fun q =>
      { l with addr := l.addr + q.1, va := l.va + q.1, bytes := q.2, hidden := [] }

/-- The lanes of a store merged: each byte is the highest lane's that names it (06 R158). -/
def mergeLanes : List LaneStore → List LaneStore
  | [] => []
  | l :: t =>
    { l with hidden := (List.range l.bytes.length).filter fun i => t.any fun q =>
        decide (q.addr ≤ l.addr + i) && decide (l.addr + i < q.addr + q.bytes.length) } :: mergeLanes t

/-- A store updates the bytes of valid lines; it clears the tags of the granules, or sets one (06 R149, R155). The spec does not
say whether such an update is a use for the choice of the line that a fill replaces: here only loads and fills are (DESIGN
CHOICE, entry 148). -/
def Core.l1Store (c : Core) (ctx va : Nat) (bs : List Byte) (tag : Option Bool) : Core :=
  { c with l1 := c.l1.map fun b =>
      if b.ctx != ctx then b
      else
        { b with lines := b.lines.zipIdx.map fun p =>
            match p.1 with
            | none => none
            | some ln =>
              let start := b.tag * 512 + 128 * p.2
              let lo := max start va
              let hi := min (start + 128) (va + bs.length)
              if hi ≤ lo then some ln
              else
                let part := (bs.drop (lo - va)).take (hi - lo)
                let tags := (granulesOf lo (hi - lo)).foldl (fun (t : BitVec 8) g =>
                  let bit : BitVec 8 := 1 <<< (g % 8)
                  if tag == some true then t ||| bit else t &&& ~~~bit) ln.tags
                some { ln with data := putBytes ln.data (lo - start) part, tags := tags } } }

/-- A store whose lanes together rewrite a whole line leaves the line clean in L1 too (15 R309). -/
def Core.l1Clean (c : Core) (ctx : Nat) (ls : List LaneStore) : Core :=
  let whole := ((ls.flatMap fun l => linesOf l.va l.bytes.length).eraseDups).filter fun ln => (List.range 128).all fun i =>
    ls.any fun l => decide (l.va ≤ 128 * ln + i) && decide (128 * ln + i < l.va + l.bytes.length)
  { c with l1 := c.l1.map fun b =>
      if b.ctx != ctx then b
      else { b with lines := b.lines.zipIdx.map fun p =>
        if whole.contains (b.tag * 4 + p.2) then p.1.map fun ln => { ln with poison := 0 } else p.1 } }

/-- The line of memory at a key, as a fill brings it: tags only from TIER 0 (15 R301). -/
def Memory.line (m : Memory) (key : Nat) : L1Line :=
  let k := key / 128 * 128
  { data := m.readN k 128
    tags := if keyTier key == 0 then
        (List.range 8).foldl (fun (t : BitVec 8) i => if m.tag (k + 16 * i) then t ||| (1 <<< i) else t) 0
      else 0
    poison := (List.range 8).foldl (fun (p : BitVec 8) i => if m.poisoned (k + 16 * i) then p ||| (1 <<< i) else p) 0 }

/-! ### A group's own writes (06 R150, 10 R246, 11 R258) -/

/-- The group's writes to a space that have not left its core, oldest first. A request of local lanes marks those of cluster
memory by 1 in place of a virtual address. -/
def State.ownWrites (s : State) (g : Group) (sp : Space) : List LaneStore :=
  let c := s.core g.core
  (c.hold.filter fun r => r.group == g.key && r.eng.isNone).flatMap (fun r =>
      match r.body with
      | .store .global ls => if sp == .global then ls else []
      | .store _ ls => if sp == .global then [] else ls.filter fun l => (l.va == 1) == (sp == .cluster)
      | _ => []) ++
    (c.stores.filter fun e => e.group == g.key && e.space == some sp).map (·.store)

/-- The byte that the youngest of the writes gives an address. -/
def forwardByte (ws : List LaneStore) (a : Nat) : Option Byte :=
  ws.foldl (fun acc w => if w.addr ≤ a && a < w.addr + w.bytes.length then w.bytes[a - w.addr]? else acc) none

/-- The tag that the youngest of the writes gives the granule of an address. -/
def forwardTag (ws : List LaneStore) (a : Nat) : Option Bool :=
  ws.foldl (fun acc w => if (granulesOf w.addr w.bytes.length).contains (a / 16) then some (w.tag.getD false) else acc) none

/-! ### Checks (03 R85, 06 R152, R153) -/

/-- The checks of an access through a capability (03 R85): the code of the first that fails. -/
def capCheck (c : Cap) (e n : Nat) (rights : BitVec 8) : Option (BitVec 8) :=
  if !c.tag then some tCAPTAG
  else if e < c.base || c.base + c.length < e + n then some tCAPBOUNDS
  else if !c.has rights then some tCAPRIGHTS
  else none

/-- The effective address of a global access: capability address and signed offset (06 R152). -/
def globalAddr (c : Cap) (off : Int) : Nat := (((c.addr : Int) + off) % (2 ^ 48 : Int)).toNat

/-- The capability of a memory word in a unit. -/
def capOf (s : State) (g : Group) (x : Issue) (u : Option Nat) : Cap := Cap.ofVal (readRole s g x.desc u .a)

/-- The offset of a memory word in a unit: its register, or its immediate times the size. -/
def offsetOf (s : State) (g : Group) (x : Issue) (imm : Option Int) (u : Option Nat) : Int :=
  match imm with
  | some i => i
  | none => (readRole s g x.desc u .b).w.toInt

/-- The checks of a global access in a unit: capability, alignment where it is needed, poison (06 R153). -/
def globalCheck (s : State) (e n : Nat) (cap : Cap) (rights : BitVec 8) (aligned : Bool) (roles : List Role) :
    Issue → Group → Option Nat → Option UnitErr := fun x g u =>
  match capCheck cap e n rights with
  | some c => some ⟨u, c, BitVec.ofNat 64 e⟩
  | none =>
    if aligned && e % n != 0 then some ⟨u, tALIGN, BitVec.ofNat 64 e⟩
    else consumes s g u (roleFields x.desc roles)

/-- The checks of a local access in a unit: 06 R144, alignment, the skew view's width, poison (06 R148, R153). -/
def localCheck (s : State) (n : Nat) (roles : List Role) : Issue → Group → Option Nat → Option UnitErr := fun x g u =>
  let a := ((readRole s g x.desc u .a).w + (readRole s g x.desc u .b).w).toNat
  let lim := s.localLimits g.key.launch g.key.block
  if !localOk lim.1 lim.2 a n then some ⟨u, tLOCALBOUNDS, BitVec.ofNat 64 a⟩
  else if a % n != 0 || (a.testBit 31 && decide (4 < n)) then some ⟨u, tALIGN, BitVec.ofNat 64 a⟩
  else consumes s g u (roleFields x.desc roles)

/-- The value a load of a width makes of its bytes (06 R156). -/
def loadValue (w : Nat) (bs : List Byte) : BitVec 128 :=
  let n := bytesNat bs
  match w with
  | 1 => ((BitVec.ofNat 8 n).signExtend 32).setWidth 128
  | 3 => ((BitVec.ofNat 16 n).signExtend 32).setWidth 128
  | _ => BitVec.ofNat 128 n

/-! ### Order with requests on their way (12 R278, 06 R173, 07 R190) -/

/-- The parameter words and the bytes of target and source of a command (06 R166): command, P0, P1. -/
def mscExtents (cmd p0 p1 : Nat) : Nat × Nat :=
  match cmd with
  | 0 => (p1, 0)
  | 1 => (4 * p0, 4 * p0 * p1)
  | 2 => (4 * p0, 4 * p0)
  | _ => (p1, p1)

/-- Bytes of target and source of a command. -/
def MscOp.extents (m : MscOp) : Nat × Nat := mscExtents m.cmd m.p0.toNat m.p1.toNat

/-- Bytes of an operation's datum. -/
def AtomOp.bytes : AtomOp → Nat
  | .i64 _ => 8
  | .cas w => if w then 8 else 4
  | .xchg w => if w then 8 else 4
  | _ => 4

/-- Bytes that a request's lanes touch, by key: start and length. -/
def ReqBody.spans : ReqBody → List (Nat × Nat)
  | .store .global ls => ls.map fun l => (l.addr, l.bytes.length)
  | .rmw .global op _ ls => ls.map fun l => (l.addr, op.bytes)
  | .soft _ _ _ ls => ls.flatMap fun l =>
      (l.addr / 4096 * 4096, 4096) :: (match l.addr2 with
        | some b => [(b / 4096 * 4096, 4096)]
        | none => [])
  | _ => []

/-- The bytes themselves that a request's lanes reach, by key. -/
def ReqBody.regions : ReqBody → List (Nat × Nat)
  | .soft _ _ _ ls => ls.flatMap fun l => (l.addr :: l.addr2.toList).map fun k => (k, 4 * l.n * l.k)
  | b => b.spans

/-- A request with virtual addresses for keys, as it is known in the hold queue. -/
def ReqBody.virtual : ReqBody → ReqBody
  | .rmw sp op d ls => .rmw sp op d (ls.map fun l => { l with addr := l.va })
  | .soft op d r ls => .soft op d r (ls.map fun l => { l with addr := l.va, addr2 := l.addr2.map fun _ => l.va2 })
  | b => b

/-- A read-modify-write or a soft operation that writes. -/
def ReqBody.isRmw : ReqBody → Bool
  | .rmw .global _ _ _ => true
  | .soft op _ _ _ => op != .sld
  | _ => false

/-- A queued or travelling read-modify-write or soft operation of the group meets a range; queued and side-logged ones are
known by virtual address, travelling ones by key (12 R278 c, 07 R190). -/
def State.ownRmwMeets (s : State) (g : Group) (va key n : Nat) : Bool :=
  ((s.core g.core).hold.any fun r => r.group == g.key && r.body.isRmw && r.body.virtual.spans.any fun p => overlaps p va n) ||
    ((s.core g.core).log.any fun r => r.group == g.key && r.body.isRmw && r.body.virtual.spans.any fun p => overlaps p va n) ||
    (s.homes.any fun r => r.group == g.key && r.body.isRmw && r.body.spans.any fun p => overlaps p key n) ||
    s.fabric.remote.any fun r => match r.for' with
      | .req q => q.group == g.key && q.body.isRmw && q.body.spans.any fun p => overlaps p key n
      | _ => false

/-- The bytes that a command has still to write, by key; a page that is not mapped has none yet. -/
def State.mscRest (s : State) (m : MscOp) : List (Nat × Nat) :=
  let from' := m.target + 4 * m.pos
  let upTo := m.target + m.extents.1
  (pagesOf from' (upTo - from')).filterMap fun p =>
    let a := max from' p
    match (s.translate (dieOfCore m.core) m.ctx a { write := true }).1 with
    | .ok key _ => some (key, min upTo (p + 65536) - a)
    | _ => none

/-- A command has an element left at a home. -/
def State.mscAtHome (s : State) (m : MscOp) (home : Nat) : Bool :=
  let from' := m.target + 4 * m.pos
  (rangeFrom (from' / 4096) ((m.target + m.extents.1 + 4095) / 4096 - from' / 4096)).any fun p =>
    match (s.translate (dieOfCore m.core) m.ctx (max from' (4096 * p)) { write := true }).1 with
    | .ok key _ => s.homeOf (dieOfCore m.core) (keyTier key) (keyPa key) == home
    | _ => false

/-- A request that writes. -/
def ReqBody.writes : ReqBody → Bool
  | .store .global _ => true
  | b => b.isRmw

/-- A group of the core speculates. -/
def State.speculatingCore (s : State) (core : Nat) : Bool :=
  s.groups.any fun g => g.core == core && (g.amber == .speculating || g.amber == .stalled)

/-- A fill of a line must wait: a write of the core is still to be performed at the line's home, or has not been answered from
the line by the host or a peer; and, while a group of the core speculates, a write of the cluster to the line, an engine's too
(12 R278 d, e, R294). -/
def State.fillWaits (s : State) (core key : Nat) : Bool :=
  let line := key / 128 * 128
  let home := s.homeOf (dieOfCore core) (keyTier line) (keyPa line)
  let spec := s.speculatingCore core
  let beside (c : Nat) : Bool := spec && clusterOfCore c == clusterOfCore core
  let meets (b : ReqBody) : Bool := b.spans.any fun q => overlaps q line 128
  (s.homes.any fun r => r.body.writes && ((r.core == core && r.home == home) || (beside r.core && meets r.body))) ||
    (s.mscs.any fun m => m.left && match m.owner with
      | .group _ => (m.core == core && s.mscAtHome m home) || (beside m.core && (s.mscRest m).any fun q => overlaps q line 128)
      | _ => false) ||
    s.fabric.remote.any fun r => match s.forwarded r, r.for' with
      | some q, _ => (q.core == core || beside q.core) && meets q.body
      | none, .op _ _ => spec && r.host == (keyTier key == 2) && overlaps (r.pa, r.size) (keyPa line) 128
      | none, _ => false

/-- Bytes that a write's lanes touch, by virtual address (06 R173). -/
def ReqBody.vaSpans : ReqBody → List (Nat × Nat)
  | .store .global ls => ls.map fun l => (l.va, l.bytes.length)
  | .rmw .global op _ ls => ls.map fun l => (l.va, op.bytes)
  | .soft _ _ _ ls => ls.flatMap fun l => (l.va, 4 * l.n * l.k) :: (if l.addr2.isSome then [(l.va2, 4 * l.n * l.k)] else [])
  | _ => []

/-- A logged write of the core to a page that `n` bytes at an address touch (06 R173): lanes of it that straddle two pages are
writes to both. -/
def State.pageLogged (s : State) (core ctx va n : Nat) : Bool :=
  let pages := pagesOf va n
  (s.core core).log.any fun e => e.ctx == ctx && (pages.contains e.page || e.body.vaSpans.any fun q =>
    (pagesOf q.1 q.2).any pages.contains)

/-- PERIOD, SPACING and DURATION of EWREF (15 R312). -/
def refreshPeriod : Nat := (bitsOf Config.ewref 32 32).toNat
/-- SPACING. -/
def refreshSpacing : Nat := (bitsOf Config.ewref 16 16).toNat
/-- DURATION. -/
def refreshDuration : Nat := (bitsOf Config.ewref 0 16).toNat

/-- A bank is in its window at a clock (15 R313). -/
def inWindow (clock bank : Nat) : Bool :=
  decide (bank * refreshSpacing ≤ clock % refreshPeriod) && decide (clock % refreshPeriod < bank * refreshSpacing + refreshDuration)

/-- A weight-store bank that `n` bytes reach is in its refresh window, or a row of it is being tested, and stalls the access
(15 R313, 19 R392). -/
def State.refreshing (s : State) (key n : Nat) : Bool :=
  let die := keyPa key / 2 ^ 38 % 4
  keyTier key == 1 && (rangeFrom (keyPa key / 2048) ((keyPa key + n + 2047) / 2048 - keyPa key / 2048)).any fun b =>
    inWindow (s.die die).clock (b % 32) || s.testing 16 (32 * die + b % 32)

/-- A soft step on the host's memory is between its first read and its last write. -/
def ReqBody.begun : ReqBody → Bool
  | .soft _ _ _ (l :: _) => l.stage == .read || l.stage == .write
  | _ => false

/-- A soft step is between its first read and its last write of a granule that `n` bytes touch, or a command between the read
and the write of an element there: no other access to it is performed meanwhile (07 R191, R192, 06 R167). Only steps on the
host's memory take more than one event. `own` is the instruction that asks. -/
def State.locked (s : State) (own : Option Nat) (key n : Nat) : Bool :=
  (s.homes.any fun r => r.body.begun && some r.id != own && r.body.spans.any fun q => overlaps q key n) ||
    s.mscs.any fun m => some m.id != own && m.held.any fun k => overlaps (k, 4) key n

/-- An access by its home must wait. -/
def State.stalls (s : State) (own : Option Nat) (key n : Nat) : Bool := s.refreshing key n || s.locked own key n

/-! ### Global loads -/

/-- One unit of a load: where it reads, whether it is a helper, and whether its capability loads tags. -/
structure LoadUnit where
  unit : Option Nat
  va : Nat
  helper : Bool
  rc : Bool
  deriving DecidableEq, Repr

/-- Whether the line at a key may be read now, or must wait. -/
def State.lineWaits (s : State) (g : Group) (key : Nat) : Bool :=
  s.fillWaits g.core key || s.stalls none (key / 128 * 128) 128

/-- Ports of a mask that are up (22 R424). -/
def upPorts (up : BitVec 16) (mask : BitVec 16) : List Nat := (List.range 16).filter fun k => bitOf up k && bitOf mask k

/-- The ports that traffic may take: those that are up, but for ports towards a link partner that has withdrawn, by which routes go
through it (22 R424, R438; DESIGN CHOICE, log entry 157). -/
def State.openPorts (s : State) : BitVec 16 :=
  s.fabric.withdrawn.foldl (fun up dev => up &&& ~~~(bitsOf ((lookupKey dev s.dev.froute).getD 0) 0 16)) s.fabric.portsUp

/-- The port by which a message leaves: of the up ports of PRI, else of ALT, the one that its line's address and its source
choose (22 R424). -/
def State.portTo (s : State) (m : Msg) : Nat :=
  let e : Word := (lookupKey m.dst s.dev.froute).getD 0
  let pri := upPorts s.openPorts (bitsOf e 0 16)
  let ports := if pri.isEmpty then upPorts s.openPorts (bitsOf e 16 16) else pri
  ports[((m.addr / 128 % 512) ^^^ m.src) % ports.length]?.getD 16

/-- The link to the host, beside the ports 0 to 15 of the fabric and 16 for a message that no port took. -/
def hostLink : Nat := 17

/-- Sends an access to the host or a peer (15 R301, 20 R402, 22 R428); for a write (type 3) code 1 tells poisoned data. -/
def State.askRemote (s : State) (key n : Nat) (for' : RemoteFor) (type : Nat) (code : Nat) (data : List Byte)
    (last : Bool := true) : Nat × State :=
  let host := keyTier key == 2
  let tag := s.fabric.nextTag
  let m : Msg := { type := type, poison := type == 3 && code == 1, last := last, src := s.dev.fdevid.toNat,
                   dst := keyPa key / 2 ^ 40, tag := tag % 65536, addr := keyPa key % 2 ^ 40, size := n,
                   code := if type == 3 then 0 else code, phase := 0, data := data }
  (tag, { s with fabric := { s.fabric with
    nextTag := tag + 1
    remote := s.fabric.remote ++ [⟨tag, host, keyPa key, n, (s.die 0).clock, for'⟩]
    sent := s.fabric.sent ++ [(if host then hostLink else s.portTo m, m)] } })

/-- A byte that a load reads, and its poison: from the group's own writes, else from the lines it found. -/
def loadByte (ws : List LaneStore) (lines : List (Nat × L1Line)) (a : Nat) : Byte × Bool :=
  match forwardByte ws a with
  | some b => (b, false)
  | none =>
    match lookupKey (a / 128 * 128) lines with
    | some ln => (ln.data[a % 128]?.getD 0, bitOf ln.poison (a % 128 / 16))
    | none => (0, false)

/-- The key of the first poisoned byte that a unit's load reads. -/
def loadSource (ws : List LaneStore) (lines : List (Nat × L1Line)) (n : Nat) (l : LoadUnit) (rs : List (Nat × Xlat)) :
    Option Nat :=
  ((rangeFrom l.va n).find? fun a => (loadByte ws lines a).2).map (keyAt rs)

/-- The registers a load brings a unit. -/
def loadRegs (ws : List LaneStore) (lines : List (Nat × L1Line)) (w : Nat) (l : LoadUnit) (rs : List (Nat × Xlat)) :
    List Reg × Bool :=
  let n := widthBytes w
  let bs := (List.range n).map fun i => loadByte ws lines (l.va + i)
  let tier := keyTier (keyAt rs l.va)
  let tag := w == 7 && l.rc && tier == 0 &&
    (match forwardTag ws l.va with
      | some t => t
      | none => ((lookupKey (l.va / 128 * 128) lines).map fun ln => bitOf ln.tags (l.va / 16 % 8)).getD false)
  let v : Val := ⟨loadValue w (bs.map (·.1)), tag, bs.any (·.2)⟩
  (v.toRegs (widthRegs w), tag)

/-- The lines that a unit must have in L1: those with a byte that no own write gives. -/
def linesNeeded (ws : List LaneStore) (va n : Nat) : List Nat :=
  ((linesOf va n).map (· * 128)).filter fun line =>
    (List.range n).any fun i => (va + i) / 128 * 128 == line && (forwardByte ws (va + i)).isNone

/-- The fields of two operands meet. -/
def meetFields (a b : Opnd) : Bool :=
  decide (a.field.toNat < b.field.toNat + b.count) && decide (b.field.toNat < a.field.toNat + a.count)

/-- What has returned for the lanes of a load that do not fault, while others do: values that the word's next issue writes
again (06 R176). -/
def State.dataReturned (s : State) (w : Nat) (ws : List LaneStore) (g : Group) (tr : List (LoadUnit × List (Nat × Xlat))) :
    List (Option Nat × List Reg) :=
  let c := s.core g.core
  tr.filterMap fun p =>
    if p.2.any fun r => match r.2 with
      | .ok .. => false
      | _ => true
    then none
    else
      let need := (linesNeeded ws p.1.va (widthBytes w)).map fun ln => (ln, keyAt p.2 (max ln p.1.va) / 128 * 128)
      let lines := need.filterMap fun q =>
        match c.l1Line g.ctx q.1 with
        | some ln => some (q.1, ln)
        | none => if 2 ≤ keyTier q.2 || s.lineWaits g q.2 then none else some (q.1, s.mem.line q.2)
      if lines.length == need.length then some (p.1.unit, (loadRegs ws lines w p.1 p.2).1) else none

/-- The effect of a global load whose checks have passed (06 R156, R171, R176). DESIGN CHOICE (log entry 151): where D overlaps a
source operand of a load that parks, the returned lanes' values and poison are not written before the retry, which reads its
operands again; the spec is silent. -/
def loadEffect (w : Nat) (units : Issue → Group → List LoadUnit) : Issue → Group → State → Effect := fun x g s' =>
  let n := widthBytes w
  let dst := (x.desc.ops.find? (fun o => o.role == .d)).getD (src .d 0)
  let finish (s' : State) (outs : List (Option Nat × List Reg × Bool)) : State :=
    let s' := s'.modGroup x.key fun g' =>
      (outs.foldl (fun g' o => g'.writeRegs o.1 dst.field.toNat o.2.1 o.2.2) g').zeroMasked x dst
    s'.remember g x.pc (outs.map fun o => (o.1.getD 127, o.2.1, o.2.2))
  let us := units x g
  let reads := (us.flatMap fun l => (linesOf l.va n)).eraseDups
  let newReads := reads.filter fun ln => !(s'.core g.core).reads.any fun e => e.group == g.key && !e.isLocal && e.line == ln
  let noted (s : State) : State := if g.amber == .speculating then
      s.modCore g.core fun c => { c with reads := c.reads ++ newReads.map fun ln => ⟨g.key, false, ln⟩ } else s
  match g.redo? x.pc with
  | some r =>
    .done (finish (noted (s'.modGroup x.key fun g' => g'.dropRedo x.pc))
      (r.vals.map fun v => (if v.1 == 127 then none else some v.1, v.2)))
  | none =>
    let port := dieOfCore g.core
    let tr := us.foldl (fun (acc : List (LoadUnit × List (Nat × Xlat)) × State) l =>
      let r := acc.2.translateRange port g.ctx l.va n {}
      (acc.1 ++ [(l, r.1)], r.2)) ([], s')
    let s := tr.2
    let errs := tr.1.filterMap fun p =>
      if p.1.helper then none else (worstFail p.2).map fun c => (⟨p.1.unit, c, BitVec.ofNat 64 p.1.va⟩ : UnitErr)
    match verdict x errs with
    | some t => .fail (if t.code == tFEATURE then { t with tval := 9 } else t)
    | none =>
      let pages := (tr.1.filter fun p => !p.1.helper).flatMap fun p => resolvablePages p.2
      let ws := s.ownWrites g .global
      if !pages.isEmpty then
        let early := if x.desc.ops.any fun o => o.read && meetFields o dst then [] else s.dataReturned w ws g tr.1
        .done ((s.setGroup g).modGroup x.key fun g =>
          (early.foldl (fun g q => q.2.zipIdx.foldl (fun g r => g.putField q.1 (dst.field.toNat + r.2) r.1) g) g).parkFault
            x.issuing pages.eraseDups)
      else
        let lost (l : LoadUnit) : Bool :=
          l.helper && g.remoteFail.any fun q => (linesNeeded ws l.va n).contains q.2
        let good := tr.1.filter fun p => !lost p.1 && p.2.all fun r => match r.2 with
          | .ok .. => true
          | _ => false
        let c := s.core g.core
        let need := (good.flatMap fun p => (linesNeeded ws p.1.va n).map fun ln => (ln, keyAt p.2 (max ln p.1.va) / 128 * 128)).eraseDups
        let found (q : Nat × Nat) : Option L1Line := (c.l1Line g.ctx q.1).or (lookupKey q.1 g.fetched)
        let missing := need.filter fun q => (found q).isNone
        let failed := good.filterMap fun p =>
          if p.1.helper then none
          else (g.remoteFail.find? fun q => (linesNeeded ws p.1.va n).contains q.2).map fun q =>
            (⟨p.1.unit, q.1, BitVec.ofNat 64 p.1.va⟩ : UnitErr)
        match verdict x failed with
        | some t => .fail t
        | none =>
          let parked := good.any fun p => s.pageLogged g.core g.ctx p.1.va n ||
              p.2.any fun r => match r.2 with
                | .ok key _ => s.ownRmwMeets g r.1 key (min (p.1.va + n) ((r.1 / 65536 + 1) * 65536) - r.1)
                | _ => false
          let far := missing.filter fun q => decide (2 ≤ keyTier q.2)
          let spec := g.amber == .speculating
          if parked then .hold
          else if missing.any fun q => s.lineWaits g q.2 then .wait
          else if spec && decide (Config.amberReadLines < c.reads.length + newReads.length) then
            .done ((s.setGroup g).modGroup x.key fun g => { g with amber := .stalled })
          else
            let s := noted s
            if !far.isEmpty then
              .done (far.foldl (fun s q =>
                let r := s.askRemote q.2 128 (.line g.key q.1) 1 0 []
                r.2.modGroup x.key fun g => { g with remote := g.remote ++ [2 * r.1] }) (s.setGroup g))
            else
            let s2 := s.modCore g.core fun c =>
              need.foldl (fun c q => if missing.contains q then c.l1Fill g.ctx q.1 (s.mem.line q.2) else c.l1Touch g.ctx q.1) c
            let lines := need.map fun q => (q.1, (found q).getD (s.mem.line q.2))
            let outs := tr.1.map fun p =>
              if good.any (fun q => q.1 == p.1) then (p.1.unit, loadRegs ws lines w p.1 p.2)
              else (p.1.unit, (Val.zero.toRegs (widthRegs w), false))
            let bad := good.filterMap fun p => (loadSource ws lines n p.1 p.2).map fun k => (p.1.unit, k)
            .done ((finish (s2.modGroup x.key fun g' => { g' with fetched := [], remoteFail := [] }) outs).modGroup x.key
              fun g' => bad.foldl (fun g' q => g'.noteSource q.1 dst.field.toNat (widthRegs w) q.2) g')

/-- The units of a global load: active lanes, and helpers, whose failed checks give 0 (01 R28). -/
def loadUnits (w : Nat) (addr : Issue → Group → Option Nat → Cap × Nat) (aligned : Bool) : Issue → Group → List LoadUnit :=
  fun x g =>
    let n := widthBytes w
    x.allUnits.filterMap fun u =>
      let helper := u.any x.helpers.contains
      let ca := addr x g u
      if helper && ((capCheck ca.1 ca.2 n rightR).isSome || (aligned && ca.2 % n != 0)) then none
      else some ⟨u, ca.2, helper, ca.1.has rightRC⟩

/-- A global load word. Helpers whose checks fail receive 0. `span` gives the address e that the lanes of `ldln` share, and that
a misaligned one reports (06 R153, R160). -/
def globalLoad (i : Instr) (s : State) (w : Nat) (aligned : Bool)
    (addr : State → Issue → Group → Option Nat → Cap × Nat) (eng : Engine → Desc → State → State)
    (span : Option (State → Issue → Group → Nat) := none) : Out :=
  issueWord i s
    (fun x g u =>
      let ca := addr s x g u
      (globalCheck s ca.2 (widthBytes w) ca.1 rightR aligned [.a, .b] x g u).map fun e =>
        match span with
        | some f => if e.code == tALIGN then { e with tval := BitVec.ofNat 64 (f s x g) } else e
        | none => e)
    (fun x g s' =>
      let us := loadUnits w (addr s) aligned
      let dst := (x.desc.ops.find? (fun o => o.role == .d)).getD (src .d 0)
      let given := (us x g).map (·.unit)
      match loadEffect w us x g s' with
      | .done s'' =>
        if (s''.group? x.key).any (fun g'' => g''.faulted || !g''.remote.isEmpty || g''.amber == .stalled) then .done s''
        else
          .done (s''.modGroup x.key fun g' =>
            (x.allUnits.filter fun u => !given.contains u && u.any x.helpers.contains).foldl
              (fun g' u => g'.writeRegs u dst.field.toNat (Val.zero.toRegs (widthRegs w)) false) g')
      | e => e)
    eng

/-- Address by capability and offset register (06 R152). -/
def addrReg (s : State) (x : Issue) (g : Group) (u : Option Nat) : Cap × Nat :=
  let c := capOf s g x u
  (c, globalAddr c (offsetOf s g x none u))

/-- Address by capability and immediate (06 R152). -/
def addrImm (imm : BitVec 7) (n : Nat) (s : State) (x : Issue) (g : Group) (u : Option Nat) : Cap × Nat :=
  let c := capOf s g x u
  (c, globalAddr c (imm.toInt * (n : Int)))

/-- `ld`. -/
def execLd (p : Pfx) (f : FmtM) (s : State) : Out :=
  globalLoad (.ld p f) s f.w.toNat (f.w == 7) addrReg noEngine

/-! ### An engine program's loads -/

/-- The die of an engine program's port. -/
def Engine.die (e : Engine) : Nat :=
  match e.seqr.kind with
  | .ke => e.seqr.unit / 16
  | _ => dieOfCore e.seqr.unit

/-- The core whose hold queue carries an engine program's stores, and whose checkpoints hold its state. -/
def Engine.core (e : Engine) : Nat :=
  match e.seqr.kind with
  | .ke => 4 * e.seqr.unit
  | _ => e.seqr.unit

/-- A number for each word an engine program executes. -/
def Engine.opKey (e : Engine) : Nat := 2 ^ 40 + e.id * 2 ^ 20 + e.count

/-- A record belongs to an engine program's words. -/
def Ret.ofEngine (r : Ret) (id : Nat) : Bool := r.op.any fun k => k / 2 ^ 20 == 2 ^ 20 + id

/-- Keeps what an engine program's word received, or the command it started, while checkpoints are live (19 R378). -/
def State.rememberEngine (s : State) (e : Engine) (vals : List (Nat × List Reg × Bool)) : State :=
  s.modCore e.core fun c =>
    if !c.shadowed then c else { c with record := c.record ++ [⟨e.group, s.clockOf e.core, e.pc, some e.opKey, vals⟩] }

/-- What the program's word received before a rollback (19 R380). -/
def Engine.redo? (e : Engine) : Option Ret := e.redo.find? fun r => r.op == some e.opKey

/-- The number of the command that the program's word started before a rollback. -/
def Engine.redoCmd? (e : Engine) : Option Nat :=
  (e.redo?.bind fun r => r.vals.head?).bind fun v => if v.1 == 126 then (v.2.1.head?).map (·.val.toNat) else none

/-- A command that its word started before a rollback, and that goes on: it is not started again (19 R380). -/
def State.recommand (s : State) (e : Engine) (i : Instr) (id : Nat) (lives : Bool) : State :=
  (s.modEngine e.id fun y => { y.advance i with cmds := if lives then y.cmds ++ [id] else y.cmds }).rememberEngine e
    [(126, [⟨BitVec.ofNat 32 id, false⟩], false)]

/-- The status code of a trap code in an engine (10 R230, R232). -/
def engineCode (c : BitVec 8) : Nat := if c == tBLACKOUT then 5 else if c == tILLEGAL || c == tFEATURE then 3 else 4

/-- The poisoned register that an engine's word consumes among operands of the given roles. -/
def Engine.poisonIn (e : Engine) (d : Desc) (rs : List Role) : Option Nat :=
  ((d.ops.filter fun o => o.now && o.read && rs.contains o.role).flatMap fun o =>
    (List.range o.count).map fun k => o.field.toNat - 96 + k).find? fun n => Reg.isPoisoned (e.s.get? n)

/-- A store of the program itself that meets a range has not reached its home yet (12 R278 a, R284). -/
def State.ownStoreMeets (s : State) (e : Engine) (va key n : Nat) : Bool :=
  let mine (id : Nat) : Bool := s.inflight.any fun i => i.id == id && i.eng.any (·.1 == e.id)
  ((s.core e.core).hold.any fun r => r.eng.any (·.1 == e.id) && r.body.virtual.spans.any fun p => overlaps p va n) ||
    (s.homes.any fun r => mine r.id && r.body.spans.any fun p => overlaps p key n) ||
    ((s.core e.core).log.any fun r => mine r.id && r.body.virtual.spans.any fun p => overlaps p va n) ||
    s.fabric.remote.any fun r => match r.for' with
      | .req q => mine q.id && q.body.spans.any fun p => overlaps p key n
      | _ => false

/-- A load or wait of an engine program fails outside its region: the program stops, and will stop there again (19 R378, R380). -/
def State.failEngine (s : State) (e : Engine) (status : Nat) : State :=
  (s.rememberEngine e [(125, [⟨BitVec.ofNat 32 status, false⟩], false)]).stopEngine e.id status

/-- `ldi` in an engine program: read at the home, past L1 and every hold queue (12 R284). A resolvable fault, a line on
its way from the host or a peer, or a store of the program itself that has not reached the home, leaves the program at the
word. -/
def engineLoad (f : FmtM) (e : Engine) (d : Desc) (s : State) : State :=
  let w := f.w.toNat
  let n := widthBytes w
  let c := Cap.ofVal (e.readRole d .a)
  let a := globalAddr c (f.o.toInt * (n : Int))
  match capCheck c a n rightR with
  | some _ => s.stopEngine e.id 4
  | none =>
    if w == 7 && a % 16 != 0 then s.stopEngine e.id 4
    else
      match e.poisonIn d [.a] with
      | some r => s.engineConsume e r
      | none =>
        let r := s.translateRange e.die e.ctx a n {}
        match e.redo?.bind (·.vals.head?) with
        | some v =>
          if v.1 == 125 then s.failEngine e ((v.2.1.head?).elim 0 (·.val.toNat)) else
          (s.modEngine e.id fun y =>
            { (y.advance (.ldi none f)).writeRegs f.d.toNat v.2.1 v.2.2 with data := none, remote := none }).rememberEngine e [v]
        | none =>
        match worstFail r.1 with
        | some code => s.failEngine e (engineCode code)
        | none =>
          if !(resolvablePages r.1).isEmpty then r.2
          else
            let key := keyAt r.1 a
            if r.2.ownStoreMeets e a key n then r.2 else
            let finish (s : State) (bs : List Byte) (tag poison : Bool) : State :=
              let v : Val := ⟨loadValue w bs, tag, poison⟩
              (s.modEngine e.id fun y =>
                { (y.advance (.ldi none f)).writeRegs f.d.toNat (v.toRegs (widthRegs w)) tag with data := none, remote := none }).rememberEngine
                  e [(127, v.toRegs (widthRegs w), tag)]
            if 2 ≤ keyTier key then
              match e.data with
              | some d => finish r.2 d.1 false d.2
              | none =>
                if e.remote.isSome then r.2
                else
                  let q := r.2.askRemote key n (.engine e.id) 1 0 []
                  q.2.modEngine e.id fun e => { e with remote := some q.1 }
            else if r.2.stalls none key n then r.2
            else
              let bs := (List.range n).map fun i => r.2.mem.read (keyAt r.1 (a + i))
              let bad := ((rangeFrom a n).find? fun i => r.2.mem.poisoned (keyAt r.1 i)).map (keyAt r.1)
              (finish r.2 bs (w == 7 && keyTier key == 0 && c.has rightRC && r.2.mem.tag key) bad.isSome).modEngine e.id
                fun y => { y with s := bad.elim y.s fun k => y.s.noteSource (f.d.toNat - 96) (widthRegs w) k }

/-- `ldi`. -/
def execLdi (p : Pfx) (f : FmtM) (s : State) : Out :=
  globalLoad (.ldi p f) s f.w.toNat (f.w == 7) (addrImm f.o (widthBytes f.w.toNat)) (engineLoad f)

/-- `ldln`: active lane i receives the element i of the span (06 R160). -/
def execLdln (p : Pfx) (f : FmtM) (s : State) : Out :=
  globalLoad (.ldln p f) s f.w.toNat true
    (fun s x g u =>
      let ca := addrReg s x g none
      (ca.1, ca.2 + u.getD 0 * widthBytes f.w.toNat))
    noEngine (some fun s x g => (addrReg s x g none).2)

/-! ### Local loads (06 R143 to R148, R156, 11 R257, R258) -/

/-- The bytes a place gives a group: its own queued writes to the partner half or cluster memory first; a speculator's
buffered local writes before all. -/
def State.placeRead (s : State) (g : Group) (p : Place) (n : Nat) : List Byte × Bool :=
  let sp : Option Space := match p with
    | .localMem _ false => none
    | .localMem _ true => some .partner
    | .cluster _ => some .cluster
  let ws := match sp with
    | some sp => s.ownWrites g sp
    | none => ((s.core g.core).stores.filter fun e => e.group == g.key && e.space == none).map (·.store)
  let m := s.placeMem g.key.launch g.key.block p
  let bs := (List.range n).map fun i =>
    match forwardByte ws (p.off + i) with
    | some b => (b, true)
    | none => (cellsRead m.cells (p.off + i), false)
  (bs.map (·.1), bs.any (fun b => !b.2) && m.poisonedN p.off n)

/-- A queued `atoml` of the group to the partner half or cluster memory meets a read: the read parks until it has been
performed (11 R258, 12 R278 e). -/
def State.ownAtomlMeets (s : State) (g : Group) (p : Place) (n : Nat) : Bool :=
  let cluster : Option Bool := match p with
    | .localMem _ partner => if partner then some false else none
    | .cluster _ => some true
  (s.core g.core).hold.any fun r => r.group == g.key && r.eng.isNone && match r.body with
    | .rmw .cluster op _ ls => ls.any fun l => cluster == some (l.va == 1) && overlaps (l.addr, op.bytes) p.off n
    | _ => false

/-- `ldl`: loads from local or cluster memory (06 R156). -/
def execLdl (p : Pfx) (f : FmtM) (s : State) : Out :=
  let w := f.w.toNat
  let n := widthBytes w
  issueWord (.ldl p f) s (localCheck s n [.a, .b])
    (fun x g s' =>
      let lim := s'.localLimits g.key.launch g.key.block
      let addr (u : Option Nat) : Nat := ((readRole s g x.desc u .a).w + (readRole s g x.desc u .b).w).toNat
      let ok (u : Option Nat) : Bool :=
        localOk lim.1 lim.2 (addr u) n && addr u % n == 0 && !((addr u).testBit 31 && decide (4 < n))
      let dst := (x.desc.ops.find? (fun o => o.role == .d)).getD (src .d 0)
      let finish (s' : State) (outs : List (Option Nat × List Reg × Bool)) : State :=
        let s' := s'.modGroup x.key fun g' =>
          (outs.foldl (fun g' o => g'.writeRegs o.1 dst.field.toNat o.2.1 false) g').zeroMasked x dst
        s'.remember g x.pc (outs.map fun o => (o.1.getD 127, o.2.1, o.2.2))
      let good : List (Option Nat × Place) := (s.blockOf g.key).elim [] fun b =>
        (x.allUnits.filter ok).map fun u => (u, placeOf b g.core (addr u))
      let lineNo (q : Option Nat × Place) : Nat := match q.2 with
        | .cluster off => 2 ^ 30 / 128 + off / 128
        | .localMem off _ => off / 128
      let c := s.core g.core
      let newReads := (good.map lineNo).eraseDups.filter fun ln => !c.reads.any fun e => e.group == g.key && e.isLocal && e.line == ln
      let noted (s : State) : State := if g.amber == .speculating then
          s.modCore g.core fun c => { c with reads := c.reads ++ newReads.map fun ln => ⟨g.key, true, ln⟩ } else s
      match g.redo? x.pc, s.blockOf g.key with
      | some r, _ =>
        .done (finish (noted (s'.modGroup x.key fun g' => g'.dropRedo x.pc))
          (r.vals.map fun v => (if v.1 == 127 then none else some v.1, v.2)))
      | none, none => .done s'
      | none, some b =>
        let late := good.any fun q => s.localWaits b g.core g.key q.2 n
        let spec := g.amber == .speculating
        if good.any fun q => s.ownAtomlMeets g q.2 n then .hold
        else if late then .wait
        else if spec && decide (Config.amberReadLines < c.reads.length + newReads.length) then
          .done ((s'.setGroup g).modGroup x.key fun g => { g with amber := .stalled })
        else
          let s' := noted s'
          .done (finish s' (x.allUnits.map fun u =>
            match good.find? fun q => q.1 == u with
            | none => (u, Val.zero.toRegs (widthRegs w), false)
            | some q =>
              let r := s'.placeRead g q.2 n
              (u, (⟨loadValue w r.1, false, r.2⟩ : Val).toRegs (widthRegs w), false))))
    noEngine

end Sys2Proof.Machine
end

