-- ==== Sys2Proof/Machine/Stores.lean ====
section
/-!
DEFINITION. Words that write memory: stores (06 R157, R158), atomics, reductions and compare-and-swap (06 R161 to
R163), their local forms, an engine program's stores; and the conflicts of Amber speculation (10 R248, 11 R273).
-/

namespace Sys2Proof.Machine

open Sys2Proof

/-! ### Conflicts with speculators (10 R248, 11 R273) -/

/-- A group takes part in a barrier. -/
def State.participates (s : State) (b : BarKey) (k : GKey) : Bool :=
  match b with
  | .block l i _ => k.launch == l && k.block == i
  | .band l i _ => k.launch == l && (s.blockOf k).any fun y => y.band == i
  | .tree l _ => k.launch == l

/-- The state of a barrier. -/
def State.barState (s : State) (b : BarKey) : BarState :=
  let find (bs : List BarState) (id : Nat) : BarState := (bs.find? fun x => x.id == id).getD ⟨id, 0, [], none⟩
  match b with
  | .block l i id => find ((s.block? l i).elim [] (·.bars)) id
  | .band l i id => find ((s.band? l i).elim [] (·.bars)) id
  | .tree l n =>
    match (s.launch? l).bind fun x => x.trees.find? fun t => t.n == n with
    | some t => ⟨n, t.phase, t.arrived, none⟩
    | none => ⟨n, 0, [], none⟩

/-- A speculator must not keep what a write of a group replaces: it waits at a barrier where the group has not arrived. -/
def State.exposed (s : State) (writer : GKey) (g : Group) : Bool :=
  (g.amber == .speculating || g.amber == .stalled) && g.key != writer &&
    g.ckpt.any fun c => s.participates c.bar writer && !(s.barState c.bar).arrived.contains writer

/-- A write of a group: every speculator at a barrier where the group has not arrived, with a read-table entry that
the write meets, goes back to its checkpoint (10 R249). -/
def State.conflict (s : State) (writer : GKey) (meets : AmberRead → Bool) : State :=
  (s.groups.filter fun g =>
    s.exposed writer g && (s.core g.core).reads.any fun r => r.group == g.key && meets r).foldl (fun s g => s.amberRollback g.key) s

/-- A global write by virtual address passes the crossbar. Lines of it that the core of a speculator holds are dropped, as a
cache may drop any line: a later load of the speculator then reads them at the home, behind the write (12 R293, R294). -/
def State.conflictGlobal (s : State) (writer : GKey) (va n : Nat) : State :=
  let lines := linesOf va n
  let s := ((s.groups.filter (s.exposed writer)).map fun g => (g.core, g.ctx)).eraseDups.foldl (fun s q =>
    (s.modCore q.1 fun c => lines.foldl (fun c ln => c.l1Drop q.2 (128 * ln)) c).dropFetches q.1 lines.contains) s
  s.conflict writer fun r => !r.isLocal && lines.contains r.line

/-- A write to a place. -/
def State.conflictPlace (s : State) (writer : GKey) (p : Place) (n : Nat) : State :=
  let base := match p with
    | .cluster off => 2 ^ 30 + off
    | .localMem off _ => off
  s.conflict writer fun r => r.isLocal && r.group.block == (match p with
    | .cluster _ => r.group.block
    | .localMem .. => writer.block) && (linesOf base n).contains r.line

/-! ### Local writes -/

/-- Writes local or cluster memory: the undo record keeps what a local write replaced (19 R378); `outside` marks a
write from outside the core's region, `cmd` one of a command, `writer` one of a group's words. -/
def State.placeStore (s : State) (launch block : Nat) (p : Place) (bs : List Byte) (poison outside : Bool)
    (cmd : Option Nat := none) (writer : Option GKey := none) : State :=
  let write (s : State) : State := s.setPlaceMem launch block p fun m =>
    let m := m.store p.off bs
    if poison then m.markPoison p.off bs.length else m
  match p, s.block? launch block with
  | .cluster _, _ => write s
  | .localMem .., none => s
  | .localMem off _, some b =>
    let core := if b.core2.isSome && decide (b.split ≤ off) then b.core2.getD b.core else b.core
    let now := s.clockOf core
    let keep : Undo := ⟨now, writer, block, launch, p.off, b.mem.readN p.off bs.length, bs, outside, cmd,
      (wordsOf p.off bs.length).filter b.mem.poison.contains, poison⟩
    write (s.modCore core fun c =>
      { c with undo := (c.undo.filter fun (u : Undo) => decide (now ≤ u.cycle + 640)) ++ [keep] })

/-! ### Stores -/

/-- The write-class words wait: st stands at 63, or the side log is full (06 R170, R172). -/
def State.writeWaits (s : State) (g : Group) : Bool :=
  g.full .st || decide (Config.sideLogEntries ≤ ((s.core g.core).log.filter (·.inLog)).length)

/-- Lines of the Amber store buffer in use. -/
def amberLines (es : List AmberStore) : Nat :=
  ((es.flatMap fun e => (linesOf e.store.addr e.store.bytes.length).map fun ln => (e.group, e.space, ln)).eraseDups).length

/-- A speculator's stores go into the buffer; when it is full the group stalls (10 R246). -/
def bufferStores (x : Issue) (g : Group) (s' : State) (es : List AmberStore) : Effect :=
  let all := (s'.core g.core).stores ++ es
  if decide (Config.amberStoreLines < amberLines all) then
    .done ((s'.setGroup g).modGroup x.key fun g => { g with amber := .stalled })
  else .done (s'.modCore g.core fun c => { c with stores := all })

/-- The stored lanes of a word, merged: `addr` gives each unit's address (06 R157, R158). -/
def storeLanes (s : State) (x : Issue) (g : Group) (w : Nat) (addr : Option Nat → Nat) (wc : Option Nat → Bool) :
    List LaneStore :=
  mergeLanes (x.units.map fun u =>
    let v := readRole s g x.desc u .d
    let a := addr u
    { lane := u.getD 0, addr := a, va := a, bytes := natBytes (widthBytes w) v.bits.toNat,
      tag := if w == 7 then some (v.tag && wc u) else none, poison := false })

/-- A global store (06 R157, R170). -/
def globalStore (i : Instr) (s : State) (w : Nat) (addr : State → Issue → Group → Option Nat → Cap × Nat)
    (eng : Engine → Desc → State → State) : Out :=
  issueWord i s
    (fun x g u =>
      let ca := addr s x g u
      globalCheck s ca.2 (widthBytes w) ca.1 rightW (w == 7) [.a, .b, .d] x g u)
    (fun x g s' =>
      let lanes := storeLanes s x g w (fun u => (addr s x g u).2) fun u => (addr s x g u).1.has rightWC
      if lanes.isEmpty then .done s'
      else if g.amber == .speculating then bufferStores x g s' (lanes.map fun l => ⟨g.key, some .global, l⟩)
      else if s.writeWaits g then .hold
      else
        let (id, send, s') := s'.claim x.key
        let s' := if send then s'.modGroup x.key fun g' => g'.startOp .st id else s'
        .done (s'.send x.key (id, send) (.store .global lanes)))
    eng

/-- `st`. -/
def execSt (p : Pfx) (f : FmtM) (s : State) : Out := globalStore (.st p f) s f.w.toNat addrReg noEngine

/-- `sti` in an engine program: its write leaves no earlier than 256 cycles later (12 R284). -/
def engineStore (f : FmtM) (e : Engine) (d : Desc) (s : State) : State :=
  let w := f.w.toNat
  let n := widthBytes w
  let c := Cap.ofVal (e.readRole d .a)
  let a := globalAddr c (f.o.toInt * (n : Int))
  if (capCheck c a n rightW).isSome || (w == 7 && a % 16 != 0) then s.stopEngine e.id 4
  else
    match e.poisonIn d [.a, .d] with
    | some r => s.engineConsume e r
    | none =>
      let v := match d.opnd? .d with
        | some o => e.readOpnd o
        | none => Val.zero
      let lane : LaneStore :=
        { lane := 0, addr := a, va := a, bytes := natBytes n v.bits.toNat,
          tag := if w == 7 then some (v.tag && c.has rightWC) else none, poison := false }
      match e.redoCmd? with
      | some id =>
        s.recommand e (.sti none f) id (((s.core e.core).hold.any fun r => r.id == id) || s.inflight.any fun i => i.id == id)
      | none =>
        let id := s.nextId
        let s := { s with nextId := id + 1 }
        let s := s.recommand e (.sti none f) id true
        s.modCore e.core fun co =>
          { co with hold := co.hold ++
              [⟨id, 0, e.group, s.clockOf e.core, none, some (e.id, e.count, e.pc), .store .global [lane]⟩] }

/-- `sti`. -/
def execSti (p : Pfx) (f : FmtM) (s : State) : Out :=
  globalStore (.sti p f) s f.w.toNat (addrImm f.o (widthBytes f.w.toNat)) (engineStore f)

/-- The block-local address of a local word in a unit. -/
def localAddr (s : State) (x : Issue) (g : Group) (u : Option Nat) : Nat :=
  ((readRole s g x.desc u .a).w + (readRole s g x.desc u .b).w).toNat

/-- The space that requests to a place travel in; none for the core's own local memory. -/
def Place.space : Place → Option Space
  | .localMem _ false => none
  | .localMem _ true => some .partner
  | .cluster _ => some .cluster

/-- `stl`: writes to the core's own local memory take effect at once and are counted until they are past the Shadow window;
others wait in the hold queue (06 R157, R170, 11 R258). -/
def execStl (p : Pfx) (f : FmtM) (s : State) : Out :=
  let w := f.w.toNat
  let n := widthBytes w
  issueWord (.stl p f) s (localCheck s n [.a, .b, .d])
    (fun x g s' =>
      match s.blockOf g.key with
      | none => .done s'
      | some b =>
        let lanes := (storeLanes s x g w (localAddr s x g) fun _ => false).map fun l => (placeOf b g.core l.addr, l)
        if lanes.isEmpty then .done s'
        else if s.localTested g.core && lanes.any fun q => q.1.space.isNone then .wait
        else if g.amber == .speculating then
          bufferStores x g s' (lanes.map fun q => ⟨g.key, q.1.space, { q.2 with addr := q.1.off }⟩)
        else if s.writeWaits g then .hold
        else
          let s' := (lanes.filter fun q => q.1.space.isNone).foldl (fun s' q =>
            (s'.conflictPlace g.key q.1 n).placeStore g.key.launch g.key.block q.1 q.2.bytes false false none (some g.key)) s'
          let far := lanes.filter fun q => q.1.space.isSome
          if far.isEmpty then
            let (id, s') := s'.fresh
            .done (s'.modGroup x.key fun g' => g'.startAged id (s.clockOf g.core)).wake
          else
            let (id, send, s') := s'.claim x.key
            let s' := if send then s'.modGroup x.key fun g' => g'.startOp .st id else s'
            let sp := if far.any (fun q => q.1.space == some .cluster) then Space.cluster else Space.partner
            .done (s'.send x.key (id, send)
              (.store sp (far.map fun q => { q.2 with addr := q.1.off, va := if q.1.space == some .cluster then 1 else 0 }))).wake)
    noEngine

/-! ### Read-modify-write (06 R161 to R163) -/

/-- How FP32 operations at the home round: RNE, DN taken as 0 (06 R162). -/
def homeEnv : FloatEnv := ⟨.rne, false, false⟩

/-- An integer operation at width `n` (06 R161). -/
def intAtom {n : Nat} (aop : Nat) (old x : BitVec n) : BitVec n :=
  match aop with
  | 0 => old + x
  | 1 => old &&& x
  | 2 => old ||| x
  | 3 => old ^^^ x
  | 4 => if x.toInt < old.toInt then x else old
  | 5 => if old.toInt < x.toInt then x else old
  | 6 => if x.toNat < old.toNat then x else old
  | _ => if old.toNat < x.toNat then x else old

/-- The new value of a read-modify-write; none when nothing is written (06 R162, R163). -/
def rmwNew (op : AtomOp) (old x cmp : DWord) : Option DWord :=
  match op with
  | .i32 a => some ((intAtom a (bitsOf old 0 32) (bitsOf x 0 32)).setWidth 64)
  | .i64 a => some (intAtom a old x)
  | .f32 a =>
    let o := (bitsOf old 0 32).toNat
    let y := (bitsOf x 0 32).toNat
    let r := match a with
      | 0 => floatAdd fp32 homeEnv (unpack fp32 o) (unpack fp32 y)
      | 1 => floatMinMax false false o y
      | _ => floatMinMax false true o y
    some (BitVec.ofNat 64 r.bits)
  | .cas w => if w then (if old == cmp then some x else none)
    else if bitsOf old 0 32 == bitsOf cmp 0 32 then some x else none
  | .xchg _ => some x

/-- The lanes of a read-modify-write word. -/
def rmwLanes (s : State) (x : Issue) (g : Group) (addr : Option Nat → Nat) : List LaneRmw :=
  x.units.map fun u =>
    let a := addr u
    let d := (readRole s g x.desc u .d).dw
    ⟨u.getD 0, a, a, d, if (x.desc.opnd? .c).isSome then (readRole s g x.desc u .c).dw else d⟩

/-- Where a word's results go. -/
def destOf (x : Issue) (g : Group) (o : Opnd) : Dest :=
  { uniform := isUni o.field
    regs := x.units.map fun u => (u.getD 0, g.regNum u o.field.toNat)
    count := o.count }

/-- A result of request `id` in a unit: known already after a rollback, or still to come; its registers hold the drain
of their run (01 R21, 19 R380). `run` tells a weight run from a datum. -/
def Group.reserve (g : Group) (u : Option Nat) (f n id : Nat) (r : Option Ret) (run : Bool) : Group :=
  match r.bind fun r => r.vals.find? fun v => v.1 == u.getD 127 && v.2.2 == run with
  | some v => g.writeRegs u f v.2.1 false
  | none => g.writeRegs u f (List.replicate n ⟨0, false⟩) false (some id)

/-- A word needs a return slot and none is free (11 R264). -/
def State.slotsFull (s : State) (core : Nat) : Bool := decide (Config.returnSlots ≤ (s.core core).slotsUsed.length)

/-- The lines an atomic names are invalidated in the issuing core's L1 as it issues (06 R149). -/
def State.dropLines (s : State) (core ctx : Nat) (vas : List Nat) : State :=
  s.modCore core fun c => vas.foldl (fun c va => c.l1Drop ctx va) c

/-- Translations of a list of ranges, as a write or as a read-modify-write: the first failure of any is a trap, a
resolvable one waits, and else each has its key. -/
inductive Placed where
  | trap (errs : List UnitErr)
  | pages (ps : List Nat)
  | keys (ks : List Nat)

/-- Translates one range per unit at issue (06 R171). -/
def State.placeAll (s : State) (port ctx n : Nat) (a : Access) (us : List (Option Nat × Nat)) : Placed × State :=
  let r := us.foldl (fun (acc : List (Option Nat × Nat × List (Nat × Xlat)) × State) q =>
    let t := acc.2.translateRange port ctx q.2 n a
    (acc.1 ++ [(q.1, q.2, t.1)], t.2)) ([], s)
  let errs := r.1.filterMap fun q => (worstFail q.2.2).map fun c =>
    (⟨q.1, c, if c == tFEATURE then 9 else BitVec.ofNat 64 q.2.1⟩ : UnitErr)
  let pages := r.1.flatMap fun q => resolvablePages q.2.2
  if !errs.isEmpty then (.trap errs, r.2)
  else if !pages.isEmpty then (.pages pages.eraseDups, r.2)
  else (.keys (r.1.map fun q => keyAt q.2.2 q.2.1), r.2)

/-- Translates at issue, or takes what the word's translation gave before a rollback (19 R380). -/
def State.placeOnce (s : State) (g : Group) (pc : Word) (second : Bool) (n : Nat) (a : Access) (us : List (Option Nat × Nat)) :
    Placed × State :=
  match g.redoKeys? pc second with
  | some ks => (.keys ks, s)
  | none => s.placeAll (dieOfCore g.core) g.ctx n a us

/-- A group waits for pages: the word executes again when they are mapped (06 R171). -/
def waitPages (x : Issue) (g : Group) (s : State) (ps : List Nat) : Effect :=
  .done ((s.setGroup g).modGroup g.key fun g => g.parkFault x.issuing ps)

/-- A global atomic or `cas` (06 R171): translated at issue; performed at the home; its replies write d. -/
def globalAtom (i : Instr) (op : AtomOp) (s : State) : Out :=
  let n := op.bytes
  let rights := rightA ||| rightR ||| rightW
  issueWord i s
    (fun x g u =>
      let ca := addrReg s x g u
      globalCheck s ca.2 n ca.1 rights true [.a, .b, .d, .c] x g u)
    (fun x g s' =>
      match x.desc.opnd? .d with
      | none => .done s'
      | some o =>
        let addr (u : Option Nat) : Nat := (addrReg s x g u).2
        let lanes := rmwLanes s x g addr
        let s' := s'.modGroup x.key fun g' => (g'.freeLast x).zeroMasked x o
        if lanes.isEmpty then .done s'
        else
          let (id, send, s2) := s'.claim x.key
          let pending := { pendOf x id [] with issued := s.clockOf g.core }
          match g.redoOp? id with
          | some r =>
            .done ((s2.modGroup x.key fun g' =>
              let g' := x.units.foldl (fun g' u => g'.reserve u o.field.toNat o.count id (some r) false)
                ((g'.dropRedoOp id).dropKeys x.pc)
              { g' with pend := g'.pend ++ [pending] }).rememberRet g r)
          | none =>
            if s.writeWaits g || s.slotsFull g.core then .hold
            else
              match s2.placeOnce g x.pc false n { rmw := true } (x.units.map fun u => (u, addr u)) with
              | (.trap errs, _) => match verdict x errs with
                | some t => .fail t
                | none => .hold
              | (.pages ps, s3) => waitPages x g s3 ps
              | (.keys ks, s3) =>
                if send && lanes.any fun l => s3.pageLogged g.core g.ctx l.va n then .hold
                else
                  let lanes := (lanes.zip ks).map fun q => { q.1 with addr := q.2 }
                  let far := ks.any fun k => decide (2 ≤ keyTier k)
                  let s3 := s3.dropLines g.core g.ctx (lanes.map (·.va))
                  let s3 := (s3.modGroup x.key fun g' => g'.dropKeys x.pc).remember g x.pc [keptKeys false ks]
                  let s3 := s3.modGroup x.key fun g' =>
                    let g' := x.units.foldl (fun g' u => g'.reserve u o.field.toNat o.count id none false) g'
                    let g' := if send then g'.startOp .st id else g'
                    if far then { g'.parkOp x pending with remote := g'.remote ++ [2 * id + 1] }
                    else { g' with pend := g'.pend ++ [pending] }
                  let s3 := if send then s3.modCore g.core fun c => { c with slotsUsed := c.slotsUsed ++ [id] } else s3
                  .done (s3.send x.key (id, send) (.rmw .global op (some (destOf x g o)) lanes)))
    noEngine

/-- A global reduction: translated when it leaves, like a store (06 R172). -/
def globalRed (i : Instr) (op : AtomOp) (s : State) : Out :=
  let rights := rightA ||| rightR ||| rightW
  issueWord i s
    (fun x g u =>
      let ca := addrReg s x g u
      globalCheck s ca.2 op.bytes ca.1 rights true [.a, .b, .d] x g u)
    (fun x g s' =>
      let lanes := rmwLanes s x g fun u => (addrReg s x g u).2
      if lanes.isEmpty then .done s'
      else if s.writeWaits g then .hold
      else
        let (id, send, s') := s'.claim x.key
        let s' := s'.dropLines g.core g.ctx (lanes.map (·.va))
        let s' := if send then s'.modGroup x.key fun g' => g'.startOp .st id else s'
        .done (s'.send x.key (id, send) (.rmw .global op none lanes)))
    noEngine

def execAtomI32 (p : Pfx) (f : FmtM) (s : State) : Out := globalAtom (.atomI32 p f) (.i32 f.w.toNat) s
def execAtomI64 (p : Pfx) (f : FmtM) (s : State) : Out := globalAtom (.atomI64 p f) (.i64 f.w.toNat) s
def execAtomF32 (p : Pfx) (f : FmtM) (s : State) : Out := globalAtom (.atomF32 p f) (.f32 f.w.toNat) s
def execRedI32 (p : Pfx) (f : FmtM) (s : State) : Out := globalRed (.redI32 p f) (.i32 f.w.toNat) s
def execRedI64 (p : Pfx) (f : FmtM) (s : State) : Out := globalRed (.redI64 p f) (.i64 f.w.toNat) s
def execRedF32 (p : Pfx) (f : FmtM) (s : State) : Out := globalRed (.redF32 p f) (.f32 f.w.toNat) s

/-- `cas`: AOP 0 and 1 compare, 2 and 3 exchange (06 R163). -/
def execCas (p : Pfx) (f : FmtM) (s : State) : Out :=
  let op : AtomOp := match f.w.toNat with
    | 0 => .cas false
    | 1 => .cas true
    | 2 => .xchg false
    | _ => .xchg true
  globalAtom (.cas p f) op s

/-- One read-modify-write at a place: the old value, and the state after it. -/
def State.placeRmw (s : State) (writer : GKey) (p : Place) (op : AtomOp) (l : LaneRmw) (outside : Bool) : Reg × State :=
  let n := op.bytes
  let m := s.placeMem writer.launch writer.block p
  let old : DWord := BitVec.ofNat 64 (bytesNat (m.readN p.off n))
  let poison := m.poisonedN p.off n
  let s := s.conflictPlace writer p n
  let s := match rmwNew op old l.x l.cmp with
    | some v => s.placeStore writer.launch writer.block p (natBytes n v.toNat) poison outside none (some writer)
    | none => s
  (⟨bitsOf old 0 32, poison⟩, s)

/-- `atoml`: at the core's own local memory at once, counted until it is past the Shadow window; at the partner half or cluster memory through the hold queue
(06 R162, 11 R258, R259). -/
def execAtoml (p : Pfx) (f : FmtM) (s : State) : Out :=
  let op : AtomOp := .i32 f.w.toNat
  issueWord (.atoml p f) s (localCheck s 4 [.a, .b, .d])
    (fun x g s' =>
      match x.desc.opnd? .d, s.blockOf g.key with
      | some o, some b =>
        let lanes := (rmwLanes s x g (localAddr s x g)).map fun l => (placeOf b g.core l.addr, l)
        let unit (l : LaneRmw) : Option Nat := if x.once then none else some l.lane
        let s' := s'.modGroup x.key fun g' => g'.zeroMasked x o
        if lanes.isEmpty then .done s'
        else if s.localTested g.core && lanes.any fun q => q.1.space.isNone then .wait
        else if s.writeWaits g then .hold
        else
          let s' := (lanes.filter fun q => q.1.space.isNone).foldl (fun s' q =>
            let r := s'.placeRmw g.key q.1 op q.2 false
            r.2.modGroup x.key fun g' => g'.writeRegs (unit q.2) o.field.toNat [r.1] false) s'
          let far := lanes.filter fun q => q.1.space.isSome
          if far.isEmpty then
            let (id, s') := s'.fresh
            .done (s'.modGroup x.key fun g' => g'.startAged id (s.clockOf g.core)).wake
          else
            let (id, send, s') := s'.claim x.key
            let s' := s'.modGroup x.key fun g' =>
              let r := g.redoOp? id
              let g' := far.foldl (fun g' q => g'.reserve (unit q.2) o.field.toNat 1 id r false) (g'.dropRedoOp id)
              let g' := { g' with pend := g'.pend ++ [{ pendOf x id [] with issued := s.clockOf g.core }] }
              if send then g'.startOp .st id else g'
            let dst := { destOf x g o with regs := far.map fun q => (q.2.lane, g.regNum (unit q.2) o.field.toNat) }
            .done (s'.send x.key (id, send)
              (.rmw .cluster op (some dst) (far.map fun q =>
                { q.2 with addr := q.1.off, va := if q.1.space == some .cluster then 1 else 0 }))).wake
      | _, _ => .done s')
    noEngine

end Sys2Proof.Machine
end

