-- ==== Sys2Proof/Machine/Fences.lean ====
section
/-!
DEFINITION. Fences (06 R164, 12 R280, R285), cache and translation control (06 R165), memory-side commands as their
word starts them (06 R166, R167), and the protection-key register (06 R168, R169).
-/

namespace Sys2Proof.Machine

open Sys2Proof

/-! ### Fences -/

/-- A fence parks its fibres until what it waits for is done; `acks` are the requests of the core that have left its hold
queue and are not acknowledged (12 R280 b). At grp scope it waits for nothing and does nothing. -/
def fenceWord (i : Instr) (s : State) (grp waitsAcks : Bool) : Out :=
  issueWord i s noCheck
    (fun x g s' =>
      if grp then .done s'
      else
        let acks := if waitsAcks then s.leftWrites g.core else []
        let (id, s') := s'.fresh
        .done (s'.modGroup x.key fun g' => g'.parkOp x { pendOf x id [] with acks := acks }).wake)
    noEngine

/-- `fence acq`. -/
def execFenceAcq (f : FmtF) (s : State) : Out := fenceWord (.fenceAcq f) s (f.scope == 0) false
/-- `fence rel`. -/
def execFenceRel (f : FmtF) (s : State) : Out := fenceWord (.fenceRel f) s (f.scope == 0) true
/-- `fence ar`. -/
def execFenceAr (f : FmtF) (s : State) : Out := fenceWord (.fenceAr f) s (f.scope == 0) true
/-- `fence xpath`. -/
def execFenceXpath (f : FmtF) (s : State) : Out := fenceWord (.fenceXpath f) s false false

/-! ### Cache and translation control -/

/-- `cctl.invl1`. -/
def execCctlInvl1 (f : FmtM) (s : State) : Out :=
  issueWord (.cctlInvl1 f) s noCheck (fun _ g s' => .done (s'.invalL1 g.core)) noEngine

/-- `cctl.invline`: the line of each active lane's address. -/
def execCctlInvline (f : FmtM) (s : State) : Out :=
  issueWord (.cctlInvline f) s
    (fun x g u =>
      let ca := addrReg s x g u
      globalCheck s ca.2 1 ca.1 rightR false [.a, .b] x g u)
    (fun x g s' => .done (s'.dropLines g.core g.ctx (x.units.map fun u => (addrReg s x g u).2)))
    noEngine

/-- `cctl.invpt`: every port drops the context's entries; the fibres park until all have answered. -/
def execCctlInvpt (f : FmtM) (s : State) : Out :=
  issueWord (.cctlInvpt f) s noCheck (fun x g s' => .done (unitRequest x g s' [] [] [] true)) noEngine

/-- `cctl.invpg`: the entries that translate the page of each active lane's address. -/
def execCctlInvpg (f : FmtM) (s : State) : Out :=
  issueWord (.cctlInvpg f) s
    (fun x g u =>
      let ca := addrReg s x g u
      globalCheck s ca.2 1 ca.1 rightM false [.a, .b] x g u)
    (fun x g s' =>
      let pages := x.units.map fun u =>
        (addrReg s x g u).2 / 65536
      .done (unitRequest x g s' [] (pages.map fun p => ⟨BitVec.ofNat 32 p, false⟩) [] true))
    noEngine

/-- A prefetch into L1: a line whose capability check or translation would fail, or that must wait, is left alone. DESIGN
CHOICE (log entry 149): the right it needs is R, and a poisoned C or O is no consumption; 06 R165 says only that a prefetch
raises nothing. -/
def State.prefetch (s : State) (g : Group) (c : Cap) (va : Nat) : State :=
  if (capCheck c va 1 rightR).isSome then s
  else
    match s.translate (dieOfCore g.core) g.ctx va {} with
    | (.ok key _, s') =>
      if 2 ≤ keyTier key || s'.lineWaits g key || s'.pageLogged g.core g.ctx va 1 then s
      else s'.modCore g.core fun co => if (co.l1Line g.ctx va).isSome then co else co.l1Fill g.ctx va (s'.mem.line key)
    | _ => s

/-- `cctl.pf.l1`. -/
def execCctlPfL1 (f : FmtM) (s : State) : Out :=
  issueWord (.cctlPfL1 f) s noCheck
    (fun x g s' => .done (x.units.foldl (fun s' u =>
      let ca := addrReg s x g u
      s'.prefetch g ca.1 ca.2) s'))
    noEngine

/-- `cctl.pf.llc`: what the last-level cache holds changes no value (15 R305), so nothing else changes. -/
def execCctlPfLlc (f : FmtM) (s : State) : Out :=
  issueWord (.cctlPfLlc f) s noCheck (fun _ _ s' => .done s') noEngine

/-! ### Memory-side commands -/

/-- Parameters that make a command illegal: a count of `rdo` out of range, a length that is no multiple of 4. -/
def mscIllegalCount (cmd p1 : Nat) : Bool :=
  match cmd with
  | 1 => p1 == 0 || decide (65536 < p1)
  | 2 => false
  | _ => p1 % 4 != 0

/-- Two ranges overlap, neither being empty. -/
def rangesMeet (a n b m : Nat) : Bool := decide (a < b + m) && decide (b < a + n) && n != 0 && m != 0

/-- The first register of the parameter quad. -/
def mscField (x : Issue) : Nat := (x.desc.ops.find? fun o => o.role == .y).elim 0 (·.field.toNat)

/-- The checks of a memory-side command. DESIGN CHOICE (log entry 150): among its own checks the count comes first, then the
capabilities, the alignment and the overlap; 06 R166 gives no order. -/
def mscCheck (s : State) (cmd : Nat) : Issue → Group → Option Nat → Option UnitErr := fun x g u =>
  let p (k : Nat) : Nat := (((readField s g u (mscField x + k)).1).elim 0 (·.val.toNat))
  let t := Cap.ofVal (readRole s g x.desc u .a)
  let o := Cap.ofVal (readRole s g x.desc u .b)
  let ext := mscExtents cmd (p 0) (p 1)
  let illegal : UnitErr := ⟨u, tILLEGAL, baseWord64 x.instr⟩
  if mscIllegalCount cmd (p 1) then some illegal
  else
    match capCheck t t.addr ext.1 rightM with
    | some c => some ⟨u, c, BitVec.ofNat 64 t.addr⟩
    | none =>
      match if cmd == 0 then none else capCheck o o.addr ext.2 rightM with
      | some c => some ⟨u, c, BitVec.ofNat 64 o.addr⟩
      | none =>
        if t.addr % 4 != 0 then some ⟨u, tALIGN, BitVec.ofNat 64 t.addr⟩
        else if cmd != 0 && o.addr % 4 != 0 then some ⟨u, tALIGN, BitVec.ofNat 64 o.addr⟩
        else if cmd != 0 && rangesMeet t.addr ext.1 o.addr ext.2 then some illegal
        else consumes s g u (roleFields x.desc [.a, .b, .d, .x])

/-- A memory-side command: it counts in ms, and its request leaves behind the group's older writes (06 R167). -/
def mscWord (i : Instr) (cmd : Nat) (rel : Bool) (s : State) : Out :=
  issueWord i s (mscCheck s cmd)
    (fun x g s' =>
      if g.full .ms then .hold
      else
        let p (k : Nat) : Word := ((readField s g none (mscField x + k)).1).elim 0 (·.val)
        let t := Cap.ofVal (readRole s g x.desc none .a)
        let o := Cap.ofVal (readRole s g x.desc none .b)
        let (id, send, s') := s'.claim x.key
        if send then
          let s' := s'.modGroup x.key fun g' => g'.startOp .ms id
          let s' := s'.send x.key (id, send) (.msc id)
          .done { s' with mscs := s'.mscs ++
            [{ id := id, owner := .group g.key, ctx := g.ctx, core := g.core, cmd := cmd, rel := rel, target := t.addr,
               source := o.addr, p0 := p 0, p1 := p 1, p2 := p 2, left := false, pos := 0, buf := [], before := [] }] }
        else .done s')
    noEngine

/-- `msc.fill`. -/
def execMscFill (f : FmtM) (s : State) : Out := mscWord (.mscFill f) 0 (bitOf f.w 2) s
/-- `msc.rdo`. -/
def execMscRdo (f : FmtM) (s : State) : Out := mscWord (.mscRdo f) 1 (bitOf f.w 2) s
/-- `msc.axpy`. -/
def execMscAxpy (f : FmtM) (s : State) : Out := mscWord (.mscAxpy f) 2 (bitOf f.w 2) s
/-- `msc.copy`. -/
def execMscCopy (f : FmtM) (s : State) : Out := mscWord (.mscCopy f) 3 (bitOf f.w 2) s

/-! ### Protection keys -/

/-- `pkr.set`: its value goes to every port once st is 0; the fibres park until every port has answered. -/
def execPkrSet (f : FmtRM) (s : State) : Out :=
  issueWord (.pkrSet f) s noCheck
    (fun x g s' =>
      let args := (List.range 2).map fun k => ((readField s g none (f.a.toNat + k)).1).getD ⟨0, false⟩
      let s' := s'.modGroup x.key fun g' => g'.freeLast x
      .done (unitRequest x g s' [] args [] true))
    noEngine

/-- `pkr.get`: the value most recently set for the context. -/
def execPkrGet (f : FmtRM) (s : State) : Out :=
  issueWord (.pkrGet f) s noCheck
    (fun x g s' =>
      let v := (s.ctx? g.ctx).elim 0 (·.pkr)
      match x.desc.opnd? .d with
      | some o => .done (s'.modGroup x.key fun g' => g'.writeOpnd none o ⟨v.setWidth 128, false, false⟩)
      | none => .done s')
    noEngine

end Sys2Proof.Machine
end

