-- ==== Sys2Proof/Machine/Far.lean ====
section
/-!
DEFINITION. How operations that take several accesses reach memory by its key: TIER 0 and 1 at once, the host and
peers by messages that are answered later (15 R301, 20 R402, 22 R428); and 64-bit completion tokens (10 R234, R239).
-/

namespace Sys2Proof.Machine

open Sys2Proof

/-- Fabric message types (22 R421). -/
def mRD : Nat := 1
def mRDRESP : Nat := 2
def mWR : Nat := 3
def mWRACK : Nat := 4
def mATOM : Nat := 5
def mATOMRESP : Nat := 6
def mNACK : Nat := 7
def mARRIVE : Nat := 8
def mRELEASE : Nat := 9
def mWITHDRAW : Nat := 10
def mWDACK : Nat := 11
def mEVSTREAM : Nat := 12

/-- One access of an operation: key, bytes, message type, code, data. -/
structure FarReq where
  key : Nat
  n : Nat
  type : Nat
  code : Nat
  data : List Byte
  deriving DecidableEq, Repr

/-- Sends what has not been sent for operation `id`, and gives all answers once every access is answered. Several ATOMs are one
transfer, which its target performs with nothing between (22 R421 LAST). -/
def State.farAll (s : State) (id : Nat) (rs : List FarReq) : Option (List Answer) × State :=
  let found (s : State) (r : FarReq) : Option Answer := s.fabric.answers.find? fun a => a.id == id && a.key == r.key
  let s := rs.foldl (fun (s : State) r =>
    if (found s r).isSome || s.fabric.remote.any (fun q => q.for' == .op id r.key) then s
    else (s.askRemote r.key r.n (.op id r.key) r.type r.code r.data (r.type != mATOM || rs.getLast? == some r)).2) s
  let as := rs.filterMap (found s)
  if as.length == rs.length then
    (some as, { s with fabric := { s.fabric with
      answers := s.fabric.answers.filter fun a => !(a.id == id && rs.any fun r => r.key == a.key) } })
  else (none, s)

/-- What an access of several pieces gives: it waits, its bytes and whether any is poisoned, or its failure. -/
inductive FarRes where
  | wait
  | data (bs : List Byte) (poison : Bool)
  | fail (code : BitVec 8) (key : Nat)
  deriving DecidableEq, Repr

/-- The result of all answers. -/
def farResult : Option (List Answer) → FarRes
  | none => .wait
  | some as =>
    match as.find? fun a => a.fail.isSome with
    | some a => .fail (a.fail.getD 0) a.key
    | none => .data (as.flatMap (·.data)) (as.any (·.poison))

/-- A range cut into aligned pieces of 1, 2, 4 and up to 128 bytes, as messages carry them (22 R421). -/
def cutPieces : Nat → Nat → Nat → List (Nat × Nat)
  | 0, _, _ => []
  | fuel + 1, a, n =>
    if n == 0 then []
    else
      let p := (([128, 64, 32, 16, 8, 4, 2].find? fun p => a % p == 0 && decide (p ≤ n))).getD 1
      (a, p) :: cutPieces fuel (a + p) (n - p)

/-- Reads pieces (key, bytes) at their homes, in order; a refresh, or a soft instruction at its granule, stalls. -/
def State.readPieces (s : State) (id : Nat) (ps : List (Nat × Nat)) : FarRes × State :=
  if ps.any fun p => s.stalls (some id) p.1 p.2 then (.wait, s)
  else if ps.any fun p => decide (2 ≤ keyTier p.1) then
    let r := s.farAll id ((ps.filter fun p => decide (2 ≤ keyTier p.1)).map fun p => ⟨p.1, p.2, mRD, 0, []⟩)
    match r.1 with
    | none => (.wait, r.2)
    | some as =>
      (farResult (some (ps.map fun p =>
        if 2 ≤ keyTier p.1 then (as.find? fun a => a.key == p.1).getD ⟨id, p.1, none, false, []⟩
        else ⟨id, p.1, none, s.mem.poisonedN p.1 p.2, s.mem.readN p.1 p.2⟩)), r.2)
  else (.data (ps.flatMap fun p => s.mem.readN p.1 p.2) (ps.any fun p => s.mem.poisonedN p.1 p.2), s)

/-- A home of this device has performed a step for a launch: by its service group, or by the slice alone (11 R262, R274). -/
def State.noteServed (s : State) (home launch : Nat) (group : Bool) : State :=
  let same (e : Served) : Bool := e.home == home && e.launch == launch && e.group == group
  { s with served := s.served.filter (fun e => !same e) ++ [⟨home, launch, group, (s.die (home / 16)).clock⟩] }

/-- A service group has performed a step at a key for a launch. -/
def State.servedAt (s : State) (port key : Nat) (launch : Option Nat) : State :=
  match launch with
  | some l => if keyTier key < 2 then s.noteServed (s.homeOf port (keyTier key) (keyPa key)) l true else s
  | none => s

/-- Writes pieces at keys: at once where the memory is this device's, and by messages elsewhere. -/
def State.writePieces (s : State) (id : Nat) (ps : List (Nat × List Byte × Bool)) : FarRes × State :=
  let near := ps.filter fun p => decide (keyTier p.1 < 2)
  let far := ps.filter fun p => decide (2 ≤ keyTier p.1)
  if ps.any fun p => s.locked (some id) p.1 p.2.1.length then (.wait, s)
  else if far.isEmpty then
    (.data [] false, near.foldl (fun (s : State) p => { s with mem := s.mem.write p.1 p.2.1 p.2.2 }) s)
  else
    let r := s.farAll id (far.map fun p => ⟨p.1, p.2.1.length, mWR, if p.2.2 then 1 else 0, p.2.1⟩)
    match farResult r.1 with
    | .wait => (.wait, r.2)
    | q => (q, near.foldl (fun (s : State) p => { s with mem := s.mem.write p.1 p.2.1 p.2.2 }) r.2)

/-! ### Tokens -/

/-- What a step on a token gives: it waits, the token's value as it stood, or a failure, of a translation or at the host, or at
a peer. -/
inductive TokenRes where
  | wait
  | old (v : DWord)
  | fail (code : BitVec 8) (fab : Bool)
  deriving DecidableEq, Repr

/-- Adds to the token at a virtual address, or observes it (`add` none), at its home; a resolvable fault waits
(10 R234, R235, R239, 18 R358). -/
def State.token (s : State) (id port ctx va : Nat) (launch : Option Nat) (add : Option DWord) : TokenRes × State :=
  match s.translate port ctx va { rmw := add.isSome } with
  | (.fail c, s) => (.fail c false, s)
  | (.resolvable, s) => (.wait, s)
  | (.ok key _, s) =>
    if s.stalls (some id) key 8 then (.wait, s)
    else if keyTier key < 2 then
      let old : DWord := BitVec.ofNat 64 (s.mem.readNat key 8)
      match add with
      | none => (.old old, s.servedAt port key launch)
      | some v => (.old old, { s.servedAt port key launch with mem := s.mem.write key (natBytes 8 (old + v).toNat) false })
    else
      let r := match add with
        | none => s.farAll id [⟨key, 8, mRD, 0, []⟩]
        | some v => s.farAll id [⟨key, 8, mATOM, 0, 1 :: natBytes 8 v.toNat⟩]
      match farResult r.1 with
      | .wait => (.wait, r.2)
      | .data bs _ => (.old (BitVec.ofNat 64 (bytesNat bs)), r.2)
      | .fail c _ => (.fail (if add.isSome then tREMFAULT else c) (keyTier key == 3), r.2)

/-- The checks of a token's capability: tag, 8 bytes of bounds, rights; its alignment (10 R234, R239). -/
def tokenCheck (c : Cap) (rights : BitVec 8) : Option (BitVec 8) :=
  (capCheck c c.addr 8 rights).orElse fun _ => if c.addr % 8 != 0 then some tALIGN else none

/-- The rights of a token that is incremented. -/
def tokenRights : BitVec 8 := rightA ||| rightR ||| rightW

end Sys2Proof.Machine
end

