-- ==== Sys2Proof/Machine/Soft.lean ====
section
/-!
DEFINITION. Soft memory (07): regions, weight runs, the arithmetic of each step, the words that start steps, and the
words on weight vectors in registers.
-/

namespace Sys2Proof.Machine

open Sys2Proof

/-! ### Arithmetic (07 R182) -/

/-- An FP32 value. -/
def fval (w : Word) : FloatVal := unpack fp32 w.toNat

/-- A sum of exact terms, rounded once with RNE, NaNs in the order of the sources. -/
def softSum (srcs : List FloatVal) (terms : List (Option FloatVal)) : Word :=
  BitVec.ofNat 32 (sumResult fp32 .rne false false srcs terms).bits

/-- 1 - w, exactly. -/
def oneMinus : FloatVal → FloatVal
  | .fin n m e => let r := exactSum [(false, 1, 0), (!n, m, e)]
                  .fin (decide (r.1 < 0)) r.1.natAbs r.2
  | .inf n => .inf (!n)
  | v => v

/-- a - b, exactly; none when invalid. NaN operands give a placeholder: the sources decide. -/
def exactDiff : FloatVal → FloatVal → Option FloatVal
  | .fin n1 m1 e1, .fin n2 m2 e2 =>
    let r := exactSum [(n1, m1, e1), (!n2, m2, e2)]
    some (.fin (if r.1 == 0 then zeroSign .rne [(n1, m1, e1), (!n2, m2, e2)] else decide (r.1 < 0)) r.1.natAbs r.2)
  | .nan .., _ => some (.fin false 0 0)
  | _, .nan .. => some (.fin false 0 0)
  | .inf a, .inf b => if a == b then none else some (.inf a)
  | .inf a, _ => some (.inf a)
  | _, .inf b => some (.inf (!b))

/-- The product of a value with an exact difference. -/
def prodDiff (g : FloatVal) (d : Option FloatVal) : Option FloatVal := d.bind fun d => prodTerm g d

/-- The sum of products of pairs, with sources in pairs' order. -/
def sumProducts (ps : List (FloatVal × FloatVal)) : Word :=
  softSum (ps.flatMap fun p => [p.1, p.2]) (ps.map fun p => prodTerm p.1 p.2)

/-- The blend of an element (07 R184). -/
def softBlend (old w v : Word) : Word :=
  softSum [fval old, fval w, fval v] [prodTerm (oneMinus (fval w)) (fval old), prodTerm (fval w) (fval v)]

/-- The additive store of an element (07 R184), and the gradient's update (07 R188). -/
def softAdd (old w v : Word) : Word := softSum [fval old, fval w, fval v] [some (fval old), prodTerm (fval w) (fval v)]

/-- The decay of a gradient under a blend (07 R189). -/
def softDecay (old w : Word) : Word := softSum [fval old, fval w] [prodTerm (oneMinus (fval w)) (fval old)]

/-! ### Steps (07 R183, R184, R188, R189, R196) -/

/-- The elements of a region, slot by slot: `m[n * k + j]` is M(n, j). -/
abbrev Slots := List Reg

/-- Element (n, j). -/
def Slots.at (m : Slots) (k n j : Nat) : Reg := m[n * k + j]?.getD ⟨0, false⟩

/-- A number of a list of words. -/
def wordAt (l : List Word) (n : Nat) : Word := l[n]?.getD 0

/-- Poison in slot `n`. -/
def Slots.slotPoison (m : Slots) (k n : Nat) : Bool := (List.range k).any fun j => (m.at k n j).poison

/-- What a step gives: the region's new elements (none when it only reads), the datum's registers, the run's. -/
structure StepOut where
  region : Option Slots
  datum : List Reg
  run : List Reg
  deriving DecidableEq, Repr

/-- One soft step on the elements of the region it stands at; the tape takes what the first step carries. -/
def softStep (op : SoftOp) (l : LaneSoft) (m : Slots) : StepOut :=
  let k := l.k
  let ns := List.range l.n
  let js := List.range k
  let w (n : Nat) : Word := wordAt l.weights n
  let v (j : Nat) : Word := wordAt l.vals j
  let e (n j : Nat) : Word := (m.at k n j).val
  match op with
  | .sld =>
    ⟨none, js.map fun j => ⟨sumProducts (ns.map fun n => (fval (w n), fval (e n j))), ns.any fun n => (m.at k n j).poison⟩, []⟩
  | .sst add =>
    ⟨some (ns.flatMap fun n => js.map fun j =>
      ⟨if add then softAdd (e n j) (w n) (v j) else softBlend (e n j) (w n) (v j), (m.at k n j).poison⟩), [], []⟩
  | .sldg =>
    ⟨none, [], ns.map fun n => ⟨sumProducts (js.map fun j => (fval (v j), fval (e n j))), m.slotPoison k n⟩⟩
  | .tape => ⟨some l.carry, [], []⟩
  | .grad =>
    ⟨some (ns.flatMap fun n => js.map fun j => ⟨softAdd (e n j) (w n) (v j), (m.at k n j).poison⟩), [], l.carry⟩
  | .sstg _ =>
    ⟨none, js.map fun j => ⟨sumProducts (ns.map fun n => (fval (w n), fval (e n j))), ns.any fun n => (m.at k n j).poison⟩,
      ns.map fun n => ⟨sumProducts (js.map fun j => (fval (e n j), fval (v j))), m.slotPoison k n⟩⟩
  | .back =>
    let t (n j : Nat) : Reg := Slots.at l.carry k n j
    ⟨some (ns.flatMap fun n => js.map fun j => ⟨softDecay (e n j) (w n), (m.at k n j).poison⟩),
      js.map fun j => ⟨sumProducts (ns.map fun n => (fval (w n), fval (e n j))), ns.any fun n => (m.at k n j).poison⟩,
      ns.map fun n =>
        ⟨softSum (js.flatMap fun j => [fval (e n j), fval (v j), fval (t n j).val])
            (js.map fun j => prodDiff (fval (e n j)) (exactDiff (fval (v j)) (fval (t n j).val))),
          m.slotPoison k n || Slots.slotPoison l.carry k n⟩⟩

/-! ### Regions and runs (07 R178 to R181) -/

/-- The checks of a run of registers whose length is known late: the fields' limits and the counts. Checks 8 and 9 of the
registers it reads stand among those of the word's operands (`unitFields`). -/
def runCheck (s : State) (g : Group) (x : Issue) (u : Option Nat) (f : BitVec 7) (n : Nat) : Option UnitErr :=
  if !runInField f n then some ⟨u, tILLEGAL, baseWord64 x.instr⟩
  else (runBeyond s g u f n).map fun k => ⟨u, tILLEGAL, BitVec.ofNat 64 k⟩

/-- The capability of the value region or tape (C), and of the prefix's region, when the word names one. -/
def softCaps (s : State) (g : Group) (x : Issue) (u : Option Nat) : Cap × Option Cap :=
  (Cap.ofVal (readRole s g x.desc u .a),
   if (x.desc.opnd? .c).isSome then some (Cap.ofVal (readRole s g x.desc u .c)) else none)

/-- Checks 1 and 2 of 07 R194 on one capability. -/
def regionCheck (u : Option Nat) (c : Cap) (k : Nat) (len : Option Nat) : Option UnitErr :=
  if !c.tag then some ⟨u, tCAPTAG, BitVec.ofNat 64 c.addr⟩
  else if (softSlots c k).isNone || len.any (fun l => l != c.length) then some ⟨u, tSOFTREGION, BitVec.ofNat 64 c.addr⟩
  else none

/-- The checks of a memory-side soft word in a unit (07 R194, R181); `write2` tells whether the prefix's region is
written. -/
def softCheck (s : State) (f : FmtM) (write2 : Bool) : Issue → Group → Option Nat → Option UnitErr := fun x g u =>
  let k := softK f.w
  let (c1, c2) := softCaps s g x u
  match (regionCheck u c1 k none).orElse fun _ => c2.bind fun c => regionCheck u c k (some c1.length) with
  | some e => some e
  | none =>
    let n := (softSlots c1 k).getD 0
    match runCheck s g x u f.o n with
    | some e => some e
    | none =>
      let need (c : Cap) (r : BitVec 8) : Option UnitErr :=
        if c.has r then none else some ⟨u, tCAPRIGHTS, BitVec.ofNat 64 c.addr⟩
      match (need c1 rightS).orElse fun _ => c2.bind fun c => need c (if write2 then rightS ||| rightW else rightS) with
      | some e => some e
      | none =>
        consumes s g u (roleFields x.desc [.d] ++ roleFields x.desc [.a] ++ rangeFrom f.o.toNat n ++ roleFields x.desc [.c])

/-- The lane that a unit's step acts for, with virtual addresses. -/
def softLane (s : State) (g : Group) (x : Issue) (f : FmtM) (u : Option Nat) : LaneSoft :=
  let k := softK f.w
  let (c1, c2) := softCaps s g x u
  let n := (softSlots c1 k).getD 0
  let d := readRole s g x.desc u .d
  { lane := u.getD 0, addr := c1.addr, va := c1.addr, addr2 := c2.map (·.addr), va2 := c2.elim 0 (·.addr), n := n, k := k,
    weights := (rangeFrom f.o.toNat n).map fun r => ((readField s g u r).1).elim 0 (·.val),
    vals := (d.toRegs k).map (·.val), carry := [] }

/-- Zeros that masked-off lanes of the issuing set write under MZ into their weight runs (07 R188). -/
def Group.zeroRuns (g : Group) (s : State) (g0 : Group) (x : Issue) (f : FmtM) : Group :=
  x.zeroedFibres.foldl (fun g l =>
    let c := (softCaps s g0 x (some l)).1
    match if c.tag then softSlots c (softK f.w) else none with
    | some n => if runInField f.o n then g.writeRegs (some l) f.o.toNat (List.replicate n ⟨0, false⟩) false else g
    | none => g) g

/-- A memory-side soft word. `acc` gives the accesses of the first and second region, none for a word translated when it
leaves. -/
def softWord (i : Instr) (f : FmtM) (op : SoftOp) (s : State) (write2 : Bool) (acc : Option (Access × Access)) : Out :=
  let isLoad := op == .sld
  let writesRun := op == .sldg || op == .sstg true || op == .sstg false
  issueWord i s (softCheck s f write2)
    (fun x g s' =>
      let lanes := x.units.map fun u => (u, softLane s g x f u)
      let dOp := x.desc.ops.find? fun o => o.role == .d && o.write
      let s' := s'.modGroup x.key fun g' =>
        let g' := g'.freeLast x
        let g' := if writesRun then g'.zeroRuns s g x f else g'
        match dOp with
        | none => g'
        | some o =>
          let g' := (if isLoad then x.zeroed else x.zeroedFibres).foldl
            (fun g' l => g'.writeOpnd (some l) o Val.zero) g'
          if isLoad && !x.once then x.helpers.foldl (fun g' l => g'.writeOpnd (some l) o Val.zero) g' else g'
      if lanes.isEmpty then .done s'
      else
        let (id, send, s2) := s'.claim x.key
        let pending := { pendOf x id [] with issued := s.clockOf g.core }
        let results (g' : Group) (r : Option Ret) : Group :=
          lanes.foldl (fun g' q =>
            let g' := match dOp with
              | some o => g'.reserve q.1 o.field.toNat o.count id r false
              | none => g'
            if writesRun then g'.reserve q.1 f.o.toNat q.2.n id r true else g') g'
        match if acc.isSome then g.redoOp? id else none with
        | some r =>
          .done ((s2.modGroup x.key fun g' =>
            let g' := results ((g'.dropRedoOp id).dropKeys x.pc) (some r)
            { g' with pend := g'.pend ++ [pending] }).rememberRet g r)
        | none =>
          if (!isLoad && s.writeWaits g) || (acc.isSome && s.slotsFull g.core) then .hold
          else
            let drop (s : State) : State := if isLoad then s
              else s.dropLines g.core g.ctx (lanes.flatMap fun q =>
                ((linesOf q.2.va (4 * q.2.n * q.2.k)) ++
                  (if q.2.addr2.isSome then linesOf q.2.va2 (4 * q.2.n * q.2.k) else [])).map (· * 128))
            match acc with
            | none =>
              let s2 := drop s2
              let s2 := if send then s2.modGroup x.key fun g' => g'.startOp .st id else s2
              .done (s2.send x.key (id, send) (.soft op ⟨false, [], 0⟩ ⟨false, [], 0⟩ (lanes.map (·.2))))
            | some (a1, a2) =>
              let place1 := s2.placeOnce g x.pc false 4 a1 (lanes.map fun q => (q.1, q.2.va))
              let place2 := place1.2.placeOnce g x.pc true 4 a2
                ((lanes.filter fun q => q.2.addr2.isSome).map fun q => (q.1, q.2.va2))
              let s3 := place2.2
              match place1.1, place2.1 with
              | .trap e1, .trap e2 =>
                match verdict x (lanes.filterMap fun q => (e1.find? fun e => e.unit == q.1).or (e2.find? fun e => e.unit == q.1)) with
                | some t => .fail t
                | none => .hold
              | .trap e, _ => match verdict x e with
                | some t => .fail t
                | none => .hold
              | _, .trap e => match verdict x e with
                | some t => .fail t
                | none => .hold
              | .pages p1, .pages p2 => waitPages x g s3 (p1 ++ p2).eraseDups
              | .pages p, _ => waitPages x g s3 p
              | _, .pages p => waitPages x g s3 p
              | .keys k1, .keys k2 =>
                let bytes (q : Option Nat × LaneSoft) : Nat := 4 * q.2.n * q.2.k
                if send && lanes.any fun q => s3.pageLogged g.core g.ctx q.2.va (bytes q) ||
                    (q.2.addr2.isSome && s3.pageLogged g.core g.ctx q.2.va2 (bytes q))
                then .hold
                else
                  let placed := ((lanes.map (·.2)).zip k1).foldl (fun (acc : List LaneSoft × List Nat) q =>
                    let l := { q.1 with addr := q.2 }
                    match l.addr2, acc.2 with
                    | some _, k :: ks => (acc.1 ++ [{ l with addr2 := some k }], ks)
                    | _, ks => (acc.1 ++ [l], ks)) ([], k2)
                  let far := (k1 ++ k2).any fun k => decide (2 ≤ keyTier k)
                  let s3 := ((drop s3).modGroup x.key fun g' => g'.dropKeys x.pc).remember g x.pc [keptKeys false k1, keptKeys true k2]
                  let s3 := s3.modGroup x.key fun g' =>
                    let g' := results g' none
                    let g' := if send && !isLoad then g'.startOp .st id else g'
                    if far then { g'.parkOp x pending with remote := g'.remote ++ [2 * id + 1] }
                    else { g' with pend := g'.pend ++ [pending] }
                  let s3 := if send then s3.modCore g.core fun c => { c with slotsUsed := c.slotsUsed ++ [id] } else s3
                  let dst : Dest := match dOp with
                    | some o => destOf x g o
                    | none => ⟨false, [], 0⟩
                  let runs : Dest := if writesRun then
                      { uniform := isUni f.o, regs := x.units.map (fun u => (u.getD 0, g.regNum u f.o.toNat)), count := 0 }
                    else ⟨false, [], 0⟩
                  .done (s3.send x.key (id, send) (.soft op dst runs placed.1)))
    noEngine

/-- `sld` (07 R183). -/
def execSld (p : Pfx) (f : FmtM) (s : State) : Out := softWord (.sld p f) f .sld s false (some ({}, {}))

/-- `sst` (07 R184): the tape is written, so its region needs W. -/
def execSst (p : Pfx) (f : FmtM) (s : State) : Out := softWord (.sst p f) f (.sst (bitOf f.w 2)) s true none

/-- `sldg` (07 R188). -/
def execSldg (p : Pfx) (f : FmtM) (s : State) : Out :=
  softWord (.sldg p f) f .sldg s true (some ({}, { write := true }))

/-- `sstg` (07 R189): the additive form only reads. -/
def execSstg (p : Pfx) (f : FmtM) (s : State) : Out :=
  let add := bitOf f.w 2
  softWord (.sstg p f) f (.sstg add) s (!add) (some ({}, { write := !add }))

/-! ### Weight vectors in registers (07 R185 to R187) -/

/-- The run of registers as values, with poison. -/
def readRun (s : State) (g : Group) (u : Option Nat) (f : BitVec 7) (n : Nat) : List Reg :=
  (rangeFrom f.toNat n).map fun r => ((readField s g u r).1).getD ⟨0, false⟩

/-- `sshift`: moves a distribution by at most one slot (07 R185). -/
def shiftRun (mode : FloatEnv) (wrap : Bool) (b : Val) (p : List Reg) : List (Reg × Flags) :=
  let n := p.length
  let tap (i : Nat) : FloatVal := fval (bitsOf b.bits (32 * i) 32)
  (List.range n).map fun j =>
    let term (t : Nat) (i : Option Nat) : List (FloatVal × Reg) := match i with
      | some i => [(tap t, p[i]?.getD ⟨0, false⟩)]
      | none => []
    let up := if j + 1 < n then some (j + 1) else if wrap then some 0 else none
    let down := if 0 < j then some (j - 1) else if wrap then some (n - 1) else none
    let ts := term 0 up ++ term 1 (some j) ++ term 2 down
    let r := sumResult fp32 mode.mode mode.dn false (ts.flatMap fun t => [t.1, fval t.2.val])
      (ts.map fun t => prodTerm t.1 (fval t.2.val))
    (⟨BitVec.ofNat 32 r.bits, b.poison || ts.any fun t => t.2.poison⟩, r.flags)

def execSshift (p : Pfx) (f : FmtRRR) (s : State) : Out :=
  issueWord (.sshift p f) s
    (fun x g u =>
      let n := shiftLen (readRole s g x.desc u .b)
      (runCheck s g x u f.d n).orElse fun _ => runCheck s g x u f.a n)
    (fun x g s' =>
      let env := { g.floatEnv x.pfx with sat := false }
      let units := x.allUnits.filter fun u =>
        let n := shiftLen (readRole s g x.desc u .b)
        runInField f.a n && runInField f.d n
      .done (s'.modGroup x.key fun g' =>
        let outs := units.map fun u =>
          let b := readRole s g x.desc u .b
          (u, shiftRun env f.x b (readRun s g u f.a (shiftLen b)))
        let g' := g'.freeLast x
        let g' := if f.la then outs.foldl (fun g' q =>
            (rangeFrom f.a.toNat q.2.length).foldl (fun g' r => g'.freeField q.1 r) g') g' else g'
        let g' := outs.foldl (fun g' q =>
          (g'.writeRegs q.1 f.d.toNat (q.2.map (·.1)) false).raiseFlags x q.1 (q.2.foldl (fun fl r => fl ||| r.2) 0)) g'
        x.zeroed.foldl (fun g' l =>
          let b := readRole s g x.desc (some l) .b
          let dead := ((readField s g (some l) (f.b.toNat + 3)).1).isNone
          let n := if dead then 1 else shiftLen b
          if runInField f.d n then g'.writeRegs (some l) f.d.toNat (List.replicate n ⟨0, false⟩) false else g') g'))
    noEngine

/-- A word from a run of fixed length to a run: `f` gives the results and flags of a unit. -/
def runWord (i : Instr) (s : State) (a d : BitVec 7) (n nd : Nat) (f : FloatEnv → List Reg → List Word × Flags) : Out :=
  issueWord i s noCheck
    (fun x g s' => .done (s'.modGroup x.key fun g' =>
      let env := { g.floatEnv x.pfx with sat := false }
      let outs := x.allUnits.map fun u =>
        let rs := readRun s g u a n
        (u, f env rs, rs.any (·.poison))
      let g' := g'.freeLast x
      let g' := outs.foldl (fun g' q =>
        (g'.writeRegs q.1 d.toNat (q.2.1.1.map fun w => ⟨w, q.2.2⟩) false).raiseFlags x q.1 q.2.1.2) g'
      x.zeroed.foldl (fun g' l => g'.writeRegs (some l) d.toNat (List.replicate nd ⟨0, false⟩) false) g'))
    noEngine

/-- `snorm`: divides each weight by the exact sum (07 R186). -/
def normRun (env : FloatEnv) (pos : Bool) (rs : List Reg) : List Word × Flags :=
  let vals := rs.map fun r =>
    let v := fval r.val
    if pos && v.neg && !v.isNaN then .fin false 0 0 else v
  let n := vals.length
  if vals.any fun v => v.isNaN || v.isInf then
    (List.replicate n (BitVec.ofNat 32 (nanResult fp32 env.dn vals)), flagIf (vals.any FloatVal.isInf) fNV ||| snanFlag vals ||| fNF)
  else
    let ts := vals.filterMap fun
      | .fin s m e => some (s, m, e)
      | _ => none
    let (sum, e) := exactSum ts
    let quotient (neg : Bool) (m : Nat) (q : Int) : FloatRes := floatQuot env neg m q sum.natAbs e
    if sum == 0 then
      let r := floatQuot env false 1 0 n 0
      (List.replicate n (BitVec.ofNat 32 r.bits), r.flags ||| fDZ)
    else
      let rs := vals.map fun
        | .fin s m q => quotient (s != decide (sum < 0)) m q
        | _ => ⟨0, 0⟩
      (rs.map fun r => BitVec.ofNat 32 r.bits, rs.foldl (fun fl r => fl ||| r.flags) 0)
where
  /-- m * 2^q / (d * 2^e), rounded once: the quotient to 80 bits with a sticky bit below. -/
  floatQuot (env : FloatEnv) (neg : Bool) (m : Nat) (q : Int) (d : Nat) (e : Int) : FloatRes :=
    if m == 0 then ⟨fp32.signBit neg, fNone⟩
    else
      let shift := d.log2 + 80
      let num := m * 2 ^ shift
      let quo := num / d
      roundTo fp32 env.mode false neg (2 * quo + (if num % d == 0 then 0 else 1)) (q - e - (shift : Int) - 1)

/-- The number of weights in the M field. -/
def runLen (m : BitVec 7) : Nat := (bitsOf m 0 6).toNat + 1

def execSnorm (p : Pfx) (f : FmtRM) (s : State) : Out :=
  runWord (.snorm p f) s f.a f.d (runLen f.m) (runLen f.m) fun env rs => normRun env (bitOf f.m 6) rs

/-- The slot of greatest weight (07 R187). -/
def hardIndex (rs : List Reg) : Nat :=
  let vals := rs.map fun r => fval r.val
  ((List.range vals.length).find? fun j =>
    match vals[j]? with
    | some v => !v.isNaN && vals.all fun y => y.isNaN || floatOrd v y != .lt
    | none => false).getD 0

def execHarden (p : Pfx) (f : FmtRM) (s : State) : Out :=
  let oneHot := bitOf f.m 6
  runWord (.harden p f) s f.a f.d (runLen f.m) (if oneHot then runLen f.m else 1) fun _ rs =>
    let h := hardIndex rs
    (if oneHot then (List.range rs.length).map fun j => if j == h then 0x3F800000 else 0 else [BitVec.ofNat 32 h], 0)

end Sys2Proof.Machine
end

