-- ==== Sys2Proof/Machine/Matrix.lean ====
section
/-!
DEFINITION. The matrix engine (09): tiles and latches, the order of each slice, the words, and the events by which
tiles are latched and operations issue.
-/

namespace Sys2Proof.Machine

open Sys2Proof

/-! ### Tiles and slices (09 R201 to R205) -/

/-- Bytes of an element of a tile format. -/
def fmtBytes (fmt : Nat) : Nat := if fmt ≤ 1 then 2 else 1
/-- Rows of a latch in a format. -/
def kMax (fmt : Nat) : Nat := if fmt ≤ 1 then 32 else 64

/-- The value of an element of a tile format; INT8 and SPT8 as exact numbers (04 R99, 09 R204). -/
def tileVal (fmt : Nat) (w : Word) : FloatVal :=
  match fmt with
  | 0 => unpack bf16 (w.toNat % 65536)
  | 1 => unpack fp16 (w.toNat % 65536)
  | 2 => unpack e4m3 (w.toNat % 256)
  | 3 => unpack e5m2 (w.toNat % 256)
  | 4 => let i := (bitsOf w 0 8).toInt
         .fin (decide (i < 0)) i.natAbs 0
  | _ => let i := sptValue (w.toNat % 256)
         .fin (decide (i < 0)) i.natAbs (-6)

/-- Element (k, c) of a tile: +0 outside its declared rows and columns. -/
def Tile.val (t : Tile) (k c : Nat) : FloatVal :=
  if k < t.krows && c < t.cols then tileVal t.fmt (t.elems[k * t.cols + c]?.getD 0) else .fin false 0 0

/-- A group changes its slice in an array: its launch has used the latches of its core (09 R202, R226). -/
def State.useLatches (s : State) (g : Group) (arr : Nat) (op : SliceOp) (load : Option MwlOp) : State :=
  let now := s.clockOf g.core
  s.modCore g.core fun c =>
    { c with matrixUsers := putNat g.key.launch c.matrixUsers
             sliceUses := (c.sliceUses.filter fun u => decide (now ≤ u.cycle + 640)) ++ [⟨now, g.key, arr, g.column, g.w, op, load⟩] }

/-! ### mwl (09 R204 to R208) -/

/-- A header's fields: FMT, T, SRC, KROWS, COLS. -/
structure TileHdr where
  fmt : Nat
  t : Bool
  src : Nat
  krows : Nat
  cols : Nat
  deriving DecidableEq, Repr

/-- The fields of header word 1. -/
def tileHdr (h1 : Word) : TileHdr :=
  { fmt := (bitsOf h1 0 3).toNat, t := bitOf h1 3, src := (bitsOf h1 4 2).toNat, krows := (bitsOf h1 6 7).toNat,
    cols := (bitsOf h1 13 7).toNat }

/-- The byte address of element (k, c) relative to the tile's space: a block-local or a virtual address (09 R205). -/
def TileHdr.elemAddr (h : TileHdr) (base k c : Nat) : Nat :=
  if h.t then (0x80000000 + base + 64 * c + k * fmtBytes h.fmt) % 2 ^ 32
  else base + (k * h.cols + c) * fmtBytes h.fmt

/-- The elements of a tile, row by row. -/
def TileHdr.cells (h : TileHdr) : List (Nat × Nat) :=
  (List.range h.krows).flatMap fun k => (List.range h.cols).map fun c => (k, c)

/-- The header is malformed, or does not agree with the word's D field (MATRIX code 3). -/
def badHeader (h1 : Word) (w : Nat) (d : BitVec 7) : Bool :=
  let h := tileHdr h1
  bitsOf h1 20 12 != 0 || decide (2 ≤ h.src) || decide (6 ≤ h.fmt) || h.krows == 0 || decide (kMax h.fmt < h.krows) ||
  h.cols == 0 || decide (w < h.cols) || (h.t && h.src == 1) || ((h.src == 1) != (d != 0))

/-- The tile's first address: block-local, or virtual through the capability. -/
def tileBase (h : TileHdr) (h0 : Word) (c : Cap) : Nat := if h.src == 1 then (c.addr + h0.toNat) % 2 ^ 48 else h0.toNat

/-- The checks of `mwl` (09 R227): FEATURE, code 3, the capability or local bounds, code 4, poison. DESIGN CHOICE (log entry 152):
TVAL of LOCALBOUNDS is header word 0, whichever byte of the tile fails 05 R144. -/
def mwlCheck (s : State) (f : FmtMX) : Issue → Group → Option Nat → Option UnitErr := fun x g u =>
  let a := readRole s g x.desc u .a
  let h1 : Word := bitsOf a.bits 32 32
  let h := tileHdr h1
  let c := Cap.ofVal (readRole s g x.desc u .d)
  let base := tileBase h a.w c
  let lim := s.localLimits g.key.launch g.key.block
  if h.fmt == 5 && !s.accepted 5 then some ⟨u, tFEATURE, 5⟩
  else if badHeader h1 g.w f.d then some ⟨u, tMATRIX, 3⟩
  else
    let span := h.krows * h.cols * fmtBytes h.fmt
    let bad : Option UnitErr :=
      if h.src == 1 then (capCheck c base span rightR).map fun code => ⟨u, code, BitVec.ofNat 64 base⟩
      else if h.cells.all fun q => localOk lim.1 lim.2 (h.elemAddr base q.1 q.2) (fmtBytes h.fmt) then none
      else some ⟨u, tLOCALBOUNDS, BitVec.ofNat 64 base⟩
    match bad with
    | some e => some e
    | none =>
      if base % (if h.t then 1024 else 4) != 0 then some ⟨u, tMATRIX, 4⟩
      else consumes s g u (roleFields x.desc [.d, .a])

/-- A request to the partner core's half or to cluster memory. -/
def ReqBody.isLocal : ReqBody → Bool
  | .store sp _ => sp != .global
  | .rmw sp _ _ _ => sp != .global
  | _ => false

/-- The group's local writes that wait in the hold queue (09 R206). -/
def State.localWrites (s : State) (g : Group) : List Nat :=
  ((s.core g.core).hold.filter fun r => r.group == g.key && r.eng.isNone && r.body.isLocal).map (·.id)

/-- `mwl`: the tile is loaded later, in its place in the slice's order; it counts in me (09 R206, R210). -/
def execMwl (f : FmtMX) (s : State) : Out :=
  issueWord (.mwl f) s (mwlCheck s f)
    (fun x g s' =>
      if g.full .me then .hold
      else
        let a := readRole s g x.desc none .a
        let c := Cap.ofVal (readRole s g x.desc none .d)
        let (id, s') := s'.fresh
        let arr := if f.ar then 1 else 0
        let src : TileSrc := ⟨a.w, bitsOf a.bits 32 32, c.addr, g.key, g.ctx⟩
        let m : MwlOp :=
          { id := id, group := g.key, core := g.core, arr := arr, base := g.column, src := src, width := g.w,
            behind := s.localWrites g }
        let s' := (s'.modGroup x.key fun g' => g'.startOp .me id).useLatches g arr (.mwl id) (some m)
        let s' := { s' with mwls := s'.mwls ++ [m] }
        .done (s'.modSlice g arr fun y => { y with order := y.order ++ [SliceOp.mwl id] }))
    noEngine

/-- `mswap` takes its place in the slice's order (09 R209, R210). -/
def execMswap (f : FmtMX) (s : State) : Out :=
  issueWord (.mswap f) s noCheck
    (fun _ g s' =>
      let (id, s') := s'.fresh
      let arr := if f.ar then 1 else 0
      .done (((s'.useLatches g arr (.mswap id) none).modSlice g arr fun y => { y with order := y.order ++ [SliceOp.mswap id] }).wake))
    noEngine

/-! ### Operations that sign (09 R212) -/

/-- A matrix word signs its convergence register. -/
def signWord (i : Instr) (cv : Nat) (s : State) : Out :=
  issueWord i s (fun _ g u => u.bind (cvSignCheck g cv))
    (fun x _ s' => .done ((s'.modGroup x.key fun g' => g'.cvSign x cv (some i)).queueProducts x.key).wake)
    noEngine

/-- `mma` (09 R216). -/
def execMma (f : FmtMX) (s : State) : Out := signWord (.mma f) f.cv.toNat s
/-- `mma.s` (09 R218). -/
def execMmaS (f : FmtMX) (s : State) : Out := signWord (.mmaS f) f.cv.toNat s
/-- `mma.d` (09 R219). -/
def execMmaD (f : FmtMX) (s : State) : Out := signWord (.mmaD f) f.cv.toNat s
/-- `mscl` (09 R221). -/
def execMscl (f : FmtMX) (s : State) : Out := signWord (.mscl f) f.cv.toNat s

/-! ### The arithmetic of a product (09 R216 to R219) -/

/-- The value of an activation by AF. -/
def actVal (af : Nat) (w : Nat) : FloatVal :=
  match af with
  | 0 => unpack bf16 (w % 65536)
  | 1 => unpack fp16 (w % 65536)
  | 2 => unpack e4m3 (w % 256)
  | 3 => unpack e5m2 (w % 256)
  | _ => let i := (BitVec.ofNat 8 w).toInt
         .fin (decide (i < 0)) i.natAbs 0

/-- Bytes of an activation. -/
def actBytes (af : Nat) : Nat := if af ≤ 1 then 2 else 1

/-- Element `k` of a row of registers, little-endian. -/
def rowElem (af : Nat) (regs : List Reg) (k : Nat) : Nat :=
  let e := actBytes af
  let w := (regs[k * e / 4]?.getD ⟨0, false⟩).val
  (w >>> (8 * (k * e % 4))).toNat % 2 ^ (8 * e)

/-- Legal pairs of latched format and AF (09 R211). -/
def pairLegal (fmt af : Nat) : Bool :=
  match fmt with
  | 0 => af == 0
  | 1 => af == 1
  | 2 => af == 2 || af == 3
  | 3 => af == 2 || af == 3
  | 4 => af == 4
  | _ => af == 2 || af == 3 || af == 4

/-- A column's sum in segments of four rows (09 R216, R217): every NaN is the default one. -/
def columnSum (a b : Nat → FloatVal) (k : Nat) : Word :=
  let seg (g : Nat) : List (FloatVal × FloatVal) := (List.range 4).map fun i => (a (4 * g + i), b (4 * g + i))
  let add (s : Option Word) (ps : List (FloatVal × FloatVal)) : Word :=
    let head := s.elim [] fun w => [fval w]
    BitVec.ofNat 32 (sumResult fp32 .rne true false (head ++ ps.flatMap fun p => [p.1, p.2])
      (head.map some ++ ps.map fun p => prodTerm p.1 p.2)).bits
  ((List.range ((k + 3) / 4)).foldl (fun s g => some (add s (seg g))) none).getD 0

/-- The exact integer sum of a column in the INT8 form. -/
def columnInt (a b : Nat → FloatVal) (k : Nat) : Int :=
  let int : FloatVal → Int
    | .fin n m _ => if n then -(m : Int) else m
    | _ => 0
  (List.range k).foldl (fun acc i => acc + int (a i) * int (b i)) 0

/-- Accumulation in FP32 with one rounding. -/
def accumulate (acc s c : Word) : Word :=
  BitVec.ofNat 32 (sumResult fp32 .rne true false [fval acc, fval c, fval s]
    [some (fval acc), prodTerm (fval c) (fval s)]).bits

/-- One array's part of a product: the weights of logical row k and column j, the rows K, and the scales. -/
structure Part where
  weight : Nat → Nat → FloatVal
  k : Nat
  intForm : Bool
  scales : List Reg
  poison : Bool

/-- An accumulator after the parts of a product in array order. -/
def accParts (acc : Reg) (j : Nat) (parts : List (Part × (Nat → FloatVal))) : Reg :=
  parts.foldl (fun acc p =>
    let b (k : Nat) : FloatVal := p.1.weight k j
    let c := p.1.scales[j]?.getD unitScale
    if p.1.intForm then ⟨acc.val + BitVec.ofInt 32 (columnInt p.2 b p.1.k), acc.poison || p.1.poison⟩
    else ⟨accumulate acc.val (columnSum p.2 b p.1.k) c.val, acc.poison || p.1.poison || c.poison⟩) acc

/-- The kept values of a sparse row, by group: sizes of a group and of what it keeps (09 R218). -/
def sparseGroup (pt : Nat) : Nat × Nat := if pt == 0 then (4, 2) else if pt == 1 then (4, 1) else (8, 4)

/-- The nibble of kept value `i`. -/
def nibble (idx : List Reg) (i : Nat) : Nat := ((idx[i / 8]?.getD ⟨0, false⟩).val >>> (4 * (i % 8))).toNat % 16

/-- The nibbles of `n` kept values are in range and ascend within each group. -/
def nibblesOk (pt : Nat) (idx : List Reg) (n : Nat) : Bool :=
  let (size, keep) := sparseGroup pt
  (List.range n).all fun i => decide (nibble idx i < size) &&
    (i % keep == 0 || decide (nibble idx (i - 1) < nibble idx i))

/-- The decompressed row: the value at a logical position. -/
def sparseVal (pt af : Nat) (vals idx : List Reg) (k : Nat) : FloatVal :=
  let (size, keep) := sparseGroup pt
  let g := k / size
  match (List.range keep).find? fun i => nibble idx (g * keep + i) == k % size with
  | some i => actVal af (rowElem af vals (g * keep + i))
  | none => .fin false 0 0

/-! ### Issue of an operation (09 R212) -/

/-- The operation of a convergence register traps at its word with every member in TMASK; words of the run that have issued
since the last member signed have no effect (01 R31, 09 R212). -/
def State.matrixTrap (s : State) (g : Group) (n : Nat) (code : BitVec 8) (tval : BitVec 64) : State :=
  let c := g.cv n
  let members := c.signed.map (·.1)
  let pc := (c.signed.getLast?).elim 0 (·.2)
  let s := (s.undoRun g.key pc (maskOf members)).modGroup g.key fun g =>
    let g := c.signed.foldl (fun g q => g.modLane q.1 fun l => { l with park := none, pc := q.2 }) g
    g.modCv n fun c => { c with signed := [], op := none, queued := false }
  let s := s.modCore g.core fun co => { co with slices := co.slices.map fun y => y.without fun o => o.isProduct g.key n }
  s.takeTrap g.key pc ⟨code, tval, members⟩

/-- Members of an operation go on; its place in the slices' orders ends. -/
def State.matrixDone (s : State) (g : Group) (n : Nat) : State :=
  let s := s.modCore g.core fun co => { co with slices := co.slices.map fun y => y.without fun o => o.isProduct g.key n }
  (s.modGroup g.key fun g => g.cvRelease n).wake

/-- Everything before the product in a slice's order that it must wait for is done: `shadow` and `scales` tell what it
reads beside the current latch. A latch that is being reloaded keeps everything behind it waiting (09 R208, R223). -/
def orderReady (s : State) (y : Slice) (k : GKey) (n : Nat) (shadow scales : Bool) : Bool :=
  (y.order.takeWhile fun o => o != .product k n).all fun o =>
    match o with
    | .mwl _ => !shadow
    | .mswap _ => false
    | .mscl _ => !scales
    | .reload _ => false
    | .product h m =>
      match (s.group? h).bind fun g => (g.cv m).op with
      | some (.mscl _) => !scales
      | _ => true

/-- A self-test of a column of an array is running: products on that array wait for its 2 µs (19 R392). -/
def State.columnTested (s : State) (core arr : Nat) : Bool :=
  s.testing 4 (2 * core + arr % 2)

/-- HAZARD and DEADREG over a product's registers in every member (01 R22, R25): the lowest code, the lowest lane. -/
def memberCheck (s : State) (g : Group) (members : List Nat) (fs : List Nat) : Option (BitVec 8 × BitVec 64) :=
  let errs := ((List.range 64).filter members.contains).filterMap fun l => regChecks s g (some l) fs
  match errs with
  | [] => none
  | e :: t =>
    let best := t.foldl (fun (b : UnitErr) y => if y.code.toNat < b.code.toNat then y else b) e
    some (best.code, best.tval)

/-- Registers of an operand in a lane. -/
def memberRegs (s : State) (g : Group) (l f n : Nat) : List Reg :=
  (List.range n).map fun i => ((readField s g (some l) (f + i)).1).getD ⟨0, false⟩

/-- A register that a member would read takes a value that has not come yet (01 R22). -/
def membersWait (s : State) (g : Group) (members : List Nat) (fs : List Nat) : Bool :=
  members.any fun l => fs.any fun f => (readField s g (some l) f).2

/-- The checks of a product, and its rows: members supply their own, or the collector's. -/
structure Product where
  d : Nat
  a : Nat
  af : Nat
  extent : Nat
  accs : Nat
  ru : Bool
  sparse : Option Nat
  dual : Bool
  latches : List (Option Tile)
  deriving DecidableEq, Repr

/-- The failing check of R227 of a product in a group of width `w`: its code. -/
def Product.check (p : Product) (g : Group) (n : Nat) (rows : List (Nat × List Reg)) : Option Nat :=
  let tiles := p.latches.filterMap id
  let fmt := (tiles.head?).elim 0 (·.fmt)
  let c := g.cv n
  let lastPc := (c.signed.getLast?).elim 0 (·.2)
  if p.latches.any Option.isNone then some 1
  else if 5 ≤ p.af || !pairLegal fmt p.af || (tiles.any fun t => t.fmt != fmt) then some 2
  else if g.collector.any fun q =>
      p.dual || p.sparse.isSome || q.a.toNat != p.a || q.af.toNat != p.af || q.extent != p.extent || q.cv != n then some 5
  else if c.signed.any fun q => q.2 != lastPc then some 6
  else
    match p.sparse with
    | some pt =>
      let nA := (sparseRegs pt p.af).1
      let kept := nA * 4 / actBytes p.af
      if rows.all fun r => nibblesOk pt (r.2.drop nA) kept then none else some 7
    | none =>
      if p.dual && (decide (32 < g.w) || tiles.any fun t =>
          t.krows != g.w || t.cols != g.w || decide (2 ≤ t.fmt) || t.fmt != p.af) then some 8
      else none

/-- The product of a queued word. -/
def productOf (s : State) (g : Group) (i : Instr) : Option Product :=
  let latch (arr : Nat) : Option Tile := (s.sliceOf g arr).cur
  let shadow (arr : Nat) : Option Tile := (s.sliceOf g arr).shadow
  match i with
  | .mma f =>
    let arr := if f.ar then 1 else 0
    some ⟨f.d.toNat, f.a.toNat, f.af.toNat, if f.pt == 1 then 32 else 16, g.w, f.ru, none, false,
      if f.pt == 1 then [latch 0, latch 1] else [latch arr]⟩
  | .mmaS f =>
    let arr := if f.ar then 1 else 0
    let r := sparseRegs f.pt.toNat f.af.toNat
    some ⟨f.d.toNat, f.a.toNat, f.af.toNat, r.1 + r.2, g.w, f.ru, some f.pt.toNat, false, [latch arr, shadow arr]⟩
  | .mmaD f =>
    some ⟨f.d.toNat, f.a.toNat, f.af.toNat, 32, 2 * g.w, false, none, true, [latch (if f.ar then 1 else 0)]⟩
  | _ => none

/-- The registers of A that a product reads: `mma.d` reads only those with elements below W in each half (09 R219). -/
def Product.aRegs (p : Product) (w : Nat) : List Nat :=
  if p.dual then
    let m := (w * 2 + 3) / 4
    rangeFrom p.a m ++ rangeFrom (p.a + 16) m
  else rangeFrom p.a p.extent

/-- The result of accumulator `r` in lane `j` of a product: `row` gives a member's registers, none when the lane is no
member. -/
def Product.result (p : Product) (s : State) (g : Group) (i : Instr) (row : Nat → Option (List Reg)) (j r : Nat) (acc : Reg) : Reg :=
  let tiles := p.latches.filterMap id
  let regs (r : Nat) : List Reg := (row r).getD []
  let scales (arr : Nat) : List Reg := (s.sliceOf g arr).scales
  let tile (n : Nat) : Tile := (tiles[n]?).getD ⟨0, 0, 0, [], false, ⟨0, 0, 0, g.key, 0⟩⟩
  let arrs := productArrays i
  if p.dual then
    let t := tile 0
    let second := decide (g.w ≤ r)
    let rr := if second then r - g.w else r
    let base := if second then 16 else 0
    let weight (k c : Nat) : FloatVal := if second then t.val k c else t.val c k
    let a (k : Nat) : FloatVal :=
      if k < g.w then actVal p.af (rowElem p.af ((regs rr).drop base) k) else .fin false 0 0
    let part : Part := ⟨fun k c => if k < g.w then weight k c else .fin false 0 0, g.w, false, [], t.poison⟩
    let poison := (((regs rr).drop base).take ((g.w * 2 + 3) / 4)).any (·.poison)
    let v := accParts acc j [(part, a)]
    { v with poison := v.poison || poison }
  else
    let poison := (regs r).any (·.poison)
    let int (fmt : Nat) : Bool := fmt == 4 && p.af == 4
    let v := match p.sparse with
      | some pt =>
        let nA := (sparseRegs pt p.af).1
        let km := kMax (tile 0).fmt
        let part : Part :=
          ⟨fun k c => if k < km then (tile 0).val k c else (tile 1).val (k - km) c, 2 * km, int (tile 0).fmt,
            scales (arrs.headD 0), (tile 0).poison || (tile 1).poison⟩
        let a (k : Nat) : FloatVal :=
          if (row r).isSome then sparseVal pt p.af (regs r) ((regs r).drop nA) k else .fin false 0 0
        accParts acc j [(part, a)]
      | none =>
        accParts acc j (arrs.zipIdx.map fun (q : Nat × Nat) =>
          let t := tile q.2
          let a (k : Nat) : FloatVal :=
            if (row r).isSome then actVal p.af (rowElem p.af ((regs r).drop (16 * q.2)) k) else .fin false 0 0
          ((⟨t.val, kMax t.fmt, int t.fmt, scales q.1, t.poison⟩ : Part), a))
    { v with poison := v.poison || poison }

/-- MATRIX_ISSUE: a queued operation issues once for the group when its latches are as the slice's order leaves them
(09 R212). -/
def execMatrixIssue (k : GKey) (n : Nat) (s : State) : Out :=
  match s.group? k with
  | none => .next s
  | some g =>
    let s := s.drawn
    let c := g.cv n
    let members := c.signed.map (·.1)
    match if c.queued then c.op else none with
    | some (.mscl f) =>
      let lastPc := (c.signed.getLast?).elim 0 (·.2)
      if membersWait s g members [f.a.toNat] then .next s
      else
        match memberCheck s g members [f.a.toNat] with
        | some (code, tval) => .next (s.matrixTrap g n code tval).wake
        | none =>
          if c.signed.any fun q => q.2 != lastPc then .next (s.matrixTrap g n tMATRIX 6).wake
          else
            let vals := members.map fun l => (l, (memberRegs s g l f.a.toNat 1).headD ⟨0, false⟩)
            let arr := if f.ar then 1 else 0
            let s := (s.useLatches g arr (.mscl vals) none).modSlice g arr fun y =>
              { y with order := y.order.map fun o => if o.isProduct k n then SliceOp.mscl vals else o }
            .next (s.matrixDone g n)
    | some i =>
      match productOf s g i with
      | none => .next s
      | some p =>
        let ready := (productArrays i).all fun arr =>
          orderReady s (s.sliceOf g arr) k n p.sparse.isSome (!p.dual) && !s.columnTested g.core arr
        if !ready || membersWait s g members (rangeFrom p.d p.accs ++ if g.collector.isSome then [] else p.aRegs g.w) then .next s
        else
          let held := g.collector.isSome
          let fs := (rangeFrom p.d p.accs) ++ (if held then [] else p.aRegs g.w)
          match memberCheck s g members fs with
          | some (code, tval) => .next (s.matrixTrap g n code tval).wake
          | none =>
            let own := members.map fun l => (l, memberRegs s g l p.a p.extent)
            let rows := match g.collector with
              | some q => q.rows
              | none => own
            match p.check g n rows with
            | some code => .next (s.matrixTrap g n tMATRIX (BitVec.ofNat 64 code)).wake
            | none =>
              let row (r : Nat) : Option (List Reg) :=
                if members.contains r then (rows.find? fun q => q.1 == r).map (·.2) else none
              let outs := members.map fun j =>
                let accs := memberRegs s g j p.d p.accs
                (j, accs.zipIdx.map fun q => p.result s g i row j q.2 q.1)
              let s := s.modGroup k fun g' =>
                let g' := outs.foldl (fun g' q => g'.writeRegs (some q.1) p.d q.2 false) g'
                { g' with collector :=
                    if p.ru then some ⟨BitVec.ofNat 7 p.a, BitVec.ofNat 3 p.af, p.extent, n, rows⟩ else none }
              .next (s.matrixDone g n)
    | none => .next s

/-! ### Latching a tile (09 R206, R207, R210) -/

/-- An `mwl` may write the shadow latch: nothing before it in the order still reads or changes that latch. -/
def mwlReady (s : State) (y : Slice) (id : Nat) : Bool :=
  (y.order.takeWhile fun o => o != .mwl id).all fun o =>
    match o with
    | .mwl _ => false
    | .mswap _ => false
    | .reload _ => false
    | .mscl _ => true
    | .product g n =>
      match (s.group? g).bind fun g => (g.cv n).op with
      | some (.mmaS _) => false
      | _ => true

/-- What reading a tile gives: it waits, a tile, or a failure with its address. -/
inductive TileRes where
  | wait
  | tile (t : Tile)
  | fail (code : BitVec 8) (addr : Nat)

/-- Reads the tile of an `mwl`. -/
def State.readTile (s : State) (m : MwlOp) : TileRes × State :=
  let h := tileHdr m.src.hdr1
  let e := fmtBytes h.fmt
  let mk (bs : List Byte) (poison : Bool) : Tile :=
    { fmt := h.fmt, krows := h.krows, cols := h.cols, poison := poison, src := m.src,
      elems := (List.range (h.krows * h.cols)).map fun i => BitVec.ofNat 32 (bytesNat ((bs.drop (i * e)).take e)) }
  if h.src == 1 then
    let va := (m.src.capAddr + m.src.hdr0.toNat) % 2 ^ 48
    let n := h.krows * h.cols * e
    let r := s.translateRange (dieOfCore m.core) m.src.ctx va n {}
    match worstFail r.1 with
    | some c => (.fail c va, r.2)
    | none =>
      if !(resolvablePages r.1).isEmpty then (.wait, r.2)
      else
        let pieces := (cutPieces n va n).map fun p => (keyAt r.1 p.1, p.2)
        if pieces.any fun p => r.2.stalls none p.1 p.2 then (.wait, r.2)
        else
          match r.2.readPieces m.id pieces with
          | (.wait, s) => (.wait, s)
          | (.data bs poison, s) => (.tile (mk bs poison), s)
          | (.fail c _, s) => (.fail c va, s)
  else
    match s.blockOf m.group with
    | none => (.tile (mk [] false), s)
    | some b =>
      let places := h.cells.map fun q => placeOf b m.core (h.elemAddr m.src.hdr0.toNat q.1 q.2)
      if places.any fun p => s.localWaits b m.core m.group p e then (.wait, s)
      else
        let cells := places.map fun p =>
          let mem := s.placeMem m.group.launch m.group.block p
          (mem.readN p.off e, mem.poisonedN p.off e)
        (.tile (mk (cells.flatMap (·.1)) (cells.any (·.2))), s)

/-- The tile of an `mwl` or of a reload is written in its place; what waited behind it goes on. -/
def Slice.latch (y : Slice) (m : MwlOp) (t : Option Tile) : Slice :=
  ((match m.reload with
    | none => { y with shadow := t, order := y.order.filter fun o => o != .mwl m.id }
    | some shadow =>
      let y := if shadow then { y with shadow := t } else { y with cur := t }
      { y with order := y.order.filter fun o => o != .reload m.id }) : Slice).settle

/-- A latch may be written now: an `mwl` in its place in the order and behind its group's older local writes, a reload at
the head of the order (09 R206, R208, R210). -/
def State.latchTurn (s : State) (y : Slice) (m : MwlOp) : Bool :=
  match m.reload with
  | none => mwlReady s y m.id &&
      !(m.behind.any fun id => ((s.core m.core).hold.any fun r => r.id == id) || s.inflight.any fun i => i.id == id)
  | some _ => (y.order.takeWhile fun o => o != .reload m.id).all fun o => match o with
      | .reload _ => true
      | _ => false

/-- MWL_LATCH_WRITE: a tile is written into the shadow latch, or its failure leaves the latch empty (09 R206, R207); or a
latch is reloaded from its tile's source (R208). -/
def execMwlLatchWrite (id : Nat) (s : State) : Out :=
  match s.mwls.find? fun m => m.id == id with
  | none => .next s
  | some m =>
    if !s.latchTurn ((s.core m.core).slice m.arr m.base m.width) m then .next s
    else
      let finish (s : State) (t : Option Tile) : State :=
        let s := { s with mwls := s.mwls.filter fun z => z.id != id }
        let s := s.modCore m.core fun c => c.setSlice ((c.slice m.arr m.base m.width).latch m t)
        if m.reload.isSome then s else s.modGroup m.group fun g => g.endOp id
      match s.readTile m with
      | (.wait, s) => .next s
      | (.tile t, s) => .next (finish s (some t)).wake
      | (.fail c va, s) =>
        let f : FailRec := ⟨c, BitVec.ofNat 64 va⟩
        let remote := c == tREMFAULT || c == tREMTIME
        .next (finish (if remote then s.recordFabFail m.group f else s.recordFail m.group f) none).wake

/-- Reloads one latch of a slice, if it holds a tile whose source can still be read: everything that has not taken effect
on the slice waits for it (09 R208). DEDUCED (log entry 120): a tile read from the local memory of a block that has ended
stays as it is. -/
def State.reloadLatch (s : State) (core : Nat) (y : Slice) (shadow : Bool) : State :=
  match if shadow then y.shadow else y.cur with
  | none => s
  | some t =>
    if (tileHdr t.src.hdr1).src == 0 && (s.block? t.src.group.launch t.src.group.block).isNone then s
    else
      let m : MwlOp := { id := s.nextId, group := t.src.group, core := core, arr := y.arr, base := y.base, src := t.src,
                         width := y.width, reload := some shadow }
      ({ s with nextId := s.nextId + 1, mwls := s.mwls ++ [m] } : State).modCore core fun c =>
        let y := c.slice y.arr y.base y.width
        c.setSlice { y with order := .reload m.id :: y.order }

/-- Reloads the latches of the slices of a core that fit (09 R208). -/
def State.reloadCore (s : State) (core : Nat) (p : Slice → Bool) : State :=
  ((s.core core).slices.filter p).foldl (fun s y => (s.reloadLatch core y false).reloadLatch core y true) s

/-! ### Errors in the arrays (09 R222, R223) -/

/-- Counts an event in MSR: CNT saturates at 255, COL and ARR name the event. -/
def msrEvent (msr : Word) (bit : Word) (arr col : Nat) : Word :=
  let cnt := min 255 ((bitsOf msr 16 8).toNat + 1)
  (msr &&& 0x0000000F) ||| bit ||| BitVec.ofNat 32 (cnt * 65536 + col % 64 * 1024 + arr % 2 * 512)

/-- A column of an array lies in a slice. -/
def Slice.holds (y : Slice) (arr col : Nat) : Bool :=
  y.arr == arr && decide (y.base ≤ col) && decide (col < y.base + y.width)

/-- LATCH_PARITY_ERROR (09 R223). A cell parity error is met as a product takes its turn: the product has written nothing,
the latches of the column's slice are reloaded, and the product is computed from them. An error in the accumulator path is
corrected, or poisons the accumulator. Each is counted in MSR, recorded, and starts the column's self-test (19 R392). -/
def execLatchParityError (k : GKey) (arr col : Nat) (e : LatchError) (s : State) : Out :=
  match s.group? k with
  | none => .next s
  | some g =>
    let bit : Word := match e with
      | .parity => 1
      | .corrected => 2
      | .uncorrectable _ _ => 4
    let s := s.modGroup k fun g =>
      let g := { g with msr := msrEvent g.msr bit arr col }
      match e with
      | .uncorrectable lane reg => g.modLane lane fun l => match l.v.get? reg with
        | some r => { l with v := { l.v with regs := putKey reg { r with poison := true } l.v.regs, srcs := dropKey reg l.v.srcs } }
        | none => l
      | _ => g
    let s := s.startTest 4 (2 * g.core + arr % 2) (arr * 64 + col) (dieOfCore g.core)
    let s := match e with
      | .parity => s.reloadCore g.core fun y => y.holds arr col
      | _ => s
    let die := dieOfCore g.core
    let evt := match e with
      | .uncorrectable _ _ => 0x02
      | _ => 0x01
    .next ((s.logError die { ErrRec.blank evt with
      struct := (match e with
        | .parity => 4
        | _ => 5), cluster := g.core / 4 % 16, core := g.core % 4, index := arr * 64 + col, launch := k.launch,
      ctx := g.ctx }).wake)

end Sys2Proof.Machine
end

