-- ==== Sys2Proof/Machine/Engines.lean ====
section
/-!
DEFINITION. Engine programs as groups start and collect them (10 R229 to R232), the counters' wait (10 R238), completion
tokens (10 R239), copies (10 R233, R234), `esig` (10 R235) and `emcast` (11 R269, R270).
-/

namespace Sys2Proof.Machine

open Sys2Proof

/-! ### Starting and collecting engine programs -/

/-- The sequencer kind and counter of a class of `forke` (10 R231). -/
def forkeKind (cls : BitVec 3) : SeqKind × Ctr :=
  match cls.toNat with
  | 1 => (.ce, .ce)
  | 2 => (.ge, .ge)
  | _ => (.ke, .ke)

/-- A start slot of a group. -/
def Group.slot (g : Group) (n : Nat) : StartSlot := g.slots[n]?.getD ⟨2, none⟩

/-- Puts a start slot. -/
def Group.setSlot (g : Group) (n : Nat) (t : StartSlot) : Group :=
  { g with slots := (List.range 16).map fun i => if i == n then t else g.slot i }

/-- An engine program as `forke` makes it: `cap` is s0:4 (10 R230). -/
def Engine.start (id : Nat) (q : Sequencer) (g : GKey) (ctx slot : Nat) (entry : Word) (cap : List Reg) (tag : Bool) :
    Engine :=
  { id := id, seqr := q, group := g, slot := slot, ctx := ctx, started := false, pc := entry,
    s := (cap.zipIdx.foldl (fun (r : RegFile) p => r.put p.2 p.1) RegFile.empty).setTag 0 tag,
    preds := 0xFFFF, predPoison := 0, count := 0, cmds := [], fails := [], stopped := none, stopPc := 0, waitt := none,
    remote := none, data := none, redo := [] }

/-- The registers of an operand with their own poison, and the quad's tag. -/
def opndRegs (s : State) (g : Group) (o : Opnd) : List Reg × Bool :=
  ((List.range o.count).map fun k => ((readField s g none (o.field.toNat + k)).1).getD ⟨0, false⟩,
   o.count == 4 && readTag s g none o.field.toNat)

/-- `forke`: a program of a CE or GE waits at once in its sequencer's queue; one of a KE asks from the hold queue
(10 R231, 19 R381). -/
def execForke (f : FmtE) (s : State) : Out :=
  issueWord (.forke f) s (fun x g u => consumes s g u (roleFields x.desc [.a]))
    (fun x g s' =>
      let n := f.id.toNat
      let (kind, ctr) := forkeKind f.cls
      if !finalStatus (g.slotStatus n) || g.full ctr then .hold
      else
        let entry := (readRole s g x.desc none .a).w
        let cap := match x.desc.opnd? .b with
          | some o => opndRegs s g o
          | none => ([], false)
        match kind with
        | .ke =>
          let id := (s'.claim x.key).1
          let slot : StartSlot := match (g.redoOp? id).bind fun r => r.vals.find? (·.2.2) with
            | some v => ⟨(v.2.1.head?).elim 0 (·.val), none⟩
            | none => ⟨0, some id⟩
          let s' := unitRequest x g s' [] (⟨entry, false⟩ :: cap.1 ++ [⟨if cap.2 then 1 else 0, false⟩]) [] false (some .ke)
          .done (s'.modGroup x.key fun g' => g'.setSlot n slot)
        | k =>
          let before := ((g.redo? x.pc).bind fun r => r.vals.head?).bind fun v => (v.2.1.head?).map (·.val.toNat)
          let (id, s') := match before with
            | some id => (id, s')
            | none => s'.fresh
          let s' := s'.modGroup x.key fun g' =>
            let g' := (g'.setSlot n ⟨0, some id⟩).startOp ctr id
            if before.isSome then
              let g' := g'.dropRedo x.pc
              { g' with redo := g'.redo.filter fun r => !r.ofEngine id }
            else g'
          .done (({ s' with engines := s'.engines ++
            [{ Engine.start id ⟨k, g.core⟩ g.key g.ctx n entry cap.1 cap.2 with redo := g.redo.filter fun r => r.ofEngine id }] } : State).remember
              g x.pc [(126, [⟨BitVec.ofNat 32 id, false⟩], false)]))
    noEngine

/-- The contexts of a sequencer (10 R229). -/
def seqContexts (k : SeqKind) : Nat := match k with
  | .ke => 16
  | _ => 8

/-- ENGINE_CONTEXT_START: the oldest program that waits at a sequencer takes a free context (10 R229). -/
def execEngineContextStart (q : Sequencer) (s : State) : Out :=
  let used := (s.engines.filter fun e => e.seqr == q && e.started).length
  if used < seqContexts q.kind then
    .next { s with engines := modifyFirst (fun e => e.seqr == q && !e.started) (fun e => { e with started := true }) s.engines }
  else .next s

/-- The final status of a program (10 R230, R232): of its failed commands the first in program order, else its own. -/
def Engine.finalWord (e : Engine) : Word :=
  let first := e.fails.foldl (fun (acc : Option EngFail) f => match acc with
    | none => some f
    | some a => if f.order < a.order then some f else some a) none
  let (code, pc) := match first with
    | some f => (f.code, f.pc)
    | none => (e.stopped.getD 1, e.stopPc)
  if 3 ≤ code then bitsOf pc 2 24 ++ BitVec.ofNat 8 code else BitVec.ofNat 32 code

/-- Adds what a KE program ended with to what answered its start. -/
def Core.recordMore (c : Core) (id : Nat) (w : Word) : Core :=
  { c with record := c.record.map fun r => if r.op == some id then { r with vals := r.vals ++ [(0, [⟨w, false⟩], true)] } else r }

/-- ENGINE_STATUS_FINAL: a program that has stopped, with every command it started complete, writes its status, leaves
its counter and frees its context (10 R230 to R232, R237). -/
def execEngineStatusFinal (id : Nat) (s : State) : Out :=
  match s.engine? id with
  | none => .next s
  | some e =>
    if e.stopped.isNone || !e.cmds.isEmpty || e.remote.isSome then .next s
    else
      let w := e.finalWord
      let s := ({ s with engines := s.engines.filter fun y => y.id != id } : State).noteSeen
        [e.region, .uncore (regionDie e.region)] e.group.launch
      let s := match s.group? e.group with
        | none => s
        | some g =>
          (s.modGroup e.group fun g =>
            (if (g.slot e.slot).engine == some id then g.setSlot e.slot ⟨w, none⟩ else g).endOp id).modCore g.core
              fun c => if e.seqr.kind == SeqKind.ke then c.recordMore id w else c
      let more (r : Ret) : Ret := if r.op == some id then { r with vals := r.vals ++ [(0, [⟨w, false⟩], true)] } else r
      let s := s.modGroup e.group fun g => { g with redo := g.redo.map more }
      .next s.wake

/-- `rdv`: waits until the slot's status is final, and writes it (10 R232). -/
def execRdv (f : FmtE) (s : State) : Out :=
  issueWord (.rdv f) s noCheck
    (fun x g s' =>
      let st := g.slotStatus f.id.toNat
      if finalStatus st then
        let s' := s'.modGroup x.key fun g' => g'.writeRegs none f.a.toNat [⟨st, false⟩] false
        .done (if acquiringStatus st then s'.invalL1 g.core else s')
      else
        let (id, s') := s'.fresh
        .done (s'.modGroup x.key fun g' =>
          (g'.writeRegs none f.a.toNat [⟨0, false⟩] false (some id)).parkOp x
            { pendOf x id [] with dst := [(none, g.regNum none f.a.toNat)] }))
    noEngine

/-- `rdv.test`: reads the status without waiting (10 R232). -/
def execRdvTest (f : FmtE) (s : State) : Out :=
  issueWord (.rdvTest f) s noCheck
    (fun x g s' =>
      let give (s' : State) (st : Word) : State :=
        let s' := s'.modGroup x.key fun g' => g'.writeRegs none f.a.toNat [⟨st, false⟩] false
        let s' := if acquiringStatus st then s'.invalL1 g.core else s'
        s'.remember g x.pc [(127, [⟨st, false⟩], false)]
      match (g.redo? x.pc).bind fun r => r.vals.head? with
      | some v => .done (give (s'.modGroup x.key fun g' => g'.dropRedo x.pc) ((v.2.1.head?).elim 0 (·.val)))
      | none => .done (give s' (g.slotStatus f.id.toNat)))
    noEngine

/-- `waitc`: waits until a counter has fallen to n (10 R238). -/
def execWaitc (f : FmtE) (s : State) : Out :=
  issueWord (.waitc f) s noCheck
    (fun x g s' =>
      let (c, acq) := waitcParts f.cls
      if g.count c ≤ f.b.toNat then .done (if acq then s'.invalL1 g.core else s')
      else
        let (id, s') := s'.fresh
        .done (s'.modGroup x.key fun g' => g'.parkOp x (pendOf x id [])))
    noEngine

/-! ### Completion tokens (10 R239) -/

/-- A 64-bit value of two words. -/
def pairOf (lo hi : Word) : Nat := lo.toNat + 2 ^ 32 * hi.toNat

/-- The predicate a `waitt` writes. -/
def waittPred (i : Instr) : Nat :=
  match i with
  | .waitt f => f.id.toNat
  | _ => 15

/-- A group's `waitt` ends with its outcome: the predicate in each of its fibres, and an acquire if it observed. -/
def State.endWaitt (s : State) (g : Group) (op : PendOp) (seen : Bool) : State :=
  let s := s.modGroup g.key fun g' =>
    (g'.modLanes ((List.range 64).filter fun l => bitOf op.lanes l) fun l => l.writePred (waittPred op.instr) seen false).finishOp op.id
  let s := if seen then s.invalL1 g.core else s
  s.rememberOnce g op [(127, [⟨if seen then 1 else 0, false⟩], false)]

/-- A `waitt` with t = 0, whose token is tested once, when it has been read (10 R239). -/
def PendOp.once (op : PendOp) : Bool := op.deadline == some op.issued

/-- The home tests the token that a group waits for; an unresolvable translation traps at the `waitt`. -/
def State.pollWaitt (s : State) (k : GKey) (op : PendOp) : State :=
  match s.group? k with
  | none => s
  | some g =>
    let va := pairOf (op.args[0]?.getD 0) (op.args[1]?.getD 0)
    let want := pairOf (op.args[2]?.getD 0) (op.args[3]?.getD 0)
    if !op.once && op.deadline.any fun d => decide (d < s.clockOf g.core) then s
    else
      match s.token op.id (dieOfCore g.core) g.ctx va (some g.key.launch) none with
      | (.wait, s) => s
      | (.old v, s) => if want ≤ v.toNat then s.endWaitt g op true else if op.once then s.endWaitt g op false else s
      | (.fail c _, s) => s.failPend k op c (if c == tFEATURE then 9 else BitVec.ofNat 64 va) op.fibres

/-- The clock that an engine program's waits are counted by. -/
def State.engineClock (s : State) (e : Engine) : Nat := (s.die e.die).clock

/-- An engine program's `waitt` ends: its own predicate is written at once. -/
def State.endEngineWaitt (s : State) (id pd : Nat) (seen : Bool) : State :=
  let s := match s.engine? id with
    | some e => s.rememberEngine e [(127, [⟨if seen then 1 else 0, false⟩], false)]
    | none => s
  s.modEngine id fun e =>
    let bit : BitVec 16 := 1 <<< pd
    { e with pc := e.pc + 4, count := e.count + 1, waitt := none
             preds := if pd == 15 then e.preds else if seen then e.preds ||| bit else e.preds &&& ~~~bit
             predPoison := if pd == 15 then e.predPoison else e.predPoison &&& ~~~bit }

/-- The home tests the token that an engine program waits for. -/
def State.pollEngineWaitt (s : State) (id : Nat) : State :=
  match s.engine? id with
  | none => s
  | some e =>
    match e.waitt with
    | none => s
    | some w =>
      if !w.once && w.deadline.any fun d => decide (d < s.engineClock e) then s
      else
        match s.token e.id e.die e.ctx w.va (some e.group.launch) none with
        | (.wait, s) => s
        | (.old v, s) =>
          if w.want ≤ v.toNat then s.endEngineWaitt id w.pd true else if w.once then s.endEngineWaitt id w.pd false else s
        | (.fail c _, s) => (s.modEngine id fun e => { e with waitt := none }).failEngine e (engineCode c)

/-- Every token that something waits for is tested again. -/
def State.wakeTokens (s : State) : State :=
  let s := s.groups.foldl (fun s g => (g.pend.filter fun op => match op.instr with
      | .waitt _ => true
      | _ => false).foldl (fun s op => s.pollWaitt g.key op) s) s
  s.engines.foldl (fun s e => s.pollEngineWaitt e.id) s

/-- Memory has changed: tokens are tested, and everything that waits looks again. -/
def State.wakeAll (s : State) : State := s.wakeTokens.wake

/-- The timeout in cycles; all ones never times out. -/
def waittDeadline (now : Nat) (t : Word) : Option Nat := if t == 0xFFFFFFFF then none else some (now + t.toNat)

/-- An address that is not mapped and may be: the wait for its page counts towards a timeout (10 R239). -/
def State.unmapped (s : State) (port ctx va : Nat) : Bool :=
  match (s.translate port ctx va {}).1 with
  | .resolvable => true
  | _ => false

/-- `waitt` (10 R239). -/
def execWaitt (f : FmtE) (s : State) : Out :=
  issueWord (.waitt f) s
    (fun x g u =>
      let c := Cap.ofVal (readRole s g x.desc u .a)
      match tokenCheck c rightR with
      | some code => some ⟨u, code, BitVec.ofNat 64 c.addr⟩
      | none => consumes s g u (roleFields x.desc [.a, .b]))
    (fun x g s' =>
      let va := (Cap.ofVal (readRole s g x.desc none .a)).addr
      let b := (readRole s g x.desc none .b).bits
      let t : Word := bitsOf b 64 32
      let (id, s') := s'.fresh
      let op := { pendOf x id [BitVec.ofNat 32 va, BitVec.ofNat 32 (va / 2 ^ 32), bitsOf b 0 32, bitsOf b 32 32] with
        deadline := waittDeadline (s.clockOf g.core) t, issued := s.clockOf g.core }
      match (g.redo? x.pc).bind fun r => r.vals.head? with
      | some v =>
        .done ((s'.modGroup x.key fun g' => g'.dropRedo x.pc).endWaitt g op (v.2.1.head?.any fun r => r.val != 0))
      | none =>
        match s'.token id (dieOfCore g.core) g.ctx va (some g.key.launch) none with
        | (.fail c _, _) => .fail ⟨c, if c == tFEATURE then 9 else BitVec.ofNat 64 va, x.issuing⟩
        | (.old v, s') =>
          if pairOf (bitsOf b 0 32) (bitsOf b 32 32) ≤ v.toNat then .done (s'.endWaitt g op true)
          else if t == 0 then .done (s'.endWaitt g op false)
          else .done (s'.modGroup x.key fun g' => g'.parkOp x op)
        | (.wait, s') =>
          if t == 0 && s'.unmapped (dieOfCore g.core) g.ctx va then .done (s'.endWaitt g op false)
          else .done (s'.modGroup x.key fun g' => g'.parkOp x op))
    (fun e d s' =>
      let c := Cap.ofVal (e.readRole d .a)
      match tokenCheck c rightR with
      | some code => s'.stopEngine e.id (engineCode code)
      | none =>
        match e.poisonIn d [.a, .b] with
        | some r => s'.engineConsume e r
        | none =>
          let b := (e.readRole d .b).bits
          let t : Word := bitsOf b 64 32
          let w : EngWait :=
            { va := c.addr, want := (bitsOf b 0 64).toNat, deadline := waittDeadline (s'.engineClock e) t, pd := f.id.toNat, once := t == 0 }
          match e.redo?.bind (·.vals.head?) with
          | some v => s'.endEngineWaitt e.id f.id.toNat (v.2.1.head?.any fun r => r.val != 0)
          | none => if t == 0 && s'.unmapped e.die e.ctx c.addr then s'.endEngineWaitt e.id f.id.toNat false else (s'.modEngine e.id fun e' => { e' with waitt := some w }).pollEngineWaitt e.id)

/-- WAITT_TIMEOUT: a wait whose cycles have passed without the observation ends with p(PD) = 0; an observation at its
last cycle still counts (10 R239). -/
def execWaittTimeout (a : Agent) (s : State) : Out :=
  match a with
  | .none => .next s
  | .group k =>
    match s.group? k with
    | none => .next s
    | some g =>
      let due := g.pend.filter fun op => (match op.instr with
        | .waitt _ => true
        | _ => false) && !op.once && op.deadline.any fun d => decide (d ≤ s.clockOf g.core)
      .next (due.foldl (fun s op =>
        let s := s.pollWaitt k op
        if (s.group? k).any fun g => g.pend.any fun p => p.id == op.id then s.endWaitt g op false else s) s).wake
  | .engine id =>
    match s.engine? id with
    | none => .next s
    | some e =>
      match e.waitt with
      | none => .next s
      | some w =>
        if !w.once && w.deadline.any fun d => decide (d ≤ s.engineClock e) then
          let s := s.pollEngineWaitt id
          .next (if (s.engine? id).any fun e => e.waitt.isSome then s.endEngineWaitt id w.pd false else s)
        else .next s

/-! ### Copy words (10 R233, R234) -/

/-- What the registers of a copy word give: each side as a value with how it is read, and the token. -/
structure CopyArgs where
  dst : Val
  src : Val
  token : Option Val
  dstLocal : Bool
  srcLocal : Bool
  deriving DecidableEq, Repr

/-- The first address of a side. -/
def sideAddr (v : Val) (isLocal : Bool) : Nat := if isLocal then v.w.toNat else (Cap.ofVal v).addr

/-- L (10 R233). -/
def CopyArgs.len (c : CopyArgs) : Nat :=
  if c.dstLocal then (bitsOf c.dst.bits 32 32).toNat
  else
    let d := Cap.ofVal c.dst
    d.base + d.length - d.addr

/-- A failed check: trap code and what TVAL holds, none for the word. -/
abbrev CopyErr := BitVec 8 × Option Nat

/-- The check of a side of `n` bytes. -/
def sideCheck (lim : Nat × Nat) (v : Val) (isLocal : Bool) (n : Nat) (right : BitVec 8) : Option CopyErr :=
  if isLocal then (if localOk lim.1 lim.2 v.w.toNat n then none else some (tLOCALBOUNDS, some v.w.toNat))
  else
    let c := Cap.ofVal v
    (capCheck c c.addr n right).map fun code => (code, some c.addr)

/-- A side is aligned to 16 bytes; no copy reaches the skew view, whose accesses are of 4 bytes or less (06 R148). -/
def sideAligned (v : Val) (isLocal : Bool) : Option CopyErr :=
  let a := sideAddr v isLocal
  if a % 16 != 0 || (isLocal && a.testBit 31) then some (tALIGN, some a) else none

/-- Two local addresses name the same memory at overlapping offsets. -/
def localMeet (a b n : Nat) : Bool := a.testBit 30 == b.testBit 30 && rangesMeet (a % 2 ^ 30) n (b % 2 ^ 30) n

/-- The checks of a copy in their order: the destination's tag and bounds, the length, its rights; the source; the token;
alignment; overlap (10 R233, R234). -/
def CopyArgs.fails (c : CopyArgs) (lim : Nat × Nat) : Option CopyErr :=
  let n := c.len
  let d := Cap.ofVal c.dst
  let steps : List (Option CopyErr) :=
    [if c.dstLocal then none else (capCheck d d.addr n 0).map fun code => (code, some d.addr),
     if 2 ^ 32 ≤ n then some (tILLEGAL, none) else none,
     sideCheck lim c.dst c.dstLocal n rightW,
     sideCheck lim c.src c.srcLocal n rightR,
     c.token.bind fun t => (tokenCheck (Cap.ofVal t) tokenRights).bind fun code =>
       if code == tALIGN then none else some (code, some (Cap.ofVal t).addr),
     sideAligned c.dst c.dstLocal,
     sideAligned c.src c.srcLocal,
     if n % 16 != 0 then some (tALIGN, some (sideAddr c.dst c.dstLocal)) else none,
     c.token.bind fun t => if (Cap.ofVal t).addr % 8 != 0 then some (tALIGN, some (Cap.ofVal t).addr) else none,
     if c.dstLocal != c.srcLocal then none
     else if (if c.dstLocal then localMeet (sideAddr c.dst true) (sideAddr c.src true) n
         else rangesMeet (sideAddr c.dst false) n (sideAddr c.src false) n) then some (tILLEGAL, none)
     else none]
  steps.findSome? id

/-- The side as the copy performs it. -/
def sideOf (v : Val) (isLocal : Bool) (launch block : Nat) : Side :=
  if isLocal then .localMem launch block v.w.toNat else .global (Cap.ofVal v).addr

/-- The copy that a word's registers start. -/
def CopyArgs.copy (c : CopyArgs) (id : Nat) (owner : Owner) (ctx core launch block now : Nat) : Copy :=
  { id := id, owner := owner, ctx := ctx, core := core, src := sideOf c.src c.srcLocal launch block,
    dst := [sideOf c.dst c.dstLocal launch block], len := c.len,
    tags := !c.dstLocal && !c.srcLocal && (Cap.ofVal c.src).has rightRC && (Cap.ofVal c.dst).has rightWC,
    token := c.token.map fun t => (Cap.ofVal t).addr, inc := 1, issued := now, readPos := 0, buf := [], writePos := 0 }

/-- The sides of a class (10 R233). -/
def copySides (cls : BitVec 3) : Bool × Bool := (bitOf cls 0, bitOf cls 1)

/-- `cpa`: a copy that a group issues; it counts in ce (10 R234). -/
def execCpa (f : FmtE) (s : State) : Out :=
  let args (x : Issue) (g : Group) (u : Option Nat) : CopyArgs :=
    ⟨readRole s g x.desc u .a, readRole s g x.desc u .c, if bitOf f.id 0 then some (readRole s g x.desc u .b) else none,
     (copySides f.cls).1, (copySides f.cls).2⟩
  issueWord (.cpa f) s
    (fun x g u =>
      match (args x g u).fails (s.localLimits g.key.launch g.key.block) with
      | some (code, v) => some ⟨u, code, v.elim (baseWord64 x.instr) (BitVec.ofNat 64)⟩
      | none => consumes s g u (roleFields x.desc [.a, .c, .b]))
    (fun x g s' =>
      match g.redo? x.pc with
      | some r => .done ((s'.modGroup x.key fun g' => g'.dropRedo x.pc).remember g x.pc r.vals)
      | none =>
        if g.full .ce then .hold
        else
          let (id, s') := s'.fresh
          let s' := s'.modGroup x.key fun g' => g'.startOp .ce id
          .done (({ s' with copies := s'.copies ++
            [(args x g none).copy id (.group g.key) g.ctx g.core g.key.launch g.key.block (s.clockOf g.core)] } : State).remember
              g x.pc [(126, [⟨BitVec.ofNat 32 id, false⟩], false)]))
    noEngine

/-- The copy arguments of an engine word. -/
def Engine.copyArgs (e : Engine) (d : Desc) (f : FmtE) (dl sl : Bool) : CopyArgs :=
  ⟨e.readRole d .a, e.readRole d .c, if bitOf f.id 0 then some (e.readRole d .b) else none, dl, sl⟩

/-- An engine's copy command starts, with the destinations it writes; or the program stops with its status. -/
def startEngineCopy (i : Instr) (c : CopyArgs) (dst : List Side) (e : Engine) (d : Desc) (s : State) : State :=
  match c.fails (s.localLimits e.group.launch e.group.block) with
  | some (code, _) => s.stopEngine e.id (if code == tILLEGAL then 3 else 4)
  | none =>
    match e.poisonIn d [.a, .c, .b] with
    | some r => s.engineConsume e r
    | none =>
      match e.redoCmd? with
      | some id => s.recommand e i id (s.copies.any fun y => y.id == id)
      | none =>
      let (id, s) := s.fresh
      let s := s.recommand e i id true
      let cp := c.copy id (.engine e.id e.count e.pc) e.ctx e.core e.group.launch e.group.block (s.engineClock e)
      { s with copies := s.copies ++ [{ cp with dst := if dst.isEmpty then cp.dst else dst }] }

/-- `ecopy`: the copy of an engine program (10 R234). -/
def execEcopy (f : FmtE) (s : State) : Out :=
  issueWord (.ecopy f) s noCheck (fun _ _ s' => .done s')
    (fun e d s' => startEngineCopy (.ecopy f) (e.copyArgs d f (copySides f.cls).1 (copySides f.cls).2) [] e d s')

/-- `emcast`: one source into every resident block of the band (11 R269, R270). -/
def execEmcast (f : FmtE) (s : State) : Out :=
  issueWord (.emcast f) s noCheck (fun _ _ s' => .done s')
    (fun e d s' =>
      let c := e.copyArgs d f true (bitOf f.cls 0)
      let band := e.group.block / max 1 ((s'.launch? e.group.launch).elim 1 (·.band))
      let dst := (s'.blocks.filter fun b => b.launch == e.group.launch && b.band == band).map fun b =>
        Side.localMem b.launch b.index (sideAddr c.dst true)
      startEngineCopy (.emcast f) c dst e d s')

/-- `esig`: waits for the program's earlier commands, then adds to the token (10 R235). -/
def execEsig (f : FmtE) (s : State) : Out :=
  issueWord (.esig f) s noCheck (fun _ _ s' => .done s')
    (fun e d s' =>
      let c := Cap.ofVal (e.readRole d .a)
      match tokenCheck c tokenRights with
      | some _ => s'.stopEngine e.id 4
      | none =>
        match e.poisonIn d [.a, .b] with
        | some r => s'.engineConsume e r
        | none =>
          match e.redoCmd? with
          | some id => s'.recommand e (.esig f) id (s'.copies.any fun y => y.id == id)
          | none =>
          if !e.cmds.isEmpty then s'
          else
            let (id, s') := s'.fresh
            let s' := s'.recommand e (.esig f) id true
            { s' with copies := s'.copies ++
              [{ id := id, owner := .engine e.id e.count e.pc, ctx := e.ctx, core := e.core, src := .global 0, dst := [],
                 len := 0, tags := false, token := some c.addr, inc := (e.readRole d .b).w.setWidth 64,
                 issued := s'.engineClock e, readPos := 0, buf := [], writePos := 0 }] })

/-! ### Performing copies -/

/-- The launch of a command's owner. -/
def State.ownerLaunch (s : State) (o : Owner) : Option Nat :=
  match o with
  | .group g => some g.launch
  | .engine id _ _ => (s.engine? id).map (·.group.launch)
  | .node _ => none

/-- A command of an engine program fails: its place decides the status, and the program stops (10 R230). -/
def State.engineFail (s : State) (id order code : Nat) (pc : Word) : State :=
  s.modEngine id fun e =>
    { e with fails := e.fails ++ [⟨order, code, pc⟩], stopped := some (e.stopped.getD 1), waitt := none }

/-- A command is over: it leaves its counter or program, its failure recorded; a command processor's node fails, or has
had its effect (10 R234, R237, 18 R358). A failure carries the program's status code (4 for a copy or a token, 10 R232), the
record of a group, and whether it was an access to a peer (22 R430). -/
def State.endCommand (s : State) (o : Owner) (id : Nat) (fail : Option (Nat × FailRec × Bool)) : State :=
  match o with
  | .group k =>
    let s := match fail with
      | none => s
      | some (_, f, fab) => if fab then s.recordFabFail k f else s.recordFail k f
    s.modGroup k fun g => g.endOp id
  | .engine e order pc =>
    let s := match fail with
      | none => s
      | some (code, _, _) => s.engineFail e order code pc
    s.modEngine e fun y => { y with cmds := y.cmds.filter (· != id) }
  | .node n =>
    match fail with
    | some _ => s.failNode n
    | none => s.modNode n fun y => { y with state := .effectDone }

/-- The port that a command's addresses are translated at. -/
def State.ownerDie (s : State) (o : Owner) (core : Nat) : Nat :=
  match o with
  | .engine id _ _ => (s.engine? id).elim (dieOfCore core) (·.die)
  | .node _ => 0
  | .group _ => dieOfCore core

/-- A command's own Shadow window has passed: its writes may leave (10 R234); the command processor has none. -/
def State.aged (s : State) (o : Owner) (core issued : Nat) : Bool :=
  match o with
  | .node _ => true
  | _ => decide (issued + Config.shadowWindow ≤ (s.die (s.ownerDie o core)).clock)

/-- The command acts from outside the region of a core: a KE's, or another core's (19 R382). -/
def State.ownerOutside (s : State) (o : Owner) (core at' : Nat) : Bool :=
  core != at' || match o with
    | .engine id _ _ => (s.engine? id).any fun e => e.seqr.kind == SeqKind.ke
    | _ => false

/-- The place of a local side's address, and the core it lies on; none in the local memory of a block that has ended. -/
def State.sidePlace (s : State) (launch block core a : Nat) : Option (Place × Nat) :=
  if a.testBit 30 then some (.cluster (a % 2 ^ 30), core)
  else (s.block? launch block).map fun b =>
    let p := placeOf b core a
    (p, if b.core2.isSome && decide (b.split ≤ p.off) then b.core2.getD b.core else b.core)

/-- Bytes of an ended block's local memory: no value is stated for them. -/
def freeBytes (n count : Nat) : List Byte := (List.range count).map fun i => bitsOf (Config.freeWord (n * 2 ^ 20 + i)) 0 8

/-- The portion of a copy that is moved next: within 4 KiB of every side, and within a line at the host or a peer. -/
def Copy.portion (c : Copy) (pos : Nat) (far : Bool) : Nat :=
  let room (a unit : Nat) : Nat := unit - a % unit
  let sideRoom (x : Side) (unit : Nat) : Nat := match x with
    | .global va => room (va + pos) unit
    | .localMem .. => unit
  let n := (c.dst.foldl (fun n d => min n (sideRoom d 4096)) (min (c.len - pos) (sideRoom c.src 4096)))
  if far then min n (sideRoom c.src 128) else n

/-- Reads the next portion of a copy. -/
def State.copyRead (s : State) (c : Copy) : State :=
  let port := s.ownerDie c.owner c.core
  let take (s : State) (n : Nat) (gs : List Granule) : State :=
    { s with copies := s.copies.map fun y => if y.id == c.id then { y with readPos := c.readPos + n, buf := gs } else y }
  let finish (s : State) (fail : Option (Nat × FailRec × Bool)) : State :=
    ({ s with copies := s.copies.filter fun y => y.id != c.id } : State).endCommand c.owner c.id fail
  let cut (n : Nat) (bs : List Byte) (tag poison : Nat → Bool) : List Granule :=
    (List.range (n / 16)).map fun i => ⟨(bs.drop (16 * i)).take 16, tag i, poison i⟩
  match c.src with
  | .localMem launch block a =>
    let n := c.portion c.readPos false
    match s.sidePlace launch block c.core (a + c.readPos) with
    | none => take s.drawn n (cut n (freeBytes s.free n) (fun _ => false) fun _ => false)
    | some (p, at') =>
      let m := s.placeMem launch block p
      if s.localTested at' || (s.ownerOutside c.owner c.core at' && s.youngLocal at' launch block p.off n) then s
      else take s n (cut n (m.readN p.off n) (fun _ => false) fun i => m.poisonedN (p.off + 16 * i) 16)
  | .global va0 =>
    let va := va0 + c.readPos
    match s.translate port c.ctx va { keyed := true } with
    | (.resolvable, s) => s
    | (.fail code, s) => finish s (some (4, ⟨code, BitVec.ofNat 64 va⟩, false))
    | (.ok key _, s) =>
      if keyTier key < 2 then
        let n := c.portion c.readPos false
        if s.stalls none key n then s
        else
          take s n (cut n (s.mem.readN key n) (fun i => c.tags && keyTier key == 0 && s.mem.tag (key + 16 * i))
            fun i => s.mem.poisoned (key + 16 * i))
      else
        let n := c.portion c.readPos true
        match s.readPieces c.id (cutPieces 16 key n) with
        | (.wait, s) => s
        | (.data bs poison, s) => take s n (cut n bs (fun _ => false) fun _ => poison)
        | (.fail code k, s) =>
          finish s (some (4, ⟨code, BitVec.ofNat 64 (va + (k - key))⟩, keyTier key == 3))

/-- What writing granules to one side gives. -/
inductive CopyWrite where
  | wait
  | done
  | fail (f : FailRec) (fab : Bool)

/-- Where the last poisoned granule ends, once some more are written. -/
def Copy.badAfter (c : Copy) (gs : List Granule) : Nat :=
  gs.zipIdx.foldl (fun n q => if q.1.poison then c.writePos + 16 * q.2 + 16 else n) c.badTo

/-- Writes granules at a global side: 16-byte writes in rising order, each with its tag and poison; a line that the copy has
rewritten whole, with clean granules, is clean (10 R234, 15 R309). -/
def State.copyGlobal (s : State) (c : Copy) (va : Nat) (gs : List Granule) : CopyWrite × State :=
  let port := s.ownerDie c.owner c.core
  match s.translate port c.ctx va { write := true, keyed := true } with
  | (.resolvable, s) => (.wait, s)
  | (.fail code, s) => (.fail ⟨code, BitVec.ofNat 64 va⟩ false, s)
  | (.ok key _, s) =>
    let s := match s.ownerLaunch c.owner with
      | some l => s.noteWrite l va (16 * gs.length) (keyTier key) false
      | none => s
    if s.locked none key (16 * gs.length) then (.wait, s)
    else if keyTier key < 2 then
      let mem := gs.zipIdx.foldl (fun (m : Memory) q =>
        let k := key + 16 * q.2
        let m := if c.tags && keyTier key == 0 then m.storeCap k q.1.bytes q.1.tag else m.store k q.1.bytes
        if q.1.poison && keyTier key == 0 then m.setPoison k true else m) s.mem
      let clean := ((unitsOf key (16 * gs.length)).map unitKey).filter fun a =>
        decide (a + poisonSize a ≤ key + 16 * gs.length) && decide (key ≤ a + c.writePos) &&
        decide (c.badTo + key ≤ a + c.writePos) &&
        !(gs.zipIdx.any fun q => q.1.poison && decide (a ≤ key + 16 * q.2) && decide (key + 16 * q.2 < a + poisonSize a))
      (.done, { s with mem := clean.foldl (fun (m : Memory) a => m.setPoison a false) mem })
    else
      match s.writePieces c.id (gs.zipIdx.map fun q => (key + 16 * q.2, q.1.bytes, q.1.poison)) with
      | (.wait, s) => (.wait, s)
      | (.data .., s) => (.done, s)
      | (.fail _ k, s) => (.fail ⟨tREMFAULT, BitVec.ofNat 64 (va + (k - key))⟩ (keyTier key == 3), s)

/-- Writes granules, all of one size, at a local side; a block that has ended is skipped (11 R270). -/
def State.copyLocal (s : State) (c : Copy) (launch block a : Nat) (gs : List Granule) : State :=
  gs.zipIdx.foldl (fun s q =>
    match s.sidePlace launch block c.core (a + q.1.bytes.length * q.2) with
    | none => s
    | some (p, at') => s.placeStore launch block p q.1.bytes q.1.poison (s.ownerOutside c.owner c.core at') (some c.id)) s

/-- A destination in the host's memory: its virtual address and tier decide whether poison can be written there. -/
def State.hostSide (s : State) (c : Copy) : Bool :=
  c.dst.any fun d => match d with
    | .global va => (match (s.translate (s.ownerDie c.owner c.core) c.ctx (va + c.writePos) { write := true, keyed := true }).1 with
        | .ok key _ => keyTier key == 2
        | _ => false)
    | .localMem .. => false

/-- Writes what a copy has read. -/
def State.copyWrite (s : State) (c : Copy) : State :=
  let finish (s : State) (fail : Option (Nat × FailRec × Bool)) : State :=
    ({ s with copies := s.copies.filter fun y => y.id != c.id } : State).endCommand c.owner c.id fail
  let clean := c.buf.takeWhile fun q => !q.poison
  let gs := if clean.length < c.buf.length && s.hostSide c then clean else c.buf
  let advance (s : State) : State :=
    { s with copies := s.copies.map fun y => if y.id == c.id then
        { y with writePos := c.writePos + 16 * gs.length, buf := c.buf.drop gs.length, badTo := c.badAfter gs } else y }
  match c.dst with
  | [.global va] =>
    if gs.isEmpty then finish s (some (4, ⟨tPAGE, BitVec.ofNat 64 (va + c.writePos)⟩, false))
    else
      match s.copyGlobal c (va + c.writePos) gs with
      | (.wait, s) => s
      | (.done, s) => (advance s).wakeAll
      | (.fail f fab, s) => finish s (some (4, f, fab))
  | ds =>
    (advance (ds.foldl (fun s d => match d with
      | .localMem l b a => s.copyLocal c l b (a + c.writePos) gs
      | .global _ => s) s)).wakeAll

/-- An earlier command of the same engine program has its token still to increment: a program's requests reach the homes in
its order (11 R263). -/
def State.tokenBehind (s : State) (o : Owner) : Bool :=
  let before (y : Owner) : Bool := match o, y with
    | .engine id n _, .engine id' n' _ => id == id' && decide (n' < n)
    | _, _ => false
  (s.copies.any fun c => before c.owner && c.token.isSome) || s.gathers.any fun g => before g.owner && g.token.isSome

/-- The token of a command that has done its work, if it has one; the command is then over. -/
def State.endWithToken (s : State) (o : Owner) (id ctx core : Nat) (token : Option Nat) (inc : DWord) (drop : State → State) :
    State :=
  match token with
  | none => ((drop s).endCommand o id none).wakeAll
  | some va =>
    if s.tokenBehind o then s
    else
      match s.token id (s.ownerDie o core) ctx va (s.ownerLaunch o) (some inc) with
      | (.wait, s) => s
      | (.old _, s) => ((drop s).endCommand o id none).wakeAll
      | (.fail code fab, s) => ((drop s).endCommand o id (some (4, ⟨code, BitVec.ofNat 64 va⟩, fab))).wakeAll

/-- COPY_COMPLETE: a copy moves its next portion, and with the last its token is incremented and it is complete
(10 R234). Writes and the increment wait until 256 cycles after its issue. -/
def execCopyComplete (id : Nat) (s : State) : Out :=
  match s.copies.find? fun c => c.id == id with
  | none => .next s
  | some c =>
    if c.buf.isEmpty && decide (c.readPos < c.len) then .next (s.copyRead c).wake
    else if !s.aged c.owner c.core c.issued then .next s
    else if !c.buf.isEmpty then .next (s.copyWrite c)
    else .next (s.endWithToken c.owner id c.ctx c.core c.token c.inc fun s =>
      { s with copies := s.copies.filter fun y => y.id != id })

end Sys2Proof.Machine
end

