-- ==== Sys2Proof/Machine/Barriers.lean ====
section
/-!
DEFINITION. Barriers: `bar` and its Amber form (10 R240 to R249), barrier objects (10 R243, R244), and the part of the
tree barrier that stays in the package (11 R271, R272).
-/

namespace Sys2Proof.Machine

open Sys2Proof

/-! ### Parking at a barrier -/

/-- Parks the issuing fibres at a barrier. -/
def Group.parkBarrier (g : Group) (x : Issue) (b : BarKey) (amber : Bool) (count : Option Word) : Group :=
  (g.modLanes x.issuing fun l => { l with park := some (.barrier b amber x.pc count) }).wakeYield []

/-- The barrier that a `bar` names for a group. -/
def State.barKey (s : State) (k : GKey) (cls : BitVec 3) (id : Nat) : BarKey :=
  if bitOf cls 0 then .band k.launch ((s.blockOf k).elim 0 (·.band)) id else .block k.launch k.block id

/-- `bar` (10 R240, R241). -/
def execBar (f : FmtE) (s : State) : Out :=
  issueWord (.bar f) s (fun x g u => consumes s g u (roleFields x.desc [.a]))
    (fun x g s' =>
      let count := if bitOf f.cls 2 then some (readRole s g x.desc none .a).w else none
      .done (s'.modGroup x.key fun g' => g'.parkBarrier x (s.barKey g.key f.cls f.id.toNat) (bitOf f.cls 1) count))
    noEngine

/-- The tree number that `tbar` names (11 R272). -/
def treeNumber (f : FmtE) : Nat := (if bitOf f.cls 0 then 16 else 0) + f.id.toNat

/-- `tbar`: a number the launch does not hold traps ILLEGAL (11 R271, R272). -/
def execTbar (f : FmtE) (s : State) : Out :=
  issueWord (.tbar f) s
    (fun _ g u =>
      if (s.launch? g.key.launch).any fun l => l.trees.any fun t => t.n == treeNumber f then none
      else some ⟨u, tILLEGAL, BitVec.ofNat 64 (treeNumber f)⟩)
    (fun x g s' => .done (s'.modGroup x.key fun g' => g'.parkBarrier x (.tree g.key.launch (treeNumber f)) false none))
    noEngine

/-! ### Arriving -/

/-- Where a lane is parked at a barrier. -/
def Lane.atBarrier (l : Lane) : Option (BarKey × Bool × Word × Option Word) :=
  match l.park with
  | some (.barrier b amber pc count) => some (b, amber, pc, count)
  | _ => none

/-- The barrier at which every live fibre of a group is parked, with the lowest lane's word (10 R241). -/
def Group.allParked (g : Group) : Option (BarKey × Bool × Word × Option Word) :=
  let parks := (g.lanes.filter fun l => l.status == .live).map Lane.atBarrier
  match parks with
  | some p :: _ => if parks.all (fun q => q.any fun q => q.1 == p.1) then some p else none
  | _ => none

/-- The word that stands for an arrival, by its barrier. -/
def arrivalWord (b : BarKey) (amber counted : Bool) : Instr :=
  let f (cls : Nat) (id : Nat) : FmtE := ⟨false, BitVec.ofNat 3 cls, BitVec.ofNat 4 id, 0, 0⟩
  let extra := (if amber then 2 else 0) + (if counted then 4 else 0)
  match b with
  | .block _ _ id => .bar (f extra id)
  | .band _ _ id => .bar (f (1 + extra) id)
  | .tree _ n => .tbar (f (n / 16) (n % 16))

/-- A word of a barrier arrival. -/
def isArrival (i : Instr) : Bool :=
  match i with
  | .bar _ => true
  | .tbar _ => true
  | _ => false

/-- The group's arrival is under way: its release is waited for, or it stands in the hold queue. -/
def State.arriving (s : State) (g : Group) : Bool :=
  (g.pend.any fun p => isArrival p.instr) || (s.core g.core).hold.any fun r => r.group == g.key &&
    match r.body with
    | .unit i _ _ => isArrival i
    | _ => false

/-- The tree number's fabric descriptor is in force for a launch (22 R432): the descriptor. -/
def State.fbdOf (s : State) (launch n : Nat) : Option (BitVec 64) :=
  match s.launch? launch, lookupKey n s.dev.fbd with
  | some l, some d => if bitOf d 63 && (bitsOf d 40 11).toNat == l.ctx && s.accepted 9 then some d else none
  | _, _ => none

/-- The scope of an arrival's release (10 R241, 11 R272, 22 R433), in the codes of 02 R36. -/
def State.barScope (s : State) (b : BarKey) : Nat :=
  match b with
  | .block .. => 1
  | .band .. => 2
  | .tree l n => if (s.fbdOf l n).isSome then 5 else 3

/-- The groups that a barrier without a count awaits: those that have not ended (10 R241). -/
def State.awaited (s : State) (b : BarKey) : List GKey :=
  (s.groups.filter fun g => s.participates b g.key).map (·.key)

/-- A barrier with these arrivals is complete (10 R241, R242). -/
def State.barDone (s : State) (b : BarKey) (arrived : List GKey) (count : Option Nat) : Bool :=
  !arrived.isEmpty &&
    match count with
    | some n => decide (n ≤ arrived.length)
    | none => (s.awaited b).all arrived.contains

/-- Changes the state of a barrier. -/
def State.modBar (s : State) (b : BarKey) (f : BarState → BarState) : State :=
  let put (bs : List BarState) (id : Nat) : List BarState :=
    if bs.any fun x => x.id == id then bs.map fun x => if x.id == id then f x else x
    else bs ++ [f ⟨id, 0, [], none⟩]
  match b with
  | .block l i id => s.modBlock l i fun y => { y with bars := put y.bars id }
  | .band l i id => s.modBand l i fun y => { y with bars := put y.bars id }
  | .tree l n => s.modLaunch l fun y => { y with trees := y.trees.map fun t =>
      if t.n == n then
        let r := f ⟨n, t.phase, t.arrived, none⟩
        { t with phase := r.phase, arrived := r.arrived }
      else t }

/-- A group's fibres at a barrier raise a trap at their own words (10 R241, R242). -/
def State.trapAtBarrier (s : State) (k : GKey) (b : BarKey) (code : BitVec 8) (tval : BitVec 64) : State :=
  match (s.group? k).bind Group.allParked with
  | none => s
  | some p =>
    let at' (l : Lane) (any : Bool) : Bool := l.status == .live && l.atBarrier.any fun q => q.1 == b && (any || q.2.2.1 == p.2.2.1)
    let mask := ((s.group? k).elim [] Group.laneList).filterMap fun q => if at' q.2 false then some q.1 else none
    let s := (s.undoRun k p.2.2.1 (maskOf mask)).modGroup k fun g =>
      { g with
        amber := .idle
        lanes := g.lanes.map fun l => if at' l true then { l with pc := l.atBarrier.elim l.pc (·.2.2.1), park := none } else l }
    s.takeTrap k p.2.2.1 ⟨code, tval, mask⟩

/-- A group begins to speculate (10 R245): checkpoint, acquire, go on. -/
def State.speculate (s : State) (k : GKey) (b : BarKey) : State :=
  match s.group? k with
  | none => s
  | some g =>
    let c : AmberCkpt :=
      { cycle := s.clockOf g.core, bar := b, lanes := g.lanes, s := g.s, ub := g.ub, fpcr := g.fpcr, msr := g.msr, cvs := g.cvs, slots := g.slots,
        collector := g.collector, runCount := g.runCount, written := g.written, fpcrWrite := g.fpcrWrite,
        msrWrite := g.msrWrite, pend := g.pend }
    (s.setGroup (({ g with ckpt := some c, amber := .speculating } : Group).unparkIf fun p => match p with
      | .barrier b' _ _ _ => b' == b
      | _ => false)).invalL1 g.core

/-- The Amber form lets the group speculate: block or band scope, accepted, its arrival does not complete the barrier
(10 R245). -/
def State.maySpeculate (s : State) (k : GKey) (b : BarKey) (amber : Bool) (count : Option Word) : Bool :=
  let st := s.barState b
  let n := if st.arrived.isEmpty then count.map (·.toNat) else st.count
  amber && s.accepted 1 && !s.barDone b (k :: st.arrived) n &&
    match b with
    | .tree .. => false
    | _ => true

/-- BAR_GROUP_ARRIVE: with every live fibre parked at one barrier the group's release begins; when it is done, a
recorded failure traps, or the arrival goes to the hold queue and an Amber group goes on (10 R241, R245). -/
def execBarGroupArrive (k : GKey) (s : State) : Out :=
  match s.group? k with
  | none => .next s
  | some g =>
    match g.allParked with
    | none => .next s
    | some (b, amber, _, count) =>
      let scope := s.barScope b
      match g.pend.find? fun p => isArrival p.instr with
      | none =>
        let again := (s.core g.core).left.any fun p => p.1 == k && p.2.1 == g.seq + 1
        if ((s.barState b).arrived.contains k && !again) || s.arriving g then .next s
        else
          let (id, _, s) := s.claim k
          let op : PendOp :=
            { id := id, lanes := 0, pc := 0, instr := arrivalWord b amber count.isSome, args := count.toList, dst := [],
              acks := s.leftWrites g.core, deadline := none, issued := s.clockOf g.core,
              seq := g.seq + 1, sent := false, ready := false }
          .next (s.modGroup k fun g => { g with pend := g.pend ++ [op] })
      | some op =>
        let amberOk := s.maySpeculate k b amber count
        let unsettled := g.draining || g.written.any fun w => w.pending.isSome
        if !s.releaseReady g op scope || (amberOk && unsettled) then .next s
        else
          let s := s.modGroup k fun g => { g with pend := g.pend.filter fun p => p.id != op.id }
          match g.failure (scope == 5) with
          | some f => .next ((s.modGroup k Group.clearFails).trapAtBarrier k b f.code f.addr).wake
          | none =>
            let left := (s.core g.core).left.any fun p => p.1 == k && p.2.1 == op.seq
            if left && (g.redoOp? op.id).isSome then
              .next ((s.modGroup k fun g => (g.dropRedoOp op.id).unparkIf fun p => match p with
                | .barrier b' _ _ _ => b' == b
                | _ => false).invalL1 g.core).wake
            else
            let s := if left then s
              else s.sendAs k op.id op.seq (.unit op.instr (op.args.map fun w => ⟨w, false⟩) [])
            .next (if amberOk then s.speculate k b else s).wake

/-- The barrier of an arrival request. -/
def State.arrivalKey (s : State) (k : GKey) (i : Instr) : BarKey :=
  match i with
  | .tbar f => .tree k.launch (treeNumber f)
  | .bar f => s.barKey k f.cls f.id.toNat
  | _ => .tree k.launch 0

/-- Groups of a block or band, the ended ones counted (10 R242). -/
def State.barGroups (s : State) (b : BarKey) : Nat :=
  match b with
  | .block l i _ => (s.block? l i).elim 0 (·.groups)
  | .band l _ _ => (s.launch? l).elim 0 fun x => x.band * (x.bfibres / x.w)
  | .tree .. => 0

/-- An arrival leaves the core: it is counted, or its count is wrong and traps (10 R241, R242). -/
def State.arriveNow (s : State) (k : GKey) (i : Instr) (count : Option Word) : State :=
  let b := s.arrivalKey k i
  let st := s.barState b
  let bad := match count with
    | none => false
    | some n =>
      n == 0 || decide (s.barGroups b < n.toNat) || (!st.arrived.isEmpty && st.count != some n.toNat)
  if bad then (s.amberRollback k).trapAtBarrier k b tILLEGAL ((count.getD 0).setWidth 64)
  else s.modBar b fun st =>
    { st with arrived := st.arrived ++ [k], count := if st.arrived.isEmpty then count.map (·.toNat) else st.count }

/-! ### Completing -/

/-- Buffered stores that leave the core, in their order: as many requests as there are runs of one kind, to global memory or
to the partner's half and cluster memory. -/
def storeRuns (es : List AmberStore) : List (Space × List LaneStore) :=
  es.foldr (fun e acc =>
    match e.space with
    | none => acc
    | some .global =>
      match acc with
      | (.global, ls) :: t => (.global, e.store :: ls) :: t
      | _ => (.global, [e.store]) :: acc
    | some sp =>
      let l := { e.store with va := if sp == .cluster then 1 else 0 }
      match acc with
      | (.cluster, ls) :: t => (.cluster, l :: ls) :: t
      | _ => (.cluster, [l]) :: acc) []

/-- A speculator's buffered lines go, oldest first, into the hold queue or local memory (10 R249). -/
def State.drainAmber (s : State) (k : GKey) : State :=
  match s.group? k with
  | none => s
  | some g =>
    let mine := (s.core g.core).stores.filter fun e => e.group == k
    let s := s.modCore g.core fun c => { c with stores := c.stores.filter fun e => e.group != k }
    let s := (mine.filter fun e => e.space.isNone).foldl (fun s e =>
      (s.conflictPlace k (.localMem e.store.addr false) e.store.bytes.length).placeStore k.launch k.block
        (.localMem e.store.addr false) e.store.bytes e.store.poison false none (some k)) s
    let s := if mine.any fun e => e.space.isNone then
        let (id, s) := s.fresh
        s.modGroup k fun g => g.startAged id (s.clockOf g.core)
      else s
    (storeRuns mine).foldl (fun s r =>
      let (id, send, s) := s.claim k
      let s := if send then s.modGroup k fun g => g.startOp .st id else s
      s.send k (id, send) (.store r.1 r.2)) s

/-- The waiters of a barrier go on after an acquire; speculators become ordinary again (10 R241, R249). -/
def State.releaseBarrier (s : State) (b : BarKey) : State :=
  let arrived := (s.barState b).arrived
  let spec := arrived.filter fun k => (s.group? k).any fun g => (g.amber == .speculating || g.amber == .stalled) &&
    g.ckpt.any fun c => c.bar == b
  let s := arrived.foldl (fun s k =>
    match s.group? k with
    | none => s
    | some g =>
      let away := !(g.allParked.any fun p => p.1 == b)
      let g := match (s.core g.core).left.reverse.find? fun p => p.1 == k with
        | some p => if away && decide (g.seq < p.2.1) then
            let r : Ret := ⟨k, s.clockOf g.core, 0, some p.2.2, []⟩
            { g with redo := g.redo ++ [r] } else g
        | none => g
      let s := s.modCore g.core fun c =>
        if !c.shadowed then c
        else
          match c.left.find? fun p => p.1 == k && p.2.1 == g.seq with
          | some p => { c with record := c.record ++ [⟨k, s.clockOf g.core - Config.shadowWindow, 0, some p.2.2, []⟩] }
          | none => c
      let g := { g with amber := .idle, ckpt := none }
      if spec.contains k then
        ((s.setGroup g).modCore g.core fun c => { c with reads := c.reads.filter fun r => r.group != k }).unstall g.core
      else
        (s.setGroup (g.unparkIf fun p => match p with
          | .barrier b' _ _ _ => b' == b
          | _ => false)).invalL1 g.core) s
  let s := s.modBar b fun st => { st with phase := (st.phase + 1) % 2 ^ 32, arrived := [], count := none }
  spec.foldl (fun s k => s.drainAmber k) s

/-- BAR_COMPLETE (10 R241, R242). -/
def execBarComplete (b : BarKey) (s : State) : Out :=
  match b with
  | .tree .. => .next s
  | _ =>
    let st := s.barState b
    if s.barDone b st.arrived st.count then .next (s.releaseBarrier b).wake else .next s

/-! ### Barrier objects (10 R243, R244) -/

/-- The checks of an object's address, and of a count. -/
def baroCheck (s : State) (roles : List Role) (count : Bool) : Issue → Group → Option Nat → Option UnitErr := fun x g u =>
  let a := (readRole s g x.desc u .a).w.toNat
  let lim := s.localLimits g.key.launch g.key.block
  if !localOk lim.1 lim.2 a 16 then some ⟨u, tLOCALBOUNDS, BitVec.ofNat 64 a⟩
  else if a % 16 != 0 || a.testBit 31 then some ⟨u, tALIGN, BitVec.ofNat 64 a⟩
  else
    let n := (readRole s g x.desc u .b).w.toNat
    if count && (n == 0 || decide (65535 < n)) then some ⟨u, tILLEGAL, baseWord64 x.instr⟩
    else consumes s g u (roleFields x.desc roles)

/-- The bytes of an object: EXPECT, STATUS, PENDING, PHASE from the top. -/
def baroBytes (obj : BitVec 128) : List Byte := natBytes 16 obj.toNat

/-- `baro.init`: a write of 16 bytes (10 R244, 11 R258). -/
def execBaroInit (f : FmtE) (s : State) : Out :=
  issueWord (.baroInit f) s (baroCheck s [.a, .b] true)
    (fun x g s' =>
      match s.blockOf g.key with
      | none => .done s'
      | some b =>
        let n : Word := (readRole s g x.desc none .b).w
        let p := placeOf b g.core (readRole s g x.desc none .a).w.toNat
        let bs := baroBytes (n ++ (0 : Word) ++ n ++ (0 : Word))
        match p.space with
        | none =>
          if s.localTested g.core then .wait
          else .done ((s'.conflictPlace g.key p 16).placeStore g.key.launch g.key.block p bs false false none (some g.key)).wake
        | some sp =>
          if s.writeWaits g then .hold
          else
            let (id, send, s') := s'.claim x.key
            let s' := if send then s'.modGroup x.key fun g' => g'.startOp .st id else s'
            .done (s'.send x.key (id, send)
              (.store sp [⟨0, p.off, if sp == .cluster then 1 else 0, bs, none, false, []⟩])))
    noEngine

/-- `baro.arrive` and `baro.aw` as their word starts them: the release is waited for, then the arrival goes to the hold
queue. -/
def baroArrival (i : Instr) (f : FmtE) (s : State) (wait : Bool) : Out :=
  issueWord i s (baroCheck s [.a] false)
    (fun x g s' =>
      let addr := (readRole s g x.desc none .a).w
      let mst : Word := if bitOf f.id 0 then g.msr &&& 0xF else 0
      let (id, send, s') := s'.claim x.key
      let answer := (g.redoOp? id).bind fun r => (r.vals.head?).bind fun v => v.2.1.head?
      let op := { pendOf x id [addr, (answer.elim 0 (·.val)), mst] with
        dst := if wait then [] else [(none, g.regNum none f.b.toNat)]
        acks := s.leftWrites g.core
        issued := s.clockOf g.core, seq := g.seq + 1, sent := !send, ready := answer.isSome }
      match answer, wait with
      | some r, false =>
        .done ((s'.modGroup x.key fun g' => (g'.dropRedoOp id).writeRegs none f.b.toNat [r] false).rememberOp g op
          [(0, [r], false)])
      | some r, true =>
        .done ((s'.modGroup x.key fun g' => (g'.dropRedoOp id).parkOp x op).rememberOp g op [(0, [r], false)]).wake
      | none, _ =>
        .done (s'.modGroup x.key fun g' =>
          (if wait then g' else g'.writeRegs none f.b.toNat [⟨0, false⟩] false (some id)).parkOp x op).wake)
    noEngine

/-- `baro.arrive`. -/
def execBaroArrive (f : FmtE) (s : State) : Out := baroArrival (.baroArrive f) f s false

/-- `baro.aw`. -/
def execBaroAw (f : FmtE) (s : State) : Out := baroArrival (.baroAw f) f s true

/-- `baro.wait`. -/
def execBaroWait (f : FmtE) (s : State) : Out :=
  issueWord (.baroWait f) s (baroCheck s [.a, .b] false)
    (fun x g s' =>
      let (id, s') := s'.fresh
      .done (s'.modGroup x.key fun g' =>
        g'.parkOp x (pendOf x id [(readRole s g x.desc none .a).w, (readRole s g x.desc none .b).w])).wake)
    noEngine

/-- The arrival at an object is performed: its phase answers the group (10 R244). -/
def State.baroNow (s : State) (k : GKey) (id : Nat) (args : List Word) : State :=
  match s.group? k, s.blockOf k with
  | some g, some b =>
    let p := placeOf b g.core (args[0]?.getD 0).toNat
    let obj : BitVec 128 := BitVec.ofNat 128 (bytesNat ((s.placeMem k.launch k.block p).readN p.off 16))
    let r := baroArrive obj (bitsOf (args[2]?.getD 0) 0 4)
    let s := (s.conflictPlace k p 16).placeStore k.launch k.block p (baroBytes r.2) false true
    match s.earlyAnswer k id [(0, [⟨r.1, false⟩], false)], g.pend.find? fun q => q.id == id with
    | some s, _ => s
    | _, none => s
    | none, some op =>
      if op.dst.isEmpty then
        (s.modGroup k fun g => g.modPend id fun q => { q with ready := true, args := [args[0]?.getD 0, r.1, args[2]?.getD 0] }).rememberOp g op
          [(0, [⟨r.1, false⟩], false)]
      else s.answerUnit k id [[⟨r.1, false⟩]]
  | _, _ => s

end Sys2Proof.Machine
end

