-- ==== Sys2Proof/Machine/Reduce.lean ====
section
/-!
DEFINITION. What the groups of a band share on their cluster: the reduction unit (11 R265 to R268) and the compaction
queue (16 R342, R343).
-/

namespace Sys2Proof.Machine

open Sys2Proof

/-! ### The reduction unit -/

/-- An empty slot that expects `n` contributions. -/
def CruSlot.fresh (id n : Nat) : CruSlot :=
  { id := id, n := n, mode := none, received := [], merged := 0, m := ⟨0, false⟩, l := ⟨0, false⟩, acc := [],
    complete := false, err := false }

/-- One product-sum of a merge: x1 * f1 + x2 * f2, rounded once. -/
def mergeSum (x1 f1 x2 f2 : Word) : Word :=
  let v (w : Word) : FloatVal := unpack fp32 w.toNat
  BitVec.ofNat 32 (sumResult fp32 .rne false false [v x1, v f1, v x2, v f2]
    [prodTerm (v x1) (v f1), prodTerm (v x2) (v f2)]).bits

/-- The factor of a partial whose maximum is `mi` under the merged maximum `m` (11 R267). -/
def mergeFactor (sum : Bool) (mi m : Word) : Word :=
  let one : Word := 0x3F800000
  if sum then one
  else
    let a := unpack fp32 mi.toNat
    let b := unpack fp32 m.toNat
    if !a.isNaN && !b.isNaN && floatOrd a b == .eq then one
    else BitVec.ofNat 32 (sfu 2 false (floatSub homeEnv a b).bits).bits

/-- A contribution with a poisoned register is poisoned as a whole (11 R267). -/
def Contrib.bad (c : Contrib) : Bool := c.m.poison || c.l.poison || c.acc.any (·.poison)

/-- Merges a contribution into a state: a poisoned one poisons all of it (11 R267). -/
def mergeTriple (sum : Bool) (m1 l1 : Reg) (a1 : List Reg) (c : Contrib) : Reg × Reg × List Reg :=
  let m : Word := BitVec.ofNat 32 (floatMinMax false true m1.val.toNat c.m.val.toNat).bits
  let f1 := mergeFactor sum m1.val m
  let f2 := mergeFactor sum c.m.val m
  let bad := m1.poison || l1.poison || a1.any (·.poison) || c.bad
  (⟨m, bad⟩, ⟨mergeSum l1.val f1 c.l.val f2, bad⟩, (a1.zip c.acc).map fun p => ⟨mergeSum p.1.val f1 p.2.val f2, bad⟩)

/-- The state that the first contribution makes; a slot whose cells failed their check stays poisoned (11 R274). -/
def Contrib.first (c : Contrib) (failed : Bool) : Reg × Reg × List Reg :=
  if failed || c.bad then (⟨c.m.val, true⟩, ⟨c.l.val, true⟩, c.acc.map fun r => ⟨r.val, true⟩) else (c.m, c.l, c.acc)

/-- A slot of a band. -/
def Band.slot (b : Band) (id : Nat) : CruSlot := (b.slots.find? fun t => t.id == id).getD (CruSlot.fresh id 64)

/-- Puts a slot. -/
def Band.setSlot (b : Band) (t : CruSlot) : Band := { b with slots := b.slots.map fun x => if x.id == t.id then t else x }

/-- Merges buffered contributions as far as their indices allow; `fuel` bounds their number (11 R267). -/
def foldBuffered : Nat → Nat → Band → Band
  | 0, _, b => b
  | fuel + 1, id, b =>
    let t := b.slot id
    match b.buffered.find? fun c => c.slot == id && c.k == t.merged with
    | none => b
    | some c =>
      let r := if t.merged == 0 then c.first t.m.poison else mergeTriple c.sum t.m t.l t.acc c
      let n := t.merged + 1
      foldBuffered fuel id
        { b.setSlot { t with m := r.1, l := r.2.1, acc := r.2.2, merged := n, complete := n == t.n } with
          buffered := b.buffered.filter fun y => !(y.slot == id && y.k == c.k) }

/-- The unit takes a contribution: it is discarded with ERR, or kept and merged in the order of its index. -/
def Band.contribute (b : Band) (c : Contrib) : Band :=
  let t := b.slot c.slot
  if decide (t.n ≤ c.k) || t.received.contains c.k || t.complete || t.mode.any (fun m => m != c.sum) then
    b.setSlot { t with err := true }
  else
    foldBuffered 64 c.slot
      { b.setSlot { t with mode := some c.sum, received := t.received ++ [c.k] } with buffered := b.buffered ++ [c] }

/-- The band of the issuing group holds no slots: ILLEGAL with the word (11 R265). -/
def credBand (s : State) (x : Issue) (g : Group) (u : Option Nat) : Option UnitErr :=
  if (s.bandOf g.key).any (·.cru) then none else some ⟨u, tILLEGAL, baseWord64 x.instr⟩

/-- `cred.init`: an N out of range traps ILLEGAL with N (11 R266). -/
def execCredInit (f : FmtE) (s : State) : Out :=
  issueWord (.credInit f) s
    (fun x g u =>
      match credBand s x g u with
      | some e => some e
      | none =>
        let n := (readRole s g x.desc u .a).w
        if n == 0 || decide (64 < n.toNat) then some ⟨u, tILLEGAL, n.setWidth 64⟩
        else consumes s g u (roleFields x.desc [.a]))
    (fun x g s' =>
      if g.full .ke then .hold
      else .done (unitRequest x g s' [] [⟨(readRole s g x.desc none .a).w, false⟩] [] false (some .ke)))
    noEngine

/-- A contribution: s(A), s(A+1), s(A+2), and B of every lane as 05 R128 supplies it (11 R266). -/
def credGive (i : Instr) (f : FmtE) (s : State) : Out :=
  issueWord i s
    (fun x g u =>
      match credBand s x g u with
      | some e => some e
      | none => consumes s g none [f.a.toNat + 2])
    (fun x g s' =>
      if g.full .ke then .hold
      else
        let args := (List.range 3).map fun k => ((readField s g none (f.a.toNat + k)).1).getD ⟨0, false⟩
        let b := (x.desc.opnd? .b).getD (src .b 0)
        let lanes := (List.range g.w).map fun l =>
          let v := supply s g b l
          (l, (⟨v.w, v.poison⟩ : Reg))
        .done (unitRequest x g s' [] args lanes false (some .ke)))
    noEngine

/-- `cred.tri`. -/
def execCredTri (f : FmtE) (s : State) : Out := credGive (.credTri f) f s
/-- `cred.sum`. -/
def execCredSum (f : FmtE) (s : State) : Out := credGive (.credSum f) f s

/-- A word of the reduction unit that changes it. -/
def isCred (i : Instr) : Bool :=
  match i with
  | .credInit _ => true
  | .credTri _ => true
  | .credSum _ => true
  | _ => false

/-- The number that stands for a cluster's reduction unit among the homes of requests. -/
def cruHome (cluster : Nat) : Nat := 256 + cluster

/-- A reduction-unit request of the group has not been taken yet. -/
def State.credUnderway (s : State) (k : GKey) : Bool :=
  let ours (b : ReqBody) : Bool := match b with
    | .unit i _ _ => isCred i
    | _ => false
  (s.cores.any fun c => c.hold.any fun r => r.group == k && ours r.body) || s.homes.any fun r => r.group == k && ours r.body

/-- A `cred.get` whose slot is complete, with the group's earlier words taken, gets its result (11 R268). -/
def State.pollGet (s : State) (k : GKey) (op : PendOp) : State :=
  match op.instr, s.group? k, s.bandOf k with
  | .credGet f, some g, some b =>
    let t := b.slot f.id.toNat
    if !t.complete || s.credUnderway k || s.testing 10 b.cluster then s
    else
      let quad : List Reg := [t.m, t.l, ⟨BitVec.ofNat 32 t.merged, false⟩, ⟨if t.err then 1 else 0, false⟩]
      let lanes := (List.range 64).filter fun l => bitOf op.lanes l
      let vals := quad :: lanes.map fun l => [t.acc[l]?.getD ⟨0, false⟩]
      (s.modGroup k fun g' =>
        ((op.dst.zip vals).foldl (fun g' p => g'.answers op.id p.1.1 p.1.2 p.2) g').finishOp op.id).rememberOnce g op
          (vals.map fun v => (0, v, false))
  | _, _, _ => s

/-- Every `cred.get` that waits looks again. -/
def State.wakeGets (s : State) : State :=
  s.groups.foldl (fun s g => g.pend.foldl (fun s op => s.pollGet g.key op) s) s

/-- `cred.get`: waits until the slot is complete, then writes the result in s(A) to s(A+3) and in B of every fibre of
the issuing set. -/
def execCredGet (f : FmtE) (s : State) : Out :=
  issueWord (.credGet f) s (credBand s)
    (fun x g s' =>
      let dsts : List (Option Nat × Nat × Nat) := (none, f.a.toNat, 4) :: x.issuing.map fun l => (some l, f.b.toNat, 1)
      match g.redo? x.pc with
      | some r =>
        .done ((s'.modGroup x.key fun g' =>
          (dsts.zip r.vals).foldl (fun g' p => g'.writeRegs p.1.1 p.1.2.1 p.2.2.1 false) (g'.dropRedo x.pc)).rememberRet g r)
      | none =>
        let (id, s') := s'.fresh
        let op := { pendOf x id [] with dst := dsts.map (fun d => (d.1, g.regNum d.1 d.2.1)), issued := s.clockOf g.core }
        let s' := s'.modGroup x.key fun g' =>
          (dsts.foldl (fun g' d => g'.writeRegs d.1 d.2.1 (List.replicate d.2.2 ⟨0, false⟩) false (some id)) g').parkOp x op
        .done (s'.pollGet x.key op))
    noEngine

/-- A contribution's slot, and whether it is a sum. -/
def contribSlot (i : Instr) : Option (Nat × Bool) :=
  match i with
  | .credTri f => some (f.id.toNat, false)
  | .credSum f => some (f.id.toNat, true)
  | _ => none

/-- No command leaves for a unit that is being tested (19 R392). A contribution that the unit's buffer cannot hold waits in its core: the buffer and what is on its way to it fill it, and
it is neither the next of its slot nor one that is discarded (11 R267). -/
def State.cruTakes (s : State) (core : Nat) (r : Req) (i : Instr) (args : List Reg) : Bool :=
  !s.testing 10 (clusterOfCore core) && match contribSlot i with
  | none => true
  | some (slot, sum) =>
    let home := cruHome (clusterOfCore core)
    let under := (s.bands.filter fun b => cruHome b.cluster == home).foldl (fun n b => n + b.buffered.length) 0
    let coming := (s.homes.filter fun q => q.home == home && match q.body with
      | .unit i _ _ => (contribSlot i).isSome
      | _ => false).length
    let k := (args[2]?).elim 0 (·.val.toNat)
    decide (under + coming < Config.cruBuffer) ||
      (!(s.homes.any fun q => q.home == home && q.group == r.group) && (s.bandOf r.group).all fun b =>
        let t : CruSlot := b.slot slot
        decide (t.n ≤ k) || t.complete || t.received.contains k || t.mode.any (fun m => m != sum) || k == t.merged)

/-- CRU_RECORD: the unit takes a request that has reached it, in the order of its group (11 R266, R267). -/
def execCruRecord (id : Nat) (s : State) : Out :=
  match s.homes.find? fun r => r.id == id && decide (256 ≤ r.home) && decide (r.home < 512) with
  | none => .next s
  | some r =>
    let first := s.homes.find? fun y => y.home == r.home && y.group == r.group
    let done (s : State) (f : Band → Band) : Out :=
      let s := { s with homes := s.homes.filter fun y => y.id != id }
      let s := match s.bandOf r.group with
        | none => s
        | some b => s.modBand b.launch b.index f
      .next ((s.modGroup r.group fun g => g.endOp id).answerUnit r.group id []).wakeGets.wake
    if first.any fun y => y.id != id then .next s
    else
      match r.body with
      | .unit (.credInit f) args _ =>
        done s fun b =>
          { b.setSlot (CruSlot.fresh f.id.toNat (args.head?.elim 0 (·.val.toNat))) with
            buffered := b.buffered.filter fun c => c.slot != f.id.toNat }
      | .unit i args lanes =>
        let (slot, sum) := (contribSlot i).getD (0, false)
        let arg (k : Nat) : Reg := args[k]?.getD ⟨0, false⟩
        let c : Contrib := ⟨slot, (arg 2).val.toNat, sum, arg 0, arg 1, lanes.map (·.2)⟩
        done s fun b => b.contribute c
      | _ => .next s

/-! ### The compaction queue -/

/-- `cq.push`: the lanes whose keep predicate was 1 when the run began (16 R343). -/
def execCqPush (f : FmtE) (s : State) : Out :=
  let p := f.id.toNat
  issueWord (.cqPush f) s
    (fun _ g u =>
      match u with
      | some l => if (g.lane? l).any fun y => bitOf y.predPoison p then some ⟨u, tPOISON, 0x100 + f.id.setWidth 64⟩ else none
      | none => none)
    (fun x g s' =>
      let keep := x.issuing.filter fun l => (g.lane? l).any fun y => predBit y.preds p
      let vals := keep.map fun l =>
        let v := readRole s g x.desc (some l) .a
        (l, (⟨v.w, v.poison⟩ : Reg))
      let id := (s'.claim x.key).1
      match g.redoOp? id with
      | some r =>
        .done ((unitRequest x g s' [] [] [] false).modGroup x.key fun g' =>
          g'.modLanes (r.vals.map (·.1)) fun l => l.writePred p false false)
      | none => .done (unitRequest x g s' [] [] vals false))
    noEngine

/-- `cq.pop`. -/
def execCqPop (f : FmtE) (s : State) : Out :=
  issueWord (.cqPop f) s noCheck
    (fun x g s' =>
      .done (unitRequest x g s' (x.issuing.map (fun l => (some l, f.a.toNat, 1)) ++ [(none, f.b.toNat, 1)]) []
        (x.issuing.map fun l => (l, ⟨0, false⟩)) false))
    noEngine

/-- `cq.reset`. -/
def execCqReset (f : FmtE) (s : State) : Out :=
  issueWord (.cqReset f) s noCheck (fun x g s' => .done (unitRequest x g s' [] [] [] false)) noEngine

/-- `cq.count`: only reads, so it does not wait in the hold queue (19 R381). -/
def execCqCount (f : FmtE) (s : State) : Out :=
  issueWord (.cqCount f) s noCheck
    (fun x g s' =>
      let give (s' : State) (r : Reg) : State :=
        (s'.modGroup x.key fun g' => g'.writeRegs none f.b.toNat [r] false).remember g x.pc [(127, [r], false)]
      match (g.redo? x.pc).bind fun r => (r.vals.head?).bind fun v => v.2.1.head? with
      | some r => .done (give (s'.modGroup x.key fun g' => g'.dropRedo x.pc) r)
      | none => .done (give s' ⟨BitVec.ofNat 32 ((s.bandOf g.key).elim 0 (·.cq.length)), false⟩))
    noEngine

/-- Entries in use in the queue of a cluster, by all its bands. -/
def State.cqUsed (s : State) (cluster : Nat) : Nat :=
  (s.bands.filter fun b => b.cluster == cluster).foldl (fun n b => n + b.cq.length) 0

/-- A `cq` request reaches the queue (16 R343). -/
def State.cqNow (s : State) (k : GKey) (id : Nat) (i : Instr) (lanes : List (Nat × Reg)) : State :=
  match s.bandOf k with
  | none => s
  | some b =>
    match i with
    | .cqPush f =>
      let pushed := lanes.take (Config.compactionEntries - s.cqUsed b.cluster)
      let s := s.modBand b.launch b.index fun b => { b with cq := b.cq ++ pushed.map (·.2) }
      match s.earlyAnswer k id (pushed.map fun q => (q.1, [], true)), s.group? k with
      | some s, _ => s
      | _, none => s
      | none, some g =>
        let s := s.modGroup k fun g =>
          (g.modLanes (pushed.map (·.1)) fun l => l.writePred f.id.toNat false false).finishOp id
        match g.pend.find? fun p => p.id == id with
        | some op => s.rememberOp g op (pushed.map fun q => (q.1, [], true))
        | none => s
    | .cqPop _ =>
      let c := min b.cq.length lanes.length
      let s := s.modBand b.launch b.index fun b => { b with cq := b.cq.drop c }
      s.answerUnit k id ((List.range lanes.length).map (fun n => [if n < c then b.cq[n]?.getD ⟨0, false⟩ else ⟨0xFFFFFFFF, false⟩]) ++
        [[⟨BitVec.ofNat 32 c, false⟩]])
    | .cqReset _ => (s.modBand b.launch b.index fun b => { b with cq := [] }).answerUnit k id []
    | _ => s

end Sys2Proof.Machine
end

