-- ==== Sys2Proof/Machine/Sequences.lean ====
section
/-!
DEFINITION. Sequences and their keys (16 R331 to R341): gathering and storing rows, retiring a key; and the merge unit
(16 R344, R345).
-/

namespace Sys2Proof.Machine

open Sys2Proof

/-! ### Descriptors and keys -/

/-- A sequence descriptor (16 R331). -/
structure SeqDesc where
  ntok : Nat
  nblk : Nat
  rowb : Nat
  stream : Nat
  kslot : Nat
  seq : Word
  pool : Nat
  table : Nat
  ok : Bool
  deriving DecidableEq, Repr

/-- The fields of 32 bytes; `ok` says that the reserved fields are 0 and NBLK is at least 1. -/
def SeqDesc.ofBytes (bs : List Byte) : SeqDesc :=
  let d : BitVec 256 := BitVec.ofNat 256 (bytesNat bs)
  { ntok := (bitsOf d 224 32).toNat, nblk := (bitsOf d 200 24).toNat, rowb := 16 * ((bitsOf d 192 8).toNat + 1),
    stream := (bitsOf d 176 8).toNat, kslot := (bitsOf d 160 12).toNat, seq := bitsOf d 128 32,
    pool := (bitsOf d 64 64).toNat, table := (bitsOf d 0 64).toNat,
    ok := bitsOf d 184 8 == 0 && bitsOf d 172 4 == 0 && bitsOf d 112 16 == 0 && bitsOf d 64 16 == 0 &&
      bitsOf d 48 16 == 0 && bitsOf d 0 2 == 0 && bitsOf d 200 24 != 0 }

/-- The live key slot that a descriptor names for a context. -/
def State.liveKey (s : State) (d : SeqDesc) (ctx : Nat) : Option KeySlot :=
  s.cp.keys.find? fun k => k.n == d.kslot && !k.retiring && k.ctx == ctx && k.seq == d.seq

/-- Changes a key slot. -/
def State.modKey (s : State) (n : Nat) (f : KeySlot → KeySlot) : State :=
  s.modCp fun c => { c with keys := c.keys.map fun k => if k.n == n then f k else k }

/-- The gather engines of the package, one a core; a retired core has none. -/
def State.gatherCores (s : State) : List Nat := (List.range 256).filter fun c => !s.repair.cores.contains c && !s.repair.clusters.contains (clusterOfCore c)

/-- A retirement whose references are all dropped destroys the keys and asks every gather engine to purge
(16 R339, steps 3 to 5). -/
def State.advanceRetires (s : State) : State :=
  s.cp.retires.foldl (fun s r =>
    if r.purging || (s.cp.keys.any fun k => k.n == r.slot && !k.refs.isEmpty) then s
    else
      (s.modKey r.slot fun k => { k with k1 := 0, k2 := 0 }).modCp fun c =>
        { c with retires := c.retires.map fun y => if y.id == r.id then { y with purging := true, acks := s.gatherCores } else y }) s

/-- Begins the retirement of a live slot (16 R339, step 2). -/
def State.startRetire (s : State) (id slot : Nat) (k : Option GKey) : State :=
  ((s.modKey slot fun y => { y with retiring := true }).modCp fun c =>
    { c with retires := c.retires ++ [⟨id, slot, k, [], false⟩] }).advanceRetires

/-- A command's reference on its slot is dropped. -/
def State.dropRef (s : State) (slot id : Nat) : State :=
  (s.modKey slot fun k => { k with refs := k.refs.filter (· != id) }).advanceRetires

/-- `seqend` (16 R339): its request goes to the key store from the hold queue. -/
def execSeqend (f : FmtE) (s : State) : Out :=
  issueWord (.seqend f) s
    (fun x g u =>
      let c := Cap.ofVal (readRole s g x.desc u .a)
      globalCheck s c.addr 32 c (rightR ||| rightM) true [.a] x g u)
    (fun x g s' =>
      let a := (Cap.ofVal (readRole s g x.desc none .a)).addr
      .done (unitRequest x g s' [(none, f.b.toNat, 1)]
        [⟨BitVec.ofNat 32 a, false⟩, ⟨BitVec.ofNat 32 (a / 2 ^ 32), false⟩] [] true))
    noEngine

/-- An access of several bytes through a context at a port: it waits, its bytes, or its failure. -/
def State.readVirtual (s : State) (id port ctx va n : Nat) (keyed : Bool) (both : Bool := false) : FarRes × State :=
  let r := s.translateRange port ctx va n { keyed := keyed, both := both }
  match worstFail r.1 with
  | some c => (.fail c va, r.2)
  | none =>
    if !(resolvablePages r.1).isEmpty then (.wait, r.2)
    else r.2.readPieces id ((cutPieces (2 * n + 64) va n).map fun p => (keyAt r.1 p.1, p.2))

/-- The key of the first poisoned byte among bytes of a context (19 R385). -/
def State.poisonAt (s : State) (port ctx va n : Nat) : Option Nat :=
  let r := (s.translateRange port ctx va n {}).1
  ((rangeFrom va n).find? fun a => s.mem.poisoned (keyAt r a)).map (keyAt r)

/-- A `seqend` reaches the key store (16 R339, step 1): whether its request has left. -/
def State.seqendNow (s : State) (r : Req) (args : List Reg) : Bool × State :=
  let va := pairOf (args[0]?.elim 0 (·.val)) (args[1]?.elim 0 (·.val))
  match s.launch? r.group.launch with
  | none => (true, s)
  | some l =>
    let core := (s.group? r.group).elim 0 (·.core)
    let op := (s.group? r.group).bind fun g => g.pend.find? fun p => p.id == r.id
    match s.readVirtual r.id (dieOfCore core) l.ctx va 32 false with
    | (.wait, s) => (false, s)
    | (.fail code _, s) =>
      (true, op.elim s fun op => s.failPend r.group op code (if code == tFEATURE then 9 else BitVec.ofNat 64 va) op.fibres)
    | (.data bs poison, s) =>
      if poison then
        (true, s.consume r.group (BitVec.ofNat 64 va) (s.poisonAt (dieOfCore core) l.ctx va 32))
      else
        let d := SeqDesc.ofBytes bs
        match s.liveKey d l.ctx with
        | none => (true, s.answerUnit r.group r.id [[⟨1, false⟩]])
        | some k => (true, s.startRetire r.id k.n (some r.group))

/-- Every gather engine has acknowledged: the slot is free, and the retirement is answered (16 R339, step 6; 20 R406). -/
def State.endRetire (s : State) (r : Retire) : State :=
  let s := s.modCp fun c =>
    { c with keys := c.keys.filter (fun k => k.n != r.slot), retires := c.retires.filter fun y => y.id != r.id }
  match r.group with
  | some k => (s.markNonReplay k.launch 4).answerUnit k r.id [[⟨0, false⟩]]
  | none => s.modCp fun c => { c with status := 2, result := 0 }

/-! ### Gathers -/

/-- The local range of a gather. -/
def gatherLocal (s : State) (e : Engine) (a n : Nat) : Bool :=
  let lim := s.localLimits e.group.launch e.group.block
  localOk lim.1 lim.2 a n

/-- `egkv` of a form: the checks in their order, and the command (16 R337). -/
def gatherWord (i : Instr) (f : FmtE) (form : GatherForm) (s : State) : Out :=
  issueWord i s noCheck (fun _ _ s' => .done s')
    (fun e d s' =>
      let cap := Cap.ofVal (e.readRole d .a)
      let tok := if bitOf f.id 0 then some (Cap.ofVal (e.readRole d .b)) else none
      if (capCheck cap cap.addr 32 (rightR ||| rightM)).isSome || cap.addr % 32 != 0 then s'.stopEngine e.id 4
      else
        match s'.readVirtual e.id e.die e.ctx cap.addr 32 false with
        | (.wait, s') => s'
        | (.fail .., s') => s'.stopEngine e.id 4
        | (.data bs poison, s') =>
          let q := SeqDesc.ofBytes bs
          if poison || !q.ok then s'.stopEngine e.id 4
          else if form != .purge && (s'.liveKey q e.ctx).isNone then s'.stopEngine e.id 5
          else
            let c := (e.readRole d .c).bits
            let first := (bitsOf c 0 32).toNat
            let n := (bitsOf c 32 32).toNat
            let a := (bitsOf c 64 32).toNat
            let aligned := a % 16 == 0 && !a.testBit 31
            let sound := match form with
              | .purge => true
              | .ld => decide (n ≤ 4096) && decide (first + n ≤ q.ntok) && aligned && gatherLocal s' e a (n * q.rowb)
              | .st => decide (n ≤ 4096) && decide (first + n ≤ 16 * q.nblk) && aligned && gatherLocal s' e a (n * q.rowb)
              | .ldx => decide (n ≤ 4096) && aligned && gatherLocal s' e a (n * q.rowb) && first % 4 == 0 &&
                  gatherLocal s' e first (4 * n)
            if !sound || tok.any (fun t => (tokenCheck t tokenRights).isSome) then s'.stopEngine e.id 4
            else
              match e.poisonIn d [.a, .c, .b] with
              | some r => s'.engineConsume e r
              | none =>
                match e.redoCmd? with
                | some id => s'.recommand e i id (s'.gathers.any fun y => y.id == id)
                | none =>
                let (id, s') := s'.fresh
                let s' := s'.recommand e i id true
                let g : Gather :=
                  { id := id, owner := .engine e.id e.count e.pc, ge := e.seqr.unit, ctx := e.ctx, form := form, seq := q.seq,
                    stream := q.stream, kslot := q.kslot, ntok := q.ntok, nblk := q.nblk, rowb := q.rowb, table := q.table,
                    pool := q.pool, t0 := first, n := if form == .purge then 0 else n, k := 0, laddr := a,
                    launch := e.group.launch, block := e.group.block, token := tok.map (·.addr), issued := s'.engineClock e,
                    acks := if form == .purge then s'.gatherCores else [] }
                let s' := { s' with gathers := s'.gathers ++ [g] }
                if form == .purge then s' else s'.modKey q.kslot fun k => { k with refs := k.refs ++ [id] })

def execEgkvLd (f : FmtE) (s : State) : Out := gatherWord (.egkvLd f) f .ld s
def execEgkvLdx (f : FmtE) (s : State) : Out := gatherWord (.egkvLdx f) f .ldx s
def execEgkvSt (f : FmtE) (s : State) : Out := gatherWord (.egkvSt f) f .st s
def execEgkvPurge (f : FmtE) (s : State) : Out := gatherWord (.egkvPurge f) f .purge s

/-- The tweak value of a token (16 R334). -/
def tweakOf (seq : Word) (stream block pos : Nat) : BitVec 128 :=
  seq ++ BitVec.ofNat 8 stream ++ (0 : BitVec 24) ++ BitVec.ofNat 32 block ++ (0 : BitVec 28) ++ BitVec.ofNat 4 pos

/-- A block in a translation buffer, which becomes its most recently used entry (16 R335). -/
def Core.btbUse (c : Core) (ctx : Nat) (seq : Word) (stream block : Nat) : Option Word × Core :=
  let hit (e : BtbEntry) : Bool := e.ctx == ctx && e.seq == seq && e.stream == stream && e.block == block
  match c.btb.find? hit with
  | none => (none, c)
  | some e => (some e.phys, { c with btb := e :: c.btb.filter fun y => !hit y })

/-- A gather leaves its list, its reference dropped, with its outcome. -/
def State.endGather (s : State) (g : Gather) (fail : Option (Nat × FailRec × Bool)) : State :=
  ((({ s with gathers := s.gathers.filter fun y => y.id != g.id } : State).dropRef g.kslot g.id).endCommand g.owner g.id fail).wake

/-- Stops a gather with a status (16 R338). -/
def State.stopGather (s : State) (g : Gather) (code : Nat) : State := s.endGather g (some (code, ⟨0, 0⟩, false))

/-- The local place of byte `off` of a gather, with the core whose half holds it. -/
def State.gatherPlace (s : State) (g : Gather) (a : Nat) : Option (Place × Nat) :=
  (s.block? g.launch g.block).map fun b =>
    let p := placeOf b g.ge a
    (p, match p with
      | .localMem off _ => if b.core2.isSome && decide (b.split ≤ off) then b.core2.getD b.core else b.core
      | .cluster _ => g.ge)

/-- Reads local bytes for a gather: none while a write of another core there is young (19 R382); an ended block's bytes
have no stated value. -/
def State.gatherRead (s : State) (g : Gather) (a n : Nat) : Option (List Byte × Bool) × State :=
  match s.gatherPlace g a with
  | none => (some (freeBytes s.free n, false), s.drawn)
  | some (p, at') =>
    if s.localTested at' || (at' != g.ge && s.youngLocal at' g.launch g.block p.off n) then (none, s)
    else
      let m := s.placeMem g.launch g.block p
      (some (m.readN p.off n, m.poisonedN p.off n), s)

/-- The next row is done. -/
def State.nextRow (s : State) (id : Nat) : State :=
  { s with gathers := s.gathers.map fun y => if y.id == id then { y with k := y.k + 1 } else y }

/-- The physical address of the first poisoned line of a row; of its first line when the row's memory is not this device's
(16 R338). -/
def State.poisonedLine (s : State) (port ctx va n : Nat) : Nat :=
  let rs := (s.translateRange port ctx va n { keyed := true }).1
  let ks := (List.range (n / 16)).map fun i => keyAt rs (va + 16 * i)
  keyPa ((ks.find? s.mem.poisoned).getD (keyAt rs va)) / 128 * 128

/-- A row is deciphered into local memory, or enciphered from it (16 R337, R338). -/
def State.moveRow (s : State) (g : Gather) (key : KeySlot) (t : Nat) (phys : Word) : State :=
  let port := dieOfCore g.ge
  let va := g.pool + (phys.toNat * 16 + t % 16) * g.rowb
  let tw := tweakOf g.seq g.stream (t / 16) (t % 16)
  let local' := g.laddr + g.k * g.rowb
  match g.form with
  | .st =>
    match s.gatherRead g local' g.rowb with
    | (none, s) => s
    | (some (bs, poison), s) =>
      let r := s.translateRange port g.ctx va g.rowb { write := true, keyed := true, both := true }
      match worstFail r.1 with
      | some _ => r.2.stopGather g 4
      | none =>
        if !(resolvablePages r.1).isEmpty then r.2
        else
          let out := xts true key.k1 key.k2 tw bs
          let s := r.2.noteWrite g.launch va g.rowb (keyTier (keyAt r.1 va)) false
          let pieces := (List.range (g.rowb / 16)).map fun j =>
            (keyAt r.1 (va + 16 * j), (out.drop (16 * j)).take 16, poison)
          match s.writePieces g.id pieces with
          | (.wait, s) => s
          | (.fail .., s) => s.stopGather g 4
          | (.data .., s) => (s.nextRow g.id).wakeAll
  | _ =>
    match s.readVirtual g.id port g.ctx va g.rowb true with
    | (.wait, s) => s
    | (.fail .., s) => s.stopGather g 4
    | (.data bs poison, s) =>
      if poison then
        let pa := s.poisonedLine port g.ctx va g.rowb
        (s.logError port { ErrRec.blank 0x0F with launch := g.launch, ctx := g.ctx, addr := pa }).stopGather g 4
      else
        let out := xts false key.k1 key.k2 tw bs
        let s := match s.gatherPlace g local' with
          | none => s
          | some (p, at') => s.placeStore g.launch g.block p out false (at' != g.ge) (some g.id)
        (s.nextRow g.id).wakeAll

/-- The next row's bytes go out of the core: to memory, the partner core's half or the cluster's memory (12 R284). -/
def State.rowLeaves (s : State) (g : Gather) : Bool :=
  g.form == .st || (s.gatherPlace g (g.laddr + g.k * g.rowb)).any fun q => q.2 != g.ge || match q.1 with
    | .cluster _ => true
    | .localMem .. => false

/-- The next row of a gather: its token, its block, its bytes. -/
def State.gatherRow (s : State) (g : Gather) : State :=
  match s.cp.keys.find? fun k => k.n == g.kslot with
  | none => s.stopGather g 5
  | some key =>
    let tok : Option (Nat × Bool) × State := match g.form with
      | .ldx => match s.gatherRead g (g.t0 + 4 * g.k) 4 with
        | (none, s) => (none, s)
        | (some (bs, poison), s) => (some (bytesNat bs, poison), s)
      | _ => (some (g.t0 + g.k, false), s)
    match tok with
    | (none, s) => s
    | (some (t, bad), s) =>
      if bad || (g.form == .ldx && decide (g.ntok ≤ t)) || decide (g.nblk ≤ t / 16) then s.stopGather g 4
      else
        match (s.core g.ge).btbUse g.ctx g.seq g.stream (t / 16) with
        | (some phys, c) => (s.setCore c).moveRow g key t phys
        | (none, _) =>
          match s.readVirtual g.id (dieOfCore g.ge) g.ctx (g.table + 4 * (t / 16)) 4 false (g.form == .st) with
          | (.wait, s) => s
          | (.fail .., s) => s.stopGather g 4
          | (.data bs poison, s) =>
            let phys : Word := BitVec.ofNat 32 (bytesNat bs)
            if poison || phys == 0xFFFFFFFF then s.stopGather g 4
            else
              let s := s.modCore g.ge fun c =>
                { c with btb := (⟨g.ctx, g.seq, g.stream, t / 16, phys, g.kslot⟩ :: c.btb).take Config.btbEntries }
              s.moveRow g key t phys

/-- EGKV_COMMAND_COMPLETE: an `egkv` moves its next row; after the last its reference is dropped, its token is
incremented, and it is complete (16 R337). A row that goes out of the core is written no earlier than 256 cycles after the
issue (10 R234, 12 R284). -/
def execEgkvCommandComplete (id : Nat) (s : State) : Out :=
  match s.gathers.find? fun g => g.id == id with
  | none => .next s
  | some g =>
    let old := decide (g.issued + Config.shadowWindow ≤ s.clockOf g.ge)
    if g.k < g.n then
      if s.rowLeaves g && !old then .next s else .next (s.gatherRow g).wake
    else if !g.acks.isEmpty || !old then .next s
    else
      .next (((s.dropRef g.kslot id)).endWithToken g.owner id g.ctx g.ge g.token 1 fun s =>
        { s with gathers := s.gathers.filter fun y => y.id != id })

/-- BTB_PURGE_ACK: a gather engine drops the entries it was asked to purge; the last answer completes an `egkv.purge`, a
`seqend` or SEQCLOSE (16 R337, R339). -/
def execBtbPurgeAck (core id : Nat) (s : State) : Out :=
  match s.gathers.find? fun g => g.id == id && g.acks.contains core with
  | some g =>
    let s := s.modCore core fun c =>
      { c with btb := c.btb.filter fun e => !(e.ctx == g.ctx && e.seq == g.seq && e.stream == g.stream) }
    .next { s with gathers := s.gathers.map fun y => if y.id == id then { y with acks := y.acks.filter (· != core) } else y }
  | none =>
    match s.cp.retires.find? fun r => r.id == id && r.purging && r.acks.contains core with
    | none => .next s
    | some r =>
      let s := s.modCore core fun c => { c with btb := c.btb.filter fun e => e.kslot != r.slot }
      let left := r.acks.filter (· != core)
      if left.isEmpty then .next (s.endRetire r).wake
      else .next (s.modCp fun c =>
        { c with retires := c.retires.map fun y => if y.id == id then { y with acks := left } else y })

/-! ### The merge unit (16 R344, R345) -/

/-- An element of a stream: key, value, poison. -/
structure MergeElem where
  key : Nat
  val : Word
  poison : Bool
  deriving DecidableEq, Repr

/-- The sum of two FP32 values, rounded once. -/
def mergeAdd (a b : Word) : Word :=
  BitVec.ofNat 32 (floatAdd fp32 homeEnv (unpack fp32 a.toNat) (unpack fp32 b.toNat)).bits

/-- The product of two FP32 values. -/
def mergeMul (a b : Word) : Word :=
  BitVec.ofNat 32 (floatMul fp32 homeEnv (unpack fp32 a.toNat) (unpack fp32 b.toNat)).bits

/-- The run that starts a stream: its head, how many elements it takes, and whether the next key breaks the order. -/
def mergeHead (dup : Bool) (k : Nat) : MergeElem → Nat → List MergeElem → MergeElem × Nat × Bool
  | h, n, [] => (h, n, false)
  | h, n, e :: t =>
    if dup && e.key == k then mergeHead dup k ⟨k, mergeAdd h.val e.val, h.poison || e.poison⟩ (n + 1) t
    else (h, n, decide (e.key ≤ k))

/-- How a merge ends: status (1 done, 4 capacity, 6 order), the output, the position. -/
structure MergeEnd where
  code : Nat
  out : List MergeElem
  pos : Word
  deriving DecidableEq, Repr

/-- The position of an element: bit 31 marks y. -/
def mergePos (y : Bool) (i : Nat) : Word := BitVec.ofNat 32 ((if y then 2 ^ 31 else 0) + i)

/-- A value as it is written: rounded, which makes a NaN quiet (16 R345). -/
def mergeRound (w : Word) : Word :=
  BitVec.ofNat 32 (floatAdd fp32 homeEnv (unpack fp32 w.toNat) (unpack fp32 0x80000000)).bits

/-- What an element of the output writes over in a stream of which element `i` is next: the streams and the output may
overlap, and their elements then coincide. -/
def writeOver (at' : Nat → Option Nat) (o : Nat) (e : MergeElem) (i : Nat) (xs : List MergeElem) : List MergeElem :=
  match at' o with
  | some p => if i ≤ p then xs.set (p - i) e else xs
  | none => xs

/-- The merge from element `i` of x and `j` of y on; `fuel` bounds the elements. `ax` and `ay` give the element of a stream
that an element of the output lies on. -/
def mergeRun (union dup : Bool) (cap : Nat) (ax ay : Nat → Option Nat) :
    Nat → Nat → Nat → List MergeElem → List MergeElem → List MergeElem → MergeEnd
  | 0, _, _, _, _, out => ⟨1, out, 0⟩
  | fuel + 1, i, j, xs, ys, out =>
    let hx := xs.head?.map fun h => mergeHead dup h.key h 1 xs.tail
    let hy := ys.head?.map fun h => mergeHead dup h.key h 1 ys.tail
    let go (emit : Bool) (e : MergeElem) (n m : Nat) (pos : Word) : MergeEnd :=
      if !emit then mergeRun union dup cap ax ay fuel (i + n) (j + m) (xs.drop n) (ys.drop m) out
      else if out.length == cap then ⟨4, out, pos⟩
      else
        let e := { e with val := mergeRound e.val }
        mergeRun union dup cap ax ay fuel (i + n) (j + m) (writeOver ax out.length e (i + n) (xs.drop n))
          (writeOver ay out.length e (j + m) (ys.drop m)) (out ++ [e])
    match hx, hy with
    | some (_, n, true), _ => ⟨6, out, mergePos false (i + n)⟩
    | _, some (_, n, true) => ⟨6, out, mergePos true (j + n)⟩
    | none, none => ⟨1, out, 0⟩
    | some (x, n, _), none => go union x n 0 (mergePos false i)
    | none, some (y, m, _) => go union y 0 m (mergePos true j)
    | some (x, n, _), some (y, m, _) =>
      if x.key == y.key then
        go true ⟨x.key, if union then mergeAdd x.val y.val else mergeMul x.val y.val, x.poison || y.poison⟩ n m (mergePos false i)
      else if x.key < y.key then go union x n 0 (mergePos false i)
      else go union y 0 m (mergePos true j)

/-- The element of a stream of `n` at `a` that element `o` of the output at `b` lies on. -/
def mergeMeets (a n b o : Nat) : Option Nat :=
  if a ≤ b + 8 * o && b + 8 * o < a + 8 * n then some ((b + 8 * o - a) / 8) else none

/-- A stream's elements in local memory; none while another core's writes there are young, or while the memory is tested
(19 R382, R392). -/
def State.mergeStream (s : State) (b : Block) (core a n : Nat) : Option (List MergeElem) :=
  let elem (k : Nat) : Option MergeElem :=
    let p := placeOf b core (a + 8 * k)
    let m := s.placeMem b.launch b.index p
    if s.localWaits b core ⟨b.launch, b.index, 0⟩ p 8 then none
    else some ⟨bytesNat (m.readN p.off 4), BitVec.ofNat 32 (bytesNat (m.readN (p.off + 4) 4)), m.poisonedN p.off 8⟩
  (List.range n).mapM elem

/-- The command that an `emerge` leaves: it writes the elements that lie outside the core no earlier than 256 cycles after
the issue (12 R284), and then increments the token. -/
def Engine.emergeCommand (e : Engine) (b : Block) (at' now : Nat) (far : List (MergeElem × Nat)) (tok : Option Nat)
    (id : Nat) : Copy :=
  { id := id, owner := .engine e.id e.count e.pc, ctx := e.ctx, core := e.core, src := .global 0,
    dst := [.localMem b.launch b.index (at' + 8 * (far.head?.elim 0 (·.2)))], len := 0, tags := false, token := tok, inc := 1,
    issued := now, readPos := 0, writePos := 0,
    buf := far.map fun q => ⟨natBytes 4 q.1.key ++ natBytes 4 q.1.val.toNat, false, q.1.poison⟩ }

/-- What an `emerge` writes: the elements in the core's own local memory at once, the others and the token by a command. -/
def State.emergeWrite (s : State) (e : Engine) (b : Block) (at' : Nat) (m : MergeEnd) (tok : Option Nat) : State :=
  let place (q : MergeElem × Nat) : Place := placeOf b e.core (at' + 8 * q.2)
  let outside (q : MergeElem × Nat) : Bool := match place q with
    | .localMem _ partner => partner
    | .cluster _ => true
  let (far, own) := m.out.zipIdx.partition outside
  let s := own.foldl (fun s q => s.placeStore b.launch b.index (place q) (natBytes 4 q.1.key ++ natBytes 4 q.1.val.toNat)
    q.1.poison false) s
  if far.isEmpty && tok.isNone then s
  else
    let (id, s, lives) : Nat × State × Bool := match e.redoCmd? with
      | some id => (id, s, s.copies.any fun y => y.id == id)
      | none =>
        let (id, s) := s.fresh
        (id, { s with copies := s.copies ++ [e.emergeCommand b at' (s.engineClock e) far tok id] }, true)
    (s.modEngine e.id fun y => { y with cmds := if lives then y.cmds ++ [id] else y.cmds }).rememberEngine e
      [(126, [⟨BitVec.ofNat 32 id, false⟩], false)]

/-- `emerge`: intersects or unites two sorted streams of the starting block's local memory. -/
def execEmerge (f : FmtE) (s : State) : Out :=
  issueWord (.emerge f) s noCheck (fun _ _ s' => .done s')
    (fun e d s' =>
      let r (k : Nat) : Nat := ((e.s.get? (f.a.toNat - 96 + k)).elim 0 (·.val.toNat))
      let tok := if bitOf f.id 0 then some (Cap.ofVal (e.readRole d .b)) else none
      let side (a n : Nat) : Bool := gatherLocal s' e a (8 * n) && a % 8 == 0 && !a.testBit 31
      let core := e.core
      if !(side (r 0) (r 1) && side (r 2) (r 3) && side (r 4) (r 5)) ||
          tok.any (fun t => (tokenCheck t tokenRights).isSome) then s'.stopEngine e.id 4
      else
        match e.poisonIn d [.a, .b], s'.blockOf e.group with
        | some p, _ => s'.engineConsume e p
        | none, none => s'.stopEngine e.id 4
        | none, some b =>
          match s'.mergeStream b core (r 0) (r 1), s'.mergeStream b core (r 2) (r 3) with
          | some xs, some ys =>
            let m := mergeRun (f.cls == 1) (bitOf f.id 1) (r 5) (mergeMeets (r 0) (r 1) (r 4)) (mergeMeets (r 2) (r 3) (r 4))
              (xs.length + ys.length + 1) 0 0 xs ys []
            let s' := s'.emergeWrite e b (r 4) m (if m.code == 1 then tok.map (·.addr) else none)
            let put (e' : Engine) : Engine :=
              e'.writeRegs (f.a.toNat + 6) [⟨BitVec.ofNat 32 m.out.length, false⟩, ⟨m.pos, false⟩] false
            if m.code != 1 then ((s'.modEngine e.id put).stopEngine e.id m.code).wakeAll
            else (s'.modEngine e.id fun e' => put (e'.advance (.emerge f))).wakeAll
          | _, _ => s')

end Sys2Proof.Machine
end

