-- ==== Sys2Proof/Machine/Commands.lean ====
section
/-!
DEFINITION. The command processor's queues and dependence graph (18 R351 to R359): records and their refusal,
acceptance, `lnch` (16 R346, 18 R372), the commands COPY, MSC, SIGNAL and WAIT, and completion.
-/

namespace Sys2Proof.Machine

open Sys2Proof

/-! ### Records (18 R354, R355) -/

/-- Byte field of a record: `n` bytes from byte `b`. -/
def recBytes (r : BitVec 512) (b n : Nat) : Nat := (bitsOf r (8 * b) (8 * n)).toNat

/-- OP. -/
def recOp (r : BitVec 512) : Nat := recBytes r 0 1
/-- NODE. -/
def recNode (r : BitVec 512) : Nat := (bitsOf r 16 12).toNat
/-- NPRED. -/
def recNpred (r : BitVec 512) : Nat := (bitsOf r 13 3).toNat
/-- PRED of a number. -/
def recPred (r : BitVec 512) (i : Nat) : Nat := (bitsOf r (64 + 16 * i) 12).toNat
/-- TOKEN. -/
def recToken (r : BitVec 512) : Nat := recBytes r 24 8
/-- TOKINC. -/
def recInc (r : BitVec 512) : Nat := recBytes r 4 4

/-- The header and the fields common to all commands break a limit (18 R356). -/
def headerBad (r : BitVec 512) : Bool :=
  recOp r == 0 || decide (6 < recOp r) || bitsOf r 28 4 != 0 || bitsOf r 8 3 != 0 || recNpred r == 7 ||
  (List.range 6).any (fun i => bitsOf r (64 + 16 * i + 12) 4 != 0 || (decide (recNpred r ≤ i) && recPred r i != 0)) ||
  recBytes r 20 4 != 0 || recToken r % 8 != 0 || (recInc r != 0 && recToken r == 0)

/-- Every byte of a range is 0. -/
def bytesZero (r : BitVec 512) (b n : Nat) : Bool := recBytes r b n == 0

/-- The parameters of an MSC record as its word would have them. -/
def mscBad (r : BitVec 512) : Bool :=
  let w := recBytes r 48 4
  let cmd := w % 4
  decide (7 < w) || mscIllegalCount cmd (recBytes r 56 4) || (cmd == 0 && recBytes r 32 8 != recBytes r 40 8)

/-- The operand area breaks a limit that is judged at acceptance (18 R355, R356, 22 R436). -/
def operandsBad (s : State) (r : BitVec 512) (ctx : Nat) (byLnch : Bool) : Bool :=
  match recOp r with
  | 1 =>
    let clen := recBytes r 44 4
    let trees := recBytes r 56 4
    clen % 128 != 0 || decide (2 ^ 20 < clen) || !bytesZero r 60 4 || recBytes r 32 8 % 64 != 0 ||
      decide (32 - s.cp.retiredWires.length < onesIn trees 32)
  | 2 => recBytes r 48 8 % 16 != 0 || decide (2 ^ 40 ≤ recBytes r 48 8) || !bytesZero r 56 8
  | 3 => mscBad r
  | 4 => !bytesZero r 32 32
  | 5 => recBytes r 32 8 % 8 != 0 || !bytesZero r 48 16
  | _ =>
    byLnch || ctx != 0 || bitsOf r (32 * 8 + 12) 4 != 0 || decide (20 < recBytes r 34 1) || decide (1 < recBytes r 35 1) ||
      !bytesZero r 36 28

/-- A record is refused at acceptance (18 R356). -/
def State.recordRefused (s : State) (r : BitVec 512) (ctx : Nat) (byLnch : Bool) : Bool :=
  headerBad r || operandsBad s r ctx byLnch || (s.node? ⟨ctx, recNode r⟩).isSome

/-! ### Acceptance (18 R352, R353, R357) -/

/-- EN of a queue. -/
def Queue.en (q : Queue) : Bool := bitOf q.cfg 63
/-- SRC of a queue. -/
def Queue.src (q : Queue) : Bool := bitOf q.cfg 62
/-- A queue's ring is full. -/
def Queue.full (q : Queue) : Bool := (q.tail - q.head).toNat == 2 ^ q.log2n

/-- A queue whose head record can be accepted; an eviction lets queues accept only EVICT records (22 R438, R440). -/
def State.acceptable (s : State) (q : Queue) : Bool :=
  q.en && q.head != q.tail && decide (s.cp.nodes.length < Config.liveNodes) && s.dev.pwr != 3 &&
    (match s.dev.eviction with
      | none => true
      | some e => e.phase == .failed)

/-- The first queue in turn that can be accepted from. -/
def State.nextAccept (s : State) : Option Nat :=
  ((List.range 64).map fun i => (s.cp.nextQueue + i) % 64).find? fun n => s.acceptable (s.queue n)

/-- Logs a refusal: the queue, and the address of record `i` of its ring (18 R356, 19 R399). -/
def State.logRefusal (s : State) (q : Queue) (i : Word) : State :=
  s.logError 0 { ErrRec.blank 0x0A with index := q.n, ctx := q.ctx, addr := q.recordAddr i }

/-- A record that could be read and whose NODE is free takes its node, which fails at once (18 R356, R359). -/
def State.refuseRecord (s : State) (q : Queue) (r : BitVec 512) : State :=
  let s' := s.logRefusal q q.head
  if (s.node? ⟨q.ctx, recNode r⟩).isSome then s'
  else s'.logError 0 { ErrRec.blank 0x0A with index := recNode r, ctx := q.ctx, addr := q.recordAddr q.head }

/-- A LAUNCH is refused when it becomes ready: the refusal is recorded, and its node fails (18 R356, R359). -/
def State.refuseReady (s : State) (n : Node) : State :=
  (s.logRefusal (s.queue n.queue) n.index).failNode n.key

/-- The command's predecessors that are live nodes: those it names, the one before it under SER, and the launch that
issued it (18 R357). -/
def State.predsOf (s : State) (q : Queue) (r : BitVec 512) (by' : Option Nat) : List NKey :=
  let named := (List.range (recNpred r)).map fun i => (⟨q.ctx, recPred r i⟩ : NKey)
  let ser := if bitOf r 11 then q.last.toList else []
  let own := (by'.bind s.launch?).map (·.node)
  (named ++ ser ++ own.toList).filter fun k => (s.node? k).isSome

/-- Enters an accepted record in the graph; a LAUNCH takes its identifier (18 R357, R362). -/
def State.enterNode (s : State) (q : Queue) (r : BitVec 512) (by' : Option Nat) : State :=
  let key : NKey := ⟨q.ctx, recNode r⟩
  let preds := s.predsOf q r by'
  let isLaunch := recOp r == 1
  let n : Node :=
    { key := key, queue := q.n, index := q.head, record := r, count := preds.length, succs := [],
      state := if preds.isEmpty then .ready else .waiting, by' := by',
      launch := if isLaunch then some s.cp.nextLaunch else none, readyNo := s.nextId, readyAt := (s.die 0).clock }
  let s := preds.foldl (fun s k => s.modNode k fun m => { m with succs := m.succs ++ [key] }) s
  { (s.modCp fun c =>
      { c with nodes := c.nodes ++ [n], nextLaunch := if isLaunch then c.nextLaunch + 1 else c.nextLaunch }) with
    nextId := s.nextId + 1 }

/-- QUEUE_ACCEPT: the queue in turn gives its head record (18 R352, R353, R356, R357). A record that waits for the fault
service gives up its turn. -/
def execQueueAccept (q : Nat) (s : State) : Out :=
  if s.nextAccept != some q then .next s
  else
    let qr := s.queue q
    let s := s.modCp fun c => { c with nextQueue := (q + 1) % 64 }
    let owner := qr.owners.find? fun o => o.1 == qr.head
    let taken (s : State) (last : Option NKey) : State :=
      s.setQueue { qr with head := qr.head + 1, owners := qr.owners.filter fun o => o.1 != qr.head, last := last }
    match s.readVirtual (2 ^ 32 + q) 0 qr.ctx (qr.recordAddr qr.head) 64 false with
    | (.wait, s) => .next s
    | (.fail .., s) => .next (taken (s.logRefusal qr qr.head) qr.last)
    | (.data bs poison, s) =>
      let r : BitVec 512 := BitVec.ofNat 512 (bytesNat bs)
      let evictOnly := s.dev.eviction.isSome && recOp r != 6
      if evictOnly then .next s
      else if poison then .next (taken (s.logRefusal qr qr.head) qr.last)
      else if s.recordRefused r qr.ctx false then .next (taken (s.refuseRecord qr r) qr.last)
      else
        let key : NKey := ⟨qr.ctx, recNode r⟩
        let s := taken (s.enterNode qr r (owner.map (·.2.1))) (some key)
        .next (if owner.any (·.2.2) then s.failNode key else s)

/-- Withdrawn with its launch, or not: what `lnch` answers for a record at an address (16 R346, 18 R372); none while the
record's page waits. -/
def State.lnchNow (s : State) (rq : Req) (i : Instr) (args : List Reg) : Bool × State :=
  let n := match i with
    | .lnch f => f.cls.toNat * 16 + f.id.toNat
    | _ => 0
  let va := pairOf (args[0]?.elim 0 (·.val)) (args[1]?.elim 0 (·.val))
  match s.launch? rq.group.launch with
  | none => (true, s)
  | some l =>
    let q := s.queue n
    let answer (s : State) (w : Word) : Bool × State := (true, s.answerUnit rq.group rq.id [[⟨w, false⟩]])
    let core := (s.group? rq.group).elim 0 (·.core)
    if !(q.src && q.ctx == l.ctx) then answer s 3
    else if q.full then answer s 1
    else
      match s.readVirtual rq.id (dieOfCore core) l.ctx va 64 false with
      | (.wait, s) => (false, s)
      | (.fail .., s) => answer s 2
      | (.data bs poison, s) =>
        let r : BitVec 512 := BitVec.ofNat 512 (bytesNat bs)
        if poison || s.recordRefused r q.ctx true then answer s 2
        else
          let t := s.translateRange 0 q.ctx (q.recordAddr q.tail) 64 { write := true }
          match worstFail t.1 with
          | some _ => answer t.2 2
          | none =>
            if !(resolvablePages t.1).isEmpty then (false, t.2)
            else
              match t.2.writePieces rq.id ((cutPieces 128 (q.recordAddr q.tail) 64).map fun p =>
                  (keyAt t.1 p.1, (bs.drop (p.1 - q.recordAddr q.tail)).take p.2, false)) with
              | (.wait, s) => (false, s)
              | (.fail .., s) => answer s 2
              | (.data .., s) =>
                answer (s.setQueue { q with tail := q.tail + 1, owners := q.owners ++ [(q.tail, rq.group.launch, false)] }) 0

/-- `lnch` (16 R346): its request goes to the command processor from the hold queue. -/
def execLnch (f : FmtE) (s : State) : Out :=
  issueWord (.lnch f) s
    (fun x g u =>
      let c := Cap.ofVal (readRole s g x.desc u .a)
      globalCheck s c.addr 64 c (rightR ||| rightM) true [.a] x g u)
    (fun x g s' =>
      let a := (Cap.ofVal (readRole s g x.desc none .a)).addr
      .done (unitRequest x g s' [(none, f.b.toNat, 1)]
        [⟨BitVec.ofNat 32 a, false⟩, ⟨BitVec.ofNat 32 (a / 2 ^ 32), false⟩] [] true))
    noEngine

/-! ### Starting commands (18 R353, R355) -/

/-- PRIO of a node's queue. -/
def State.prioOf (s : State) (n : Node) : Nat := (s.queue n.queue).prio

/-- Tree numbers a LAUNCH record asks for. -/
def recTrees (r : BitVec 512) : List Nat := (List.range 32).filter fun i => (recBytes r 56 4).testBit i

/-- Free wires, lowest first (18 R371). -/
def State.freeWires (s : State) : List Nat :=
  (List.range 32).filter fun w => !s.cp.retiredWires.contains w && !(s.cp.wires.any fun x => x.1 == w)

/-- The fabric descriptor of a context's tree number, when it is enabled and FABRIC accepted (22 R432). -/
def State.fbdCtx (s : State) (ctx n : Nat) : Option (BitVec 64) :=
  (lookupKey n s.dev.fbd).bind fun d => if bitOf d 63 && (bitsOf d 40 11).toNat == ctx && s.accepted 9 then some d else none

/-- A LAUNCH whose tree numbers cannot be bound yet (18 R371, 22 R432). -/
def State.waitsForWires (s : State) (n : Node) : Bool :=
  n.op == 1 && (decide (s.freeWires.length < (recTrees n.record).length) ||
    (recTrees n.record).any fun t => (s.fbdCtx n.key.ctx t).isSome &&
      s.cp.launches.any fun l => l.ctx == n.key.ctx && some l.id != n.launch && l.trees.any fun u => u.n == t)

/-- The command that the processor starts next: of the highest priority, the first that became ready (18 R353). -/
def State.nextStart (s : State) : Option Node :=
  (s.cp.nodes.filter fun n => n.state == .ready && !s.waitsForWires n).foldl (fun acc n =>
    match acc with
    | none => some n
    | some m =>
      if s.prioOf m < s.prioOf n || (s.prioOf m == s.prioOf n && decide (n.readyNo < m.readyNo)) then some n else some m) none

/-- A ready node of an operation that is next to start; an eviction starts nothing (22 R438, R440). -/
def State.starting (s : State) (k : NKey) (op : Nat) : Option Node :=
  if s.dev.eviction.isSome then none else s.nextStart.bind fun n => if n.key == k && n.op == op then some n else none

/-- A node runs. -/
def State.runNode (s : State) (k : NKey) : State := s.modNode k fun n => { n with state := .running }

/-- COPY (18 R355): the copy of 10 R234 by the command processor; sides that are not multiples of 16 or overlap fail. -/
def execCopy (k : NKey) (s : State) : Out :=
  match s.starting k 2 with
  | none => .next s
  | some n =>
    let src := recBytes n.record 32 8
    let dst := recBytes n.record 40 8
    let len := recBytes n.record 48 8
    if src % 16 != 0 || dst % 16 != 0 || rangesMeet src len dst len then .next (s.failNode k)
    else
      let (id, s) := s.fresh
      .next { s.runNode k with copies := s.copies ++
        [{ id := id, owner := .node k, ctx := k.ctx, core := 0, src := .global src, dst := [.global dst], len := len,
           tags := true, token := none, inc := 0, issued := 0, readPos := 0, buf := [], writePos := 0 }] }

/-- MSC (18 R355): the command of 06 R166. -/
def execMsc (k : NKey) (s : State) : Out :=
  match s.starting k 3 with
  | none => .next s
  | some n =>
    let r := n.record
    let w := recBytes r 48 4
    let p0 := recBytes r 52 4
    let p1 := recBytes r 56 4
    let target := recBytes r 32 8
    let source := recBytes r 40 8
    let ext := mscExtents (w % 4) p0 p1
    if target % 4 != 0 || source % 4 != 0 || (w % 4 != 0 && rangesMeet target ext.1 source ext.2) then .next (s.failNode k)
    else
      let (id, s) := s.fresh
      .next { s.runNode k with mscs := s.mscs ++
        [{ id := id, owner := .node k, ctx := k.ctx, core := 0, cmd := w % 4, rel := false, target := target,
           source := source, p0 := BitVec.ofNat 32 p0, p1 := BitVec.ofNat 32 p1, p2 := BitVec.ofNat 32 (recBytes r 60 4),
           left := true, pos := 0, buf := [], before := [] }] }

/-- SIGNAL (18 R355): does nothing but complete. -/
def execSignal (k : NKey) (s : State) : Out :=
  match s.starting k 4 with
  | none => .next s
  | some _ => .next (s.modNode k fun n => { n with state := .effectDone })

/-- WAIT (18 R355): the home tests the watched token, when the command starts and again later. -/
def execWait (k : NKey) (s : State) : Out :=
  match (s.starting k 5).orElse fun _ => (s.node? k).bind fun n => if n.op == 5 && n.state == .running then some n else none with
  | none => .next s
  | some n =>
    let s := s.runNode k
    match s.token n.readyNo 0 k.ctx (recBytes n.record 32 8) none none with
    | (.wait, s) => .next s
    | (.fail .., s) => .next (s.failNode k)
    | (.old v, s) =>
      .next (if recBytes n.record 40 8 ≤ v.toNat then s.modNode k fun n => { n with state := .effectDone } else s)

/-! ### Completion (18 R358, 12 R289) -/

/-- A command's owner belongs to a launch. -/
def Owner.ofLaunch (s : State) (o : Owner) (l : Nat) : Bool := s.ownerLaunch o == some l

/-- Everything a launch does is complete (12 R289). -/
def State.launchDone (s : State) (l : Launch) : Bool :=
  let mine (k : GKey) : Bool := k.launch == l.id
  l.state == .running && l.pendingBands.isEmpty && !l.replayDue &&
  !(s.blocks.any fun b => b.launch == l.id) && !(s.groups.any fun g => mine g.key) && !(s.engines.any fun e => mine e.group) &&
  !(s.inflight.any fun r => mine r.group) && !(s.homes.any fun r => mine r.group) &&
  !(s.cores.any fun c => (c.hold.any fun r => mine r.group) || c.log.any fun e => mine e.group) &&
  !(s.copies.any fun c => c.owner.ofLaunch s l.id) && !(s.mscs.any fun m => m.owner.ofLaunch s l.id) &&
  !(s.gathers.any fun g => g.launch == l.id) &&
  !(s.fabric.remote.any fun r => match r.for' with
    | .req q => mine q.group
    | _ => false)

/-- Restores the LLC range registers that a launch's placement set, unless a running launch uses them (18 R368). -/
def State.restoreLranges (s : State) (l : Launch) : State :=
  l.lranges.foldl (fun s r =>
    if s.cp.launches.any fun y => y.id != l.id && y.lranges.any fun q => q.1 == r.1 && q.2.1 == r.2.1 then s
    else s.modDie r.1 fun d => { d with lctl := d.lctl.set r.2.1 r.2.2.1, llim := d.llim.set r.2.1 r.2.2.2 }) s

/-- A launch leaves the machine: its wires are free, the port descriptors of a context that no launch uses are kept
(15 R315). -/
def State.endLaunch (s : State) (l : Launch) : State :=
  ({ s.restoreLranges l with seen := s.seen.filter fun e => e.launch != l.id } : State).modCp fun c =>
    { c with launches := c.launches.filter (fun x => x.id != l.id), wires := c.wires.filter fun w => w.2 != l.id }

/-- NODE_COMPLETE: with its effect complete, a node adds to its token, and its successors' counts fall (18 R358). -/
def execNodeComplete (k : NKey) (s : State) : Out :=
  match s.node? k with
  | none => .next s
  | some n =>
    let launch := n.launch.bind s.launch?
    let ready := n.state == .effectDone || (n.op == 1 && n.state == .running && launch.any s.launchDone)
    if !ready then .next s
    else
      let s := s.modNode k fun n => { n with state := .effectDone }
      let finish (s : State) : Out :=
        let s := match launch with
          | some l => s.endLaunch l
          | none => s
        .next (s.finishNode n).wakeAll
      let va := recToken n.record
      if va == 0 then finish s
      else
        match s.token n.readyNo 0 k.ctx va none (some (BitVec.ofNat 64 (recInc n.record))) with
        | (.wait, s) => .next s
        | (.old _, s) => finish s
        | (.fail .., s) => finish (s.logError 0 { ErrRec.blank 0x0A with index := k.num, ctx := k.ctx, addr := va })

end Sys2Proof.Machine
end

