-- ==== Sys2Proof/Machine/Requests.lean ====
section
/-!
DEFINITION. Requests on their way: leaving a core's hold queue (06 R150, R172, 19 R381), being performed at a home
(11 R261 to R263), acknowledgements (06 R170), replies (11 R264), and the drain of a run (01 R21 to R23).
-/

namespace Sys2Proof.Machine

open Sys2Proof

/-! ### Translating the lanes of a write -/

/-- What becomes of a lane: it goes on, it faults on a page, or it is dropped. -/
inductive Fate where
  | ok
  | page (p : Nat)
  | fail (code : BitVec 8) (va : Nat)
  deriving DecidableEq, Repr

/-- The accesses of each lane of a write that is translated as it leaves (06 R172, 07 R195). -/
def ReqBody.accesses : ReqBody → List (List (Nat × Nat × Access))
  | .store .global ls => ls.map fun l => [(l.va, l.bytes.length, { write := true })]
  | .rmw .global op none ls => ls.map fun l => [(l.va, op.bytes, { rmw := true })]
  | .soft (.sst _) _ _ ls => ls.map fun l =>
      (l.va, 4 * l.n * l.k, { write := true }) ::
        (if l.addr2.isSome then [(l.va2, 4 * l.n * l.k, { write := true })] else [])
  | _ => []

/-- The lanes of a request whose places in it are kept. -/
def ReqBody.pick (b : ReqBody) (keep : Nat → Bool) : ReqBody :=
  let sel {α : Type} (ls : List α) : List α := ((ls.zipIdx).filter fun q => keep q.2).map (·.1)
  match b with
  | .store sp ls => .store sp (sel ls)
  | .rmw sp op d ls => .rmw sp op d (sel ls)
  | .soft op d r ls => .soft op d r (sel ls)
  | b => b

/-- Lanes gathered by the 128-byte line they fall in, in the lines' order of appearance (11 R263). -/
def byLine {α : Type} (key : α → Nat) (ls : List α) : List (Nat × List α) :=
  ((ls.map fun l => key l / 128).eraseDups).map fun ln => (128 * ln, ls.filter fun l => key l / 128 == ln)

/-- The pieces of a store in each line, with their keys. -/
def linePieces (rs : List (Nat × Xlat)) (l : LaneStore) : List LaneStore :=
  l.runs.flatMap fun l => (linesOf l.va l.bytes.length).map fun ln =>
    let lo := max l.va (128 * ln)
    let hi := min (l.va + l.bytes.length) (128 * ln + 128)
    { l with addr := keyAt rs lo, va := lo, bytes := (l.bytes.drop (lo - l.va)).take (hi - lo) }

/-- The step that an operation takes at its second region. -/
def SoftOp.second : SoftOp → Option SoftOp
  | .sst _ => some .tape
  | .sldg => some .grad
  | .sstg false => some .back
  | _ => none

/-- The entries of a soft instruction: one for each region, with the lanes that name it, whose steps are taken with nothing
between them (07 R191, R192). The second steps of lanes that share a region stand behind the last of their first steps, and
wait for them (07 R184, R188, R189). -/
def softEntries (op : SoftOp) (d rn : Dest) (ls : List LaneSoft) : List (Nat × ReqBody) :=
  let twice (l : LaneSoft) : Bool := op.second.isSome && l.addr2.isSome
  let seconds := ((ls.filter twice).filterMap (·.addr2)).eraseDups
  let first (a : Nat) : Nat × ReqBody :=
    (a, .soft op d rn ((ls.filter fun l => l.addr == a).map fun l => { l with addr2 := none }))
  let second (b : Nat) : Nat × ReqBody :=
    (b, .soft (op.second.getD op) d rn ((ls.filter fun l => twice l && l.addr2 == some b).map fun l =>
      { l with addr := b, va := l.va2, addr2 := none, stage := .wait }))
  (((ls.map (·.addr)).eraseDups).foldl (fun (acc : List (Nat × ReqBody) × List Nat × List Nat) a =>
    let here := acc.2.1 ++ [a]
    let ready := seconds.filter fun b => !acc.2.2.contains b &&
      ls.all fun l => !(twice l && l.addr2 == some b) || here.contains l.addr
    (acc.1 ++ first a :: ready.map second, here, acc.2.2 ++ ready)) ([], [], [])).1

/-- The entries that a write's lanes make at their homes, each with a key of its place. -/
def ReqBody.entries (b : ReqBody) (rs : List (List (Nat × Xlat))) : List (Nat × ReqBody) :=
  match b with
  | .store sp ls => (byLine (·.addr) ((ls.zip rs).flatMap fun q => linePieces q.2 q.1)).map fun e => (e.1, .store sp e.2)
  | .rmw sp op d ls =>
    (byLine (·.addr) ((ls.zip rs).map fun q => { q.1 with addr := keyAt q.2 q.1.va })).map fun e => (e.1, .rmw sp op d e.2)
  | .soft op d r ls => softEntries op d r ((ls.zip rs).map fun q =>
      { q.1 with addr := keyAt q.2 q.1.va, addr2 := q.1.addr2.map fun _ => keyAt q.2 q.1.va2 })
  | _ => []

/-- Translates one lane's accesses: their pages, and the lane's fate; a page that the core's side log holds a write to
counts as faulting (06 R172, R173). -/
def State.laneFate (s : State) (port ctx : Nat) (logged : Nat → Bool) (as : List (Nat × Nat × Access)) :
    (List (Nat × Xlat) × Fate) × State :=
  let r := as.foldl (fun (acc : List (Nat × Xlat) × State) a =>
    let t := acc.2.translateRange port ctx a.1 a.2.1 a.2.2
    (acc.1 ++ t.1, t.2)) ([], s)
  let fate : Fate := match worstFail r.1 with
    | some c => .fail c ((r.1.find? fun q => q.2 == .fail c).elim 0 (·.1))
    | none =>
      match (r.1.map fun q => q.1 / 65536 * 65536).find? logged with
      | some p => .page p
      | none =>
        match resolvablePages r.1 with
        | p :: _ => .page p
        | [] => .ok
  ((r.1, fate), r.2)

/-- Translates every lane of a write. -/
def State.laneFates (s : State) (port ctx : Nat) (logged : Nat → Bool) (b : ReqBody) :
    List (List (Nat × Xlat) × Fate) × State :=
  b.accesses.foldl (fun (acc : List (List (Nat × Xlat) × Fate) × State) as =>
    let r := acc.2.laneFate port ctx logged as
    (acc.1 ++ [r.1], r.2)) ([], s)

/-! ### Sending to homes -/

/-- Entries join their homes' queues, behind what the source sent before (11 R263). -/
def State.toHomes (s : State) (core port id : Nat) (src : Source) (k : GKey) (es : List (Nat × ReqBody)) : State :=
  { s with homes := s.homes ++ es.map fun e => ⟨id, src, k, s.homeOf port (keyTier e.1) (keyPa e.1), e.2, core⟩ }

/-- A load's line on its way from the host or a peer is asked for again when a write of its core to the line leaves
meanwhile: a core's fill never brings back what the write replaced (12 R278 d, e). -/
def State.refetch (s : State) (core va n : Nat) : State := s.dropFetches core (linesOf va n).contains

/-- What a write's lanes do as they leave onto the crossbar: L1 is updated by stores, speculators are checked, and the
launch's replay is judged (06 R149, 10 R248, 19 R387). -/
def State.passCrossbar (s : State) (core ctx : Nat) (k : GKey) (engine : Bool) (b : ReqBody) (rs : List (List (Nat × Xlat))) :
    State :=
  let spans : List (Nat × Nat × Bool) := (b.accesses.flatMap id).map fun a => (a.1, a.2.1, a.2.2.rmw)
  let soft := match b with
    | .soft .. => true
    | _ => false
  let s := (spans.zip (rs.flatMap id)).foldl (fun s q =>
    s.noteWrite k.launch q.1.1 q.1.2.1 (keyTier (keyAt (rs.flatMap id) q.1.1)) (q.1.2.2 || soft)) s
  if engine then s
  else
    let s := spans.foldl (fun s q => (s.conflictGlobal k q.1 q.2.1).refetch core q.1 q.2.1) s
    match b with
    | .store _ ls => s.modCore core fun c =>
      ((ls.flatMap LaneStore.runs).foldl (fun c l => c.l1Store ctx l.va l.bytes l.tag) c).l1Clean ctx (ls.flatMap LaneStore.runs)
    | _ => s

/-- The request is complete: it leaves its counter or its program (06 R170). -/
def State.endReq (s : State) (i : Inflight) : State :=
  let s := s.noteSeen [.uncore (dieOfCore i.core)] i.group.launch
  match i.eng with
  | some (e, _, _) => s.modEngine e fun y => { y with cmds := y.cmds.filter (· != i.id) }
  | none => s.modGroup i.group fun g => g.endOp i.id

/-- Counts a travelling request's parts; with none left it is complete. -/
def State.setParts (s : State) (i : Inflight) (n : Nat) : State :=
  let others := s.inflight.filter fun y => y.id != i.id
  if n == 0 then { s with inflight := others }.endReq i else { s with inflight := others ++ [{ i with parts := n }] }

/-- Adds to and takes from the parts of a travelling request. -/
def State.moreParts (s : State) (id add drop : Nat) : State :=
  match s.inflight.find? fun i => i.id == id with
  | none => s
  | some i => s.setParts i (i.parts + add - drop)

/-- The lanes of a fate. -/
def fateIs (fs : List (List (Nat × Xlat) × Fate)) (f : Fate) (n : Nat) : Bool := (fs[n]?).any fun q => q.2 == f

/-- A write's lanes leave: dropped ones are recorded, the others go to their homes; gives the number of entries sent, and
the lanes that fault, by page (06 R172, R174). -/
def State.sendWrites (s : State) (core port ctx id : Nat) (src : Source) (k : GKey) (logged : Nat → Bool)
    (drop : State → FailRec → State) (b : ReqBody) : (Nat × List (Nat × ReqBody)) × State :=
  let engine := match src with
    | .engine _ => true
    | _ => false
  let r := s.laneFates port ctx logged b
  let fs := r.1
  let ok := b.pick (fateIs fs .ok)
  let rs := (fs.filter fun q => q.2 == .ok).map (·.1)
  let pages := (fs.filterMap fun q => match q.2 with
    | .page p => some p
    | _ => none).eraseDups
  let es := ok.entries rs
  let s := (r.2.passCrossbar core ctx k engine ok rs).toHomes core port id src k es
  let s := fs.foldl (fun s q => match q.2 with
    | .fail c va => drop s ⟨c, BitVec.ofNat 64 va⟩
    | _ => s) s
  ((es.length, pages.map fun p => (p, b.pick (fateIs fs (.page p)))), s)

/-- A write leaves; lanes that fault resolvably enter the side log, or wait at the port when it is full (06 R172). An
engine program's write waits in its queue instead. `gone` takes the request out of the queue. -/
def State.leaveWrite (s : State) (core ctx : Nat) (r : Req) (gone : State → State) : State :=
  match r.eng with
  | some (e, order, pc) =>
    let port := (s.engine? e).elim (dieOfCore core) (·.die)
    let fs := s.laneFates port ctx (fun _ => false) r.body
    if fs.1.any fun q => match q.2 with
      | .page _ => true
      | _ => false
    then fs.2
    else
      let q := (gone s).sendWrites core port ctx r.id (.engine e) r.group (fun _ => false)
        (fun s f => s.engineFail e order (engineCode f.code) pc) r.body
      q.2.setParts ⟨r.id, r.group, core, r.eng, 0⟩ q.1.1
  | none =>
    let q := (gone s).sendWrites core (dieOfCore core) ctx r.id (.core core) r.group (fun p => s.pageLogged core ctx p 65536)
      (fun s f => s.recordFail r.group f) r.body
    let faults := if (q.2.launch? r.group.launch).isSome then q.1.2 else []
    let s := faults.foldl (fun s e =>
      s.modCore core fun c =>
        { c with log := c.log ++ [⟨r.id, r.group, ctx, e.1, decide ((c.log.filter (·.inLog)).length < Config.sideLogEntries), e.2⟩] }) q.2
    s.setParts ⟨r.id, r.group, core, none, 0⟩ (q.1.1 + faults.length)

/-! ### What else leaves a core -/

/-- Replies join the messages on their way. -/
def State.pushReply (s : State) (id : Nat) (k : GKey) (vals : List (Option Nat × Nat × List Reg × Bool)) : State :=
  if vals.isEmpty then s else { s with replies := s.replies ++ [⟨id, k, vals⟩] }

/-- Where a lane's value goes. -/
def Dest.at' (d : Dest) (lane : Nat) : Option (Option Nat × Nat) :=
  if d.uniform then d.regs.head?.map fun q => (none, q.2)
  else (d.regs.find? fun q => q.1 == lane).map fun q => (some lane, q.2)

/-- Writes to the partner core's half or to cluster memory are performed as they arrive: cluster memory's by the slice, an
`atoml` there by the service group (11 R258, R259, R262). -/
def State.leavePlace (s : State) (core : Nat) (r : Req) : State :=
  let place (va off : Nat) : Place := if va == 1 then .cluster off else .localMem off true
  let done (s : State) : State := s.setParts ⟨r.id, r.group, core, none, 0⟩ 0
  let note (s : State) (cluster group : Bool) : State :=
    if cluster then s.noteServed (clusterOfCore core) r.group.launch group else s
  match r.body with
  | .store _ ls =>
    done (ls.foldl (fun s l =>
      (s.conflictPlace r.group (place l.va l.addr) l.bytes.length).placeStore r.group.launch r.group.block
        (place l.va l.addr) l.bytes l.poison true) (note s (ls.any fun l => l.va == 1) false))
  | .rmw _ op d ls =>
    let q := ls.foldl (fun (acc : List (Option Nat × Nat × List Reg × Bool) × State) l =>
      let p := acc.2.placeRmw r.group (place l.va l.addr) op l true
      (match d.bind fun d => d.at' l.lane with
        | some (u, reg) => acc.1 ++ [(u, reg, [p.1], false)]
        | none => acc.1, p.2)) ([], note s (ls.any fun l => l.va == 1) true)
    done (q.2.pushReply r.id r.group q.1)
  | _ => s

/-- Appends a record to the launch log of a launch's context; one that finds it full is counted (20 R407). -/
def State.launchLog (s : State) (launch kind : Nat) (data : List Byte) : State :=
  match (s.launch? launch).bind fun l => s.ctx? l.ctx with
  | none => s
  | some c =>
    let at' (o : Nat) : Nat := memKey 0 (c.logPa + o)
    let tail := s.mem.readNat (at' 0) 4
    let head := s.mem.readNat (at' 4) 4
    if (tail + 2 ^ 32 - head) % 2 ^ 32 == 255 then
      { s with mem := s.mem.storeNat (at' 8) 4 (s.mem.readNat (at' 8) 4 + 1) }
    else
      let m := s.mem.store (at' (32 + 32 * (tail % 255)))
        (natBytes 8 launch ++ natBytes 1 kind ++ natBytes 7 0 ++ (data ++ List.replicate 16 0).take 16)
      { s with mem := m.storeNat (at' 0) 4 (tail + 1) }

/-- `svc` reaches the command processor (03 R93). -/
def State.svcNow (s : State) (k : GKey) (id : Nat) (n : Nat) (args : List Reg) : State :=
  let answer (s : State) (w : Word) : State := s.answerUnit k id [[⟨w, false⟩]]
  match n with
  | 0 => answer s 0
  | 1 => answer (s.launchLog k.launch 1 (args.flatMap fun r => natBytes 4 r.val.toNat)) 0
  | 2 =>
    let code := (args.head?).elim 0 (·.val.toNat)
    (s.launchLog k.launch 2 (natBytes 4 code)).abortLaunch k.launch ⟨1, 0, 0, code⟩
  | _ => answer s 0xFFFFFFFF

/-- `forke` of a KE reaches its sequencer (10 R231). -/
def State.forkeNow (s : State) (core ctx : Nat) (r : Req) (slot : Nat) (args : List Reg) : State :=
  let entry := (args.head?).elim 0 (·.val)
  let tag := (args.getLast?).any fun t => t.val == 1
  let cap := (args.drop 1).dropLast
  let e := Engine.start r.id ⟨.ke, clusterOfCore core⟩ r.group ctx slot entry cap tag
  let add (k : ShadowCkpt) : ShadowCkpt := { k with engines := k.engines ++ [e] }
  (({ s with engines := s.engines ++ [e] } : State).modCore (4 * clusterOfCore core) fun c =>
    c.keCkptAll (s.clockOf core) add).answerUnit r.group r.id []

/-- A broadcast to the memory ports starts: the pending word keeps what is sent and awaits every port. -/
def State.broadcast (s : State) (k : GKey) (id : Nat) (args : List Word) : State :=
  s.modGroup k fun g => g.modPend id fun p => { p with args := args, acks := [0, 1, 2, 3] }

/-- A word on the compaction queue leaves the core, unless the queue is being tested (19 R392). -/
def State.cqLeaves (s : State) (core : Nat) (r : Req) (i : Instr) (lanes : List (Nat × Reg)) : Bool × State :=
  if s.testing 11 (clusterOfCore core) then (false, s) else (true, s.cqNow r.group r.id i lanes)

/-- An arrival at an object leaves the core and is performed, unless the core's local memory is being tested (19 R392). -/
def State.baroLeaves (s : State) (core : Nat) (r : Req) (args : List Word) : Bool × State :=
  if s.localTested core then (false, s) else (true, s.baroNow r.group r.id args)

/-- A unit's request leaves the core; tells whether it has left (19 R381). -/
def State.leaveUnit (s : State) (core ctx : Nat) (r : Req) (i : Instr) (args : List Reg) (lanes : List (Nat × Reg)) :
    Bool × State :=
  let words := args.map (·.val)
  match i with
  | .cqPush _ => s.cqLeaves core r i lanes
  | .cqPop _ => s.cqLeaves core r i lanes
  | .cqReset _ => s.cqLeaves core r i lanes
  | .svc f => (true, s.svcNow r.group r.id f.imm.toNat args)
  | .lnch _ => s.lnchNow r i args
  | .seqend _ => s.seqendNow r args
  | .forke f => if s.testing 12 (clusterOfCore core) then (false, s) else (true, s.forkeNow core ctx r f.id.toNat args)
  | .bar _ => (true, s.arriveNow r.group i words.head?)
  | .tbar _ => (true, s.arriveNow r.group i none)
  | .baroArrive _ => s.baroLeaves core r words
  | .baroAw _ => s.baroLeaves core r words
  | .cctlInvpt _ => (true, s.broadcast r.group r.id words)
  | .cctlInvpg _ => (true, s.broadcast r.group r.id words)
  | .pkrSet _ =>
    let v : DWord := BitVec.ofNat 64 (pairOf (words[0]?.getD 0) (words[1]?.getD 0))
    (true, (s.modCp fun c => { c with ctxs := c.ctxs.map fun x => if x.num == ctx then { x with pkr := v } else x }).broadcast
      r.group r.id words)
  | i => if !s.cruTakes core r i args then (false, s) else (true, { s with homes := s.homes ++ [⟨r.id, .core core, r.group, cruHome (clusterOfCore core), .unit i args lanes, core⟩] })

/-- A request of the core's path to the homes, which keeps the issue order of all its groups (11 R263). An `sld` is not held
by the order (07 R190). -/
def Req.onPath (r : Req) : Bool :=
  r.eng.isNone && match r.body with
    | .store .global _ => true
    | .rmw .global _ _ _ => true
    | .soft op _ _ _ => op != .sld
    | .msc _ => true
    | _ => false

/-- A request to the band's compaction queue: a core's reach it in the order of their issue (16 R342). -/
def Req.isCq (r : Req) : Bool :=
  match r.body with
  | .unit (.cqPush _) _ _ => true
  | .unit (.cqPop _) _ _ => true
  | .unit (.cqReset _) _ _ => true
  | _ => false

/-- Requests of one stream keep their order: a group's own, each engine program's, the core's path, and the core's words on
the compaction queue. -/
def sameStream (a b : Req) : Bool :=
  (a.group == b.group && a.eng.map (·.1) == b.eng.map (·.1)) || (a.onPath && b.onPath) || (a.isCq && b.isCq)

/-- An `sld` waits only for the group's queued writes to its granule (07 R190). -/
def Req.isSld (r : Req) : Bool :=
  match r.body with
  | .soft .sld _ _ _ => true
  | _ => false

/-- The bytes that a request translated before it leaves touches, by virtual address; the ranges of an `msc`. -/
def State.touched (s : State) (r : Req) : List (Nat × Nat) :=
  match r.body with
  | .rmw .global _ (some _) _ => r.body.vaSpans
  | .soft (.sst _) _ _ _ => []
  | .soft _ _ _ _ => r.body.vaSpans
  | .msc id => (s.mscs.filter fun m => m.id == id).flatMap fun m => [(m.target, m.extents.1), (m.source, m.extents.2)]
  | _ => []

/-- The bytes that a queued request writes, by virtual address. -/
def State.queuedSpans (s : State) (b : ReqBody) : List (Nat × Nat) :=
  match b with
  | .msc id => (s.mscs.filter fun m => m.id == id).map fun m => (m.target, m.extents.1)
  | b => b.virtual.spans

/-- A request may leave: it is old enough, an `msc` with REL = 1 before it is complete, its turn has come, and what it
must wait for is done (06 R150, R169, R173, 07 R190, 12 R287, 19 R381, R382). -/
def State.mayLeave (s : State) (core ctx : Nat) (earlier : List Req) (r : Req) : Bool :=
  let before := earlier.filter (sameStream r)
  let clear := !((s.touched r).any fun q => s.pageLogged core ctx q.1 q.2)
  if r.isSld then
    clear && !(before.any fun b => (s.queuedSpans b.body).any fun p => r.body.virtual.spans.any fun q => overlaps p q.1 q.2)
  else
    before.isEmpty && clear && decide (r.issued + Config.shadowWindow ≤ s.clockOf core) &&
    !(r.after.any fun m => s.mscs.any fun y => y.id == m) &&
    match r.body with
    | .unit (.pkrSet _) _ _ => (s.group? r.group).all fun g => g.count .st == 0
    | .rmw .cluster _ _ ls =>
      (s.blockOf r.group).all fun b => !(ls.any fun l =>
        l.va == 0 && s.youngLocal (b.otherCore core) r.group.launch r.group.block l.addr 4)
    | _ => true

/-- The first of a list that satisfies a test on what stands before it. -/
def firstWith {α : Type} (p : List α → α → Bool) : List α → List α → Option α
  | _, [] => none
  | seen, x :: t => if p seen x then some x else firstWith p (seen ++ [x]) t

/-- HOLD_QUEUE_LEAVE: a group's first request that may leave its core leaves (06 R150, 19 R381). -/
def execHoldQueueLeave (core : Nat) (k : GKey) (s : State) : Out :=
  match s.launch? k.launch with
  | none => .next s
  | some l =>
    match firstWith (fun seen r => r.group == k && s.mayLeave core l.ctx seen r) [] (s.core core).hold with
    | none => .next s
    | some r =>
      let place : Region := ((r.eng.bind fun e => s.engine? e.1).map Engine.region).getD (.core core)
      let gone (s : State) : State := (s.noteSeen [place] k.launch).modCore core fun c =>
        { c with hold := c.hold.filter fun y => y.id != r.id
                 left := if r.eng.isNone then c.left ++ [(k, r.seq, r.id)] else c.left }
      let port := dieOfCore core
      let sendPlaced (es : List (Nat × ReqBody)) (vas : List (Nat × Nat × Bool)) (counted : Bool) : State :=
        let s := vas.foldl (fun (s : State) q =>
          if q.2.2 then
            ((s.noteWrite k.launch q.1 q.2.1 (match (s.translate port l.ctx q.1 {}).1 with
              | .ok key _ => keyTier key
              | _ => 0) true).conflictGlobal k q.1 q.2.1).refetch core q.1 q.2.1
          else s) (gone s)
        let s := s.toHomes core port r.id (.core core) k es
        if counted then s.setParts ⟨r.id, k, core, none, 0⟩ es.length else s
      match r.body with
      | .store .global _ => .next (s.leaveWrite core l.ctx r gone).wake
      | .rmw .global _ none _ => .next (s.leaveWrite core l.ctx r gone).wake
      | .soft (.sst _) _ _ _ => .next (s.leaveWrite core l.ctx r gone).wake
      | .rmw .global op d ls =>
        .next (sendPlaced ((byLine (·.addr) ls).map fun e => (e.1, .rmw .global op d e.2))
          (ls.map fun q => (q.va, op.bytes, true)) true).wake
      | .soft op d rn ls =>
        .next (sendPlaced (softEntries op d rn ls)
          (ls.flatMap fun q => match op with
            | .sldg => if q.addr2.isSome then [(q.va2, 4 * q.n * q.k, true)] else []
            | .sstg false => if q.addr2.isSome then [(q.va2, 4 * q.n * q.k, true)] else []
            | _ => []) (op != .sld)).wake
      | .store _ _ => .next ((gone s).leavePlace core r).wakeAll
      | .rmw _ _ _ _ => .next ((gone s).leavePlace core r).wakeAll
      | .msc id =>
        let s := (s.mscs.filter fun m => m.id == id).foldl (fun s m =>
          s.conflictGlobal k m.target m.extents.1) (gone s)
        .next { s with mscs := s.mscs.map fun m => if m.id == id then
          { m with left := true, before := (s.homes.filter fun y => y.src == .core core).map (·.id) } else m }
      | .unit i args lanes =>
        let q := s.leaveUnit core l.ctx r i args lanes
        .next (if q.1 then gone q.2 else q.2).wake

/-! ### A home performs an entry (11 R262, R263) -/

/-- Stores at a home: each with its tag, and the poison of the lines they leave (06 R155, 15 R301, R309). -/
def Memory.performStores (m : Memory) (ls : List LaneStore) : Memory :=
  let m' := ls.foldl (fun (m : Memory) l => match l.tag with
    | some t => if keyTier l.addr == 0 then m.storeCap l.addr l.bytes t else m.store l.addr l.bytes
    | none => m.store l.addr l.bytes) m
  ((ls.flatMap fun l => unitsOf l.addr l.bytes.length).eraseDups).foldl (fun (m : Memory) u =>
    let a := unitKey u
    if ls.any fun l => l.poison && (unitsOf l.addr l.bytes.length).contains u then m.setPoison a true
    else if (List.range (poisonSize a)).all fun i => ls.any fun l => decide (l.addr ≤ a + i) && decide (a + i < l.addr + l.bytes.length)
    then m.setPoison a false
    else m) m'

/-- One lane's read-modify-write at a home: its old value and the memory after it (06 R162, R163). -/
def Memory.performRmw (m : Memory) (op : AtomOp) (l : LaneRmw) : List Reg × Memory :=
  let n := op.bytes
  let old : DWord := BitVec.ofNat 64 (m.readNat l.addr n)
  let v : Val := ⟨old.setWidth 128, false, m.poisonedN l.addr n⟩
  (v.toRegs (n / 4), match rmwNew op old l.x l.cmp with
    | some x => m.store l.addr (natBytes n x.toNat)
    | none => m)

/-- The elements of a region. -/
def Memory.region (m : Memory) (key n : Nat) : Slots :=
  (List.range n).map fun i => ⟨BitVec.ofNat 32 (m.readNat (key + 4 * i) 4), m.poisoned (key + 4 * i)⟩

/-- Writes of elements from a key up. -/
def slotStores (key va : Nat) (es : Slots) : List LaneStore :=
  es.zipIdx.map fun q =>
    { lane := 0, addr := key + 4 * q.2, va := va + 4 * q.2, bytes := natBytes 4 q.1.val.toNat, tag := none, poison := q.1.poison }

/-- Elements of bytes read, all poisoned or none. -/
def slotsOf (bs : List Byte) (poison : Bool) : Slots :=
  (List.range (bs.length / 4)).map fun i => ⟨BitVec.ofNat 32 (bytesNat ((bs.drop (4 * i)).take 4)), poison⟩

/-- The values that a step returns in its lane. -/
def softReply (d rn : Dest) (l : LaneSoft) (datum run : List Reg) : List (Option Nat × Nat × List Reg × Bool) :=
  ((if datum.isEmpty then none else d.at' l.lane).map fun p => (p.1, p.2, datum, false)).toList ++
    ((if run.isEmpty then none else rn.at' l.lane).map fun p => (p.1, p.2, run, true)).toList

/-- An entry is done at its home: it leaves the queue. -/
def State.dropHome (s : State) (r : HomeReq) : State :=
  { s with homes := dropFirst (· == r) s.homes }

/-- An acknowledgement travels to the core, if the request is counted. -/
def State.ackHome (s : State) (id : Nat) : State :=
  if s.inflight.any fun i => i.id == id then { s with acks := s.acks ++ [id] } else s

/-- The die of a request's memory port. -/
def State.srcDie (s : State) (r : HomeReq) : Nat :=
  match r.src with
  | .core c => dieOfCore c
  | .engine e => (s.engine? e).elim 0 (·.die)
  | _ => 0

/-- The class byte and operands that an atomic carries to the host or a peer: 0 i32, 1 i64, 2 f32, 3 compare, 4 exchange. -/
def atomData (op : AtomOp) (l : LaneRmw) : Nat × List Byte :=
  let n := op.bytes
  let x := natBytes n l.x.toNat
  match op with
  | .i32 a => (a, 0 :: x)
  | .i64 a => (a, 1 :: x)
  | .f32 a => (a, 2 :: x)
  | .cas _ => (0, 3 :: (x ++ natBytes n l.cmp.toNat))
  | .xchg _ => (0, 4 :: x)

/-- A home forwards an entry of the host's or a peer's memory, one message per naturally aligned piece (15 R301). The lanes of
one instruction that name one address are one transfer of several messages, in lane order, which its target performs with
nothing between (06 R162, 22 R421 LAST; entry 125). For a peer, the forwarding of a write that returns nothing acknowledges it (22 R429). -/
def State.forwardHome (s : State) (r : HomeReq) : State :=
  match r.body with
  | .store sp ls =>
    let pieces := ls.flatMap fun l => (cutPieces (l.bytes.length + 1) l.addr l.bytes.length).map fun p =>
      { l with addr := p.1, va := l.va + (p.1 - l.addr), bytes := (l.bytes.drop (p.1 - l.addr)).take p.2, tag := none }
    let host := pieces.any fun p => keyTier p.addr == 2
    let s := pieces.foldl (fun (s : State) p =>
      (s.askRemote p.addr p.bytes.length (.req { r with body := .store sp [p] }) mWR (if p.poison then 1 else 0) p.bytes).2) (s.dropHome r)
    if host then s.moreParts r.id (pieces.length - 1) 0 else s.ackHome r.id
  | .rmw sp op d ls =>
    let host := ls.any fun l => keyTier l.addr == 2
    let s := ((ls.map (·.addr)).eraseDups).foldl (fun (s : State) a =>
      let mine := ls.filter fun l => l.addr == a
      mine.zipIdx.foldl (fun (s : State) p =>
        let q := atomData op p.1
        (s.askRemote a op.bytes (.req { r with body := .rmw sp op d [p.1] }) mATOM q.1 q.2 (p.2 + 1 == mine.length)).2) s) (s.dropHome r)
    if host || d.isSome then s.moreParts r.id (ls.length - 1) 0 else s.ackHome r.id
  | _ => s

/-- A lane of a group's request fails at the host or a peer: its word traps precisely when every lane is answered (22 R429,
20 R402). -/
def State.failParked (s : State) (k : GKey) (id lane : Nat) (code : BitVec 8) (va : Nat) : State :=
  (s.modGroup k fun g => g.modPend id fun p => { p with fails := p.fails ++ [(lane, code, va)] }).settleFails k id

/-- The lanes of a soft step. -/
def ReqBody.softLanes : ReqBody → List LaneSoft
  | .soft _ _ _ ls => ls
  | _ => []

/-- Changes the lanes of a soft step. -/
def ReqBody.withLanes (b : ReqBody) (f : List LaneSoft → List LaneSoft) : ReqBody :=
  match b with
  | .soft op d rn ls => .soft op d rn (f ls)
  | b => b

/-- A lane's step that waits for the lane's first step. -/
def LaneSoft.waitsFor (l : LaneSoft) (lane : Nat) : Bool := l.lane == lane && l.stage == .wait

/-- A step that writes its region. -/
def SoftOp.writes : SoftOp → Bool
  | .sld => false
  | .sldg => false
  | .sstg _ => false
  | _ => true

/-- A step that returns nothing and can only be dropped: a store's, and its tape's. -/
def SoftOp.stores : SoftOp → Bool
  | .sst _ => true
  | .tape => true
  | _ => false

/-- A lane with the results of its step on the elements `m`: what it writes, what it returns, and what it carries to the
lane's second step. -/
def LaneSoft.step (op : SoftOp) (l : LaneSoft) (m : Slots) : LaneSoft :=
  let o := softStep op l m
  { l with
    store := o.region.getD [], datum := o.datum, run := o.run
    carry := match op with
      | .sldg => o.run
      | .sst _ => m
      | .sstg _ => m
      | _ => l.carry }

/-- One lane's step on memory (07 R191). -/
def Memory.softLane (m : Memory) (op : SoftOp) (l : LaneSoft) : LaneSoft × Memory :=
  let l := l.step op (m.region l.addr (l.n * l.k))
  (l, if op.writes then m.performStores (slotStores l.addr l.va l.store) else m)

/-- The steps of an entry's lanes, in ascending order, each on what the lanes below it have left (07 R192). -/
def Memory.softLanes (op : SoftOp) : List LaneSoft → Memory → List LaneSoft × Memory
  | [], m => ([], m)
  | l :: t, m =>
    let p := m.softLane op l
    let q := Memory.softLanes op t p.2
    (p.1 :: q.1, q.2)

/-- A lane's step is done: the lane's second step may begin, or its results travel to the core. -/
def State.endSoftLane (s : State) (r : HomeReq) (d rn : Dest) (l : LaneSoft) : State :=
  if s.homes.any fun y => y.id == r.id && y.body.softLanes.any (·.waitsFor l.lane) then
    { s with homes := s.homes.map fun y =>
        if y.id == r.id then
          { y with body := y.body.withLanes fun zs => zs.map fun z =>
              if z.waitsFor l.lane then { z with stage := .idle, carry := l.carry } else z }
        else y }
  else s.pushReply r.id r.group (softReply d rn l l.datum l.run)

/-- A lane's first step has failed: its second is not performed. -/
def State.dropSecond (s : State) (id lane : Nat) : State :=
  (s.homes.filter fun y => y.id == id && y.body.softLanes.any (·.waitsFor lane)).foldl (fun (s : State) y =>
    let rest := y.body.softLanes.filter fun z => !z.waitsFor lane
    if rest.isEmpty then (s.dropHome y).ackHome id
    else { s with homes := s.homes.map fun z => if z == y then { z with body := z.body.withLanes fun _ => rest } else z }) s

/-- A lane's soft step fails at the host or a peer: a store is dropped and recorded, another traps precisely (22 R429,
20 R402). -/
def State.failSoft (s : State) (r : HomeReq) (op : SoftOp) (l : LaneSoft) (code : BitVec 8) : State :=
  let s := s.dropSecond r.id l.lane
  if op.stores then
    let f : FailRec := ⟨tREMFAULT, BitVec.ofNat 64 l.va⟩
    if keyTier l.addr == 3 then s.recordFabFail r.group f else s.recordFail r.group f
  else s.failParked r.group r.id l.lane code l.va

/-! #### On the host's memory -/

/-- What reading or writing a region gives. -/
inductive RegionRes where
  | wait
  | fail (code : BitVec 8)
  | ok (m : Slots)

/-- The answers for the pieces of a region. -/
def regionResult : Option (List Answer) → RegionRes
  | none => .wait
  | some as =>
    match as.find? fun a => a.fail.isSome with
    | some a => .fail (a.fail.getD 0)
    | none => .ok (as.flatMap fun a => slotsOf a.data a.poison)

/-- Reads the elements of a region of the host, each with the poison of its own line (07 R196). -/
def State.readRegion (s : State) (id key n : Nat) : RegionRes × State :=
  let r := s.farAll id ((cutPieces (4 * n) key (4 * n)).map fun p => ⟨p.1, p.2, mRD, 0, []⟩)
  (regionResult r.1, r.2)

/-- Writes the elements of a region of the host. -/
def State.writeRegion (s : State) (id key : Nat) (es : Slots) : RegionRes × State :=
  let bytes := es.flatMap fun e => natBytes 4 e.val.toNat
  let piece (p : Nat × Nat) : FarReq :=
    let part := (es.drop ((p.1 - key) / 4)).take (p.2 / 4)
    ⟨p.1, p.2, mWR, if part.any (·.poison) then 1 else 0, (bytes.drop (p.1 - key)).take p.2⟩
  let r := s.farAll id ((cutPieces (4 * es.length) key (4 * es.length)).map piece)
  (regionResult r.1, r.2)

/-- What a lane comes to: it waits for the host, fails there, or is done. -/
inductive LaneRes where
  | wait (l : LaneSoft)
  | fail (l : LaneSoft) (code : BitVec 8)
  | done (l : LaneSoft)

/-- One lane's step on the host's memory, from where it stands: the region is read, and written; a tape is only written. -/
def softLaneRun (id : Nat) (op : SoftOp) : Nat → LaneSoft → State → LaneRes × State
  | 0, l, s => (.wait l, s)
  | fuel + 1, l, s =>
    match l.stage with
    | .read => match s.readRegion id l.addr (l.n * l.k) with
      | (.wait, s) => (.wait l, s)
      | (.fail c, s) => (.fail l c, s)
      | (.ok m, s) =>
        if op.writes then softLaneRun id op fuel { l.step op m with stage := .write } s else (.done (l.step op m), s)
    | .write => match s.writeRegion id l.addr l.store with
      | (.wait, s) => (.wait l, s)
      | (.fail c, s) => (.fail l c, s)
      | (.ok _, s) => (.done l, s)
    | _ => softLaneRun id op fuel (if op == .tape then { l.step op [] with stage := .write } else { l with stage := .read }) s

/-- The lanes of an entry on the host's memory, in ascending order: what remains begins with the lane that waits. -/
def softLanesRun (r : HomeReq) (op : SoftOp) (d rn : Dest) : List LaneSoft → State → List LaneSoft × State
  | [], s => ([], s)
  | l :: t, s =>
    match softLaneRun r.id op 4 l s with
    | (.wait l, s) => (l :: t, s)
    | (.fail l c, s) => softLanesRun r op d rn t (s.failSoft r op l c)
    | (.done l, s) => softLanesRun r op d rn t (s.endSoftLane r d rn l)

/-! #### On a peer's memory -/

/-- The number of a soft step in a message. -/
def SoftOp.code : SoftOp → Nat
  | .sld => 0
  | .sst add => if add then 2 else 1
  | .sldg => 3
  | .sstg add => if add then 5 else 4
  | .tape => 6
  | .grad => 7
  | .back => 8

/-- A register in a message: its value, and its poison. -/
def regBytes (r : Reg) : List Byte := natBytes 4 r.val.toNat ++ [if r.poison then 1 else 0]

/-- Elements that a step takes from the lane's first step. -/
def SoftOp.carried (op : SoftOp) (n k : Nat) : Nat :=
  match op with
  | .tape => n * k
  | .back => n * k
  | .grad => n
  | _ => 0

/-- The operands of an entry's steps: the step, its slots and elements, and of each lane weights, values and what its first
step left. -/
def softOperands (op : SoftOp) (l0 : LaneSoft) (ls : List LaneSoft) : List Byte :=
  [BitVec.ofNat 8 op.code, BitVec.ofNat 8 l0.n, BitVec.ofNat 8 l0.k, BitVec.ofNat 8 ls.length] ++ ls.flatMap fun l =>
    (l.weights.take l.n).flatMap (fun w => natBytes 4 w.toNat) ++ (l.vals.take l.k).flatMap (fun w => natBytes 4 w.toNat) ++
      (l.carry.take (op.carried l.n l.k)).flatMap regBytes

/-- An entry's steps at a peer: one transfer of ATOMs of class 5, a message for each aligned piece of the region; each gives
its place in the region and the region's length, the first the operands too. The spec has no format for them (entry 153). -/
def softMessages (op : SoftOp) (ls : List LaneSoft) : List FarReq :=
  match ls with
  | [] => []
  | l :: _ =>
    let n := 4 * l.n * l.k
    (cutPieces (n + 1) l.addr n).map fun p =>
      ⟨p.1, p.2, mATOM, 0, 5 :: (natBytes 2 (p.1 - l.addr) ++ natBytes 2 n ++
        (if p.1 == l.addr then softOperands op l ls else []))⟩

/-- An entry's steps go to the peer that holds the region: it performs them at its service group (22 R425, R426). The
forwarding acknowledges a store (22 R429). -/
def State.forwardSoft (s : State) (r : HomeReq) (op : SoftOp) (ls : List LaneSoft) : State :=
  let s := s.dropHome r
  let s := (({ s with homes := s.homes ++ [{ r with home := farHome }] } : State).farAll r.id (softMessages op ls)).2
  if op.stores then s.ackHome r.id else s

/-- A peer has answered every message of an entry's steps, with what its region held: the results follow from that as at the
peer (22 R429). -/
def State.endFarSoft (s : State) (r : HomeReq) : State :=
  match r.body with
  | .soft op d rn ls =>
    match s.farAll r.id (softMessages op ls) with
    | (none, s) => s
    | (some as, s) =>
      let s := s.dropHome r
      let s := match as.find? fun a => a.fail.isSome with
        | some a => ls.foldl (fun (s : State) l => s.failSoft r op l (a.fail.getD 0)) s
        | none =>
          let m := as.foldl (fun (m : Memory) (a : Answer) => m.write a.key a.data a.poison) ⟨[], [], []⟩
          (Memory.softLanes op ls m).1.foldl (fun (s : State) l => s.endSoftLane r d rn l) s
      (if op.stores then s else s.ackHome r.id).settleFails r.group r.id
  | _ => s

/-! #### At any home -/

/-- Performs an entry of soft steps: on this device's memory at once; on the host's as far as it has answered; on a peer's by
the peer (07 R183 to R192, 22 R426). -/
def State.performSoft (s : State) (r : HomeReq) (op : SoftOp) (d rn : Dest) (ls : List LaneSoft) : State :=
  match keyTier ((ls.head?).elim 0 (·.addr)) with
  | 3 => s.forwardSoft r op ls
  | 2 =>
    match softLanesRun r op d rn ls s with
    | ([], s) => ((s.dropHome r).ackHome r.id).settleFails r.group r.id
    | (rest, s) => { s with homes := modifyFirst (· == r) (fun y => { y with body := .soft op d rn rest }) s.homes }
  | _ =>
    let q := Memory.softLanes op ls s.mem
    ((q.1.foldl (fun (s : State) l => s.endSoftLane r d rn l) { s.dropHome r with mem := q.2 }).ackHome r.id).settleFails r.group r.id

/-- A read-modify-write or soft write is performed: the issuing core's lines of what it writes go, whoever filled them
since it issued (06 R149, 07 R190, 12 R278 e). -/
def State.dropOwnLines (s : State) (r : HomeReq) : State :=
  match r.src with
  | .core c =>
    if r.body.isRmw then
      let lines := (r.body.vaSpans.flatMap fun q => linesOf q.1 q.2).eraseDups
      match s.launch? r.group.launch with
      | none => s
      | some l => (s.dropLines c l.ctx (lines.map (128 * ·))).dropFetches c lines.contains
    else s
  | _ => s

/-- Performs an entry. -/
def State.perform (s : State) (r : HomeReq) : State :=
  match r.body with
  | .store _ ls =>
    if ls.any fun l => decide (2 ≤ keyTier l.addr) then s.forwardHome r
    else ({ s.dropHome r with mem := s.mem.performStores ls } : State).ackHome r.id
  | .rmw _ op d ls =>
    if ls.any fun l => decide (2 ≤ keyTier l.addr) then s.forwardHome r
    else
      let q := ls.foldl (fun (acc : List (Option Nat × Nat × List Reg × Bool) × Memory) l =>
        let p := acc.2.performRmw op l
        (match d.bind fun d => d.at' l.lane with
          | some (u, reg) => acc.1 ++ [(u, reg, p.1, false)]
          | none => acc.1, p.2)) ([], s.mem)
      ((({ s.dropHome r with mem := q.2 } : State).pushReply r.id r.group q.1).ackHome r.id).dropOwnLines r
  | .soft op d rn ls => (s.performSoft r op d rn ls).dropOwnLines r
  | _ => s.dropHome r

/-- A memory-side command of a core that left before a request still has an element at the request's home: each home
executes one core's requests in the order they left (06 R167). -/
def State.mscHolds (s : State) (r : HomeReq) : Bool :=
  s.mscs.any fun m => m.left && !m.before.contains r.id && r.src == .core m.core &&
    (match m.owner with
      | .group _ => true
      | _ => false) && s.mscAtHome m r.home

/-- An entry must wait at its home: for a command before it, for a refresh, for a soft step at its granule (07 R191), for its
lanes' first steps; or it is a soft step on a granule of the host or a peer that an earlier access of this device, or another
entry of its instruction, has not been answered from. -/
def State.heldAtHome (s : State) (r : HomeReq) : Bool :=
  s.mscHolds r ||
    (r.body.regions.any fun q => s.refreshing q.1 q.2) || (r.body.spans.any fun q => s.locked (some r.id) q.1 q.2) ||
    (r.body.softLanes.any fun l => l.stage == .wait) ||
    (match r.body.softLanes with
      | l :: _ => l.stage == .idle && r.body.spans.any fun q => decide (2 ≤ keyTier q.1) &&
          s.fabric.remote.any fun y => overlaps (y.pa, y.size) (keyPa q.1) q.2 && y.host == (keyTier q.1 == 2)
      | [] => false)

/-- An entry is performed by the service group, not by the slice alone (11 R262). -/
def ReqBody.byGroup : ReqBody → Bool
  | .store _ _ => false
  | _ => true

/-- HOME_REQUEST: a home performs the first entry of a source's queue as one step (11 R263). -/
def execHomeRequest (home : Nat) (src : Source) (s : State) : Out :=
  match s.homes.find? fun r => r.home == home && r.src == src && decide (r.home < 256) with
  | none => .next s
  | some r =>
    if s.heldAtHome r then .next s
    else .next ((s.perform r).noteServed home r.group.launch r.body.byGroup).wakeAll

/-! ### Acknowledgements and replies -/

/-- HOME_ACK: an acknowledgement reaches the core; the last one completes the write (06 R170). -/
def execHomeAck (id : Nat) (s : State) : Out :=
  if !s.acks.contains id then .next s
  else
    let s := { s with acks := dropFirst (· == id) s.acks }
    .next (s.moreParts id 0 1).wake

/-- A value arrives in its register. -/
def Group.takeValue (g : Group) (id : Nat) (v : Option Nat × Nat × List Reg × Bool) : Group := g.answers id v.1 v.2.1 v.2.2.1

/-- With every value written, the instruction is complete, and its return slot free (11 R264). -/
def State.endAnswers (s : State) (k : GKey) (id : Nat) : State :=
  match s.group? k with
  | none => s
  | some g =>
    if g.pend.any fun p => p.id == id && !p.fails.isEmpty then s.settleFails k id
    else if g.written.any fun w => w.pending == some id then s
    else
      (s.modCore g.core fun c => { c with slotsUsed := c.slotsUsed.filter (· != id) }).modGroup k fun g =>
        ({ g with remote := g.remote.filter (· != 2 * id + 1) } : Group).finishOp id

/-- REPLY: a reply's values are written in the lanes it answers (11 R264). -/
def execReply (id : Nat) (s : State) : Out :=
  match s.replies.find? fun r => r.id == id with
  | none => .next s
  | some r =>
    let s := { s with replies := dropFirst (fun y => y.id == id) s.replies }
    match s.earlyAnswer r.group id (r.vals.map fun (v : Option Nat × Nat × List Reg × Bool) => (v.1.getD 127, v.2.2.1, v.2.2.2)),
      s.group? r.group with
    | some s, _ => .next s
    | _, none => .next s
    | none, some g =>
      let s := s.modGroup r.group fun g => r.vals.foldl (fun g v => g.takeValue id v) g
      let s := match g.pend.find? fun p => p.id == id with
        | some op => s.rememberOp g op (r.vals.map fun (v : Option Nat × Nat × List Reg × Bool) => (v.1.getD 127, v.2.2.1, v.2.2.2))
        | none => s
      .next (s.endAnswers r.group id).wake

/-! ### The drain of a run (01 R21 to R23, 04 R104) -/

/-- A lane's predicate and fpsr writes commit. -/
def Lane.commit (l : Lane) : Lane :=
  { l with
    preds := (l.preds &&& ~~~l.predMask) ||| (l.predNew &&& l.predMask)
    predPoison := (l.predPoison &&& ~~~l.predMask) ||| (l.predNewPoison &&& l.predMask)
    predMask := 0, predNew := 0, predNewPoison := 0
    fpsr := l.fpsrWrite.getD l.fpsr ||| l.flags
    fpsrWrite := none, flags := 0 }

/-- A word whose predicate results belong to the run. -/
def bringsPredicates (i : Instr) : Bool :=
  match i with
  | .waitt _ => true
  | .cqPush _ => true
  | _ => false

/-- Every result of the run has been written. -/
def Group.drainable (g : Group) : Bool :=
  g.draining && !(g.written.any fun w => w.pending.isSome) && !(g.cvs.any (·.queued)) &&
  !(g.pend.any fun p => bringsPredicates p.instr)

/-- The run has drained. -/
def Group.drained (g : Group) : Group :=
  { g with
    lanes := g.lanes.map Lane.commit
    fpcr := g.fpcrWrite.getD g.fpcr, fpcrWrite := none
    msr := g.msrWrite.getD g.msr, msrWrite := none
    runCount := 0, written := [], draining := false, marks := [] }

/-- DRAIN: with every result of its run written, a group goes on; the run's predicate and special-register writes
commit (01 R21, R23, 03 R73, 04 R104). -/
def execDrain (k : GKey) (s : State) : Out :=
  match s.group? k with
  | none => .next s
  | some g => if g.drainable then .next (s.modGroup k Group.drained) else .next s

end Sys2Proof.Machine
end

