-- ==== Sys2Proof/Machine/Pages.lean ====
section
/-!
DEFINITION. The fault service, the snapshot manager and the ports' answers (15 R321 to R329, 06 R169, R172), and
memory-side commands as the homes execute them (06 R166, R167).
-/

namespace Sys2Proof.Machine

open Sys2Proof

/-! ### Tables and frames -/

/-- The entry of a level that an address leads to, from a table of a level down: its address and value. -/
def entryAt (m : Memory) (va want : Nat) : Nat → Nat → Option (Nat × BitVec 64)
  | lvl, t =>
    let a := t + 8 * levelIndex lvl va
    let e : BitVec 64 := BitVec.ofNat 64 (m.readNat (memKey 0 a) 8)
    if lvl == want then some (a, e)
    else if !leafV e || leafL e then none
    else match lvl with
      | 0 => none
      | n + 1 => entryAt m va want n (leafPa e)

/-- Writes an entry. -/
def Memory.putEntry (m : Memory) (a : Nat) (e : BitVec 64) : Memory := m.storeNat (memKey 0 a) 8 e.toNat

/-- Clears the poison of a frame. -/
def Memory.cleanFrame (m : Memory) (key n : Nat) : Memory :=
  { m with poison := m.poison.filter fun u => !(unitsOf key n).contains u }

/-- Fills a frame: its bytes, no tags, no poison. -/
def Memory.fillFrame (m : Memory) (key : Nat) (bs : List Byte) : Memory := (m.store key bs).cleanFrame key bs.length

/-- Copies a frame with its tags, where both keep them, and its poison. -/
def Memory.copyFrame (m : Memory) (dst src n : Nat) : Memory :=
  let m' := m.fillFrame dst (m.readN src n)
  let m' := if keyTier dst == 0 && keyTier src == 0 then
      (List.range (n / 16)).foldl (fun (y : Memory) i => if m.tag (src + 16 * i) then y.setTag (dst + 16 * i) true else y) m'
    else m'
  (unitsOf src n).foldl (fun (y : Memory) u =>
    let a := unitKey u
    if m.poison.contains u then y.spoil (dst + (a - src)) (poisonSize a) else y) m'

/-- The entry of level 0 that an address leads to, with tables made from frames where they are missing; none when a
frame is wanting or a larger leaf stands in the way. -/
def makePath (va : Nat) : Nat → Nat → Memory → List Nat → Option (Nat × Memory × List Nat)
  | 0, t, m, fs => some (t + 8 * levelIndex 0 va, m, fs)
  | n + 1, t, m, fs =>
    let a := t + 8 * levelIndex (n + 1) va
    let e : BitVec 64 := BitVec.ofNat 64 (m.readNat (memKey 0 a) 8)
    if leafV e then (if leafL e then none else makePath va n (leafPa e) m fs)
    else
      match fs with
      | [] => none
      | f :: fs =>
        makePath va n f ((m.fillFrame (memKey 0 f) (List.replicate 4096 0)).putEntry a (BitVec.ofNat 64 f ||| 1)) fs

/-- The key of an address in the tables of a root, with its leaf. -/
def State.frameKey (s : State) (root va : Nat) : Option (Nat × BitVec 64) :=
  match walk s.mem va 2 root with
  | (.leaf _ lvl e, _) => some (memKey (leafTier e) (leafPa e + va % levelSize lvl), e)
  | _ => none

/-- The root tables of a context: its own, and the dies' (15 R315). -/
def State.rootsOf (s : State) (ctx : Nat) : List Nat :=
  ((s.ctx? ctx).elim [] (fun c => [c.root]) ++ s.dies.filterMap fun d => lookupKey ctx d.desc).eraseDups

/-- Changes the leaf of an address in every root's tables. -/
def State.mapLeaves (s : State) (ctx va : Nat) (f : BitVec 64 → BitVec 64) : State :=
  (s.rootsOf ctx).foldl (fun (s : State) root => match walk s.mem va 2 root with
    | (.leaf a _ e, _) => { s with mem := s.mem.putEntry a (f e) }
    | _ => s) s

/-- A port drops what it holds of a context, or of one page of it (15 R321). -/
def Die.invalidate (d : Die) (ctx : Nat) (page : Option Nat) : Die :=
  { d with
    tb := d.tb.filter fun t => !(t.ctx == ctx && page.all fun p => decide (t.page ≤ p) && decide (p < t.page + levelSize t.level))
    walks := d.walks.filter fun w => !(w.ctx == ctx && page.all fun p => w.part == p / levelSize (w.level + 1)) }

/-- Every port drops what it holds of a context, or of one page of it. -/
def State.invalidate (s : State) (ctx : Nat) (page : Option Nat) : State :=
  { s with dies := s.dies.map fun d => d.invalidate ctx page }

/-- The pages that something waits for at a port: the faults of its cores' groups and side logs. -/
def State.waitingPages (s : State) (die : Nat) : List (Nat × Nat) :=
  (s.groups.filter fun g => dieOfCore g.core == die).flatMap (fun g => g.faultPages.map fun p => (g.ctx, p)) ++
  (s.cores.filter fun c => dieOfCore c.id == die).flatMap fun c => c.log.map fun e => (e.ctx, e.page)

/-- A port tracks a page no longer; when it tracked as many as it can, those that waited there take the places (15 R327). -/
def State.untrack (s : State) (f : Nat × Nat) (d : Die × Nat) : Die :=
  let left := d.1.faults.filter (· != f)
  { d.1 with faults :=
      if d.1.faults.length < portFaults then left
      else ((left ++ s.waitingPages d.2).eraseDups.filter (· != f)).take portFaults }

/-- A page is served: parked groups execute again, the ports track it no longer (15 R327, R328). -/
def State.servePage (s : State) (ctx page : Nat) : State :=
  ({ s with
     dies := s.dies.zipIdx.map (s.untrack (ctx, page))
     groups := s.groups.map fun g => if g.ctx == ctx then g.pageServed page else g
     cp := { s.cp with snapFaults := s.cp.snapFaults.filter (· != (ctx, page)) } } : State).wakeAll

/-! ### The frames in use -/

/-- Entries of a level's table (15 R317). -/
def tableCount (lvl : Nat) : Nat := if lvl == 2 then 32768 else if lvl == 1 then 256 else 512

/-- The valid entries of a table, with their indexes: the first byte of a valid entry is odd. -/
def Memory.tableEntries (m : Memory) (lvl t : Nat) : List (Nat × BitVec 64) :=
  (m.cells.filter fun c => decide (t ≤ c.1) && decide (c.1 < t + 8 * tableCount lvl) && (c.1 - t) % 8 == 0 && bitOf c.2 0).map fun c =>
    ((c.1 - t) / 8, BitVec.ofNat 64 (m.readNat c.1 8))

/-- The leaves that a table of a level leads to, with the addresses they serve and their levels; and the tables, with
their bytes. -/
def Memory.mapping (m : Memory) : Nat → Nat → Nat → List (Nat × Nat × BitVec 64) × List (Nat × Nat)
  | lvl, t, va =>
    let es := (m.tableEntries lvl t).map fun q => (va + q.1 * levelSize lvl, q.2)
    let below : List (List (Nat × Nat × BitVec 64) × List (Nat × Nat)) := match lvl with
      | 0 => []
      | n + 1 => (es.filter fun q => !leafL q.2 && inTier0 (leafPa q.2)).map fun q => m.mapping n (leafPa q.2) q.1
    ((es.filter fun q => leafL q.2).map (fun q => (q.1, lvl, q.2)) ++ below.flatMap (·.1),
      (t, 8 * tableCount lvl) :: below.flatMap (·.2))

/-- The key of a leaf's frame. -/
def leafKey (e : BitVec 64) : Nat := memKey (leafTier e) (leafPa e)

/-- A frame that a context maps, that holds a table or an area of one, or a die's error records. -/
def State.frameUsed (s : State) (key n : Nat) : Bool :=
  (s.dies.any fun d => bitOf d.eqbase 0 && overlaps ((bitsOf d.eqbase 15 37).toNat * 2 ^ 15, 32768) key n) ||
  s.cp.ctxs.any fun c =>
    ([(c.savePa, c.saveLen), (c.snapPa, c.snapLen), (c.logPa, 8192)].any fun a => overlaps a key n) ||
    (s.rootsOf c.num).any fun root =>
      let q := s.mem.mapping 2 root 0
      (q.2.any fun t => overlaps t key n) || q.1.any fun l => overlaps (leafKey l.2.2, levelSize l.2.1) key n

/-- The bytes of a die's HBM (TIER 0) or weight store (TIER 1) that contexts' pages, tables and areas take. -/
def State.usedBytes (s : State) (tier die : Nat) : Nat :=
  let units : List (Nat × Nat) := s.cp.ctxs.flatMap fun c =>
    [(c.savePa, c.saveLen), (c.snapPa, c.snapLen), (c.logPa, 8192)] ++ (s.rootsOf c.num).flatMap fun root =>
      let q := s.mem.mapping 2 root 0
      q.2 ++ q.1.map fun l => (leafKey l.2.2, levelSize l.2.1)
  (units.eraseDups.filter fun u => keyTier u.1 == tier && keyPa u.1 / 2 ^ 38 % 4 == die).foldl (fun n u => n + u.2) 0

/-- A die has room for one more page of 64 KiB in its HBM or its weight store (18 R365, R366). -/
def State.hasRoom (s : State) (tier die : Nat) : Bool :=
  decide (s.usedBytes tier die + 65536 ≤ if tier == 0 then Config.hbmBytes else 2 ^ 29)

/-- The frame lies in a die's HBM. -/
def inHbm (key die : Nat) : Bool := keyTier key == 0 && keyPa key / 2 ^ 38 % 4 == die

/-- A range entry holds bytes of the page at an address. -/
def RangeEntry.meets (r : RangeEntry) (page : Nat) : Bool := overlaps (r.va, r.len) page 65536

/-! ### The fault service (15 R326 to R329) -/

/-- The service cannot complete a fault: it is unresolvable for all that waits for it, and recorded (15 R329). -/
def State.failPage (s : State) (ctx page : Nat) : State :=
  let die := (s.dies.findIdx? fun d => d.faults.contains (ctx, page)).getD 0
  let gs := (s.groups.filter fun g => g.ctx == ctx && g.faultPages.contains page).map fun g => Agent.group g.key
  let es := (s.engines.filter fun e => e.ctx == ctx).map fun e => Agent.engine e.id
  ((s.modCp fun c => { c with badPages := c.badPages ++ [⟨ctx, page, gs ++ es, []⟩] }).logError die
    { ErrRec.blank 0x0D with ctx := ctx, addr := page }).servePage ctx page

/-- What a page of a lazy range holds when it is mapped (18 R369): its bytes, from the image or 0. -/
def State.pageContents (s : State) (r : LazyRange) (page : Nat) : FarRes × State :=
  let o := page - r.va
  let n := min 65536 (r.imgLen - o)
  if r.img == 0 || n == 0 then (.data (List.replicate 65536 0) false, s)
  else
    match s.readVirtual (2 ^ 33 + page) 0 r.ctx (r.img + o) n false with
    | (.data bs poison, s) => (.data (bs ++ List.replicate (65536 - bs.length) 0) poison, s)
    | q => q

/-- A leaf that the service may write: valid, neither accessed nor dirty, in TIER 0, or in the host tier for a range
that is there (15 R326, R327). -/
def freshLeaf (hosted : Bool) (e : BitVec 64) : Bool :=
  leafV e && leafL e && bitsOf e 4 3 == 0 && bitsOf e 10 2 == 0 && leafTier e == (if hosted then 2 else 0) &&
  leafPa e % 65536 == 0 && inTier (leafTier e) (leafPa e) 65536

/-- A launch keeps the pages it must give back (19 R386, R389). -/
def State.keepsPages (s : State) (l : Launch) : Bool := s.accepted 8 && l.nonReplay.isNone

/-- A frame for a lazy page lies on a die that touched it first: on one that has reported it, while such a die has room
(18 R366). -/
def State.touchedOn (s : State) (ctx page key : Nat) : Bool :=
  let dies := (List.range 4).filter fun d => (s.die d).faults.contains (ctx, page)
  dies.any (inHbm key) || !dies.any (s.hasRoom 0)

/-- PAGE_MAPPED: the service maps a page of a lazy range, filled with its contents and capability slots; every port that
reported it is told (15 R327, R328, 18 R363, R366, R369). A leaf that is not valid tells that no memory was found. -/
def execPageMapped (m : PageMap) (s : State) : Out :=
  match s.cp.lazy.find? fun r => r.ctx == m.ctx && overlaps (r.va, r.len) m.va 65536 with
  | none => .next s
  | some r =>
    if m.va % 65536 != 0 || !(s.dies.any fun d => d.faults.contains (m.ctx, m.va)) || !s.lazyAt m.ctx (max m.va r.va) ||
      s.cp.snapFaults.contains (m.ctx, m.va) || s.movingAt m.ctx m.va then .next s
    else if (s.rootsOf m.ctx).any fun root => (s.frameKey root m.va).isSome then .next (s.servePage m.ctx m.va)
    else if !leafV m.leaf then .next (s.failPage m.ctx m.va)
    else if !freshLeaf r.hosted m.leaf || m.tables.any (s.frameUsed · 4096) || (!r.hosted && (s.frameUsed (leafKey m.leaf) 65536 || !s.touchedOn m.ctx m.va (leafKey m.leaf))) then
      .next s
    else
      match s.pageContents r m.va with
      | (.wait, s) => .next s
      | (.fail .., s) => .next (s.failPage m.ctx m.va)
      | (.data _ true, s) => .next (s.failPage m.ctx m.va)
      | (.data bs false, s) =>
        let paths := (s.rootsOf m.ctx).foldl (fun (acc : Option (List Nat × Memory × List Nat)) root =>
          acc.bind fun q => (makePath m.va 2 root q.2.1 q.2.2).map fun p => (q.1 ++ [p.1], p.2.1, p.2.2)) (some ([], s.mem, m.tables))
        match paths with
        | none => .next s
        | some (es, mem, _) =>
          let frame := leafKey m.leaf
          let mem := if r.hosted then mem else mem.fillFrame frame bs
          let here := r.slots.filter fun q => decide (m.va ≤ r.va + q.1) && decide (r.va + q.1 < m.va + 65536)
          let mem := here.foldl (fun (y : Memory) q =>
            y.storeCap (frame + (r.va + q.1 - m.va)) (natBytes 16 q.2.toNat) true) mem
          let mem := es.foldl (fun (y : Memory) a => y.putEntry a m.leaf) mem
          let s := { s with mem := mem }
          let keep := (s.cp.launches.filter fun l => l.ctx == m.ctx && s.keepsPages l &&
            l.ranges.any fun q => q.lazy && q.use != 1 && q.meets m.va).map (·.id)
          let s := keep.foldl (fun s l => s.modLaunch l fun y => { y with pages := y.pages ++ [⟨m.va, frame, none⟩] }) s
          .next ((s.invalidate m.ctx (some m.va)).servePage m.ctx m.va)

/-! ### The snapshot manager (15 R323, 18 R367, 19 R386 to R389) -/

/-- The entry of a level that the primary's tables give for an address: the entry itself, or the part of a larger leaf. -/
def primaryEntry (m : Memory) (va lvl root : Nat) : Option (BitVec 64) :=
  ((entryAt m va lvl 2 root).map (·.2)).orElse fun _ => match walk m va 2 root with
    | (.leaf _ big e, _) => some (e + BitVec.ofNat 64 (va / levelSize lvl * levelSize lvl % levelSize big))
    | _ => none

/-- Drops the copies of a range: in every die's tables, an entry that is a copy takes the value of the primary's
(18 R367). -/
def State.dropCopies (s : State) (ctx : Nat) (pages : List Nat) : State :=
  match s.ctx? ctx with
  | none => s
  | some c =>
    pages.foldl (fun (s : State) p =>
      ((s.rootsOf ctx).filter (· != c.root)).foldl (fun (s : State) root =>
        match walk s.mem p 2 root with
        | (.leaf a lvl e, _) =>
          if leafCopy e then
            match primaryEntry s.mem p lvl c.root with
            | some e' => { s with mem := s.mem.putEntry a e' }
            | none => s
          else s
        | _ => s) (s.invalidate ctx (some p))) s

/-- The pages of the copied range that holds a page. -/
def State.copyRange (s : State) (ctx page : Nat) : List Nat :=
  match s.cp.replicas.find? fun r => r.1 == ctx && overlaps r.2 page 65536 with
  | some r => pagesOf r.2.1 r.2.2
  | none => [page]

/-- The copies of a page's range are no more. -/
def State.dropReplica (s : State) (ctx page : Nat) : State :=
  (s.dropCopies ctx (s.copyRange ctx page)).modCp fun c =>
    { c with replicas := c.replicas.filter fun r => !(r.1 == ctx && overlaps r.2 page 65536) }

/-- Splits a larger leaf into leaves of 64 KiB, in tables made from frames; none when there are too few (15 R323). -/
def splitLeaf (m : Memory) (a lvl : Nat) (e : BitVec 64) (tables : List Nat) : Option (Memory × List Nat) :=
  let fillTable (m : Memory) (t n size : Nat) (e : BitVec 64) : Memory :=
    (List.range n).foldl (fun (y : Memory) i => y.putEntry (t + 8 * i) (e + BitVec.ofNat 64 (size * i)))
      (m.fillFrame (memKey 0 t) (List.replicate 4096 0))
  let pointer (t : Nat) : BitVec 64 := BitVec.ofNat 64 t ||| 1
  match lvl, tables with
  | 0, ts => some (m, ts)
  | 1, t :: ts => some ((fillTable m t 512 65536 e).putEntry a (pointer t), ts)
  | 2, t1 :: ts =>
    if ts.length < 256 then none
    else
      let m := (ts.take 256).zipIdx.foldl (fun (y : Memory) q =>
        (fillTable y q.1 512 65536 (e + BitVec.ofNat 64 (2 ^ 25 * q.2))).putEntry (t1 + 8 * q.2) (pointer q.1))
        (m.fillFrame (memKey 0 t1) (List.replicate 4096 0))
      some (m.putEntry a (pointer t1), ts.drop 256)
  | _, _ => none

/-- Splits the leaf of a snapshot page in the tables of every root that maps it by a larger leaf. -/
def splitRoots (va : Nat) : List Nat → Memory → List Nat → Option Memory
  | [], m, _ => some m
  | root :: roots, m, ts =>
    match walk m va 2 root with
    | (.leaf a lvl e, _) =>
      if leafSnap e then (splitLeaf m a lvl e ts).bind fun q => splitRoots va roots q.1 q.2 else splitRoots va roots m ts
    | _ => splitRoots va roots m ts

/-- The first free place of a snapshot area (19 R386). -/
def State.areaPlace (s : State) (c : Context) : Option Nat :=
  let used := (s.cp.launches.filter fun l => l.ctx == c.num).flatMap fun l => l.pages.filterMap (·.area)
  (List.range (c.snapLen / 65536)).find? fun k => !used.contains k

/-- A launch with a write range on a page takes its copy to the snapshot area, or becomes non-replayable when it does not fit;
one that is not replayable takes none (19 R386, R388, R389). -/
def State.snapFor (s : State) (c : Context) (va frame : Nat) (l : Launch) : State :=
  if !s.keepsPages l then s
  else
    match s.areaPlace c with
    | none => s.markNonReplay l.id 5
    | some k =>
      ({ s with mem := s.mem.copyFrame (memKey 0 (c.snapPa + 65536 * k)) frame 65536 } : State).modLaunch l.id fun y =>
        { y with pages := y.pages ++ [⟨va, frame, some k⟩] }

/-- SNAPSHOT_COPY_DONE: the page that a write waits for is copied to the snapshot area, SNAP is cleared, and the access is
woken; one fault of a page serves all writes to it, so every launch of the context that may write the page has its copy (DESIGN
CHOICE, log entry 159). A copy of a read-only range is dropped instead; and when there are no frames for the tables of a leaf that
must be split, the fault fails (15 R323, R327, R329, 18 R367, 19 R386, R388, R389). -/
def execSnapshotCopyDone (ctx va : Nat) (tables : List Nat) (s : State) : Out :=
  if !s.cp.snapFaults.contains (ctx, va) || !(s.dies.any fun d => d.faults.contains (ctx, va)) || tables.any (s.frameUsed · 4096) then
    .next s
  else
    let leaves := (s.rootsOf ctx).filterMap fun root => match walk s.mem va 2 root with
      | (.leaf a lvl e, _) => some (a, lvl, e)
      | _ => none
    if leaves.any fun q => leafCopy q.2.2 then .next ((s.dropReplica ctx va).servePage ctx va)
    else
      match leaves.find? fun q => leafSnap q.2.2 with
      | none => .next (s.servePage ctx va)
      | some (_, lvl, e) =>
        match splitRoots va (s.rootsOf ctx) s.mem tables with
        | none => .next (s.failPage ctx va)
        | some mem =>
          let s := { s with mem := mem }
          let frame := memKey (leafTier e) (leafPa e + va % levelSize lvl)
          let ls := s.cp.launches.filter fun l => l.ctx == ctx && l.ranges.any fun r => r.use != 1 && r.meets va
          let s := (s.ctx? ctx).elim s fun c => ls.foldl (fun s l => s.snapFor c va frame l) s
          .next (((s.mapLeaves ctx va fun e => e &&& ~~~0x40).invalidate ctx (some va)).servePage ctx va)

/-! ### Side-log replay (06 R172, 15 R328) -/

/-- Replays one entry: its lanes go to their homes; those whose page faults again wait on. -/
def State.replayEntry (s : State) (core : Nat) (e : LogEntry) : State :=
  let q := s.sendWrites core (dieOfCore core) e.ctx e.id (.core core) e.group (fun _ => false)
    (fun s f => s.recordFail e.group f) e.body
  let rest := q.1.2.map fun r => { e with page := r.1, body := r.2 }
  let s := q.2.modCore core fun c =>
    { c with log := c.log.flatMap fun y => if y.id == e.id && y.page == e.page && y.ctx == e.ctx then rest else [y] }
  s.moreParts e.id (q.1.1 + rest.length) 1

/-- An entry of another page holds a lane that also reaches this one. -/
def LogEntry.straddles (e : LogEntry) (ctx page : Nat) : Bool :=
  e.ctx == ctx && e.page != page && e.body.vaSpans.any fun q => (pagesOf q.1 q.2).contains page

/-- SIDE_LOG_REPLAY: a core replays its entries for a page in the order they entered the log; one behind a lane that straddles
into the page from another entry waits for it. -/
def execSideLogReplay (core ctx va : Nat) (s : State) : Out :=
  let page := va / 65536 * 65536
  let es := (s.core core).log.filter fun e => e.ctx == ctx && e.page == page
  let waits (s : State) (e : LogEntry) : Bool := (s.core core).log.any fun y => y.id == e.id && y.page == page && y.ctx == ctx
  let behind (s : State) (e : LogEntry) : Bool :=
    ((s.core core).log.takeWhile fun y => !(y.id == e.id && y.page == page && y.ctx == ctx)).any fun y => y.straddles ctx page
  if es.isEmpty then .next s
  else
    .next (es.foldl (fun (acc : State × Bool) e =>
      if acc.2 || !waits acc.1 e then acc
      else if behind acc.1 e then (acc.1, true)
      else
        let s := acc.1.replayEntry core e
        (s, waits s e)) (s, false)).1.wake

/-! ### The ports answer -/

/-- The number under which the ports answer an INVAL of the command processor. -/
def cpInval : Nat := 2 ^ 34

/-- The last port has answered: the pending word is complete. -/
def State.portAnswered (s : State) (k : GKey) (id port : Nat) : State :=
  let s := s.modGroup k fun g => g.modPend id fun p => { p with acks := p.acks.filter (· != port) }
  if (s.group? k).any fun g => g.pend.any fun p => p.id == id && p.acks.isEmpty then s.answerUnit k id [] else s

/-- A group with a word of number `id` that awaits a port. -/
def State.awaitingPort (s : State) (id port : Nat) (is : Instr → Bool) : Option (Group × PendOp) :=
  s.groups.findSome? fun g => (g.pend.find? fun p => p.id == id && p.acks.contains port && is p.instr).map fun p => (g, p)

/-- A translation invalidation. -/
def isInvalidation (i : Instr) : Bool :=
  match i with
  | .cctlInvpt _ => true
  | .cctlInvpg _ => true
  | _ => false

/-- PORT_INVAL_ACK: a port drops the named entries and acknowledges; the last acknowledgement completes the word, or the
command processor's INVAL (06 R165, 15 R321, 20 R406). -/
def execPortInvalAck (port id : Nat) (s : State) : Out :=
  match s.awaitingPort id port isInvalidation with
  | some (g, p) =>
    let pages : List (Option Nat) := match p.instr with
      | .cctlInvpg _ => p.args.map fun w => some (w.toNat * 65536)
      | _ => [none]
    let s := s.modDie port fun d => pages.foldl (fun d q => d.invalidate g.ctx q) d
    .next (s.portAnswered g.key id port).wake
  | none =>
    if id != cpInval || !s.cp.invalAcks.contains port then .next s
    else
      let arg (n : Nat) : Nat := (s.cp.cmd[n]?.getD 0).toNat
      let s := s.modDie port fun d => d.invalidate (arg 0) (if arg 2 == 1 then some (arg 1 / 65536 * 65536) else none)
      let left := s.cp.invalAcks.filter (· != port)
      .next (s.modCp fun c =>
        { c with invalAcks := left, status := if left.isEmpty then 2 else c.status, result := 0 })

/-- PKR_PORT_ACK: a port takes a new PKR and acknowledges; the last acknowledgement completes `pkr.set` (06 R169). -/
def execPkrPortAck (port id : Nat) (s : State) : Out :=
  match s.awaitingPort id port fun i => match i with
      | .pkrSet _ => true
      | _ => false with
  | none => .next s
  | some (g, p) =>
    let v : DWord := BitVec.ofNat 64 (pairOf (p.args[0]?.getD 0) (p.args[1]?.getD 0))
    let s := s.modDie port fun d => { d with pkr := putKey g.ctx v d.pkr }
    .next (s.portAnswered g.key id port).wake

/-! ### Memory-side commands (06 R166, R167) -/

/-- The ranges a portion of `cnt` elements from element `pos` reads from the source. -/
def MscOp.sources (m : MscOp) (cnt : Nat) : List (Nat × Nat) :=
  match m.cmd with
  | 0 => []
  | 1 => (List.range m.p1.toNat).map fun j => (m.source + 4 * (j * m.p0.toNat + m.pos), 4 * cnt)
  | _ => [(m.source + 4 * m.pos, 4 * cnt)]

/-- The command reads its target too. -/
def MscOp.readsTarget (m : MscOp) : Bool := m.cmd == 1 || m.cmd == 2

/-- The new value of one element: `xs` are its source elements, `y` what the target holds (06 R166). -/
def mscElement (cmd : Nat) (p0 a : Word) (xs : Slots) (y : Reg) : Reg :=
  let x : Reg := xs[0]?.getD ⟨0, false⟩
  match cmd with
  | 0 => ⟨p0, false⟩
  | 1 => xs.foldl (fun (t : Reg) x => ⟨mergeAdd t.val x.val, t.poison || x.poison⟩) y
  | 2 =>
    let v (w : Word) : FloatVal := unpack fp32 w.toNat
    ⟨BitVec.ofNat 32 (sumResult fp32 .rne false false [v a, v x.val, v y.val]
      [prodTerm (v a) (v x.val), some (v y.val)]).bits, x.poison || y.poison⟩
  | _ => x

/-- Source elements of one element of a command. -/
def MscOp.perElement (m : MscOp) : Nat :=
  match m.cmd with
  | 0 => 0
  | 1 => m.p1.toNat
  | _ => 1

/-- The new elements of a portion: `xs` are the source's, range after range, `ys` the target's. -/
def MscOp.compute (m : MscOp) (cnt : Nat) (xs ys : Slots) : Slots :=
  (List.range cnt).map fun i =>
    mscElement m.cmd m.p0 m.p2 ((List.range m.perElement).map fun j => xs[j * cnt + i]?.getD ⟨0, false⟩)
      (ys[i]?.getD ⟨0, false⟩)

/-- Translations of several ranges: their pieces by key, a page that waits, or the first failure. -/
inductive Pieces where
  | wait
  | fail (code : BitVec 8) (va : Nat)
  | ok (ps : List (Nat × Nat))
  deriving DecidableEq, Repr

/-- The pieces of ranges read through a context. -/
def State.piecesOf (s : State) (port ctx : Nat) (rs : List (Nat × Nat)) : Pieces × State :=
  rs.foldl (fun (acc : Pieces × State) r =>
    match acc.1 with
    | .ok ps =>
      let t := acc.2.translateRange port ctx r.1 r.2 {}
      match worstFail t.1 with
      | some c => (.fail c ((t.1.find? fun q => q.2 == .fail c).elim r.1 (·.1)), t.2)
      | none =>
        if !(resolvablePages t.1).isEmpty then (.wait, t.2)
        else (.ok (ps ++ (cutPieces (r.2 + 1) r.1 r.2).map fun p => (keyAt t.1 p.1, p.2)), t.2)
    | _ => acc) (.ok [], s)

/-- A command leaves its list with its outcome. -/
def State.endMsc (s : State) (m : MscOp) (fail : Option (FailRec × Bool)) : State :=
  (({ s with mscs := s.mscs.filter fun y => y.id != m.id } : State).endCommand m.owner m.id (fail.map fun f => (4, f.1, f.2))).wakeAll

/-- Changes a command. -/
def State.modMsc (s : State) (id : Nat) (f : MscOp → MscOp) : State :=
  { s with mscs := s.mscs.map fun y => if y.id == id then f y else y }

/-- The command's elements move on. -/
def State.stepMsc (s : State) (id n : Nat) : State :=
  s.modMsc id fun y => { y with pos := y.pos + n, buf := [], held := none, out := none }

/-- Two commands of one source: of one core's groups, or of the command processor. -/
def MscOp.beside (m y : MscOp) : Bool :=
  match m.owner, y.owner with
  | .group _, .group _ => m.core == y.core
  | .node _, .node _ => true
  | _, _ => false

/-- An earlier request or command of the command's source is still to be performed at a home (06 R167, 11 R263). -/
def State.mscBehind (s : State) (m : MscOp) (home : Nat) : Bool :=
  (s.homes.any fun r => r.src == .core m.core && m.before.contains r.id && r.home == home) ||
    (s.mscs.takeWhile fun y => y.id != m.id).any fun y => y.left && m.beside y && s.mscAtHome y home

/-- An element's operands for a peer: the command, its words, and the source elements (entry 153). -/
def MscOp.operands (m : MscOp) (xs : Slots) : List Byte :=
  6 :: BitVec.ofNat 8 m.cmd :: (natBytes 4 m.p0.toNat ++ natBytes 4 m.p2.toNat ++ xs.flatMap regBytes)

/-- One element whose source or target lies at the host or a peer, once its source elements `xs` are known: an element of this
device is read and written at once, a peer's by the peer (22 R425), and the host's is kept from other accesses between its
read and its write (06 R167). -/
def State.mscElementAt (s : State) (m : MscOp) (port key tva : Nat) (xs : Slots) : State :=
  let fail (s : State) (code : BitVec 8) (fab : Bool) : State := s.endMsc m (some (⟨code, BitVec.ofNat 64 tva⟩, fab))
  let done (s : State) : State := ((s.servedAt port key (s.ownerLaunch m.owner)).stepMsc m.id 1).wakeAll
  let put (s : State) (e : Reg) : State :=
    if e.poison then fail s tPAGE false
    else
      match s.writePieces m.id [(key, natBytes 4 e.val.toNat, false)] with
      | (.wait, s) => s
      | (.fail .., s) => fail s tREMFAULT false
      | (.data .., s) => done s
  match keyTier key with
  | 3 =>
    let r := s.farAll m.id [⟨key, 4, mATOM, 0, m.operands xs⟩]
    match farResult r.1 with
    | .wait => r.2
    | .fail c _ => fail r.2 c true
    | .data .. => done r.2
  | 2 =>
    if !m.readsTarget then put s ((m.compute 1 xs []).headD ⟨0, false⟩)
    else
      match m.out with
      | some e => put s e
      | none =>
        let s := s.modMsc m.id fun y => { y with held := some key }
        match s.readPieces m.id [(key, 4)] with
        | (.wait, s) => s
        | (.fail c _, s) => fail s c false
        | (.data bs poison, s) => s.modMsc m.id fun y => { y with out := (m.compute 1 xs (slotsOf bs poison)).head? }
  | _ =>
    done { s with mem := s.mem.performStores (slotStores key tva (m.compute 1 xs (s.mem.region key 1))) }

/-- One portion of a command: up to 4 KiB at once where all of it is this device's memory, else an element at a time, whose
source elements are read first. -/
def State.mscPortion (s : State) (m : MscOp) (count : Nat) : State :=
  let port := s.ownerDie m.owner m.core
  let tva := m.target + 4 * m.pos
  match s.translate port m.ctx tva { write := true } with
  | (.resolvable, s) => s
  | (.fail c, s) => s.endMsc m (some (⟨c, BitVec.ofNat 64 tva⟩, false))
  | (.ok key _, s) =>
    let tier := keyTier key
    let inPage := min (count - m.pos) ((4096 - tva % 4096) / 4)
    if s.mscBehind m (s.homeOf port tier (keyPa key)) then s
    else
      match s.piecesOf port m.ctx (m.sources inPage) with
      | (.wait, s) => s
      | (.fail c va, s) => s.endMsc m (some (⟨c, BitVec.ofNat 64 va⟩, false))
      | (.ok ps, s) =>
        if (s.locked (some m.id) key (4 * inPage)) || ps.any fun p => s.stalls (some m.id) p.1 p.2 then s
        else
          let near := decide (tier < 2) && ps.all fun p => decide (keyTier p.1 < 2)
          let s := match s.ownerLaunch m.owner with
            | some l => s.noteWrite l tva (4 * (if near then inPage else 1)) tier true
            | none => s
          if near then
            let xs := ps.flatMap fun p => s.mem.region p.1 (p.2 / 4)
            let ys := if m.readsTarget then s.mem.region key inPage else []
            let s := { s with mem := s.mem.performStores (slotStores key tva (m.compute inPage xs ys)) }
            ((s.servedAt port key (s.ownerLaunch m.owner)).stepMsc m.id inPage).wakeAll
          else if m.perElement == 0 || !m.buf.isEmpty then s.mscElementAt m port key tva m.buf
          else
            match s.piecesOf port m.ctx (m.sources 1) with
            | (.ok ps, s) =>
              match s.readPieces m.id ps with
              | (.wait, s) => s
              | (.fail c k, s) =>
                let va := ((ps.zip (m.sources 1)).find? fun q => q.1.1 == k).elim tva (·.2.1)
                s.endMsc m (some (⟨c, BitVec.ofNat 64 va⟩, keyTier k == 3))
              | (.data bs poison, s) => s.modMsc m.id fun y => { y with buf := slotsOf bs poison }
            | (_, s) => s

/-- MSC_COMPLETE: a command performs its next portion; after the last element it is complete (06 R167). -/
def execMscComplete (id : Nat) (s : State) : Out :=
  match s.mscs.find? fun m => m.id == id && m.left with
  | none => .next s
  | some m =>
    let count := (mscExtents m.cmd m.p0.toNat m.p1.toNat).1 / 4
    if m.pos < count then .next (s.mscPortion m count) else .next (s.endMsc m none)

end Sys2Proof.Machine
end

