-- ==== Sys2Proof/Machine/Remote.lean ====
section
/-!
DEFINITION. Accesses to the host (20 R402) and to peers (22 R424 to R430): how they end at the initiator, and how a peer's
request is judged and performed here (22 R425, R426).
-/

namespace Sys2Proof.Machine

open Sys2Proof

/-! ### At the initiator -/

/-- Registers of bytes read at a home elsewhere. -/
def farRegs (bs : List Byte) (n : Nat) (poison : Bool) : List Reg :=
  (⟨BitVec.ofNat 128 (bytesNat bs), false, poison⟩ : Val).toRegs (n / 4)

/-- A forwarded write that returns nothing fails: dropped and recorded, a failed host write with the group's write
failures, a peer's in the fabric record (20 R402, 22 R429, R430). -/
def State.dropForwarded (s : State) (r : Remote) (q : HomeReq) (va : Nat) : State :=
  let f : FailRec := ⟨tREMFAULT, BitVec.ofNat 64 va⟩
  if !r.host then s.recordFabFail q.group f
  else
    match (s.inflight.find? fun i => i.id == q.id).bind (·.eng) with
    | some (e, order, pc) => (s.engineFail e order 4 pc).ackHome q.id
    | none => (s.recordFail q.group f).ackHome q.id

/-- A home's forwarded request ends: `none` for a success with its data, else the code of its failure. -/
def State.endForwarded (s : State) (r : Remote) (q : HomeReq) (fail : Option (BitVec 8)) (bs : List Byte) (poison : Bool) :
    State :=
  match q.body, fail with
  | .store _ ls, some _ => s.dropForwarded r q ((ls.head?).elim 0 (·.va))
  | .store _ _, none => if r.host then s.ackHome q.id else s
  | .rmw _ _ none ls, some _ => s.dropForwarded r q ((ls.head?).elim 0 (·.va))
  | .rmw _ _ none _, none => (if r.host then s.ackHome q.id else s).dropOwnLines q
  | .rmw _ _ (some _) ls, some code => (s.ackHome q.id).failParked q.group q.id ((ls.head?).elim 0 (·.lane)) code ((ls.head?).elim 0 (·.va))
  | .rmw _ op (some d) ls, none =>
    ((s.pushReply q.id q.group ((ls.filterMap fun l => d.at' l.lane).map fun p =>
      (p.1, p.2, farRegs bs op.bytes poison, false))).ackHome q.id).dropOwnLines q
  | _, _ => s

/-- A load's line arrives, or its failure: L1 is filled, and the group executes its load again (20 R402, 22 R429). -/
def State.endLine (s : State) (r : Remote) (k : GKey) (va : Nat) (fail : Option (BitVec 8)) (bs : List Byte) (poison : Bool) :
    State :=
  match s.group? k with
  | none => s
  | some g =>
    if !g.remote.contains (2 * r.tag) then s
    else
      let line : L1Line := ⟨(bs ++ List.replicate 128 0).take 128, 0, if poison then 0xFF else 0⟩
      let s := if fail.isNone then s.modCore g.core fun c => c.l1Fill g.ctx va line else s
      s.modGroup k fun g =>
        { g with remote := g.remote.filter (· != 2 * r.tag)
                 fetched := if fail.isNone then (va, line) :: g.fetched else g.fetched
                 remoteFail := match fail with
                   | some c => g.remoteFail ++ [(c, va)]
                   | none => g.remoteFail }

/-- An engine program's load ends; poisoned data marks its destination (22 R429). -/
def State.endEngineLoad (s : State) (id : Nat) (fail : Option (BitVec 8)) (bs : List Byte) (poison : Bool) : State :=
  match s.engine? id with
  | none => s
  | some e =>
    let s := s.modEngine id fun e => { e with remote := none, data := if fail.isNone then some (bs, poison) else none }
    if fail.isSome then s.failEngine e 4 else s

/-- An access ends with its data, or with the code of its failure. -/
def State.remoteEnd (s : State) (r : Remote) (fail : Option (BitVec 8)) (bs : List Byte) (poison : Bool) : State :=
  let s := { s with fabric := { s.fabric with remote := s.fabric.remote.filter fun y => y.tag != r.tag } }
  (match r.for' with
    | .line k va => s.endLine r k va fail bs poison
    | .req q => s.endForwarded r q fail bs poison
    | .op id key =>
      let a : Answer := ⟨id, key, fail, poison, bs⟩
      let s : State := { s with fabric := { s.fabric with answers := s.fabric.answers ++ [a] } }
      match s.forwarded r with
      | some q => (s.endFarSoft q).dropOwnLines q
      | none => s
    | .engine id => s.endEngineLoad id fail bs poison).wakeAll

/-- HOST_ACK: the host answers an access, or answers it with an error (20 R402). -/
def execHostAck (id : Nat) (ok : Bool) (data : List Byte) (s : State) : Out :=
  match s.fabric.remote.find? fun r => r.host && r.tag == id with
  | none => .next s
  | some r => .next (s.remoteEnd r (if ok then none else some tREMFAULT) data false)

/-- HOST_TIMEOUT: an access is not answered within HTO microseconds (20 R402). -/
def execHostTimeout (id : Nat) (s : State) : Out :=
  match s.fabric.remote.find? fun r => r.host && r.tag == id with
  | none => .next s
  | some r =>
    if r.sent + usCycles * s.dev.linkto.toNat ≤ (s.die 0).clock then .next (s.remoteEnd r (some tREMTIME) [] false)
    else .next s

/-- The oldest outstanding request that a response matches by TAG, and that has not timed out: it comes within 64 µs of FTO; a
NACK may come from any device on the route (22 R421, R427, R428). -/
def State.answeredBy (s : State) (m : Msg) : Option Remote :=
  s.fabric.remote.find? fun r => !r.host && r.tag % 65536 == m.tag && (m.type == mNACK || r.pa / 2 ^ 40 == m.src) &&
    decide ((s.die 0).clock ≤ r.sent + usCycles * (s.dev.flinkto.toNat + 64))

/-- A type that no message has (22 R421). -/
def badType (m : Msg) : Bool := m.type == 0 || decide (12 < m.type)

/-- A flit of a reserved type is discarded, and recorded by the die that received it: which die a port belongs to is open, and so
a free value (22 R421; DESIGN CHOICE, log entry 156). -/
def State.badFlit (s : State) : State :=
  s.drawn.logError ((Config.freeWord s.free).toNat % 4) { ErrRec.blank 0x01 with struct := 19 }

/-- A route leads to a device: PRI, else ALT, has a port that is up; a withdrawn device has none (22 R424, R438). -/
def State.reachable (s : State) (dev : Nat) : Bool :=
  let e : Word := (lookupKey dev s.dev.froute).getD 0
  !s.fabric.withdrawn.contains dev && s.dev.fdevid != 0xFFF &&
  (!(upPorts s.openPorts (bitsOf e 0 16)).isEmpty || !(upPorts s.openPorts (bitsOf e 16 16)).isEmpty)

/-- Sends a message. -/
def State.sendMsg (s : State) (m : Msg) : State := { s with fabric := { s.fabric with sent := s.fabric.sent ++ [(s.portTo m, m)] } }

/-- An answer to a message. -/
def State.answerMsg (s : State) (m : Msg) (type code : Nat) (poison : Bool) (data : List Byte) : State :=
  s.sendMsg { type := type, poison := poison, last := true, src := s.dev.fdevid.toNat, dst := m.src, tag := m.tag, addr := m.addr,
              size := m.size, code := code, phase := m.phase, data := data }

/-- A message for another device is forwarded by the same table; one that cannot be is answered with NACK 5 (22 R424, R427). -/
def State.forwardMsg (s : State) (m : Msg) : State :=
  if s.reachable m.dst then s.sendMsg m else s.answerMsg m mNACK 5 false []

/-- The types of the answers to requests. -/
def isAnswer (m : Msg) : Bool :=
  m.type == mRDRESP || m.type == mWRACK || m.type == mATOMRESP || m.type == mNACK || m.type == mWDACK

/-- A message of the expected type for this device; others are forwarded or discarded. A device without a number refuses every
message: an answer is discarded, and of the rest those that R426 does not judge get the code that it gives (22 R423;
DESIGN CHOICE, log entry 156). -/
def State.receive (s : State) (m : Msg) (type : Nat) (f : State → State) : Out :=
  let judged := m.type == mRD || m.type == mWR || m.type == mATOM
  if badType m then .next s.badFlit
  else if m.type != type then .next s
  else if s.dev.fdevid == 0xFFF && !(judged && m.dst == 0xFFF) then
    .next (if isAnswer m then s else s.answerMsg m mNACK 4 false [])
  else if m.dst != s.dev.fdevid.toNat then .next (s.forwardMsg m)
  else .next (f s)

/-- A response that answers an outstanding request; a late one is discarded (22 R428). -/
def State.response (s : State) (m : Msg) (fail : Option (BitVec 8)) : State :=
  match s.answeredBy m with
  | none => s
  | some r => s.remoteEnd r fail m.data m.poison

/-- RDRESP (22 R429). -/
def execRdresp (m : Msg) (s : State) : Out := s.receive m mRDRESP fun s => s.response m none
/-- WRACK (22 R429). -/
def execWrack (m : Msg) (s : State) : Out := s.receive m mWRACK fun s => s.response { m with data := [], poison := false } none
/-- ATOMRESP (22 R429). -/
def execAtomresp (m : Msg) (s : State) : Out := s.receive m mATOMRESP fun s => s.response m none

/-- FABRIC_TIMEOUT: a request is not answered within FTO microseconds (22 R428). -/
def execFabricTimeout (tag : Nat) (s : State) : Out :=
  match s.fabric.remote.find? fun r => !r.host && r.tag == tag with
  | none => .next s
  | some r =>
    if r.sent + usCycles * s.dev.flinkto.toNat ≤ (s.die 0).clock then .next (s.remoteEnd r (some tREMTIME) [] false)
    else .next s

/-! ### At the target (22 R425, R426) -/

/-- A window covers every byte of an access by a device. -/
def windowCovers (ctl lim : BitVec 64) (src addr n : Nat) : Bool :=
  bitOf ctl 63 && (bitsOf ctl 40 12 == 0xFFF || (bitsOf ctl 40 12).toNat == src) &&
  decide ((bitsOf ctl 16 24).toNat * 65536 ≤ addr) && decide (addr + n ≤ ((bitsOf lim 16 24).toNat + 1) * 65536)

/-- The windows' CTL words that cover an access. -/
def State.windows (s : State) (src addr n : Nat) : List (BitVec 64) :=
  (List.range 16).filterMap fun k =>
    let ctl := (lookupKey k s.dev.fwinCtl).getD 0
    if windowCovers ctl ((lookupKey k s.dev.fwinLim).getD 0) src addr n then some ctl else none

/-- The phases of an eviction from the drain on (22 R438). -/
def EvictPhase.drains (p : EvictPhase) : Bool := p != .stop

/-- The NACK code of a request that needs the right of a CTL bit; none when it passes. -/
def State.refuses (s : State) (m : Msg) (right : Nat) : Option Nat :=
  if s.dev.bstate != 5 || s.dev.fdevid == 0xFFF || s.dev.eviction.any (fun e => e.phase.drains) then some 4
  else if !inTier 0 m.addr m.size then some 3
  else
    let ws := s.windows m.src m.addr m.size
    if ws.isEmpty then some 1 else if ws.any fun c => bitOf c right then none else some 2

/-- A request is judged, by the bytes of `span`, and performed at the target's home; or refused and recorded. -/
def State.serve (s : State) (m span : Msg) (right : Nat) (f : State → State) : State :=
  match s.refuses span right with
  | some c =>
    (s.logError (m.addr / 2 ^ 38 % 4)
      { ErrRec.blank 0x10 with struct := 19, index := c * 4096 + m.src, addr := m.addr }).answerMsg m mNACK c false []
  | none => f s

/-- RD: a peer reads (22 R426). -/
def execRd (m : Msg) (s : State) : Out :=
  s.receive m mRD fun s => s.serve m m 62 fun s =>
    s.answerMsg m mRDRESP 0 (s.mem.poisonedN m.addr m.size) (s.mem.readN m.addr m.size)

/-- WR: a peer writes; the tags of the granules are cleared (22 R426, 15 R301). -/
def execWr (m : Msg) (s : State) : Out :=
  s.receive m mWR fun s => s.serve m m 61 fun s =>
    (({ s with mem := s.mem.write m.addr ((m.data ++ List.replicate m.size 0).take m.size) m.poison } : State).answerMsg
      m mWRACK 0 false []).wakeAll

/-- The operation and operands of an ATOM message. -/
def atomOf (m : Msg) : Option (AtomOp × LaneRmw) :=
  let wide := m.size == 8
  let op : Option AtomOp := match (m.data.head?).elim 5 (·.toNat) with
    | 0 => some (.i32 m.code)
    | 1 => some (.i64 m.code)
    | 2 => some (.f32 m.code)
    | 3 => some (.cas wide)
    | 4 => some (.xchg wide)
    | _ => none
  op.map fun op =>
    let n := op.bytes
    (op, ⟨0, m.addr, m.addr, BitVec.ofNat 64 (bytesNat ((m.data.drop 1).take n)),
      BitVec.ofNat 64 (bytesNat ((m.data.drop (1 + n)).take n))⟩)

/-- Answers an ATOM with what its bytes held before its transfer. -/
def State.answerAtom (s : State) (was : Memory) (m : Msg) : State :=
  s.answerMsg m mATOMRESP 0 (was.poisonedN m.addr m.size) (was.readN m.addr m.size)

/-- Performs a peer's read-modify-write. -/
def State.performAtom (s : State) (m : Msg) : State :=
  match atomOf m with
  | none => s
  | some (op, l) => ({ s with mem := (s.mem.performRmw op l).2 } : State).answerAtom s.mem m

/-- A little-endian field of a message's data. -/
def dataAt (bs : List Byte) (pos n : Nat) : Nat := bytesNat ((bs.drop pos).take n)

/-- Registers in a message. -/
def regsAt (bs : List Byte) (pos n : Nat) : List Reg :=
  (List.range n).map fun i => ⟨BitVec.ofNat 32 (dataAt bs (pos + 5 * i) 4), dataAt bs (pos + 5 * i + 4) 1 == 1⟩

/-- Words in a message. -/
def wordsAt (bs : List Byte) (pos n : Nat) : List Word := (List.range n).map fun i => BitVec.ofNat 32 (dataAt bs (pos + 4 * i) 4)

/-- The operation of a number in a message. -/
def softOfCode (c : Nat) : SoftOp :=
  match c with
  | 0 => .sld
  | 1 => .sst false
  | 2 => .sst true
  | 3 => .sldg
  | 4 => .sstg false
  | 5 => .sstg true
  | 6 => .tape
  | 7 => .grad
  | _ => .back

/-- The steps that the operands of a transfer name, on the region at an address. -/
def softOf (addr : Nat) (bs : List Byte) : SoftOp × List LaneSoft :=
  let op := softOfCode (dataAt bs 0 1)
  let n := dataAt bs 1 1
  let k := dataAt bs 2 1
  let size := 4 * n + 4 * k + 5 * op.carried n k
  (op, (List.range (dataAt bs 3 1)).map fun i =>
    let p := 4 + i * size
    { lane := i, addr := addr, va := addr, addr2 := none, va2 := 0, n := n, k := k, weights := wordsAt bs p n,
      vals := wordsAt bs (p + 4 * n) k, carry := regsAt bs (p + 4 * n + 4 * k) (op.carried n k) })

/-- The class of an ATOM: its first byte. -/
def atomClass (m : Msg) : Nat := (m.data.head?).elim 255 (·.toNat)

/-- The region that a message of a soft transfer belongs to: where it starts, and its bytes. -/
def softSpan (m : Msg) : Nat × Nat := (m.addr - dataAt m.data 1 2, dataAt m.data 3 2)

/-- Performs a transfer of ATOMs from a peer as one step: a soft step, an element of a command, or read-modify-writes of one
address (22 R426). -/
def State.performTransfer (s : State) (ms : List Msg) : State :=
  match ms with
  | [] => s
  | m :: _ =>
    match atomClass m with
    | 5 =>
      let q := softOf (softSpan m).1 (m.data.drop 5)
      ms.foldl (fun t y => t.answerAtom s.mem y) { s with mem := (Memory.softLanes q.1 q.2 s.mem).2 }
    | 6 =>
      let xs := regsAt m.data 10 ((m.data.length - 10) / 5)
      let e := mscElement (dataAt m.data 1 1) (BitVec.ofNat 32 (dataAt m.data 2 4)) (BitVec.ofNat 32 (dataAt m.data 6 4)) xs
        ((s.mem.region m.addr 1).headD ⟨0, false⟩)
      ({ s with mem := s.mem.performStores (slotStores m.addr m.addr [e]) } : State).answerAtom s.mem m
    | _ => ms.foldl State.performAtom s

/-- What a window must cover for a message: its own bytes, or the region of its transfer. -/
def judged (m : Msg) : Msg := if atomClass m == 5 then { m with addr := (softSpan m).1, size := (softSpan m).2 } else m

/-- ATOM: a peer's read-modify-write, soft step or element of a command, performed at the service group (22 R425, R426). The
messages of a transfer are performed together when its last one is there: a soft step, and lanes of one instruction that name
one address, have nothing between them (06 R162, 07 R191, 22 R421). -/
def execAtom (m : Msg) (s : State) : Out :=
  s.receive m mATOM fun s => s.serve m (judged m) 60 fun s =>
    if !m.last then { s with fabric := { s.fabric with received := s.fabric.received ++ [m] } }
    else
      let first (y : Msg) : Bool := y.type == mATOM && y.src == m.src && (judged y).addr == (judged m).addr &&
        (atomClass y == 5) == (atomClass m == 5)
      let s' : State := { s with fabric := { s.fabric with received := s.fabric.received.filter fun y => !first y } }
      (s'.performTransfer (s.fabric.received.filter first ++ [m])).wakeAll

end Sys2Proof.Machine
end

