-- ==== Sys2Proof/Machine/Fabric.lean ====
section
/-!
DEFINITION. Refusals that reach the initiator (22 R427, R429), the barrier tree and barriers across devices
(11 R271, R272, 22 R432, R433), and the messages of an eviction (22 R437 to R440).
-/

namespace Sys2Proof.Machine

open Sys2Proof

/-! ### The barrier tree and barriers across devices -/

/-- ROOT, NMEM and FBTO of a descriptor (22 R432). -/
def fbdRoot (d : BitVec 64) : Nat := (bitsOf d 51 12).toNat
/-- NMEM. -/
def fbdMembers (d : BitVec 64) : Nat := (bitsOf d 32 8).toNat
/-- FBTO, in microseconds. -/
def fbdTimeout (d : BitVec 64) : Nat := (bitsOf d 0 32).toNat

/-- A tree number of a launch. -/
def State.tree? (s : State) (launch n : Nat) : Option TreeUse :=
  (s.launch? launch).bind fun l => l.trees.find? fun t => t.n == n

/-- Changes a tree number of a launch. -/
def State.modTree (s : State) (launch n : Nat) (f : TreeUse → TreeUse) : State :=
  s.modLaunch launch fun l => { l with trees := l.trees.map fun t => if t.n == n then f t else t }

/-- The launch, tree number and descriptor of a barrier across devices that is in force. -/
def State.fabricBarrier (s : State) (n : Nat) : Option (Launch × TreeUse × BitVec 64) :=
  s.cp.launches.findSome? fun l =>
    (s.fbdOf l.id n).bind fun d => (l.trees.find? fun t => t.n == n).map fun t => (l, t, d)

/-- Every block of a launch is resident (11 R271). -/
def Launch.whole (l : Launch) : Bool := l.state == .running && l.pendingBands.isEmpty

/-- The waiters of a tree number go on (11 R272, 22 R433). -/
def State.releaseTree (s : State) (launch n : Nat) : State :=
  (s.releaseBarrier (.tree launch n)).modTree launch n fun t => { t with since := none }

/-- Devices counted for a phase. -/
def State.arrivalsOf (s : State) (n phase : Nat) : List Nat :=
  (s.fabric.arrives.filterMap fun a => if a.1 == n && a.2.1 == phase then some a.2.2 else none).eraseDups

/-- Counts an ARRIVE. -/
def State.countArrive (s : State) (n phase dev : Nat) : State :=
  if s.fabric.arrives.contains (n, phase, dev) then s
  else { s with fabric := { s.fabric with arrives := s.fabric.arrives ++ [(n, phase, dev)] } }

/-- Forgets the ARRIVEs of a phase. -/
def State.forgetArrives (s : State) (n phase : Nat) : State :=
  { s with fabric := { s.fabric with arrives := s.fabric.arrives.filter fun a => !(a.1 == n && a.2.1 == phase) } }

/-- A barrier message. -/
def State.barrierMsg (s : State) (type dst n phase : Nat) : State :=
  ({ s with fabric := { s.fabric with nextTag := s.fabric.nextTag + 1 } } : State).sendMsg
    { type := type, poison := false, last := true, src := s.dev.fdevid.toNat, dst := dst,
      tag := s.fabric.nextTag % 65536, addr := 0, size := 1, code := n, phase := phase, data := [] }

/-- The phase is abandoned on this device: every waiting group traps at its `tbar`, with TVAL holding ROOT (22 R433). -/
def State.abandonPhase (s : State) (l : Launch) (t : TreeUse) (d : BitVec 64) (code : BitVec 8) : State :=
  let b : BarKey := .tree l.id t.n
  let s := t.arrived.foldl (fun s k => s.trapAtBarrier k b code (BitVec.ofNat 64 (fbdRoot d))) s
  (s.forgetArrives t.n t.phase).modTree l.id t.n fun t =>
    { t with phase := (t.phase + 1) % 2 ^ 32, arrived := [], since := none }

/-- The root, complete itself, has counted NMEM ARRIVEs of the phase: RELEASE to each device that sent one, itself among them;
one that cannot be reached is a NACK at once, which abandons the phase here (22 R424, R433). -/
def State.rootCheck (s : State) (l : Launch) (t : TreeUse) (d : BitVec 64) : State :=
  let devs := s.arrivalsOf t.n t.phase
  let self := s.dev.fdevid.toNat
  let peers := devs.filter (· != self)
  if devs.length < fbdMembers d then s
  else
    let s := (peers.filter s.reachable).foldl (fun s dev => s.barrierMsg mRELEASE dev t.n t.phase) (s.forgetArrives t.n t.phase)
    if peers.all s.reachable then
      { s with fabric := { s.fabric with received := s.fabric.received ++
        [{ type := mRELEASE, poison := false, last := true, src := self, dst := self, tag := 0, addr := 0, size := 1, code := t.n,
           phase := t.phase, data := [] }] } }
    else s.abandonPhase l t d tREMFAULT

/-- The package's tree completes a phase of a barrier across devices: ARRIVE goes to ROOT, which counts itself (22 R433);
an unreachable root is a NACK at once (22 R424). -/
def State.completeLocal (s : State) (l : Launch) (t : TreeUse) (d : BitVec 64) : State :=
  let root := fbdRoot d
  let s' := s.modTree l.id t.n fun t => { t with since := some (s.die 0).clock }
  if root == s.dev.fdevid.toNat then (s'.countArrive t.n t.phase root).rootCheck l t d
  else if s.reachable root then s'.barrierMsg mARRIVE root t.n t.phase
  else s.abandonPhase l t d tREMFAULT

/-- A RELEASE of the phase that came while the launch was not resident, or that the root sent to itself. -/
def State.releaseKept (s : State) (t : TreeUse) (d : BitVec 64) : Bool :=
  s.fabric.received.any fun m => m.type == mRELEASE && m.code == t.n && m.phase == t.phase && m.src == fbdRoot d

/-- TREE_COMPLETE: every group of the launch that has not ended has arrived (11 R272). -/
def execTreeComplete (launch n : Nat) (s : State) : Out :=
  match s.launch? launch, s.tree? launch n with
  | some l, some t =>
    if !l.whole || !s.barDone (.tree launch n) t.arrived none then .next s
    else
      match s.fbdOf launch n, t.since with
      | none, _ => .next (s.releaseTree launch n).wake
      | some d, none => .next (s.completeLocal l t d).wake
      | some d, some _ => if s.releaseKept t d then .next (s.releaseTree launch n).wake else .next s
  | _, _ => .next s

/-- ARRIVE: the root counts it (22 R433). -/
def execArrive (m : Msg) (s : State) : Out :=
  s.receive m mARRIVE fun s =>
    let s := s.countArrive m.code m.phase m.src
    match s.fabricBarrier m.code with
    | some (l, t, d) =>
      if fbdRoot d == s.dev.fdevid.toNat && t.since.isSome && t.phase == m.phase then (s.rootCheck l t d).wake else s
    | none => s

/-- RELEASE: the waiters of the phase go on (22 R433). -/
def execRelease (m : Msg) (s : State) : Out :=
  s.receive m mRELEASE fun s =>
    match s.fabricBarrier m.code with
    | some (l, t, d) =>
      if fbdRoot d != m.src || t.since.isNone || t.phase != m.phase then s
      else if l.whole then (s.releaseTree l.id t.n).wake
      else { s with fabric := { s.fabric with received := s.fabric.received ++ [m] } }
    | none => s

/-- FABRIC_BARRIER_TIMEOUT: a device has waited FBTO since its own completion (22 R433). -/
def execFabricBarrierTimeout (launch n : Nat) (s : State) : Out :=
  match s.launch? launch, s.tree? launch n, s.fbdOf launch n with
  | some l, some t, some d =>
    match t.since with
    | some c =>
      if fbdTimeout d != 0 && l.whole && decide (c + usCycles * fbdTimeout d ≤ (s.die 0).clock) then
        .next (s.abandonPhase l t d tREMTIME).wake
      else .next s
    | none => .next s
  | _, _, _ => .next s

/-! ### Service requests and eviction messages -/

/-- A service request is raised and recorded (19 R396, R399, 20 R413). -/
def State.serviceRequest (s : State) (die struct : Nat) : State :=
  (s.modDev fun d => { d with svcreq := true }).logError die { ErrRec.blank 0x07 with struct := struct }

/-- The eviction fails, and its command with it: the state stays, launches stay drained, and a service request is raised
(22 R440). -/
def State.evictFail (s : State) : State :=
  let node := s.dev.eviction.bind (·.node)
  let s := (s.modDev fun d => { d with eviction := d.eviction.map fun e => { e with phase := .failed, node := none } }).serviceRequest 0 0
  match node with
  | some k => s.failNode k
  | none => s

/-- A NACK: a request ends with REMFAULT, a barrier's phase is abandoned, a refused stream fails the eviction
(22 R427, R429, R433, R440). -/
def State.nackIn (s : State) (m : Msg) : State :=
  match s.answeredBy m with
  | some r => s.remoteEnd r (some tREMFAULT) [] false
  | none =>
    match (s.fabric.sent.reverse.map (·.2)).find? fun y => y.tag == m.tag && (y.type == mARRIVE || y.type == mRELEASE || y.type == mEVSTREAM) with
    | none => s
    | some y =>
      if y.type == mEVSTREAM then (if s.dev.eviction.any fun e => e.phase == .stream || e.phase == .routes then s.evictFail else s)
      else
        match s.fabricBarrier y.code with
        | some (l, t, d) => if t.since.isSome && t.phase == y.phase then (s.abandonPhase l t d tREMFAULT).wake else s
        | none => s

/-- NACK (22 R427). -/
def execNack (m : Msg) (s : State) : Out := s.receive m mNACK fun s => s.nackIn m

/-- WITHDRAW: the device answers, and routes no more to or through the one that evicts (22 R438). -/
def execWithdraw (m : Msg) (s : State) : Out :=
  s.receive m mWITHDRAW fun s =>
    let s := s.answerMsg m mWDACK 0 false []
    { s with fabric := { s.fabric with withdrawn := putNat m.src s.fabric.withdrawn } }

/-- WDACK: a link partner has withdrawn its routes (22 R438). -/
def execWdack (m : Msg) (s : State) : Out :=
  s.receive m mWDACK fun s =>
    s.modDev fun d => { d with eviction := d.eviction.map fun e => { e with partners := e.partners.filter (· != m.src) } }

end Sys2Proof.Machine
end

