-- ==== Sys2Proof/Machine/Plan.lean ====
section
/-!
DEFINITION. The placement engine's plans: what a plan may do with a launch's ranges (18 R361 to R371), the pages it moves
(18 R365) and the LLC range registers it sets (15 R303, R305, 18 R368).
-/

namespace Sys2Proof.Machine

open Sys2Proof

/-! ### LLC range registers (15 R303, R305) -/

/-- EN, BASE, LIMIT and WAYS of a range register. -/
def lrEn (ctl : BitVec 64) : Bool := bitOf ctl 63
/-- The first frame. -/
def lrBase (ctl : BitVec 64) : Nat := (bitsOf ctl 16 36).toNat
/-- The last frame. -/
def lrLimit (lim : BitVec 64) : Nat := (bitsOf lim 16 36).toNat
/-- The ways. -/
def lrWays (ctl : BitVec 64) : Nat := (bitsOf ctl 0 5).toNat

/-- A write to CTL: reserved bits stay 0, and a RATIO above 8 leaves the field. -/
def lrCtl (old v : BitVec 64) : BitVec 64 :=
  let ratio : BitVec 4 := if (bitsOf v 52 4).toNat ≤ 8 then bitsOf v 52 4 else bitsOf old 52 4
  (v &&& 0x800FFFFFFFFF001F#64 &&& ~~~(0x00F0000000000000#64)) ||| (ratio.setWidth 64 <<< 52)

/-- A write to LIM. -/
def lrLim (v : BitVec 64) : BitVec 64 := v &&& 0x000FFFFFFFFF0000

/-- The ways that ranges may reserve on a die: one fewer per way retired in its slices (15 R305, 19 R394). -/
def State.wayBudget (s : State) (die : Nat) : Nat :=
  12 - ((s.repair.spares.filter fun x => x.1 == 8 && x.2.1 / 16 == die).foldl (fun m x => m + x.2.2) 0)

/-- The enabled ranges keep the limits. -/
def rangesOk (budget : Nat) (ctl lim : List (BitVec 64)) : Bool :=
  let on := (ctl.zip lim).filter fun p => lrEn p.1
  decide (on.foldl (fun n p => n + lrWays p.1) 0 ≤ budget) &&
  on.all (fun p => decide (lrBase p.1 ≤ lrLimit p.2)) &&
  on.zipIdx.all fun a => on.zipIdx.all fun b =>
    a.2 == b.2 || decide (lrLimit a.1.2 < lrBase b.1.1) || decide (lrLimit b.1.2 < lrBase a.1.1)

/-- Sets a range register pair of a die, unless the limits would break. -/
def State.setRange (s : State) (die n : Nat) (ctl lim : BitVec 64) : Option State :=
  let d := s.die die
  let ctls := d.lctl.set n ctl
  let lims := d.llim.set n lim
  if rangesOk (s.wayBudget die) ctls lims then some (s.modDie die fun d => { d with lctl := ctls, llim := lims }) else none

/-! ### Ranges -/

/-- Bytes of a range's allocation (18 R362). -/
def RangeEntry.alloc (r : RangeEntry) : Nat :=
  let l := encodeLength r.len
  (l.2 + 1) * 2 ^ l.1

/-- A range whose image is copied before dispatch. -/
def RangeEntry.filled (r : RangeEntry) : Bool := r.img != 0 && !r.lazy

/-- The die that holds the most bytes of the slices of a band's lowest block; ties take die ⌊4b ÷ NBLOCKS⌋ (18 R370). -/
def State.preferredDie (s : State) (l : Launch) (band : Nat) : Nat :=
  let b := band * l.band
  let root := (s.ctx? l.ctx).elim 0 (·.root)
  let bytes (d : Nat) : Nat := (l.ranges.filter fun r => r.slice != 0).foldl (fun n r =>
    let lo := r.va + b * r.slice
    (pagesOf lo r.slice).foldl (fun n p =>
      match s.frameKey root p with
      | some (k, e) =>
        if leafTier e ≤ 1 && keyPa k / 2 ^ 38 % 4 == d then n + (min (lo + r.slice) (p + 65536) - max lo p) else n
      | none => n) n) 0
  let counts := (List.range 4).map bytes
  let best := counts.foldl max 0
  if best == 0 || decide (1 < (counts.filter (· == best)).length) then 4 * b / l.nblocks % 4
  else (counts.findIdx? (· == best)).getD 0

/-! ### Far pieces -/

/-- The numbers under which a launch's accesses stand. -/
def launchAccess (launch k : Nat) : Nat := 2 ^ 36 + 1024 * launch + k

/-- Reads pieces (key, bytes): the bytes of each, its poison, and whether its access failed; none while one waits, for an answer or
for a bank of the weight store that is being refreshed (15 R313). A piece that failed is zeros, poisoned. -/
def State.readFar (s : State) (id : Nat) (ps : List (Nat × Nat)) : Option (List (List Byte × Bool × Bool)) × State :=
  if ps.any fun p => s.refreshing p.1 p.2 then (none, s)
  else
    let far := ps.filter fun p => decide (2 ≤ keyTier p.1)
    let r := s.farAll id (far.map fun p => ⟨p.1, p.2, mRD, 0, []⟩)
    match r.1 with
    | none => (none, r.2)
    | some as =>
      (some (ps.map fun p =>
        if 2 ≤ keyTier p.1 then
          match (as.find? fun a => a.key == p.1).filter (·.fail.isNone) with
          | some a => (a.data, a.poison, false)
          | none => (List.replicate p.2 0, true, true)
        else (s.mem.readN p.1 p.2, s.mem.poisonedN p.1 p.2, false)), r.2)

/-- Reads pieces, each with its poison. -/
def State.readEach (s : State) (id : Nat) (ps : List (Nat × Nat)) : Option (List (List Byte × Bool)) × State :=
  let r := s.readFar id ps
  (r.1.map fun l => l.map fun a => (a.1, a.2.1), r.2)

/-- Takes pieces up to a number of bytes. -/
def takePieces : Nat → List (List Byte × Bool) → List (List Byte × Bool) × List (List Byte × Bool)
  | _, [] => ([], [])
  | n, p :: t =>
    if n == 0 then ([], p :: t)
    else
      let q := takePieces (n - p.1.length) t
      (p :: q.1, q.2)

/-! ### What a plan does -/

/-- Die `d`'s root table for a placement. -/
def planRoot (p : PlacePlan) (c : Context) (d : Nat) : Nat := (lookupKey d p.roots).getD c.root

/-- The wires that are bound: the free ones, lowest first, to the numbers in rising order (18 R371). -/
def State.bindWires (s : State) (trees : List Nat) : List (Nat × Nat) := trees.zip s.freeWires

/-- The range registers that a plan sets keep the limits. -/
def State.planRanges (s : State) (rs : List (Nat × Nat × BitVec 64 × BitVec 64)) : Option State :=
  rs.foldl (fun (acc : Option State) r => acc.bind fun s =>
    if 4 ≤ r.1 || 8 ≤ r.2.1 then none
    else s.setRange r.1 r.2.1 (lrCtl ((s.die r.1).lctl[r.2.1]?.getD 0) r.2.2.1) (lrLim r.2.2.2)) (some s)

/-- What a plan's range registers held before. -/
def State.oldRanges (s : State) (rs : List (Nat × Nat × BitVec 64 × BitVec 64)) : List (Nat × Nat × BitVec 64 × BitVec 64) :=
  rs.map fun r => (r.1, r.2.1, (s.die r.1).lctl[r.2.1]?.getD 0, (s.die r.1).llim[r.2.1]?.getD 0)

/-- The leaves that a plan writes, and each die's root table; every port drops its old translations (18 R364, R365). -/
def State.planTables (s : State) (p : PlacePlan) (c : Context) : State :=
  let mem := p.leaves.foldl (fun (m : Memory) q => m.putEntry q.pa q.val) s.mem
  let install (d : Die × Nat) : Die := { d.1 with desc := putKey c.num (planRoot p c d.2) d.1.desc }
  ({ s with mem := mem, dies := s.dies.zipIdx.map install } : State).invalidate c.num none

/-- The pieces of the host's and peers' pages that a plan moves. -/
def farCopyPieces (cs : List FrameCopy) : List (Nat × Nat) :=
  (cs.filter fun q => 2 ≤ keyTier q.src).flatMap fun q =>
    (List.range (ceilDiv q.len 128)).map fun i => (q.src + 128 * i, min 128 (q.len - 128 * i))

/-- Performs a plan's copies into this device's memory, the far ones with the bytes that were read for them. -/
def Memory.planCopies (m : Memory) (cs : List FrameCopy) (far : List (List Byte × Bool)) : Memory :=
  (cs.foldl (fun (acc : Memory × List (List Byte × Bool)) q =>
    if keyTier q.src < 2 then (if 2 ≤ keyTier q.dst then acc.1 else acc.1.copyFrame q.dst q.src q.len, acc.2)
    else
      let t := takePieces q.len acc.2
      if 2 ≤ keyTier q.dst then (acc.1, t.2)
      else
        let m := acc.1.fillFrame q.dst (t.1.flatMap (·.1))
        (t.1.zipIdx.foldl (fun (y : Memory) w => if w.1.2 then y.spoil (q.dst + 128 * w.2) w.1.1.length else y) m, t.2)) (m, far)).1

/-- The pieces that a plan's copies write to the host. -/
def Memory.spills (m : Memory) (cs : List FrameCopy) (far : List (List Byte × Bool)) : List (Nat × List Byte × Bool) :=
  (cs.foldl (fun (acc : List (Nat × List Byte × Bool) × List (List Byte × Bool)) q =>
    let t := if keyTier q.src < 2 then ([], acc.2) else takePieces q.len acc.2
    let parts := if keyTier q.src < 2 then
        (List.range (q.len / 128)).map fun i => (m.readN (q.src + 128 * i) 128, m.poisonedN (q.src + 128 * i) 128)
      else t.1
    (if 2 ≤ keyTier q.dst then acc.1 ++ parts.zipIdx.map fun w => (q.dst + 128 * w.2, w.1) else acc.1, t.2)) ([], far)).1

/-! ### What a plan may do

`s` is the machine before the plan, `t` with the plan's tables, and `room` tells in which die's HBM (tier 0) or weight store (tier 1)
there is room for a page beside all that the plan places: a page stays where it is, or goes to the host tier, only where the dies
that the table names have none (18 R365, R366). -/

/-- A copy of the plan takes one frame's page to another. -/
def movesFrame (p : PlacePlan) (k k' : Nat) : Bool :=
  p.copies.any fun q => decide (q.src ≤ k) && decide (k + 65536 ≤ q.src + q.len) && q.dst + (k - q.src) == k'

/-- Fields of two leaves that moving a page keeps: software's and the protection key, KEYED, SNAP, W and R. -/
def sameRights (e e' : BitVec 64) : Bool := e &&& 0xFFF00000000000CC == e' &&& 0xFFF00000000000CC

/-- A launch of the context runs. -/
def State.ctxRuns (s : State) (ctx : Nat) : Bool := s.cp.launches.any fun l => l.ctx == ctx && (l.state == .running || l.state == .draining)

/-- The bands of a launch by the die that they prefer (18 R364, step 1, R370). -/
def State.bandDies (s : State) (l : Launch) : List Nat := (List.range (l.nblocks / l.band)).map (s.preferredDie l)

/-- The die that runs the most of a launch's blocks: of several, the lowest (18 R366). -/
def mainDie (dies : List Nat) : Nat :=
  (List.range 4).foldl (fun best d => if dies.count best < dies.count d then d else best) 0

/-- The dies whose HBM a page of a written range goes to: those of the blocks whose slices it holds, or the main one (18 R366). -/
def pageDies (l : Launch) (dies : List Nat) (r : RangeEntry) (page : Nat) : List Nat :=
  let lo := (max page r.va - r.va) / r.slice
  let hi := (page + 65535 - r.va) / r.slice
  let mine := ((rangeFrom lo (hi - lo + 1)).filter (· < l.nblocks)).filterMap fun b => dies[b / l.band]?
  if r.slice == 0 || r.reuse == 3 || mine.isEmpty then [mainDie dies] else mine

/-- The dies whose HBM the table names for a page that stands in a tier; none, when it stays where it is (18 R366). -/
def goalDies (l : Launch) (dies : List Nat) (r : RangeEntry) (page tier : Nat) : Option (List Nat) :=
  if r.use == 1 then (if r.reuse == 0 && decide (2 ≤ tier) then some [mainDie dies] else none)
  else if r.reuse == 1 && decide (2 ≤ tier) then none
  else some (pageDies l dies r page)

/-- Where a page of a range stands after the plan, in the primary tables (18 R365, R366, R369). With `fill` the range's image is
copied into fresh frames: before dispatch, or page by page of a lazy range, whose pages are then not mapped yet. -/
def State.primaryOk (s t : State) (p : PlacePlan) (c : Context) (l : Launch) (room : Nat → Nat → Bool) (fill : Bool) (r : RangeEntry)
    (page : Nat) : Bool :=
  let dies := s.bandDies l
  let placed (ds : List Nat) (k' : Nat) : Bool := ds.any (inHbm k') || (!ds.any (room 0) && (keyTier k' == 0 || keyTier k' == 2))
  match s.frameKey c.root page, t.frameKey c.root page with
  | pre, some (k', e') =>
    let fresh := !s.frameUsed k' 65536
    if fill && r.img != 0 then
      !r.lazy && fresh && (match goalDies l dies r page 0 with
        | some ds => placed ds k'
        | none => keyTier k' == 0 || (keyTier k' == 2 && !(r.reuse == 0 && room 0 (mainDie dies))))
    else
      pre.any fun q => sameRights q.2 e' &&
        match goalDies l dies r page (keyTier q.1) with
        | none => q.1 == k'
        | some ds =>
          if q.1 == k' then ds.any (inHbm k') || !ds.any (room 0)
          else movesFrame p q.1 k' && fresh && placed ds k'
  | pre, none => if fill && r.img != 0 then r.lazy else pre.isNone

/-- What a die's tables hold for a page of a range: the primary's frame, or a copy of its own: in the weight store for `keep`
when no launch of the context runs, else in its HBM; each die of the launch has one, while there is room. Where some die has a copy,
the others' leaves of the primary's frame are marked as copies are, so that the first write meets the snapshot fault
(18 R366, R367). -/
def State.copyOk (s t : State) (p : PlacePlan) (c : Context) (l : Launch) (room : Nat → Nat → Bool) (r : RangeEntry) (page d : Nat) :
    Bool :=
  match t.frameKey c.root page, t.frameKey (planRoot p c d) page with
  | none, q => q.isNone
  | some _, none => false
  | some (k, e), some (k', e') =>
    let old := (lookupKey c.num (s.die d).desc).getD c.root
    let tier := if r.reuse == 2 && !s.ctxRuns c.num then 1 else 0
    let wanted := r.use == 1 && decide (2 ≤ r.reuse) && (s.bandDies l).contains d
    let copied := (List.range 4).any fun y => (t.frameKey (planRoot p c y) page).any fun q => leafCopy q.2 && q.1 != k
    let marked := leafCopy e' && leafSnap e' && leafR e' == leafR e && leafW e' == leafW e && leafPk e' == leafPk e
    if k' == k then
      (if copied then marked else !leafCopy e') && (!wanted || (tier == 0 && inHbm k d) || !room tier d)
    else if (s.frameKey old page).any fun q => q.1 == k' && leafCopy q.2 then true
    else
      wanted && marked && keyPa k' / 2 ^ 38 % 4 == d && keyTier k' == tier && !s.frameUsed k' 65536 && movesFrame p k k'

/-- The pages of a launch's ranges, each with the last range in record order that holds it (18 R364, step 2). -/
def rangePages (rs : List RangeEntry) : List (RangeEntry × Nat) :=
  rs.zipIdx.flatMap fun q => ((pagesOf q.1.va q.1.alloc).filter fun page =>
    !((rs.drop (q.2 + 1)).any fun r => overlaps (r.va, r.alloc) page 65536)).map fun page => (q.1, page)

/-- Outside the launch's ranges and its argument page a plan changes no translation. -/
def State.elsewhereKept (s t : State) (p : PlacePlan) (c : Context) (l : Launch) : Bool :=
  let outside (va n : Nat) : Bool :=
    !overlaps (p.argVa, 65536) va n && !(l.ranges.any fun r => overlaps (r.va / 65536 * 65536, ceilDiv (r.va % 65536 + r.alloc) 65536 * 65536) va n)
  let same (root root' : Nat) : Bool :=
    ((t.mem.mapping 2 root' 0).1.all fun q => !outside q.1 (levelSize q.2.1) ||
      [root, c.root].any fun o => (s.frameKey o q.1).any fun y => y.1 == leafKey q.2.2 && sameRights y.2 q.2.2) &&
    (s.mem.mapping 2 root 0).1.all fun q => !outside q.1 (levelSize q.2.1) || (t.frameKey root' q.1).isSome
  same c.root c.root && (List.range 4).all fun d => same ((lookupKey c.num (s.die d).desc).getD c.root) (planRoot p c d)

/-- A plan writes entries of the context's tables only, into frames that nothing uses, and the weight store only while no
launch of the context runs (15 R311, R314, R315). -/
def State.framesOk (s t : State) (p : PlacePlan) (c : Context) : Bool :=
  let roots := (c.root :: (List.range 4).map (planRoot p c)).eraseDups
  let tables := roots.flatMap fun root => (t.mem.mapping 2 root 0).2
  let mine := (roots ++ s.rootsOf c.num).flatMap fun root => (s.mem.mapping 2 root 0).2
  roots.all (fun r => r % 2 ^ 18 == 0 && inTier 0 r (2 ^ 18)) &&
  tables.all (fun q => mine.contains q || !s.frameUsed q.1 q.2) &&
  p.leaves.all (fun q => q.pa % 8 == 0 && tables.any fun y => decide (y.1 ≤ q.pa) && decide (q.pa < y.1 + y.2)) &&
  p.copies.zipIdx.all fun q =>
    q.1.len % 65536 == 0 && !s.frameUsed q.1.dst q.1.len && !(tables.any fun y => overlaps y q.1.dst q.1.len) &&
    !overlaps (p.argPa, 65536) q.1.dst q.1.len && !((p.copies.drop (q.2 + 1)).any fun y => overlaps (y.dst, y.len) q.1.dst q.1.len) &&
    (keyTier q.1.dst != 1 || !s.ctxRuns c.num)

/-- The argument page is mapped read-only in TIER 0 for every die, in a fresh frame and at an address that maps nothing, unless the
launch's attempt before had it there; of a launch that is placed again it stays where it is, or moves (18 R362). -/
def State.argPageOk (s t : State) (p : PlacePlan) (c : Context) (l : Launch) (again : Bool) : Bool :=
  let key := memKey 0 p.argPa
  p.argVa % 65536 == 0 && p.argPa % 65536 == 0 && inTier 0 p.argPa 65536 &&
  (c.root :: (List.range 4).map (planRoot p c)).all (fun root =>
    (t.frameKey root p.argVa).any fun q => q.1 == key && leafR q.2 && !leafW q.2) &&
  if again then (s.frameKey c.root p.argVa).any fun q => q.1 == key || (movesFrame p q.1 key && !s.frameUsed key 65536)
  else
    !s.frameUsed key 65536 && !s.lazyAt c.num p.argVa && !(l.ranges.any fun r => overlaps (r.va, r.alloc) p.argVa 65536) &&
    ((s.frameKey c.root p.argVa).isNone || (s.launch? l.id).any fun y => y.argVa == p.argVa)

/-- The frames that images are copied into are distinct, and none is the argument page, a copy's or a table's (18 R362, R369). -/
def State.fillsOk (t : State) (p : PlacePlan) (c : Context) (pages : List (RangeEntry × Nat)) : Bool :=
  let fills := (pages.filter fun q => q.1.filled).filterMap fun q => (t.frameKey c.root q.2).map (·.1)
  let tables := ((c.root :: (List.range 4).map (planRoot p c)).eraseDups).flatMap fun root => (t.mem.mapping 2 root 0).2
  fills.eraseDups.length == fills.length && fills.all fun k =>
    !overlaps (memKey 0 p.argPa, 65536) k 65536 && !(p.copies.any fun q => overlaps (q.dst, q.len) k 65536) &&
    !tables.any fun y => overlaps y k 65536

/-! ### The range registers that a placement sets (18 R368) -/

/-- RATIO. -/
def lrRatio (ctl : BitVec 64) : Nat := (bitsOf ctl 52 4).toNat

/-- The frames of a range on a die, as the die's tables give them. -/
def State.framesOn (s : State) (root die : Nat) (r : RangeEntry) : List Nat :=
  (pagesOf r.va r.alloc).filterMap fun page => (s.frameKey root page).bind fun q =>
    if keyTier q.1 ≤ 1 && keyPa q.1 / 2 ^ 38 % 4 == die then some q.1 else none

/-- Frames follow one another. -/
def contiguous (ks : List Nat) : Bool := (ks.zip (ks.drop 1)).all fun q => q.1 + 65536 == q.2

/-- The bytes of a range that lie on a die. -/
def State.bytesOn (s : State) (root die : Nat) (r : RangeEntry) : Nat :=
  (pagesOf r.va r.len).foldl (fun n page =>
    if (s.frameKey root page).any fun q => decide (keyTier q.1 ≤ 1) && keyPa q.1 / 2 ^ 38 % 4 == die then
      n + (min (r.va + r.len) (page + 65536) - max r.va page)
    else n) 0

/-- The registers of a die for a launch's ranges: BASE, LIMIT, WAYS and RATIO of each range marked `keep` or `shared`, in record
order while ways and registers last. A range that has a register keeps it; one whose pages stay scattered has none. -/
def State.wantedRanges (s t : State) (p : PlacePlan) (c : Context) (l : Launch) (d : Nat) : List (Nat × Nat × Nat × Nat) :=
  let die := s.die d
  let on := (die.lctl.zip die.llim).filter fun q => lrEn q.1
  let start := s.wayBudget d - on.foldl (fun n q => n + lrWays q.1) 0
  ((l.ranges.filter fun r => 2 ≤ r.reuse).foldl (fun (acc : List (Nat × Nat × Nat × Nat) × Nat × Nat) r =>
    let ks := t.framesOn (planRoot p c d) d r
    match ks.head?, ks.getLast? with
    | some a, some b =>
      let base := keyPa a / 65536
      let limit := keyPa b / 65536
      if !contiguous ks then acc
      else
        match on.find? fun q => lrBase q.1 == base && lrLimit q.2 == limit with
        | some q => (acc.1 ++ [(base, limit, lrWays q.1, lrRatio q.1)], acc.2)
        | none =>
          if acc.2.1 == 0 || acc.2.2 == 0 then acc
          else
            let bytes := t.bytesOn (planRoot p c d) d r
            let ways := min acc.2.1 (ceilDiv (ceilDiv bytes 16) (2 ^ 18))
            let ratio := ((List.range 9).find? fun n => decide (bytes ≤ 16 * 2 ^ n * (ways * 2 ^ 18))).getD 8
            (acc.1 ++ [(base, limit, ways, ratio)], acc.2.1 - ways, acc.2.2 - 1)
    | _, _ => acc) ([], start, 8 - on.length)).1

/-- The frames that a plan gives a range marked `keep` or `shared` on a die follow one another (18 R368). -/
def State.allocOk (s t : State) (p : PlacePlan) (c : Context) (l : Launch) (d : Nat) : Bool :=
  (l.ranges.filter fun r => 2 ≤ r.reuse).all fun r =>
    contiguous ((t.framesOn (planRoot p c d) d r).filter fun k => !s.frameUsed k 65536)

/-- A plan sets the registers that are wanted, in ones that are free or that the range has already. -/
def State.lrangesOk (s t : State) (p : PlacePlan) (c : Context) (l : Launch) : Bool :=
  p.lranges.all (fun r => decide (r.1 < 4)) && (List.range 4).all fun d =>
    let mine := p.lranges.filter fun r => r.1 == d
    let die := s.die d
    (mine.map fun r => (lrBase r.2.2.1, lrLimit r.2.2.2, lrWays r.2.2.1, lrRatio r.2.2.1)) == s.wantedRanges t p c l d &&
    (mine.map (·.2.1)).eraseDups.length == mine.length &&
    mine.all fun r => lrEn r.2.2.1 &&
      let ctl := die.lctl[r.2.1]?.getD 0
      !lrEn ctl || (lrBase ctl == lrBase r.2.2.1 && lrLimit (die.llim[r.2.1]?.getD 0) == lrLimit r.2.2.2)

/-- A plan keeps the rules of placement. With `again`, a saved launch is placed, whose images are not copied anew. -/
def State.planOk (s : State) (p : PlacePlan) (c : Context) (l : Launch) (again : Bool) : Bool :=
  let t := s.planTables p c
  let pages := rangePages l.ranges
  s.framesOk t p c && s.argPageOk t p c l again && s.elsewhereKept t p c l && s.lrangesOk t p c l &&
  (again || t.fillsOk p c pages) && (List.range 4).all (s.allocOk t p c l) && pages.all fun q =>
    s.primaryOk t p c l t.hasRoom (!again) q.1 q.2 && (List.range 4).all fun d => s.copyOk t p c l t.hasRoom q.1 q.2 d

/-! ### Moving pages (18 R365) -/

/-- Memory with the entries of a launch that placement has made invalid as they were. -/
def State.unmoved (s : State) (launch : Nat) : State :=
  { s with mem := (s.cp.moving.filter fun m => m.launch == launch).foldl (fun (m : Memory) q => m.putEntry q.addr q.entry) s.mem }

/-- The entries whose pages a plan moves: those that stand in a root's tables for a page of a range whose frame changes. -/
def State.planMoves (s : State) (p : PlacePlan) (c : Context) (l : Launch) (again : Bool) : List Moving :=
  let t := s.planTables p c
  let pages := ((rangePages l.ranges).filter fun q => again || q.1.img == 0).map (·.2)
  let moved := pages.filter fun page => match s.frameKey c.root page, t.frameKey c.root page with
    | some a, some b => a.1 != b.1
    | _, _ => false
  (moved.flatMap fun page => (s.rootsOf c.num).filterMap fun root => match walk s.mem page 2 root with
    | (.leaf a lvl e, _) =>
      if leafCopy e then none else some ⟨l.id, c.num, page / levelSize lvl * levelSize lvl, levelSize lvl, a, e⟩
    | _ => none).eraseDups

/-- The entries become invalid, and every port drops its translations: accesses to the pages wait (18 R365, step 1). -/
def State.startMoving (s : State) (ms : List Moving) : State :=
  let mem := ms.foldl (fun (m : Memory) q => m.putEntry q.addr (q.entry &&& ~~~1)) s.mem
  let s := ({ s with mem := mem } : State).modCp fun c => { c with moving := c.moving ++ ms }
  ms.foldl (fun (s : State) q => s.invalidate q.ctx none) s

/-- An access that was translated before still goes to a frame that a plan moves (15 R321). -/
def State.frameBusy (s : State) (p : PlacePlan) : Bool :=
  p.copies.any fun q =>
    (s.homes.any fun r => r.body.spans.any fun y => overlaps y q.src q.len) ||
    s.fabric.remote.any fun r => decide (2 ≤ keyTier q.src) && r.host == (keyTier q.src == 2) && overlaps (r.pa, r.size) (keyPa q.src) q.len &&
      (match r.for' with
        | .op id _ => id / 2 ^ 36 == 0
        | _ => true)

/-- A weight-store bank that a plan's copies reach is being refreshed (15 R313). -/
def State.copiesStall (s : State) (p : PlacePlan) : Bool :=
  p.copies.any fun q => s.refreshing q.src q.len || s.refreshing q.dst q.len

/-- The pages that moved are no longer moving, and what waited for them, at a port's places or behind them, goes on. -/
def State.endMoving (s : State) (launch : Nat) : State :=
  let ms := s.cp.moving.filter fun m => m.launch == launch
  let s := s.modCp fun c => { c with moving := c.moving.filter fun m => m.launch != launch }
  let waiting := (s.dies.flatMap (·.faults) ++ (List.range 4).flatMap s.waitingPages).filter fun f => ms.any fun m => m.ctx == f.1 && decide (m.va ≤ f.2) && decide (f.2 < m.va + m.size)
  waiting.eraseDups.foldl (fun (s : State) f => s.servePage f.1 f.2) s

/-- A snapshot's page follows its frame (19 R386). -/
def State.moveSnaps (s : State) (p : PlacePlan) (c : Context) : State :=
  let at' (y : SnapPage) : SnapPage :=
    match p.copies.find? fun q => decide (q.src ≤ y.frame) && decide (y.frame < q.src + q.len) with
    | some q => if (s.frameKey c.root y.va).any fun f => f.1 == q.dst + (y.frame - q.src) then { y with frame := q.dst + (y.frame - q.src) } else y
    | none => y
  s.modCp fun z => { z with launches := z.launches.map fun l => if l.ctx == c.num then { l with pages := l.pages.map at' } else l }

/-- The pages of a launch's ranges whose frames hold a piece that could not be read. -/
def State.lostPages (s : State) (c : Context) (l : Launch) (keys : List Nat) : List Nat :=
  ((rangePages l.ranges).map (·.2)).filter fun page =>
    (s.frameKey c.root page).any fun q => keys.any fun k => decide (q.1 ≤ k) && decide (k < q.1 + 65536)

/-- What a plan leads to: it does not keep the rules, it waits, or the machine with its pages placed. -/
inductive PlanEnd where
  | none
  | wait (s : State)
  | ok (s : State)

/-- A plan is performed: once the pages that it moves are invalid and no access is under way to their frames, they are copied,
and the plan's tables and range registers stand; a page whose copy fails stays unmapped, and its fault is not completed
(15 R329, 18 R364 to R368). -/
def State.place (s : State) (p : PlacePlan) (c : Context) (l : Launch) (again : Bool) : PlanEnd :=
  let was := s.unmoved l.id
  if !was.planOk p c l again then .none
  else
    let ms := (was.planMoves p c l again).filter fun m => !s.cp.moving.contains m
    if !ms.isEmpty then .wait (s.startMoving ms)
    else if s.frameBusy p || s.copiesStall p then .wait s
    else
      let pieces := farCopyPieces p.copies
      match s.readFar (launchAccess l.id 4) pieces with
      | (none, s) => .wait s
      | (some got, s) =>
        let far := got.map fun a => (a.1, a.2.1)
        let lost := was.lostPages c l ((pieces.zip got).filterMap fun q => if q.2.2.2 then some q.1.1 else none)
        match s.writePieces (launchAccess l.id 5) (s.mem.spills p.copies far) with
        | (.data .., s) =>
          let t := (s.unmoved l.id).planTables p c
          match ({ t with mem := t.mem.planCopies p.copies far } : State).planRanges p.lranges with
          | none => .none
          | some t =>
            let copied := l.ranges.filter fun r => r.use == 1 && (pagesOf r.va r.alloc).any fun page => (List.range 4).any fun d =>
              (t.frameKey (planRoot p c d) page).any fun q => leafCopy q.2
            let t := t.modCp fun z => { z with replicas := z.replicas ++ (copied.map fun r => (c.num, r.va, r.alloc)).filter fun r => !z.replicas.contains r }
            let t := lost.foldl (fun (t : State) page =>
              (t.mapLeaves c.num page fun e => e &&& ~~~1).failPage c.num page) (t.moveSnaps p c)
            .ok (t.endMoving l.id)
        | (_, s) => .wait s

/-- A launch that was being placed is no longer: its pages are where they were. -/
def State.settleMoves (s : State) : State :=
  let gone (m : Moving) : Bool := !(s.cp.nodes.any fun n => n.launch == some m.launch && n.state == .ready)
  (((s.cp.moving.filter gone).map (·.launch)).eraseDups).foldl (fun (s : State) l => (s.unmoved l).endMoving l) s

end Sys2Proof.Machine
end

