-- ==== Sys2Proof/Machine/Placement.lean ====
section
/-!
DEFINITION. LAUNCH: its descriptor, range and cap-slot entries (18 R360 to R363), placement (18 R364 to R371, 19 R386),
and the loader, which seats blocks (10 R10, R30, R252, R253, 18 R370).
-/

namespace Sys2Proof.Machine

open Sys2Proof

/-! ### The descriptor and its entries (18 R360, R361, R363) -/

/-- A launch descriptor. -/
structure LaunchDesc where
  code : Nat
  codeLen : Nat
  entry : Nat
  trapv : Nat
  shape : Nat
  block : Nat
  regs : Nat
  uniform : Nat
  localLen : Nat
  nrange : Nat
  ranges : Nat
  args : Nat
  argLen : Nat
  ncap : Nat
  deriving DecidableEq, Repr

/-- The descriptor of 64 bytes. -/
def LaunchDesc.ofBytes (bs : List Byte) : LaunchDesc :=
  let f (b n : Nat) : Nat := bytesNat ((bs.drop b).take n)
  { code := f 0 8, codeLen := f 8 4, entry := f 12 4, trapv := f 16 4, shape := f 20 4, block := f 24 4, regs := f 28 2,
    uniform := f 30 2, localLen := f 32 4, nrange := f 36 4, ranges := f 40 8, args := f 48 8, argLen := f 56 4, ncap := f 60 4 }

/-- W. -/
def LaunchDesc.w (d : LaunchDesc) : Nat := d.shape % 256
/-- BAND. -/
def LaunchDesc.band (d : LaunchDesc) : Nat := d.shape / 256 % 256
/-- CRU. -/
def LaunchDesc.cru (d : LaunchDesc) : Bool := d.shape.testBit 16

/-- The limits of the descriptor (18 R360, 02 R54). -/
def LaunchDesc.ok (d : LaunchDesc) (nblocks : Nat) : Bool :=
  d.code % 256 == 0 && decide (4 ≤ d.codeLen) && decide (d.codeLen ≤ 2 ^ 24) && d.codeLen % 4 == 0 &&
  decide (d.entry < d.codeLen) && d.entry % 4 == 0 &&
  (d.trapv == 0xFFFFFFFF || (decide (d.trapv < d.codeLen) && d.trapv % 4 == 0)) &&
  decide (d.shape < 2 ^ 17) && [8, 16, 32, 64].contains d.w && decide (1 ≤ d.band) && decide (d.band ≤ 4) &&
  d.block % d.w == 0 && decide (8 ≤ d.block) && decide (d.block ≤ 4096) && (decide (d.block ≤ 2048) || d.block % (2 * d.w) == 0) &&
  decide (d.band * d.block ≤ 8192) && d.regs % 16 == 0 && decide (96 ≤ d.regs) && decide (d.regs ≤ 512) &&
  [32, 64, 96, 128, 160].contains d.uniform && d.localLen % 128 == 0 &&
  decide (d.localLen ≤ if d.block ≤ 2048 then 524288 else 1048576) && decide (d.nrange ≤ 256) && d.ranges % 32 == 0 &&
  d.argLen % 16 == 0 && decide (d.argLen ≤ 4096) && d.args % 16 == 0 && (d.argLen != 0 || d.args == 0) &&
  decide (d.ncap ≤ 4096) && decide (1 ≤ nblocks) && decide (nblocks ≤ 2 ^ 24) && nblocks % d.band == 0

/-- A range entry of 32 bytes, with whether it keeps its limits (18 R361). -/
def rangeOf (bs : List Byte) : RangeEntry × Bool :=
  let f (b n : Nat) : Nat := bytesNat ((bs.drop b).take n)
  let u := f 28 4
  let r : RangeEntry := ⟨f 0 8, f 8 8, f 16 8, f 24 4, u % 4, u / 4 % 4, u.testBit 4⟩
  (r, decide (u < 32) && r.use != 0 && decide (1 ≤ r.len) && decide (r.len ≤ 2 ^ 48) && (r.img == 0 || r.va % 65536 == 0))

/-- A cap-slot entry (18 R363). -/
structure CapSlot where
  holder : Nat
  offset : Nat
  target : Nat
  deriving DecidableEq, Repr

/-- A cap-slot entry of 16 bytes, with whether it keeps its limits. -/
def capSlotOf (ranges : List RangeEntry) (bs : List Byte) : CapSlot × Bool :=
  let f (b : Nat) : Nat := bytesNat ((bs.drop b).take 4)
  let c : CapSlot := ⟨f 0, f 4, f 8⟩
  let fits := match ranges[c.holder]? with
    | some r => r.img != 0 && decide (c.offset + 16 ≤ r.len)
    | none => false
  (c, fits && c.offset % 16 == 0 && decide (c.target < ranges.length) && f 12 == 0)

/-- Bytes cut into entries. -/
def entriesOf (n count : Nat) (bs : List Byte) : List (List Byte) := (List.range count).map fun i => (bs.drop (n * i)).take n

/-- What a LAUNCH that is ready reads: it waits, is refused, or its descriptor, entries and argument bytes. -/
inductive LaunchRead where
  | wait
  | refused
  | ok (d : LaunchDesc) (ranges : List RangeEntry) (slots : List CapSlot) (args : List Byte)
  deriving DecidableEq, Repr

/-- Reads a LAUNCH's descriptor, entries and arguments (18 R356, R360 to R363). -/
def State.readLaunch (s : State) (n : Node) (launch : Nat) : LaunchRead × State :=
  let ctx := n.key.ctx
  match s.readVirtual (launchAccess launch 0) 0 ctx (recBytes n.record 32 8) 64 false with
  | (.wait, s) => (.wait, s)
  | (.fail .., s) => (.refused, s)
  | (.data _ true, s) => (.refused, s)
  | (.data bs false, s) =>
    let d := LaunchDesc.ofBytes bs
    if !d.ok (recBytes n.record 40 4) then (.refused, s)
    else
      match s.readVirtual (launchAccess launch 1) 0 ctx d.ranges (32 * d.nrange + 16 * d.ncap) false with
      | (.wait, s) => (.wait, s)
      | (.fail .., s) => (.refused, s)
      | (.data _ true, s) => (.refused, s)
      | (.data es false, s) =>
        let rs := (entriesOf 32 d.nrange es).map rangeOf
        let ranges := rs.map (·.1)
        let cs := (entriesOf 16 d.ncap (es.drop (32 * d.nrange))).map (capSlotOf ranges)
        if !(rs.all (·.2) && cs.all (·.2)) then (.refused, s)
        else
          match s.readVirtual (launchAccess launch 2) 0 ctx d.args d.argLen false with
          | (.wait, s) => (.wait, s)
          | (.fail .., s) => (.refused, s)
          | (.data _ true, s) => (.refused, s)
          | (.data as false, s) => (.ok d ranges (cs.map (·.1)) as, s)

/-! ### Capabilities and the argument block (18 R362, 02 R56) -/

/-- A range's capability. -/
def RangeEntry.cap (r : RangeEntry) : BitVec 128 :=
  let l := encodeLength r.len
  let rw : BitVec 8 := if r.use == 1 then rightR else if r.use == 2 then rightW else rightR ||| rightW
  ({ rights := rw ||| rightA ||| rightS ||| rightM, le := l.1, lm := l.2, base := r.va, addr := r.va, tag := true } : Cap).toBits

/-- The capability to the argument block. -/
def Launch.argCap (l : Launch) : BitVec 128 :=
  let n := encodeLength (16 * l.ranges.length + l.argLen)
  ({ rights := rightR ||| rightRC, le := n.1, lm := n.2, base := l.argVa, addr := l.argVa, tag := true } : Cap).toBits

/-- Writes the argument block into its page. -/
def Memory.putArgs (m : Memory) (key : Nat) (caps : List (BitVec 128)) (args : List Byte) : Memory :=
  let bs := caps.flatMap (fun c => natBytes 16 c.toNat) ++ args
  (List.range caps.length).foldl (fun (y : Memory) i => y.setTag (key + 16 * i) true)
    (m.fillFrame key (bs ++ List.replicate (65536 - bs.length) 0))

/-! ### Images (18 R363, R369) -/

/-- The pieces of every image of a launch; none while a page waits, and the failure of one that cannot be read. -/
def State.imagePieces (s : State) (ctx : Nat) (rs : List RangeEntry) : Pieces × State :=
  s.piecesOf 0 ctx ((rs.filter RangeEntry.filled).map fun r => (r.img, r.len))

/-- Fills the pages of one range with bytes whose pieces are given with their poison. -/
def State.fillRange (s : State) (root : Nat) (r : RangeEntry) (ps : List (List Byte × Bool)) : State :=
  let pages := pagesOf r.va r.alloc
  let bs := ps.flatMap (·.1)
  let s := pages.foldl (fun (s : State) p =>
    match s.frameKey root p with
    | some (k, _) =>
      let part := (bs.drop (p - r.va)).take 65536
      if 2 ≤ keyTier k then s
      else { s with mem := s.mem.fillFrame k (part ++ List.replicate (65536 - part.length) 0) }
    | none => s) s
  (ps.foldl (fun (acc : State × Nat) p =>
    let s := if p.2 then (rangeFrom (r.va + acc.2) p.1.length).foldl (fun (s : State) a =>
        match s.frameKey root a with
        | some (k, _) => { s with mem := s.mem.setPoison k true }
        | none => s) acc.1 else acc.1
    (s, acc.2 + p.1.length)) (s, 0)).1

/-- Fills every image range, and writes the capability slots they hold. -/
def State.fillImages (s : State) (root : Nat) (ranges : List RangeEntry) (slots : List CapSlot) (ps : List (List Byte × Bool)) :
    State :=
  let s := ((ranges.filter RangeEntry.filled).foldl (fun (acc : State × List (List Byte × Bool)) r =>
    let q := takePieces r.len acc.2
    (acc.1.fillRange root r q.1, q.2)) (s, ps)).1
  slots.foldl (fun (s : State) c =>
    match ranges[c.holder]?, ranges[c.target]? with
    | some h, some t =>
      if h.lazy then s
      else
        match s.frameKey root (h.va + c.offset) with
        | some (k, _) => if 2 ≤ keyTier k then s else { s with mem := s.mem.storeCap k (natBytes 16 t.cap.toNat) true }
        | none => s
    | _, _ => s) s

/-- The pieces of images, with the slots they hold, for pages whose frames are the host's; no tag is kept there (15 R301,
18 R365). -/
def State.hostImages (s : State) (root : Nat) (ranges : List RangeEntry) (slots : List CapSlot) (ps : List (List Byte × Bool)) :
    List (Nat × List Byte × Bool) :=
  ((ranges.zipIdx.filter fun q => q.1.filled).foldl (fun (acc : List (Nat × List Byte × Bool) × List (List Byte × Bool)) q =>
    let r := q.1
    let t := takePieces r.len acc.2
    let bs := (slots.filter fun c => c.holder == q.2).foldl (fun (bs : List Byte) c =>
      (ranges[c.target]?).elim bs fun y => putBytes bs c.offset (natBytes 16 y.cap.toNat)) (t.1.flatMap (·.1))
    let bad := t.1.any (·.2)
    let out := (pagesOf r.va r.alloc).flatMap fun p =>
      match s.frameKey root p with
      | some (k, _) =>
        if keyTier k < 2 then []
        else
          let part := (bs.drop (p - r.va)).take 65536
          let page := part ++ List.replicate (65536 - part.length) 0
          (List.range 512).map fun i => (k + 128 * i, (page.drop (128 * i)).take 128, bad)
      | none => []
    (acc.1 ++ out, t.2)) ([], ps)).1

/-- The copies of image pages in the dies' tables hold what was filled into the primary's (18 R367, R369). -/
def State.fillCopies (s : State) (c : Context) (p : PlacePlan) (ranges : List RangeEntry) : State :=
  ((ranges.filter RangeEntry.filled).flatMap fun r => pagesOf r.va r.alloc).foldl (fun (s : State) page =>
    (List.range 4).foldl (fun (s : State) d =>
      match s.frameKey c.root page, s.frameKey (planRoot p c d) page with
      | some (k, _), some (k', e') =>
        if leafCopy e' && k' != k then { s with mem := s.mem.copyFrame k' k 65536 } else s
      | _, _ => s) s) s

/-- The lazy ranges of a launch, with the slots their images hold (15 R326, 18 R363, R369). -/
def lazyRanges (ctx : Nat) (ranges : List RangeEntry) (slots : List CapSlot) : List LazyRange :=
  ranges.zipIdx.filterMap fun p =>
    if p.1.lazy then
      some ⟨ctx, p.1.va, p.1.alloc, p.1.img, p.1.len, (slots.filter fun c => c.holder == p.2).filterMap fun c =>
        (ranges[c.target]?).map fun t => (c.offset, t.cap), false⟩
    else none

/-- The ranges of a launch that have pages in the host tier (15 R326). -/
def State.hostedRanges (s : State) (c : Context) (ranges : List RangeEntry) : List LazyRange :=
  (ranges.filter fun r => !r.lazy && (pagesOf r.va r.alloc).any fun page =>
    (s.frameKey c.root page).any fun q => keyTier q.1 == 2).map fun r => ⟨c.num, r.va, r.alloc, 0, 0, [], true⟩

/-- Marks SNAP in the leaves of the write ranges; pages filled from an image are fresh, and the host's and peers' are not
marked (19 R386). -/
def State.markSnaps (s : State) (ctx : Nat) (ranges : List RangeEntry) : State :=
  (ranges.filter fun r => r.use != 1 && !r.filled).foldl (fun (s : State) r =>
    (pagesOf r.va r.alloc).foldl (fun (s : State) p =>
      s.mapLeaves ctx p fun e => if 2 ≤ leafTier e then e else e ||| 0x40) s) s

/-- The launch that a LAUNCH record, its descriptor and its entries give (18 R355, R360 to R362), with its attempt and what made
it non-replayable (19 R388). -/
def newLaunch (n : Node) (id clock attempt : Nat) (mark : Option Nat) (d : LaunchDesc) (ranges : List RangeEntry) (p : PlacePlan)
    (wires : List (Nat × Nat)) (lranges : List (Nat × Nat × BitVec 64 × BitVec 64)) (prio : Nat) : Launch :=
  let nblocks := recBytes n.record 40 4
  { id := id, ctx := n.key.ctx, node := n.key, prio := prio, seed := bitsOf n.record (8 * 48) 64, code := d.code,
    codeLen := d.codeLen, entry := d.entry, trapv := d.trapv, w := d.w, band := d.band, cru := d.cru, bfibres := d.block,
    regs := d.regs, uniform := d.uniform, localLen := d.localLen, clen := recBytes n.record 44 4, nblocks := nblocks,
    ranges := ranges, argVa := p.argVa, argLen := d.argLen, pendingBands := List.range (nblocks / d.band), state := .running,
    drain := none, lastPlaced := clock, attempt := attempt, nonReplay := mark, replayDue := false, poisonSrc := none,
    pages := [], trees := wires.map fun w => ⟨w.1, w.2, 0, [], none⟩, saved := [], savedEngines := [], savedBlocks := [],
    savedBands := [], savedSlices := [], lranges := lranges }

/-- Enters a placed launch; a replay keeps its attempt. -/
def State.enterLaunch (s : State) (l : Launch) (wires : List (Nat × Nat)) : State :=
  s.modCp fun c =>
    { c with launches := (c.launches.filter fun x => x.id != l.id) ++ [l], wires := c.wires ++ wires.map fun w => (w.2, l.id) }

/-- The device starts commands: Ready, powered, and not in an eviction (20 R408, R414, 22 R438). -/
def State.dispatches (s : State) : Bool := s.dev.bstate == 5 && s.dev.pwr == 0 && s.dev.eviction.isNone

/-- A launch that is placed for the first time or for a replay. -/
def State.placeable (s : State) (id : Nat) : Bool := (s.launch? id).all fun l => l.state == .replaying

/-- LAUNCH: the next ready LAUNCH is refused, or placed by the plan, and its blocks are offered (18 R356, R364). A plan
that does not keep the rules has no effect. -/
def execLaunch (p : PlacePlan) (s : State) : Out :=
  match s.starting p.node 1, s.ctx? p.node.ctx with
  | some n, some c =>
    let id := n.launch.getD 0
    if !s.dispatches || !s.placeable id then .next s
    else
      match s.readLaunch n id with
      | (.wait, s) => .next s
      | (.refused, s) => .next (s.refuseReady n).wake
      | (.ok d ranges slots args, s) =>
        let wires := s.bindWires (recTrees n.record)
        if p.wires != wires then .next s
        else
          match s.imagePieces c.num ranges with
          | (.wait, s) => .next s
          | (.fail .., s) => .next (s.failNode n.key).wake
          | (.ok ps, s) =>
            match s.readEach (launchAccess id 3) ps with
            | (none, s) => .next s
            | (some images, s) =>
              let old := s.oldRanges p.lranges
              let attempt := ((s.launch? id).elim 1 (·.attempt))
              let mark := match s.launch? id with
                | some y => y.nonReplay
                | none => if s.accepted 8 then none else some 1
              let l := newLaunch n id (s.die 0).clock attempt mark d ranges p wires old (s.prioOf n)
              match s.place p c l false with
              | .none => .next s
              | .wait s => .next s.wakeAll
              | .ok t =>
                match t.writePieces (launchAccess id 6) (t.hostImages c.root ranges slots images) with
                | (.data .., t) =>
                  let t := (t.fillImages c.root ranges slots images).fillCopies c p ranges
                  let t := { t with mem := t.mem.putArgs (memKey 0 p.argPa) (ranges.map RangeEntry.cap) args }
                  let t := if t.accepted 8 then (t.markSnaps c.num ranges).invalidate c.num none else t
                  let lz := lazyRanges c.num ranges slots ++ t.hostedRanges c ranges
                  let t := t.modCp fun y =>
                    { y with lazy := (y.lazy.filter fun r => !(r.ctx == c.num && lz.any fun q => q.va == r.va)) ++ lz }
                  .next ((t.enterLaunch l wires).runNode n.key).wakeAll
                | (_, t) => .next { s with fabric := t.fabric }
  | _, _ => .next s

/-! ### The loader (10 R252, R253, 18 R370) -/

/-- Groups of a block on one of its cores; a block of more than 2,048 fibres has two (01 R10). -/
def Launch.two (l : Launch) : Bool := decide (2048 < l.bfibres)
/-- Groups on each core of a block. -/
def Launch.coreGroups (l : Launch) : Nat := if l.two then l.bfibres / l.w / 2 else l.bfibres / l.w
/-- Groups that a row holds (01 R20). -/
def Launch.perRow (l : Launch) : Nat := 64 / l.w
/-- Rows of a block on each of its cores. -/
def Launch.blockRows (l : Launch) : Nat := ceilDiv l.coreGroups l.perRow
/-- The lease of a row (01 R15). -/
def Launch.lease (l : Launch) : Nat := 320 * l.regs + 640 * (64 / l.w)
/-- H: local bytes on the first core of a two-core block (06 R147). -/
def Launch.split (l : Launch) : Nat := if l.two then ceilDiv l.localLen 256 * 128 else l.localLen
/-- Local bytes on a block's first or second core. -/
def Launch.localOn (l : Launch) (second : Bool) : Nat := if second then l.localLen - l.split else l.split

/-- The rows of a core that groups may take; the last row of core 0 of a cluster is the service group's (11 R262); a
retired core has none (19 R395). -/
def State.coreRows (s : State) (c : Nat) : Nat :=
  if s.repair.cores.contains c || s.repair.clusters.contains (clusterOfCore c) then 0
  else if c % 4 == 0 then Config.rowsPerCore - 1 else Config.rowsPerCore

/-- Free rows of a core. -/
def State.freeRows (s : State) (c : Nat) : List Nat :=
  (List.range (s.coreRows c)).filter fun r => !(s.core c).rows.any fun u => u.row == r

/-- Local memory in use on a core. -/
def State.localUsed (s : State) (c : Nat) : Nat :=
  s.blocks.foldl (fun n b => n + (if b.core == c then b.split else 0) + (if b.core2 == some c then b.len - b.split else 0)) 0

/-- Leases held on a core. -/
def State.leased (s : State) (c : Nat) : Nat := (s.core c).rows.foldl (fun n r => n + r.lease) 0

/-- A launch may not start on a core while a group of another that has used the latches there is resident (09 R202). -/
def State.latchesFree (s : State) (c launch : Nat) : Bool :=
  !((s.core c).matrixUsers.any fun o => o != launch && s.groups.any fun g => g.core == c && g.key.launch == o)

/-- Latches saved with a launch's block, for its first half or its second: the core they were on, and the slices. -/
def Launch.latchesOf (l : Launch) (block : Nat) (second : Bool) : Option (Nat × List Slice) :=
  (l.savedSlices.find? fun q => q.1 == block && q.2.1 == (if second then 1 else 0)).map (·.2.2)

/-- The slice holds nothing. -/
def Slice.blank (y : Slice) : Bool := y == Slice.empty y.arr y.base y.width

/-- A core takes a block's saved latches: no group of the launch there uses others in their place (09 R226). DESIGN CHOICE
(log entry 119): blocks saved on different cores do not come together on one core whose groups use their slices. -/
def State.latchesFit (s : State) (l : Launch) (c block : Nat) (second : Bool) : Bool :=
  match l.latchesOf block second with
  | none => true
  | some q =>
    (s.core c).matrixFor.contains (l.id, some q.1) || !(s.groups.any fun g => g.core == c && g.key.launch == l.id) ||
    q.2.all fun y => y.blank || ((s.core c).slice y.arr y.base y.width).blank

/-- How many blocks, or halves of blocks, of a launch a core can take beside what it holds. -/
def State.coreFits (s : State) (l : Launch) (c : Nat) (second : Bool) : Nat :=
  if !s.latchesFree c l.id then 0
  else
    let byRows := (s.freeRows c).length / l.blockRows
    let byPool := (Config.registerPool - s.leased c) / (l.blockRows * l.lease)
    let need := l.localOn second
    if need == 0 then min byRows byPool else min (min byRows byPool) ((Config.localBytes - s.localUsed c) / need)

/-- Bands of a launch that a cluster's slots of the reduction unit and cluster memory take (11 R256, R265). -/
def State.clusterFits (s : State) (l : Launch) (k : Nat) : Nat :=
  let here := s.bands.filter fun b => b.cluster == k
  let byCru := if l.cru then 4 - (here.filter (·.cru)).length else 2 ^ 24
  if l.clen == 0 then byCru else min byCru ((2 ^ 21 - here.foldl (fun n b => n + b.clen) 0) / l.clen)

/-- Bands of a launch that a cluster can take at once. -/
def State.bandsIn (s : State) (l : Launch) (k : Nat) : Nat :=
  let fits := (List.range 4).map fun i => s.coreFits l (4 * k + i) false
  let sum := fits.foldl (· + ·) 0
  let blocks := if l.two then min (sum / 2) (sum - fits.foldl max 0) else sum
  min (blocks / l.band) (s.clusterFits l k)

/-- Free rows of a die. -/
def State.dieRows (s : State) (d : Nat) : Nat := (List.range 64).foldl (fun n i => n + (s.freeRows (64 * d + i)).length) 0

/-- The preferred die, or, when it has no free row, the die with the most (18 R370). -/
def dieBy (rows : Nat → Nat) (d : Nat) : Nat :=
  if rows d != 0 then d else (List.range 4).foldl (fun best d => if rows best < rows d then d else best) 0

/-- The die a band goes to: the preferred one, or with no free row there the one with the most (18 R370). -/
def State.dieFor (s : State) (l : Launch) (band : Nat) : Nat :=
  dieBy s.dieRows (s.preferredDie l band)

/-- A launch offers blocks. -/
def Launch.offers (l : Launch) : Bool := l.state == .running && !l.pendingBands.isEmpty && !l.replayDue

/-- Bands can be resident at once, each on the die it goes to: `room` gives for each die the bands that fit it and the rows
that are free, as the bands before it leave them (11 R271, 18 R370). -/
def State.treeFits (s : State) (l : Launch) : List Nat → List (Nat × Nat) → Bool
  | [], _ => true
  | b :: t, room =>
    let d := dieBy (fun d => (room[d]?.getD (0, 0)).2) (s.preferredDie l b)
    let q := room[d]?.getD (0, 0)
    q.1 != 0 && s.treeFits l t (room.set d (q.1 - 1, q.2 - l.band * l.blockRows * (if l.two then 2 else 1)))

/-- The bands of a launch that each die can take, and its free rows. -/
def State.dieRoom (s : State) (l : Launch) : List (Nat × Nat) :=
  (List.range 4).map fun d => ((List.range 16).foldl (fun n k => n + s.bandsIn l (16 * d + k)) 0, s.dieRows d)

/-- A launch that holds tree numbers is dispatched whole: it begins only when all its bands fit, and no other launch's
blocks come between (11 R271, 18 R371). -/
def State.treeTurn (s : State) (l : Launch) : Bool :=
  (l.trees.isEmpty || s.treeFits l l.pendingBands (s.dieRoom l)) &&
  !(s.cp.launches.any fun y => y.id != l.id && !y.trees.isEmpty && y.offers && s.blocks.any fun b => b.launch == y.id)

/-- Launch `a`'s blocks are offered before `b`'s: by priority, then in the order of their start. -/
def State.offeredFirst (s : State) (a b : Launch) : Bool :=
  decide (b.prio < a.prio) || (a.prio == b.prio &&
    decide ((s.cp.launches.findIdx? fun y => y.id == a.id).getD 0 < (s.cp.launches.findIdx? fun y => y.id == b.id).getD 0))

/-- The blocks of a band that are seated: all of them, or those that had not ended when it was saved. -/
def Launch.bandBlocks (l : Launch) (band : Nat) : List Nat :=
  if l.savedBands.any fun b => b.index == band then
    (l.savedBlocks.filter fun b => b.band == band).map (·.index)
  else rangeFrom (band * l.band) l.band

/-- A band fits a cluster of the die it goes to (10 R253, 18 R370). -/
def State.bandFits (s : State) (l : Launch) (band : Nat) : Bool :=
  let latches (c : Nat) (second : Bool) : Bool := (l.bandBlocks band).all fun b => s.latchesFit l c b second
  let fits (c : Nat) : Nat := if latches c false && (!l.two || latches c true) then s.coreFits l c false else 0
  (rangeFrom (16 * s.dieFor l band) 16).any fun k =>
    let ns := (List.range 4).map fun i => fits (4 * k + i)
    let sum := ns.foldl (· + ·) 0
    decide (l.band ≤ if l.two then min (sum / 2) (sum - ns.foldl max 0) else sum) && s.clusterFits l k != 0

/-- No block that is offered first fits: none of a launch before this one, and no earlier band of its own (18 R353). -/
def State.bandTurn (s : State) (l : Launch) (band : Nat) : Bool :=
  !(l.pendingBands.takeWhile (· != band)).any (s.bandFits l) &&
  !(s.cp.launches.any fun y => y.id != l.id && y.offers && s.offeredFirst y l && s.treeTurn y &&
    y.pendingBands.any (s.bandFits y))

/-- Rows named for one core are free and as many as the block needs. -/
def State.rowsOk (s : State) (l : Launch) (c : Nat) (rows : List Nat) : Bool :=
  rows.length == l.blockRows && rows.eraseDups.length == rows.length && rows.all (s.freeRows c).contains

/-- A seat of a block names free rows of a core of the cluster, or of two (10 R253). -/
def State.seatOk (s : State) (l : Launch) (cluster : Nat) (seat : Seat) : Bool :=
  clusterOfCore seat.core == cluster && decide (0 < s.coreFits l seat.core false) && s.rowsOk l seat.core seat.rows &&
  s.latchesFit l seat.core seat.block false &&
  if l.two then
    match seat.core2 with
    | none => false
    | some c => c != seat.core && clusterOfCore c == cluster && decide (0 < s.coreFits l c true) && s.rowsOk l c seat.rows2 &&
        s.latchesFit l c seat.block true
  else seat.core2.isNone && seat.rows2.isEmpty

/-- A live lane at the kernel entry (01 R12, R30). -/
def newLane (entry : Nat) : Lane :=
  { status := .live, park := none, pc := BitVec.ofNat 32 entry, preds := 0xFFFF, predPoison := 0, predNew := 0, predMask := 0,
    predNewPoison := 0, vb := 0, v := RegFile.empty, fpsr := 0, fpsrWrite := none, flags := 0, calls := 0, tpc := 0,
    trapped := false, outside := false }

/-- The local-memory descriptor of s4:4 (06 R145). -/
def Launch.localDesc (l : Launch) (second : Bool) : BitVec 128 :=
  BitVec.ofNat 32 ((if l.two then 1 else 0) + (if second then 2 else 0)) ++ BitVec.ofNat 32 l.clen ++
  BitVec.ofNat 32 l.split ++ BitVec.ofNat 32 l.localLen

/-- The four registers of a 128-bit value. -/
def quadRegs (x : BitVec 128) : List Reg := (List.range 4).map fun i => ⟨bitsOf x (32 * i) 32, false⟩

/-- A group as it starts (01 R30). -/
def newGroup (l : Launch) (block idx core row pos : Nat) (second : Bool) : Group :=
  let s : RegFile := { regs := (quadRegs l.argCap ++ quadRegs (l.localDesc second)).zipIdx.map fun p => (p.2, p.1), tags := [0] }
  { key := ⟨l.id, block, idx⟩, ctx := l.ctx, core := core, row := row, pos := pos, w := l.w,
    lanes := List.replicate l.w (newLane l.entry), s := s, ub := 0, fpcr := 0, fpcrWrite := none, msr := 0, msrWrite := none,
    cvs := List.replicate 8 CvReg.empty, runCount := 0, written := [], draining := false, marks := [], tcause := 0, tval := 0, tmask := 0,
    handler := false, outst := [], fails := [], fabFails := [], slots := List.replicate 16 ⟨2, none⟩, collector := none,
    amber := .idle, ckpt := none, pend := [], faultPages := [], remote := [], fetched := [], remoteFail := [], stopped := false, seq := 0,
    redo := [], after := [] }

/-- Where group `idx` of a block sits: core, row, position in the row, on the second core or not. -/
def Launch.seatOf (l : Launch) (seat : Seat) (idx : Nat) : Nat × Nat × Nat × Bool :=
  let second := l.two && decide (l.coreGroups ≤ idx)
  let i := if second then idx - l.coreGroups else idx
  let rows := if second then seat.rows2 else seat.rows
  (if second then seat.core2.getD seat.core else seat.core, rows[i / l.perRow]?.getD 0, i % l.perRow, second)

/-- The groups of a block: those saved with it, or new ones. -/
def Launch.groupsOf (l : Launch) (seat : Seat) : List Group :=
  if l.savedBlocks.any fun b => b.index == seat.block then
    (l.saved.filter fun g => g.key.block == seat.block).map fun g =>
      let p := l.seatOf seat g.key.idx
      { g with core := p.1, row := p.2.1, pos := p.2.2.1 }
  else
    (List.range (l.bfibres / l.w)).map fun idx =>
      let p := l.seatOf seat idx
      newGroup l seat.block idx p.1 p.2.1 p.2.2.1 p.2.2.2

/-- A block as it starts: its local memory reads 0 (06 R146); or as it was saved. -/
def Launch.blockOf (l : Launch) (band : Nat) (seat : Seat) : Block :=
  match l.savedBlocks.find? fun b => b.index == seat.block with
  | some b => { b with core := seat.core, core2 := seat.core2 }
  | none =>
    { launch := l.id, index := seat.block, band := band, core := seat.core, core2 := seat.core2, len := l.localLen,
      split := l.split, groups := l.bfibres / l.w, ended := [], mem := LocalMem.empty, bars := [] }

/-- A band as it starts, or as it was saved (11 R256, R265). -/
def Launch.bandOf (l : Launch) (band cluster : Nat) : Band :=
  match l.savedBands.find? fun b => b.index == band with
  | some b => { b with cluster := cluster }
  | none =>
    { launch := l.id, index := band, cluster := cluster, clen := l.clen, mem := LocalMem.empty, bars := [], cru := l.cru,
      slots := if l.cru then (List.range 16).map fun i => CruSlot.fresh i 64 else [],
      buffered := [], cq := [] }

/-- The engine programs saved with a block; each waits for a context of its new core or cluster (10 R229, 18 R374). -/
def Launch.enginesOf (l : Launch) (seat : Seat) : List Engine :=
  (l.savedEngines.filter fun e => e.group.block == seat.block).map fun e =>
    let core := (l.seatOf seat e.group.idx).1
    { e with started := false, seqr := ⟨e.seqr.kind, if e.seqr.kind == SeqKind.ke then clusterOfCore core else core⟩ }

/-- A core that takes groups of a launch: its rows, which load until the next cycle (10 R252); its latches are empty for a launch that starts there, and those saved
with the block return; and it performs an acquire (09 R202, R226, 12 R289, 18 R375). -/
def Core.seat (c : Core) (l : Launch) (block : Nat) (second : Bool) (rows : List Nat) : Core :=
  let starts := !c.matrixFor.any fun q => q.1 == l.id
  let c := if starts then
      { c with slices := [], sliceUses := []
               matrixFor := (c.matrixFor.filter fun q => c.rows.any fun r => r.launch == q.1) ++ [(l.id, none)]
               ckpts := c.ckpts.map fun (k : ShadowCkpt) => { k with slices := [], mwls := [] } }
    else c
  let c := match l.latchesOf block second with
    | none => c
    | some (origin, saved) =>
      if c.matrixFor.contains (l.id, some origin) then c
      else
        let put (ys : List Slice) : List Slice :=
          let kept : List Slice := if c.rows.any fun r => r.launch == l.id then ys else []
          kept.filter (fun (y : Slice) => !saved.any fun (z : Slice) =>
            !z.blank && z.arr == y.arr && z.base == y.base && z.width == y.width) ++ saved.filter fun (z : Slice) => !z.blank
        { c with slices := put c.slices, matrixUsers := putNat l.id c.matrixUsers
                 matrixFor := c.matrixFor ++ [(l.id, some origin)]
                 ckpts := c.ckpts.map fun (k : ShadowCkpt) => { k with slices := put k.slices, mwls := [] } }
  { c with rows := c.rows ++ rows.map fun r => ⟨r, .loading, l.id, l.w, l.lease⟩, l1 := [] }

/-- Seats one block. -/
def State.seatBlock (s : State) (l : Launch) (band : Nat) (seat : Seat) : State :=
  let s : State := { s with
    blocks := s.blocks ++ [l.blockOf band seat]
    groups := s.groups ++ l.groupsOf seat
    engines := s.engines ++ l.enginesOf seat }
  let es := l.enginesOf seat
  let keep (k : Nat) (c : Core) : Core :=
    let gs := (l.groupsOf seat).filter fun g => g.core == k
    let mine := es.filter fun e => e.core == k
    let ke := mine.filter fun e => e.seqr.kind == SeqKind.ke
    let own := mine.filter fun e => e.seqr.kind != SeqKind.ke
    let now := s.clockOf k
    let c := if gs.isEmpty && own.isEmpty then c
      else c.ckptAll now fun y => { y with groups := y.groups ++ gs, engines := y.engines ++ own }
    if ke.isEmpty then c else c.keCkptAll now fun y => { y with engines := y.engines ++ ke }
  let rowsIn (gs : List Group) (rows : List Nat) : List Nat := rows.filter fun r => gs.any fun g => g.row == r
  let gs := l.groupsOf seat
  let before := s
  let restored (c : Nat) : Bool := (l.latchesOf seat.block (c != seat.core)).any fun q =>
    !(before.core c).matrixFor.contains (l.id, some q.1)
  let s := s.modCore seat.core fun c =>
    c.seat l seat.block false (rowsIn (gs.filter fun g => g.core == seat.core) seat.rows)
  let s := match seat.core2 with
    | some c2 => s.modCore c2 fun c => c.seat l seat.block true (rowsIn (gs.filter fun g => g.core == c2) seat.rows2)
    | none => s
  let s := ((gs.map (·.core) ++ es.map Engine.core).eraseDups).foldl (fun s k => s.modCore k (keep k)) s
  let s := (seat.core :: seat.core2.toList).foldl (fun (s : State) c => s.dropFetches c fun _ => true) s
  ((seat.core :: seat.core2.toList).filter restored).foldl (fun s c => s.reloadCore c fun _ => true) s

/-- Seats the blocks of a band one after another, if every seat is free (10 R253). -/
def State.seatAll (l : Launch) (band cluster : Nat) : List Seat → State → Option State
  | [], s => some s
  | q :: t, s => if s.seatOk l cluster q then State.seatAll l band cluster t (s.seatBlock l band q) else none

/-- BLOCK_PLACE: the loader seats the blocks of a launch's first pending band that fits, whole; all its groups start together
(10 R252, R253, 18 R353, R364, R370). -/
def execBlockPlace (p : BandPlan) (s : State) : Out :=
  match s.launch? p.launch with
  | none => .next s
  | some l =>
    if !s.dispatches || !l.offers || !l.pendingBands.contains p.band || !s.treeTurn l || !s.bandTurn l p.band ||
      p.seats.map (·.block) != l.bandBlocks p.band then .next s
    else
      match p.seats with
      | [] => .next s
      | q :: _ =>
        let cluster := clusterOfCore q.core
        if s.clusterFits l cluster == 0 || cluster / 16 != s.dieFor l p.band then .next s
        else
          match State.seatAll l p.band cluster p.seats s with
          | none => .next s
          | some t =>
            let t := { t with bands := t.bands ++ [l.bandOf p.band cluster] }
            if !l.trees.isEmpty && !t.treeFits l (l.pendingBands.filter (· != p.band)) (t.dieRoom l) then .next s
            else .next (t.modLaunch l.id fun y =>
              { y with
                pendingBands := y.pendingBands.filter (· != p.band)
                lastPlaced := (s.die 0).clock
                saved := y.saved.filter fun g => !(l.bandBlocks p.band).contains g.key.block
                savedEngines := y.savedEngines.filter fun e => !(l.bandBlocks p.band).contains e.group.block
                savedBlocks := y.savedBlocks.filter fun b => b.band != p.band
                savedBands := y.savedBands.filter fun b => b.index != p.band
                savedSlices := y.savedSlices.filter fun q => !(l.bandBlocks p.band).contains q.1 }).wakeAll

end Sys2Proof.Machine
end

