-- ==== Sys2Proof/Machine/Preempt.lean ====
section
/-!
DEFINITION. Pre-emption, saving and resuming (18 R373 to R375, 19 R395), and restoration and replay (19 R386 to R391).
-/

namespace Sys2Proof.Machine

open Sys2Proof

/-! ### The save area (18 R374) -/

/-- Bytes of the save area that blocks and bands of a launch need. -/
def Launch.saveNeed (l : Launch) (blocks : List Block) (bands : List Band) : Nat :=
  blocks.length * ((if l.two then 2 else 1) * l.blockRows * l.lease + l.localLen + 65536) +
  bands.foldl (fun n b => n + b.clen) 0

/-- What a launch needs now. -/
def State.needNow (s : State) (l : Launch) : Nat :=
  l.saveNeed (s.blocks.filter fun b => b.launch == l.id) (s.bands.filter fun b => b.launch == l.id)

/-- Bytes of a context's save area that saved launches hold. -/
def State.saveUsed (s : State) (ctx : Nat) : Nat :=
  (s.cp.launches.filter fun l => l.ctx == ctx && l.state == .saved).foldl (fun n l => n + l.saveNeed l.savedBlocks l.savedBands) 0

/-- The save area is large enough for a launch. -/
def State.saveFits (s : State) (l : Launch) : Bool :=
  (s.ctx? l.ctx).any fun c => decide (s.saveUsed l.ctx + s.needNow l ≤ c.saveLen)

/-! ### Beginning (18 R373) -/

/-- Everything a launch does is complete, whatever its state. -/
def State.finished (s : State) (l : Launch) : Bool := s.launchDone { l with state := .running, replayDue := false }

/-- Pre-empts a running launch: its pending blocks are offered no more. One whose save area is too small aborts; one that
is completing completes (18 R373, R374, R376). The bound of a core's retirement or of an eviction's drain holds for one that is
being pre-empted already too (19 R395, 22 R438). -/
def State.startDrain (s : State) (id : Nat) (why : DrainFor) : State :=
  match s.launch? id with
  | none => s
  | some l =>
    let bounded (w : DrainFor) : Bool := w == .retire || w == .evict
    if l.state == .draining && !l.replayDue && bounded why && !l.drain.any fun d => d.1 == .retire || d.1 == why then
      s.modLaunch id fun y => { y with drain := some (why, (s.die 0).clock) }
    else if l.state != .running || l.replayDue || s.finished l then s
    else if !s.saveFits l then s.abortLaunch id ⟨if why == .evict then 7 else 6, 0, 0, 0⟩
    else s.modLaunch id fun y => { y with state := .draining, drain := some (why, (s.die 0).clock) }

/-- The launch that the priority rule pre-empts for a launch of priority `p`: of those two or more below that hold rows and
whose save area is large enough the lowest, and of equal ones the youngest; one that is being pre-empted is among them
(18 R373). -/
def State.victim (s : State) (p : Nat) : Option Launch :=
  (s.cp.launches.filter fun l => (l.state == .running || l.state == .draining) && decide (l.prio + 2 ≤ p) && s.saveFits l &&
    s.blocks.any fun b => b.launch == l.id).foldl (fun acc l => match acc with
      | none => some l
      | some m => if l.prio ≤ m.prio then some l else some m) none

/-- The priority of a ready launch that has had no block placed for 200 µs (18 R373). -/
def State.starvedPrio (s : State) (id : Nat) : Option Nat :=
  let late (t : Nat) : Bool := decide (t + 200 * usCycles ≤ (s.die 0).clock)
  let node := ((s.cp.nodes.find? fun n => n.launch == some id && n.state == .ready).filter fun n => late n.readyAt).map s.prioOf
  match s.launch? id with
  | some l => if l.state == .saved || l.state == .replaying then node else if l.offers && late l.lastPlaced then some l.prio else none
  | none => node

/-- PRIORITY_PREEMPT (18 R373). -/
def execPriorityPreempt (launch starved : Nat) (s : State) : Out :=
  match (s.starvedPrio starved).bind s.victim with
  | none => .next s
  | some l => if l.id == launch && l.state == .running && !l.replayDue && s.dispatches then .next (s.startDrain l.id .priority) else .next s

/-! ### Saving (18 R374) -/

/-- A group issues nothing more: its run has drained; or all its fibres are parked and no result is still to come; or it
speculates, and returns to its checkpoint. -/
def Group.still (g : Group) : Bool :=
  g.amber == .speculating || g.amber == .stalled || g.stopped ||
  (!g.draining && !g.written.any (fun w => w.pending.isSome) && (g.runCount == 0 || !g.laneList.any fun p => p.2.ready))

/-- Nothing of a launch is on its way: no request, command, or access to the host or a peer (18 R374, steps 3 to 5). -/
def State.settledOut (s : State) (l : Nat) : Bool :=
  let mine (k : GKey) : Bool := k.launch == l
  !(s.inflight.any fun r => mine r.group) && !(s.homes.any fun r => mine r.group) && !(s.replies.any fun r => mine r.group) &&
  !(s.copies.any fun c => c.owner.ofLaunch s l) && !(s.mscs.any fun m => m.left && m.owner.ofLaunch s l) &&
  !(s.gathers.any fun g => g.launch == l) &&
  !(s.fabric.remote.any fun r => match r.for' with
    | .req q => mine q.group
    | _ => false)

/-- A launch that is being pre-empted has come to rest. -/
def State.drainedOut (s : State) (l : Launch) : Bool :=
  let mine (k : GKey) : Bool := k.launch == l.id
  l.state == .draining && s.settledOut l.id &&
  !(s.cores.any fun c => (c.hold.any fun r => mine r.group) || c.log.any fun e => mine e.group) &&
  !(s.mscs.any fun m => m.owner.ofLaunch s l.id) && !(s.mwls.any fun m => mine m.group) &&
  (s.groups.filter fun g => mine g.key).all (fun g => g.still && g.outst.all fun o => s.engines.any fun e => e.id == o.id) &&
  (s.engines.filter fun e => mine e.group).all fun e => e.cmds.isEmpty && e.remote.isNone

/-- A deadline as the cycles that remain. -/
def remaining (now : Nat) (d : Option Nat) : Option Nat := d.map (· - now)
/-- A deadline from the cycles that remain. -/
def fromNow (now : Nat) (d : Option Nat) : Option Nat := d.map (now + ·)

/-- A group as it is saved: a pending timeout keeps its remaining time; one parked on a fault executes again. -/
def Group.toSave (g : Group) (now : Nat) : Group :=
  { g.clearFaults with
    remote := [], fetched := [], remoteFail := [], redo := [], after := []
    pend := g.pend.map fun p => { p with deadline := remaining now p.deadline, acks := [] } }

/-- An engine program as it is saved. -/
def Engine.toSave (e : Engine) (now : Nat) : Engine :=
  { e with waitt := e.waitt.map fun w => { w with deadline := remaining now w.deadline }, data := none }

/-- The slices of a core, for each block of a launch on it. -/
def State.slicesOf (s : State) (l : Launch) : List (Nat × Nat × Nat × List Slice) :=
  (s.blocks.filter fun b => b.launch == l.id).flatMap fun b =>
    ([(0, some b.core), (1, b.core2)].filterMap fun p => p.2.bind fun c =>
      if (s.core c).matrixUsers.contains l.id then some (b.index, p.1, c, (s.core c).slices) else none)

/-- Bytes that the saved state takes in the save area; how it is encoded there is open. -/
def openBytes (free n : Nat) : List Byte := (List.range n).map fun i => bitsOf (Config.freeWord (free + i / 4)) (8 * (i % 4)) 8

/-- Saves a launch that has come to rest: its state goes to the save area and all it holds is freed; it is ready to be
placed again (18 R374, R375). -/
def State.saveLaunch (s : State) (l : Launch) : State :=
  let mine (k : GKey) : Bool := k.launch == l.id
  let s := (s.groups.filter fun g => mine g.key && g.amber != .idle && g.ckpt.isSome).foldl (fun s g => s.amberRollback g.key) s
  let now := (s.die 0).clock
  let need := s.needNow l
  let base := (s.ctx? l.ctx).elim 0 (·.savePa) + s.saveUsed l.ctx
  let bands := s.bands.filter fun b => b.launch == l.id
  let l' : Launch :=
    { l with
      state := .saved, drain := none
      pendingBands := (bands.map (·.index)).foldl (fun ls b => putNat b ls) l.pendingBands
      saved := (s.groups.filter fun g => mine g.key).map (fun g => g.toSave now) ++ l.saved
      savedEngines := (s.engines.filter fun e => mine e.group).map (fun e => e.toSave now) ++ l.savedEngines
      savedBlocks := (s.blocks.filter fun b => b.launch == l.id) ++ l.savedBlocks
      savedBands := bands ++ l.savedBands
      savedSlices := s.slicesOf l ++ l.savedSlices }
  let s := { s with mem := s.mem.write (memKey 0 base) (openBytes s.free need) false, free := s.free + need }
  let s := s.dropResident l.id
  let s := s.modLaunch l.id fun _ => l'
  { (s.modNode l.node fun n => { n with state := .ready, readyNo := s.nextId, readyAt := now }) with nextId := s.nextId + 1 }

/-- The first launch that is being pre-empted and has come to rest. -/
def State.toSave (s : State) : Option Launch := s.cp.launches.find? fun l => s.drainedOut l

/-- A launch that ended while it was being pre-empted completes; another is saved (18 R376). -/
def State.endDrain (s : State) (l : Launch) : State :=
  if s.finished l then s.modLaunch l.id fun y => { y with state := .running, drain := none } else s.saveLaunch l

/-! ### The driver's PREEMPT (20 R406) -/

/-- A driver's command ends: with success, or refused for a reason. -/
def State.endCp (s : State) (reason : Nat) : State :=
  s.modCp fun c => { c with status := if reason == 0 then 2 else 3, result := reason, op := 0 }

/-- An operand register. -/
def State.cpArg (s : State) (n : Nat) : Nat := (s.cp.cmd[n]?.getD 0).toNat

/-- The driver's command of an OP waits to be started. -/
def State.commanded (s : State) (op : Nat) : Bool := s.cp.status == 1 && s.cp.op == op

/-- PREEMPT: the driver's command begins; or it ends, when its launch is pre-empted no longer; or a launch that has come to
rest is saved (18 R373, R374, 20 R406). -/
def execPreempt (s : State) : Out :=
  if s.commanded 6 then
    match s.launch? (s.cpArg 0) with
    | none => .next (s.endCp 3)
    | some l =>
      if l.state != .running || l.replayDue then .next (s.endCp 3)
      else .next ((s.startDrain l.id .driver).modCp fun c => { c with op := 262 }).wake
  else if s.commanded 262 && !((s.launch? (s.cpArg 0)).any fun l => l.state == .draining) then .next (s.endCp 0)
  else
    match s.toSave with
    | some l => .next (s.endDrain l).wake
    | none => .next s

/-! ### Resuming (18 R375) -/

/-- A saved group as it resumes. -/
def Group.resumed (g : Group) (now : Nat) : Group :=
  { g with pend := g.pend.map fun p => { p with deadline := fromNow now p.deadline } }

/-- A saved launch that resumes: its waits go on from the cycles that remained, and its tree numbers have wires again. -/
def Launch.resumed (l : Launch) (now : Nat) (wires : List (Nat × Nat)) (ranges : List (Nat × Nat × BitVec 64 × BitVec 64)) : Launch :=
  { l with
    state := .running, lastPlaced := now
    saved := l.saved.map fun g => g.resumed now
    savedEngines := l.savedEngines.map fun e => { e with waitt := e.waitt.map fun w => { w with deadline := fromNow now w.deadline } }
    trees := l.trees.map fun t => { t with wire := (lookupKey t.n wires).getD t.wire }
    lranges := l.lranges ++ ranges.filter fun r => !l.lranges.any fun q => q.1 == r.1 && q.2.1 == r.2.1 }

/-- LAUNCH_RESUME: a pre-empted launch is placed again, and its blocks are offered (18 R375). -/
def execLaunchResume (p : PlacePlan) (s : State) : Out :=
  match s.starting p.node 1, s.ctx? p.node.ctx with
  | some n, some c =>
    match n.launch.bind s.launch? with
    | none => .next s
    | some l =>
      let wires := s.bindWires (l.trees.map (·.n))
      if !s.dispatches || l.state != .saved || p.wires != wires || p.argVa != l.argVa then .next s
      else
        let old := s.oldRanges p.lranges
        match s.place p c l true with
        | .none => .next s
        | .wait s => .next s.wakeAll
        | .ok t =>
          let l := (t.launch? l.id).getD l
          .next ((t.enterLaunch (l.resumed (t.die 0).clock wires old) wires).runNode n.key).wakeAll
  | _, _ => .next s

/-! ### Restoration and replay (19 R390) -/

/-- A launch is to be restored and replayed for a reason that is neither poison nor a strike, or aborts when it is not
replayable (19 R395, 22 R438). -/
def State.replayFor (s : State) (id kind : Nat) : State :=
  match s.launch? id with
  | none => s
  | some l =>
    if !s.accepted 8 || l.nonReplay.isSome then s.abortLaunch id ⟨kind, 0, 0, 0⟩
    else s.modLaunch id fun y => { y with replayDue := true, drain := none }

/-- PREEMPTION_ABANDONED: a pre-emption that is not complete within 1 ms of a core's retirement, or within 1 s in an
eviction's drain (19 R395, 22 R438). -/
def execPreemptionAbandoned (launch : Nat) (s : State) : Out :=
  match (s.launch? launch).bind (·.drain) with
  | some (.retire, t) => if t + 1000 * usCycles ≤ (s.die 0).clock then .next (s.replayFor launch 6) else .next s
  | some (.evict, t) => if t + 1000000 * usCycles ≤ (s.die 0).clock then .next (s.replayFor launch 7) else .next s
  | _ => .next s

/-- Every group of a launch stops; what has not left a core is discarded (19 R390, step 1). -/
def State.stopLaunch (s : State) (l : Nat) : State :=
  let mine := ofLaunch l
  let gone := (s.cores.flatMap fun c => c.hold).filterMap fun r =>
    match r.body with
    | .msc id => if mine r.group then some id else none
    | _ => none
  let logged := (s.cores.flatMap fun c => c.log).filter fun e => mine e.group
  let s := logged.foldl (fun s e => s.moreParts e.id 0 1) s
  let stop (g : Group) : Group := if mine g.key then { g with stopped := true } else g
  let clear (c : Core) : Core :=
    { c with hold := c.hold.filter (fun r => !mine r.group), log := c.log.filter (fun e => !mine e.group)
             stores := c.stores.filter (fun e => !mine e.group), reads := c.reads.filter fun e => !mine e.group }
  let s : State := { s with
    groups := s.groups.map stop, mscs := s.mscs.filter (fun m => !gone.contains m.id), cores := s.cores.map clear }
  s.modLaunch l fun y => { y with state := .restoring, drain := none }

/-- Snapshotted pages return with SNAP = 1, and fresh lazy pages are unmapped (19 R390, step 4). -/
def State.restorePages (s : State) (l : Launch) : State :=
  let snap := (s.ctx? l.ctx).elim 0 (·.snapPa)
  let s := l.pages.foldl (fun (s : State) p =>
    match p.area with
    | some k =>
      ({ s with mem := s.mem.copyFrame p.frame (memKey 0 (snap + 65536 * k)) 65536 } : State).mapLeaves l.ctx p.va fun e => e ||| 0x40
    | none => s.mapLeaves l.ctx p.va fun _ => 0) s
  (l.pages.foldl (fun (s : State) p => s.invalidate l.ctx (some p.va)) s).restoreLranges l

/-- A memory line that restoration rewrites (19 R388, R390). -/
def Launch.rewrites (l : Launch) (key : Nat) : Bool := l.pages.any fun p => decide (p.frame ≤ key) && decide (key < p.frame + 65536)

/-- What stands in a launch's way on replay: everything it held is freed, its pages are restored, its appended commands are
withdrawn, and its node is ready again; or it aborts, when its poison would be met again (19 R390, steps 3 to 7). -/
def State.restoreLaunch (s : State) (l : Launch) : State :=
  let s := ((s.dropResident l.id).restorePages l).withdraw l.id
  let src := l.poisonSrc.elim 0 keyPa
  if l.poisonSrc.any fun k => s.mem.poisoned k && !l.rewrites k then s.abortLaunch l.id ⟨5, 6, 0, src⟩
  else
    let s := s.logError 0 { ErrRec.blank 0x08 with
      flags := 0x10, index := l.attempt + 1, launch := l.id, ctx := l.ctx, addr := src }
    let s := s.launchLog l.id 4 (natBytes 4 (l.attempt + 1))
    let s := s.modLaunch l.id fun y =>
      { y with state := .replaying, replayDue := false, poisonSrc := none, pages := [], lranges := [], attempt := y.attempt + 1,
               saved := [], savedEngines := [], savedBlocks := [], savedBands := [], savedSlices := [] }
    { (s.modNode l.node fun n => { n with state := .ready, readyNo := s.nextId, readyAt := (s.die 0).clock }) with nextId := s.nextId + 1 }

/-- LAUNCH_REPLAY: a launch that is due stops; once what had left is acknowledged it is restored and ready (19 R390). -/
def execLaunchReplay (launch : Nat) (s : State) : Out :=
  match s.launch? launch with
  | none => .next s
  | some l =>
    if !l.replayDue then .next s
    else if l.state == .restoring then
      if s.settledOut launch then .next (s.restoreLaunch l).wakeAll else .next s
    else .next (s.stopLaunch launch).wake

end Sys2Proof.Machine
end

