-- ==== Sys2Proof/Machine/Rollback.lean ====
section
/-!
DEFINITION. The Shadow window: rolling checkpoints, strikes and the rollback of a core or a KE (19 R377 to R384), checked
regions, and late strikes.
-/

namespace Sys2Proof.Machine

open Sys2Proof

/-! ### Rolling checkpoints (19 R378) -/

/-- An engine program belongs to a core's region (19 R377). -/
def Engine.inCore (e : Engine) (c : Nat) : Bool := e.seqr.kind != SeqKind.ke && e.seqr.unit == c

/-- What a core's checkpoint of this cycle holds. -/
def State.takeCkpt (s : State) (c : Nat) : ShadowCkpt :=
  { cycle := s.clockOf c, restored := 0, groups := s.groups.filter fun g => g.core == c
    engines := s.engines.filter fun e => e.inCore c, slices := (s.core c).slices
    mwls := s.mwls.filter fun m => m.core == c, stores := (s.core c).stores, reads := (s.core c).reads }

/-- An engine program of the KE of core `c`'s cluster, whose region is its own (19 R377). -/
def Engine.inKe (e : Engine) (c : Nat) : Bool := e.seqr.kind == SeqKind.ke && e.seqr.unit == clusterOfCore c

/-- What a KE's checkpoint of this cycle holds; it is kept with its cluster's core 0. -/
def State.takeKeCkpt (s : State) (c : Nat) : ShadowCkpt :=
  { cycle := s.clockOf c, restored := 0, groups := [], engines := s.engines.filter fun e => e.inKe c
    slices := [], mwls := [], stores := [], reads := [] }

/-- A checkpoint with nothing in it. -/
def ShadowCkpt.blank (k : ShadowCkpt) : Bool := k.groups.isEmpty && k.engines.isEmpty

/-- A recorded value answers an instruction that a checkpoint holds pending. -/
def Ret.answersIn (r : Ret) (k : ShadowCkpt) : Bool :=
  k.groups.any fun g => g.key == r.group && g.pend.any fun p =>
    r.op == some p.id || (r.op.isNone && p.pc == r.pc && p.issued == r.cycle)

/-- Records that no checkpoint kept needs are dropped. -/
def Core.trim (c : Core) : Core :=
  { c with
    record := c.record.filter fun r => (c.ckpts ++ c.keCkpts).any fun k => decide (k.cycle ≤ r.cycle) || r.answersIn k
    left := c.left.filter fun p =>
      (c.ckpts.head?).any fun k => !(k.groups.any fun g => g.key == p.1 && decide (p.2.1 < g.seq))
    undo := if c.ckpts.isEmpty then [] else c.undo }

/-- A checkpoint joins those of its region; the ten youngest are kept, and none while all are empty. -/
def addCkpt (ks : List ShadowCkpt) (k : ShadowCkpt) : List ShadowCkpt :=
  let ks := ks ++ [k]
  let ks := ks.drop (ks.length - 10)
  if ks.all ShadowCkpt.blank then [] else ks

/-- A region takes a checkpoint in a cycle that is a multiple of 32, if it has none of this cycle yet. A region that is empty,
and was when its checkpoints were taken, needs none. -/
def ckptDue (ks : List ShadowCkpt) (k : ShadowCkpt) : Bool :=
  k.cycle % 32 == 0 && !(ks.any fun y => y.cycle == k.cycle) && !(k.blank && ks.isEmpty)

/-- A core takes its checkpoint, and core 0 that of its cluster's KE. -/
def State.checkpoint (s : State) (c : Nat) : State :=
  let k := s.takeCkpt c
  let n := s.takeKeCkpt c
  let core := ckptDue (s.core c).ckpts k
  let ke := c % 4 == 0 && ckptDue (s.core c).keCkpts n
  if !core && !ke then s
  else s.modCore c fun co => Core.trim
    { co with ckpts := if core then addCkpt co.ckpts k else co.ckpts
              keCkpts := if ke then addCkpt co.keCkpts n else co.keCkpts }

/-- SHADOW_CHECKPOINT (19 R378). -/
def execShadowCheckpoint (core : Nat) (s : State) : Out := .next (s.checkpoint core)

/-! ### Rolling back (19 R379, R380, 10 R250) -/

/-- A rollback: of a core, or of the KE of its cluster; the strike's cycle, the report's, and the checkpoint. -/
structure Rollback where
  core : Nat
  ke : Bool
  strike : Nat
  now : Nat
  ck : ShadowCkpt
  deriving DecidableEq, Repr

/-- An engine program of the region. -/
def Rollback.hasEngine (rb : Rollback) (e : Engine) : Bool :=
  if rb.ke then e.inKe rb.core else e.inCore rb.core

/-- The region's engine programs, of now or of the checkpoint. -/
def State.regionEngines (s : State) (rb : Rollback) : List Nat :=
  ((s.engines ++ rb.ck.engines).filter rb.hasEngine).map (·.id)

/-- Started after the checkpoint, and not old enough to have left the region. -/
def Rollback.young (rb : Rollback) (issued : Nat) : Bool :=
  decide (rb.ck.cycle ≤ issued) && decide (rb.now < issued + Config.shadowWindow)

/-- A command of the region. -/
def State.regionOwns (s : State) (rb : Rollback) (o : Owner) : Bool :=
  match o with
  | .group k => !rb.ke && (((s.group? k).any fun g => g.core == rb.core) || rb.ck.groups.any fun g => g.key == k)
  | .engine id _ _ => (s.regionEngines rb).contains id
  | .node _ => false

/-- The Amber checkpoint that a speculating group returns to: one younger than the rolling checkpoint and older than the
strike (10 R250). -/
def State.amberPoint (s : State) (rb : Rollback) (k : GKey) : Option (Group × AmberCkpt) :=
  (s.group? k).bind fun g =>
    if g.amber == .speculating || g.amber == .stalled then
      (g.ckpt.filter fun c => decide (rb.ck.cycle ≤ c.cycle) && decide (c.cycle < rb.strike)).map fun c => (g, c)
    else none

/-- The cycle of the point that a group returns to. -/
def State.returnsTo (s : State) (rb : Rollback) (k : GKey) : Nat :=
  (s.amberPoint rb k).elim rb.ck.cycle (·.2.cycle)

/-- A hold-queue entry that is not discarded. -/
def State.holds (s : State) (rb : Rollback) (r : Req) : Bool :=
  match r.eng with
  | some (id, _, _) => !((s.regionEngines rb).contains id && rb.young r.issued)
  | none => rb.ke || decide (r.issued < s.returnsTo rb r.group)

/-- Commands and engine stores that are discarded, to be started again. -/
def State.dropped (s : State) (rb : Rollback) : List Nat :=
  let hold := (s.core rb.core).hold.filter fun r => !s.holds rb r
  (s.copies.filter fun c => s.regionOwns rb c.owner && rb.young c.issued).map (·.id) ++
  (s.gathers.filter fun g => s.regionOwns rb g.owner && rb.young g.issued).map (·.id) ++
  (hold.filter fun r => r.eng.isSome).map (·.id) ++
  hold.filterMap fun r => match r.body with
    | .msc id => some id
    | _ => none

/-- Records that re-execution from a cycle takes: of words issued before the strike, and of commands that go on. -/
def State.redoFrom (s : State) (rb : Rollback) (from' : Nat) (mine : Ret → Bool) : List Ret :=
  let gone := s.dropped rb
  (s.core rb.core).record.filter fun r => mine r && decide (from' ≤ r.cycle) && decide (r.cycle < rb.strike) &&
    !(r.vals.any fun v => v.1 == 126 && v.2.1.any fun x => gone.contains x.val.toNat)

/-- What is counted after a rollback: operations of before it that are not complete, and later ones that go on. -/
def restoreOutst (old cur : List Outst) (engines kept : List Nat) : List Outst :=
  retireOps ((old.filterMap fun o =>
      if engines.contains o.id || o.ctr == .me then some o else cur.find? fun y => y.id == o.id) ++
    cur.filter fun o => kept.contains o.id && !(old.any fun y => y.id == o.id))

/-- Failures recorded: those of the checkpoint, and those since. -/
def restoreFails (old cur : List FailRec) : List FailRec := if cur.take old.length == old then cur else old ++ cur

/-- The recorded answer to an instruction that a checkpoint holds pending. -/
def Core.answerOf (c : Core) (k : GKey) (op : PendOp) : Option Ret :=
  c.record.find? fun r => r.group == k && !r.ofKeys && (r.op == some op.id || (r.op.isNone && r.pc == op.pc && r.cycle == op.issued))

/-- One lane's recorded reply: a datum's registers were reserved before a weight run's. -/
def Group.retakeLane (g : Group) (id : Nat) (v : Nat × List Reg × Bool) : Group :=
  let u := if v.1 == 127 then none else some v.1
  let ws := (g.written.reverse.filter fun w => w.pending == some id && w.lane == u).map (·.reg)
  let rs := if v.2.2 then ws.drop (ws.length - v.2.1.length) else ws.take v.2.1.length
  (rs.zip v.2.1).foldl (fun g p => g.answer id u p.1 p.2) g

/-- A pending instruction takes the answer it had received. -/
def Group.retake (g : Group) (op : PendOp) (r : Ret) : Group :=
  match op.instr with
  | .waitt f =>
    let seen := (r.vals.head?).any fun v => v.2.1.any fun x => x.val != 0
    (g.modLanes ((List.range 64).filter fun l => bitOf op.lanes l) fun l => l.writePred f.id.toNat seen false).finishOp op.id
  | .cqPush f => (g.modLanes (r.vals.map (·.1)) fun l => l.writePred f.id.toNat false false).finishOp op.id
  | _ =>
    if op.dst.isEmpty then
      let g := r.vals.foldl (fun g v => g.retakeLane op.id v) g
      if g.written.any fun w => w.pending == some op.id then g else g.finishOp op.id
    else ((op.dst.zip r.vals).foldl (fun g p => g.answers op.id p.1.1 p.1.2 p.2.2.1) g).finishOp op.id

/-- A start slot after a rollback: final, when its program has ended since and does not run again. -/
def State.restoreSlot (s : State) (rb : Rollback) (cur : Option Group) (n : Nat) (sl : StartSlot) : StartSlot :=
  match sl.engine with
  | none => sl
  | some id =>
    if (rb.ck.engines.any fun e => e.id == id && rb.hasEngine e) || (s.engines.any fun e => e.id == id && !rb.hasEngine e) ||
        (s.core rb.core).hold.any (fun r => r.id == id) then sl
    else
      let kept := ((s.core rb.core).record.find? fun r => r.op == some id).bind fun r => r.vals.find? (·.2.2)
      match kept, (cur.bind fun g => g.slots[n]?).filter fun y => y.engine.isNone with
      | some v, _ => ⟨(v.2.1.head?).elim 1 (·.val), none⟩
      | none, some y => y
      | none, none => ⟨1, none⟩

/-- A group at the checkpoint, with what has happened outside its region since (19 R379, R380). -/
def State.restoreGroup (s : State) (rb : Rollback) (old : Group) : Group :=
  let cur := s.group? old.key
  let co := s.core rb.core
  let left := (co.left.filter fun p => p.1 == old.key).map (·.2.2)
  let rs (from' : Nat) : List Ret := s.redoFrom rb from' (fun r => r.group == old.key) ++ cur.elim [] (·.redo)
  match s.amberPoint rb old.key with
  | some (g, c) =>
    ({ g.toCkpt c with amber := .speculating, ckpt := some c, redo := rs c.cycle } : Group).unparkIf fun p => match p with
      | .barrier b _ _ _ => b == c.bar
      | _ => false
  | none =>
    let cmds := (rs rb.ck.cycle).filterMap fun r => (r.vals.find? fun v => v.1 == 126).bind fun v => (v.2.1.head?).map (·.val.toNat)
    let kept := left ++ cmds.filter fun id => !((s.regionEngines rb).contains id)
    let now (op : PendOp) : PendOp := (cur.bind fun g => g.pend.find? fun p => p.id == op.id).getD op
    let orphans := cur.elim [] fun g => (g.pend.filter fun p =>
      left.contains p.id && !p.acks.isEmpty && !(old.pend.any fun q => q.id == p.id)).map fun p => { p with lanes := 0 }
    let g : Group := { old.clearFaults with
      outst := restoreOutst old.outst (cur.elim [] (·.outst)) ((rb.ck.engines.filter rb.hasEngine).map (·.id)) kept
      fails := restoreFails old.fails (cur.elim [] (·.fails))
      fabFails := restoreFails old.fabFails (cur.elim [] (·.fabFails))
      slots := old.slots.zipIdx.map fun p => s.restoreSlot rb cur p.2 p.1
      pend := old.pend.map now ++ orphans
      remote := old.remote.filter fun t => cur.any fun y => y.remote.contains t
      fetched := [], remoteFail := [], redo := rs rb.ck.cycle, after := [] }
    old.pend.foldl (fun (g : Group) op =>
      match (co.answerOf old.key op).filter fun r => r.trap?.isNone with
      | some r => g.retake op r
      | none => g) g

/-- The instructions that a group's checkpoint holds pending and whose failed check had been recorded fail again, each in its
place (19 R380). -/
def State.refail (s : State) (rb : Rollback) (before : State) (old : Group) : State :=
  if (before.amberPoint rb old.key).isSome then s
  else old.pend.foldl (fun (s : State) op =>
    match ((before.core rb.core).answerOf old.key op).bind Ret.trap? with
    | some (t, _) => if (s.group? old.key).any fun g => g.pend.any fun p => p.id == op.id then
        s.trapPendIn old.key op t.code t.tval t.mask else s
    | none => s) s

/-- A record of a program of the KE that core 0's records are kept with. -/
def State.ofKe (s : State) (core : Nat) (r : Ret) : Bool :=
  (s.engines ++ (s.core core).keCkpts.flatMap (·.engines)).any fun e => e.inKe core && r.ofEngine e.id

/-- An engine program at the checkpoint. -/
def State.restoreEngine (s : State) (rb : Rollback) (old : Engine) : Engine :=
  let cur := s.engine? old.id
  let rs := s.redoFrom rb rb.ck.cycle fun r => r.ofEngine old.id
  let lives (id : Nat) : Bool := (s.copies.any fun c => c.id == id) || (s.gathers.any fun g => g.id == id) ||
    (s.mscs.any fun m => m.id == id) || (s.cores.any fun c => c.hold.any fun r => r.id == id) || s.inflight.any fun i => i.id == id
  let fails := (cur.elim [] (·.fails)).filter fun f =>
    decide (f.order < old.count) || rs.any fun r => r.op == some (2 ^ 40 + old.id * 2 ^ 20 + f.order)
  { old with
    started := old.started || cur.any (·.started)
    cmds := old.cmds.filter lives
    fails := fails
    stopped := if old.stopped.isNone && !fails.isEmpty then (cur.bind (·.stopped)).orElse fun _ => some 1 else old.stopped
    remote := old.remote.filter fun t => cur.any fun e => e.remote == some t
    data := if cur.any (fun e => e.count == old.count) then cur.bind (·.data) else old.data
    redo := rs ++ cur.elim [] (·.redo) }

/-- Undoes, in reverse order, what the region wrote to local memory since the point each writer returns to, and performs
again what came from outside it (19 R379). -/
def State.undoLocal (s : State) (rb : Rollback) : State :=
  let gone := s.dropped rb
  let since := (s.core rb.core).undo.filter fun u => decide (rb.ck.cycle ≤ u.cycle)
  let stays (u : Undo) : Bool := u.outside || u.cmd.any (fun id => !gone.contains id) ||
    u.writer.any fun k => decide (u.cycle < s.returnsTo rb k)
  let back (s : State) (u : Undo) : State := s.modBlock u.launch u.block fun b =>
    let m := b.mem.store u.addr u.old
    let poison := m.poison.filter fun w => !(wordsOf u.addr u.old.length).contains w
    { b with mem := { m with poison := u.oldBad.foldl (fun p w => putNat w p) poison } }
  let again (s : State) (u : Undo) : State := s.modBlock u.launch u.block fun b =>
    let m := b.mem.store u.addr u.new
    { b with mem := if u.newBad then m.markPoison u.addr u.new.length else m }
  let s := since.reverse.foldl back s
  let kept := since.filter stays
  let s := kept.foldl again s
  s.modCore rb.core fun c => { c with undo := (c.undo.filter fun u => decide (u.cycle < rb.ck.cycle)) ++ kept }

/-- A group that has ended since the checkpoint can return: its block stands, and its place is free. -/
def State.canReturn (s : State) (rb : Rollback) (old : Group) : Bool :=
  (s.block? old.key.launch old.key.block).isSome &&
  !((s.core rb.core).rows.any fun r => r.row == old.row && r.launch != old.key.launch) &&
  !(s.groups.any fun g => g.core == rb.core && g.row == old.row && g.pos == old.pos && g.key != old.key)

/-- Puts back a group that had ended. -/
def State.putBack (s : State) (rb : Rollback) (g : Group) : State :=
  let s := ({ s with groups := s.groups ++ [g] } : State).modBlock g.key.launch g.key.block fun b =>
    { b with ended := b.ended.filter (· != g.key.idx) }
  let lease := (s.launch? g.key.launch).elim 0 Launch.lease
  s.modCore rb.core fun c =>
    if c.rows.any fun r => r.row == g.row then c else { c with rows := c.rows ++ [⟨g.row, .running, g.key.launch, g.w, lease⟩] }

/-- A speculator whose barrier has completed since is ordinary again; one that met a conflict is a waiter; a waiter whose
barrier has completed since goes on (10 R249, R250). -/
def State.settleAmber (s : State) (before : State) (old : Group) : State :=
  match s.group? old.key with
  | none => s
  | some g =>
    let done (b : BarKey) (seq : Nat) : Bool :=
      ((s.core g.core).left.any fun p => p.1 == old.key && p.2.1 == seq) && !(s.barState b).arrived.contains old.key
    match old.ckpt, old.amber == .speculating || old.amber == .stalled with
    | some c, true =>
      if done c.bar old.seq then
        ((s.setGroup { g with amber := .idle, ckpt := none }).modCore g.core fun y =>
          { y with reads := y.reads.filter fun r => r.group != old.key }).drainAmber old.key
      else if (before.group? old.key).any fun y => y.amber == .waiting then s.amberRollback old.key
      else s
    | _, _ =>
      match g.allParked with
      | some (b, _, _, _) =>
        if done b old.seq && !(g.pend.any fun p => p.lanes == 0 && p.seq == old.seq) then
          (s.setGroup (({ g with amber := .idle } : Group).unparkIf fun p => match p with
            | .barrier b' _ _ _ => b' == b
            | _ => false)).invalL1 g.core
        else s
      | none => s

/-- An engine program that was waiting for a token takes what it had observed. -/
def State.retakeWait (s : State) (id : Nat) : State :=
  match s.engine? id with
  | none => s
  | some e =>
    match e.waitt, e.redo?.bind (·.vals.head?) with
    | some w, some v => s.endEngineWaitt id w.pd (v.2.1.any fun x => x.val != 0)
    | _, _ => s

/-- An operation of a slice's order that a rollback keeps: no reload, and no product whose set is not complete at the point
its group returns to. -/
def SliceOp.stays (o : SliceOp) (news : List Group) : Bool :=
  match o with
  | .reload _ => false
  | .product k n => news.any fun g => g.key == k && (g.cv n).queued
  | _ => true

/-- The slices of a core and its unfinished `mwl` as they match the points its groups return to: those of the checkpoint, with
what groups that return to a younger Amber point had done since (09 R226). -/
def State.rollSlices (s : State) (rb : Rollback) (amber : List GKey) (news : List Group) : List Slice × List MwlOp :=
  let co := s.core rb.core
  let uses := co.sliceUses.filter fun u => amber.contains u.group && decide (rb.ck.cycle ≤ u.cycle)
  let same (y z : Slice) : Bool := y.arr == z.arr && y.base == z.base && y.width == z.width
  let fresh := co.slices.filter fun y => !rb.ck.slices.any (same y)
  let slices := (rb.ck.slices ++ fresh.map fun y => Slice.empty y.arr y.base y.width).map fun old =>
    let now := co.slice old.arr old.base old.width
    let ops := (uses.filter fun u => u.arr == old.arr && u.base == old.base && u.width == old.width).map (·.op)
    let later := ops.filter (fun o => !now.order.contains o) ++
      now.order.filter fun o => ops.contains o || (amber.any o.ofGroup && !old.order.contains o)
    ({ old with order := (old.order ++ later).filter fun o => o.stays news } : Slice).settle
  (slices, (rb.ck.mwls.filter fun m => m.reload.isNone) ++ uses.filterMap (·.load))

/-- THE ROLLBACK of a core's region (19 R379, R380). -/
def State.rollCore (s : State) (rb : Rollback) : State :=
  let gone := s.dropped rb
  let olds := rb.ck.groups.filter fun g => (s.group? g.key).isSome || s.canReturn rb g
  let news := olds.map fun g => s.restoreGroup rb g
  let amber := olds.filterMap fun g => (s.amberPoint rb g.key).map fun _ => g.key
  let engines := (rb.ck.engines.filter rb.hasEngine).map (s.restoreEngine rb)
  let before := s
  let (slices, mwls) := s.rollSlices rb amber news
  let s := s.undoLocal rb
  let pends := news.flatMap fun g => g.pend.map (·.id)
  let s : State := { s with
    copies := s.copies.filter fun c => !gone.contains c.id
    gathers := s.gathers.filter fun g => !gone.contains g.id
    mscs := s.mscs.filter fun m => m.left || !gone.contains m.id
    mwls := (s.mwls.filter fun m => m.core != rb.core) ++ mwls
    engines := (s.engines.filter fun e => !rb.hasEngine e) ++ engines
    groups := s.groups.map fun g => (news.find? fun y => y.key == g.key).getD g }
  let s := s.modCore rb.core fun c =>
    { c with
      hold := c.hold.filter (before.holds rb)
      stores := rb.ck.stores.filter fun e => !amber.contains e.group
      reads := rb.ck.reads.filter fun e => !amber.contains e.group
      slices := slices
      sliceUses := c.sliceUses.filter fun u => amber.contains u.group || decide (u.cycle < rb.ck.cycle)
      slotsUsed := c.slotsUsed.filter fun id => pends.contains id || c.left.any fun p => p.2.2 == id
      record := c.record.filter fun r =>
        decide (r.cycle < rb.ck.cycle) || c.ckpts.any r.answersIn || before.ofKe rb.core r
      ckpts := (c.ckpts.filter fun k => decide (k.cycle ≤ rb.ck.cycle)).map fun k =>
        if k.cycle == rb.ck.cycle then { k with restored := rb.now } else k }
  let s := (news.filter fun g => (s.group? g.key).isNone).foldl (fun s g => s.putBack rb g) s
  let s := engines.foldl (fun s e => s.retakeWait e.id) s
  let s := s.reloadCore rb.core fun _ => true
  let s := (olds.filter fun g => !amber.contains g.key).foldl (fun s g => s.settleAmber before g) s
  olds.foldl (fun s g => s.refail rb before g) s

/-- The rollback of a KE: its programs that have not ended return (19 R377). -/
def State.rollKe (s : State) (rb : Rollback) : State :=
  let gone := s.dropped rb
  let engines := (rb.ck.engines.filter fun e => rb.hasEngine e && s.engines.any fun y => y.id == e.id).map (s.restoreEngine rb)
  let before := s
  let s : State := { s with
    copies := s.copies.filter fun c => !gone.contains c.id
    engines := s.engines.map fun e => (engines.find? fun y => y.id == e.id).getD e }
  let s := s.modCore rb.core fun c =>
    { c with
      hold := c.hold.filter (before.holds rb)
      record := c.record.filter fun r => !(decide (rb.ck.cycle ≤ r.cycle) && engines.any fun e => r.ofEngine e.id)
      keCkpts := (c.keCkpts.filter fun k => decide (k.cycle ≤ rb.ck.cycle)).map fun k =>
        if k.cycle == rb.ck.cycle then { k with restored := rb.now } else k }
  engines.foldl (fun s e => s.retakeWait e.id) s

/-! ### Late strikes and checked regions (19 R383, R384) -/

/-- Launches that had something in a region. -/
def State.launchesIn (s : State) (r : Region) : List Nat :=
  let ofCore (c : Nat) : List Nat :=
    (s.groups.filter fun g => g.core == c).map (·.key.launch) ++ (s.engines.filter fun e => e.inCore c).map (·.group.launch) ++
    (s.core c).hold.map (·.group.launch) ++ (s.core c).log.map (·.group.launch) ++
    (s.core c).ckpts.flatMap fun k => k.groups.map (·.key.launch)
  let ofHome (p : Nat → Bool) : List Nat := (s.homes.filter fun q => p q.home).map (·.group.launch)
  let ls : List Nat := match r with
    | .core c => ofCore c
    | .ke u => (s.engines.filter fun (e : Engine) => e.seqr == ⟨SeqKind.ke, u⟩).map (·.group.launch)
    | .cluster k => (s.bands.filter fun b => b.cluster == k).map (·.launch) ++ ofHome (· == k)
    | .uncore d => (s.groups.filter fun g => dieOfCore g.core == d).map (·.key.launch) ++
        (s.engines.filter fun e => e.die == d).map (·.group.launch) ++ ofHome (fun h => h / 16 == d) ++
        (s.inflight.filter fun i => dieOfCore i.core == d).map (·.group.launch)
    | .package => s.cp.launches.map (·.id)
  ls.eraseDups

/-- Launches whose requests a cluster has served since a cycle: its service group, or the slice too (11 R262, R274). -/
def State.servedSince (s : State) (cluster cycle : Nat) (slice : Bool) : List Nat :=
  ((s.served.filter fun e => e.home == cluster && (slice || e.group) && decide (cycle ≤ e.cycle)).map (·.launch)).eraseDups

/-- Launches that had a group, an engine program or a request in a region since a cycle: those that have it still, those that
have left, and those whose requests the region's homes served (19 R384). -/
def State.launchesSince (s : State) (r : Region) (cycle : Nat) : List Nat :=
  let homes : List Nat := match r with
    | .cluster k => [k]
    | .uncore d => (List.range 16).map (16 * d + ·)
    | _ => []
  (s.launchesIn r ++ s.seenSince r cycle ++ homes.flatMap fun h => s.servedSince h cycle true).eraseDups

/-- Die, cluster and core of a region as a record gives them, with its STRUCT. -/
def regionRec (r : Region) : ErrRec :=
  match r with
  | .core c => { ErrRec.blank 0 with struct := 7, die := dieOfCore c, cluster := clusterOfCore c % 16, core := c % 4 }
  | .ke u => { ErrRec.blank 0 with struct := 12, die := u / 16, cluster := u % 16 }
  | .cluster k => { ErrRec.blank 0 with struct := 8, die := k / 16, cluster := k % 16 }
  | .uncore d => { ErrRec.blank 0 with struct := 13, die := d }
  | .package => { ErrRec.blank 0 with struct := 21 }

/-- A late strike: launches are replayed, or abort (19 R384). -/
def State.lateStrike (s : State) (r : Region) (cycle : Nat) (ls : List Nat) : State :=
  let e := regionRec r
  let s := s.logError e.die { e with evt := 0x04, addr := cycle }
  (ls.foldl (fun s l => s.replayOrAbort l 4 0 cycle none) s).wake

/-- A Shadow recovery is recorded, counted, and logged for each launch it touches (19 R384, R398). -/
def State.recovered (s : State) (r : Region) (cycle : Nat) : State :=
  let e := regionRec r
  let s := s.logError e.die { e with evt := 0x03, addr := cycle }
  let s := s.modDie e.die fun d => { d with scnt := d.scnt + 1 }
  (s.launchesIn r).foldl (fun s l => s.launchLog l 3 (natBytes 8 cycle)) s

/-- The checkpoint that a strike returns to: the youngest older than it; or the oldest, when the region was empty before. -/
def ckptFor (ks : List ShadowCkpt) (strike : Nat) : Option ShadowCkpt :=
  ((ks.filter fun k => decide (k.cycle < strike)).getLast?).orElse fun _ => ks.head?

/-- Poisons the entries of a compaction queue that a list names: launch, band, place. -/
def State.poisonCq (s : State) (l : List (Nat × Nat × Nat)) : State :=
  l.foldl (fun s q => s.modBand q.1 q.2.1 fun b => { b with cq := b.cq.modify q.2.2 fun r => { r with poison := true } }) s

/-- Poisons the merged state of slots of a reduction unit (11 R274). -/
def State.poisonCru (s : State) (l : List (Nat × Nat × Nat)) : State :=
  let bad (r : Reg) : Reg := { r with poison := true }
  l.foldl (fun s q => s.modBand q.1 q.2.1 fun b =>
    { b with slots := b.slots.map fun t => if t.id == q.2.2 then { t with m := bad t.m, l := bad t.l, acc := t.acc.map bad } else t }) s

/-- The record of an error that was corrected: the pseudo-channel of an HBM line, the bank of a weight-store granule
(15 R306, R307, R311). -/
def correctedRec (e : ErrRec) (key : Nat) : ErrRec :=
  let pa := keyPa key
  let g := pa % 2 ^ 38 / 256
  if keyTier key == 0 then { e with evt := 0x01, struct := 14, index := g % 3 * 64 + g / 3 % 64, addr := pa }
  else if keyTier key == 1 then { e with evt := 0x01, struct := 16, index := pa / 2048 % 32, addr := pa }
  else { e with evt := 0x01, addr := pa }

/-- The test of the row of HBM or of the weight store that holds a memory key starts (15 R307, R311, 19 R392). -/
def State.testRow (s : State) (key : Nat) : State :=
  let pa := keyPa key
  let die := pa / 2 ^ 38 % 4
  let g := pa % 2 ^ 38 / 256
  let channel := g % 3 * 64 + g / 3 % 64
  if keyTier key == 0 then s.startTest 14 (192 * die + channel) channel die
  else if keyTier key == 1 then s.startTest 16 (32 * die + pa / 2048 % 32) (pa / 2048 % 32) die
  else s

/-- What a check of a region finds and can name: what it repairs is recorded, the rest is poisoned and recorded, and the test of
each structure starts (15 R307, 19 R383, R392, R399). -/
def State.nameDamage (s : State) (k : Strike) : State :=
  let e := regionRec k.region
  let s := k.corrected.foldl (fun (s : State) key => (s.logError e.die (correctedRec e key)).testRow key) s
  let s := k.poisoned.foldl (fun (s : State) key =>
    (({ s with mem := s.mem.damage key } : State).logError e.die { e with evt := 0x02, addr := keyPa key }).testRow key) s
  let named (struct : Nat) (s : State) (q : Nat × Nat × Nat) : State :=
    let s := s.logError e.die { e with evt := 0x02, struct := struct, index := q.2.2, launch := q.1 }
    (s.band? q.1 q.2.1).elim s fun b => s.startTest struct b.cluster 0 (b.cluster / 16)
  k.cq.foldl (named 11) (k.cru.foldl (named 10) ((s.poisonCru k.cru).poisonCq k.cq))

/-- The structure that a report names is tested (19 R392). -/
def State.testStruck (s : State) (k : Strike) : State :=
  let e := regionRec k.region
  let t : SelfTest := { struct := k.struct, die := e.die, cluster := e.cluster, core := e.core, index := k.index, passed := true }
  if k.struct == .none then s else s.startTest (structCode k.struct) (testUnit t) k.index e.die

/-- A checked region: what can be named is poisoned, and recorded; the rest is a late strike, and so is a report whose delay
exceeded 255 cycles (19 R383, R384). -/
def State.checkRegion (s : State) (k : Strike) : State :=
  let late := k.flaggedLate || decide (k.cycle + 255 < (s.die (regionDie k.region)).clock)
  let t := s.nameDamage k
  if k.unnamed || late then t.lateStrike k.region k.cycle (s.launchesSince k.region k.cycle) else t

/-- STRIKE_REPORT: rollback of a core or a KE, a check, or a late strike (19 R377 to R384, R400). -/
def execStrikeReport (k : Strike) (s : State) : Out :=
  let roll (core : Nat) (ke : Bool) : State :=
    let now := s.clockOf core
    let late := k.flaggedLate || decide (k.cycle + 255 < now)
    let touched := s.launchesSince k.region k.cycle
    match late, ckptFor (if ke then (s.core core).keCkpts else (s.core core).ckpts) k.cycle with
    | true, _ => s.lateStrike k.region k.cycle touched
    | false, none =>
      if touched.isEmpty then s.recovered k.region k.cycle else s.lateStrike k.region k.cycle touched
    | false, some ck =>
      if k.cycle < ck.restored then s
      else
        let rb : Rollback := ⟨core, ke, k.cycle, now, ck⟩
        let lost := if ke then [] else (ck.groups.filter fun g => (s.group? g.key).isNone && !s.canReturn rb g).map (·.key.launch)
        let s := (if ke then s.rollKe rb else s.rollCore rb).recovered k.region k.cycle
        let s := if lost.isEmpty then s else s.lateStrike k.region k.cycle lost.eraseDups
        s.wake
  match k.region with
  | .core c =>
    let s := (roll c false).testStruck k
    .next (if c % 4 == 0 then
        let t := s.nameDamage k
        if k.unnamed then t.lateStrike k.region k.cycle (t.servedSince (clusterOfCore c) k.cycle false) else t
      else s)
  | .ke u => .next (((roll (4 * u) true).startTest 12 u 0 (u / 16)).testStruck k)
  | _ => .next ((s.checkRegion k).testStruck k)

end Sys2Proof.Machine
end

