-- ==== Sys2Proof/Machine/Repair.lean ====
section
/-!
DEFINITION. Targeted self-tests, sparing and retirement (19 R392 to R396, 11 R274, 09 R222, 22 R422), the records that
wait (19 R397), scrub and refresh (15 R310, R313).
-/

namespace Sys2Proof.Machine

open Sys2Proof

/-- Spares of one unit (19 R394, 22 R422). -/
def spareCount (x : Struct) : Nat :=
  match x with
  | .regBank => 2
  | .l1Way => 2
  | .localBank => 1
  | .arrayColumn => 2
  | .llcWay => 4
  | .hbmRow => 512
  | .hbmChannel => 2
  | .edramRow => 64
  | .abarathLane => 2
  | .biliqueLane => 1
  | _ => 0

/-- Spares used. -/
def State.sparesUsed (s : State) (code unit : Nat) : Nat :=
  (s.repair.spares.find? fun x => x.1 == code && x.2.1 == unit).elim 0 (·.2.2)

/-- Uses a spare. -/
def State.useSpare (s : State) (code unit : Nat) : State :=
  let n := s.sparesUsed code unit + 1
  { s with repair := { s.repair with
      spares := (s.repair.spares.filter fun x => !(x.1 == code && x.2.1 == unit)) ++ [(code, unit, n)] } }

/-- The record of a test or of what followed (19 R398). -/
def testRecord (t : SelfTest) (evt flags : Nat) : ErrRec :=
  { ErrRec.blank evt with
    struct := structCode t.struct, cluster := t.cluster, core := t.core, flags := flags, index := t.index }

/-- A core is retired: every launch with blocks on it is pre-empted, to resume elsewhere (19 R395). -/
def State.retireCore (s : State) (c : Nat) : State :=
  let s : State := { s with repair := { s.repair with cores := putNat c s.repair.cores } }
  let ls := ((s.blocks.filter fun b => b.core == c || b.core2 == some c).map (·.launch)).eraseDups
  ls.foldl (fun s l => s.startDrain l .retire) s

/-- The home table of a die without a cluster: its entries go to the next cluster that survives (11 R261). -/
def moveHomes (homes gone : List Nat) : List Nat :=
  homes.map fun h => if gone.contains h then
    (((List.range 16).map fun i => (h + i) % 16).find? fun k => !gone.contains k).getD h else h

/-- A cluster is retired: its homes move, and the launches with bands in it are replayed, or abort (11 R274, 19 R395). -/
def State.retireCluster (s : State) (k : Nat) : State :=
  let s : State := { s with repair := { s.repair with clusters := putNat k s.repair.clusters } }
  let die := k / 16
  let gone := (s.repair.clusters.filter fun x => x / 16 == die).map (· % 16)
  let table := moveHomes ((s.die die).homes) gone
  let next := (moveHomes [k % 16] gone).head?.getD (k % 16)
  let s := s.modDie die fun d => { d with homes := table }
  let s : State := { s with homes := s.homes.map fun r => if r.home == k then { r with home := 16 * die + next } else r }
  let ls := ((s.bands.filter fun b => b.cluster == k).map (·.launch)).eraseDups
  let s := ls.foldl (fun s l => s.replayFor l 6) s
  if 16 - gone.length < 8 then s.serviceRequest die 0 else s

/-- A port is taken down: its lane meets no spare, and a service request is raised (19 R394, R396, 22 R422). -/
def State.portDown (s : State) (t : SelfTest) : State :=
  ({ s with fabric := { s.fabric with portsUp := s.fabric.portsUp &&& ~~~((1 : BitVec 16) <<< testUnit t) } } : State).serviceRequest
    t.die (structCode t.struct)

/-- Physical lanes of the Abarath Link (20 R401). -/
def abarathLanes : Nat := 26

/-- A lane of the Abarath Link is lost with both spares used: the link runs on the rest, and below 22 lanes a service request is
raised (20 R416). -/
def State.laneLost (s : State) (t : SelfTest) : State :=
  let s := s.useSpare (structCode t.struct) (testUnit t)
  if abarathLanes - s.sparesUsed (structCode t.struct) (testUnit t) < 22 then s.serviceRequest t.die (structCode t.struct) else s

/-- What could not be read as a register bank or a bank of local memory was copied to its spare is poisoned (19 R394). -/
def State.poisonCopied (s : State) (t : SelfTest) : State :=
  let spoil (s : State) (q : GKey × Nat × Nat) : State := s.modGroup q.1 fun g =>
    if g.core != testCore t then g
    else g.modLane q.2.1 fun l => match l.v.get? q.2.2 with
      | some r => { l with v := { l.v with regs := putKey q.2.2 { r with poison := true } l.v.regs, srcs := dropKey q.2.2 l.v.srcs } }
      | none => l
  let word (s : State) (q : Nat × Nat × Nat) : State := s.modBlock q.1 q.2.1 fun b =>
    if b.core == testCore t || b.core2 == some (testCore t) then { b with mem := b.mem.markPoison q.2.2 4 } else b
  match t.struct with
  | .regBank => t.regs.foldl spoil s
  | .localBank => t.words.foldl word s
  | _ => s

/-- A spared column: the tiles of the slices that hold it are reloaded, and MSR.SPARED is set in each group that uses one of
them (09 R222, 19 R394). -/
def State.markSpared (s : State) (t : SelfTest) : State :=
  let c := testCore t
  let arr := t.index / 64 % 2
  let col := t.index % 64
  let uses (g : Group) : Bool := g.core == c && (s.core c).matrixUsers.contains g.key.launch &&
    decide (g.column ≤ col) && decide (col < g.column + g.w)
  let s : State := { s with groups := s.groups.map fun g => if uses g then { g with msr := g.msr ||| 8 } else g }
  s.reloadCore c fun y => y.holds arr col

/-- A core with a lasting fault is retired, and with the service group's core its whole cluster (11 R274, 19 R395). -/
def State.retireCoreOf (s : State) (t : SelfTest) : State :=
  if t.core % 4 == 0 then s.retireCluster (testCluster t) else s.retireCore (testCore t)

/-- What follows a lasting fault beyond the spares; tells whether a part was retired (19 R394). -/
def State.beyondSpares (s : State) (t : SelfTest) : State × Bool :=
  match t.struct with
  | .regBank => (s.retireCoreOf t, true)
  | .l1Way => (s.retireCoreOf t, true)
  | .localBank => (s.retireCoreOf t, true)
  | .arrayColumn => (s.retireCoreOf t, true)
  | .accPath => (s.retireCoreOf t, true)
  | .ceGe => (s.retireCoreOf t, true)
  | .coreLogic => (s.retireCoreOf t, true)
  | .llcWay => (s.retireCluster (testCluster t), true)
  | .serviceGroup => (s.retireCluster (testCluster t), true)
  | .cru => (s.retireCluster (testCluster t), true)
  | .compactionQueue => (s.retireCluster (testCluster t), true)
  | .ke => (s.retireCluster (testCluster t), true)
  | .treeWire => (s.modCp fun c => { c with retiredWires := putNat t.index c.retiredWires }, true)
  | .hbmRow =>
    let stack := 3 * t.die + t.index / 64
    if s.sparesUsed 15 stack < spareCount .hbmChannel then
      ((s.useSpare 15 stack).logError t.die { testRecord t 0x06 6 with struct := 15 }, false)
    else (s.serviceRequest t.die 15, false)
  | .biliqueLane => (s.portDown t, true)
  | .abarathLane => (s.laneLost t, false)
  | _ => (s.serviceRequest t.die (structCode t.struct), false)

/-- Cycles in 24 hours of die time. -/
def dayCycles : Nat := 86400 * 1000000 * usCycles

/-- Transient events of a structure within 24 hours of a time. -/
def State.recentEvents (s : State) (t : SelfTest) (now : Nat) : Nat :=
  (s.repair.events.filter fun e => e.1 == structCode t.struct && e.2.1 == testCore t && e.2.2.1 == t.index &&
    decide (now < e.2.2.2 + dayCycles)).length

/-- SELF_TEST_COMPLETE: a structure is classed transient or lasting, and a lasting one spared or retired (19 R393 to R396). -/
def execSelfTestComplete (t : SelfTest) (s : State) : Out :=
  let now := (s.die t.die).clock
  let s : State := { s with repair := { s.repair with tests := s.repair.tests.filter fun y =>
    !(y.struct == structCode t.struct && y.unit == testUnit t && y.index == t.index) } }
  let lasting := !t.passed || decide (3 ≤ s.recentEvents t now)
  if !lasting then
    let s : State := { s with repair := { s.repair with
      events := s.repair.events ++ [(structCode t.struct, testCore t, t.index, now)] } }
    .next ((s.logError t.die (testRecord t 0x05 1)).wakeGets.wakeAll)
  else
    let s := s.logError t.die (testRecord t 0x05 2)
    let code := structCode t.struct
    if s.sparesUsed code (testUnit t) < spareCount t.struct then
      let s := (s.useSpare code (testUnit t)).logError t.die (testRecord t 0x06 6)
      .next ((if t.struct == Struct.arrayColumn then s.markSpared t else s.poisonCopied t).wakeGets.wakeAll)
    else
      let r := s.beyondSpares t
      .next ((if r.2 then r.1.logError t.die (testRecord t 0x06 10) else r.1).wakeGets.wakeAll)

/-- ERROR_RECORD_WRITE: the record that has waited longest is written when the ring is open (19 R397). -/
def execErrorRecordWrite (die : Nat) (s : State) : Out :=
  match (s.die die).held with
  | [] => .next s
  | r :: rest =>
    if (s.die die).ringOpen then .next ((s.modDie die fun d => { d with held := rest }).ringWrite die r).wakeAll else .next s

/-- HBM_SCRUB: a line is read; when it was corrected it is repaired and recorded, and its row tested; its value does not change (15 R310,
19 R392). -/
def execHbmScrub (line : Nat) (corrected : Bool) (s : State) : Out :=
  let pa := 128 * line
  if corrected && inTier0 pa then
    .next ((s.logError (pa / 2 ^ 38 % 4) (correctedRec (ErrRec.blank 0x01) (memKey 0 pa))).testRow (memKey 0 pa))
  else .next s

/-- EDRAM_REFRESH: a bank's window begins or ends, as the die's clock says (15 R313). -/
def execEdramRefresh (die bank : Nat) (begins : Bool) (s : State) : Out :=
  let d := s.die die
  if begins then
    if d.refresh.isNone && decide (bank < 32) && inWindow d.clock bank then .next (s.modDie die fun d => { d with refresh := some bank })
    else .next s
  else if inWindow d.clock bank then .next s
  else .next (s.modDie die fun d => { d with refresh := if d.refresh == some bank then none else d.refresh }).wake

end Sys2Proof.Machine
end

