-- ==== Sys2Proof/Machine/Eviction.lean ====
section
/-!
DEFINITION. Eviction (22 R436 to R440): its phases, what it streams, and how it fails. How the two key stores' agreement and
the streamed state are encoded, and what the neighbour does with them, are not given by the spec.
-/

namespace Sys2Proof.Machine

open Sys2Proof

/-- Cycles of a second. -/
def secondCycles : Nat := 1000000 * usCycles

/-- The node number that the command processor keeps for EVREQ (20 R405): none that a record can name. -/
def evreqNode : NKey := ⟨0, 4096⟩

/-- Launches that run or are being pre-empted. -/
def State.runningLaunches (s : State) : List Nat := (s.cp.launches.filter fun l => l.state != .saved && l.state != .replaying).map (·.id)

/-- Begins an eviction, or after a failure begins it again at its third phase (22 R438, R440). -/
def State.beginEvict (s : State) (neigh grace : Nat) (force : Bool) (node : Option NKey) : State :=
  let again := s.dev.eviction.isSome
  s.modDev fun d =>
    { d with
      evictBit := true
      eviction := some { neigh := neigh, grace := grace, force := force, node := node, phase := if again then .keys else .stop,
                         since := (s.die 0).clock, expired := false, partners := [] } }

/-- Enters a phase. -/
def State.evictPhase (s : State) (p : EvictPhase) : State :=
  let now := (s.die 0).clock
  s.modDev fun d => { d with eviction := d.eviction.map fun e => { e with phase := p, since := now } }

/-- Launches that still run are pre-empted (22 R438). -/
def State.drainAll (s : State) : State := s.runningLaunches.foldl (fun s l => s.startDrain l .evict) s

/-- GRACE has ended: running launches are pre-empted. -/
def State.graceEnds (s : State) : State :=
  (s.modDev fun d => { d with eviction := d.eviction.map fun e => { e with expired := true } }).drainAll

/-- Phase 2 is over: no launch runs, no command runs, and the device's own accesses to peers have ended (22 R438). -/
def State.drainedAll (s : State) : Bool :=
  s.runningLaunches.isEmpty && s.copies.isEmpty && s.mscs.isEmpty && s.gathers.isEmpty && s.fabric.remote.isEmpty

/-! ### What is streamed (22 R438) -/

/-- Lines of 128 bytes of a range of TIER 0. -/
def linesIn (pa n : Nat) : List Nat := linesOf pa n

/-- The lines of a context's tables and of the TIER 0 pages they map, from a table of a level down. -/
def Memory.tableLines (m : Memory) : Nat → Nat → List Nat
  | lvl, t =>
    let count := if lvl == 2 then 32768 else if lvl == 1 then 256 else 512
    let entries := (List.range count).map fun i => (BitVec.ofNat 64 (m.readNat (memKey 0 (t + 8 * i)) 8) : BitVec 64)
    let pages := (entries.filter fun e => leafV e && leafL e && leafTier e == 0).flatMap fun e => linesIn (leafPa e) (levelSize lvl)
    linesIn t (8 * count) ++ pages ++
      match lvl with
      | 0 => []
      | n + 1 => (entries.filter fun e => leafV e && !leafL e && inTier0 (leafPa e)).flatMap fun e => m.tableLines n (leafPa e)

/-- The lines that an eviction streams: of every context its tables, mapped pages, save and snapshot areas and launch log, and
of every die the error records not yet consumed. -/
def State.evictLines (s : State) : List Nat :=
  let ctx (c : Context) : List Nat :=
    s.mem.tableLines 2 c.root ++ linesIn c.savePa c.saveLen ++ linesIn c.snapPa c.snapLen ++ linesIn c.logPa 8192
  let ring (d : Die) : List Nat := (List.range (d.eqtail - d.eqhead).toNat).flatMap fun i =>
    linesIn ((bitsOf d.eqbase 15 37).toNat * 2 ^ 15 + 32 * ((d.eqhead.toNat + i) % 1024)) 32
  (s.cp.ctxs.flatMap ctx ++ s.dies.flatMap ring).eraseDups

/-- The tags of a line's eight granules. -/
def Memory.lineTags (m : Memory) (line : Nat) : Nat :=
  (List.range 8).foldl (fun n i => n + if m.tag (memKey 0 (128 * line + 16 * i)) then 2 ^ i else 0) 0

/-- Bytes filled up to a size that a message may have (22 R421). -/
def padded (bs : List Byte) : List Byte :=
  let n := ([8, 16, 32, 64, 128].find? fun n => decide (bs.length ≤ n)).getD 128
  (bs ++ List.replicate n 0).take n

/-- Registers and graph nodes as they are streamed: a queue's registers, a live node's record, a launch's range entries. -/
def State.evictRecords (s : State) : List (List Byte) :=
  ((s.cp.queues.map fun q => natBytes 8 q.base.toNat ++ natBytes 8 q.cfg.toNat ++ natBytes 4 q.head.toNat ++ natBytes 4 q.tail.toNat) ++
  (s.cp.nodes.map fun n => natBytes 64 n.record.toNat) ++
  s.cp.launches.flatMap fun l => l.ranges.map fun r =>
    natBytes 8 r.va ++ natBytes 8 r.len ++ natBytes 8 r.img ++ natBytes 4 r.slice ++
    natBytes 4 (r.use + 4 * r.reuse + (if r.lazy then 16 else 0))).map padded

/-- The live key slots as they are sent, under the transfer key that the two key stores agree: ciphertext that is open, one portion
of 128 bytes for each. -/
def State.evictKeys (s : State) : List (List Byte) :=
  (s.cp.keys.filter fun k => !k.retiring).zipIdx.map fun q => openBytes (s.free + 128 * q.2) 128

/-- Sends portions of the stream from a number on: each in one message, numbered in PHASE, the last of all marked (22 R421, R438). -/
def State.sendPortions (s : State) (neigh first total : Nat) (ps : List (List Byte × Nat × Nat × Bool)) : State :=
  ps.zipIdx.foldl (fun (s : State) p =>
    let bs := p.1.1
    ({ s with fabric := { s.fabric with nextTag := s.fabric.nextTag + 1 } } : State).sendMsg
      { type := mEVSTREAM, poison := p.1.2.2.2, last := first + p.2 + 1 == total, src := s.dev.fdevid.toNat, dst := neigh,
        tag := s.fabric.nextTag % 65536, addr := p.1.2.1, size := bs.length, code := p.1.2.2.1, phase := first + p.2, data := bs }) s

/-- Sends the key slots, and then the stream: a message for each slot, line and record (22 R438). -/
def State.sendStream (s : State) (neigh : Nat) : State :=
  let keys := s.evictKeys.map fun bs => (bs, 0, 0, false)
  let lines := s.evictLines.map fun line =>
    (s.mem.readN (memKey 0 (128 * line)) 128, 128 * line, s.mem.lineTags line, s.mem.poisoned (memKey 0 (128 * line)))
  let recs := s.evictRecords.map fun bs => (bs, 0, 0, false)
  let total := (keys ++ lines ++ recs).length
  let sent := s.sendPortions neigh 0 total keys
  ({ sent with free := sent.free + 128 * keys.length } : State).sendPortions neigh keys.length total (lines ++ recs)

/-- The link partners: devices that routes lead to (22 R438). -/
def State.linkPartners (s : State) : List Nat :=
  (s.dev.froute.filter fun e => e.1 != s.dev.fdevid.toNat && s.reachable e.1).map (·.1)

/-- WITHDRAW to every link partner. -/
def State.sendWithdraws (s : State) : State :=
  let ps := s.linkPartners
  let s := ps.foldl (fun (s : State) p => s.barrierMsg mWITHDRAW p 0 0) s
  s.modDev fun d => { d with eviction := d.eviction.map fun e => { e with partners := ps } }

/-- The eviction has succeeded: the module may be pulled; an EVICT that waited fails (22 R438, R441). -/
def State.unlatch (s : State) (node : Option NKey) : State :=
  let s := (s.evictPhase .unlatch).modDev fun d => { d with unlatch := true, evictBit := false }
  (s.cp.nodes.filter fun n => n.op == 6 && some n.key != node).foldl (fun s n => s.failNode n.key) s

/-- The seconds that running launches have: FORCE acts as GRACE = 0 (22 R436). -/
def Eviction.seconds (e : Eviction) : Nat := if e.force then 0 else e.grace

/-- The eviction goes on with what its phase asks. -/
def State.advanceEvict (s : State) (e : Eviction) : State :=
  match e.phase with
  | .stop =>
    let s := s.evictPhase .drain
    if e.seconds == 0 then s.graceEnds else s
  | .drain => if s.drainedAll then s.evictPhase .keys else s
  | .keys => if s.reachable e.neigh then (s.evictPhase .stream).sendStream e.neigh else s.evictFail
  | .stream => (s.evictPhase .routes).sendWithdraws
  | .routes => if e.partners.isEmpty then s.unlatch e.node else s
  | .unlatch => s
  | .failed => s

/-- An EVICT node that may begin: the next to start; after a failure the first that is ready (22 R440). -/
def State.evictStart (s : State) (k : NKey) : Option Node :=
  match s.dev.eviction with
  | none => s.starting k 6
  | some e =>
    if e.phase != .failed then none
    else (s.cp.nodes.find? fun n => n.op == 6 && n.state == .ready).filter fun n => n.key == k

/-- EVICT: the command begins, or the eviction it began goes on (22 R436, R438). -/
def execEvict (k : NKey) (s : State) : Out :=
  match s.evictStart k with
  | some n =>
    let r := n.record
    .next ((s.runNode k).beginEvict (recBytes r 32 2 % 4096) (recBytes r 34 1) ((recBytes r 35 1).testBit 0) (some k)).wake
  | none =>
    match s.dev.eviction with
    | none => .next s
    | some e => if e.node.getD evreqNode == k then .next (s.advanceEvict e).wake else .next s

/-- EVICT_GRACE_EXPIRY (22 R438). -/
def execEvictGraceExpiry (s : State) : Out :=
  match s.dev.eviction with
  | some e =>
    if e.phase == .drain && !e.expired && decide (e.since + e.seconds * secondCycles ≤ (s.die 0).clock) then .next s.graceEnds.wake
    else .next s
  | none => .next s

/-- The bound of a phase, in cycles (22 R438). -/
def EvictPhase.bound (p : EvictPhase) (grace : Nat) : Option Nat :=
  match p with
  | .stop => some (10000 * usCycles)
  | .drain => some ((grace + 1) * secondCycles)
  | .keys => some (100000 * usCycles)
  | .stream => some (4 * secondCycles)
  | .routes => some (200000 * usCycles)
  | .unlatch => none
  | .failed => none

/-- EVICT_PHASE_OVERRUN (22 R440). -/
def execEvictPhaseOverrun (s : State) : Out :=
  match s.dev.eviction with
  | some e =>
    match e.phase.bound e.seconds with
    | some b => if e.since + b < (s.die 0).clock then .next s.evictFail else .next s
    | none => .next s
  | none => .next s

/-- A write of EVREQ: the management bus asks for an eviction; ignored while one runs, or with a field out of range, and
while the device dispatches nothing (20 R405, R408). -/
def State.writeEvreq (s : State) (v : BitVec 32) : State :=
  let grace := (bitsOf v 16 5).toNat
  let bad := bitsOf v 25 6 != 0 || bitsOf v 21 3 != 0 || bitsOf v 12 4 != 0 || decide (20 < grace)
  let running := s.dev.eviction.any fun e => e.phase != .failed
  if !bitOf v 31 || bad || running || s.dev.bstate != 5 || s.dev.pwr == 3 then s
  else s.beginEvict (bitsOf v 0 12).toNat grace (bitOf v 24) none

/-- EVREQ_WRITE (20 R405). -/
def execEvreqWrite (v : BitVec 32) (s : State) : Out := .next (s.writeEvreq v).wake

end Sys2Proof.Machine
end

