-- ==== Sys2Proof/Machine/Install.lean ====
section
/-!
DEFINITION. The neighbour of a device that evicts (22 R437, R439, R441): it keeps the stream, and with the last message installs
what it carries. How keys, registers, nodes and launches are encoded in the stream is open, and so is which free frames and
numbers the neighbour gives them: both are one free value (log entry 158).
-/

namespace Sys2Proof.Machine

open Sys2Proof

/-- What a stream carries beside the lines of memory, under the numbers that the neighbour gives; and where each table, page and
area goes: its address on the evicted device, its bytes, its address here. -/
structure Streamed where
  ctxs : List Context
  keys : List KeySlot
  queues : List Queue
  nodes : List Node
  launches : List Launch
  frames : List (Nat × Nat × Nat)
  deriving DecidableEq, Repr

end Sys2Proof.Machine

namespace Sys2Proof.Config

open Sys2Proof.Machine

/-- What stream number `n` says: a free value (22 R439). Log entry 158. -/
opaque streamed : Nat → List Msg → Option Streamed

end Sys2Proof.Config

namespace Sys2Proof.Machine

open Sys2Proof

/-- Where an address of the evicted device lies here. -/
def Streamed.here (x : Streamed) (pa : Nat) : Nat :=
  match x.frames.find? fun f => decide (f.1 ≤ pa) && decide (pa < f.1 + f.2.1) with
  | some f => f.2.2 + (pa - f.1)
  | none => pa

/-- An area of the evicted device has a place here. -/
def Streamed.places (x : Streamed) (pa n : Nat) : Bool :=
  n == 0 || x.frames.any fun f => decide (f.1 ≤ pa) && decide (pa + n ≤ f.1 + f.2.1)

/-- Memory as the stream's lines give it, at the addresses of the evicted device. -/
def streamLines (ms : List Msg) (here : Nat → Nat) (m : Memory) : Memory :=
  (ms.filter fun y => y.size == 128 && y.addr != 0).foldl (fun (m : Memory) y =>
    let key := memKey 0 (here y.addr)
    let m := m.write key y.data y.poison
    { m with tags := (List.range 8).foldl (fun t i => if y.code.testBit i then putNat ((key + 16 * i) / 16) t else t) m.tags }) m

/-- An entry with the frame it names here; TIER 2 and TIER 3 leaves stay (22 R439). -/
def Streamed.entry (x : Streamed) (e : BitVec 64) : BitVec 64 :=
  if leafL e && leafTier e != 0 then e
  else (e &&& ~~~(0x000FFFFFFFFFF000#64)) ||| (BitVec.ofNat 64 (x.here (leafPa e) / 4096) <<< 12)

/-- The entries of the tables from a level down, by their addresses. -/
def Memory.entriesBelow (m : Memory) : Nat → Nat → List (Nat × BitVec 64)
  | lvl, t =>
    let es := m.tableEntries lvl t
    es.map (fun q => (t + 8 * q.1, q.2)) ++
      match lvl with
      | 0 => []
      | n + 1 => (es.filter fun q => !leafL q.2 && inTier0 (leafPa q.2)).flatMap fun q => m.entriesBelow n (leafPa q.2)

/-- What a stream carries can be installed: its numbers are free here, and each table, TIER 0 page and area has a place in free
frames of its own. -/
def State.installs (s : State) (x : Streamed) (was : Memory) : Bool :=
  let nums := x.ctxs.map (·.num)
  nums.eraseDups.length == nums.length && nums.all (fun n => n != 0 && decide (n ≤ 2047) && (s.ctx? n).isNone) &&
  x.launches.all (fun l => nums.contains l.ctx && (s.launch? l.id).isNone && (l.state == .saved || l.state == .replaying) &&
    x.nodes.any fun n => n.key == l.node && n.launch == some l.id) &&
  x.nodes.all (fun n => (s.node? n.key).isNone && (n.key.ctx == 0 || nums.contains n.key.ctx) && x.queues.any fun q => q.n == n.queue) &&
  x.queues.all (fun q => !(s.cp.queues.any fun y => y.n == q.n)) &&
  (x.keys.map (·.n)).eraseDups.length == x.keys.length &&
  x.keys.all (fun k => nums.contains k.ctx && !k.retiring && !(s.cp.keys.any fun y => y.n == k.n)) &&
  x.frames.zipIdx.all (fun q => q.1.2.2 % 4096 == 0 && inTier 0 q.1.2.2 q.1.2.1 && !s.frameUsed (memKey 0 q.1.2.2) q.1.2.1 &&
    !((x.frames.drop (q.2 + 1)).any fun y => overlaps (y.2.2, y.2.1) q.1.2.2 q.1.2.1)) &&
  x.ctxs.all fun c =>
    let map := was.mapping 2 c.root 0
    x.places c.savePa c.saveLen && x.places c.snapPa c.snapLen && x.places c.logPa 8192 && map.2.all (fun t => x.places t.1 t.2) &&
    map.1.all fun l => leafTier l.2.2 != 0 || (x.places (leafPa l.2.2) (levelSize l.2.1) &&
      x.here (leafPa l.2.2) % levelSize l.2.1 == 0)

/-- A launch as it resumes here, or is replayed: its snapshotted pages follow their frames, and a barrier phase that was under way
across devices is announced again (22 R439, R441). -/
def Streamed.launch (x : Streamed) (l : Launch) : Launch :=
  { l with
    pages := l.pages.map fun p => { p with frame := memKey 0 (x.here (keyPa p.frame)) }
    lranges := []
    trees := l.trees.map fun t => { t with since := none } }

/-- A node as it enters its queue here: the EVICT that was streamed completes (22 R439). -/
def Streamed.node (n : Node) (nextId now : Nat) : Node :=
  if n.op == 6 then { n with state := .effectDone }
  else if n.launch.isSome then { n with state := .ready, readyNo := nextId, readyAt := now } else n

/-- Installs a stream (22 R439). -/
def State.install (s : State) (x : Streamed) (ms : List Msg) : State :=
  let was := streamLines ms id ⟨[], [], []⟩
  if !s.installs x was then s
  else
    let mem := x.ctxs.foldl (fun (m : Memory) c => (was.entriesBelow 2 c.root).foldl (fun (m : Memory) q =>
      m.putEntry (x.here q.1) (x.entry q.2)) m) (streamLines ms x.here s.mem)
    let ctxs := x.ctxs.map fun c =>
      { c with root := x.here c.root, savePa := x.here c.savePa, snapPa := x.here c.snapPa, logPa := x.here c.logPa }
    let install (d : Die) : Die :=
      { d with desc := ctxs.foldl (fun l c => putKey c.num c.root l) d.desc
               pkr := ctxs.foldl (fun l c => putKey c.num c.pkr l) d.pkr }
    let now := (s.die 0).clock
    (({ s with mem := mem, dies := s.dies.map install, nextId := s.nextId + 1 } : State).modCp fun p =>
      { p with
        ctxs := p.ctxs ++ ctxs, keys := p.keys ++ x.keys, seqsUsed := p.seqsUsed ++ x.keys.map (·.seq), queues := p.queues ++ x.queues
        nodes := p.nodes ++ x.nodes.map fun n => Streamed.node n s.nextId now
        launches := p.launches ++ x.launches.map x.launch
        nextLaunch := x.launches.foldl (fun n l => max n (l.id + 1)) p.nextLaunch }).wakeAll

/-- EVSTREAM: a portion of a device's state is kept while FRECV grants it, else refused; with the last one the state is installed
(22 R437, R439). The code of a refusal is open. -/
def execEvstream (m : Msg) (s : State) : Out :=
  s.receive m mEVSTREAM fun s =>
    if s.dev.frecvEn && s.dev.frecvSrc.toNat == m.src then
      let mine (y : Msg) : Bool := y.type == mEVSTREAM && y.src == m.src
      let ms := s.fabric.received.filter mine ++ [m]
      if !m.last then { s with fabric := { s.fabric with received := s.fabric.received ++ [m] } }
      else
        let s' : State := { s.drawn with fabric := { s.fabric with received := s.fabric.received.filter fun y => !mine y } }
        match Config.streamed s.free ms with
        | some x => s'.install x ms
        | none => s'
    else
      s.drawn.answerMsg m mNACK (1 + (Config.freeWord s.free).toNat % 4) false []

end Sys2Proof.Machine
end

