-- ==== Sys2Proof/Machine/Driver.lean ====
section
/-!
DEFINITION. The driver: its commands (20 R406), the registers of apertures 0 and 2 (20 R403, R404), host accesses
(20 R401), and attestation (20 R411, R412).
-/

namespace Sys2Proof.Machine

open Sys2Proof

/-- An aperture answers: the device is powered; in Recovery only aperture 2 and the management endpoint (20 R408, R414). The
identity store answers whether the device is powered or not (20 R413). -/
def State.answersAt (s : State) (aperture : Nat) : Bool :=
  aperture == 4 || (s.dev.pwr != 3 && (s.dev.bstate != 7 || aperture == 2 || aperture == 3))

/-! ### The driver's commands (20 R406) -/

/-- A write of CPCTL: a command starts with the operands as they stand; OP 0 is refused at once; a busy processor ignores
it. -/
def State.writeCpctl (s : State) (v : BitVec 64) : State :=
  let op := (bitsOf v 0 8).toNat
  if s.cp.status == 1 then s
  else if op == 0 || 8 ≤ op then s.endCp 1
  else s.modCp fun c => { c with status := 1, result := 0, op := op, cmd := c.arg }

/-- An area lies in TIER 0, or is empty. -/
def areaOk (pa len : Nat) : Bool := len == 0 || (decide (len < 2 ^ 40) && inTier 0 pa len)

/-- CTXCREATE. -/
def execCtxcreate (s : State) : Out :=
  if !s.commanded 1 then .next s
  else
    let a := s.cpArg
    if 2047 < a 0 || a 1 % 2 ^ 18 != 0 || !inTier 0 (a 1) (2 ^ 18) || !areaOk (a 2) (a 3) || !areaOk (a 4) (a 5) ||
        a 6 % 8192 != 0 || !inTier 0 (a 6) 8192 then .next (s.endCp 2)
    else if (s.ctx? (a 0)).isSome then .next (s.endCp 3)
    else
      let c : Context :=
        { num := a 0, root := a 1, savePa := a 2, saveLen := a 3, snapPa := a 4, snapLen := a 5, logPa := a 6, pkr := 0 }
      let install (d : Die) : Die := { d with desc := putKey (a 0) (a 1) d.desc }
      .next (((({ s with dies := s.dies.map install } : State).modCp fun p => { p with ctxs := p.ctxs ++ [c] }).endCp 0).wake)

/-- Something of a context remains: a launch, a live node, an enabled queue or a live key slot. -/
def State.ctxInUse (s : State) (n : Nat) : Bool :=
  (s.cp.launches.any fun l => l.ctx == n) || (s.cp.nodes.any fun x => x.key.ctx == n) ||
  (s.cp.queues.any fun q => q.en && q.ctx == n) || s.cp.keys.any fun k => k.ctx == n && !k.retiring

/-- Removes a context from a port. -/
def Die.dropCtx (d : Die) (n : Nat) : Die :=
  let d := d.invalidate n none
  { d with desc := dropKey n d.desc, pkr := dropKey n d.pkr, faults := d.faults.filter fun f => f.1 != n }

/-- CTXDESTROY. -/
def execCtxdestroy (s : State) : Out :=
  if !s.commanded 2 then .next s
  else
    let n := s.cpArg 0
    if 2047 < n then .next (s.endCp 2)
    else if (s.ctx? n).isNone || s.ctxInUse n then .next (s.endCp 3)
    else
      let remove (p : CmdProc) : CmdProc :=
        { p with ctxs := p.ctxs.filter fun c => c.num != n, lazy := p.lazy.filter fun r => r.ctx != n
                 snapFaults := p.snapFaults.filter fun f => f.1 != n, badPages := p.badPages.filter fun b => b.ctx != n
                 replicas := p.replicas.filter fun r => r.1 != n }
      .next ((({ s with dies := s.dies.map fun d => d.dropCtx n } : State).modCp remove).endCp 0)

/-- SEQOPEN: the key store draws two keys and makes the slot live (16 R333). -/
def execSeqopen (s : State) : Out :=
  if !s.commanded 3 then .next s
  else
    let a := s.cpArg
    if 4095 < a 0 || 2047 < a 1 || 2 ^ 32 ≤ a 2 then .next (s.endCp 2)
    else if (s.cp.keys.any fun k => k.n == a 0) || s.cp.seqsUsed.contains (BitVec.ofNat 32 (a 2)) || (s.ctx? (a 1)).isNone then
      .next (s.endCp 3)
    else
      let k : KeySlot :=
        { n := a 0, retiring := false, ctx := a 1, seq := BitVec.ofNat 32 (a 2), k1 := Config.keyDraw s.cp.keyDraws,
          k2 := Config.keyDraw (s.cp.keyDraws + 1), refs := [] }
      .next ((s.modCp fun c =>
        { c with keys := c.keys ++ [k], seqsUsed := c.seqsUsed ++ [k.seq], keyDraws := c.keyDraws + 2 }).endCp 0)

/-- SEQCLOSE: steps 2 to 6 of `seqend` on a slot (16 R339); it ends with the last step. -/
def execSeqclose (s : State) : Out :=
  if !s.commanded 4 then .next s
  else
    let n := s.cpArg 0
    if 4095 < n then .next (s.endCp 2)
    else if !(s.cp.keys.any fun k => k.n == n && !k.retiring) then .next (s.endCp 3)
    else
      let (id, s) := s.fresh
      .next ((s.modCp fun c => { c with op := 260 }).startRetire id n none).wake

/-- CANCEL: a live node fails; a running LAUNCH aborts and reports (18 R359, 19 R443). -/
def execCancel (s : State) : Out :=
  if !s.commanded 5 then .next s
  else
    let k : NKey := ⟨s.cpArg 0, s.cpArg 1⟩
    if 2047 < k.ctx || 4095 < k.num then .next (s.endCp 2)
    else
      match s.node? k with
      | none => .next (s.endCp 3)
      | some n =>
        let s := s.endCp 0
        .next (match n.launch.bind s.launch? with
          | some l => s.abortLaunch l.id ⟨2, 0, 0, 0⟩
          | none => s.failNode k).wakeAll

/-- INVAL: every port is told, and the command ends when all have acknowledged (15 R321). -/
def execInval (s : State) : Out :=
  if !s.commanded 7 then .next s
  else
    let a := s.cpArg
    if 2047 < a 0 || 2 ^ 48 ≤ a 1 || 1 < a 2 then .next (s.endCp 2)
    else if (s.ctx? (a 0)).isNone then .next (s.endCp 3)
    else .next (s.modCp fun c => { c with op := 263, invalAcks := [0, 1, 2, 3] })

/-! ### Queue registers (18 R351, R352) -/

/-- The device takes queue writes: Ready (20 R408). -/
def State.queuesOpen (s : State) : Bool := s.dev.bstate == 5

/-- QTAIL_WRITE: a host appends; a tail out of range is ignored and recorded (18 R352). -/
def State.writeQtail (s : State) (q : Nat) (v : BitVec 64) : State :=
  let r := s.queue q
  let t : Word := bitsOf v 0 32
  if !s.queuesOpen || 64 ≤ q || r.src then s
  else if (t - r.head).toNat ≤ 2 ^ r.log2n then s.setQueue { r with tail := t }
  else s.logError 0 { ErrRec.blank 0x0E with addr := q }

/-- What QCFG holds after a write: while EN is 1 only EN changes. -/
def qcfgWrite (old v : BitVec 64) : BitVec 64 :=
  let en : BitVec 64 := (bitsOf v 63 1).setWidth 64 <<< 63
  let size := (bitsOf v 55 4).toNat
  let log : BitVec 64 := if decide (4 ≤ size) && decide (size ≤ 12) then v &&& (0xF <<< 55) else old &&& (0xF <<< 55)
  if bitOf old 63 then (old &&& ~~~((1 : BitVec 64) <<< 63)) ||| en
  else en ||| (v &&& 0x7800000000000000) ||| (v &&& 0x007FF00000000000) ||| log

/-- QCFG_WRITE (18 R351). -/
def State.writeQcfg (s : State) (q : Nat) (v : BitVec 64) : State :=
  let r := s.queue q
  if !s.queuesOpen || 64 ≤ q then s else s.setQueue { r with cfg := qcfgWrite r.cfg v }

/-- A write of QBASE: ignored while EN is 1. -/
def State.writeQbase (s : State) (q : Nat) (v : BitVec 64) : State :=
  let r := s.queue q
  if !s.queuesOpen || r.en then s else s.setQueue { r with base := (bitsOf v 0 48).setWidth 64 }

/-- QTAIL_WRITE (18 R352). -/
def execQtailWrite (q : Nat) (v : BitVec 64) (s : State) : Out := .next (s.writeQtail q v)

/-- QCFG_WRITE (18 R351). -/
def execQcfgWrite (q : Nat) (v : BitVec 64) (s : State) : Out := .next (s.writeQcfg q v)

/-! ### Other registers -/

/-- A write of an LLC range register: ignored as a whole, and recorded, when the limits would break (15 R305). -/
def State.writeLrange (s : State) (die n : Nat) (lim : Bool) (v : BitVec 64) : State :=
  let d := s.die die
  let ctl := d.lctl[n]?.getD 0
  let lm := d.llim[n]?.getD 0
  if 4 ≤ die || 8 ≤ n then s
  else
    match s.setRange die n (if lim then ctl else lrCtl ctl v) (if lim then lrLim v else lm) with
    | some s => s
    | none => s.logError die { ErrRec.blank 0x0B with index := n }

/-- LRANGE_WRITE (15 R305). -/
def execLrangeWrite (die n : Nat) (lim : Bool) (v : BitVec 64) (s : State) : Out :=
  .next (if s.answersAt 0 then s.writeLrange die n lim v else s)

/-- A write of FACCEPTn: in Offer only; that of FACCEPT0 makes the device Ready and locks all four (20 R410). -/
def State.writeFaccept (s : State) (n : Nat) (v : BitVec 64) : State :=
  if s.dev.bstate != 4 || s.dev.locked || 4 ≤ n then s
  else
    let acc := if n == 0 then v &&& Config.feat0 else 0
    let s := s.modDev fun d => { d with facc := d.facc.set n acc }
    if n == 0 then s.modDev fun d => { d with bstate := 5, locked := true } else s

/-- FACCEPT_WRITE (20 R410). -/
def execFacceptWrite (n : Nat) (v : BitVec 64) (s : State) : Out := .next (s.writeFaccept n v).wake

/-- A write of ARB: fuses are blown, up to the running SVN and never fewer (20 R409). -/
def State.writeArb (s : State) (v : BitVec 64) : State :=
  if decide (v.toNat ≤ s.dev.svn) && decide (s.dev.fuses ≤ v.toNat) && decide (v.toNat ≤ 64) then
    s.modDev fun d => { d with fuses := v.toNat }
  else s

/-- ARB_WRITE (20 R409). -/
def execArbWrite (v : BitVec 64) (s : State) : Out := .next (s.writeArb v)

/-- A write of PWRREQ, to a device that is powered: a request replaces one that is pending; with PREEMPT running launches are pre-empted (20 R414). -/
def State.writePwrreq (s : State) (v : BitVec 64) : State :=
  if s.dev.pwr == 3 then s else
  let state := (bitsOf v 0 2).toNat
  let s := s.modDev fun d => { d with pwrReq := state, pwrPreempt := bitOf v 8, pwrPend := state != d.pwr }
  if s.dev.pwrPend && s.dev.pwrPreempt && s.dev.pwr == 0 then s.runningLaunches.foldl (fun s l => s.startDrain l .power) s else s

/-- PWRREQ_WRITE (20 R405, R414). -/
def execPwrreqWrite (v : BitVec 64) (s : State) : Out := .next (s.writePwrreq v).wake

/-- FDEVID_WRITE: ignored unless BSTATE is Offer (22 R423). -/
def State.writeFdevid (s : State) (v : BitVec 64) : State :=
  if s.dev.bstate == 4 then s.modDev fun d => { d with fdevid := bitsOf v 0 12 } else s

/-- FDEVID_WRITE (22 R423). -/
def execFdevidWrite (v : BitVec 64) (s : State) : Out := .next (s.writeFdevid v)

/-- The context of a barrier descriptor. -/
def fbdCtxOf (d : BitVec 64) : Nat := (bitsOf d 40 11).toNat

/-- A write of FBDn: ignored while a launch of the context holds n (22 R432). -/
def State.writeFbd (s : State) (n : Nat) (v : BitVec 64) : State :=
  let old := (lookupKey n s.dev.fbd).getD 0
  let held := s.cp.launches.any fun l => (l.ctx == fbdCtxOf old || l.ctx == fbdCtxOf v) && l.trees.any fun t => t.n == n
  if 32 ≤ n || held then s else s.modDev fun d => { d with fbd := putKey n v d.fbd }

/-- FBD_WRITE (22 R432). -/
def execFbdWrite (n : Nat) (v : BitVec 64) (s : State) : Out := .next (if s.answersAt 0 then s.writeFbd n v else s)

/-! ### Attestation (20 R411, R412) -/

/-- Numbers as the bits of bytes. -/
def bitMask (n : Nat) (l : List Nat) : List Byte :=
  (List.range n).map fun i => BitVec.ofNat 8 ((List.range 8).foldl (fun m k => m + if l.contains (8 * i + k) then 2 ^ k else 0) 0)

/-- Bytes 0 to 143 of a report. -/
def State.reportHead (s : State) : List Byte :=
  natBytes 4 1 ++ natBytes 4 s.dev.attIndex ++ natBytes 16 Config.fuseId.toNat ++ natBytes 32 s.dev.measurement.toNat ++
  natBytes 8 Config.feat0.toNat ++ natBytes 8 (s.dev.facc[0]?.getD 0).toNat ++ bitMask 32 s.repair.cores ++
  bitMask 8 s.repair.clusters ++ s.dev.attNonce.flatMap fun w => natBytes 8 w.toNat

/-- A request for a report: its index is taken before anything is signed; a busy one ignores it (20 R411, R412). -/
def State.startReport (s : State) : State :=
  if s.dev.attStatus == 1 then s
  else if 2 ^ 20 ≤ s.dev.attIndex then s.modDev fun d => { d with attStatus := 3 }
  else
    let head := s.reportHead
    s.modDev fun d => { d with attStatus := 1, attIndex := d.attIndex + 1, attReport := head }

/-- ATTESTATION_REQUEST (20 R412). -/
def execAttestationRequest (s : State) : Out := .next s.startReport

/-- The report's bytes go to the host's buffer over the Abarath Link, at most 128 in one message (20 R402, R412). -/
def State.sendReport (s : State) (bs : List Byte) : State :=
  let msg (i : Nat) : Nat × Msg :=
    let part := (bs.drop (128 * i)).take 128
    let a := s.dev.attBuf.toNat + 128 * i
    (hostLink, { type := mWR, poison := false, last := true, src := s.dev.fdevid.toNat, dst := a / 2 ^ 40, tag := (s.fabric.nextTag + i) % 65536,
                 addr := a % 2 ^ 40, size := part.length, code := 0, phase := 0, data := part })
  let n := ceilDiv bs.length 128
  { s with fabric := { s.fabric with sent := s.fabric.sent ++ (List.range n).map msg, nextTag := s.fabric.nextTag + n } }

/-- ATTESTATION_REPORT_WRITTEN: the report is signed and written to the host's buffer; or the buffer is unreachable, and no
index is used (20 R412). -/
def execAttestationReportWritten (reached : Bool) (s : State) : Out :=
  if s.dev.attStatus != 1 then .next s
  else if reached then
    let head := s.dev.attReport
    let sig := ((Config.xmssSign (s.dev.attIndex - 1) head) ++ List.replicate 2820 0).take 2820
    .next ((s.sendReport (head ++ sig)).modDev fun d => { d with attStatus := 2, attReport := head ++ sig })
  else .next (s.modDev fun d => { d with attStatus := 4, attIndex := d.attIndex - 1, attReport := [] })

/-! ### The register map (20 R403, R404), and the management bus (20 R405, R413)

The two targets of the management bus are numbered as apertures 3 (the endpoint, by command code) and 4 (the identity
store, by byte). Log entry 8. -/

/-- A register of aperture 0 or 2, or of the management endpoint. -/
inductive RegName where
  | feat (n : Nat) | facc (n : Nat) | linkto | fdevid | flinkto | frecv | pwrreq | cparg (n : Nat) | cpctl
  | qbase (q : Nat) | qcfg (q : Nat) | qhead (q : Nat) | qtail (q : Nat) | fbd (n : Nat) | fwinCtl (n : Nat) | fwinLim (n : Nat)
  | lctl (die n : Nat) | llim (die n : Nat) | ewref (die : Nat) | eqbase (die : Nat) | eqhead (die : Nat) | eqtail (die : Nat)
  | eqlost (die : Nat) | scnt (die : Nat) | froute (n : Nat)
  | bstate | arb | attctl | attbuf | attnonce (n : Nat) | keySlot (n : Nat)
  | mstat | evreq
  deriving DecidableEq, Repr

/-- The registers of a die, by offset within its block. -/
def dieReg (d o : Nat) : Option RegName :=
  if o < 0x80 then some (if o % 16 == 0 then .lctl d (o / 16) else .llim d (o / 16))
  else if o == 0x100 then some (.ewref d)
  else if o == 0x200 then some (.eqbase d)
  else if o == 0x208 then some (.eqhead d)
  else if o == 0x210 then some (.eqtail d)
  else if o == 0x218 then some (.eqlost d)
  else if o == 0x220 then some (.scnt d)
  else none

/-- The registers of a queue. -/
def queueReg (q o : Nat) : RegName := if o == 0 then .qbase q else if o == 8 then .qcfg q else if o == 16 then .qhead q else .qtail q

/-- Aperture 0 (20 R403). -/
def aperture0 (o : Nat) : Option RegName :=
  if o < 0x20 then some (.feat (o / 8))
  else if o < 0x40 then some (.facc (o / 8 - 4))
  else if o == 0x40 then some .linkto
  else if o == 0x48 then some .fdevid
  else if o == 0x50 then some .flinkto
  else if o == 0x58 then some .frecv
  else if o == 0x60 then some .pwrreq
  else if 0x100 ≤ o && o < 0x140 then some (.cparg ((o - 0x100) / 8))
  else if o == 0x140 then some .cpctl
  else if 0x1000 ≤ o && o < 0x1800 then some (queueReg ((o - 0x1000) / 32) (o % 32))
  else if 0x2000 ≤ o && o < 0x2100 then some (.fbd ((o - 0x2000) / 8))
  else if 0x2100 ≤ o && o < 0x2200 then some (if o % 16 == 0 then .fwinCtl ((o - 0x2100) / 16) else .fwinLim ((o - 0x2100) / 16))
  else if 0x100000 ≤ o && o < 0x140000 then dieReg ((o - 0x100000) / 0x10000) (o % 0x10000)
  else if 0x200000 ≤ o && o < 0x208000 then some (.froute ((o - 0x200000) / 8))
  else none

/-- Aperture 2 (20 R404). -/
def aperture2 (o : Nat) : Option RegName :=
  if o == 0 then some .bstate
  else if o == 8 then some .arb
  else if o == 0x10 then some .attctl
  else if o == 0x18 then some .attbuf
  else if 0x20 ≤ o && o < 0x40 then some (.attnonce ((o - 0x20) / 8))
  else if 0x10000 ≤ o && o < 0x18000 then some (.keySlot ((o - 0x10000) / 8))
  else none

/-- The command codes of the management endpoint (20 R405). -/
def endpointReg (code : Nat) : Option RegName := [RegName.mstat, .bstate, .pwrreq, .evreq][code]?

/-- The register at an offset of an aperture. -/
def regAt (aperture offset : Nat) : Option RegName :=
  if aperture == 3 then endpointReg offset
  else if offset % 8 != 0 then none else if aperture == 0 then aperture0 offset else if aperture == 2 then aperture2 offset else none

/-- The state of a key slot as the driver reads it (16 R333). -/
def State.keySlotWord (s : State) (n : Nat) : BitVec 64 :=
  match s.cp.keys.find? fun k => k.n == n with
  | none => 0
  | some k => BitVec.ofNat 64 ((if k.retiring then 2 else 1) * 2 ^ 62 + k.ctx * 2 ^ 32 + k.seq.toNat)

/-- MSTAT (20 R413). -/
def State.mstat (s : State) : BitVec 64 :=
  let bit (b : Bool) (n : Nat) : Nat := if b then 2 ^ n else 0
  BitVec.ofNat 64 (s.dev.pwr * 256 + bit s.dev.throt 7 + bit s.dev.unlatch 6 + bit s.dev.evictBit 5 + bit s.dev.svcreq 4 +
    bit (s.dev.bstate == 7) 3)

/-- The 4 KiB of the identity store (20 R413). -/
def State.identityStore (s : State) : List Byte :=
  natBytes 16 0x41342D58434B ++ natBytes 16 Config.serialNumber.toNat ++ natBytes 16 Config.fuseId.toNat ++
  natBytes 68 Config.identityKey.toNat ++ natBytes 4 s.repair.cores.length ++ bitMask 8 s.repair.clusters ++
  List.replicate 3968 0

/-- What a register reads as. What ARB reads as is open. -/
def State.readReg (s : State) (r : RegName) : BitVec 64 :=
  let low (w : Word) : BitVec 64 := w.setWidth 64
  match r with
  | .feat n => if n == 0 && 4 ≤ s.dev.bstate then Config.feat0 else 0
  | .facc n => s.dev.facc[n]?.getD 0
  | .linkto => low s.dev.linkto
  | .fdevid => s.dev.fdevid.setWidth 64
  | .flinkto => low s.dev.flinkto
  | .frecv => BitVec.ofNat 64 ((if s.dev.frecvEn then 2 ^ 63 else 0) + s.dev.frecvSrc.toNat)
  | .pwrreq => BitVec.ofNat 64
      ((if s.dev.pwrPend then 2 ^ 63 else 0) + (if s.dev.pwrPreempt then 256 else 0) + s.dev.pwrReq)
  | .cparg n => s.cp.arg[n]?.getD 0
  | .cpctl => BitVec.ofNat 64 (s.cp.result * 2 ^ 32 + s.cp.status * 256)
  | .qbase q => (s.queue q).base
  | .qcfg q => (s.queue q).cfg
  | .qhead q => low (s.queue q).head
  | .qtail q => low (s.queue q).tail
  | .fbd n => (lookupKey n s.dev.fbd).getD 0
  | .fwinCtl n => (lookupKey n s.dev.fwinCtl).getD 0
  | .fwinLim n => (lookupKey n s.dev.fwinLim).getD 0
  | .lctl d n => (s.die d).lctl[n]?.getD 0
  | .llim d n => (s.die d).llim[n]?.getD 0
  | .ewref _ => Config.ewref
  | .eqbase d => (s.die d).eqbase
  | .eqhead d => low (s.die d).eqhead
  | .eqtail d => low (s.die d).eqtail
  | .eqlost d => low (s.die d).eqlost
  | .scnt d => (s.die d).scnt
  | .froute n => low ((lookupKey n s.dev.froute).getD 0)
  | .bstate => BitVec.ofNat 64 (s.dev.bcause * 256 + s.dev.bstate)
  | .arb => (Config.freeWord s.free).setWidth 64 ||| ((Config.freeWord (s.free + 1)).setWidth 64 <<< 32)
  | .attctl => BitVec.ofNat 64 (s.dev.attIndex * 2 ^ 32 + s.dev.attStatus * 2 ^ 24)
  | .attbuf => s.dev.attBuf
  | .attnonce n => s.dev.attNonce[n]?.getD 0
  | .keySlot n => s.keySlotWord n
  | .mstat => s.mstat
  | .evreq => 0

/-- A write of a register. -/
def State.writeReg (s : State) (r : RegName) (v : BitVec 64) : State :=
  let w : Word := bitsOf v 0 32
  match r with
  | .feat _ => s
  | .facc n => s.writeFaccept n v
  | .linkto => if w == 0 then s else s.modDev fun d => { d with linkto := w }
  | .fdevid => s.writeFdevid v
  | .flinkto => if w == 0 then s else s.modDev fun d => { d with flinkto := w }
  | .frecv => s.modDev fun d => { d with frecvEn := bitOf v 63, frecvSrc := bitsOf v 0 12 }
  | .pwrreq => s.writePwrreq v
  | .cparg n => s.modCp fun c => { c with arg := c.arg.set n v }
  | .cpctl => s.writeCpctl v
  | .qbase q => s.writeQbase q v
  | .qcfg q => s.writeQcfg q v
  | .qhead _ => s
  | .qtail q => s.writeQtail q v
  | .fbd n => s.writeFbd n v
  | .fwinCtl n => s.modDev fun d => { d with fwinCtl := putKey n (v &&& 0xF00FFFFFFFFF0000) d.fwinCtl }
  | .fwinLim n => s.modDev fun d => { d with fwinLim := putKey n (v &&& 0x000000FFFFFF0000) d.fwinLim }
  | .lctl d n => s.writeLrange d n false v
  | .llim d n => s.writeLrange d n true v
  | .ewref _ => s
  | .eqbase d => s.modDie d fun x => { x with eqbase := v &&& 0x000FFFFFFFFF8001 }
  | .eqhead d => s.modDie d fun x => { x with eqhead := w }
  | .eqtail _ => s
  | .eqlost d => s.modDie d fun x => { x with eqlost := w }
  | .scnt _ => s
  | .froute n => s.modDev fun d => { d with froute := putKey n w d.froute }
  | .bstate => s
  | .arb => s.writeArb v
  | .attctl => if bitOf v 0 then s.startReport else s
  | .attbuf => s.modDev fun d => { d with attBuf := v &&& 0x000FFFFFFFFFF000 }
  | .attnonce n => s.modDev fun d => { d with attNonce := d.attNonce.set n v }
  | .keySlot _ => s
  | .mstat => if bitOf v 4 then s.modDev fun d => { d with svcreq := false } else s
  | .evreq => s.writeEvreq w

/-- REGISTER_WRITE: a write of a register of aperture 0 or 2 (20 R401, R403, R404) or of the management endpoint (20 R405,
R413). -/
def execRegisterWrite (aperture offset : Nat) (v : BitVec 64) (s : State) : Out :=
  match regAt aperture offset with
  | some r => if s.answersAt aperture then .next (s.writeReg r v).wake else .next s
  | none => .next s

/-- A host access to a register: 8 bytes; others read 0 and are ignored (20 R401). -/
def State.hostReg (s : State) (a : HostAccess) : State :=
  match if a.size == 8 || a.aperture == 3 then regAt a.aperture a.addr else none, a.write with
  | some r, true => s.writeReg r (BitVec.ofNat 64 (bytesNat (a.data.take 8)))
  | some r, false =>
    let s := { s with free := s.free + 2 }
    let v := s.readReg r
    s.modDev fun d => { d with hostReply := some ((natBytes 8 v.toNat).take a.size) }
  | none, true => s
  | none, false => s.modDev fun d => { d with hostReply := some (List.replicate a.size 0) }

/-- A context's tables map a page of a range. -/
def State.mapsAny (s : State) (r : LazyRange) : Bool :=
  (s.rootsOf r.ctx).any fun root => (s.mem.mapping 2 root 0).1.any fun q => overlaps (r.va, r.len) q.1 (levelSize q.2.1)

/-- The driver has written memory: a range whose last mapped page it removed is lazy no longer (15 R326). DESIGN CHOICE (log
entry 127): how the device learns of a removal is open. -/
def State.driverWrote (s before : State) : State :=
  s.modCp fun c => { c with lazy := c.lazy.filter fun r => !(before.mapsAny r && !s.mapsAny r) }

/-- A host access to TIER 0: served at its home; a write clears the tags of the granules it touches, a read returns none
(20 R401). -/
def State.hostMem (s : State) (a : HostAccess) : State :=
  if !inTier 0 a.addr a.size then
    (if a.write then s else s.modDev fun d => { d with hostReply := some (List.replicate a.size 0) })
  else if a.write then
    (({ s with mem := s.mem.write (memKey 0 a.addr) ((a.data ++ List.replicate a.size 0).take a.size) false } : State).driverWrote
      s).wakeAll
  else
    let bs := s.mem.readN (memKey 0 a.addr) a.size
    s.modDev fun d => { d with hostReply := some bs }

/-- HOST_APERTURE_ACCESS (20 R401). -/
def execHostApertureAccess (a : HostAccess) (s : State) : Out :=
  if !s.answersAt a.aperture then .next (s.modDev fun d => { d with hostReply := none })
  else if a.aperture == 1 then .next (s.hostMem a).wake
  else if a.aperture == 4 then
    .next (if a.write then s else
      s.modDev fun d => { d with hostReply := some ((s.identityStore.drop a.addr).take a.size) }).wake
  else .next (s.hostReg a).wake

end Sys2Proof.Machine
end

