-- ==== Sys2Proof/Machine/Xmss.lean ====
section
/-!
DEFINITION. SHAKE256 (FIPS 202) and the verification of an XMSS-SHAKE256_20_256 signature (RFC 8391, NIST SP 800-208), by which the
boot ROM accepts a firmware image (20 R409). The spec names these standards and does not restate them: PRESUMED (log entry 160).
-/

namespace Sys2Proof.Machine

open Sys2Proof

/-! ### SHAKE256 -/

/-- Rotations of the lanes x + 5y. -/
def keccakRot : List Nat := [0, 1, 62, 28, 27, 36, 44, 6, 55, 20, 3, 10, 43, 25, 39, 41, 45, 15, 21, 8, 18, 2, 61, 56, 14]

/-- Round constants. -/
def keccakRc : List (BitVec 64) :=
  [0x0000000000000001, 0x0000000000008082, 0x800000000000808A, 0x8000000080008000, 0x000000000000808B, 0x0000000080000001,
   0x8000000080008081, 0x8000000000008009, 0x000000000000008A, 0x0000000000000088, 0x0000000080008009, 0x000000008000000A] ++
  [0x000000008000808B, 0x800000000000008B, 0x8000000000008089, 0x8000000000008003, 0x8000000000008002, 0x8000000000000080,
   0x000000000000800A, 0x800000008000000A, 0x8000000080008081, 0x8000000000008080, 0x0000000080000001, 0x8000000080008008]

/-- A lane. -/
def laneAt (a : List (BitVec 64)) (i : Nat) : BitVec 64 := a[i]?.getD 0

/-- One round of the permutation. -/
def keccakRound (a : List (BitVec 64)) (rc : BitVec 64) : List (BitVec 64) :=
  let c := (List.range 5).map fun x => (List.range 5).foldl (fun acc y => acc ^^^ laneAt a (x + 5 * y)) 0
  let d := (List.range 5).map fun x => laneAt c ((x + 4) % 5) ^^^ (laneAt c ((x + 1) % 5)).rotateLeft 1
  let t := (List.range 25).map fun i => (laneAt a i ^^^ laneAt d (i % 5)).rotateLeft (keccakRot[i]?.getD 0)
  -- the lane that moves to (x, y) comes from (x + 3y, x)
  let b := (List.range 25).map fun i => laneAt t ((i % 5 + 3 * (i / 5)) % 5 + 5 * (i % 5))
  (List.range 25).map fun i =>
    let at' (k : Nat) : BitVec 64 := laneAt b ((i % 5 + k) % 5 + 5 * (i / 5))
    (at' 0 ^^^ (~~~(at' 1) &&& at' 2)) ^^^ (if i = 0 then rc else 0)

/-- The permutation. -/
def keccakF (a : List (BitVec 64)) : List (BitVec 64) := keccakRc.foldl keccakRound a

/-- SHAKE256 truncated to 256 bits: blocks of 136 bytes, the padding 1F … 80. -/
def shake256 (m : List Byte) : List Byte :=
  let pad := 136 - m.length % 136
  let tail : List Byte := if pad = 1 then [0x9F] else 0x1F :: (List.replicate (pad - 2) 0 ++ [0x80])
  let bs := m ++ tail
  let absorb (a : List (BitVec 64)) (k : Nat) : List (BitVec 64) :=
    let blk := (bs.drop (136 * k)).take 136
    keccakF (a.zipIdx.map fun q => if q.2 < 17 then q.1 ^^^ BitVec.ofNat 64 (bytesNat ((blk.drop (8 * q.2)).take 8)) else q.1)
  let a := (List.range (bs.length / 136)).foldl absorb (List.replicate 25 0)
  (a.take 4).flatMap fun l => natBytes 8 l.toNat

/-! ### XMSS -/

/-- Bytes of a number, highest first. -/
def beBytes (n x : Nat) : List Byte := (natBytes n x).reverse

/-- A hash address of the one tree: its type, three words, and which key or mask. -/
def xmssAdrs (type a b c k : Nat) : List Byte :=
  beBytes 4 0 ++ beBytes 8 0 ++ beBytes 4 type ++ beBytes 4 a ++ beBytes 4 b ++ beBytes 4 c ++ beBytes 4 k

/-- PRF. -/
def xmssPrf (seed adrs : List Byte) : List Byte := shake256 (beBytes 32 3 ++ seed ++ adrs)

/-- The chaining function: `n` steps from step `i`. -/
def xmssChain (seed : List Byte) (ots chain : Nat) : Nat → Nat → List Byte → List Byte
  | 0, _, x => x
  | n + 1, i, x =>
    let key := xmssPrf seed (xmssAdrs 0 ots chain i 0)
    let mask := xmssPrf seed (xmssAdrs 0 ots chain i 1)
    xmssChain seed ots chain n (i + 1) (shake256 (beBytes 32 0 ++ key ++ xorBytes x mask))

/-- The randomized hash of two nodes. -/
def xmssHash (seed : List Byte) (adrs : Nat → List Byte) (l r : List Byte) : List Byte :=
  let key := xmssPrf seed (adrs 0)
  shake256 (beBytes 32 1 ++ key ++ xorBytes l (xmssPrf seed (adrs 1)) ++ xorBytes r (xmssPrf seed (adrs 2)))

/-- Bytes cut into nodes of 32. -/
def xmssNodes (n : Nat) (bs : List Byte) : List (List Byte) := (List.range n).map fun i => (bs.drop (32 * i)).take 32

/-- Base-16 digits of bytes. -/
def digits16 (bs : List Byte) : List Nat := bs.flatMap fun b => [b.toNat / 16, b.toNat % 16]

/-- The one-time public key that a signature of 67 chains gives for a digest. -/
def wotsKey (seed : List Byte) (idx : Nat) (sig msg : List Byte) : List (List Byte) :=
  let ds := digits16 msg
  let sum := ds.foldl (fun n d => n + (15 - d)) 0
  let ds := ds ++ (digits16 (beBytes 2 (16 * sum))).take 3
  (ds.zip (xmssNodes 67 sig)).zipIdx.map fun q => xmssChain seed idx q.2 (15 - q.1.1) q.1.1 q.1.2

/-- The next level of an L-tree. -/
def ltreeLevel (seed : List Byte) (idx height : Nat) : Nat → List (List Byte) → List (List Byte)
  | i, l :: r :: t => xmssHash seed (xmssAdrs 1 idx height i) l r :: ltreeLevel seed idx height (i + 1) t
  | _, rest => rest

/-- The leaf of a one-time public key: an L-tree of at most `fuel` levels. -/
def ltreeRoot (seed : List Byte) (idx : Nat) : Nat → Nat → List (List Byte) → List Byte
  | 0, _, ns => ns.headD []
  | fuel + 1, height, ns => ltreeRoot seed idx fuel (height + 1) (ltreeLevel seed idx height 0 ns)

/-- The root of the tree of 20 levels that a leaf and its path give. -/
def xmssRoot (seed : List Byte) (idx : Nat) (leaf : List Byte) (path : List (List Byte)) : List Byte :=
  path.zipIdx.foldl (fun node q =>
    let adrs := xmssAdrs 2 0 q.2 (idx / 2 ^ (q.2 + 1))
    if idx / 2 ^ q.2 % 2 == 0 then xmssHash seed adrs node q.1 else xmssHash seed adrs q.1 node) leaf

/-- A signature (index, randomness, 67 chains, path of 20) verifies over a message under a public key (OID, root, seed). -/
def xmssVerify (key sig msg : List Byte) : Bool :=
  let root := (key.drop 4).take 32
  let seed := (key.drop 36).take 32
  let idx := bytesNat (sig.take 4).reverse
  let digest := shake256 (beBytes 32 2 ++ (sig.drop 4).take 32 ++ root ++ beBytes 32 idx ++ msg)
  let leaf := ltreeRoot seed idx 7 0 (wotsKey seed idx ((sig.drop 36).take 2144) digest)
  sig.length == 2820 && xmssRoot seed idx leaf (xmssNodes 20 (sig.drop 2180)) == root

/-! ### The firmware image (20 R409) -/

/-- L: the bytes of the code. -/
def imageLen (img : List Byte) : Nat := bytesNat (img.take 4)
/-- SVN. -/
def imageSvn (img : List Byte) : Nat := bytesNat ((img.drop 4).take 4)
/-- The public key. -/
def imageKey (img : List Byte) : List Byte := (img.drop 8).take 68
/-- The signature. -/
def imageSig (img : List Byte) : List Byte := (img.drop 76).take 2820
/-- The code. -/
def imageCode (img : List Byte) : List Byte := (img.drop 2896).take (imageLen img)

/-- The image is whole, its key is the one whose hash the fuses hold, and its signature verifies over bytes 0 to 7 and the code. -/
def imageSigned (img : List Byte) : Bool :=
  decide (imageLen img ≤ 2 ^ 26) && decide (2896 + imageLen img ≤ img.length) &&
  shake256 (imageKey img) == natBytes 32 Config.keyHash.toNat && xmssVerify (imageKey img) (imageSig img) (img.take 8 ++ imageCode img)

/-- The firmware measurement: of the bytes 0 to 2,895 + L - 1, as the rule counts them, which leaves out the code's last byte
(log entry 160). -/
def imageMeasure (img : List Byte) : BitVec 256 := BitVec.ofNat 256 (bytesNat (shake256 (img.take (2895 + imageLen img))))

end Sys2Proof.Machine
end

