-- ==== Sys2Proof/Machine/Boot.lean ====
section
/-!
DEFINITION. Reset and boot (20 R408, R409), power states (20 R414, R415) and loss of power (20 R411), and a fetch that gives
no instruction (02 R35, R57).
-/

namespace Sys2Proof.Machine

open Sys2Proof

/-! ### Boot (20 R408) -/

/-- The device after a reset: nothing is kept but what is non-volatile: retired parts and spares, fuses, the next identity
index (19 R395, 20 R409, R411). The model's own counters and inputs go on. -/
def State.cleared (s : State) : State :=
  { State.reset with
    cp := { CmdProc.reset with retiredWires := s.cp.retiredWires, keyDraws := s.cp.keyDraws }
    dev := { DevRegs.reset with fuses := s.dev.fuses, attIndex := s.dev.attIndex }
    repair := { s.repair with events := [], tests := [] }
    nextId := s.nextId, free := s.free, inputs := s.inputs }

/-- BSTATE with its cause. -/
def State.enterBoot (s : State) (state cause : Nat) : State := s.modDev fun d => { d with bstate := state, bcause := cause }

/-- POWER_ON_RESET: power-on, or a reset that the management bus requests, starts the boot in ROM; and once the device stands there,
the boot ROM accepts the image, or the device goes to Recovery (20 R408, R409; DESIGN CHOICE, log entry 70). -/
def execPowerOnReset (fw : Firmware) (s : State) : Out :=
  if s.dev.bstate != 1 then .next (s.cleared.enterBoot 1 0)
  else if !imageSigned fw.image then .next (s.enterBoot 7 1)
  else if imageSvn fw.image < s.dev.fuses then .next (s.enterBoot 7 2)
  else .next ((s.enterBoot 2 0).modDev fun d => { d with svn := imageSvn fw.image, measurement := imageMeasure fw.image })

/-- Retired clusters have no homes (19 R395, 11 R261). -/
def State.reapplyHomes (s : State) : State :=
  let table (d : Nat) : List Nat := moveHomes (List.range 16) ((s.repair.clusters.filter fun x => x / 16 == d).map (· % 16))
  { s with dies := s.dies.zipIdx.map fun p => { p.1 with homes := table p.2 } }

/-- MEMORY_TRAINED: memory is trained and clear, and retirements are reapplied; or training failed (20 R408). -/
def execMemoryTrained (ok : Bool) (s : State) : Out :=
  if s.dev.bstate != 2 then .next s
  else if ok then .next (({ s with mem := ⟨[], [], []⟩ } : State).reapplyHomes.enterBoot 3 0)
  else .next (s.enterBoot 7 3)

/-- LINK_TRAINED: the link has trained on at least 22 lanes, and features are offered; or it failed (20 R408). -/
def execLinkTrained (lanes : Nat) (s : State) : Out :=
  if s.dev.bstate != 3 then .next s
  else if 22 ≤ lanes then .next (s.enterBoot 4 0)
  else .next (s.enterBoot 7 4)

/-! ### Power (20 R414, R415) -/

/-- The device without power: only the identity store answers (20 R414). -/
def State.unpowered (s : State) : State := s.cleared.modDev fun d => { d with bstate := 0, pwr := 3 }

/-- The eDRAM weight store loses what it held (20 R414). -/
def Memory.dropTier1 (m : Memory) : Memory :=
  { cells := m.cells.filter fun c => keyTier c.1 != 1
    tags := m.tags.filter fun g => keyTier (16 * g) != 1
    poison := m.poison.filter fun l => keyTier (unitKey l) != 1 }

/-- Retention drops the weight store: no table leads to a copy in it any more, until placement copies the ranges again (20 R414). -/
def State.dropWeights (s : State) : State :=
  let copies : List (Nat × Nat) := s.cp.ctxs.flatMap fun c => (s.rootsOf c.num).flatMap fun root =>
    ((s.mem.mapping 2 root 0).1.filter fun l => leafTier l.2.2 == 1).map fun l => (c.num, l.1)
  let s := copies.foldl (fun (s : State) q => s.dropReplica q.1 q.2) s
  { s with mem := s.mem.dropTier1 }

/-- POWER_STATE_CHANGE: a pending request takes effect: to leave P0 only once no launch runs, and after an attestation in
progress (20 R414, R416). -/
def execPowerStateChange (s : State) : Out :=
  if !s.dev.pwrPend || s.dev.attStatus == 1 || (s.dev.pwr == 0 && !s.runningLaunches.isEmpty) then .next s
  else
    let to' := s.dev.pwrReq
    if to' == 3 then .next s.unpowered
    else
      let s := s.modDev fun d => { d with pwr := to', pwrPend := false }
      .next (if to' == 2 then s.dropWeights else s).wake

/-- POWER_CAP_THROTTLE: THROT tells that idle issue cycles are inserted; nothing else changes (20 R415). -/
def execPowerCapThrottle (on : Bool) (s : State) : Out := .next (s.modDev fun d => { d with throt := on })

/-- POWER_LOSS: nothing of the device stays powered; an index being signed with is spent (20 R411, R414). -/
def execPowerLoss (s : State) : Out := .next s.unpowered

/-! ### A fetch that gives no instruction -/

/-- The cause and TVAL of a failed fetch (02 R35, R57, 03 R89). -/
def fetchTrap (c : DecodeFault) : BitVec 8 × BitVec 64 :=
  match c with
  | .misaligned pc => (tALIGN, pc.setWidth 64)
  | .outOfCode pc => (tILLEGAL, pc.setWidth 64)
  | .badWord w => (tILLEGAL, w.setWidth 64)
  | .badPrefix w => (tILLEGAL, w.setWidth 64)

/-- The fibres that raise a fetch's cause: those the mask of a pair's prefix leaves active, else the issuing set (01 R31). -/
def State.faultMask (s : State) (g : Group) (c : DecodeFault) (pc : Word) : List Nat :=
  let w := s.codeWord g.key g.core pc
  let masked := g.issuingSet.filter fun l => (g.lane? l).any (maskBit (some (Prefix.ofWord w)))
  let on := match c with
    | .badWord _ => if isPrefix w then masked else []
    | .badPrefix _ => masked
    | _ => []
  if on.isEmpty then g.issuingSet else on

/-- DECODING_FAULT: the issuing set traps; an engine program stops with ILLEGAL (02 R35, R57, 10 R230). -/
def execDecodingFault (c : DecodeFault) (s : State) : Out :=
  match s.turn with
  | .none => .fault .noIssuer
  | .engine id =>
    match s.engine? id with
    | none => .fault .noIssuer
    | some e => if e.canIssue then .next (s.stopEngine id 3) else .fault .noIssuer
  | .group k =>
    match s.group? k with
    | none => .fault .noIssuer
    | some g =>
      match g.canIssue, g.minPc with
      | true, some pc => .next (s.takeTrap k pc ⟨(fetchTrap c).1, (fetchTrap c).2, s.faultMask g c pc⟩)
      | _, _ => .fault .noIssuer

end Sys2Proof.Machine
end

