-- ==== Sys2Proof/Machine/Dispatch.lean ====
section
/-!
DEFINITION. What each instruction does: one arm per constructor.
-/

namespace Sys2Proof.Machine

open Sys2Proof

def exec (i : Instr) (s : State) : Host.Outcome State Fault Refusal :=
  match i with
  | .add p f => Sys2Proof.Machine.execAdd p f s
  | .sub p f => Sys2Proof.Machine.execSub p f s
  | .mul p f => Sys2Proof.Machine.execMul p f s
  | .mulh p f => Sys2Proof.Machine.execMulh p f s
  | .and_ p f => Sys2Proof.Machine.execAnd p f s
  | .or_ p f => Sys2Proof.Machine.execOr p f s
  | .xor_ p f => Sys2Proof.Machine.execXor p f s
  | .andn p f => Sys2Proof.Machine.execAndn p f s
  | .shl p f => Sys2Proof.Machine.execShl p f s
  | .shr p f => Sys2Proof.Machine.execShr p f s
  | .rot p f => Sys2Proof.Machine.execRot p f s
  | .min p f => Sys2Proof.Machine.execMin p f s
  | .max p f => Sys2Proof.Machine.execMax p f s
  | .movc p f => Sys2Proof.Machine.execMovc p f s
  | .bfx p f => Sys2Proof.Machine.execBfx p f s
  | .bfi p f => Sys2Proof.Machine.execBfi p f s
  | .neg p f => Sys2Proof.Machine.execNeg p f s
  | .not_ p f => Sys2Proof.Machine.execNot p f s
  | .abs p f => Sys2Proof.Machine.execAbs p f s
  | .popc p f => Sys2Proof.Machine.execPopc p f s
  | .clz p f => Sys2Proof.Machine.execClz p f s
  | .ctz p f => Sys2Proof.Machine.execCtz p f s
  | .brev p f => Sys2Proof.Machine.execBrev p f s
  | .bswap p f => Sys2Proof.Machine.execBswap p f s
  | .sext8 p f => Sys2Proof.Machine.execSext8 p f s
  | .sext16 p f => Sys2Proof.Machine.execSext16 p f s
  | .zext8 p f => Sys2Proof.Machine.execZext8 p f s
  | .zext16 p f => Sys2Proof.Machine.execZext16 p f s
  | .mov p f => Sys2Proof.Machine.execMov p f s
  | .pget p f => Sys2Proof.Machine.execPget p f s
  | .pput p f => Sys2Proof.Machine.execPput p f s
  | .sext32 p f => Sys2Proof.Machine.execSext32 p f s
  | .zext32 p f => Sys2Proof.Machine.execZext32 p f s
  | .cmpI32 p f => Sys2Proof.Machine.execCmpI32 p f s
  | .cmpUi32 p f => Sys2Proof.Machine.execCmpUi32 p f s
  | .cmpI64 p f => Sys2Proof.Machine.execCmpI64 p f s
  | .cmpUi64 p f => Sys2Proof.Machine.execCmpUi64 p f s
  | .addi p f => Sys2Proof.Machine.execAddi p f s
  | .andi p f => Sys2Proof.Machine.execAndi p f s
  | .ori p f => Sys2Proof.Machine.execOri p f s
  | .xori p f => Sys2Proof.Machine.execXori p f s
  | .shi p f => Sys2Proof.Machine.execShi p f s
  | .cmpi p f => Sys2Proof.Machine.execCmpi p f s
  | .li p f => Sys2Proof.Machine.execLi p f s
  | .lui p f => Sys2Proof.Machine.execLui p f s
  | .mad p f => Sys2Proof.Machine.execMad p f s
  | .movs f => Sys2Proof.Machine.execMovs f s
  | .fadd p f => Sys2Proof.Machine.execFadd p f s
  | .fsub p f => Sys2Proof.Machine.execFsub p f s
  | .fmul p f => Sys2Proof.Machine.execFmul p f s
  | .ffma p f => Sys2Proof.Machine.execFfma p f s
  | .fmin p f => Sys2Proof.Machine.execFmin p f s
  | .fmax p f => Sys2Proof.Machine.execFmax p f s
  | .fcmp p f => Sys2Proof.Machine.execFcmp p f s
  | .hadd2 p f => Sys2Proof.Machine.execHadd2 p f s
  | .hmul2 p f => Sys2Proof.Machine.execHmul2 p f s
  | .hfma2 p f => Sys2Proof.Machine.execHfma2 p f s
  | .fcvt p f => Sys2Proof.Machine.execFcvt p f s
  | .fabs p f => Sys2Proof.Machine.execFabs p f s
  | .fneg p f => Sys2Proof.Machine.execFneg p f s
  | .fsqrt p f => Sys2Proof.Machine.execFsqrt p f s
  | .frint p f => Sys2Proof.Machine.execFrint p f s
  | .frcp p f => Sys2Proof.Machine.execFrcp p f s
  | .fsat p f => Sys2Proof.Machine.execFsat p f s
  | .sfuRcp p f => Sys2Proof.Machine.execSfuRcp p f s
  | .sfuRsqrt p f => Sys2Proof.Machine.execSfuRsqrt p f s
  | .sfuExp2 p f => Sys2Proof.Machine.execSfuExp2 p f s
  | .sfuLog2 p f => Sys2Proof.Machine.execSfuLog2 p f s
  | .sfuSin p f => Sys2Proof.Machine.execSfuSin p f s
  | .sfuCos p f => Sys2Proof.Machine.execSfuCos p f s
  | .sfuTanh p f => Sys2Proof.Machine.execSfuTanh p f s
  | .fclass p f => Sys2Proof.Machine.execFclass p f s
  | .dot2 p f => Sys2Proof.Machine.execDot2 p f s
  | .fminNan p f => Sys2Proof.Machine.execFminNan p f s
  | .fmaxNan p f => Sys2Proof.Machine.execFmaxNan p f s
  | .fminmag p f => Sys2Proof.Machine.execFminmag p f s
  | .fmaxmag p f => Sys2Proof.Machine.execFmaxmag p f s
  | .rand p f => Sys2Proof.Machine.execRand p f s
  | .bra f => Sys2Proof.Machine.execBra f s
  | .call f => Sys2Proof.Machine.execCall f s
  | .jr f => Sys2Proof.Machine.execJr f s
  | .fork f => Sys2Proof.Machine.execFork f s
  | .endF f => Sys2Proof.Machine.execEnd f s
  | .yield f => Sys2Proof.Machine.execYield f s
  | .win f => Sys2Proof.Machine.execWin f s
  | .trap f => Sys2Proof.Machine.execTrap f s
  | .svc f => Sys2Proof.Machine.execSvc f s
  | .rtt f => Sys2Proof.Machine.execRtt f s
  | .rttSkip f => Sys2Proof.Machine.execRttSkip f s
  | .pset f => Sys2Proof.Machine.execPset f s
  | .cvdeclLive f => Sys2Proof.Machine.execCvdeclLive f s
  | .cvdeclSet f => Sys2Proof.Machine.execCvdeclSet f s
  | .cvsign f => Sys2Proof.Machine.execCvsign f s
  | .nop f => Sys2Proof.Machine.execNop f s
  | .shflIdx p f => Sys2Proof.Machine.execShflIdx p f s
  | .shflRel p f => Sys2Proof.Machine.execShflRel p f s
  | .qswpH p f => Sys2Proof.Machine.execQswpH p f s
  | .qswpV p f => Sys2Proof.Machine.execQswpV p f s
  | .qswpD p f => Sys2Proof.Machine.execQswpD p f s
  | .qbc p f => Sys2Proof.Machine.execQbc p f s
  | .qddx p f => Sys2Proof.Machine.execQddx p f s
  | .qddy p f => Sys2Proof.Machine.execQddy p f s
  | .voteSome p f => Sys2Proof.Machine.execVoteSome p f s
  | .voteEvery p f => Sys2Proof.Machine.execVoteEvery p f s
  | .voteAgree p f => Sys2Proof.Machine.execVoteAgree p f s
  | .voteMask p f => Sys2Proof.Machine.execVoteMask p f s
  | .voteCount p f => Sys2Proof.Machine.execVoteCount p f s
  | .voteFirst p f => Sys2Proof.Machine.execVoteFirst p f s
  | .voteLast p f => Sys2Proof.Machine.execVoteLast p f s
  | .matchF p f => Sys2Proof.Machine.execMatch p f s
  | .redg p f => Sys2Proof.Machine.execRedg p f s
  | .scang p f => Sys2Proof.Machine.execScang p f s
  | .bcast p f => Sys2Proof.Machine.execBcast p f s
  | .ld p f => Sys2Proof.Machine.execLd p f s
  | .st p f => Sys2Proof.Machine.execSt p f s
  | .ldi p f => Sys2Proof.Machine.execLdi p f s
  | .sti p f => Sys2Proof.Machine.execSti p f s
  | .ldl p f => Sys2Proof.Machine.execLdl p f s
  | .stl p f => Sys2Proof.Machine.execStl p f s
  | .ldln p f => Sys2Proof.Machine.execLdln p f s
  | .atomI32 p f => Sys2Proof.Machine.execAtomI32 p f s
  | .atomI64 p f => Sys2Proof.Machine.execAtomI64 p f s
  | .atomF32 p f => Sys2Proof.Machine.execAtomF32 p f s
  | .redI32 p f => Sys2Proof.Machine.execRedI32 p f s
  | .redI64 p f => Sys2Proof.Machine.execRedI64 p f s
  | .redF32 p f => Sys2Proof.Machine.execRedF32 p f s
  | .atoml p f => Sys2Proof.Machine.execAtoml p f s
  | .cas p f => Sys2Proof.Machine.execCas p f s
  | .fenceAcq f => Sys2Proof.Machine.execFenceAcq f s
  | .fenceRel f => Sys2Proof.Machine.execFenceRel f s
  | .fenceAr f => Sys2Proof.Machine.execFenceAr f s
  | .fenceXpath f => Sys2Proof.Machine.execFenceXpath f s
  | .cctlInvl1 f => Sys2Proof.Machine.execCctlInvl1 f s
  | .cctlInvline f => Sys2Proof.Machine.execCctlInvline f s
  | .cctlInvpt f => Sys2Proof.Machine.execCctlInvpt f s
  | .cctlInvpg f => Sys2Proof.Machine.execCctlInvpg f s
  | .cctlPfL1 f => Sys2Proof.Machine.execCctlPfL1 f s
  | .cctlPfLlc f => Sys2Proof.Machine.execCctlPfLlc f s
  | .waitc f => Sys2Proof.Machine.execWaitc f s
  | .cpa f => Sys2Proof.Machine.execCpa f s
  | .mscFill f => Sys2Proof.Machine.execMscFill f s
  | .mscRdo f => Sys2Proof.Machine.execMscRdo f s
  | .mscAxpy f => Sys2Proof.Machine.execMscAxpy f s
  | .mscCopy f => Sys2Proof.Machine.execMscCopy f s
  | .pkrSet f => Sys2Proof.Machine.execPkrSet f s
  | .pkrGet f => Sys2Proof.Machine.execPkrGet f s
  | .capMov p f => Sys2Proof.Machine.execCapMov p f s
  | .capGetaddr p f => Sys2Proof.Machine.execCapGetaddr p f s
  | .capGetbase p f => Sys2Proof.Machine.execCapGetbase p f s
  | .capGetlen p f => Sys2Proof.Machine.execCapGetlen p f s
  | .capGetrights p f => Sys2Proof.Machine.execCapGetrights p f s
  | .capGettag p f => Sys2Proof.Machine.execCapGettag p f s
  | .capRestrict p f => Sys2Proof.Machine.execCapRestrict p f s
  | .capSetaddr p f => Sys2Proof.Machine.execCapSetaddr p f s
  | .capIncaddr p f => Sys2Proof.Machine.execCapIncaddr p f s
  | .capClrtag p f => Sys2Proof.Machine.execCapClrtag p f s
  | .cbnd p f => Sys2Proof.Machine.execCbnd p f s
  | .sld p f => Sys2Proof.Machine.execSld p f s
  | .sst p f => Sys2Proof.Machine.execSst p f s
  | .sshift p f => Sys2Proof.Machine.execSshift p f s
  | .snorm p f => Sys2Proof.Machine.execSnorm p f s
  | .harden p f => Sys2Proof.Machine.execHarden p f s
  | .sldg p f => Sys2Proof.Machine.execSldg p f s
  | .sstg p f => Sys2Proof.Machine.execSstg p f s
  | .mwl f => Sys2Proof.Machine.execMwl f s
  | .mma f => Sys2Proof.Machine.execMma f s
  | .mmaS f => Sys2Proof.Machine.execMmaS f s
  | .mmaD f => Sys2Proof.Machine.execMmaD f s
  | .mswap f => Sys2Proof.Machine.execMswap f s
  | .mscl f => Sys2Proof.Machine.execMscl f s
  | .forke f => Sys2Proof.Machine.execForke f s
  | .rdv f => Sys2Proof.Machine.execRdv f s
  | .rdvTest f => Sys2Proof.Machine.execRdvTest f s
  | .bar f => Sys2Proof.Machine.execBar f s
  | .baroInit f => Sys2Proof.Machine.execBaroInit f s
  | .baroArrive f => Sys2Proof.Machine.execBaroArrive f s
  | .baroWait f => Sys2Proof.Machine.execBaroWait f s
  | .baroAw f => Sys2Proof.Machine.execBaroAw f s
  | .tbar f => Sys2Proof.Machine.execTbar f s
  | .cqPush f => Sys2Proof.Machine.execCqPush f s
  | .cqPop f => Sys2Proof.Machine.execCqPop f s
  | .cqReset f => Sys2Proof.Machine.execCqReset f s
  | .cqCount f => Sys2Proof.Machine.execCqCount f s
  | .credInit f => Sys2Proof.Machine.execCredInit f s
  | .credTri f => Sys2Proof.Machine.execCredTri f s
  | .credSum f => Sys2Proof.Machine.execCredSum f s
  | .credGet f => Sys2Proof.Machine.execCredGet f s
  | .lnch f => Sys2Proof.Machine.execLnch f s
  | .seqend f => Sys2Proof.Machine.execSeqend f s
  | .waitt f => Sys2Proof.Machine.execWaitt f s
  | .ecopy f => Sys2Proof.Machine.execEcopy f s
  | .emcast f => Sys2Proof.Machine.execEmcast f s
  | .egkvLd f => Sys2Proof.Machine.execEgkvLd f s
  | .egkvLdx f => Sys2Proof.Machine.execEgkvLdx f s
  | .egkvSt f => Sys2Proof.Machine.execEgkvSt f s
  | .egkvPurge f => Sys2Proof.Machine.execEgkvPurge f s
  | .emerge f => Sys2Proof.Machine.execEmerge f s
  | .esig f => Sys2Proof.Machine.execEsig f s
  | .blockPlace plan => Sys2Proof.Machine.execBlockPlace plan s
  | .drain g => Sys2Proof.Machine.execDrain g s
  | .holdQueueLeave core g => Sys2Proof.Machine.execHoldQueueLeave core g s
  | .snapshotCopyDone ctx va tables => Sys2Proof.Machine.execSnapshotCopyDone ctx va tables s
  | .pageMapped m => Sys2Proof.Machine.execPageMapped m s
  | .sideLogReplay core ctx va => Sys2Proof.Machine.execSideLogReplay core ctx va s
  | .homeRequest home src => Sys2Proof.Machine.execHomeRequest home src s
  | .homeAck id => Sys2Proof.Machine.execHomeAck id s
  | .reply id => Sys2Proof.Machine.execReply id s
  | .portInvalAck port id => Sys2Proof.Machine.execPortInvalAck port id s
  | .barGroupArrive g => Sys2Proof.Machine.execBarGroupArrive g s
  | .barComplete b => Sys2Proof.Machine.execBarComplete b s
  | .treeComplete launch n => Sys2Proof.Machine.execTreeComplete launch n s
  | .matrixIssue g cv => Sys2Proof.Machine.execMatrixIssue g cv s
  | .mwlLatchWrite id => Sys2Proof.Machine.execMwlLatchWrite id s
  | .latchParityError g arr col e => Sys2Proof.Machine.execLatchParityError g arr col e s
  | .engineContextStart q => Sys2Proof.Machine.execEngineContextStart q s
  | .engineStatusFinal id => Sys2Proof.Machine.execEngineStatusFinal id s
  | .copyComplete id => Sys2Proof.Machine.execCopyComplete id s
  | .mscComplete id => Sys2Proof.Machine.execMscComplete id s
  | .waittTimeout a => Sys2Proof.Machine.execWaittTimeout a s
  | .cruRecord id => Sys2Proof.Machine.execCruRecord id s
  | .shadowCheckpoint core => Sys2Proof.Machine.execShadowCheckpoint core s
  | .strikeReport k => Sys2Proof.Machine.execStrikeReport k s
  | .launchReplay launch => Sys2Proof.Machine.execLaunchReplay launch s
  | .selfTestComplete t => Sys2Proof.Machine.execSelfTestComplete t s
  | .errorRecordWrite die => Sys2Proof.Machine.execErrorRecordWrite die s
  | .hbmScrub line corrected => Sys2Proof.Machine.execHbmScrub line corrected s
  | .edramRefresh die bank begins => Sys2Proof.Machine.execEdramRefresh die bank begins s
  | .queueAccept q => Sys2Proof.Machine.execQueueAccept q s
  | .launch plan => Sys2Proof.Machine.execLaunch plan s
  | .copy n => Sys2Proof.Machine.execCopy n s
  | .msc n => Sys2Proof.Machine.execMsc n s
  | .signal n => Sys2Proof.Machine.execSignal n s
  | .wait n => Sys2Proof.Machine.execWait n s
  | .evict n => Sys2Proof.Machine.execEvict n s
  | .evictGraceExpiry => Sys2Proof.Machine.execEvictGraceExpiry s
  | .nodeComplete n => Sys2Proof.Machine.execNodeComplete n s
  | .priorityPreempt launch starved => Sys2Proof.Machine.execPriorityPreempt launch starved s
  | .launchResume plan => Sys2Proof.Machine.execLaunchResume plan s
  | .ctxcreate => Sys2Proof.Machine.execCtxcreate s
  | .ctxdestroy => Sys2Proof.Machine.execCtxdestroy s
  | .seqopen => Sys2Proof.Machine.execSeqopen s
  | .seqclose => Sys2Proof.Machine.execSeqclose s
  | .cancel => Sys2Proof.Machine.execCancel s
  | .preempt => Sys2Proof.Machine.execPreempt s
  | .inval => Sys2Proof.Machine.execInval s
  | .qtailWrite q v => Sys2Proof.Machine.execQtailWrite q v s
  | .qcfgWrite q v => Sys2Proof.Machine.execQcfgWrite q v s
  | .lrangeWrite die n lim v => Sys2Proof.Machine.execLrangeWrite die n lim v s
  | .facceptWrite n v => Sys2Proof.Machine.execFacceptWrite n v s
  | .arbWrite v => Sys2Proof.Machine.execArbWrite v s
  | .attestationRequest => Sys2Proof.Machine.execAttestationRequest s
  | .pwrreqWrite v => Sys2Proof.Machine.execPwrreqWrite v s
  | .powerStateChange => Sys2Proof.Machine.execPowerStateChange s
  | .powerCapThrottle on => Sys2Proof.Machine.execPowerCapThrottle on s
  | .evreqWrite v => Sys2Proof.Machine.execEvreqWrite v s
  | .fdevidWrite v => Sys2Proof.Machine.execFdevidWrite v s
  | .fbdWrite n v => Sys2Proof.Machine.execFbdWrite n v s
  | .registerWrite aperture offset v => Sys2Proof.Machine.execRegisterWrite aperture offset v s
  | .powerOnReset fw => Sys2Proof.Machine.execPowerOnReset fw s
  | .memoryTrained ok => Sys2Proof.Machine.execMemoryTrained ok s
  | .linkTrained lanes => Sys2Proof.Machine.execLinkTrained lanes s
  | .hostApertureAccess a => Sys2Proof.Machine.execHostApertureAccess a s
  | .hostAck id ok data => Sys2Proof.Machine.execHostAck id ok data s
  | .hostTimeout id => Sys2Proof.Machine.execHostTimeout id s
  | .rd m => Sys2Proof.Machine.execRd m s
  | .rdresp m => Sys2Proof.Machine.execRdresp m s
  | .wr m => Sys2Proof.Machine.execWr m s
  | .wrack m => Sys2Proof.Machine.execWrack m s
  | .atom m => Sys2Proof.Machine.execAtom m s
  | .atomresp m => Sys2Proof.Machine.execAtomresp m s
  | .nack m => Sys2Proof.Machine.execNack m s
  | .arrive m => Sys2Proof.Machine.execArrive m s
  | .release m => Sys2Proof.Machine.execRelease m s
  | .withdraw m => Sys2Proof.Machine.execWithdraw m s
  | .wdack m => Sys2Proof.Machine.execWdack m s
  | .evstream m => Sys2Proof.Machine.execEvstream m s
  | .fabricTimeout tag => Sys2Proof.Machine.execFabricTimeout tag s
  | .fabricBarrierTimeout launch n => Sys2Proof.Machine.execFabricBarrierTimeout launch n s
  | .decodingFault c => Sys2Proof.Machine.execDecodingFault c s
  | .egkvCommandComplete id => Sys2Proof.Machine.execEgkvCommandComplete id s
  | .btbPurgeAck core id => Sys2Proof.Machine.execBtbPurgeAck core id s
  | .pkrPortAck port id => Sys2Proof.Machine.execPkrPortAck port id s
  | .preemptionAbandoned launch => Sys2Proof.Machine.execPreemptionAbandoned launch s
  | .evictPhaseOverrun => Sys2Proof.Machine.execEvictPhaseOverrun s
  | .attestationReportWritten reached => Sys2Proof.Machine.execAttestationReportWritten reached s
  | .powerLoss => Sys2Proof.Machine.execPowerLoss s

end Sys2Proof.Machine
end

