-- ==== Sys2Proof/Machine/Schedule.lean ====
section
/-!
DEFINITION. What acts next: the fetch (02 R34, R35), the choice of a slot's row and group (01 R18, R20, 10 R251), the
events that are due, the inputs, and the clock. A step is one agent's issue, an event asked for from outside, or the end of a
cycle, in which every event that is due happens (DESIGN CHOICE, log entries 11 and 25).
-/

namespace Sys2Proof.Machine

open Sys2Proof

/-! ### Fetch -/

/-- What a base word's major may stand for: the instruction it selects, or, where its minor is unassigned, that of each minor
that is assigned. -/
def formsOf (p : Pfx) (b : Word) : List Instr :=
  match selectBase p b with
  | some i => [i]
  | none => (List.range 128).filterMap fun m => selectBase p ((b &&& ~~~(0x3F8 : Word)) ||| (BitVec.ofNat 32 m <<< 3))

/-- A pair whose base word fails check 4 of 02 R57 fails check 3 first, if the prefix is illegal before what the base word's
major and minor select: the prefix is then the offending word (02 R45, R47). An unassigned minor leaves the major alone to judge
by: the prefix is illegal if it is so before every minor. DESIGN CHOICE (log entry 144): where the minors differ in the fields that
they use, the prefix passes, and the base word offends. -/
def pairFault (w b : Word) : DecodeFault :=
  let fs := formsOf (some (Prefix.ofWord w)) b
  if !fs.isEmpty && fs.all fun i => !(describe 64 i).pfxOk i.pfx then .badPrefix w else .badWord b

/-- The instruction at a PC of a launch's code object, or why there is none (02 R35, R46, R57). DEDUCED (log entry 121): a PC
that is no multiple of 4 and lies beyond the code takes ALIGN. -/
def State.fetch (s : State) (k : GKey) (core : Nat) (pc : Word) : Except DecodeFault Instr :=
  let len := (s.launch? k.launch).elim 0 (·.codeLen)
  if pc.toNat % 4 != 0 then .error (.misaligned pc)
  else if len < pc.toNat + 4 then .error (.outOfCode pc)
  else
    let next := if pc.toNat + 8 ≤ len then some (s.codeWord k core (pc + 4)) else none
    let word := s.codeWord k core pc
    match decodeWords word next with
    | .ok i => .ok i
    | .error (.badWord w) => .error (if isPrefix word then pairFault word w else .badWord w)
    | .error (.badPrefix w) => .error (.badPrefix w)
    | .error .truncated => .error (.outOfCode pc)

/-- What an agent issues next; none when it does not exist. -/
def State.fetchFor (s : State) (a : Agent) : Option (Except DecodeFault Instr) :=
  match a with
  | .none => none
  | .group k => (s.group? k).bind fun g => g.minPc.map fun pc => s.fetch k g.core pc
  | .engine id => (s.engine? id).map fun e => s.fetch e.group e.core e.pc

/-! ### Who may issue (10 R251) -/

/-- The device runs, and so does the launch; while it is being pre-empted a group only ends its run (18 R374). -/
def State.launchRuns (s : State) (l : Nat) (inRun : Bool) : Bool :=
  s.dev.bstate == 5 && s.dev.pwr == 0 &&
  (s.launch? l).any fun x => !x.replayDue && (x.state == .running || (x.state == .draining && inRun))

/-- The loader is still writing the row's registers (10 R252). -/
def State.rowLoading (s : State) (g : Group) : Bool := (s.core g.core).rows.any fun r => r.row == g.row && r.state == .loading

/-- A group that is ready to issue; while the core's register pool is tested the core issues nothing (19 R392). -/
def State.groupReady (s : State) (g : Group) : Bool :=
  g.canIssue && s.launchRuns g.key.launch (g.runCount != 0) && !s.rowLoading g && !s.testing 1 g.core

/-- An engine program that is ready to issue. -/
def State.engineReady (s : State) (e : Engine) : Bool := e.canIssue && e.remote.isNone && s.launchRuns e.group.launch false

/-- The slot of a row, and its place in it (10 R251). -/
def rowSlot (r : Nat) : Nat := r / 8

/-- Groups in order of age: launch, block, index (01 R20). -/
def older (a b : GKey) : Bool :=
  decide (a.launch < b.launch) || (a.launch == b.launch &&
    (decide (a.block < b.block) || (a.block == b.block && decide (a.idx < b.idx))))

/-- The oldest group of a list. -/
def oldest (gs : List Group) : Option Group :=
  gs.foldl (fun acc g => match acc with
    | none => some g
    | some h => if older g.key h.key then some g else some h) none

/-- A group of a row that may issue: every other that was ready when it issued last has issued, or has stopped being ready. -/
def Group.eligible (g : Group) : Bool := g.after.isEmpty

/-- The groups that a slot issues in this cycle: of the first row, after the row chosen last, that holds a ready group, the
oldest eligible one, with those of the row whose next word is the same word of the same code object (01 R20, 10 R251). -/
def State.slotChoice (s : State) (core slot : Nat) : List Group :=
  let ready := s.groups.filter fun g => g.core == core && rowSlot g.row == slot && s.groupReady g
  let last := (lookupKey slot (s.core core).chosen).getD 7
  let rows := (List.range 8).map fun i => 8 * slot + (last + 1 + i) % 8
  match rows.find? fun r => ready.any fun g => g.row == r with
  | none => []
  | some r =>
    let row := ready.filter fun g => g.row == r
    let el := row.filter Group.eligible
    match oldest (if el.isEmpty then row else el) with
    | none => []
    | some g => g :: el.filter fun h => h.key != g.key && h.key.launch == g.key.launch && h.minPc == g.minPc

/-- The slots that hold groups. -/
def State.slotsInUse (s : State) : List (Nat × Nat) := (s.groups.map fun g => (g.core, rowSlot g.row)).eraseDups

/-- The engine program that a sequencer takes: of those that are ready, the one whose turn was longest ago (10 R229). -/
def State.sequencerChoice (s : State) (q : Sequencer) : Option Engine :=
  (s.engines.filter fun e => e.seqr == q && s.engineReady e).foldl (fun (acc : Option Engine) e => match acc with
    | none => some e
    | some f => if e.lastTurn < f.lastTurn then some e else some f) none

/-- The sequencers that hold programs. -/
def State.sequencersInUse (s : State) : List Sequencer := (s.engines.map (·.seqr)).eraseDups

/-- What every slot and every sequencer issues in this cycle. -/
def State.agents (s : State) : List Agent :=
  (s.slotsInUse.flatMap fun p => (s.slotChoice p.1 p.2).map fun g => Agent.group g.key) ++
  (s.sequencersInUse.filterMap s.sequencerChoice).map fun e => Agent.engine e.id

/-- A slot has chosen groups of a row: each waits, before it is eligible again, for the others of the row that are ready
(10 R251). -/
def State.slotIssues (s : State) (gs : List Group) : State :=
  match gs with
  | [] => s
  | g :: _ =>
    let mine (k : GKey) : Bool := gs.any fun y => y.key == k
    let others := (s.groups.filter fun h => h.core == g.core && h.row == g.row && !mine h.key && s.groupReady h).map (·.key)
    let note (h : Group) : Group :=
      if mine h.key then { h with after := others } else { h with after := h.after.filter fun k => !mine k }
    ({ s with groups := s.groups.map note } : State).modCore g.core fun c => { c with chosen := putKey (rowSlot g.row) (g.row % 8) c.chosen }

/-- A group that is not ready holds up no other of its row (10 R251). -/
def State.pruneAfter (s : State) : State :=
  let holds (g : Group) (k : GKey) : Bool := (s.group? k).any fun h => h.core == g.core && h.row == g.row && s.groupReady h
  { s with groups := s.groups.map fun g => if g.after.isEmpty then g else { g with after := g.after.filter (holds g) } }

/-- An agent of the next cycle is asked for: its slot's choice is made, and those that issue with it follow. -/
def State.askFor (s : State) (a : Agent) : State :=
  match a with
  | .none => s
  | .engine id => { s.modEngine id fun e => { e with lastTurn := s.nextId } with nextId := s.nextId + 1, turn := a }
  | .group k =>
    match s.group? k with
    | none => s
    | some g =>
      let gs := s.slotChoice g.core (rowSlot g.row)
      let mates := (gs.filter fun h => h.key != k).map fun h => Agent.group h.key
      { s.slotIssues gs with turn := a, round := mates ++ s.round }

/-- A fault that failed is forgotten once all that waited for it have issued again (15 R329). -/
def BadPage.retried (b : BadPage) (as : List Agent) : BadPage :=
  let left := b.waiters.filter fun a => !b.going.contains a
  { b with waiters := left, going := as.filter left.contains }

/-- What waited for faults that failed finds out: those that issued before have, and these are about to. -/
def State.settleFaults (s : State) (as : List Agent) : State :=
  let left (a : Agent) : Bool := match a with
    | .none => false
    | .group k => (s.group? k).isSome
    | .engine id => (s.engine? id).isSome
  let next (b : BadPage) : BadPage := let b := b.retried as; { b with waiters := b.waiters.filter left }
  s.modCp fun c => { c with badPages := (c.badPages.map next).filter fun b => !b.waiters.isEmpty }

/-- A cycle begins: every slot and every sequencer chooses what it issues. -/
def State.newRound (s : State) : State :=
  let s := s.pruneAfter.settleMoves
  let slots := s.slotsInUse.map fun p => s.slotChoice p.1 p.2
  let seqs := s.sequencersInUse.filterMap s.sequencerChoice
  let round := s.agents
  let s := slots.foldl State.slotIssues (s.settleFaults round)
  let s := seqs.foldl (fun s e => s.modEngine e.id fun y => { y with lastTurn := s.nextId }) s
  { s with round := round, nextId := s.nextId + (if seqs.isEmpty then 0 else 1) }

/-! ### The clock -/

/-- A cycle passes on every die: rows that were loading run, writes to local memory come past the Shadow window, what waited
for a test that is over goes on, and at a multiple of 32 the cores take checkpoints (03 R74, 06 R170, 10 R252, 19 R378,
R392). -/
def State.tick (s : State) : State :=
  let s : State := { s with
    dies := s.dies.map fun d => { d with clock := d.clock + 1 }
    cores := s.cores.map fun c => { c with rows := c.rows.map fun r => if r.state == .loading then { r with state := .running } else r } }
  let due := s.groups.any fun g => g.outst.any fun o => o.due.any (· ≤ s.clockOf g.core)
  let s := if due then ({ s with groups := s.groups.map fun g => g.ageOps (s.clockOf g.core) } : State).wake else s
  let ended := s.repair.tests.any fun t => (s.die t.die).clock == t.since + testTime t.struct * usCycles
  let s := if ended then s.wakeGets.wakeAll else s
  if (s.die 0).clock % 32 == 0 then (s.cores.map (·.id)).foldl (fun s c => s.checkpoint c) s else s

/-- What follows an outcome. -/
def onNext (o : Out) (f : State → State) : Out :=
  match o with
  | .next s => .next (f s)
  | .fault r => .fault r
  | .refused r => .refused r

/-! ### Events that the device brings about by itself

Each is the meaning of an instruction of the table, as a function of the state. -/

/-- An event, by its meaning. -/
abbrev Event := State → Out

/-- Events of groups and engine programs. -/
def State.groupEvents (s : State) : List Event :=
  s.groups.flatMap (fun g =>
    [execDrain g.key, execBarGroupArrive g.key, execWaittTimeout (.group g.key), execHoldQueueLeave g.core g.key] ++
    (List.range 8).map fun n => execMatrixIssue g.key n) ++
  s.engines.flatMap fun e => [execEngineContextStart e.seqr, execEngineStatusFinal e.id, execWaittTimeout (.engine e.id)]

/-- Events of the memory system and of commands. -/
def State.memoryEvents (s : State) : List Event :=
  (s.cores.flatMap fun c => (c.hold.map fun r => execHoldQueueLeave c.id r.group) ++
    c.log.map fun e => execSideLogReplay c.id e.ctx e.page) ++
  (s.homes.flatMap fun r => [execHomeRequest r.home r.src, execCruRecord r.id]) ++
  s.acks.map execHomeAck ++ (s.replies.map fun r => execReply r.id) ++
  (s.copies.map fun c => execCopyComplete c.id) ++ (s.gathers.map fun g => execEgkvCommandComplete g.id) ++
  (s.mscs.map fun m => execMscComplete m.id) ++ (s.mwls.map fun m => execMwlLatchWrite m.id) ++
  (s.gathers.flatMap fun g => g.acks.map fun c => execBtbPurgeAck c g.id) ++
  (s.cp.retires.flatMap fun r => r.acks.map fun c => execBtbPurgeAck c r.id) ++
  (s.groups.flatMap fun g => g.pend.flatMap fun p => p.acks.flatMap fun d =>
    if d < 4 then [execPortInvalAck d p.id, execPkrPortAck d p.id] else []) ++
  s.cp.invalAcks.map fun d => execPortInvalAck d cpInval

/-- Events of barriers and launches. -/
def State.launchEvents (s : State) : List Event :=
  (s.blocks.flatMap fun b => b.bars.map fun y => execBarComplete (.block b.launch b.index y.id)) ++
  (s.bands.flatMap fun b => b.bars.map fun y => execBarComplete (.band b.launch b.index y.id)) ++
  s.cp.launches.flatMap fun l =>
    (l.trees.flatMap fun t => [execTreeComplete l.id t.n, execFabricBarrierTimeout l.id t.n]) ++
    [execLaunchReplay l.id, execPreemptionAbandoned l.id] ++
    s.cp.launches.map fun y => execPriorityPreempt y.id l.id

/-- What the device does when a peer it cannot reach should answer (20 R423). -/
def State.unreachableNack (s : State) (tag : Nat) : Msg :=
  { type := mNACK, poison := false, last := true, src := s.dev.fdevid.toNat, dst := s.dev.fdevid.toNat,
    tag := tag % 65536, addr := 0, size := 1, code := 5, phase := 0, data := [] }

/-- Events of the command processor and the device. -/
def State.deviceEvents (s : State) : List Event :=
  ((List.range 64).map execQueueAccept) ++
  (s.cp.nodes.flatMap fun n =>
    [execCopy n.key, execMsc n.key, execSignal n.key, execWait n.key, execEvict n.key, execNodeComplete n.key]) ++
  [execEvict evreqNode, execEvictGraceExpiry, execEvictPhaseOverrun, execCtxcreate, execCtxdestroy, execSeqopen, execSeqclose,
   execCancel, execPreempt, execInval, execPowerStateChange] ++
  ((List.range 4).flatMap fun d => execErrorRecordWrite d :: (List.range 32).flatMap fun b =>
    [execEdramRefresh d b true, execEdramRefresh d b false]) ++
  s.fabric.remote.flatMap fun r =>
    if r.host then [execHostTimeout r.tag]
    else [execFabricTimeout r.tag] ++ (if s.reachable (r.pa / 2 ^ 40) then [] else [execNack (s.unreachableNack r.tag)])

/-- An event happens, if it changes anything. -/
def State.happen (s : State) (f : Event) : State :=
  match f s with
  | .next t => if ({ t with free := s.free } : State) != s then t else s
  | _ => s

/-- Every event that is due happens, one after another. -/
def State.runEvents (s : State) : State :=
  (s.groupEvents ++ s.memoryEvents ++ s.launchEvents ++ s.deviceEvents).foldl State.happen s

/-! ### One cycle -/

/-- The agent whose turn it is issues its next word. -/
def State.runAgent (s : State) (a : Agent) : Out :=
  let done (t : State) : State := { t with turn := .none }
  match s.fetchFor a with
  | none => .next { s with turn := .none }
  | some (.ok i) => onNext (exec i s) done
  | some (.error c) => onNext (execDecodingFault c s) done

/-- Whether the agent whose turn it is may issue. -/
def State.mayIssue (s : State) (a : Agent) : Bool :=
  match a with
  | .none => false
  | .group k => (s.group? k).any s.groupReady
  | .engine id => (s.engine? id).any s.engineReady

/-- With nothing asked from outside: the agent whose turn it is issues, or the next of those that issue in this cycle. When all
have, what is due happens, the cycle passes, and the next begins. -/
def State.runTurn (s : State) : Out :=
  if s.mayIssue s.turn then s.runAgent s.turn
  else
    match s.round with
    | a :: rest =>
      let s : State := { s with turn := .none, round := rest }
      if s.mayIssue a then ({ s with turn := a } : State).runAgent a else .next s
    | [] => .next ({ s with turn := .none } : State).runEvents.tick.newRound

/-- An event that may be asked for from outside: any but the failure of a fetch. -/
def isInputEvent (i : Instr) : Bool :=
  !i.isWord && match i with
    | .decodingFault _ => false
    | _ => true

/-- An input: an event, the turn of an agent that may issue, or cycles that pass. -/
def State.runInput (s : State) (x : Input) : Out :=
  match x with
  | .event i => if isInputEvent i then onNext (exec i s) State.tick else .next s.tick
  | .issue a => if s.agents.contains a then .next (s.askFor a) else .next s.tick
  | .wait 0 => .next s.tick
  | .wait (n + 1) => .next ({ s with inputs := .wait n :: s.inputs } : State).tick

end Sys2Proof.Machine
end

