-- ==== Sys2Proof/Machine/Step.lean ====
section
/-!
DEFINITION. One step of the device, and the placing of one instruction for it.
-/

namespace Sys2Proof.Machine

open Sys2Proof

/-- One step: the next input, or what the device does by itself. -/
def step (s : State) : Host.Outcome State Fault Refusal :=
  match s.inputs with
  | x :: rest => ({ s with inputs := rest } : State).runInput x
  | [] => s.runTurn

/-! ### One instruction where the next step fetches -/

/-- The launch that stands for the load of one instruction. -/
def fetchLaunch : Launch :=
  { id := 1, ctx := 1, node := ⟨1, 0⟩, prio := 0, seed := 0, code := 0x10000, codeLen := 8, entry := 0, trapv := 0xFFFFFFFF,
    w := 8, band := 1, cru := false, bfibres := 8, regs := 96, uniform := 32, localLen := 0, clen := 0, nblocks := 1,
    ranges := [], argVa := 0, argLen := 0, pendingBands := [], state := .running, drain := none, lastPlaced := 0, attempt := 1,
    nonReplay := none, replayDue := false, poisonSrc := none, pages := [], trees := [], saved := [], savedEngines := [],
    savedBlocks := [], savedBands := [], savedSlices := [], lranges := [] }

/-- The seat of its one block. -/
def fetchSeat : Seat := { block := 0, core := 0, rows := [0], core2 := none, rows2 := [] }

/-- The sequencer that takes an engine-only major (10 R236). -/
def fetchSequencer (m : Nat) : Sequencer := if m == 0x7B then ⟨.ke, 0⟩ else if m == 0x7A || m == 0x7E then ⟨.ce, 0⟩ else ⟨.ge, 0⟩

/-- `s` with an instruction where the next step fetches it: the device is Ready with every feature accepted, a launch of one
group is resident with the instruction as its code, and the group, or for an engine-only word an engine program of it, has
the turn. -/
def State.withFetchWord (s : State) (_nbits w : Nat) : State :=
  let w0 : Word := BitVec.ofNat 32 w
  let w1 : Word := BitVec.ofNat 32 (w / 2 ^ 32)
  let m := (majorOf w0).toNat
  let eng := decide (0x7A ≤ m) && decide (m ≤ 0x7E)
  let root := 0x40000
  let leaf : BitVec 64 := 0x17
  let l := fetchLaunch
  let g := newGroup l 0 0 0 0 0 false
  let e : Engine := { Engine.start s.nextId (fetchSequencer m) g.key 1 0 0 (quadRegs l.argCap) true with started := true }
  { s with
    mem := (s.mem.store (memKey 0 0x10000) (bytesOfWord w0 ++ bytesOfWord w1)).storeNat (memKey 0 root) 8 leaf.toNat
    dies := s.dies.map fun d => { d with desc := putKey 1 root d.desc, tb := [], walks := [] }
    dev := { s.dev with bstate := 5, pwr := 0, locked := true, facc := s.dev.facc.set 0 Config.feat0, eviction := none }
    cp := { s.cp with
      launches := [l]
      ctxs := [{ num := 1, root := root, savePa := 0, saveLen := 0, snapPa := 0, snapLen := 0, logPa := 0, pkr := 0 }] }
    groups := [g], blocks := [l.blockOf 0 fetchSeat], bands := [l.bandOf 0 0], engines := if eng then [e] else []
    cores := [{ Core.empty 0 with rows := [⟨0, .running, 1, 8, l.lease⟩] }]
    nextId := s.nextId + 1, inputs := [], round := [], turn := if eng then .engine s.nextId else .group g.key }

end Sys2Proof.Machine
end

