-- ==== Sys2Proof/Safety.lean ====
section
/-!
DEFINITION. What counts as a safe run, and the terms the statements use: when a word issues, what a word that has
issued leaves as it was, and the invariant of every step.
-/

namespace Sys2Proof.Machine

open Sys2Proof

/-! ### Safe runs -/

/-- A step answers a next state: it neither faults nor is refused. -/
def State.goesOn (s : State) : Prop := ∃ t, step s = .next t

/-- `n` steps from `s` all answer a next state, the last of them `t`. -/
inductive SafeRun : Nat → State → State → Prop where
  | stop (s : State) : SafeRun 0 s s
  | more (n : Nat) (s t u : State) : step s = .next t → SafeRun n t u → SafeRun (n + 1) s u

/-- Every memory of the device is in canonical form: that of the package, and the local and cluster memories, the
saved ones among them. -/
def State.canonical (s : State) : Bool :=
  s.mem.wf && s.blocks.all (fun b => b.mem.wf) && s.bands.all (fun b => b.mem.wf) &&
  s.cp.launches.all fun l => l.savedBlocks.all (fun b => b.mem.wf) && l.savedBands.all (fun b => b.mem.wf)

/-! ### When a word issues -/

/-- The register that a field names in a unit, as its file holds it; none when it is dead (01 R14, R25). -/
def Group.reg? (g : Group) (u : Option Nat) (f : Nat) : Option Reg := (g.file u f).get? (g.regNum u f)

/-- The 32-bit value of a register operand; 0 when it is dead (01 R28). -/
def Group.word (g : Group) (u : Option Nat) (f : Nat) : Word := (g.reg? u f).elim 0 (·.val)

/-- The 64-bit value of a pair, the even register in the low half (02 R37). -/
def Group.pair (g : Group) (u : Option Nat) (f : Nat) : DWord := g.word u (f + 1) ++ g.word u f

/-- The 128 bits of the quad that a field names in a unit, low register first, and its capability tag (03 R83). -/
def Group.quad (g : Group) (u : Option Nat) (f : Nat) : BitVec 128 := g.pair u (f + 2) ++ g.pair u f
def Group.quadTag (g : Group) (u : Option Nat) (f : Nat) : Bool := (g.file u f).tag (g.regNum u f)

/-- Group `g`, under key `k`, has its turn at word `i` and the word passes the checks of 02 R57 that every word makes:
the group can issue (10 R251), no Amber speculation stalls the word (10 R247), the word is legal and within the
counts (checks 2 to 7), no mask predicate is poisoned, no register it reads is dead or was written earlier in
the run (01 R22, R25), and it is no word whose failed check a rollback has to repeat (19 R380). -/
structure Issues (i : Instr) (s : State) (k : GKey) (g : Group) : Prop where
  turn : s.turn = .group k
  here : s.group? k = some g
  ready : g.canIssue = true
  calm : g.amber = .speculating → amberStalls i = false
  legal : wordChecks s g (g.issue i) = none
  mask : maskPoison g (g.issue i) = []
  live : ∀ u ∈ (g.issue i).units, ∀ f ∈ unitFields s g (g.issue i) u, (g.reg? u f).isSome = true
  fresh : ∀ u, u ∈ (g.issue i).units ∨ u ∈ (g.issue i).allUnits → ∀ f ∈ unitFields s g (g.issue i) u, g.runWrites u f = []
  again : ∀ r, g.redo? (g.issue i).pc = some r → r.trap? = none

/-- The word of an engine program's register that a field names, 0 while nothing has written it (10 R230). -/
def Engine.word (e : Engine) (f : Nat) : Word := ((e.s.get? (f - 96)).getD ⟨0, false⟩).val

/-- Engine program `e`, numbered `id`, has its turn at word `i`, which lies in the subset of its sequencer, names
registers that an engine has, and is legal (10 R230). -/
structure EngineIssues (i : Instr) (s : State) (id : Nat) (e : Engine) : Prop where
  turn : s.turn = .engine id
  here : s.engine? id = some e
  runs : e.canIssue = true
  subset : engineMajor (majorOf i.baseWord).toNat = true ∨ sequencerMajor e.seqr.kind (majorOf i.baseWord).toNat = true
  pfx : i.pfx = none
  legal : (i.wf && (describe 64 i).legal && (describe 64 i).aligned && (describe 64 i).mixOk) = true
  names : engineFieldsOk (describe 64 i) = true
  feature : ∀ b, (describe 64 i).feature = some b → s.accepted b = true

/-! ### What a word leaves as it was -/

/-- A word writes or frees register `n` of lane `l`, or of the uniform file for none (01 R24, R25): a destination or a
last use names it in a lane that takes part. -/
def Issue.touches (x : Issue) (g : Group) (l : Option Nat) (n : Nat) : Prop :=
  ∃ o ∈ x.desc.ops, (o.write = true ∨ o.last = true) ∧ ∃ j < o.count,
    isUni o.field = l.isNone ∧ g.regNum l (o.field.toNat + j) = n ∧
    ∀ m, l = some m → m ∈ x.receiving ∨ m ∈ x.zeroed

/-- The register files are kept but for the registers that the word touches. -/
def RegsKept (x : Issue) (g g' : Group) : Prop :=
  (∀ l n, ¬ x.touches g (some l) n → (g'.lane? l).map (fun y => y.v.get? n) = (g.lane? l).map (fun y => y.v.get? n)) ∧
  (∀ n, ¬ x.touches g none n → g'.s.get? n = g.s.get? n)

/-- Everything of a group but its lanes, its uniform registers and its run, with what the run may undo, is kept. -/
def GroupKept (g g' : Group) : Prop :=
  ({ g' with lanes := g.lanes, s := g.s, written := g.written, runCount := g.runCount, draining := g.draining
             marks := g.marks } : Group) = g

/-- Everything of a lane but its PC, its registers, the flags its run raised and its parking is kept. -/
def LaneKept (y y' : Lane) : Prop :=
  ({ y' with pc := y.pc, v := y.v, flags := y.flags, park := y.park } : Lane) = y

/-- Everything of the device but its groups and the counter of free values is kept: every byte of memory among it. -/
def DeviceKept (s t : State) : Prop := ({ t with groups := s.groups, free := s.free } : State) = s

/-- Every other group is kept. -/
def OthersKept (k : GKey) (s t : State) : Prop := ∀ k', k' ≠ k → t.group? k' = s.group? k'

/-- The word has issued: each fibre of the issuing set stands at the next word, the run counts it, and ends after a
word with S = 1 or after 128 words (01 R18, R21). -/
def Retired (x : Issue) (g g' : Group) : Prop :=
  (∀ l ∈ x.issuing, (g'.lane? l).map (·.pc) = some (x.pc + BitVec.ofNat 32 x.size)) ∧
  g'.runCount = g.runCount + 1 ∧
  g'.draining = (bitOf x.instr.baseWord 31 || decide (128 ≤ g.runCount + 1))

/-- The engine program has gone on to its next word (10 R230): nothing of it but its PC, its count of words, its registers
and its predicates has changed. -/
def EngineRetired (i : Instr) (e e' : Engine) : Prop :=
  e'.pc = e.pc + BitVec.ofNat 32 i.size ∧ e'.count = e.count + 1 ∧
  ({ e' with pc := e.pc, count := e.count, s := e.s, preds := e.preds, predPoison := e.predPoison } : Engine) = e

end Sys2Proof.Machine
end

