-- ==== Sys2Proof/Certificates/Slice0/Obligations.lean ====
section
/-!
DEFINITION. The statements for the provers, after the terms they use. Each says in its docstring which rule of spec/ it
follows.
-/

namespace Sys2Proof.Claims

open Sys2Proof Sys2Proof.Machine

/-! ### Terms -/

/-- `i` answers a next state `t` in which the group is `g'`. -/
def Runs (i : Instr) (s : State) (k : GKey) (t : State) (g' : Group) : Prop :=
  exec i s = .next t ∧ t.group? k = some g'

/-- `i` answers a next state `t` in which the engine program is `e'`; every other program, and everything else of the device
but the counter of free values, is as it was. -/
def EngineRuns (i : Instr) (s : State) (id : Nat) (t : State) (e' : Engine) : Prop :=
  exec i s = .next t ∧ t.engine? id = some e' ∧ (∀ j, j ≠ id → t.engine? j = s.engine? j) ∧
  ({ t with engines := s.engines, free := s.free } : State) = s

/-- In every unit of the word that takes part, the register that D names holds a 32-bit value. -/
def Holds32 (x : Issue) (g' : Group) (d : BitVec 7) (val : Option Nat → Word) : Prop :=
  ∀ u ∈ x.allUnits, (g'.reg? u d.toNat).map (·.val) = some (val u)

/-- In every unit of the word that takes part, the pair that D names holds a 64-bit value, low half in the even register. -/
def Holds64 (x : Issue) (g' : Group) (d : BitVec 7) (val : Option Nat → DWord) : Prop :=
  ∀ u ∈ x.allUnits, (g'.reg? u d.toNat).map (·.val) = some (bitsOf (val u) 0 32) ∧
    (g'.reg? u (d.toNat + 1)).map (·.val) = some (bitsOf (val u) 32 32)

/-- When the word issues it completes, and D holds the 32-bit value, which `val` computes from the registers by field number
(02 R57). -/
def GroupGives32 (i : Instr) (d : BitVec 7) (val : (Nat → Word) → Word) : Prop :=
  ∀ s k g, Issues i s k g → ∃ t g', Runs i s k t g' ∧ Retired (g.issue i) g g' ∧
    Holds32 (g.issue i) g' d fun u => val (g.word u)

/-- When the word issues it completes, and D holds the 32-bit value, which `val` computes from the registers by field number:
in a group (02 R57) and in an engine program (10 R230). -/
def Gives32 (i : Instr) (d : BitVec 7) (val : (Nat → Word) → Word) : Prop :=
  GroupGives32 i d val ∧
  (∀ s id e, EngineIssues i s id e → ∃ t e', EngineRuns i s id t e' ∧ EngineRetired i e e' ∧ e'.word d.toNat = val e.word)

/-- The 64 bits of a pair, the even register in the low half. -/
def pairAt (r : Nat → Word) (f : Nat) : DWord := r (f + 1) ++ r f

/-- When the word issues it completes, and D holds the 64-bit value, which `val` computes from the registers by field number
(02 R57). -/
def GroupGives64 (i : Instr) (d : BitVec 7) (val : (Nat → Word) → DWord) : Prop :=
  ∀ s k g, Issues i s k g → ∃ t g', Runs i s k t g' ∧ Retired (g.issue i) g g' ∧
    Holds64 (g.issue i) g' d fun u => val (g.word u)

/-- When the word issues it completes, and D holds the 64-bit value, in a group and in an engine program. -/
def Gives64 (i : Instr) (d : BitVec 7) (val : (Nat → Word) → DWord) : Prop :=
  GroupGives64 i d val ∧
  (∀ s id e, EngineIssues i s id e → ∃ t e', EngineRuns i s id t e' ∧ EngineRetired i e e' ∧
    pairAt e'.word d.toNat = val e.word)

/-- The 128 bits of a quad, low register first. -/
def quadAt (r : Nat → Word) (f : Nat) : BitVec 128 := pairAt r (f + 2) ++ pairAt r f

/-- The 64-bit or 32-bit form of a two-source word by its X bit. -/
def GivesX (i : Instr) (f : FmtRRR) (val : (w : Nat) → BitVec w → BitVec w → BitVec w) : Prop :=
  if f.x then Gives64 i f.d fun r => val 64 (pairAt r f.a.toNat) (pairAt r f.b.toNat)
  else Gives32 i f.d fun r => val 32 (r f.a.toNat) (r f.b.toNat)

/-- The 64-bit or 32-bit form of a one-source word by its X bit. -/
def GivesX1 (i : Instr) (f : FmtRM) (val : (w : Nat) → BitVec w → BitVec w) : Prop :=
  if f.x then Gives64 i f.d fun r => val 64 (pairAt r f.a.toNat)
  else Gives32 i f.d fun r => val 32 (r f.a.toNat)

/-- An integer brought into the range of a signed number of `w` bits. -/
def clampSigned (w : Nat) (t : Int) : BitVec w := BitVec.ofInt w (max (-(2 ^ (w - 1))) (min t (2 ^ (w - 1) - 1)))

/-- SAT of a prefix. -/
def satOf (p : Pfx) : Bool := p.any (·.sat)

/-- A field descriptor of `bfx` and `bfi` (03 R62): position, and length cut at bit 31. -/
def fieldPos (b : Word) : Nat := b.toNat % 32
def fieldLen (b : Word) : Nat := min (b.toNat / 256 % 64) (32 - fieldPos b)

/-- The mask of `n` ones. -/
def ones (n : Nat) : Word := BitVec.ofNat 32 (2 ^ n - 1)

/-- The ones of a value, the zeros above its highest one, and those below its lowest one. -/
def onesOf {w : Nat} (a : BitVec w) : Nat := ((List.range w).filter fun j => a.getLsbD j).length
def zerosAbove {w : Nat} (a : BitVec w) : Nat := ((List.range w).find? fun j => a.getLsbD (w - 1 - j)).getD w
def zerosBelow {w : Nat} (a : BitVec w) : Nat := ((List.range w).find? fun j => a.getLsbD j).getD w

/-- The bytes of a word in the opposite order. -/
def bytesBack (a : Word) : Word := bitsOf a 0 8 ++ bitsOf a 8 8 ++ bitsOf a 16 8 ++ bitsOf a 24 8

/-- The kinds of `shi` (03 R66): left, right, right arithmetic, rotate left. -/
def shiftKind {w : Nat} (kind : BitVec 2) (a : BitVec w) (n : Nat) : BitVec w :=
  if kind = 0 then a <<< n else if kind = 1 then a >>> n else if kind = 2 then a.sshiftRight n else a.rotateLeft n

/-- Predicate `q` of a predicate word; p15 reads 1 (01 R13). -/
def holds (preds : BitVec 16) (q : Nat) : Bool := q == 15 || preds.getLsbD q

/-- The PC of a compare combines its result with the old predicate (02 R39). -/
def combined (pc pd : Nat) (preds : BitVec 16) (r : Bool) : Bool :=
  if pc = 0 then r else if pc = 1 then holds preds pd && r else if pc = 2 then holds preds pd || r else !r

/-- The conditions of 02 R40 on integers and their bits. -/
def condition {w : Nat} (cond : BitVec 3) (a b : Int) (x y : BitVec w) : Bool :=
  if cond = 0 then decide (x = y) else if cond = 1 then decide (x ≠ y) else if cond = 2 then decide (a < b)
  else if cond = 3 then decide (a ≤ b) else if cond = 4 then decide (b < a) else if cond = 5 then decide (b ≤ a)
  else if cond = 6 then decide (x &&& y ≠ 0) else decide (x &&& y = 0)

/-- The unit of a lane: the group once, or the lane. -/
def unitOf (x : Issue) (l : Nat) : Option Nat := if x.once then none else some l

/-- When the word issues it completes, and predicate PD becomes the value that `val` computes from the registers and the old
predicates. In a group it does so in every lane that takes part, at the drain: until then the predicates are as they were
(01 R23); in an engine program at once (10 R230). PD = 15 writes nothing (01 R13). -/
def GivesPred (i : Instr) (pd : Nat) (val : (Nat → Word) → BitVec 16 → Bool) : Prop :=
  (∀ s k g, Issues i s k g → ∃ t g', Runs i s k t g' ∧ Retired (g.issue i) g g' ∧
    ∀ l ∈ (g.issue i).receiving, ∀ y, g.lane? l = some y → ∃ y', g'.lane? l = some y' ∧ y'.preds = y.preds ∧
      if pd = 15 then y'.predMask = y.predMask
      else y'.predMask.getLsbD pd = true ∧ y'.predNew.getLsbD pd = val (g.word (unitOf (g.issue i) l)) y.preds) ∧
  (∀ s id e, EngineIssues i s id e → ∃ t e', EngineRuns i s id t e' ∧ EngineRetired i e e' ∧
    (∀ q < 16, q ≠ pd ∨ pd = 15 → e'.preds.getLsbD q = e.preds.getLsbD q) ∧
    (pd < 15 → e'.preds.getLsbD pd = val e.word e.preds))

/-- When the word issues it completes, and the quad that D names holds a capability: its 128 bits and its tag (03 R83). -/
def GivesCap (i : Instr) (d : BitVec 7) (val : Group → Option Nat → BitVec 128 × Bool) : Prop :=
  ∀ s k g, Issues i s k g → ∃ t g', Runs i s k t g' ∧ Retired (g.issue i) g g' ∧
    ∀ u ∈ (g.issue i).allUnits, g'.quad u d.toNat = (val g u).1 ∧ g'.quadTag u d.toNat = (val g u).2

end Sys2Proof.Claims

open Sys2Proof Sys2Proof.Machine Sys2Proof.Claims

/-! ### Encoding and the step -/

/-- 02 R36, R44: words written out from the formats decode to the instructions they stand for. -/
def Obligations.WordsDecodeAsTheFormatsGive : Prop :=
  -- add v8, v9, v10: S 0, major 0x01, D 8, A 9, B 10
  decodeWords 0x01102450 none = .ok (.add none ⟨false, 8, 9, 10, false, false, false⟩) ∧
  -- li v1, -3 with S: S 1, major 0x1C, D 1, IMM17 0x1FFFD
  decodeWords 0x9C03FFFD none = .ok (.li none ⟨true, 1, 0x1FFFD⟩) ∧
  -- bra by not p2 to two words back: major 0x30, P 2, N 1, offset -2
  decodeWords 0x302FFFFE none = .ok (.bra ⟨false, 2, true, 0x7FFFE⟩) ∧
  -- end
  decodeWords 0x34000000 none = .ok (.endF ⟨false, 0, 0⟩) ∧
  -- ld.i32 v8, s4:4, v2: major 0x48, D 8, C 100, O 2, width 4
  decodeWords 0x48119014 none = .ok (.ld none ⟨false, 8, 100, 2, 4⟩) ∧
  -- a prefix with p1, not inverted, before add
  decodeWords 0x7F100000 (some 0x01102450) =
    .ok (.add (some ⟨1, false, false, 0, 0, false, false, false, false, false⟩) ⟨false, 8, 9, 10, false, false, false⟩) ∧
  -- an unassigned major
  decodeWords 0x00000000 none = .error (.badWord 0)

/-- 02 R36, R37, R44, R46: the decoder gives back every well-formed instruction from its words, and the bytes that follow
them; every operand at every value the encoding admits. -/
def Obligations.DecodeOfEncodeIsTheInstruction : Prop :=
  ∀ (i : Instr) (rest : List Byte), i.isWord = true → i.wf = true → decode (encodeBytes i ++ rest) = .ok (i, rest)

/-- 02 R34, R35, 01 R18: the group whose turn it is runs the instruction that the words at its least PC decode to (the last
word of a code object has none after it); then its turn ends. -/
def Sys2Proof.Claims.StepRunsTheDecodedInstruction : Prop :=
  ∀ (s : State) (k : GKey) (g : Group) (pc : Word) (i : Instr) (l : Launch),
    s.inputs = [] → s.turn = .group k → s.group? k = some g → s.groupReady g = true → g.minPc = some pc →
    s.launch? k.launch = some l → pc.toNat % 4 = 0 → pc.toNat + 4 ≤ l.codeLen →
    decodeWords (s.codeWord k g.core pc) (if pc.toNat + 8 ≤ l.codeLen then some (s.codeWord k g.core (pc + 4)) else none) =
      .ok i →
    step s = onNext (exec i s) fun t => { t with turn := .none }

/-- 10 R229, R230: an engine program whose turn it is runs the instruction that the words at its PC decode to. -/
def Sys2Proof.Claims.StepRunsAnEngineProgramsWord : Prop :=
  ∀ (s : State) (id : Nat) (e : Engine) (i : Instr),
    s.inputs = [] → s.turn = .engine id → s.engine? id = some e → s.engineReady e = true →
    s.fetch e.group e.core e.pc = .ok i →
    step s = onNext (exec i s) fun t => { t with turn := .none }

/-- The model's choice (log entry 4): an event given as the next input happens in the next step, which takes it from the
inputs; then the cycle passes. -/
def Sys2Proof.Claims.StepRunsAnInputEvent : Prop :=
  ∀ (s : State) (i : Instr) (rest : List Input), s.inputs = .event i :: rest → isInputEvent i = true →
    step s = onNext (exec i { s with inputs := rest }) State.tick

/-- 01 R18, 02 R34, R35, 10 R229, R230: a step runs the word that a group or an engine program has in turn, or (the model's
choice, log entry 4) the event that comes next from outside. -/
def Obligations.StepRunsTheInstructionInTurn : Prop :=
  StepRunsTheDecodedInstruction ∧ StepRunsAnEngineProgramsWord ∧ StepRunsAnInputEvent

/-- Whatever the state, the device goes on: no step faults, and none is refused. -/
def Obligations.EveryStepGoesOn : Prop := ∀ s : State, s.goesOn

/-- 20 R408: every memory is in canonical form after reset. -/
def Sys2Proof.Claims.ResetIsCanonical : Prop := State.reset.canonical = true

/-- Every step keeps every memory of the device in canonical form: addresses rise strictly, and no listed byte is what an
unlisted one reads as. -/
def Obligations.StepKeepsMemoryCanonical : Prop :=
  ∀ s t : State, s.canonical = true → step s = .next t → t.canonical = true

/-- 20 R408, 18 R351, 00 R8: what reset leaves. BSTATE is 1, nothing is resident, no feature is accepted, every queue is
empty, every die's home table is the identity (11 R261), and memory lists no byte, no tag and no poison. -/
def Sys2Proof.Claims.ResetLeaves : Prop :=
  State.reset.dev.bstate = 1 ∧ State.reset.dev.locked = false ∧ (∀ b, State.reset.accepted b = false) ∧
  State.reset.groups = [] ∧ State.reset.cp.launches = [] ∧ State.reset.cp.nodes = [] ∧
  (∀ q, (State.reset.queue q).head = 0 ∧ (State.reset.queue q).tail = 0) ∧
  (∀ d < 4, (State.reset.die d).homes = List.range 16) ∧ State.reset.dev.linkto = 2000 ∧
  State.reset.mem.cells = [] ∧ State.reset.mem.tags = [] ∧ State.reset.mem.poison = []

/-- 20 R408, 18 R351, 00 R8, 11 R261: what reset leaves, and that every memory is in canonical form in it, with nothing listed. -/
def Obligations.ResetLeavesTheIdleDevice : Prop := ResetLeaves ∧ ResetIsCanonical

namespace Sys2Proof.Claims

open Sys2Proof Sys2Proof.Machine

/-- The run counts the word, and ends after a word with S = 1 or after 128 words (01 R21). -/
def Counted (i : Instr) (g g' : Group) : Prop :=
  g'.runCount = g.runCount + 1 ∧ g'.draining = (bitOf i.baseWord 31 || decide (128 ≤ g.runCount + 1))

/-- A number of bytes of words as an offset. -/
def wordOffset {w : Nat} (off : BitVec w) : Word := BitVec.ofInt 32 (4 * off.toInt)

/-- Predicate `p` is poisoned in no fibre of the issuing set. -/
def GuardClean (x : Issue) (g : Group) (p : Nat) : Prop :=
  ∀ l ∈ x.issuing, ∀ y, g.lane? l = some y → y.predPoison.getLsbD p = false

/-- No group waits for the completion of an instruction. -/
def Quiet (s : State) : Prop := ∀ h ∈ s.groups, h.pend = []

/-- The group is not executing again after a rollback: nothing it did before is to be taken again (19 R380). -/
def Forward (s : State) (g : Group) : Prop :=
  g.redo = [] ∧ ∀ p ∈ (s.core g.core).left, p.1 = g.key → p.2.1 ≠ g.seq + 1

/-- The word's request, with this body, stands at the end of the core's hold queue (06 R150, 19 R381). -/
def Queues (s t : State) (k : GKey) (g : Group) (body : ReqBody) : Prop :=
  ∃ r : Req, (t.core g.core).hold = (s.core g.core).hold ++ [r] ∧ r.group = k ∧ r.seq = g.seq + 1 ∧ r.body = body ∧
    r.issued = s.clockOf g.core ∧ r.eng = none

/-- The fibres of the issuing set are parked until the word's request is answered (01 R17). -/
def Parks (x : Issue) (g' : Group) : Prop :=
  ∃ op : PendOp, op ∈ g'.pend ∧ op.instr = x.instr ∧ op.pc = x.pc ∧
    ∀ l ∈ x.issuing, (g'.lane? l).map (·.park) = some (some (.await op.id))

/-- `movs` reads special register `m` of `n` registers into D: `val` is its value in a lane, or for the group. -/
def ReadsSpecial (m : BitVec 7) (n : Nat) (val : State → Group → Launch → Nat → Nat) : Prop :=
  ∀ (f : FmtRM) s k g l, f.x = false → f.m = m → Issues (.movs f) s k g → s.launch? k.launch = some l →
    (m = 0x0C → g.redo = []) →
    ∃ t g', Runs (.movs f) s k t g' ∧ Retired (g.issue (.movs f)) g g' ∧
      ∀ u ∈ (g.issue (.movs f)).allUnits, ∀ j < n,
        (g'.reg? u (f.d.toNat + j)).map (·.val) = some (BitVec.ofNat 32 (val s g l (u.getD 0) / 2 ^ (32 * j)))

end Sys2Proof.Claims

open Sys2Proof Sys2Proof.Machine Sys2Proof.Claims

/-! ### Register words -/

/-- 03 R61, R62: the two-source integer words complete with these results in every unit. -/
def Sys2Proof.Claims.TwoSourceIntegerResults : Prop :=
  (∀ p f, GivesX (.add p f) f fun w a b => if satOf p then clampSigned w (a.toInt + b.toInt) else a + b) ∧
  (∀ p f, GivesX (.sub p f) f fun w a b => if satOf p then clampSigned w (a.toInt - b.toInt) else a - b) ∧
  (∀ p f, GivesX (.mul p f) f fun _ a b => a * b) ∧
  (∀ p f, Gives32 (.mulh p f) f.d fun r =>
    let a := r f.a.toNat
    let b := r f.b.toNat
    if f.x then BitVec.ofInt 32 (a.toInt * b.toInt / 2 ^ 32) else BitVec.ofNat 32 (a.toNat * b.toNat / 2 ^ 32)) ∧
  (∀ p f, GivesX (.and_ p f) f fun _ a b => a &&& b) ∧
  (∀ p f, GivesX (.or_ p f) f fun _ a b => a ||| b) ∧
  (∀ p f, GivesX (.xor_ p f) f fun _ a b => a ^^^ b) ∧
  (∀ p f, GivesX (.andn p f) f fun _ a b => a &&& ~~~b) ∧
  (∀ p f, Gives32 (.min p f) f.d fun r =>
    let a := r f.a.toNat
    let b := r f.b.toNat
    if f.x then (if b.slt a then b else a) else if b.ult a then b else a) ∧
  (∀ p f, Gives32 (.max p f) f.d fun r =>
    let a := r f.a.toNat
    let b := r f.b.toNat
    if f.x then (if a.slt b then b else a) else if a.ult b then b else a)

/-- 03 R61: shifts and rotates count by the whole of b; a shift by the width or more gives 0, or all sign bits. -/
def Sys2Proof.Claims.ShiftResults : Prop :=
  (∀ p f, (if f.x then Gives64 (.shl p f) f.d fun r => pairAt r f.a.toNat <<< (r f.b.toNat).toNat
    else Gives32 (.shl p f) f.d fun r => r f.a.toNat <<< (r f.b.toNat).toNat)) ∧
  (∀ p f, Gives32 (.shr p f) f.d fun r =>
    let n := (r f.b.toNat).toNat
    if f.x then (r f.a.toNat).sshiftRight n else r f.a.toNat >>> n) ∧
  (∀ p f, (if f.x then Gives64 (.rot p f) f.d fun r => (pairAt r f.a.toNat).rotateLeft (r f.b.toNat).toNat
    else Gives32 (.rot p f) f.d fun r => (r f.a.toNat).rotateLeft (r f.b.toNat).toNat))

/-- 03 R61, R62: bit fields, and the conditional move, which leaves d as it was where its condition fails. -/
def Sys2Proof.Claims.FieldAndConditionalMoveResults : Prop :=
  (∀ p f, Gives32 (.bfx p f) f.d fun r =>
    let b := r f.b.toNat
    let v := (r f.a.toNat >>> fieldPos b) &&& ones (fieldLen b)
    if f.x && fieldLen b != 0 && v.getLsbD (fieldLen b - 1) then v ||| ~~~ones (fieldLen b) else v) ∧
  (∀ p f, Gives32 (.bfi p f) f.d fun r =>
    let b := r f.b.toNat
    let m := ones (fieldLen b) <<< fieldPos b
    (r f.d.toNat &&& ~~~m) ||| ((r f.a.toNat <<< fieldPos b) &&& m)) ∧
  (∀ p f s k g, Issues (.movc p f) s k g → ∃ t g', Runs (.movc p f) s k t g' ∧ Retired (g.issue (.movc p f)) g g' ∧
    ∀ u ∈ (g.issue (.movc p f)).allUnits,
      (((g.word u f.a.toNat ≠ 0) ↔ f.x = false) → (g'.reg? u f.d.toNat).map (·.val) = some (g.word u f.b.toNat)) ∧
      (((g.word u f.a.toNat ≠ 0) ↔ f.x = true) → (f.la = true → f.a ≠ f.d) → (f.lb = true → f.b ≠ f.d) →
        g'.reg? u f.d.toNat = g.reg? u f.d.toNat)) ∧
  (∀ p f s id e, EngineIssues (.movc p f) s id e → ∃ t e', EngineRuns (.movc p f) s id t e' ∧
    EngineRetired (.movc p f) e e' ∧
    e'.word f.d.toNat = if (e.word f.a.toNat ≠ 0) ↔ f.x = false then e.word f.b.toNat else e.word f.d.toNat)

/-- 03 R63: the one-source integer words. -/
def Obligations.OneSourceIntegerResults : Prop :=
  (∀ p f, GivesX1 (.neg p f) f fun w a => if satOf p then clampSigned w (-a.toInt) else -a) ∧
  (∀ p f, GivesX1 (.not_ p f) f fun _ a => ~~~a) ∧
  (∀ p f, GivesX1 (.abs p f) f fun w a => if a.msb then (if satOf p then clampSigned w (-a.toInt) else -a) else a) ∧
  (∀ p f, Gives32 (.popc p f) f.d fun r =>
    BitVec.ofNat 32 (if f.x then onesOf (pairAt r f.a.toNat) else onesOf (r f.a.toNat))) ∧
  (∀ p f, Gives32 (.clz p f) f.d fun r =>
    BitVec.ofNat 32 (if f.x then zerosAbove (pairAt r f.a.toNat) else zerosAbove (r f.a.toNat))) ∧
  (∀ p f, Gives32 (.ctz p f) f.d fun r =>
    BitVec.ofNat 32 (if f.x then zerosBelow (pairAt r f.a.toNat) else zerosBelow (r f.a.toNat))) ∧
  (∀ p f, GivesX1 (.brev p f) f fun _ a => a.reverse) ∧
  (∀ p f, if f.x then Gives64 (.bswap p f) f.d fun r => bytesBack (r f.a.toNat) ++ bytesBack (r (f.a.toNat + 1))
    else Gives32 (.bswap p f) f.d fun r => bytesBack (r f.a.toNat)) ∧
  (∀ p f, GivesX1 (.mov p f) f fun _ a => a) ∧
  (∀ p f, Gives32 (.sext8 p f) f.d fun r => (bitsOf (r f.a.toNat) 0 8).signExtend 32) ∧
  (∀ p f, Gives32 (.sext16 p f) f.d fun r => (bitsOf (r f.a.toNat) 0 16).signExtend 32) ∧
  (∀ p f, Gives32 (.zext8 p f) f.d fun r => r f.a.toNat &&& 0xFF) ∧
  (∀ p f, Gives32 (.zext16 p f) f.d fun r => r f.a.toNat &&& 0xFFFF) ∧
  (∀ p f, Gives64 (.sext32 p f) f.d fun r => (r f.a.toNat).signExtend 64) ∧
  (∀ p f, Gives64 (.zext32 p f) f.d fun r => (r f.a.toNat).setWidth 64)

/-- 03 R65 to R68: immediates, constants and the multiply-add, whose third source is the prefix's C, or D. -/
def Sys2Proof.Claims.ImmediateAndConstantResults : Prop :=
  (∀ p f, Gives32 (.addi p f) f.d fun r =>
    let a := r f.a.toNat
    if satOf p then clampSigned 32 (a.toInt + f.imm.toInt) else a + f.imm.signExtend 32) ∧
  (∀ p f, Gives32 (.andi p f) f.d fun r => r f.a.toNat &&& f.imm.signExtend 32) ∧
  (∀ p f, Gives32 (.ori p f) f.d fun r => r f.a.toNat ||| f.imm.signExtend 32) ∧
  (∀ p f, Gives32 (.xori p f) f.d fun r => r f.a.toNat ^^^ f.imm.signExtend 32) ∧
  (∀ p f,
    let n := (bitsOf f.imm 0 6).toNat
    if bitOf f.imm 8 then Gives64 (.shi p f) f.d fun r => shiftKind (bitsOf f.imm 6 2) (pairAt r f.a.toNat) n
    else Gives32 (.shi p f) f.d fun r => shiftKind (bitsOf f.imm 6 2) (r f.a.toNat) n) ∧
  (∀ p f, Gives32 (.li p f) f.d fun _ => f.imm.signExtend 32) ∧
  (∀ p f, Gives32 (.lui p f) f.d fun r => f.imm ++ bitsOf (r f.d.toNat) 0 15) ∧
  (∀ (p : Pfx) f,
    let c := p.elim f.d (·.c)
    if f.x then GroupGives64 (.mad p f) f.d fun r =>
      BitVec.ofNat 64 ((r f.a.toNat).toNat * (r f.b.toNat).toNat + (pairAt r c.toNat).toNat)
    else GroupGives32 (.mad p f) f.d fun r => r f.a.toNat * r f.b.toNat + r c.toNat)

/-- 03 R61, R62, R65 to R68: immediates, constants, the multiply-add, bit fields and the conditional move. -/
def Obligations.ImmediateFieldAndMoveResults : Prop := ImmediateAndConstantResults ∧ FieldAndConditionalMoveResults

/-! ### What the register words leave as it was -/

namespace Sys2Proof.Claims

/-- The integer and capability words of 03, and the words of 04, whose whole effect is a result in registers. -/
def isPlainWord : Instr → Bool
  | .mul .. | .mulh .. | .and_ .. | .or_ .. | .xor_ .. | .andn .. | .shl .. | .shr .. | .rot .. | .min .. | .max ..
  | .movc .. | .bfx .. | .bfi .. | .not_ .. | .popc .. | .clz .. | .ctz .. | .brev .. | .bswap .. | .sext8 .. | .sext16 ..
  | .zext8 .. | .zext16 .. | .mov .. | .sext32 .. | .zext32 .. | .andi .. | .ori .. | .xori .. | .shi .. | .li .. | .lui ..
  | .mad .. | .capMov .. | .capGetaddr .. | .capGetbase .. | .capGetlen .. | .capGetrights .. | .capGettag ..
  | .capRestrict .. | .capSetaddr .. | .capIncaddr .. | .capClrtag .. | .cbnd .. | .fclass .. => true
  | _ => false

/-- The words whose whole effect is a result in registers with the flags it raises: those that saturate (03 R59), and the
floating words of 04. -/
def isFlagWord : Instr → Bool
  | .add .. | .sub .. | .neg .. | .abs .. | .addi .. | .fadd .. | .fsub .. | .fmul .. | .ffma .. | .fmin .. | .fmax ..
  | .hadd2 .. | .hmul2 .. | .hfma2 .. | .dot2 .. | .fcvt .. | .fabs .. | .fneg .. | .fsqrt .. | .frint .. | .frcp ..
  | .fsat .. | .sfuRcp .. | .sfuRsqrt .. | .sfuExp2 .. | .sfuLog2 .. | .sfuSin .. | .sfuCos .. | .sfuTanh .. | .fminNan ..
  | .fmaxNan .. | .fminmag .. | .fmaxmag .. => true
  | _ => false

/-- The words whose whole effect is a result in registers, with the flags it raises. -/
def isResultWord (i : Instr) : Bool := isPlainWord i || isFlagWord i

/-- The words whose whole effect is a predicate, with the flags that comparing raises. -/
def isCompareWord : Instr → Bool
  | .cmpI32 .. | .cmpUi32 .. | .cmpI64 .. | .cmpUi64 .. | .cmpi .. | .fcmp .. => true
  | _ => false

/-- The predicates that the word wrote in its run may change as well (01 R23). -/
def LaneKeptButPredicates (y y' : Lane) : Prop :=
  LaneKept y { y' with predNew := y.predNew, predMask := y.predMask, predNewPoison := y.predNewPoison } ∧
    ∀ q : Nat, y'.predMask.getLsbD q = false → y'.predNew.getLsbD q = y.predNew.getLsbD q

/-- The word completes, and in the device, in every other group, in the rest of its own group and in every register that
it neither writes nor frees it changes nothing; `lane` says what it leaves of a lane. A register marked as last use is dead
afterwards unless the word writes it (01 R24). -/
def LeavesTheRest (i : Instr) (lane : Lane → Lane → Prop) : Prop :=
  ∀ s k g, Issues i s k g → ∃ t g', Runs i s k t g' ∧ Retired (g.issue i) g g' ∧ DeviceKept s t ∧ OthersKept k s t ∧
    GroupKept g g' ∧ RegsKept (g.issue i) g g' ∧ (∀ key, t.mem.read key = s.mem.read key) ∧
    g'.lanes.length = g.lanes.length ∧
    (∀ l y, g.lane? l = some y → ∃ y', g'.lane? l = some y' ∧ lane y y') ∧
    ∀ u ∈ (g.issue i).units, ∀ o ∈ (g.issue i).desc.ops, o.last = true → ∀ j < o.count,
      (∀ w ∈ (g.issue i).desc.ops, w.write = true → ∀ m < w.count, w.field.toNat + m ≠ o.field.toNat + j) →
      g'.reg? u (o.field.toNat + j) = none

end Sys2Proof.Claims

/-- 02 R57, 03 R59, R60, 04 R104: a register word changes the registers it writes or frees, the flags of its run and where
its fibres stand, and nothing else: no byte of memory, no other group, no predicate, no status or trap register. A compare
changes the predicates its run writes instead, and FPSR's pending flags. -/
def Sys2Proof.Claims.ResultWordsLeaveTheRest : Prop :=
  (∀ i, isResultWord i = true → LeavesTheRest i LaneKept) ∧
  (∀ i, isCompareWord i = true → LeavesTheRest i LaneKeptButPredicates)

namespace Sys2Proof.Claims

/-- When the word issues it completes, and in each active lane FPSR.SAT is raised where its exact result does not fit in `w`
bits as a signed number, and no other flag (03 R59). -/
def Saturates (i : Instr) (w : Nat) (exact : (Nat → Word) → Int) : Prop :=
  ∀ s k g, Issues i s k g → ∃ t g', Runs i s k t g' ∧ Retired (g.issue i) g g' ∧
    ∀ l ∈ (g.issue i).active, ∀ y, g.lane? l = some y → (g'.lane? l).map (·.flags) = some (
      let r := exact (g.word (unitOf (g.issue i) l))
      if satOf i.pfx ∧ (r < -(2 ^ (w - 1)) ∨ 2 ^ (w - 1) ≤ r) then y.flags ||| fSAT else y.flags)

/-- The 64-bit or 32-bit form by the X bit. -/
def SaturatesX (i : Instr) (x : Bool) (exact : (w : Nat) → (Nat → BitVec w) → Int) : Prop :=
  if x then Saturates i 64 fun r => exact 64 (pairAt r) else Saturates i 32 fun r => exact 32 r

/-- A lane that a prefix with MZ = 1 masks off: of the issuing set, or (where `helpers` says so) a helper of one of its quads
(02 R44, 05 R127). -/
def MaskedOff (i : Instr) (g : Group) (helpers : Bool) (l : Nat) : Prop :=
  ∃ p y, i.pfx = some p ∧ p.mz = true ∧ g.lane? l = some y ∧ holds y.preds p.pr.toNat = p.pn ∧
    (l ∈ (g.issue i).issuing ∨ (helpers = true ∧ y.status = .helper ∧ ∃ m ∈ (g.issue i).issuing, m / 4 = l / 4))

/-- The words that write a vector register in each lane that takes part, beside the result words: `rand`, `pget`, and those that
move or combine the values of lanes (04 R123, 03 R63, 05). -/
def isLaneWord : Instr → Bool
  | .rand .. | .pget .. | .shflIdx .. | .shflRel .. | .qswpH .. | .qswpV .. | .qswpD .. | .qbc .. | .bcast .. | .qddx ..
  | .qddy .. | .voteSome .. | .voteEvery .. | .voteAgree .. | .voteCount .. | .voteFirst .. | .voteLast .. | .voteMask ..
  | .matchF .. | .redg .. | .scang .. => true
  | _ => false

/-- PD and PC of a compare. -/
def predicateOf : Instr → Nat × Nat
  | .cmpI32 _ f | .cmpUi32 _ f | .cmpI64 _ f | .cmpUi64 _ f | .cmpi _ f | .fcmp _ f => (f.pd.toNat, f.pc.toNat)
  | _ => (15, 0)

/-- A source of the word is poisoned in a unit. -/
def Tainted (i : Instr) (g : Group) (u : Option Nat) : Bool :=
  (readFields (g.issue i).desc).any fun f => (g.reg? u f).any (·.poison)

/-- When the word issues it completes, and predicate PD, where it is one of p0 to p14, is written poisoned in just those
lanes where `bad` says so. -/
def PoisonsPred (i : Instr) (pd : Nat) (bad : Group → Nat → Lane → Bool) : Prop :=
  ∀ s k g, Issues i s k g → ∃ t g', Runs i s k t g' ∧ Retired (g.issue i) g g' ∧ (pd < 15 →
    ∀ l ∈ (g.issue i).receiving, ∀ y, g.lane? l = some y →
      (g'.lane? l).map (fun z => (z.predMask.getLsbD pd, z.predNewPoison.getLsbD pd)) = some (true, bad g l y))

end Sys2Proof.Claims

/-- 03 R59, R61, R63, R65: SAT is raised in a lane where saturating changed the result, and only under SAT; the other integer
and capability words raise no flag. -/
def Sys2Proof.Claims.SaturationRaisesItsFlag : Prop :=
  (∀ p f, SaturatesX (.add p f) f.x fun _ r => (r f.a.toNat).toInt + (r f.b.toNat).toInt) ∧
  (∀ p f, SaturatesX (.sub p f) f.x fun _ r => (r f.a.toNat).toInt - (r f.b.toNat).toInt) ∧
  (∀ p f, SaturatesX (.neg p f) f.x fun _ r => -(r f.a.toNat).toInt) ∧
  (∀ p f, SaturatesX (.abs p f) f.x fun _ r => (r f.a.toNat).toInt.natAbs) ∧
  (∀ p f, Saturates (.addi p f) 32 fun r => (r f.a.toNat).toInt + f.imm.toInt) ∧
  (∀ i s k g, isPlainWord i = true → Issues i s k g → ∃ t g', Runs i s k t g' ∧ Retired (g.issue i) g g' ∧
    ∀ l y, g.lane? l = some y → (g'.lane? l).map (·.flags) = some y.flags)

/-- 03 R59, R61, R62: the two-source integer words, the shifts and rotates, and the flag that SAT raises. -/
def Obligations.TwoSourceAndShiftResults : Prop := TwoSourceIntegerResults ∧ ShiftResults ∧ SaturationRaisesItsFlag

/-- 02 R39, R44, 03 R64, 05 R127: under MZ = 1 a masked-off lane of the issuing set, and a masked-off helper of its quads, receives
0 in a vector destination; in a masked-off lane of the issuing set a compare writes 0 to PD, and `pput` to p0 to p14. -/
def Sys2Proof.Claims.MaskedLanesTakeZero : Prop :=
  (∀ i s k g l, isResultWord i = true ∨ isLaneWord i = true → Issues i s k g → MaskedOff i g true l → ∃ t g', Runs i s k t g' ∧
    Retired (g.issue i) g g' ∧ ∀ o ∈ (g.issue i).desc.ops, o.write = true → isUni o.field = false → ∀ j < o.count,
      g'.reg? (some l) (o.field.toNat + j) = some ⟨0, false⟩) ∧
  (∀ i s k g l, isCompareWord i = true → Issues i s k g → MaskedOff i g false l → (predicateOf i).1 < 15 →
    ∃ t g' y, Runs i s k t g' ∧ Retired (g.issue i) g g' ∧ g'.lane? l = some y ∧
      y.predMask.getLsbD (predicateOf i).1 = true ∧ y.predNew.getLsbD (predicateOf i).1 = false ∧
      y.predNewPoison.getLsbD (predicateOf i).1 = false) ∧
  (∀ p f s k g l, Issues (.pput p f) s k g → MaskedOff (.pput p f) g false l →
    ∃ t g' y, Runs (.pput p f) s k t g' ∧ Retired (g.issue (.pput p f)) g g' ∧ g'.lane? l = some y ∧
      ∀ q < 15, y.predMask.getLsbD q = true ∧ y.predNew.getLsbD q = false ∧ y.predNewPoison.getLsbD q = false)

/-- 03 R59, 04 R106: a result is poisoned in just those lanes where a source is poisoned; so is a predicate that a compare or
`pset` writes, and what passes between predicates and registers. -/
def Sys2Proof.Claims.PoisonTravels : Prop :=
  (∀ i s k g, isResultWord i = true → (∀ p f, i ≠ .movc p f) → Issues i s k g → ∃ t g', Runs i s k t g' ∧
    Retired (g.issue i) g g' ∧ ∀ u ∈ (g.issue i).allUnits, ∀ o ∈ (g.issue i).desc.ops, o.write = true → ∀ j < o.count,
      (g'.reg? u (o.field.toNat + j)).map (·.poison) = some (Tainted i g u)) ∧
  (∀ p f s k g, Issues (.movc p f) s k g → ∃ t g', Runs (.movc p f) s k t g' ∧ Retired (g.issue (.movc p f)) g g' ∧
    ∀ u ∈ (g.issue (.movc p f)).allUnits, ((g.word u f.a.toNat ≠ 0) ↔ f.x = false) →
      (g'.reg? u f.d.toNat).map (·.poison) = some (Tainted (.movc p f) g u)) ∧
  (∀ i, isCompareWord i = true → PoisonsPred i (predicateOf i).1 fun g l y => Tainted i g (unitOf (g.issue i) l) ||
    ((predicateOf i).2 == 1 || (predicateOf i).2 == 2) && y.predPoison.getLsbD (predicateOf i).1) ∧
  (∀ f, PoisonsPred (.pset f) f.pd.toNat fun _ _ y =>
    (f.cond.toNat < 5 && y.predPoison.getLsbD f.a.toNat) || (f.cond.toNat < 4 && y.predPoison.getLsbD f.b.toNat) ||
      ((f.pc == 1 || f.pc == 2) && y.predPoison.getLsbD f.pd.toNat)) ∧
  (∀ p f s k g, Issues (.pput p f) s k g → ∃ t g', Runs (.pput p f) s k t g' ∧ Retired (g.issue (.pput p f)) g g' ∧
    ∀ l ∈ (g.issue (.pput p f)).receiving, ∃ y, g'.lane? l = some y ∧ ∀ q < 15,
      y.predNewPoison.getLsbD q = (g.reg? (some l) f.a.toNat).any (·.poison)) ∧
  (∀ p f s k g, Issues (.pget p f) s k g → ∃ t g', Runs (.pget p f) s k t g' ∧ Retired (g.issue (.pget p f)) g g' ∧
    ∀ l ∈ (g.issue (.pget p f)).receiving, ∀ y, g.lane? l = some y →
      (g'.reg? (some l) f.d.toNat).map (·.poison) = some (y.predPoison != 0))

/-- 02 R39, R44, R57, 03 R59, R60, R64, 04 R104, R106, 05 R127: a register word changes its results and nothing else; masked-off
lanes receive 0 under MZ; and poison goes from sources to results. -/
def Obligations.RegisterWordsLeaveTheRest : Prop := ResultWordsLeaveTheRest ∧ MaskedLanesTakeZero ∧ PoisonTravels

/-- 03 R69, R70, 02 R39, R40: the integer compares write PD. -/
def Sys2Proof.Claims.IntegerComparesWriteTheirPredicate : Prop :=
  (∀ p f, GivesPred (.cmpI32 p f) f.pd.toNat fun r old =>
    let a := r f.a.toNat
    let b := r f.b.toNat
    combined f.pc.toNat f.pd.toNat old (condition f.cond a.toInt b.toInt a b)) ∧
  (∀ p f, GivesPred (.cmpUi32 p f) f.pd.toNat fun r old =>
    let a := r f.a.toNat
    let b := r f.b.toNat
    combined f.pc.toNat f.pd.toNat old (condition f.cond a.toNat b.toNat a b)) ∧
  (∀ p f, GivesPred (.cmpI64 p f) f.pd.toNat fun r old =>
    let a := pairAt r f.a.toNat
    let b := pairAt r f.b.toNat
    combined f.pc.toNat f.pd.toNat old (condition f.cond a.toInt b.toInt a b)) ∧
  (∀ p f, GivesPred (.cmpUi64 p f) f.pd.toNat fun r old =>
    let a := pairAt r f.a.toNat
    let b := pairAt r f.b.toNat
    combined f.pc.toNat f.pd.toNat old (condition f.cond a.toNat b.toNat a b)) ∧
  (∀ p f, GivesPred (.cmpi p f) f.pd.toNat fun r old =>
    let a := r f.a.toNat
    combined f.pc.toNat f.pd.toNat old (condition f.cond a.toInt f.b.toInt a (f.b.signExtend 32)))

/-- 03 R63, R64, R71: `pset` computes a predicate from two; `pput` writes p0 to p14; `pget` reads the predicates as they
stood when the run began. -/
def Sys2Proof.Claims.PredicateWords : Prop :=
  (∀ f, GivesPred (.pset f) f.pd.toNat fun _ old =>
    let a := holds old f.a.toNat
    let b := holds old f.b.toNat
    combined f.pc.toNat f.pd.toNat old (
      if f.cond = 0 then a && b else if f.cond = 1 then a || b else if f.cond = 2 then a ^^ b else if f.cond = 3 then a && !b
      else if f.cond = 4 then a else if f.cond = 5 then false else true)) ∧
  (∀ p f s k g, Issues (.pput p f) s k g → ∃ t g', Runs (.pput p f) s k t g' ∧ Retired (g.issue (.pput p f)) g g' ∧
    ∀ l ∈ (g.issue (.pput p f)).receiving, ∀ y, g.lane? l = some y → ∃ y', g'.lane? l = some y' ∧ y'.preds = y.preds ∧
      ∀ q < 15, y'.predMask.getLsbD q = true ∧ y'.predNew.getLsbD q = (g.word (some l) f.a.toNat).getLsbD q) ∧
  (∀ p f s id e, EngineIssues (.pput p f) s id e → ∃ t e', EngineRuns (.pput p f) s id t e' ∧
    EngineRetired (.pput p f) e e' ∧ ∀ q < 15, e'.preds.getLsbD q = (e.word f.a.toNat).getLsbD q) ∧
  (∀ p f s k g, Issues (.pget p f) s k g → ∃ t g', Runs (.pget p f) s k t g' ∧ Retired (g.issue (.pget p f)) g g' ∧
    ∀ l ∈ (g.issue (.pget p f)).receiving, ∀ y, g.lane? l = some y →
      (g'.reg? (some l) f.d.toNat).map (·.val) = some ((y.preds ||| 0x8000).setWidth 32))

/-- 03 R63, R64, R69 to R71, 02 R39, R40: the words that write or read predicates. -/
def Obligations.ComparesAndPredicateWords : Prop := IntegerComparesWriteTheirPredicate ∧ PredicateWords

/-- 03 R83, R86, R87: the capability words complete; the fields of a result are those of a, but for the one the word
changes, and only a word that keeps the capability's authority keeps the tag. -/
def Sys2Proof.Claims.CapabilityResults : Prop :=
  (∀ p f, GivesCap (.capMov p f) f.d fun g u => (g.quad u f.a.toNat, g.quadTag u f.a.toNat)) ∧
  (∀ p f, GivesCap (.capClrtag p f) f.d fun g u => (g.quad u f.a.toNat, false)) ∧
  (∀ p f, GroupGives64 (.capGetaddr p f) f.d fun r => (bitsOf (quadAt r f.a.toNat) 0 48).setWidth 64) ∧
  (∀ p f, GroupGives64 (.capGetbase p f) f.d fun r => (bitsOf (quadAt r f.a.toNat) 48 48).setWidth 64) ∧
  (∀ p f, GroupGives64 (.capGetlen p f) f.d fun r =>
    let c := quadAt r f.a.toNat
    BitVec.ofNat 64 (min (2 ^ 48) (((bitsOf c 96 18).toNat + 1) * 2 ^ (bitsOf c 114 6).toNat))) ∧
  (∀ p f, GroupGives32 (.capGetrights p f) f.d fun r => (bitsOf (quadAt r f.a.toNat) 120 8).setWidth 32) ∧
  (∀ p f s k g, Issues (.capGettag p f) s k g → ∃ t g', Runs (.capGettag p f) s k t g' ∧
    Retired (g.issue (.capGettag p f)) g g' ∧
    Holds32 (g.issue (.capGettag p f)) g' f.d fun u => if g.quadTag u f.a.toNat then 1 else 0) ∧
  (∀ (p : Pfx) f, GivesCap (.capRestrict p f) f.d fun g u =>
    let c := g.quad u f.a.toNat
    let m := g.word u (p.elim f.d (·.c)).toNat
    ((bitsOf c 120 8 &&& bitsOf m 0 8) ++ bitsOf c 0 120, g.quadTag u f.a.toNat)) ∧
  (∀ (p : Pfx) f, GivesCap (.capSetaddr p f) f.d fun g u =>
    let c := g.quad u f.a.toNat
    (bitsOf c 48 80 ++ bitsOf (pairAt (g.word u) (p.elim f.d (·.c)).toNat) 0 48, g.quadTag u f.a.toNat)) ∧
  (∀ (p : Pfx) f, GivesCap (.capIncaddr p f) f.d fun g u =>
    let c := g.quad u f.a.toNat
    let n := g.word u (p.elim f.d (·.c)).toNat
    (bitsOf c 48 80 ++ (bitsOf c 0 48 + n.signExtend 48), g.quadTag u f.a.toNat))

/-- 03 R84, R87: `cbnd` bounds a capability from its address. LE is the smallest exponent that represents the length, and LM
follows; the tag is kept only where the length is representable (or X rounds it up) and the range stays in the old bounds. -/
def Sys2Proof.Claims.CbndBoundsACapability : Prop :=
  ∀ p f s k g, Issues (.cbnd p f) s k g → ∃ t g', Runs (.cbnd p f) s k t g' ∧ Retired (g.issue (.cbnd p f)) g g' ∧
    ∀ u ∈ (g.issue (.cbnd p f)).allUnits,
      let a := g.quad u f.a.toNat
      let c := Cap.ofVal ⟨a, g.quadTag u f.a.toNat, false⟩
      let n := (pairAt (g.word u) f.b.toNat).toNat
      let bounded (le : BitVec 6) (lm : BitVec 18) : BitVec 128 := bitsOf a 120 8 ++ le ++ lm ++ bitsOf a 0 48 ++ bitsOf a 0 48
      if n = 0 ∨ 2 ^ 48 < n then g'.quad u f.d.toNat = bounded 0 0 ∧ g'.quadTag u f.d.toNat = false
      else ∃ le : Nat, n ≤ 2 ^ 18 * 2 ^ le ∧ (∀ m < le, 2 ^ 18 * 2 ^ m < n) ∧
        let units := (n + 2 ^ le - 1) / 2 ^ le
        g'.quad u f.d.toNat = bounded (BitVec.ofNat 6 le) (BitVec.ofNat 18 (units - 1)) ∧
        (g'.quadTag u f.d.toNat = true ↔ c.tag = true ∧ (f.x = true ∨ 2 ^ le ∣ n) ∧ c.base ≤ c.addr ∧
          c.addr + units * 2 ^ le ≤ c.base + c.length)

/-- 03 R83, R84, R86, R87: the capability words. No word makes a tag where there was none, and a result's bounds and rights
stay within those of its source. -/
def Obligations.CapabilityWords : Prop := CapabilityResults ∧ CbndBoundsACapability

/-! ### Control and system words -/

/-- 03 R72: what `movs` reads from each special register: the fibre's lane and quad, its group and block, the launch's
sizes, the place of its core, its identity in the device, the clock, the seed, the status and the trap registers. -/
def Sys2Proof.Claims.SpecialRegisterReads : Prop :=
  ReadsSpecial 0x00 1 (fun _ _ _ l => l) ∧ ReadsSpecial 0x01 1 (fun _ _ _ l => l / 4) ∧
  ReadsSpecial 0x02 1 (fun _ g _ _ => g.key.idx) ∧ ReadsSpecial 0x03 1 (fun _ g _ _ => g.key.block) ∧
  ReadsSpecial 0x04 1 (fun _ _ l _ => l.nblocks) ∧ ReadsSpecial 0x05 1 (fun _ g _ _ => g.w) ∧
  ReadsSpecial 0x06 1 (fun _ _ l _ => l.bfibres) ∧ ReadsSpecial 0x07 1 (fun _ g _ _ => g.core % 4) ∧
  ReadsSpecial 0x08 1 (fun _ g _ _ => g.core / 4 % 16) ∧ ReadsSpecial 0x09 1 (fun _ g _ _ => g.core / 64) ∧
  ReadsSpecial 0x0A 1 (fun _ g _ _ => g.key.launch) ∧
  ReadsSpecial 0x0B 2 (fun _ g l n => g.key.block * l.bfibres + g.key.idx * g.w + n) ∧
  ReadsSpecial 0x0C 2 (fun s g _ _ => (s.die (g.core / 64)).clock) ∧ ReadsSpecial 0x0D 2 (fun _ _ l _ => l.seed.toNat) ∧
  ReadsSpecial 0x0E 1 (fun _ g _ n => (g.lane? n).elim 0 fun y => y.fpsr.toNat) ∧
  ReadsSpecial 0x0F 1 (fun _ g _ _ => g.fpcr.toNat) ∧ ReadsSpecial 0x10 1 (fun _ g _ _ => g.tcause.toNat) ∧
  ReadsSpecial 0x11 2 (fun _ g _ _ => g.tval.toNat) ∧
  ReadsSpecial 0x12 1 (fun _ g _ n => (g.lane? n).elim 0 fun y => y.tpc.toNat) ∧
  ReadsSpecial 0x13 2 (fun _ g _ _ => g.tmask.toNat) ∧ ReadsSpecial 0x14 1 (fun _ g _ _ => g.msr.toNat) ∧
  ReadsSpecial 0x15 2 (fun _ _ _ _ => Config.feat0.toNat) ∧ ReadsSpecial 0x16 2 (fun _ _ _ _ => 0) ∧
  ReadsSpecial 0x17 2 (fun _ _ _ _ => 0) ∧ ReadsSpecial 0x18 2 (fun _ _ _ _ => 0)

/-- 03 R72, R73, 09 R222: `movs` writes FPSR of each fibre, FPCR or MSR; the new value stands at the drain. A reserved
rounding mode traps instead, so FPCR is written only with modes 0 to 5; its bit 3 is reserved and stays 0 (04 R105). -/
def Sys2Proof.Claims.SpecialRegisterWrites : Prop :=
  (∀ (f : FmtRM) s k g, f.x = true → f.m = 0x0E → Issues (.movs f) s k g →
    ∃ t g', Runs (.movs f) s k t g' ∧ Retired (g.issue (.movs f)) g g' ∧
      ∀ l ∈ (g.issue (.movs f)).receiving, (g'.lane? l).map (·.fpsrWrite) =
        some (some (bitsOf (g.word (unitOf (g.issue (.movs f)) l) f.a.toNat) 0 7)) ∧
        (g'.lane? l).map (·.fpsr) = (g.lane? l).map (·.fpsr)) ∧
  (∀ (f : FmtRM) s k g, f.x = true → f.m = 0x0F → Issues (.movs f) s k g → (g.word none f.a.toNat).toNat % 8 < 6 →
    ∃ t g', Runs (.movs f) s k t g' ∧ Retired (g.issue (.movs f)) g g' ∧
      g'.fpcrWrite = some (bitsOf (g.word none f.a.toNat) 0 5 &&& 0x17) ∧ g'.fpcr = g.fpcr) ∧
  (∀ (f : FmtRM) s k g l, f.x = true → f.m = 0x0F → Issues (.movs f) s k g → 6 ≤ (g.word none f.a.toNat).toNat % 8 →
    (∀ u ∈ (g.issue (.movs f)).units, (g.reg? u f.a.toNat).map (·.poison) = some false) → g.amber = .idle →
    s.launch? k.launch = some l → l.trapv < l.codeLen → g.handler = false →
    ∃ t g', Runs (.movs f) s k t g' ∧ g'.handler = true ∧ g'.tcause = 0x01 ∧
      g'.tval = (g.word none f.a.toNat).setWidth 64 ∧ g'.fpcr = g.fpcr ∧ g'.fpcrWrite = g.fpcrWrite) ∧
  (∀ (f : FmtRM) s k g, f.x = true → f.m = 0x14 → Issues (.movs f) s k g →
    ∃ t g', Runs (.movs f) s k t g' ∧ Retired (g.issue (.movs f)) g g' ∧
      g'.msrWrite = some (g.word none f.a.toNat &&& 0x00FFFE0F) ∧ g'.msr = g.msr)

/-- 03 R72, R73, 09 R222: `movs` reads and writes the special registers. -/
def Obligations.SpecialRegisters : Prop := SpecialRegisterReads ∧ SpecialRegisterWrites

namespace Sys2Proof.Claims

/-- Nothing changes but where the fibres of the group stand, which of them are parked after `yield`, the count of its run, and
what of it may be undone: no register, predicate, flag, memory or other group. -/
def OnlyMoves (s : State) (k : GKey) (g : Group) (t : State) (g' : Group) : Prop :=
  DeviceKept s t ∧ OthersKept k s t ∧
  ({ g' with lanes := g.lanes, runCount := g.runCount, draining := g.draining, marks := g.marks } : Group) = g ∧
  ∀ l y, g.lane? l = some y → ∃ y', g'.lane? l = some y' ∧ ({ y' with pc := y.pc, park := y.park } : Lane) = y

end Sys2Proof.Claims

/-- 02 R38, 03 R75 to R77: `bra`, `call` and `jr` say where each fibre goes on; `bra` alone depends on a predicate, and
`call` leaves the address after it in D. -/
def Obligations.TransfersOfControl : Prop :=
  (∀ f s k g, Issues (.bra f) s k g → GuardClean (g.issue (.bra f)) g f.p.toNat →
    ∃ t g', Runs (.bra f) s k t g' ∧ Counted (.bra f) g g' ∧ OnlyMoves s k g t g' ∧
      ∀ l ∈ (g.issue (.bra f)).issuing, ∀ y, g.lane? l = some y →
        (g'.lane? l).map (·.pc) = some (if holds y.preds f.p.toNat = f.n then y.pc + 4 else y.pc + wordOffset f.off)) ∧
  (∀ f s id e, EngineIssues (.bra f) s id e → e.predPoison.getLsbD f.p.toNat = false →
    ∃ t e', EngineRuns (.bra f) s id t e' ∧ e'.count = e.count + 1 ∧
      e'.pc = if holds e.preds f.p.toNat = f.n then e.pc + 4 else e.pc + wordOffset f.off) ∧
  (∀ f s k g, Issues (.call f) s k g → ∃ t g', Runs (.call f) s k t g' ∧ Counted (.call f) g g' ∧
    ∀ l ∈ (g.issue (.call f)).issuing, ∀ y, g.lane? l = some y →
      (g'.lane? l).map (·.pc) = some (y.pc + wordOffset f.imm) ∧
      (g'.reg? (some l) f.d.toNat).map (·.val) = some (y.pc + 4)) ∧
  (∀ f s k g, Issues (.jr f) s k g → (∀ u ∈ (g.issue (.jr f)).units, (g.reg? u f.a.toNat).map (·.poison) = some false) →
    ∃ t g', Runs (.jr f) s k t g' ∧ Counted (.jr f) g g' ∧
      ∀ l ∈ (g.issue (.jr f)).issuing,
        (g'.lane? l).map (·.pc) = some (g.word (unitOf (g.issue (.jr f)) l) f.a.toNat + wordOffset f.imm)) ∧
  (∀ f s k g, Issues (.nop f) s k g → ∃ t g', Runs (.nop f) s k t g' ∧ Retired (g.issue (.nop f)) g g' ∧
    OnlyMoves s k g t g') ∧
  (∀ f s id e, EngineIssues (.nop f) s id e → ∃ t e', EngineRuns (.nop f) s id t e' ∧ EngineRetired (.nop f) e e')

/-- 01 R12, R26, 03 R78: each fibre whose predicate holds forks a child into the lowest free lane, in the order of the lanes;
the child goes to the target with the parent's predicates and window; the parent's predicate tells whether a lane was
free. -/
def Sys2Proof.Claims.ForkStartsFibres : Prop :=
  ∀ f s k g, Issues (.fork f) s k g → GuardClean (g.issue (.fork f)) g f.p.toNat →
    let x := g.issue (.fork f)
    let parents := x.issuing.filter fun l => (g.lane? l).any fun y => holds y.preds f.p.toNat
    let free := (List.range g.lanes.length).filter fun l => (g.lane? l).any fun y => y.status == .free
    ∃ t g', Runs (.fork f) s k t g' ∧ Retired x g g' ∧
      ∀ n p y, parents[n]? = some p → g.lane? p = some y →
        (f.p.toNat < 15 → (g'.lane? p).map (fun z => (z.predMask.getLsbD f.p.toNat, z.predNew.getLsbD f.p.toNat)) =
          some (true, decide (n < free.length))) ∧
        ∀ c, free[n]? = some c → ∃ z, g'.lane? c = some z ∧ z.status = .live ∧ z.park = none ∧
          z.pc = y.pc + wordOffset f.off ∧ z.preds = y.preds ∧ z.vb = y.vb ∧ z.fpsr = 0 ∧
          ∀ r < 96, g'.reg? (some c) r = g.reg? (some p) r

/-- 01 R19, R27, 03 R79, 10 R230: `end` ends the fibres of the issuing set: their lanes are helpers while their quad holds a
live fibre, else free; with its last fibre the group ends. `yield` parks a fibre until every other ready fibre has
issued. In an engine `end` ends the program. -/
def Sys2Proof.Claims.EndAndYield : Prop :=
  (∀ f s k g, Issues (.endF f) s k g → Quiet s → (∃ l ∈ g.liveLanes, l ∉ (g.issue (.endF f)).issuing) →
    ∃ t g', Runs (.endF f) s k t g' ∧ Counted (.endF f) g g' ∧
      ∀ l ∈ (g.issue (.endF f)).issuing, (g'.lane? l).map (·.status) = some (
        if ∃ m ∈ g.liveLanes, m ∉ (g.issue (.endF f)).issuing ∧ m / 4 = l / 4 then .helper else .free)) ∧
  (∀ f s k g, Issues (.endF f) s k g → Quiet s → (∀ l ∈ g.liveLanes, l ∈ (g.issue (.endF f)).issuing) →
    g.fails = [] → g.fabFails = [] → ∃ t, exec (.endF f) s = .next t ∧ t.group? k = none) ∧
  (∀ f s id e, EngineIssues (.endF f) s id e → ∃ t e', EngineRuns (.endF f) s id t e' ∧
    e' = { e with stopped := some 1, stopPc := e.pc }) ∧
  (∀ f s k g, Issues (.yield f) s k g → (∀ l y m, g.lane? l = some y → y.park ≠ some (.yield m)) →
    ∃ t g', Runs (.yield f) s k t g' ∧ Retired (g.issue (.yield f)) g g' ∧
      ∀ l ∈ (g.issue (.yield f)).issuing, (g'.lane? l).map (·.park) = some (
        let others := g.readyLanes.filter fun m => !(g.issue (.yield f)).issuing.contains m
        if others = [] then none else some (.yield (maskOf others))))

/-- 03 R82: `win` sets the vector base of each fibre and the uniform base of the group, but where a bit keeps one. -/
def Sys2Proof.Claims.WinSetsTheBases : Prop :=
  ∀ f s k g, Issues (.win f) s k g → ∃ t g', Runs (.win f) s k t g' ∧ Retired (g.issue (.win f)) g g' ∧
    (g'.ub = if bitOf f.imm 9 then g.ub else 32 * (bitsOf f.imm 5 3).toNat) ∧
    ∀ l ∈ (g.issue (.win f)).issuing, ∀ y, g.lane? l = some y →
      (g'.lane? l).map (·.vb) = some (if bitOf f.imm 8 then y.vb else 16 * (bitsOf f.imm 0 5).toNat)

/-- 01 R12, R19, R26, R27, 03 R78, R79, R82, 10 R230: `fork`, `end`, `yield` and `win`. -/
def Obligations.FibresStartYieldAndEnd : Prop := ForkStartsFibres ∧ EndAndYield ∧ WinSetsTheBases

namespace Sys2Proof.Claims

/-- A matrix word signs its convergence register: its fibres are parked there, and when every member of the declared set has
signed, the operation is queued, in its place in the order of each slice it uses (09 R210, R212). -/
def Signs (i : Instr) (cv : Nat) : Prop :=
  ∀ s k g m, Issues i s k g → Quiet s → (g.cv cv).declared = some m →
    (∀ l ∈ (g.issue i).issuing, m.getLsbD l = true) →
    ∃ t g', Runs i s k t g' ∧ Retired (g.issue i) g g' ∧ t.mem = s.mem ∧
      (g'.cv cv).signed = (g.cv cv).signed ++ (g.issue i).issuing.map (fun l => (l, (g.issue i).pc)) ∧
      (g'.cv cv).op = some i ∧ (∀ l ∈ (g.issue i).issuing, (g'.lane? l).map (·.park) = some (some (.cv cv))) ∧
      (((List.range 64).all fun l => !m.getLsbD l || (g'.cv cv).signed.any fun q => q.1 == l) = true →
        (g'.cv cv).queued = true ∧ ∀ arr ∈ productArrays i, .product k cv ∈ (t.sliceOf g' arr).order)

end Sys2Proof.Claims

/-- 03 R80, R81, 09 R212: `cvdecl` declares the live fibres, or the issuing set; `cvsign` parks its fibres until every member of
the set has signed, and then all of them go on, unless a member signed at a matrix word: that operation is queued. The matrix
words `mma`, `mma.s`, `mma.d` and `mscl` sign likewise, and their operation is queued. -/
def Obligations.ConvergenceWords : Prop :=
  (∀ f s k g, Issues (.cvdeclLive f) s k g → (g.cv (f.m.toNat % 8)).signed = [] →
    ∃ t g', Runs (.cvdeclLive f) s k t g' ∧ Retired (g.issue (.cvdeclLive f)) g g' ∧
      g'.cv (f.m.toNat % 8) = ⟨some (maskOf g.liveLanes), [], none, false⟩) ∧
  (∀ f s k g, Issues (.cvdeclSet f) s k g → (g.cv (f.m.toNat % 8)).signed = [] →
    ∃ t g', Runs (.cvdeclSet f) s k t g' ∧ Retired (g.issue (.cvdeclSet f)) g g' ∧
      g'.cv (f.m.toNat % 8) = ⟨some (maskOf (g.issue (.cvdeclSet f)).issuing), [], none, false⟩) ∧
  (∀ f s k g m, Issues (.cvsign f) s k g → Quiet s → f.m.toNat % 8 < g.cvs.length →
    (g.cv (f.m.toNat % 8)).declared = some m →
    (∀ l ∈ (g.issue (.cvsign f)).issuing, m.getLsbD l = true) →
    ∃ t g', Runs (.cvsign f) s k t g' ∧ Retired (g.issue (.cvsign f)) g g' ∧
      let n := f.m.toNat % 8
      let x := g.issue (.cvsign f)
      let signed := (g.cv n).signed ++ x.issuing.map fun l => (l, x.pc)
      if (List.range 64).all fun l => !m.getLsbD l || signed.any fun q => q.1 == l then
        match (g.cv n).op with
        | none => (g'.cv n).signed = [] ∧ ∀ l y, g'.lane? l = some y → y.park ≠ some (.cv n)
        | some i => (g'.cv n).signed = signed ∧ (g'.cv n).op = some i ∧ (g'.cv n).queued = true ∧
          ∀ l ∈ x.issuing, (g'.lane? l).map (·.park) = some (some (.cv n))
      else
        (g'.cv n).signed = signed ∧ ∀ l ∈ x.issuing, (g'.lane? l).map (·.park) = some (some (.cv n))) ∧
  (∀ f, Signs (.mma f) f.cv.toNat) ∧ (∀ f, Signs (.mmaS f) f.cv.toNat) ∧ (∀ f, Signs (.mmaD f) f.cv.toNat) ∧
  (∀ f, Signs (.mscl f) f.cv.toNat)

/-- 01 R31, R32, 03 R88, R90, R92: `trap` raises BREAK. Handled, every live fibre that is not parked, or only after `yield`,
enters the handler: it saves where it goes on, a fibre that raised the trap the trapping word, and TCAUSE, TVAL and TMASK
are written. Without a handler the launch aborts. -/
def Sys2Proof.Claims.TrapEntersTheHandler : Prop :=
  (∀ f s k g l, Issues (.trap f) s k g → s.launch? k.launch = some l → l.trapv < l.codeLen → g.handler = false →
    ∃ t g', Runs (.trap f) s k t g' ∧ g'.tcause = 0x11 ∧ g'.tval = f.imm.setWidth 64 ∧
      g'.tmask = maskOf (g.issue (.trap f)).issuing ∧ g'.handler = true ∧ g'.draining = true ∧
      ∀ n y, g.lane? n = some y → y.status = .live →
        ((y.park = none ∨ ∃ m, y.park = some (.yield m)) → ∃ y', g'.lane? n = some y' ∧
          y'.pc = BitVec.ofNat 32 l.trapv ∧ y'.tpc = y.pc ∧ y'.trapped = true ∧ y'.park = none ∧ y'.v = y.v) ∧
        (y.park ≠ none → (∀ m, y.park ≠ some (.yield m)) → g'.lane? n = some { y with outside := true })) ∧
  (∀ f s k g l, Issues (.trap f) s k g → s.launch? k.launch = some l → l.codeLen ≤ l.trapv ∨ g.handler = true →
    ∃ t, exec (.trap f) s = .next t ∧ t.launch? k.launch = none ∧ ∀ h ∈ t.groups, h.key.launch ≠ k.launch)

/-- 01 R32, 03 R91: `rtt` ends the handler state: every fibre that entered goes on where it was; under `rtt.skip` those of
TMASK go on after the trapping word, of 8 bytes with a prefix and of 4 without. Outside the handler state it traps ILLEGAL. -/
def Obligations.RttReturnsFromTheHandler : Prop :=
  (∀ f s k g, Issues (.rtt f) s k g → g.handler = true →
    ∃ t g', Runs (.rtt f) s k t g' ∧ Counted (.rtt f) g g' ∧ g'.handler = false ∧
      ∀ n y, g.lane? n = some y → y.trapped = true → y.status = .live →
        ∃ y', g'.lane? n = some y' ∧ y'.pc = y.tpc ∧ y'.trapped = false ∧ y'.park = none ∧ y'.v = y.v) ∧
  (∀ f s k g, Issues (.rttSkip f) s k g → g.handler = true →
    ∃ t g', Runs (.rttSkip f) s k t g' ∧ Counted (.rttSkip f) g g' ∧ g'.handler = false ∧
      ∀ n y, g.lane? n = some y → y.trapped = true → y.status = .live →
        ∃ y', g'.lane? n = some y' ∧ y'.trapped = false ∧ y'.park = none ∧
          y'.pc = if g.tmask.getLsbD n then
            y.tpc + (if majorOf (s.codeWord k g.core y.tpc) = 0x7F then 8 else 4) else y.tpc) ∧
  (∀ i s k g l f, i = .rtt f ∨ i = .rttSkip f → Issues i s k g → g.handler = false → g.amber = .idle →
    s.launch? k.launch = some l → l.trapv < l.codeLen →
    ∃ t g', Runs i s k t g' ∧ g'.handler = true ∧ g'.tcause = 0x01 ∧ g'.tval = i.baseWord.setWidth 64)

/-- 03 R93, 19 R381: `svc` sends its number and arguments to the command processor, and its fibres wait for the answer. -/
def Sys2Proof.Claims.SvcAsksTheCommandProcessor : Prop :=
  ∀ f s k g, Issues (.svc f) s k g → Forward s g →
    ∃ t g', Runs (.svc f) s k t g' ∧ Retired (g.issue (.svc f)) g g' ∧ Parks (g.issue (.svc f)) g' ∧
      Queues s t k g (.unit (.svc f)
        ((List.range (if f.imm = 1 then 4 else if f.imm = 2 then 1 else 0)).map fun j =>
          (g.reg? none (f.d.toNat + j)).getD ⟨0, false⟩) [])

/-- 01 R31, R32, 03 R88, R90, R92, R93: `trap` takes its exception, and `svc` asks the command processor. -/
def Obligations.TrapAndServiceCalls : Prop := TrapEntersTheHandler ∧ SvcAsksTheCommandProcessor

/-! ### Floating-point words -/

namespace Sys2Proof.Claims

/-- The rounding mode, DN and SAT that a word finds (04 R100, R102, R103): a prefix's RM, else FPCR. -/
def envOf (g : Group) (p : Pfx) : FloatEnv :=
  let rm := p.elim 0 (·.rm)
  { mode := Rounding.ofCode (if rm = 0 then (bitsOf g.fpcr 0 3).toNat else rm.toNat), dn := bitOf g.fpcr 4, sat := satOf p }

/-- When the word issues it completes: D holds the encoding that `val` computes from the environment and the registers, and
every active fibre gains the flags (04 R104). -/
def GivesFloat (i : Instr) (d : BitVec 7) (val : FloatEnv → (Nat → Word) → FloatRes) : Prop :=
  ∀ s k g, Issues i s k g → ∃ t g', Runs i s k t g' ∧ Retired (g.issue i) g g' ∧
    (Holds32 (g.issue i) g' d fun u => BitVec.ofNat 32 (val (envOf g i.pfx) (g.word u)).bits) ∧
    ∀ l ∈ (g.issue i).active, ∀ y, g.lane? l = some y → (g'.lane? l).map (·.flags) =
      some (y.flags ||| (val (envOf g i.pfx) (g.word (unitOf (g.issue i) l))).flags)

/-- An FP32 source, negated by its prefix bit. -/
def floatOf (neg : Bool) (w : Word) : FloatVal := (unpack fp32 w.toNat).negateIf neg

/-- An FP32 encoding with its sign flipped by its prefix bit. -/
def flipped (neg : Bool) (w : Word) : Nat := (if neg then w ^^^ 0x80000000 else w).toNat

/-- A half of a packed source (04 R113). -/
def halfOf (x hi neg : Bool) (w : Word) : FloatVal :=
  (unpack (halfFmt x) (bitsOf w (if hi then 16 else 0) 16).toNat).negateIf neg

/-- The two halves of a packed result: their flags together (04 R113). -/
def bothHalves (h : Bool → FloatRes) : FloatRes :=
  ⟨(h false).bits + 2 ^ 16 * (h true).bits, (h false).flags ||| (h true).flags⟩

def nega (p : Pfx) : Bool := p.any (·.na)
def negb (p : Pfx) : Bool := p.any (·.nb)
def negc (p : Pfx) : Bool := p.any (·.nc)

/-- The field of the fourth operand: the prefix's C, or D (02 R44). -/
def fourth (p : Pfx) (d : BitVec 7) : Nat := (p.elim d (·.c)).toNat

end Sys2Proof.Claims

/-- 04 R100: rounding to a unit gives the neighbour that the mode asks for: towards zero the one below; upwards or downwards
the one on that side; to the nearest the nearest, a tie going to the even one, or away from zero. -/
def Obligations.RoundingPicksTheNeighbour : Prop :=
  ∀ (neg : Bool) (m : Nat) (e q : Int),
    (q ≤ e → ∀ mode, roundUnits mode neg m e q = (m * 2 ^ (e - q).toNat, false)) ∧
    (e < q →
      let u := 2 ^ (q - e).toNat
      let r (mode : Rounding) : Nat := (roundUnits mode neg m e q).1
      (∀ mode, (roundUnits mode neg m e q).2 = true ↔ ¬ u ∣ m) ∧
      (r .rtz * u ≤ m ∧ m < (r .rtz + 1) * u) ∧
      (if neg then r .rup = r .rtz else m ≤ r .rup * u ∧ r .rup * u < m + u) ∧
      (if neg then m ≤ r .rdn * u ∧ r .rdn * u < m + u else r .rdn = r .rtz) ∧
      (2 * m ≤ (2 * r .rne + 1) * u ∧ 2 * r .rne * u ≤ 2 * m + u ∧
        (2 * m = (2 * r .rne + 1) * u ∨ 2 * r .rne * u = 2 * m + u → r .rne % 2 = 0)) ∧
      (2 * m < (2 * r .rna + 1) * u ∧ 2 * r .rna * u ≤ 2 * m + u))

/-- 04 R102, R108, R109, R113, R114: sums, products and multiply-adds: exact from their sources, rounded once. -/
def Obligations.FloatSumAndProductResults : Prop :=
  (∀ p f, GivesFloat (.fadd p f) f.d fun e r =>
    floatAdd fp32 e (floatOf (nega p) (r f.a.toNat)) (floatOf (negb p) (r f.b.toNat))) ∧
  (∀ p f, GivesFloat (.fsub p f) f.d fun e r =>
    floatSub e (floatOf (nega p) (r f.a.toNat)) (floatOf (negb p) (r f.b.toNat))) ∧
  (∀ p f, GivesFloat (.fmul p f) f.d fun e r =>
    floatMul fp32 e (floatOf (nega p) (r f.a.toNat)) (floatOf (negb p) (r f.b.toNat))) ∧
  (∀ p f, GivesFloat (.ffma p f) f.d fun e r =>
    floatFma fp32 e (floatOf (nega p) (r f.a.toNat)) (floatOf (negb p) (r f.b.toNat))
      (floatOf (negc p) (r (fourth p f.d)))) ∧
  (∀ p f, GivesFloat (.hadd2 p f) f.d fun e r => bothHalves fun hi =>
    floatAdd (halfFmt f.x) e (halfOf f.x hi (nega p) (r f.a.toNat)) (halfOf f.x hi (negb p) (r f.b.toNat))) ∧
  (∀ p f, GivesFloat (.hmul2 p f) f.d fun e r => bothHalves fun hi =>
    floatMul (halfFmt f.x) e (halfOf f.x hi (nega p) (r f.a.toNat)) (halfOf f.x hi (negb p) (r f.b.toNat))) ∧
  (∀ p f, GivesFloat (.hfma2 p f) f.d fun e r => bothHalves fun hi =>
    floatFma (halfFmt f.x) e (halfOf f.x hi (nega p) (r f.a.toNat)) (halfOf f.x hi (negb p) (r f.b.toNat))
      (halfOf f.x hi (negc p) (r (fourth p f.d)))) ∧
  (∀ p f, GivesFloat (.dot2 p f) f.d fun e r =>
    let a (hi : Bool) := halfOf f.x hi (nega p) (r f.a.toNat)
    let b (hi : Bool) := halfOf f.x hi (negb p) (r f.b.toNat)
    floatDot2 e (a false) (b false) (a true) (b true) (floatOf (negc p) (r (fourth p f.d))))

/-- 04 R110, R111, R115, R118: the words that choose among their sources or change a sign, and the class of a value. -/
def Sys2Proof.Claims.FloatSelectAndSignResults : Prop :=
  (∀ p f, GivesFloat (.fmin p f) f.d fun e r =>
    floatMinMax e.dn false (flipped (nega p) (r f.a.toNat)) (flipped (negb p) (r f.b.toNat))) ∧
  (∀ p f, GivesFloat (.fmax p f) f.d fun e r =>
    floatMinMax e.dn true (flipped (nega p) (r f.a.toNat)) (flipped (negb p) (r f.b.toNat))) ∧
  (∀ p f, GivesFloat (.fminNan p f) f.d fun e r =>
    floatMinMaxNaN e.dn false (flipped (nega p) (r f.a.toNat)) (flipped (negc p) (r (fourth p f.d)))) ∧
  (∀ p f, GivesFloat (.fmaxNan p f) f.d fun e r =>
    floatMinMaxNaN e.dn true (flipped (nega p) (r f.a.toNat)) (flipped (negc p) (r (fourth p f.d)))) ∧
  (∀ p f, GivesFloat (.fminmag p f) f.d fun e r =>
    floatMinMaxMag e.dn false (flipped (nega p) (r f.a.toNat)) (flipped (negc p) (r (fourth p f.d)))) ∧
  (∀ p f, GivesFloat (.fmaxmag p f) f.d fun e r =>
    floatMinMaxMag e.dn true (flipped (nega p) (r f.a.toNat)) (flipped (negc p) (r (fourth p f.d)))) ∧
  (∀ p f, GivesFloat (.fabs p f) f.d fun _ r =>
    let n := (r f.a.toNat &&& 0x7FFFFFFF).toNat
    ⟨n, if 0x7F800000 ≤ n then fNF else 0⟩) ∧
  (∀ p f, GivesFloat (.fneg p f) f.d fun _ r =>
    ⟨(r f.a.toNat ^^^ 0x80000000).toNat, if 0x7F800000 ≤ (r f.a.toNat &&& 0x7FFFFFFF).toNat then fNF else 0⟩) ∧
  (∀ p f, GivesFloat (.fsat p f) f.d fun _ r => floatSat01 (r f.a.toNat).toNat) ∧
  (∀ p f, GroupGives32 (.fclass p f) f.d fun r =>
    let fm := cvtFmt f.m.toNat
    BitVec.ofNat 32 (floatClass fm ((r f.a.toNat).toNat % 2 ^ fm.width)))

/-- 04 R115 to R117: roots, reciprocals and rounding to an integer; and the approximate functions, whose value is free within
its bound (log entry 5). -/
def Sys2Proof.Claims.FloatFunctionResults : Prop :=
  (∀ p f, GivesFloat (.fsqrt p f) f.d fun e r => floatSqrt e (unpack fp32 (r f.a.toNat).toNat)) ∧
  (∀ p f, GivesFloat (.frcp p f) f.d fun e r => floatRcp e (unpack fp32 (r f.a.toNat).toNat)) ∧
  (∀ p f, GivesFloat (.frint p f) f.d fun e r => floatRint e (r f.a.toNat).toNat) ∧
  (∀ p f, GivesFloat (.sfuRcp p f) f.d fun e r => sfu 0 e.dn (r f.a.toNat).toNat) ∧
  (∀ p f, GivesFloat (.sfuRsqrt p f) f.d fun e r => sfu 1 e.dn (r f.a.toNat).toNat) ∧
  (∀ p f, GivesFloat (.sfuExp2 p f) f.d fun e r => sfu 2 e.dn (r f.a.toNat).toNat) ∧
  (∀ p f, GivesFloat (.sfuLog2 p f) f.d fun e r => sfu 3 e.dn (r f.a.toNat).toNat) ∧
  (∀ p f, GivesFloat (.sfuSin p f) f.d fun e r => sfu 4 e.dn (r f.a.toNat).toNat) ∧
  (∀ p f, GivesFloat (.sfuCos p f) f.d fun e r => sfu 5 e.dn (r f.a.toNat).toNat) ∧
  (∀ p f, GivesFloat (.sfuTanh p f) f.d fun e r => sfu 6 e.dn (r f.a.toNat).toNat)

/-- 04 R110, R111, R115 to R118: the one-source floating words, minima and maxima, and (log entry 5) the approximate
functions. -/
def Obligations.FloatSelectSignAndFunctionResults : Prop := FloatSelectAndSignResults ∧ FloatFunctionResults

/-- 04 R119 to R122, R112, R123 to R125: conversions, the floating compare, and the random draw, which counts in each active
lane. -/
def Obligations.ConvertCompareAndDraw : Prop :=
  (∀ p f s k g, Issues (.fcvt p f) s k g →
    let x := g.issue (.fcvt p f)
    let dc := (bitsOf f.m 4 3).toNat
    let sc := (bitsOf f.m 1 3).toNat
    let res (u : Option Nat) : FloatRes := convert (envOf g p) dc sc f.x
      (if f.x && (sc == 5 || sc == 6) then (pairAt (g.word u) f.a.toNat).toNat else (g.word u f.a.toNat).toNat)
    ∃ t g', Runs (.fcvt p f) s k t g' ∧ Retired x g g' ∧
      (if f.x && (dc == 5 || dc == 6) then Holds64 x g' f.d fun u => BitVec.ofNat 64 (res u).bits
       else Holds32 x g' f.d fun u => BitVec.ofNat 32 (res u).bits) ∧
      ∀ l ∈ x.active, ∀ y, g.lane? l = some y → (g'.lane? l).map (·.flags) = some (y.flags ||| (res (unitOf x l)).flags)) ∧
  (∀ p f s k g, Issues (.fcmp p f) s k g →
    let x := g.issue (.fcmp p f)
    let res (l : Nat) : Bool × Flags := floatCmp f.cond.toNat (floatOf (nega p) (g.word (unitOf x l) f.a.toNat))
      (floatOf (negb p) (g.word (unitOf x l) f.b.toNat))
    ∃ t g', Runs (.fcmp p f) s k t g' ∧ Retired x g g' ∧
      (∀ l ∈ x.receiving, ∀ y, g.lane? l = some y → ∃ y', g'.lane? l = some y' ∧ y'.preds = y.preds ∧
        (f.pd.toNat < 15 → y'.predMask.getLsbD f.pd.toNat = true ∧
          y'.predNew.getLsbD f.pd.toNat = combined f.pc.toNat f.pd.toNat y.preds (res l).1)) ∧
      ∀ l ∈ x.active, ∀ y, g.lane? l = some y → (g'.lane? l).map (·.flags) = some (y.flags ||| (res l).2)) ∧
  (∀ p f s k g l, Issues (.rand p f) s k g → s.launch? k.launch = some l →
    let x := g.issue (.rand p f)
    ∃ t g', Runs (.rand p f) s k t g' ∧ Retired x g g' ∧
      ∀ n ∈ x.receiving, ∀ y, g.lane? n = some y →
        let b := philox l.seed.toNat y.calls.toNat (k.block * l.bfibres + k.idx * g.w + n)
        (g'.lane? n).map (·.calls) = some (if n ∈ x.active then y.calls + 1 else y.calls) ∧
        if f.m = 3 then (g'.reg? (some n) f.d.toNat).map (·.val) =
          some (BitVec.ofNat 32 (roundTo fp32 .rne false false (bitsOf b 8 24).toNat (-24)).bits)
        else ∀ j < (if f.m = 1 then 2 else if f.m = 2 then 4 else 1),
          (g'.reg? (some n) (f.d.toNat + j)).map (·.val) = some (bitsOf b (32 * j) 32))

/-! ### Quad and group words -/

namespace Sys2Proof.Claims

/-- The value that lane `j` supplies of a 32-bit source (05 R128): 0 from a free lane, and where the register is dead. The model's
choice (log entry 131): the register is the one that the field names by the window base of lane `j`, though that lane may not
issue. -/
def supplied (g : Group) (f : BitVec 7) (j : Nat) : Word :=
  match g.lane? j with
  | some y => if y.status = .free then 0 else g.word (some j) f.toNat
  | none => 0

/-- What lane `j` supplies is poisoned (05 R129). -/
def badSupply (g : Group) (f : BitVec 7) (j : Nat) : Bool :=
  (g.lane? j).any fun y => y.status != .free && (g.reg? (some j) f.toNat).any (·.poison)

/-- A contributing lane's source of one or two registers is poisoned. -/
def badSource (g : Group) (two : Bool) (f : BitVec 7) (l : Nat) : Bool :=
  (List.range (if two then 2 else 1)).any fun j => (g.reg? (some l) (f.toNat + j)).any (·.poison)

/-- No earlier word of the run wrote source `f` of any lane, so that every lane supplies what its file holds (05 R129). -/
def SourceFresh (g : Group) (f : BitVec 7) : Prop := ∀ j, g.runWrites (some j) f.toNat = []

/-- D holds a 32-bit result in every lane that receives, or once (05 R127). -/
def CrossHolds32 (x : Issue) (g' : Group) (d : BitVec 7) (val : Nat → Word) : Prop :=
  if isUni d then (g'.reg? none d.toNat).map (·.val) = some (val 0)
  else ∀ l ∈ x.receiving, (g'.reg? (some l) d.toNat).map (·.val) = some (val l)

/-- D holds a 64-bit result. -/
def CrossHolds64 (x : Issue) (g' : Group) (d : BitVec 7) (val : Nat → DWord) : Prop :=
  if isUni d then (g'.reg? none d.toNat).map (·.val) = some (bitsOf (val 0) 0 32) ∧
    (g'.reg? none (d.toNat + 1)).map (·.val) = some (bitsOf (val 0) 32 32)
  else ∀ l ∈ x.receiving, (g'.reg? (some l) d.toNat).map (·.val) = some (bitsOf (val l) 0 32) ∧
    (g'.reg? (some l) (d.toNat + 1)).map (·.val) = some (bitsOf (val l) 32 32)

/-- The `n` registers of D are poisoned just where `bad` says so (05 R129). -/
def CrossBad (x : Issue) (g' : Group) (d : BitVec 7) (n : Nat) (bad : Nat → Bool) : Prop :=
  ∀ j < n, if isUni d then (g'.reg? none (d.toNat + j)).map (·.poison) = some (bad 0)
    else ∀ l ∈ x.receiving, (g'.reg? (some l) (d.toNat + j)).map (·.poison) = some (bad l)

/-- Each receiving lane takes A from the lane that `source` names (05 R132 to R134, R141). -/
def Moves (i : Instr) (d a : BitVec 7) (source : Group → Issue → Nat → Nat) : Prop :=
  ∀ s k g, Issues i s k g → SourceFresh g a → ∃ t g', Runs i s k t g' ∧ Retired (g.issue i) g g' ∧
    (CrossHolds32 (g.issue i) g' d fun l => supplied g a (source g (g.issue i) l)) ∧
    CrossBad (g.issue i) g' d 1 fun l => badSupply g a (source g (g.issue i) l)

/-- A vote reads a poisoned predicate (05 R129). -/
def badVote (g : Group) (x : Issue) (f : FmtRM) : Bool :=
  x.active.any fun l => (g.lane? l).any fun y => y.predPoison.getLsbD f.a.toNat

/-- A vote over the contributing lanes: those of `v` vote, of `c` contribute (05 R136). -/
def Votes (i : Instr) (f : FmtRM) (val : List Nat → List Nat → Word) : Prop :=
  ∀ s k g, Issues i s k g → ∃ t g', Runs i s k t g' ∧ Retired (g.issue i) g g' ∧
    (CrossHolds32 (g.issue i) g' f.d fun _ =>
      let c := (g.issue i).active
      val (c.filter fun l => (g.lane? l).any fun y => holds y.preds f.a.toNat != f.x) c) ∧
    CrossBad (g.issue i) g' f.d 1 fun _ => badVote g (g.issue i) f

/-- The value of a source of one or two registers, as 64 bits. -/
def wide (r : Nat → Word) (two : Bool) (f : BitVec 7) : DWord :=
  if two then pairAt r f.toNat else (r f.toNat).setWidth 64

/-- A value with the flags that computing it raised. -/
abbrev Folded := DWord × Flags

/-- The operation of a reduction; flags gather (05 R138, R139); the identity of `add.f32` is added like any value (the model's
choice, log entry 147). -/
def fold2 (m : Nat) (e : FloatEnv) (a b : Folded) : Folded :=
  let r := foldOp m e a.1 b.1
  (r.1, a.2 ||| b.2 ||| r.2)

/-- The balanced tree over 2^n leaves (05 R139): the fold of the lower half with that of the upper half. -/
def treeFold (m : Nat) (e : FloatEnv) : Nat → List Folded → Folded
  | 0, l => l.head?.getD (0, 0)
  | n + 1, l => fold2 m e (treeFold m e n (l.take (2 ^ n))) (treeFold m e n (l.drop (2 ^ n)))

/-- The fold of the first `n` leaves from whole blocks of the tree, the greatest first (05 R140): `k` more block sizes, `i`
leaves done. -/
def scanBlocks (m : Nat) (e : FloatEnv) (l : List Folded) (n : Nat) : Nat → Nat → Option Folded → Option Folded
  | 0, _, acc => acc
  | k + 1, i, acc =>
    if n.testBit k then
      let b := treeFold m e k ((l.drop i).take (2 ^ k))
      scanBlocks m e l n k (i + 2 ^ k) (some (acc.elim b fun a => fold2 m e a b))
    else scanBlocks m e l n k i acc

/-- The leaves: the values of the contributing lanes, the identity in every other lane (05 R138). -/
def leavesOf (g : Group) (x : Issue) (f : FmtRM) : List Folded :=
  (List.range g.w).map fun l =>
    if l ∈ x.active then (wide (g.word (some l)) (f.m == 11) f.a, 0) else (foldIdentity f.m.toNat, 0)

end Sys2Proof.Claims

/-- 05 R128, R132 to R134, R141: shuffles, quad exchanges and broadcasts: which lane each receiving lane takes its value
from. -/
def Sys2Proof.Claims.LaneMoves : Prop :=
  (∀ p f s k g, Issues (.shflIdx p f) s k g → SourceFresh g f.a →
    ∃ t g', Runs (.shflIdx p f) s k t g' ∧ Retired (g.issue (.shflIdx p f)) g g' ∧
      ∀ l ∈ (g.issue (.shflIdx p f)).receiving,
        let j := (g.word (some l) f.b.toNat).toNat
        let from' := if f.x then (if j < g.w then j else l) else j % g.w
        g'.reg? (some l) f.d.toNat = some ⟨supplied g f.a from', badSupply g f.a from'⟩) ∧
  (∀ p f, Moves (.shflRel p f) f.d f.a fun g _ l =>
    let k := (bitsOf f.imm 0 7).toInt
    if bitsOf f.imm 7 2 = 0 then (min (max ((l : Int) + k) 0) (g.w - 1)).toNat
    else if bitsOf f.imm 7 2 = 1 then (((l : Int) + k) % g.w).toNat
    else if bitsOf f.imm 7 2 = 2 then (l ^^^ (bitsOf f.imm 0 6).toNat) % g.w
    else if 2 ^ (bitsOf f.imm 0 3).toNat ≤ g.w then l ^^^ (2 ^ (bitsOf f.imm 0 3).toNat - 1) else g.w - 1 - l) ∧
  (∀ p f, Moves (.qswpH p f) f.d f.a fun _ _ l => l ^^^ 1) ∧
  (∀ p f, Moves (.qswpV p f) f.d f.a fun _ _ l => l ^^^ 2) ∧
  (∀ p f, Moves (.qswpD p f) f.d f.a fun _ _ l => l ^^^ 3) ∧
  (∀ p f, Moves (.qbc p f) f.d f.a fun _ _ l => l / 4 * 4 + f.m.toNat % 4) ∧
  (∀ p f, f.imm ≠ 0x1FF → Moves (.bcast p f) f.d f.a fun _ _ _ => f.imm.toNat) ∧
  (∀ p f s k g j, f.imm = 0x1FF → Issues (.bcast p f) s k g → SourceFresh g f.a → (g.issue (.bcast p f)).active.head? = some j →
    ∃ t g', Runs (.bcast p f) s k t g' ∧ Retired (g.issue (.bcast p f)) g g' ∧
      (CrossHolds32 (g.issue (.bcast p f)) g' f.d fun _ => supplied g f.a j) ∧
      CrossBad (g.issue (.bcast p f)) g' f.d 1 fun _ => badSupply g f.a j)

/-- 05 R135: the quad derivatives: the difference of the values of the right and the left lane, or of the lower and the
upper. -/
def Sys2Proof.Claims.QuadDerivatives : Prop :=
  (∀ p f s k g, Issues (.qddx p f) s k g → SourceFresh g f.a →
    ∃ t g', Runs (.qddx p f) s k t g' ∧ Retired (g.issue (.qddx p f)) g g' ∧
      ∀ l ∈ (g.issue (.qddx p f)).receiving, g'.reg? (some l) f.d.toNat =
        some ⟨BitVec.ofNat 32 (floatSub { envOf g p with sat := false } (floatOf false (supplied g f.a (l ||| 1)))
          (floatOf false (supplied g f.a (l - l % 2)))).bits, badSupply g f.a (l ||| 1) || badSupply g f.a (l - l % 2)⟩) ∧
  (∀ p f s k g, Issues (.qddy p f) s k g → SourceFresh g f.a →
    ∃ t g', Runs (.qddy p f) s k t g' ∧ Retired (g.issue (.qddy p f)) g g' ∧
      ∀ l ∈ (g.issue (.qddy p f)).receiving, g'.reg? (some l) f.d.toNat =
        some ⟨BitVec.ofNat 32 (floatSub { envOf g p with sat := false } (floatOf false (supplied g f.a (l ||| 2)))
          (floatOf false (supplied g f.a (l - l / 2 % 2 * 2)))).bits,
          badSupply g f.a (l ||| 2) || badSupply g f.a (l - l / 2 % 2 * 2)⟩)

/-- 05 R128, R132 to R135, R141: the words that move values between lanes, and the quad derivatives. The
model's choice: a supplying lane's register is the one the field names by that lane's own window base, though it may not issue
(log entry 131). -/
def Obligations.LaneMovesAndDerivatives : Prop := LaneMoves ∧ QuadDerivatives

/-- 05 R136, R137: the votes over the contributing lanes, and the matches of their values. -/
def Obligations.VotesAndMatches : Prop :=
  (∀ p f, Votes (.voteSome p f) f fun v _ => if v = [] then 0 else 1) ∧
  (∀ p f, Votes (.voteEvery p f) f fun v c => if c ≠ [] ∧ v.length = c.length then 1 else 0) ∧
  (∀ p f, Votes (.voteAgree p f) f fun v c => if c ≠ [] ∧ (v = [] ∨ v.length = c.length) then 1 else 0) ∧
  (∀ p f, Votes (.voteCount p f) f fun v _ => BitVec.ofNat 32 v.length) ∧
  (∀ p f, Votes (.voteFirst p f) f fun v _ => v.head?.elim 0xFFFFFFFF (BitVec.ofNat 32)) ∧
  (∀ p f, Votes (.voteLast p f) f fun v _ => v.getLast?.elim 0xFFFFFFFF (BitVec.ofNat 32)) ∧
  (∀ p f s k g, Issues (.voteMask p f) s k g → ∃ t g', Runs (.voteMask p f) s k t g' ∧
    Retired (g.issue (.voteMask p f)) g g' ∧
    (CrossHolds64 (g.issue (.voteMask p f)) g' f.d fun _ => maskOf ((g.issue (.voteMask p f)).active.filter fun l =>
      (g.lane? l).any fun y => holds y.preds f.a.toNat != f.x)) ∧
    CrossBad (g.issue (.voteMask p f)) g' f.d 2 fun _ => badVote g (g.issue (.voteMask p f)) f) ∧
  (∀ p f s k g, Issues (.matchF p f) s k g →
    let x := g.issue (.matchF p f)
    let val (l : Nat) : DWord := wide (g.word (some l)) (f.m.getLsbD 0) f.a
    let same (l : Nat) : List Nat := x.active.filter fun j => val j == val l
    ∃ t g', Runs (.matchF p f) s k t g' ∧ Retired x g g' ∧
      (if f.m.toNat ≤ 1 then CrossHolds64 x g' f.d fun l => maskOf (same l)
      else CrossHolds32 x g' f.d fun l => BitVec.ofNat 32 (
        if f.m.toNat ≤ 3 then (if (same l).head? = some l then (same l).length else 0)
        else ((same l).filter (· < l)).length)) ∧
      CrossBad x g' f.d (if f.m.toNat ≤ 1 then 2 else 1) fun l =>
        badSource g (f.m.getLsbD 0) f.a l || x.active.any (badSource g (f.m.getLsbD 0) f.a))

/-- 05 R138 to R140: `redg` folds the contributing lanes in the fixed tree, and every active fibre gains its flags; `scang`
folds the lanes up to each lane, or below it under X, from blocks of the same tree. -/
def Obligations.ReductionsAndScans : Prop :=
  (∀ p f s k g n, Issues (.redg p f) s k g → g.w = 2 ^ n →
    let x := g.issue (.redg p f)
    let r := treeFold f.m.toNat { envOf g p with sat := false } n (leavesOf g x f)
    ∃ t g', Runs (.redg p f) s k t g' ∧ Retired x g g' ∧
      (if f.m = 11 then CrossHolds64 x g' f.d fun _ => r.1 else CrossHolds32 x g' f.d fun _ => bitsOf r.1 0 32) ∧
      (∀ l ∈ x.active, ∀ y, g.lane? l = some y → (g'.lane? l).map (·.flags) = some (y.flags ||| r.2 ||| foldNF f.m.toNat r.1)) ∧
      CrossBad x g' f.d (if f.m = 11 then 2 else 1) fun _ =>
        x.active.any fun j => decide (j < g.w) && badSource g (f.m == 11) f.a j) ∧
  (∀ p f s k g n, Issues (.scang p f) s k g → g.w = 2 ^ n →
    let x := g.issue (.scang p f)
    let r (l : Nat) : Folded := (scanBlocks f.m.toNat { envOf g p with sat := false } (leavesOf g x f)
      (if f.x then l else l + 1) (n + 1) 0 none).getD (foldIdentity f.m.toNat, 0)
    ∃ t g', Runs (.scang p f) s k t g' ∧ Retired x g g' ∧
      (if f.m = 11 then CrossHolds64 x g' f.d fun l => (r l).1 else CrossHolds32 x g' f.d fun l => bitsOf (r l).1 0 32) ∧
      ∀ l ∈ x.receiving, l < g.w → ∀ j < (if f.m = 11 then 2 else 1), (g'.reg? (some l) (f.d.toNat + j)).map (·.poison) =
        some (x.active.any fun m => decide (m < if f.x then l else l + 1) && badSource g (f.m == 11) f.a m))

/-! ### Memory words -/

namespace Sys2Proof.Claims

/-- The capability that a field names in a unit. -/
def capAt (g : Group) (u : Option Nat) (f : BitVec 7) : Cap := Cap.ofVal ⟨g.quad u f.toNat, g.quadTag u f.toNat, false⟩

/-- A capability allows an access of `n` bytes at `e` (03 R85). -/
def Allows (c : Cap) (e n : Nat) (rights : BitVec 8) : Prop :=
  c.tag = true ∧ c.base ≤ e ∧ e + n ≤ c.base + c.length ∧ c.rights &&& rights = rights

/-- The address of a global access (06 R152). -/
def addressOf (c : Cap) (off : Int) : Nat := (((c.addr : Int) + off) % 2 ^ 48).toNat

/-- No register that the word reads is poisoned (03 R59). -/
def CleanSources (i : Instr) (g : Group) : Prop :=
  ∀ u ∈ (g.issue i).units, ∀ f ∈ readFields (g.issue i).desc, ∀ r, g.reg? u f = some r → r.poison = false

/-- The port of a die holds the translation of the page of `va`, which allows the access (15 R319, R320): `key` is where the
byte lies. -/
def Mapped (s : State) (port ctx va : Nat) (a : Access) (key : Nat) : Prop :=
  ∃ t, ((s.die port).tb.find? fun t => t.ctx == ctx && decide (t.page ≤ va) && decide (va < t.page + levelSize t.level) &&
      (!(a.write || a.rmw) || leafD t.leaf)) = some t ∧
    leafCheck t.leaf (levelSize t.level) ((lookupKey ctx (s.die port).pkr).getD 0) s.accepted a = none ∧
    key = memKey (leafTier t.leaf) (leafPa t.leaf + va % levelSize t.level)

/-- `n` bytes lie within one page of 64 KiB. -/
def OnePage (va n : Nat) : Prop := va / 65536 = (va + n - 1) / 65536

/-- Nothing keeps a load of `n` bytes at `e` in each unit from reading TIER 0 or 1 at `key` now: no helper takes part, its
pages are translated, nothing the group must wait for stands before it (06 R173, 12 R278), and its lines may be filled. -/
structure LoadReady (i : Instr) (s : State) (g : Group) (n : Nat) (e key : Option Nat → Nat) : Prop where
  helpers : (g.issue i).helpers = []
  idle : g.amber = .idle
  first : g.redo = [] ∧ g.fetched = [] ∧ g.remoteFail = []
  page : ∀ u ∈ (g.issue i).units, OnePage (e u) n
  mapped : ∀ u ∈ (g.issue i).units, Mapped s (dieOfCore g.core) g.ctx (e u) {} (key u)
  near : ∀ u ∈ (g.issue i).units, keyTier (key u) ≤ 1
  clear : ∀ u ∈ (g.issue i).units, s.pageLogged g.core g.ctx (e u) n = false ∧ s.ownRmwMeets g (e u) (key u) n = false
  lines : ∀ u ∈ (g.issue i).units, ∀ j < n, s.lineWaits g ((key u + j) / 128 * 128) = false

/-- The byte that a load finds at offset `j` of its access: of the group's own youngest write still in the core (06 R150),
else of the line in L1 (06 R149), else of memory. -/
def loadByte (s : State) (g : Group) (e key j : Nat) : Byte :=
  (forwardByte (s.ownWrites g .global) (e + j)).getD
    (((s.core g.core).l1Line g.ctx (e + j)).elim (s.mem.read (key + j)) fun ln => ln.data[(e + j) % 128]?.getD 0)

/-- The tag that a load of a capability finds at `e` (06 R155, R156). -/
def loadTag (s : State) (g : Group) (e key : Nat) : Bool :=
  (forwardTag (s.ownWrites g .global) e).getD
    (((s.core g.core).l1Line g.ctx e).elim (s.mem.tag key) fun ln => ln.tags.getLsbD (e / 16 % 8))

/-- What a load of a width makes of its bytes (06 R156): bytes and halves are extended by their sign or by zeros. -/
def loaded (w : Nat) (bs : List Byte) : BitVec 128 :=
  if w = 1 then ((BitVec.ofNat 8 (bytesNat bs)).signExtend 32).setWidth 128
  else if w = 3 then ((BitVec.ofNat 16 (bytesNat bs)).signExtend 32).setWidth 128
  else BitVec.ofNat 128 (bytesNat bs)

/-- A global load with these capabilities and addresses completes: D holds the bytes it finds, and, from TIER 0 through a
capability with RC, a width-7 load brings the tag; memory is as it was. -/
def Loads (i : Instr) (f : FmtM) (aligned : Bool) (addr : Group → Option Nat → Cap × Nat) : Prop :=
  ∀ s k g (key : Option Nat → Nat),
    let n := widthBytes f.w.toNat
    let x := g.issue i
    Issues i s k g → CleanSources i g →
    (∀ u ∈ x.units, Allows (addr g u).1 (addr g u).2 n rightR ∧ (aligned = true → (addr g u).2 % n = 0)) →
    LoadReady i s g n (fun u => (addr g u).2) key →
    ∃ t g', Runs i s k t g' ∧ Retired x g g' ∧ t.mem = s.mem ∧
      ∀ u ∈ x.units,
        (∀ j < widthRegs f.w.toNat, (g'.reg? u (f.d.toNat + j)).map (·.val) =
          some (bitsOf (loaded f.w.toNat ((List.range n).map (loadByte s g (addr g u).2 (key u)))) (32 * j) 32)) ∧
        (f.w = 7 → g'.quadTag u f.d.toNat = ((addr g u).1.rights &&& rightRC == rightRC && keyTier (key u) == 0 &&
          loadTag s g (addr g u).2 (key u)))

/-- The value of registers from `f` on that a store of a width writes, as a number. -/
def storeNat (r : Nat → Word) (w f : Nat) : Nat :=
  if w = 5 then (pairAt r f).toNat else if w = 6 ∨ w = 7 then (quadAt r f).toNat else (r f).toNat

/-- A global store with these capabilities and addresses completes: its request, with each unit's bytes, stands in the hold
queue, and `st` counts it; no memory changes before it leaves (06 R157, R170). -/
def Stores (i : Instr) (f : FmtM) (addr : Group → Option Nat → Cap × Nat) : Prop :=
  ∀ s k g,
    let n := widthBytes f.w.toNat
    let x := g.issue i
    Issues i s k g → CleanSources i g →
    (∀ u ∈ x.units, Allows (addr g u).1 (addr g u).2 n rightW ∧ (f.w = 7 → (addr g u).2 % n = 0)) →
    x.units ≠ [] → g.amber = .idle → Forward s g → s.writeWaits g = false →
    ∃ t g', Runs i s k t g' ∧ Retired x g g' ∧ t.mem = s.mem ∧ t.blocks = s.blocks ∧ t.bands = s.bands ∧
      g'.count .st = g.count .st + 1 ∧
      Queues s t k g (.store .global (mergeLanes (x.units.map fun u =>
        ⟨u.getD 0, (addr g u).2, (addr g u).2, natBytes n (storeNat (g.word u) f.w.toNat f.d.toNat),
         if f.w = 7 then some (g.quadTag u f.d.toNat && (addr g u).1.rights &&& rightWC == rightWC) else none, false, []⟩)))

/-- Address by capability and register, or by capability and immediate (06 R152). -/
def byRegister (f : FmtM) (g : Group) (u : Option Nat) : Cap × Nat :=
  (capAt g u f.c, addressOf (capAt g u f.c) (g.word u f.o.toNat).toInt)
def byImmediate (f : FmtM) (g : Group) (u : Option Nat) : Cap × Nat :=
  (capAt g u f.c, addressOf (capAt g u f.c) (f.o.toInt * widthBytes f.w.toNat))

/-- The address of a local access (06 R144): a and b added. -/
def localAt (f : FmtM) (g : Group) (u : Option Nat) : Nat := (g.word u f.c.toNat + g.word u f.o.toNat).toNat

/-- A local access of `n` bytes lies within the block's memory and is aligned; in the skew view it has at most 4 bytes
(06 R144, R148, R153). -/
def LocalAllowed (s : State) (k : GKey) (a n : Nat) : Prop :=
  localOk (s.localLimits k.launch k.block).1 (s.localLimits k.launch k.block).2 a n = true ∧ a % n = 0 ∧
    (a.testBit 31 = true → n ≤ 4)

/-- The byte `j` that a place gives a group: its own queued write to the partner core's half or to cluster memory first. -/
def placeByte (s : State) (g : Group) (b : Block) (p : Place) (j : Nat) : Byte :=
  match p with
  | .localMem off false => cellsRead b.mem.cells (off + j)
  | .localMem off true => (forwardByte (s.ownWrites g .partner) (off + j)).getD (cellsRead b.mem.cells (off + j))
  | .cluster off => (forwardByte (s.ownWrites g .cluster) (off + j)).getD
      (cellsRead ((s.bandOf g.key).elim LocalMem.empty (·.mem)).cells (off + j))

/-- No group waits for an instruction's completion, and none speculates. -/
def Still (s : State) : Prop := ∀ h ∈ s.groups, h.pend = [] ∧ h.amber = .idle

/-- The last of the lanes that cover an address gives its byte. -/
def lastByte (ls : List (Nat × List Byte)) (a : Nat) : Option Byte :=
  (ls.reverse.find? fun q => decide (q.1 ≤ a) && decide (a < q.1 + q.2.length)).bind fun q => q.2[a - q.1]?

end Sys2Proof.Claims

/-- 03 R85, 06 R149 to R160: the global loads complete with the bytes they find, and change no memory. -/
def Sys2Proof.Claims.GlobalLoadsRead : Prop :=
  (∀ p f, Loads (.ld p f) f (f.w == 7) (byRegister f)) ∧
  (∀ p f, Loads (.ldi p f) f (f.w == 7) (byImmediate f)) ∧
  (∀ p f, Loads (.ldln p f) f true fun g u =>
    ((byRegister f g none).1, (byRegister f g none).2 + u.getD 0 * widthBytes f.w.toNat))

/-- 10 R230, 12 R284: an engine program's `ldi` reads memory itself, past L1 and the hold queues. -/
def Obligations.EngineLoadsAndStores : Prop :=
  (∀ p f s id e key,
    let n := widthBytes f.w.toNat
    let c := Cap.ofVal ⟨quadAt e.word f.c.toNat, e.s.tag (f.c.toNat - 96), false⟩
    let a := addressOf c (f.o.toInt * n)
    EngineIssues (.ldi p f) s id e → (∀ j < 4, ∀ r, e.s.get? (f.c.toNat - 96 + j) = some r → r.poison = false) →
    Allows c a n rightR → (f.w = 7 → a % 16 = 0) → OnePage a n → e.redo = [] → Mapped s e.die e.ctx a {} key →
    keyTier key ≤ 1 → s.ownStoreMeets e a key n = false → s.stalls none key n = false →
    ∃ t e', exec (.ldi p f) s = .next t ∧ t.engine? id = some e' ∧ t.mem = s.mem ∧ e'.pc = e.pc + BitVec.ofNat 32 (Instr.ldi p f).size ∧
      ∀ j < widthRegs f.w.toNat, e'.word (f.d.toNat + j) =
        bitsOf (loaded f.w.toNat ((List.range n).map fun i => s.mem.read (key + i))) (32 * j) 32) ∧
  (∀ p f s id e,
    let n := widthBytes f.w.toNat
    let c := Cap.ofVal ⟨quadAt e.word f.c.toNat, e.s.tag (f.c.toNat - 96), false⟩
    let a := addressOf c (f.o.toInt * n)
    EngineIssues (.sti p f) s id e →
    (∀ j < 4, ∀ r, e.s.get? (f.c.toNat - 96 + j) = some r → r.poison = false) →
    (∀ j < widthRegs f.w.toNat, ∀ r, e.s.get? (f.d.toNat - 96 + j) = some r → r.poison = false) →
    Allows c a n rightW → (f.w = 7 → a % 16 = 0) → e.redo = [] →
    ∃ t e' r, exec (.sti p f) s = .next t ∧ t.engine? id = some e' ∧ t.mem = s.mem ∧ e'.pc = e.pc + BitVec.ofNat 32 (Instr.sti p f).size ∧
      e'.cmds = e.cmds ++ [r.id] ∧ (t.core e.core).hold = (s.core e.core).hold ++ [r] ∧ r.eng = some (id, e.count, e.pc) ∧
      r.body = .store .global [⟨0, a, a, natBytes n (storeNat e.word f.w.toNat f.d.toNat),
        if f.w = 7 then some (e.s.tag (f.d.toNat - 96) && c.rights &&& rightWC == rightWC) else none, false, []⟩])

/-- 06 R143 to R148, R156: a local load reads its block's local memory or its band's cluster memory. -/
def Sys2Proof.Claims.LocalLoadsRead : Prop :=
  ∀ p f s k g b,
    let n := widthBytes f.w.toNat
    let x := g.issue (.ldl p f)
    Issues (.ldl p f) s k g → CleanSources (.ldl p f) g → (∀ u ∈ x.units, LocalAllowed s k (localAt f g u) n) →
    x.helpers = [] → s.blockOf k = some b → g.amber = .idle → g.redo = [] → (∀ e ∈ (s.core g.core).stores, e.group ≠ k) →
    (∀ u ∈ x.units, s.localWaits b g.core k (placeOf b g.core (localAt f g u)) n = false) →
    ∃ t g', Runs (.ldl p f) s k t g' ∧ Retired x g g' ∧ t.mem = s.mem ∧ t.blocks = s.blocks ∧ t.bands = s.bands ∧
      ∀ u ∈ x.units, ∀ j < widthRegs f.w.toNat, (g'.reg? u (f.d.toNat + j)).map (·.val) =
        some (bitsOf (loaded f.w.toNat ((List.range n).map (placeByte s g b (placeOf b g.core (localAt f g u))))) (32 * j) 32)

/-- 03 R85, 06 R157, R158, R170: the global stores complete: their requests wait in the hold queue with their bytes, and a lane
does not write a byte that a higher lane writes. -/
def Sys2Proof.Claims.GlobalStoresQueue : Prop :=
  (∀ p f, Stores (.st p f) f (byRegister f)) ∧ (∀ p f, Stores (.sti p f) f (byImmediate f)) ∧
  (∀ (ls : List LaneStore) (j : Nat) l, ls[j]? = some l → ∃ h, (mergeLanes ls)[j]? = some { l with hidden := h } ∧
    ∀ i, i ∈ h ↔ i < l.bytes.length ∧ ∃ m q, j < m ∧ ls[m]? = some q ∧ q.addr ≤ l.addr + i ∧
      l.addr + i < q.addr + q.bytes.length)

/-- 03 R85, 06 R149 to R160, R170: global loads and stores. -/
def Obligations.GlobalLoadsAndStores : Prop := GlobalLoadsRead ∧ GlobalStoresQueue

/-- 06 R157, R158, R170, 11 R258: a local store to the core's own local memory writes its bytes at once, and no other byte of the
block's memory; `st` counts it all the same; one to the partner core's half or to cluster memory waits in the hold queue. -/
def Sys2Proof.Claims.LocalStoresWrite : Prop :=
  ∀ p f s k g b,
    let n := widthBytes f.w.toNat
    let x := g.issue (.stl p f)
    let place (u : Option Nat) := placeOf b g.core (localAt f g u)
    let data (u : Option Nat) := natBytes n (storeNat (g.word u) f.w.toNat f.d.toNat)
    Issues (.stl p f) s k g → CleanSources (.stl p f) g → (∀ u ∈ x.units, LocalAllowed s k (localAt f g u) n) →
    x.units ≠ [] → s.blockOf k = some b → Still s → s.localTested g.core = false → s.writeWaits g = false → Forward s g →
    ∃ t g' b', Runs (.stl p f) s k t g' ∧ Retired x g g' ∧ t.mem = s.mem ∧ t.bands = s.bands ∧ t.blockOf k = some b' ∧
      (∀ a, cellsRead b'.mem.cells a =
        (lastByte ((x.units.filter fun u => (place u).space.isNone).map fun u => ((place u).off, data u)) a).getD
          (cellsRead b.mem.cells a)) ∧
      ((∀ u ∈ x.units, (place u).space = none) → (t.core g.core).hold = (s.core g.core).hold) ∧
      ((∀ u ∈ x.units, (place u).space = none) → g'.count .st = g.count .st + 1) ∧
      (∀ sp, (∀ u ∈ x.units, (place u).space = some sp) → g'.count .st = g.count .st + 1 ∧
        Queues s t k g (.store sp
          ((mergeLanes (x.units.map fun u => ⟨u.getD 0, localAt f g u, localAt f g u, data u, none, false, []⟩)).map fun l =>
            { l with addr := (placeOf b g.core l.addr).off, va := if sp = .cluster then 1 else 0 })))

/-- 06 R143 to R148, R156, R157, 11 R258: local loads and stores. -/
def Obligations.LocalLoadsAndStores : Prop := LocalLoadsRead ∧ LocalStoresWrite

/-! ### Traps -/

namespace Sys2Proof.Claims

/-- Group `g`, under key `k`, has its turn at word `i`, in no Amber speculation. -/
structure Turn (i : Instr) (s : State) (k : GKey) (g : Group) : Prop where
  turn : s.turn = .group k
  here : s.group? k = some g
  ready : g.canIssue = true
  calm : g.amber = .idle

/-- The word has no effect but its trap, taken precisely: where the launch has a handler and the group is not in it, TCAUSE,
TVAL and TMASK are written, and every fibre that is not parked saves where it goes on in TPC and continues at the handler
(01 R31, R32, 03 R89, R90). -/
def Traps (i : Instr) (s : State) (k : GKey) (g : Group) (cause : BitVec 8) (tval : DWord) (mask : List Nat) : Prop :=
  ∀ l, s.launch? k.launch = some l → l.trapv < l.codeLen → g.handler = false →
    ∃ t g', Runs i s k t g' ∧ ({ t with groups := s.groups, free := s.free } : State) = s ∧ OthersKept k s t ∧
      g'.tcause = cause ∧ g'.tval = tval ∧ g'.tmask = maskOf mask ∧ g'.handler = true ∧ g'.draining = true ∧
      g'.runCount = g.runCount ∧ g'.s = g.s ∧ g'.ub = g.ub ∧ g'.fpcr = g.fpcr ∧ g'.msr = g.msr ∧ g'.cvs = g.cvs ∧
      ∀ n y, g.lane? n = some y → ∃ y', g'.lane? n = some y' ∧ y'.v = y.v ∧ y'.preds = y.preds ∧ y'.vb = y.vb ∧
        y'.fpsr = y.fpsr ∧ (y.status = .live → y.park = none →
          y'.pc = BitVec.ofNat 32 l.trapv ∧ y'.trapped = true ∧ y'.tpc = if n ∈ mask then (g.issue i).pc else y.pc)

/-- The lanes of units that raise a cause: the group raises it in every active fibre. -/
def lanesOf (x : Issue) (us : List (Option Nat)) : List Nat := if x.once then x.issuing else us.filterMap id

/-- The check of an access through a capability: the code of the first part that fails (03 R85). -/
def capFault (c : Cap) (e n : Nat) (rights : BitVec 8) : Option Nat :=
  if c.tag = false then some 4
  else if e < c.base ∨ c.base + c.length < e + n then some 5
  else if c.rights &&& rights ≠ rights then some 6 else none

/-- An access whose capability fails its check in a unit traps with the lowest code that a unit raises, and TVAL holds the
address of the lowest such unit (03 R85, 01 R31). -/
def ChecksCapability (i : Instr) (c : BitVec 7) (n : Nat) (rights : BitVec 8) (addr : Group → Option Nat → Nat) : Prop :=
  ∀ s k g code u us, Issues i s k g → g.amber = .idle →
    let fault (u : Option Nat) : Option Nat := capFault (capAt g u c) (addr g u) n rights
    (∀ v ∈ (g.issue i).units, ∀ d, fault v = some d → code ≤ d) →
    ((g.issue i).units.filter fun v => fault v == some code) = u :: us →
    Traps i s k g (BitVec.ofNat 8 code) (BitVec.ofNat 64 (addr g u)) (lanesOf (g.issue i) (u :: us))

/-- A local access: one outside its block's memory traps LOCALBOUNDS; a misaligned one, and one of more than 4 bytes in the
skew view, ALIGN, which has the lower code (06 R144, R148, R153). -/
def ChecksLocal (i : Instr) (f : FmtM) (n : Nat) : Prop :=
  ∀ s k g u us, Issues i s k g → g.amber = .idle →
    let inside (u : Option Nat) : Bool := localOk (s.localLimits k.launch k.block).1 (s.localLimits k.launch k.block).2 (localAt f g u) n
    let crooked (u : Option Nat) : Bool := localAt f g u % n != 0 || ((localAt f g u).testBit 31 && decide (4 < n))
    (((g.issue i).units.filter fun v => inside v && crooked v) = u :: us →
      Traps i s k g 0x07 (BitVec.ofNat 64 (localAt f g u)) (lanesOf (g.issue i) (u :: us))) ∧
    ((∀ v ∈ (g.issue i).units, inside v = true → crooked v = false) → CleanSources i g →
      ((g.issue i).units.filter fun v => !inside v) = u :: us →
      Traps i s k g 0x14 (BitVec.ofNat 64 (localAt f g u)) (lanesOf (g.issue i) (u :: us)))

end Sys2Proof.Claims

/-- 00 R5, R8, 01 R15, R16, R22, R25, R31, R32, 02 R37, R45, R57, 03 R85, R88 to R90, 06 R144, R153: when words trap, and what a
trap that is taken does. A bad word, a bad prefix and a word of a feature that is not accepted trap in every active fibre;
a read of a dead register and an access that fails its checks trap in the lanes that fail. The model's choice (log entry 73):
where no fibre is active the whole issuing set takes the trap, and the prefix's mask says which fibres are active also where the
prefix itself is illegal. -/
def Obligations.TrapsArePrecise : Prop :=
  (∀ i s k g, Turn i s k g → i.isWord = true → (majorOf i.baseWord).toNat < 0x7A →
    let d := describe g.w i
    let whole := if (g.issue i).active = [] then (g.issue i).issuing else (g.issue i).active
    (d.pfxOk i.pfx = false → ∀ p, i.pfx = some p → Traps i s k g 0x01 (p.toWord.setWidth 64) whole) ∧
    (d.pfxOk i.pfx = true → (i.wf && d.legal && d.aligned && d.mixOk) = false →
      Traps i s k g 0x01 (i.baseWord.setWidth 64) whole) ∧
    (∀ b, d.pfxOk i.pfx = true → (i.wf && d.legal && d.aligned && d.mixOk) = true →
      (∀ o ∈ d.ops, ∀ j < o.count, ∀ l ∈ g.issuingSet,
        g.regNum (some l) (o.field.toNat + j) < (if isUni o.field then (s.regLimits g.key).2 else (s.regLimits g.key).1)) →
      (∀ o ∈ d.ops, isUni o.field = true ∨ o.field.toNat + o.count ≤ 96) →
      d.feature = some b → s.accepted b = false → Traps i s k g 0x10 (BitVec.ofNat 64 b) whole)) ∧
  (∀ i s k g u us f, isResultWord i = true → Turn i s k g → wordChecks s g (g.issue i) = none → maskPoison g (g.issue i) = [] →
    (∀ v ∈ (g.issue i).units, ∀ f ∈ unitFields s g (g.issue i) v, g.runWrites v f = []) →
    ((g.issue i).units.filter fun v => (unitFields s g (g.issue i) v).any fun f => (g.reg? v f).isNone) = u :: us →
    ((unitFields s g (g.issue i) u).find? fun f => (g.reg? u f).isNone) = some f →
    Traps i s k g 0x02 (BitVec.ofNat 64 (g.regNum u f)) (lanesOf (g.issue i) (u :: us))) ∧
  (∀ p f, ChecksCapability (.ld p f) f.c (widthBytes f.w.toNat) rightR fun g u => (byRegister f g u).2) ∧
  (∀ p f, ChecksCapability (.ldi p f) f.c (widthBytes f.w.toNat) rightR fun g u => (byImmediate f g u).2) ∧
  (∀ p f, ChecksCapability (.st p f) f.c (widthBytes f.w.toNat) rightW fun g u => (byRegister f g u).2) ∧
  (∀ p f, ChecksCapability (.sti p f) f.c (widthBytes f.w.toNat) rightW fun g u => (byImmediate f g u).2) ∧
  (∀ p f, ChecksCapability (.atomI32 p f) f.c 4 (rightA ||| rightR ||| rightW) fun g u => (byRegister f g u).2) ∧
  (∀ p f, ChecksCapability (.atomI64 p f) f.c 8 (rightA ||| rightR ||| rightW) fun g u => (byRegister f g u).2) ∧
  (∀ p f, ChecksCapability (.atomF32 p f) f.c 4 (rightA ||| rightR ||| rightW) fun g u => (byRegister f g u).2) ∧
  (∀ p f, ChecksCapability (.redI32 p f) f.c 4 (rightA ||| rightR ||| rightW) fun g u => (byRegister f g u).2) ∧
  (∀ p f, ChecksCapability (.redI64 p f) f.c 8 (rightA ||| rightR ||| rightW) fun g u => (byRegister f g u).2) ∧
  (∀ p f, ChecksCapability (.redF32 p f) f.c 4 (rightA ||| rightR ||| rightW) fun g u => (byRegister f g u).2) ∧
  (∀ p f, ChecksLocal (.ldl p f) f (widthBytes f.w.toNat)) ∧ (∀ p f, ChecksLocal (.stl p f) f (widthBytes f.w.toNat)) ∧
  (∀ p f, ChecksLocal (.atoml p f) f 4)

namespace Sys2Proof.Claims

/-- A value is on its way to the register that a field names in a unit (01 R21, R22). -/
def Awaited (g : Group) (u : Option Nat) (f : Nat) : Prop := ∃ w, (g.runWrites u f).head? = some w ∧ w.pending.isSome = true

/-- The operands of one unit of a read-modify-write: its address, what it stores and what it compares with. -/
def rmwLane (g : Group) (u : Option Nat) (key va : Nat) (two : Bool) (d c : Nat) : LaneRmw :=
  ⟨u.getD 0, key, va, if two then pairAt (g.word u) d else (g.word u d).setWidth 64,
   if two then pairAt (g.word u) c else (g.word u c).setWidth 64⟩

/-- A global atomic completes its issue: its request, translated, stands in the hold queue, `st` and the return slots count
it, the lines it names leave L1, and D awaits the old value (06 R149, R161, R171, 11 R264). -/
def Atomics (i : Instr) (f : FmtM) (op : AtomOp) (c : Nat) : Prop :=
  ∀ s k g (key : Option Nat → Nat),
    let n := op.bytes
    let x := g.issue i
    let e (u : Option Nat) : Nat := (byRegister f g u).2
    Issues i s k g → CleanSources i g →
    (∀ u ∈ x.units, Allows (capAt g u f.c) (e u) n (rightA ||| rightR ||| rightW) ∧ e u % n = 0) →
    x.units ≠ [] → Forward s g → s.writeWaits g = false → s.slotsFull g.core = false →
    (∀ u ∈ x.units, Mapped s (dieOfCore g.core) g.ctx (e u) { rmw := true } (key u) ∧ keyTier (key u) ≤ 1 ∧
      s.pageLogged g.core g.ctx (e u) n = false) →
    ∃ t g', Runs i s k t g' ∧ Retired x g g' ∧ t.mem = s.mem ∧ g'.count .st = g.count .st + 1 ∧
      (t.core g.core).slotsUsed.length = (s.core g.core).slotsUsed.length + 1 ∧
      (∀ u ∈ x.units, Awaited g' u f.d.toNat ∧ (t.core g.core).l1Line g.ctx (e u) = none) ∧
      Queues s t k g (.rmw .global op
        (some ⟨isUni f.d, x.units.map fun u => (u.getD 0, g.regNum u f.d.toNat), if n = 8 then 2 else 1⟩)
        (x.units.map fun u => rmwLane g u (key u) (e u) (n == 8) f.d.toNat c))

/-- A reduction is queued like a store, and returns nothing (06 R161, R170, R172). -/
def Reductions (i : Instr) (f : FmtM) (op : AtomOp) : Prop :=
  ∀ s k g,
    let n := op.bytes
    let x := g.issue i
    let e (u : Option Nat) : Nat := (byRegister f g u).2
    Issues i s k g → CleanSources i g →
    (∀ u ∈ x.units, Allows (capAt g u f.c) (e u) n (rightA ||| rightR ||| rightW) ∧ e u % n = 0) →
    x.units ≠ [] → Forward s g → s.writeWaits g = false →
    ∃ t g', Runs i s k t g' ∧ Retired x g g' ∧ t.mem = s.mem ∧ g'.count .st = g.count .st + 1 ∧
      Queues s t k g (.rmw .global op none (x.units.map fun u => rmwLane g u (e u) (e u) (n == 8) f.d.toNat f.d.toNat))

/-- Read-modify-writes one after another on bytes: the old values, and the bytes after them (06 R162, R163). -/
def rmwRun (op : AtomOp) : List LaneRmw → (Nat → Byte) → List DWord × (Nat → Byte)
  | [], m => ([], m)
  | l :: t, m =>
    let old : DWord := BitVec.ofNat 64 (bytesNat ((List.range op.bytes).map fun j => m (l.addr + j)))
    let m' : Nat → Byte := match rmwNew op old l.x l.cmp with
      | some v => fun a => if l.addr ≤ a ∧ a < l.addr + op.bytes then BitVec.ofNat 8 (v.toNat / 256 ^ (a - l.addr)) else m a
      | none => m
    let r := rmwRun op t m'
    (old :: r.1, r.2)

/-- No engine program waits for a token. -/
def NoWaitt (s : State) : Prop := ∀ e ∈ s.engines, e.waitt = none

/-- One 128-byte line holds `n` bytes. -/
def OneLine (va n : Nat) : Prop := va / 128 = (va + n - 1) / 128

end Sys2Proof.Claims

/-- 06 R149, R161 to R163, R170, R171: the global atomics. -/
def Sys2Proof.Claims.GlobalAtomicsQueue : Prop :=
  (∀ p f, Atomics (.atomI32 p f) f (.i32 f.w.toNat) f.d.toNat) ∧
  (∀ p f, Atomics (.atomI64 p f) f (.i64 f.w.toNat) f.d.toNat) ∧
  (∀ p f, Atomics (.atomF32 p f) f (.f32 f.w.toNat) f.d.toNat) ∧
  (∀ p f, f.w = 0 → Atomics (.cas p f) f (.cas false) (fourth p f.d)) ∧
  (∀ p f, f.w = 1 → Atomics (.cas p f) f (.cas true) (fourth p f.d)) ∧
  (∀ p f, f.w = 2 → Atomics (.cas p f) f (.xchg false) f.d.toNat) ∧
  (∀ p f, f.w = 3 → Atomics (.cas p f) f (.xchg true) f.d.toNat)

/-- 06 R161, R172: the reductions. -/
def Sys2Proof.Claims.ReductionsQueue : Prop :=
  (∀ p f, Reductions (.redI32 p f) f (.i32 f.w.toNat)) ∧
  (∀ p f, Reductions (.redI64 p f) f (.i64 f.w.toNat)) ∧
  (∀ p f, Reductions (.redF32 p f) f (.f32 f.w.toNat))

/-- 06 R149, R161 to R163, R170 to R172: global atomics and reductions. -/
def Obligations.GlobalAtomicsAndReductionsQueue : Prop := GlobalAtomicsQueue ∧ ReductionsQueue

/-- 06 R161 to R163: what a read-modify-write makes of the old value. -/
def Obligations.ReadModifyWriteResults : Prop :=
  (∀ a < 8, ∀ old x c, rmwNew (.i32 a) old x c = some (
    let o := bitsOf old 0 32
    let y := bitsOf x 0 32
    (if a = 0 then o + y else if a = 1 then o &&& y else if a = 2 then o ||| y else if a = 3 then o ^^^ y
     else if a = 4 then (if y.slt o then y else o) else if a = 5 then (if o.slt y then y else o)
     else if a = 6 then (if y.ult o then y else o) else if o.ult y then y else o).setWidth 64)) ∧
  (∀ a < 6, ∀ old x c, rmwNew (.i64 a) old x c = some (
    if a = 0 then old + x else if a = 1 then old &&& x else if a = 2 then old ||| x else if a = 3 then old ^^^ x
    else if a = 4 then (if x.slt old then x else old) else if old.slt x then x else old)) ∧
  (∀ old x c, rmwNew (.cas false) old x c = if bitsOf old 0 32 = bitsOf c 0 32 then some x else none) ∧
  (∀ old x c, rmwNew (.cas true) old x c = if old = c then some x else none) ∧
  (∀ w old x c, rmwNew (.xchg w) old x c = some x) ∧
  (∀ a < 3, ∀ old x c, rmwNew (.f32 a) old x c = some (BitVec.ofNat 64 (
    let o := (bitsOf old 0 32).toNat
    let y := (bitsOf x 0 32).toNat
    if a = 0 then floatAdd fp32 ⟨.rne, false, false⟩ (unpack fp32 o) (unpack fp32 y)
    else floatMinMax false (a == 2) o y).bits))

/-- 06 R162, 11 R258, R259: `atoml` on the core's own local memory: lane after lane, each returns the old value and writes the
new one; no other byte of the block's memory changes. On the partner core's half or cluster memory it is queued. -/
def Obligations.LocalAtomicsRun : Prop :=
  ∀ p f s k g b,
    let x := g.issue (.atoml p f)
    let place (u : Option Nat) := placeOf b g.core (localAt f g u)
    let lane (va : Nat) (u : Option Nat) : LaneRmw := rmwLane g u (place u).off va false f.d.toNat f.d.toNat
    Issues (.atoml p f) s k g → CleanSources (.atoml p f) g → (∀ u ∈ x.units, LocalAllowed s k (localAt f g u) 4) →
    x.units ≠ [] → s.blockOf k = some b → Still s → s.localTested g.core = false → s.writeWaits g = false → Forward s g →
    ((∀ u ∈ x.units, (place u).space = none) →
      let r := rmwRun (.i32 f.w.toNat) (x.units.map (lane 0)) fun a => cellsRead b.mem.cells a
      ∃ t g' b', Runs (.atoml p f) s k t g' ∧ Retired x g g' ∧ t.mem = s.mem ∧ t.bands = s.bands ∧
        t.blockOf k = some b' ∧ (∀ a, cellsRead b'.mem.cells a = r.2 a) ∧ g'.count .st = g.count .st + 1 ∧
        ∀ (j : Nat) u, x.units[j]? = some u → (g'.reg? u f.d.toNat).map (·.val) = (r.1[j]?).map fun v => bitsOf v 0 32) ∧
    (∀ sp, (∀ u ∈ x.units, (place u).space = some sp) →
      ∃ t g', Runs (.atoml p f) s k t g' ∧ Retired x g g' ∧ t.mem = s.mem ∧ t.blocks = s.blocks ∧
        g'.count .st = g.count .st + 1 ∧ (∀ u ∈ x.units, Awaited g' u f.d.toNat) ∧
        Queues s t k g (.rmw .cluster (.i32 f.w.toNat)
          (some ⟨isUni f.d, x.units.map fun u => (u.getD 0, g.regNum u f.d.toNat), 1⟩)
          (x.units.map (lane (if sp = .cluster then 1 else 0)))))

/-- 06 R150, R170, R172: a store of one lane leaves the hold queue once it is 256 cycles old and nothing of its group stands
before it; its entry joins its home's queue, and no memory changes yet. -/
def Obligations.StoresLeaveTheHoldQueue : Prop :=
  ∀ s k g core l r rest (ln : LaneStore) key,
    s.group? k = some g → g.core = core → s.launch? k.launch = some l → (s.core core).hold = r :: rest → r.group = k →
    r.eng = none → r.body = .store .global [ln] → r.issued + 256 ≤ s.clockOf core → r.after = none →
    (∀ y ∈ rest, y.id ≠ r.id) → Still s → ln.hidden = [] → 0 < ln.bytes.length → OneLine ln.va ln.bytes.length →
    Mapped s (dieOfCore core) l.ctx ln.va { write := true } key → s.pageLogged core l.ctx ln.va ln.bytes.length = false →
    ∃ t, exec (.holdQueueLeave core k) s = .next t ∧ t.mem = s.mem ∧ (t.core core).hold = rest ∧
      t.homes = s.homes ++ [⟨r.id, .core core, k, s.homeOf (dieOfCore core) (keyTier key) (keyPa key),
        .store .global [{ ln with addr := key }], core⟩] ∧
      ∃ i ∈ t.inflight, i.id = r.id ∧ i.group = k ∧ i.parts = 1

/-- 06 R155, R162, R170, 11 R263: a home performs the first entry of a source's queue as one step: a store writes exactly its
bytes, a read-modify-write its results; the entry leaves the queue, old values travel as replies, and an acknowledgement
travels when the request is counted. -/
def Obligations.HomesPerformRequests : Prop :=
  (∀ s home src r sp ls, home < 256 → (s.homes.find? fun y => y.home == home && y.src == src) = some r →
    s.heldAtHome r = false → Still s → NoWaitt s → r.body = .store sp ls → (∀ l ∈ ls, keyTier l.addr ≤ 1) →
    ∃ t, exec (.homeRequest home src) s = .next t ∧ t.homes.length + 1 = s.homes.length ∧
      (∀ a, t.mem.read a = (lastByte (ls.map fun l => (l.addr, l.bytes)) a).getD (s.mem.read a)) ∧
      (∀ l, ls = [l] → 0 < l.bytes.length → ∀ a, t.mem.tag a =
        if a / 16 = l.addr / 16 ∧ l.tag = some true ∧ keyTier l.addr = 0 then true
        else if l.addr / 16 ≤ a / 16 ∧ a / 16 ≤ (l.addr + l.bytes.length - 1) / 16 then false else s.mem.tag a) ∧
      ((∃ i ∈ s.inflight, i.id = r.id) → t.acks = s.acks ++ [r.id])) ∧
  (∀ s home src r sp op d ls, home < 256 → (s.homes.find? fun y => y.home == home && y.src == src) = some r →
    s.heldAtHome r = false → Still s → NoWaitt s → r.body = .rmw sp op d ls → (∀ l ∈ ls, keyTier l.addr ≤ 1) →
    let q := rmwRun op ls s.mem.read
    ∃ t, exec (.homeRequest home src) s = .next t ∧ t.homes.length + 1 = s.homes.length ∧ (∀ a, t.mem.read a = q.2 a) ∧
      ((∃ i ∈ s.inflight, i.id = r.id) → t.acks = s.acks ++ [r.id]) ∧
      ∀ y : Dest, d = some y → y.uniform = false → (∀ l ∈ ls, ∃ z ∈ y.regs, z.1 = l.lane) → ls ≠ [] →
        ∃ m, t.replies = s.replies ++ [m] ∧ m.id = r.id ∧ m.group = r.group ∧
          m.vals.map (fun v => (v.1, v.2.2.1.map (·.val))) = (ls.zip q.1).map fun z =>
            (some z.1.lane, (List.range (op.bytes / 4)).map fun j => bitsOf z.2 (32 * j) 32))

/-- 06 R170: an acknowledgement takes one part of its request; the last one completes the write, which leaves its counter
with the older ones of its class. -/
def Sys2Proof.Claims.AcknowledgementsComplete : Prop :=
  ∀ s id i, s.acks.contains id = true → (s.inflight.find? fun y => y.id == id) = some i → i.eng = none → Quiet s →
    ∃ t, exec (.homeAck id) s = .next t ∧ t.mem = s.mem ∧
      (1 < i.parts → ∃ j ∈ t.inflight, j.id = id ∧ j.parts = i.parts - 1) ∧
      (i.parts = 1 → (∀ j ∈ t.inflight, j.id ≠ id) ∧
        ∀ g o os, s.group? i.group = some g → g.outst = o :: os → o.id = id → (∀ y ∈ os, y.done = false ∧ y.id ≠ id) →
          ∃ g', t.group? i.group = some g' ∧ g'.outst = os)

/-- 01 R21, R22, 11 R264: a reply brings its values to the registers that await them, and frees the return slot; the group's
fibres that wait for it go on. -/
def Sys2Proof.Claims.RepliesBringTheirValues : Prop :=
  ∀ s r k g op, s.replies.find? (fun y => y.id == r.id) = some r → r.group = k → s.group? k = some g →
    g.pend = [op] → op.id = r.id → op.lanes ≠ 0 → (∀ h ∈ s.groups, h.key ≠ k → h.pend = []) →
    (∀ v ∈ r.vals, ∀ l, v.1 = some l → l < g.lanes.length) →
    (r.vals.Pairwise fun a b => a.1 = b.1 → ∀ i < a.2.2.1.length, ∀ j < b.2.2.1.length, a.2.1 + i ≠ b.2.1 + j) →
    (∀ v ∈ r.vals, ∀ j < v.2.2.1.length,
      (g.written.find? fun w => w.lane == v.1 && w.reg == v.2.1 + j).any (fun w => w.pending == some r.id) = true) →
    (∀ w ∈ g.written, w.pending = some r.id → w.src = none ∧ ∃ v ∈ r.vals, w.lane = v.1 ∧ ∃ j < v.2.2.1.length, w.reg = v.2.1 + j) →
    (∀ w ∈ g.written, w.pending = some r.id → g.written.find? (fun y => y.lane == w.lane && y.reg == w.reg) = some w) →
    ∃ t g', exec (.reply r.id) s = .next t ∧ t.group? k = some g' ∧ t.mem = s.mem ∧ g'.pend = [] ∧
      (t.core g.core).slotsUsed = (s.core g.core).slotsUsed.filter (· != r.id) ∧
      (∀ v ∈ r.vals, ∀ j (h : j < v.2.2.1.length),
        (match v.1 with
          | none => g'.s.get? (v.2.1 + j)
          | some l => (g'.lane? l).bind fun y => y.v.get? (v.2.1 + j)) = some v.2.2.1[j]) ∧
      (g.handler = false → ∀ l y, g'.lane? l = some y → y.park ≠ some (.await r.id))

/-- 01 R21, R22, 06 R170, 11 R264: acknowledgements and replies. -/
def Obligations.AnswersComplete : Prop := AcknowledgementsComplete ∧ RepliesBringTheirValues

/-- 01 R21, R23, 03 R73, 04 R104: the drain of a run commits what it wrote: predicates, FPSR with the flags raised, FPCR and
MSR; and the next run begins. -/
def Obligations.DrainCommitsTheRun : Prop :=
  ∀ s k g, s.group? k = some g → g.draining = true → (∀ w ∈ g.written, w.pending = none) →
    (∀ c ∈ g.cvs, c.queued = false) → (∀ p ∈ g.pend, bringsPredicates p.instr = false) →
    ∃ t g', exec (.drain k) s = .next t ∧ t.group? k = some g' ∧ ({ t with groups := s.groups } : State) = s ∧
      g'.runCount = 0 ∧ g'.written = [] ∧ g'.draining = false ∧ g'.fpcr = g.fpcrWrite.getD g.fpcr ∧
      g'.msr = g.msrWrite.getD g.msr ∧ g'.s = g.s ∧
      ∀ l y, g.lane? l = some y → ∃ y', g'.lane? l = some y' ∧ y'.pc = y.pc ∧ y'.v = y.v ∧ y'.flags = 0 ∧ y'.predMask = 0 ∧
        y'.fpsr = y.fpsrWrite.getD y.fpsr ||| y.flags ∧
        ∀ q < 16, y'.preds.getLsbD q = if y.predMask.getLsbD q then y.predNew.getLsbD q else y.preds.getLsbD q

/-! ### Fences, caches, waits, engine programs -/

namespace Sys2Proof.Claims

/-- The word completes, and the core's L1 holds no line (06 R164, R165): the group has acquired. -/
def Acquires (i : Instr) (s : State) (k : GKey) (g : Group) : Prop :=
  ∃ t g', Runs i s k t g' ∧ Retired (g.issue i) g g' ∧ t.mem = s.mem ∧ (t.core g.core).l1 = [] ∧
    ∀ l ∈ (g.issue i).issuing, (g'.lane? l).map (·.park) = some none

/-- The word completes, and L1 is as it was. -/
def Completes (i : Instr) (s : State) (k : GKey) (g : Group) : Prop :=
  ∃ t g', Runs i s k t g' ∧ Retired (g.issue i) g g' ∧ t.mem = s.mem ∧ (t.core g.core).l1 = (s.core g.core).l1 ∧
    ∀ l ∈ (g.issue i).issuing, (g'.lane? l).map (·.park) = some none

/-- The word parks its fibres until what it waits for is done. -/
def Waits (i : Instr) (s : State) (k : GKey) (g : Group) : Prop :=
  ∃ t g', Runs i s k t g' ∧ Retired (g.issue i) g g' ∧ t.mem = s.mem ∧ Parks (g.issue i) g'

/-- Every write of the group is acknowledged, and so is all that had left its core; none failed (06 R164, R174, 12 R280). -/
def Released (s : State) (g : Group) : Prop :=
  g.count .st = 0 ∧ g.count .ms = 0 ∧ (∀ i ∈ s.inflight, i.core ≠ g.core) ∧ s.fabric.remote = [] ∧ g.fails = [] ∧ g.fabFails = []

/-- The word sends its request to a unit outside the core, with these values, and its fibres wait for the answer
(19 R381). -/
def AsksUnit (i : Instr) (s : State) (k : GKey) (g : Group) (args : List Reg) : Prop :=
  ∃ t g', Runs i s k t g' ∧ Retired (g.issue i) g g' ∧ t.mem = s.mem ∧ Parks (g.issue i) g' ∧ Queues s t k g (.unit i args [])

/-- A memory-side command of a group starts when its parameters are legal, its capabilities allow it, its addresses are
aligned and its ranges do not meet; `lens` are its bytes of target and source (06 R166, R167). -/
def MscStarts (i : Instr) (f : FmtM) (cmd : Nat) (legal : Nat → Nat → Bool) (lens : Nat → Nat → Nat × Nat) : Prop :=
  ∀ s k g,
    let p (j : Nat) : Word := g.word none (f.d.toNat + j)
    let dst := capAt g none f.c
    let src := capAt g none f.o
    let n := lens (p 0).toNat (p 1).toNat
    Issues i s k g → CleanSources i g → (∀ j < 3, g.runWrites none (f.d.toNat + j) = []) → Forward s g → g.count .ms < 63 →
    legal (p 0).toNat (p 1).toNat = true → Allows dst dst.addr n.1 rightM → dst.addr % 4 = 0 →
    (cmd ≠ 0 → Allows src src.addr n.2 rightM ∧ src.addr % 4 = 0 ∧ rangesMeet dst.addr n.1 src.addr n.2 = false) →
    ∃ t g' m, Runs i s k t g' ∧ Retired (g.issue i) g g' ∧ t.mem = s.mem ∧ g'.count .ms = g.count .ms + 1 ∧
      Queues s t k g (.msc m.id) ∧ t.mscs = s.mscs ++ [m] ∧ m.owner = .group k ∧ m.cmd = cmd ∧ m.rel = f.w.getLsbD 2 ∧
      m.target = dst.addr ∧ m.source = src.addr ∧ m.p0 = p 0 ∧ m.p1 = p 1 ∧ m.p2 = p 2 ∧ m.pos = 0

/-- The counter of a class of `waitc`, and whether its wait acquires (10 R238). -/
def counterOf (cls : BitVec 3) : Ctr × Bool :=
  if cls = 0 then (.st, false) else if cls = 1 then (.ce, true) else if cls = 2 then (.ge, true)
  else if cls = 3 then (.me, false) else if cls = 4 then (.ke, true) else (.ms, true)

/-- The arguments of a copy word in a group: destination, source and token (10 R233). -/
def copyArgs (g : Group) (f : FmtE) (dl sl : Bool) : CopyArgs :=
  let cap (n : Nat) : Val := ⟨g.quad none n, g.quadTag none n, false⟩
  let side (n : Nat) (isLocal : Bool) : Val := if isLocal then ⟨(g.pair none n).setWidth 128, false, false⟩ else cap n
  ⟨side f.a.toNat dl, side (f.a.toNat + 4) sl, if f.id.getLsbD 0 then some (cap f.b.toNat) else none, dl, sl⟩

/-- The same in an engine program. -/
def engineArgs (e : Engine) (f : FmtE) (dl sl : Bool) : CopyArgs :=
  let cap (n : Nat) : Val := ⟨quadAt e.word n, e.s.tag (n - 96), false⟩
  let side (n : Nat) (isLocal : Bool) : Val := if isLocal then ⟨(pairAt e.word n).setWidth 128, false, false⟩ else cap n
  ⟨side f.a.toNat dl, side (f.a.toNat + 4) sl, if f.id.getLsbD 0 then some (cap f.b.toNat) else none, dl, sl⟩

/-- No register that an engine's word reads is poisoned. -/
def CleanEngine (e : Engine) : Prop := ∀ n r, e.s.get? n = some r → r.poison = false

/-- An engine's copy command starts: the program counts it among its commands and goes on. -/
def EngineCopies (i : Instr) (f : FmtE) (dl sl : Bool) (dst : State → Engine → CopyArgs → List Side) : Prop :=
  ∀ s id e,
    let c := engineArgs e f dl sl
    EngineIssues i s id e → CleanEngine e → e.redo = [] → c.fails (s.localLimits e.group.launch e.group.block) = none →
    ∃ t e' y, exec i s = .next t ∧ t.engine? id = some e' ∧ t.mem = s.mem ∧ e'.pc = e.pc + 4 ∧ e'.cmds = e.cmds ++ [y.id] ∧
      t.copies = s.copies ++ [y] ∧ y.owner = .engine id e.count e.pc ∧ y.len = c.len ∧ y.dst = dst s e c ∧
      y.src = (if sl then .localMem e.group.launch e.group.block (e.word (f.a.toNat + 4)).toNat
        else .global (Cap.ofVal c.src).addr) ∧
      y.token = (if f.id.getLsbD 0 then some (bitsOf (quadAt e.word f.b.toNat) 0 48).toNat else none) ∧ y.inc = 1 ∧
      y.readPos = 0 ∧ y.writePos = 0 ∧ y.buf = []

end Sys2Proof.Claims

/-- 06 R164, 12 R280, R285: a fence of grp scope does nothing; an acquire empties L1 at once; a release waits until the
group's writes are acknowledged, and completes where they are. -/
def Sys2Proof.Claims.FencesOrder : Prop :=
  (∀ f s k g, Issues (.fenceAcq f) s k g → Quiet s → g.handler = false →
    if f.scope = 0 then Completes (.fenceAcq f) s k g else Acquires (.fenceAcq f) s k g) ∧
  (∀ f s k g, Issues (.fenceRel f) s k g → Quiet s → g.handler = false →
    (f.scope = 0 ∨ Released s g → Completes (.fenceRel f) s k g) ∧
    (f.scope ≠ 0 → g.count .st ≠ 0 → Waits (.fenceRel f) s k g)) ∧
  (∀ f s k g, Issues (.fenceAr f) s k g → Quiet s → g.handler = false →
    (f.scope = 0 → Completes (.fenceAr f) s k g) ∧ (f.scope ≠ 0 → Released s g → Acquires (.fenceAr f) s k g) ∧
    (f.scope ≠ 0 → g.count .st ≠ 0 → Waits (.fenceAr f) s k g)) ∧
  (∀ f s k g, Issues (.fenceXpath f) s k g → Quiet s → g.handler = false →
    (Released s g → Acquires (.fenceXpath f) s k g) ∧ (g.count .st ≠ 0 → Waits (.fenceXpath f) s k g))

/-- 06 R165, R168, R169: the words that control caches, translations and the protection keys. -/
def Sys2Proof.Claims.CacheAndTranslationControl : Prop :=
  (∀ f s k g, Issues (.cctlInvl1 f) s k g → ∃ t g', Runs (.cctlInvl1 f) s k t g' ∧ Retired (g.issue (.cctlInvl1 f)) g g' ∧
    t.mem = s.mem ∧ (t.core g.core).l1 = []) ∧
  (∀ f s k g, Issues (.cctlInvline f) s k g → CleanSources (.cctlInvline f) g →
    (∀ u ∈ (g.issue (.cctlInvline f)).units, Allows (capAt g u f.c) (byRegister f g u).2 1 rightR) →
    ∃ t g', Runs (.cctlInvline f) s k t g' ∧ Retired (g.issue (.cctlInvline f)) g g' ∧ t.mem = s.mem ∧
      ∀ u ∈ (g.issue (.cctlInvline f)).units, (t.core g.core).l1Line g.ctx (byRegister f g u).2 = none) ∧
  (∀ f s k g, Issues (.cctlInvpt f) s k g → Forward s g → AsksUnit (.cctlInvpt f) s k g []) ∧
  (∀ f s k g, Issues (.cctlInvpg f) s k g → CleanSources (.cctlInvpg f) g → Forward s g →
    (∀ u ∈ (g.issue (.cctlInvpg f)).units, Allows (capAt g u f.c) (byRegister f g u).2 1 rightM) →
    AsksUnit (.cctlInvpg f) s k g ((g.issue (.cctlInvpg f)).units.map fun u =>
      ⟨BitVec.ofNat 32 ((byRegister f g u).2 / 65536), false⟩)) ∧
  (∀ f s k g, Issues (.cctlPfL1 f) s k g → ∃ t g', Runs (.cctlPfL1 f) s k t g' ∧ Retired (g.issue (.cctlPfL1 f)) g g' ∧
    ∀ u key, (g.issue (.cctlPfL1 f)).units = [u] → Allows (capAt g u f.c) (byRegister f g u).2 1 rightR →
      Mapped s (dieOfCore g.core) g.ctx (byRegister f g u).2 {} key → keyTier key ≤ 1 → s.lineWaits g key = false →
      s.pageLogged g.core g.ctx (byRegister f g u).2 1 = false →
      t.mem = s.mem ∧ ((t.core g.core).l1Line g.ctx (byRegister f g u).2).isSome = true) ∧
  (∀ f s k g, Issues (.cctlPfLlc f) s k g → ∃ t g', Runs (.cctlPfLlc f) s k t g' ∧
    Retired (g.issue (.cctlPfLlc f)) g g' ∧ DeviceKept s t) ∧
  (∀ f s k g, Issues (.pkrSet f) s k g → Forward s g → AsksUnit (.pkrSet f) s k g
    ((List.range 2).map fun j => (g.reg? none (f.a.toNat + j)).getD ⟨0, false⟩)) ∧
  (∀ f s k g c, Issues (.pkrGet f) s k g → s.ctx? g.ctx = some c → ∃ t g', Runs (.pkrGet f) s k t g' ∧
    Retired (g.issue (.pkrGet f)) g g' ∧ Holds64 (g.issue (.pkrGet f)) g' f.d fun _ => c.pkr)

/-- 06 R164, R165, R168, R169, 12 R280, R285: fences, and the words that control caches, translations and keys. The
model's choice: `cctl` checks its capability over one byte at the address (log entry 35). -/
def Obligations.FencesAndCacheControl : Prop := FencesOrder ∧ CacheAndTranslationControl

/-- 06 R166, R167: the memory-side commands start: they count in ms, and their requests wait in the hold queue behind the
group's writes. -/
def Sys2Proof.Claims.MemorySideCommandsStart : Prop :=
  (∀ f, MscStarts (.mscFill f) f 0 (fun _ n => n % 4 == 0) fun _ n => (n, 0)) ∧
  (∀ f, MscStarts (.mscRdo f) f 1 (fun _ r => r != 0 && decide (r ≤ 65536)) fun n r => (4 * n, 4 * n * r)) ∧
  (∀ f, MscStarts (.mscAxpy f) f 2 (fun _ _ => true) fun n _ => (4 * n, 4 * n)) ∧
  (∀ f, MscStarts (.mscCopy f) f 3 (fun _ n => n % 4 == 0) fun _ n => (n, n))

/-- 10 R231, R232, R238: `waitc`, `rdv` and `rdv.test` complete where what they wait for is done, and else park. -/
def Sys2Proof.Claims.CounterAndSlotWaits : Prop :=
  (∀ f s k g, Issues (.waitc f) s k g → g.handler = false →
    if g.count (counterOf f.cls).1 ≤ f.b.toNat then
      ∃ t g', Runs (.waitc f) s k t g' ∧ Retired (g.issue (.waitc f)) g g' ∧
        (t.core g.core).l1 = if (counterOf f.cls).2 then [] else (s.core g.core).l1
    else Waits (.waitc f) s k g) ∧
  (∀ f s k g, Issues (.rdv f) s k g →
    let st := g.slotStatus f.id.toNat
    if bitsOf st 0 8 = 0 then Waits (.rdv f) s k g
    else ∃ t g', Runs (.rdv f) s k t g' ∧ Retired (g.issue (.rdv f)) g g' ∧
      (g'.reg? none f.a.toNat).map (·.val) = some st ∧
      (t.core g.core).l1 = if bitsOf st 0 8 = 1 ∨ 3 ≤ (bitsOf st 0 8).toNat ∧ (bitsOf st 0 8).toNat ≤ 6 then [] else (s.core g.core).l1) ∧
  (∀ f s k g, Issues (.rdvTest f) s k g → g.redo = [] → ∃ t g', Runs (.rdvTest f) s k t g' ∧
    Retired (g.issue (.rdvTest f)) g g' ∧ (g'.reg? none f.a.toNat).map (·.val) = some (g.slotStatus f.id.toNat))

/-- 10 R229 to R231: `forke` starts an engine program: at the entry, with the capability in s0:4 and its slot busy; a program
of a CE or GE waits at once in its sequencer's queue, one of a KE is asked for from the hold queue (19 R381). -/
def Sys2Proof.Claims.ForkeStartsAProgram : Prop :=
  ∀ f s k g, Issues (.forke f) s k g → CleanSources (.forke f) g → Forward s g →
    bitsOf (g.slotStatus f.id.toNat) 0 8 ≠ 0 → g.full (if f.cls = 1 then .ce else if f.cls = 2 then .ge else .ke) = false →
    ∃ t g', Runs (.forke f) s k t g' ∧ Retired (g.issue (.forke f)) g g' ∧ g'.slotStatus f.id.toNat = 0 ∧
      g'.count (if f.cls = 1 then .ce else if f.cls = 2 then .ge else .ke) =
        g.count (if f.cls = 1 then .ce else if f.cls = 2 then .ge else .ke) + 1 ∧
      if f.cls = 4 then
        Queues s t k g (.unit (.forke f) (⟨g.word none f.a.toNat, false⟩ ::
          (List.range 4).map (fun j => (g.reg? none (f.b.toNat + j)).getD ⟨0, false⟩) ++
          [⟨if g.quadTag none f.b.toNat then 1 else 0, false⟩]) [])
      else ∃ e, t.engines = s.engines ++ [e] ∧ e.seqr = ⟨if f.cls = 1 then .ce else .ge, g.core⟩ ∧ e.group = k ∧
        e.slot = f.id.toNat ∧ e.started = false ∧ e.pc = g.word none f.a.toNat ∧ e.preds = 0xFFFF ∧ e.stopped = none ∧
        e.cmds = [] ∧ (∀ j < 4, e.word (96 + j) = g.word none (f.b.toNat + j)) ∧ e.s.tag 0 = g.quadTag none f.b.toNat ∧
        ∀ j, 4 ≤ j → j < 32 → e.word (96 + j) = 0

/-- 10 R229 to R232, R238, 19 R381: `forke`, and the waits for counters and slots. -/
def Obligations.ForksAndWaitsForEngines : Prop := CounterAndSlotWaits ∧ ForkeStartsAProgram

/-- 10 R239: `waitt` observes a token of TIER 0 or 1: PD tells whether it had reached the value; a timeout of 0 does not wait;
in an engine program PD is written at once. -/
def Obligations.WaittObservesATarget : Prop :=
  (∀ f s k g key,
    let c := capAt g none f.a
    let want := (g.pair none f.b.toNat).toNat
    let limit := g.word none (f.b.toNat + 2)
    let seen := decide (want ≤ s.mem.readNat key 8 % 2 ^ 64)
    Issues (.waitt f) s k g → CleanSources (.waitt f) g → Allows c c.addr 8 rightR → c.addr % 8 = 0 → g.redo = [] →
    g.handler = false → Mapped s (dieOfCore g.core) g.ctx c.addr {} key → keyTier key ≤ 1 → s.stalls none key 8 = false →
    if seen || limit == 0 then
      ∃ t g', Runs (.waitt f) s k t g' ∧ Retired (g.issue (.waitt f)) g g' ∧ (seen = true → (t.core g.core).l1 = []) ∧
        (f.id.toNat < 15 → ∀ l ∈ (g.issue (.waitt f)).issuing, l < 64 →
          (g'.lane? l).map (fun y => (y.predMask.getLsbD f.id.toNat, y.predNew.getLsbD f.id.toNat)) = some (true, seen))
    else Waits (.waitt f) s k g) ∧
  (∀ f s id e key,
    let c := Cap.ofVal ⟨quadAt e.word f.a.toNat, e.s.tag (f.a.toNat - 96), false⟩
    let want := (pairAt e.word f.b.toNat).toNat
    EngineIssues (.waitt f) s id e → CleanEngine e → Allows c c.addr 8 rightR → c.addr % 8 = 0 → e.redo = [] →
    Mapped s e.die e.ctx c.addr {} key → keyTier key ≤ 1 → s.stalls none key 8 = false →
    ∃ t e', exec (.waitt f) s = .next t ∧ t.engine? id = some e' ∧ t.mem = s.mem ∧
      if want ≤ s.mem.readNat key 8 % 2 ^ 64 then
        e'.pc = e.pc + 4 ∧ e'.waitt = none ∧ (f.id.toNat < 15 → e'.preds.getLsbD f.id.toNat = true)
      else if e.word (f.b.toNat + 2) = 0 then
        e'.pc = e.pc + 4 ∧ e'.waitt = none ∧ (f.id.toNat < 15 → e'.preds.getLsbD f.id.toNat = false)
      else e'.pc = e.pc ∧ e'.waitt.isSome = true)

/-- 10 R233 to R235, 11 R269, R270: the copy words start their copies, and `esig`, with the program's earlier commands
complete, the increment of its token. -/
def Sys2Proof.Claims.CopyWordsStart : Prop :=
  (∀ f s k g,
    let c := copyArgs g f (f.cls.getLsbD 0) (f.cls.getLsbD 1)
    Issues (.cpa f) s k g → CleanSources (.cpa f) g → g.redo = [] → g.full .ce = false →
    c.fails (s.localLimits k.launch k.block) = none →
    ∃ t g' y, Runs (.cpa f) s k t g' ∧ Retired (g.issue (.cpa f)) g g' ∧ t.mem = s.mem ∧ g'.count .ce = g.count .ce + 1 ∧
      t.copies = s.copies ++ [y] ∧ y.owner = .group k ∧ y.len = c.len ∧ y.inc = 1 ∧ y.readPos = 0 ∧ y.writePos = 0 ∧
      y.dst = [if f.cls.getLsbD 0 then .localMem k.launch k.block (g.word none f.a.toNat).toNat
        else .global (capAt g none f.a).addr] ∧
      y.src = (if f.cls.getLsbD 1 then .localMem k.launch k.block (g.word none (f.a.toNat + 4)).toNat
        else .global (Cap.ofVal c.src).addr) ∧
      y.token = (if f.id.getLsbD 0 then some (capAt g none f.b).addr else none)) ∧
  (∀ f, EngineCopies (.ecopy f) f (f.cls.getLsbD 0) (f.cls.getLsbD 1) fun _ e c =>
    [if f.cls.getLsbD 0 then .localMem e.group.launch e.group.block (e.word f.a.toNat).toNat
     else .global (Cap.ofVal c.dst).addr]) ∧
  (∀ f s id e l,
    let c := engineArgs e f true (f.cls.getLsbD 0)
    EngineIssues (.emcast f) s id e → CleanEngine e → e.redo = [] →
    c.fails (s.localLimits e.group.launch e.group.block) = none → s.launch? e.group.launch = some l → 0 < l.band →
    ∃ t e' y, exec (.emcast f) s = .next t ∧ t.engine? id = some e' ∧ t.mem = s.mem ∧ e'.pc = e.pc + 4 ∧
      e'.cmds = e.cmds ++ [y.id] ∧ t.copies = s.copies ++ [y] ∧ y.len = c.len ∧
      ∀ m, m ∈ s.blocks → m.launch = e.group.launch → m.band = e.group.block / l.band →
        Side.localMem m.launch m.index (e.word f.a.toNat).toNat ∈ y.dst) ∧
  (∀ f s id e,
    let c := Cap.ofVal ⟨quadAt e.word f.a.toNat, e.s.tag (f.a.toNat - 96), false⟩
    EngineIssues (.esig f) s id e → CleanEngine e → e.redo = [] → Allows c c.addr 8 (rightA ||| rightR ||| rightW) →
    c.addr % 8 = 0 → e.cmds = [] →
    ∃ t e' y, exec (.esig f) s = .next t ∧ t.engine? id = some e' ∧ t.mem = s.mem ∧ e'.pc = e.pc + 4 ∧ e'.cmds = [y.id] ∧
      t.copies = s.copies ++ [y] ∧ y.len = 0 ∧ y.token = some c.addr ∧ y.inc = (e.word f.b.toNat).setWidth 64)

/-- 06 R166, R167, 10 R233 to R235, 11 R269, R270: memory-side commands, copies and signals start. -/
def Obligations.CommandsAndCopiesStart : Prop := MemorySideCommandsStart ∧ CopyWordsStart

/-! ### Soft memory -/

namespace Sys2Proof.Claims

/-- A region of `n` slots of `k` FP32 elements that a step may use: its capability names exactly it, in one 4-KiB piece, with
the rights (07 R178, R179, R194). -/
def SoftRegion (c : Cap) (k n : Nat) (rights : BitVec 8) : Prop :=
  c.tag = true ∧ c.addr = c.base ∧ 1 ≤ n ∧ n ≤ 64 ∧ c.length = n * (4 * k) ∧ c.base % (4 * k) = 0 ∧
  c.base / 4096 = (c.base + c.length - 1) / 4096 ∧ c.rights &&& rights = rights

/-- A run of `n` registers from field `f` on can be read in a unit: it lies within its half of the fields and the counts, and
its registers are live, clean, and not written in the run (07 R181, 01 R22, R25). -/
def RunReadable (s : State) (g : Group) (u : Option Nat) (f : BitVec 7) (n : Nat) : Prop :=
  runInField f n = true ∧ ∀ j < n,
    g.regNum u (f.toNat + j) < (if isUni f then (s.regLimits g.key).2 else (s.regLimits g.key).1) ∧
    g.runWrites u (f.toNat + j) = [] ∧ ∃ r, g.reg? u (f.toNat + j) = some r ∧ r.poison = false

/-- A run of `n` registers from field `f` on can be written in a unit. -/
def RunWritable (s : State) (g : Group) (u : Option Nat) (f : BitVec 7) (n : Nat) : Prop :=
  runInField f n = true ∧ ∀ j < n,
    g.regNum u (f.toNat + j) < (if isUni f then (s.regLimits g.key).2 else (s.regLimits g.key).1)

/-- A soft word completes its issue: its step, with weights and values read, stands in the hold queue (07 R183, R184, R188,
R189). `two` is the field of the second region, `write2` whether it is written; `acc` the accesses by which a word that
returns something is translated at once, none for one that is translated when it leaves. -/
def SoftSteps (i : Instr) (f : FmtM) (op : SoftOp) (two : Option (BitVec 7)) (write2 : Bool) (acc : Option (Access × Access)) :
    Prop :=
  ∀ s k g (n key key2 : Option Nat → Nat),
    let x := g.issue i
    let w := softK f.w
    Issues i s k g → CleanSources i g → Forward s g → x.units ≠ [] →
    (∀ u ∈ x.units, SoftRegion (capAt g u f.c) w (n u) rightS ∧ RunReadable s g u f.o (n u) ∧
      ∀ c, two = some c → SoftRegion (capAt g u c) w (n u) (if write2 then rightS ||| rightW else rightS)) →
    (op ≠ .sld → s.writeWaits g = false) →
    (∀ a, acc = some a → s.slotsFull g.core = false ∧ ∀ u ∈ x.units,
      Mapped s (dieOfCore g.core) g.ctx (capAt g u f.c).addr a.1 (key u) ∧ keyTier (key u) ≤ 1 ∧
      s.pageLogged g.core g.ctx (capAt g u f.c).addr (4 * n u * w) = false ∧
      ∀ c, two = some c → Mapped s (dieOfCore g.core) g.ctx (capAt g u c).addr a.2 (key2 u) ∧ keyTier (key2 u) ≤ 1 ∧
        s.pageLogged g.core g.ctx (capAt g u c).addr (4 * n u * w) = false) →
    ∃ t g' d r ls, Runs i s k t g' ∧ Retired x g g' ∧ t.mem = s.mem ∧ Queues s t k g (.soft op d r ls) ∧
      (op ≠ .sld → g'.count .st = g.count .st + 1) ∧
      (acc.isSome = true → (t.core g.core).slotsUsed.length = (s.core g.core).slotsUsed.length + 1) ∧
      (∀ u ∈ x.units, (op = .sld ∨ (∃ a, op = .sstg a) → Awaited g' u f.d.toNat) ∧
        (op = .sldg ∨ (∃ a, op = .sstg a) → Awaited g' u f.o.toNat)) ∧
      ls.length = x.units.length ∧ ∀ (j : Nat) u l, x.units[j]? = some u → ls[j]? = some l →
        l.lane = u.getD 0 ∧ l.va = (capAt g u f.c).addr ∧ l.addr = (if acc.isSome then key u else (capAt g u f.c).addr) ∧
        l.addr2 = two.map (fun c => if acc.isSome then key2 u else (capAt g u c).addr) ∧ l.n = n u ∧ l.k = w ∧
        l.weights = (List.range (n u)).map (fun m => g.word u (f.o.toNat + m)) ∧
        (op ≠ .sld → l.vals = (List.range w).map fun m => g.word u (f.d.toNat + m))

/-- The field of the prefix's region: none without a prefix, or where C names D (07 R184). -/
def regionField (p : Pfx) (d : BitVec 7) : Option (BitVec 7) := p.bind fun q => if q.c = d then none else some q.c

/-- Registers from a field on hold values. -/
def HoldsRun (g' : Group) (u : Option Nat) (f : BitVec 7) (n : Nat) (val : Nat → Word) : Prop :=
  ∀ j < n, (g'.reg? u (f.toNat + j)).map (·.val) = some (val j)

/-- `m` is the slot of greatest weight: values that are no NaN come first, and the lowest slot among equals; slot 0 when all
are NaNs (07 R187). -/
def HardestOf (v : Nat → FloatVal) (n m : Nat) : Prop :=
  m < n ∧ ((∀ j < n, (v j).isNaN = true) → m = 0) ∧
  ((∃ j, j < n ∧ (v j).isNaN = false) → (v m).isNaN = false ∧ ∀ j < n, (v j).isNaN = false →
    floatOrd (v m) (v j) ≠ .lt ∧ (j < m → floatOrd (v j) (v m) = .lt))

end Sys2Proof.Claims

/-- 07 R178 to R184, R188, R189, R194: the memory-side soft words. -/
def Sys2Proof.Claims.SoftStepsQueue : Prop :=
  (∀ p f, SoftSteps (.sld p f) f .sld none false (some ({}, {}))) ∧
  (∀ p f, SoftSteps (.sst p f) f (.sst (bitOf f.w 2)) (regionField p f.d) true none) ∧
  (∀ p f, SoftSteps (.sldg p f) f .sldg (regionField p f.d) true (some ({}, { write := true }))) ∧
  (∀ p f, SoftSteps (.sstg p f) f (.sstg (bitOf f.w 2)) (regionField p f.d) (!bitOf f.w 2)
    (some ({}, { write := !bitOf f.w 2 })))

/-- 07 R185 to R187: the words on weight vectors: `sshift` blends each weight with its neighbours by the three taps, `snorm`
divides by the sum, `harden` finds the slot of greatest weight. -/
def Sys2Proof.Claims.WeightVectorResults : Prop :=
  (∀ p f s k g,
    let x := g.issue (.sshift p f)
    let b (u : Option Nat) := g.quad u f.b.toNat
    let n (u : Option Nat) : Nat := (bitsOf (b u) 96 6).toNat + 1
    Issues (.sshift p f) s k g → (∀ u ∈ x.allUnits, RunWritable s g u f.d (n u) ∧ RunReadable s g u f.a (n u)) →
    ∃ t g', Runs (.sshift p f) s k t g' ∧ Retired x g g' ∧ ∀ u ∈ x.allUnits,
      HoldsRun g' u f.d (n u) fun j =>
        let from' (tap : Nat) (m : Option Nat) : List (Word × Word) :=
          m.toList.map fun m => (bitsOf (b u) (32 * tap) 32, g.word u (f.a.toNat + m))
        let ts := from' 0 (if j + 1 < n u then some (j + 1) else if f.x then some 0 else none) ++ from' 1 (some j) ++
          from' 2 (if 0 < j then some (j - 1) else if f.x then some (n u - 1) else none)
        BitVec.ofNat 32 (sumResult fp32 (envOf g p).mode (envOf g p).dn false
          (ts.flatMap fun q => [floatOf false q.1, floatOf false q.2])
          (ts.map fun q => prodTerm (floatOf false q.1) (floatOf false q.2))).bits) ∧
  (∀ p f s k g,
    let x := g.issue (.snorm p f)
    let n := (bitsOf f.m 0 6).toNat + 1
    Issues (.snorm p f) s k g → ∃ t g', Runs (.snorm p f) s k t g' ∧ Retired x g g' ∧ ∀ u ∈ x.allUnits,
      HoldsRun g' u f.d n fun j => ((normRun { envOf g p with sat := false } (f.m.getLsbD 6)
        ((List.range n).map fun m => ⟨g.word u (f.a.toNat + m), false⟩)).1[j]?).getD 0) ∧
  (∀ p f s k g,
    let x := g.issue (.harden p f)
    let n := (bitsOf f.m 0 6).toNat + 1
    Issues (.harden p f) s k g → ∃ t g', Runs (.harden p f) s k t g' ∧ Retired x g g' ∧ ∀ u ∈ x.allUnits,
      ∃ m, HardestOf (fun j => floatOf false (g.word u (f.a.toNat + j))) n m ∧
        if f.m.getLsbD 6 then HoldsRun g' u f.d n fun j => if j = m then 0x3F800000 else 0
        else (g'.reg? u f.d.toNat).map (·.val) = some (BitVec.ofNat 32 m))

/-- 07 R178 to R189, R194: the soft words. -/
def Obligations.SoftWords : Prop := SoftStepsQueue ∧ WeightVectorResults

/-! ### The matrix engine -/

namespace Sys2Proof.Claims

/-- An entry of a slice's order that takes effect only by an event of its own. -/
def Abides (o : SliceOp) : Prop := (∃ id, o = .mwl id) ∨ (∃ id, o = .reload id) ∨ ∃ g n, o = .product g n

/-- An entry of a slice's order that a product may pass: it changes neither the current latch nor the scales (09 R210). -/
def Passable (s : State) (o : SliceOp) : Prop :=
  (∃ id, o = .mwl id) ∨ ∃ h m, o = .product h m ∧ ∀ f, ((s.group? h).bind fun g => (g.cv m).op) ≠ some (.mscl f)

/-- A queued product is ready to issue and passes the checks that every product makes: its members signed at one word, nothing in
the order of a slice it uses must come first (`pass` tells what it may pass), no column of its arrays is being tested, and the
registers it reads are live and not written in the run (09 R210, R212, R227, 19 R392). -/
structure ProductReady (s : State) (g : Group) (n : Nat) (i : Instr) (pass : SliceOp → Prop) (regs : List Nat) : Prop where
  op : (g.cv n).op = some i
  queued : (g.cv n).queued = true
  pc : ∃ pc, ∀ q ∈ (g.cv n).signed, q.2 = pc
  before : ∀ arr ∈ productArrays i, ∀ o ∈ (s.sliceOf g arr).order.takeWhile (fun o => o != .product g.key n), pass o
  tested : ∀ arr ∈ productArrays i, s.columnTested g.core arr = false
  fields : ∀ r ∈ regs, r < 96
  live : ∀ q ∈ (g.cv n).signed, ∀ r ∈ regs, (g.reg? (some q.1) r).isSome = true ∧ g.runWrites (some q.1) r = []

/-- Lane `r` is a member of a queued operation. -/
def isMember (g : Group) (n r : Nat) : Bool := (g.cv n).signed.any fun q => q.1 == r

/-- The column scale of an array; 1.0 where none was set (09 R221). -/
def scaleOf (s : State) (g : Group) (arr j : Nat) : Word := ((s.sliceOf g arr).scales[j]?.getD ⟨0x3F800000, false⟩).val

/-- The element of a latched tile in row `q` of column `j`; none beyond the tile (09 R217). -/
def tileElem (t : Tile) (q j : Nat) : Option Word :=
  if q < t.krows ∧ j < t.cols then some (t.elems[q * t.cols + j]?.getD 0) else none

/-- Register `m` of the operand row of member `r`: of its own registers from A on, or of the row that the collector kept
(09 R213, R215). -/
def rowWord (g : Group) (a r m : Nat) : Word :=
  match g.collector with
  | none => g.word (some r) (a + m)
  | some c => ((c.rows.find? fun q => q.1 == r).bind fun q => q.2[m]?).elim 0 (·.val)

/-- Element `k` of a row by AF, little-endian, from the registers `w` (09 R213). -/
def elemOf (af : Nat) (w : Nat → Word) (k : Nat) : Nat :=
  let e := actBytes af
  (w (k * e / 4)).toNat / 2 ^ (8 * (k * e % 4)) % 2 ^ (8 * e)

/-- An accumulator after one array's part of a product (09 R216, R217): `a` gives the row's elements and `b` the column's, none
for +0. -/
def gained (fmt af k : Nat) (a : Nat → Option Nat) (b : Nat → Option Word) (c acc : Word) : Word :=
  if fmt = 4 ∧ af = 4 then
    acc + BitVec.ofInt 32 ((List.range k).foldl (fun (sum : Int) q =>
      sum + (a q).elim 0 (fun x => (BitVec.ofNat 8 x).toInt) * (b q).elim 0 fun x => (bitsOf x 0 8).toInt) 0)
  else accumulate acc (columnSum (fun q => (a q).elim (.fin false 0 0) (actVal af))
    (fun q => (b q).elim (.fin false 0 0) (tileVal fmt)) k) c

/-- K of a format (09 R216). -/
def depth (fmt : Nat) : Nat := if fmt ≤ 1 then 32 else 64

/-- The registers from `f` on. -/
def regsFrom (f n : Nat) : List Nat := (List.range n).map (f + ·)

/-- A product of the queued word issues (09 R212, R215): its members go on, memory is as it was, the rows it read are kept under
RU and released without, and accumulator `r` of member `j` holds what `val` gives. -/
def Multiplies (s : State) (k : GKey) (g : Group) (n : Nat) (f : FmtMX) (accs extent : Nat) (val : Nat → Nat → Word) : Prop :=
  ∃ t g', exec (.matrixIssue k n) s = .next t ∧ t.group? k = some g' ∧ t.mem = s.mem ∧
    (∀ l y, g'.lane? l = some y → y.park ≠ some (.cv n)) ∧
    (∀ j, isMember g n j = true → ∀ r < accs, (g'.reg? (some j) (f.d.toNat + r)).map (·.val) = some (val j r)) ∧
    (f.ru = false → g'.collector = none) ∧
    (f.ru = true → ∃ c, g'.collector = some c ∧ c.a = f.a ∧ c.af = f.af ∧ c.extent = extent ∧ c.cv = n ∧
      ∀ r, isMember g n r = true → ∀ m < extent, rowWord g' 0 r m = rowWord g f.a.toNat r m)

/-- The rows that the collector keeps serve this product (09 R215). -/
def RowsServe (g : Group) (n : Nat) (f : FmtMX) (extent : Nat) : Prop :=
  ∀ c, g.collector = some c → c.a = f.a ∧ c.af = f.af ∧ c.extent = extent ∧ c.cv = n

/-- The registers a product reads: its accumulators, and its rows unless the collector keeps them. -/
def productRegs (g : Group) (f : FmtMX) (accs extent : Nat) : List Nat :=
  regsFrom f.d.toNat accs ++ if g.collector.isSome then [] else regsFrom f.a.toNat extent

/-- A sparse pattern (09 R218): the size of its groups, how many values of a group are kept, and the registers of kept values. -/
def pattern (pt : BitVec 2) : Nat × Nat × Nat := if pt = 0 then (4, 2, 16) else if pt = 1 then (4, 1, 8) else (8, 4, 16)

/-- The registers of the nibbles of a sparse row. -/
def nibbleRegs (f : FmtMX) : Nat := (pattern f.pt).2.2 * 4 / actBytes f.af.toNat / 8

/-- The nibble of kept value `i` of member `r`: the registers of nibbles follow those of values (09 R218). -/
def nibbleOf (g : Group) (f : FmtMX) (r i : Nat) : Nat :=
  (g.word (some r) (f.a.toNat + (pattern f.pt).2.2 + i / 8)).toNat / 2 ^ (4 * (i % 8)) % 16

/-- The element at logical position `k` of a sparse row; none where no kept value names it. -/
def sparseElem (g : Group) (f : FmtMX) (r k : Nat) : Option Nat :=
  let (size, keep, _) := pattern f.pt
  ((List.range keep).find? fun i => nibbleOf g f r (k / size * keep + i) == k % size).map fun i =>
    elemOf f.af.toNat (fun m => g.word (some r) (f.a.toNat + m)) (k / size * keep + i)

end Sys2Proof.Claims

/-- 09 R204 to R210: `mwl` takes its place in the order of its slice, and counts in me; `mswap` exchanges the latches, in its
place in that order. -/
def Sys2Proof.Claims.TilesAndLatches : Prop :=
  (∀ f s k g,
    let x := g.issue (.mwl f)
    let h0 := g.word none f.a.toNat
    let h1 := g.word none (f.a.toNat + 1)
    let h := tileHdr h1
    let c := capAt g none f.d
    let base := if h.src = 1 then (c.addr + h0.toNat) % 2 ^ 48 else h0.toNat
    let lim := s.localLimits k.launch k.block
    let arr := if f.ar then 1 else 0
    Issues (.mwl f) s k g → CleanSources (.mwl f) g → g.count .me < 63 → (h.fmt = 5 → s.accepted 5 = true) →
    badHeader h1 g.w f.d = false →
    (h.src = 1 → Allows c base (h.krows * h.cols * fmtBytes h.fmt) rightR ∧ base % 4 = 0) →
    (h.src = 0 → base % (if h.t then 1024 else 4) = 0 ∧
      ∀ q ∈ h.cells, localOk lim.1 lim.2 (h.elemAddr base q.1 q.2) (fmtBytes h.fmt) = true) →
    ∃ t g' m, Runs (.mwl f) s k t g' ∧ Retired x g g' ∧ t.mem = s.mem ∧ g'.count .me = g.count .me + 1 ∧
      t.mwls = s.mwls ++ [m] ∧ m.group = k ∧ m.core = g.core ∧ m.arr = arr ∧ m.base = g.pos * g.w ∧ m.width = g.w ∧ m.reload = none ∧
      m.src = ⟨h0, h1, c.addr, k, g.ctx⟩ ∧ .mwl m.id ∈ (t.sliceOf g' arr).order) ∧
  (∀ f s k g, Issues (.mswap f) s k g → Quiet s →
    let arr := if f.ar then 1 else 0
    let y := s.sliceOf g arr
    ∃ t g', Runs (.mswap f) s k t g' ∧ Retired (g.issue (.mswap f)) g g' ∧ t.mem = s.mem ∧
      let y' := t.sliceOf g' arr
      (y.order = [] → y'.cur = y.shadow ∧ y'.shadow = y.cur ∧ y'.order = []) ∧
      (∀ o os, y.order = o :: os → Abides o → y'.cur = y.cur ∧ y'.shadow = y.shadow ∧ ∃ id, y'.order = y.order ++ [.mswap id]))

/-- 09 R210, R212, R215 to R219, R221: the members of a queued product go on when it issues, once for the group: each accumulator
gains, column by column, the sum of products of its row with the latched tile, times the column's scale; `mma.split` adds the
second half of its row with array 1; `mma.s` spreads its row over both latches by its nibbles; `mma.d` gains dX and dW from one
tile, without scales; and `mscl` sets the scales of its members' columns. -/
def Obligations.MatrixProducts : Prop :=
  (∀ s k g n f tl, s.group? k = some g → Quiet s → f.pt = 0 →
    ProductReady s g n (.mma f) (Passable s) (productRegs g f g.w 16) → RowsServe g n f 16 →
    (s.sliceOf g (if f.ar then 1 else 0)).cur = some tl → f.af.toNat < 5 → pairLegal tl.fmt f.af.toNat = true →
    Multiplies s k g n f g.w 16 fun j r =>
      gained tl.fmt f.af.toNat (depth tl.fmt)
        (fun q => if isMember g n r then some (elemOf f.af.toNat (rowWord g f.a.toNat r) q) else none)
        (fun q => tileElem tl q j) (scaleOf s g (if f.ar then 1 else 0) j) (g.word (some j) (f.d.toNat + r))) ∧
  (∀ s k g n f rest, s.group? k = some g → Quiet s → (g.cv n).op = some (.mscl f) → (g.cv n).queued = true →
    (s.sliceOf g (if f.ar then 1 else 0)).order = .product k n :: rest → (∀ o ∈ rest, o ≠ .product k n) →
    (∀ o os, rest = o :: os → Abides o) → (∃ pc, ∀ q ∈ (g.cv n).signed, q.2 = pc) →
    ((g.cv n).signed.map (·.1)).Nodup →
    (∀ q ∈ (g.cv n).signed, (g.reg? (some q.1) f.a.toNat).isSome = true ∧ g.runWrites (some q.1) f.a.toNat = []) →
    ∃ t g', exec (.matrixIssue k n) s = .next t ∧ t.group? k = some g' ∧
      (∀ l y, g'.lane? l = some y → y.park ≠ some (.cv n)) ∧
      ∀ q ∈ (g.cv n).signed, q.1 < (s.sliceOf g (if f.ar then 1 else 0)).scales.length →
        ((t.sliceOf g' (if f.ar then 1 else 0)).scales[q.1]?).map (·.val) = some (g.word (some q.1) f.a.toNat)) ∧
  (∀ s k g n f t0 t1, s.group? k = some g → Quiet s → f.pt = 1 →
    ProductReady s g n (.mma f) (Passable s) (productRegs g f g.w 32) → RowsServe g n f 32 →
    (s.sliceOf g 0).cur = some t0 → (s.sliceOf g 1).cur = some t1 → t1.fmt = t0.fmt → f.af.toNat < 5 →
    pairLegal t0.fmt f.af.toNat = true →
    Multiplies s k g n f g.w 32 fun j r =>
      let part (arr : Nat) (t : Tile) (acc : Word) : Word := gained t.fmt f.af.toNat (depth t.fmt)
        (fun q => if isMember g n r then some (elemOf f.af.toNat (fun m => rowWord g f.a.toNat r (16 * arr + m)) q) else none)
        (fun q => tileElem t q j) (scaleOf s g arr j) acc
      part 1 t1 (part 0 t0 (g.word (some j) (f.d.toNat + r)))) ∧
  (∀ s k g n f t0 t1,
    let arr := if f.ar then 1 else 0
    let size := (pattern f.pt).1
    let keep := (pattern f.pt).2.1
    let values := (pattern f.pt).2.2
    let extent := values + nibbleRegs f
    let kept := values * 4 / actBytes f.af.toNat
    s.group? k = some g → Quiet s → f.pt.toNat < 3 → g.collector = none →
    ProductReady s g n (.mmaS f) (fun o => Passable s o ∧ ∀ id, o ≠ .mwl id) (productRegs g f g.w extent) →
    (s.sliceOf g arr).cur = some t0 → (s.sliceOf g arr).shadow = some t1 → t1.fmt = t0.fmt → f.af.toNat < 5 →
    pairLegal t0.fmt f.af.toNat = true →
    (∀ q ∈ (g.cv n).signed, ∀ i < kept, nibbleOf g f q.1 i < size ∧
      (i % keep ≠ 0 → nibbleOf g f q.1 (i - 1) < nibbleOf g f q.1 i)) →
    Multiplies s k g n f g.w extent fun j r =>
      gained t0.fmt f.af.toNat (2 * depth t0.fmt) (fun q => if isMember g n r then sparseElem g f r q else none)
        (fun q => if q < depth t0.fmt then tileElem t0 q j else tileElem t1 (q - depth t0.fmt) j)
        (scaleOf s g arr j) (g.word (some j) (f.d.toNat + r))) ∧
  (∀ s k g n f tl,
    let m := (2 * g.w + 3) / 4
    s.group? k = some g → Quiet s → g.collector = none → f.ru = false → g.w ≤ 32 →
    ProductReady s g n (.mmaD f) (fun o => ∀ id, o ≠ .mswap id ∧ o ≠ .reload id)
      (regsFrom f.d.toNat (2 * g.w) ++ regsFrom f.a.toNat m ++ regsFrom (f.a.toNat + 16) m) →
    (s.sliceOf g (if f.ar then 1 else 0)).cur = some tl → tl.krows = g.w → tl.cols = g.w → tl.fmt = f.af.toNat → tl.fmt ≤ 1 →
    Multiplies s k g n f (2 * g.w) 32 fun j r =>
      let row (base o : Nat) (q : Nat) : Option Nat :=
        if q < g.w ∧ isMember g n o then some (elemOf f.af.toNat (fun z => g.word (some o) (base + z)) q) else none
      let acc := g.word (some j) (f.d.toNat + r)
      if r < g.w then
        gained tl.fmt f.af.toNat g.w (row f.a.toNat r) (fun q => if q < g.w then tileElem tl j q else none) 0x3F800000 acc
      else
        gained tl.fmt f.af.toNat g.w (row (f.a.toNat + 16) (r - g.w)) (fun q => if q < g.w then tileElem tl q j else none)
          0x3F800000 acc)

/-- 09 R206, R207, R210: an `mwl` whose turn in its slice's order has come, with its group's older local writes performed, writes
its tile, read from local memory, into the shadow latch, and leaves me. -/
def Sys2Proof.Claims.LatchWritesItsTile : Prop :=
  ∀ s g b (m : MwlOp) rest,
    let h := tileHdr m.src.hdr1
    s.mwls.find? (fun y => y.id == m.id) = some m → s.group? m.group = some g → g.core = m.core → m.base = g.pos * g.w → m.width = g.w →
    m.reload = none → (∀ id ∈ m.behind, (∀ r ∈ (s.core m.core).hold, r.id ≠ id) ∧ ∀ i ∈ s.inflight, i.id ≠ id) →
    h.src = 0 → h.t = false → s.blockOf m.group = some b → s.localTested m.core = false → Quiet s →
    (∀ q ∈ h.cells, ∃ off, placeOf b m.core (h.elemAddr m.src.hdr0.toNat q.1 q.2) = .localMem off false) →
    (s.sliceOf g m.arr).order = .mwl m.id :: rest → (∀ o ∈ rest, o ≠ .mwl m.id) → (∀ o os, rest = o :: os → Abides o) →
    ∃ t g', exec (.mwlLatchWrite m.id) s = .next t ∧ t.group? m.group = some g' ∧ t.mem = s.mem ∧
      (∀ y ∈ t.mwls, y.id ≠ m.id) ∧ (t.sliceOf g' m.arr).order = rest ∧
      (t.sliceOf g' m.arr).cur = (s.sliceOf g m.arr).cur ∧
      ∃ tl, (t.sliceOf g' m.arr).shadow = some tl ∧ tl.fmt = h.fmt ∧ tl.krows = h.krows ∧ tl.cols = h.cols ∧
        ∀ r c off, r < h.krows → c < h.cols →
          placeOf b m.core (h.elemAddr m.src.hdr0.toNat r c) = .localMem off false →
          tl.elems[r * h.cols + c]? = some (BitVec.ofNat 32 (bytesNat
            ((List.range (fmtBytes h.fmt)).map fun j => cellsRead b.mem.cells (off + j))))

/-- 09 R204 to R210: `mwl`, `mswap`, and the write of a tile into the shadow latch. -/
def Obligations.TilesAndLatchWrites : Prop := TilesAndLatches ∧ LatchWritesItsTile

/-! ### Barriers, queues, the reduction unit -/

namespace Sys2Proof.Claims

/-- Every live fibre of the group is parked at barrier `b`, and there is one (10 R241). -/
def AllAt (g : Group) (b : BarKey) (amber : Bool) (pc : Word) (count : Option Word) : Prop :=
  g.liveLanes ≠ [] ∧ ∀ l ∈ g.liveLanes, (g.lane? l).map (·.park) = some (some (.barrier b amber pc count))

/-- A barrier object of the group's block: 16 bytes of its local memory, aligned, in no skew view (10 R243). -/
def ObjectAt (s : State) (k : GKey) (a : Nat) : Prop :=
  localOk (s.localLimits k.launch k.block).1 (s.localLimits k.launch k.block).2 a 16 = true ∧ a % 16 = 0 ∧
    a.testBit 31 = false

/-- `baro.arrive` and `baro.aw` park their fibres; the arrival, with the address and the fault bits of MSR under bit 0 of ID,
goes to the hold queue at once where the group has no write left to be acknowledged (10 R244, 19 R381). -/
def ArrivesAtObject (i : Instr) (f : FmtE) (returns : Bool) : Prop :=
  ∀ s k g, Issues i s k g → CleanSources i g → Forward s g → Quiet s → g.fails = [] → ObjectAt s k (g.word none f.a.toNat).toNat →
    ∃ t g', Runs i s k t g' ∧ Retired (g.issue i) g g' ∧ t.mem = s.mem ∧ t.blocks = s.blocks ∧ Parks (g.issue i) g' ∧
      (returns = true → Awaited g' none f.b.toNat) ∧
      (g.count .st = 0 → (∀ y ∈ s.inflight, y.core ≠ g.core) → s.fabric.remote = [] → Queues s t k g
        (.unit i [⟨g.word none f.a.toNat, false⟩, ⟨0, false⟩,
          ⟨if f.id.getLsbD 0 then g.msr &&& 0xF else 0, false⟩] []))

/-- A contribution to the reduction unit counts in ke, and waits in the hold queue with s(A), s(A+1), s(A+2) and the value B
of every lane (11 R266, 05 R128). -/
def Contributes (i : Instr) (f : FmtE) : Prop :=
  ∀ s k g b, Issues i s k g → CleanSources i g → Forward s g → SourceFresh g f.b → g.count .ke < 63 → s.bandOf k = some b →
    b.cru = true → (∀ j < g.w, ∀ y, g.lane? j = some y → y.status ≠ .free → (g.reg? (some j) f.b.toNat).isSome = true) →
    ∃ t g' r lanes, Runs i s k t g' ∧ Retired (g.issue i) g g' ∧ t.mem = s.mem ∧ g'.count .ke = g.count .ke + 1 ∧
      (t.core g.core).hold = (s.core g.core).hold ++ [r] ∧ r.group = k ∧ r.seq = g.seq + 1 ∧
      r.body = .unit i ((List.range 3).map fun j => ⟨g.word none (f.a.toNat + j), false⟩) lanes ∧
      lanes.map (fun q => (q.1, q.2.val)) = (List.range g.w).map fun l => (l, supplied g f.b l)

/-- An engine's gather begins: the descriptor that its capability names was read whole, and its command, which holds a
reference on the key slot, moves row after row (16 R336, R337). -/
def Gathers (i : Instr) (f : FmtE) (form : GatherForm) (sound : State → Engine → SeqDesc → Nat → Nat → Nat → Prop) : Prop :=
  ∀ s id e key,
    let c := Cap.ofVal ⟨quadAt e.word f.a.toNat, e.s.tag (f.a.toNat - 96), false⟩
    let q := SeqDesc.ofBytes ((List.range 32).map fun j => s.mem.read (key + j))
    let first := (e.word (f.a.toNat + 4)).toNat
    let n := (e.word (f.a.toNat + 5)).toNat
    let a := (e.word (f.a.toNat + 6)).toNat
    let tok := Cap.ofVal ⟨quadAt e.word f.b.toNat, e.s.tag (f.b.toNat - 96), false⟩
    EngineIssues i s id e → CleanEngine e → e.redo = [] → Allows c c.addr 32 (rightR ||| rightM) → c.addr % 32 = 0 →
    Mapped s e.die e.ctx c.addr {} key → keyTier key ≤ 1 → s.stalls none key 32 = false → s.mem.poisonedN key 32 = false → q.ok = true →
    (form ≠ .purge → ∃ y, s.liveKey q e.ctx = some y) → sound s e q first n a →
    (f.id.getLsbD 0 = true → Allows tok tok.addr 8 (rightA ||| rightR ||| rightW) ∧ tok.addr % 8 = 0) →
    ∃ t e' y, exec i s = .next t ∧ t.engine? id = some e' ∧ t.mem = s.mem ∧ e'.pc = e.pc + 4 ∧ e'.cmds = e.cmds ++ [y.id] ∧
      t.gathers = s.gathers ++ [y] ∧ y.form = form ∧ y.seq = q.seq ∧ y.stream = q.stream ∧ y.kslot = q.kslot ∧
      y.table = q.table ∧ y.pool = q.pool ∧ y.rowb = q.rowb ∧ y.ntok = q.ntok ∧ y.nblk = q.nblk ∧ y.k = 0 ∧
      y.token = (if f.id.getLsbD 0 then some tok.addr else none) ∧
      (form ≠ .purge → y.t0 = first ∧ y.n = n ∧ y.laddr = a ∧
        ∀ z ∈ t.cp.keys, z.n = q.kslot → y.id ∈ z.refs) ∧
      (form = .purge → y.n = 0 ∧ ∀ core, core < 256 → core ∉ s.repair.cores → core / 4 ∉ s.repair.clusters → core ∈ y.acks)

/-- A range of `n` bytes at `a` of the local memory of the block that started the program. -/
def EngineLocal (s : State) (e : Engine) (a n : Nat) : Prop :=
  localOk (s.localLimits e.group.launch e.group.block).1 (s.localLimits e.group.launch e.group.block).2 a n = true

/-- The rows of a gather lie at a granule of local memory, in no skew view, and are at most 4,096. -/
def RowsOk (s : State) (e : Engine) (q : SeqDesc) (n a : Nat) : Prop :=
  n ≤ 4096 ∧ a % 16 = 0 ∧ a.testBit 31 = false ∧ EngineLocal s e a (n * q.rowb)

/-- The keys of a stream rise strictly. -/
def Sorted (xs : List MergeElem) : Prop := xs.Pairwise fun a b => a.key < b.key

/-- The element of a stream with a key. -/
def withKey (xs : List MergeElem) (n : Nat) : Option MergeElem := xs.find? fun x => x.key == n

end Sys2Proof.Claims

/-- 10 R240, R241, 11 R272: `bar` and `tbar` park the fibres of the issuing set at their barrier. -/
def Sys2Proof.Claims.BarriersPark : Prop :=
  (∀ f s k g b, Issues (.bar f) s k g → CleanSources (.bar f) g → s.blockOf k = some b →
    ∃ t g', Runs (.bar f) s k t g' ∧ Retired (g.issue (.bar f)) g g' ∧ DeviceKept s t ∧
      ∀ l ∈ (g.issue (.bar f)).issuing, (g'.lane? l).map (·.park) = some (some (.barrier
        (if f.cls.getLsbD 0 then .band k.launch b.band f.id.toNat else .block k.launch k.block f.id.toNat)
        (f.cls.getLsbD 1) (g.issue (.bar f)).pc
        (if f.cls.getLsbD 2 then some (g.word none f.a.toNat) else none)))) ∧
  (∀ f s k g l,
    let n := (if f.cls.getLsbD 0 then 16 else 0) + f.id.toNat
    Issues (.tbar f) s k g → s.launch? k.launch = some l → (∃ y ∈ l.trees, y.n = n) →
    ∃ t g', Runs (.tbar f) s k t g' ∧ Retired (g.issue (.tbar f)) g g' ∧ DeviceKept s t ∧
      ∀ m ∈ (g.issue (.tbar f)).issuing, (g'.lane? m).map (·.park) =
        some (some (.barrier (.tree k.launch n) false (g.issue (.tbar f)).pc none)))

/-- 10 R241, R242, 11 R272, 12 R280: a group arrives once all its fibres stand at one barrier: its release begins, and when
what left the core before it is acknowledged the arrival goes to the hold queue. When every group that takes part has
arrived the phase advances, and the waiters go on after an acquire. -/
def Sys2Proof.Claims.BarriersRelease : Prop :=
  (∀ s k g b amber pc count, s.group? k = some g → AllAt g b amber pc count → g.pend = [] →
    (∀ r ∈ (s.core g.core).hold, r.group ≠ k) → k ∉ (s.barState b).arrived → Forward s g →
    ∃ t g' op, exec (.barGroupArrive k) s = .next t ∧ t.group? k = some g' ∧ t.mem = s.mem ∧ g'.pend = [op] ∧
      op.lanes = 0 ∧ op.instr = arrivalWord b amber count.isSome ∧ op.args = count.toList ∧ g'.lanes = g.lanes ∧
      ∀ n, n ∈ op.acks ↔ (∃ y ∈ s.inflight, y.core = g.core ∧ y.id = n) ∨
        ∃ y ∈ s.fabric.remote, ∃ q, y.for' = .req q ∧ q.src = .core g.core ∧ q.id = n) ∧
  (∀ s k g b pc count op, s.group? k = some g → AllAt g b false pc count → g.pend = [op] →
    op.instr = arrivalWord b false count.isSome → g.count .st = 0 → (∀ y ∈ s.inflight, y.id ∉ op.acks) →
    s.fabric.remote = [] → g.fails = [] → g.fabFails = [] → (∀ h ∈ s.groups, h.key ≠ k → h.pend = []) →
    (∀ p ∈ (s.core g.core).left, p.1 = k → p.2.1 ≠ op.seq) →
    ∃ t g' r, exec (.barGroupArrive k) s = .next t ∧ t.group? k = some g' ∧ t.mem = s.mem ∧ g'.pend = [] ∧
      (t.core g.core).hold = (s.core g.core).hold ++ [r] ∧ r.group = k ∧ r.seq = op.seq ∧
      r.body = .unit op.instr (op.args.map fun w => ⟨w, false⟩) []) ∧
  (∀ s b, (∀ l n, b ≠ .tree l n) → (s.barState b).arrived ≠ [] → (s.barState b).count = none → Still s →
    (∀ h ∈ s.groups, s.participates b h.key = true → h.key ∈ (s.barState b).arrived) →
    (∀ k ∈ (s.barState b).arrived, ∀ g, s.group? k = some g → ∃ amber pc count, AllAt g b amber pc count) →
    ∃ t, exec (.barComplete b) s = .next t ∧ t.mem = s.mem ∧ (t.barState b).arrived = [] ∧
      (t.barState b).phase = ((s.barState b).phase + 1) % 2 ^ 32 ∧
      ∀ k ∈ (s.barState b).arrived, ∀ g, s.group? k = some g → (t.core g.core).l1 = [] ∧
        ∃ g', t.group? k = some g' ∧ ∀ l ∈ g.liveLanes, (g'.lane? l).map (·.park) = some none) ∧
  (∀ s id n l y, s.launch? id = some l → l.state = .running → l.pendingBands = [] → s.fbdOf id n = none →
    s.tree? id n = some y → y.arrived ≠ [] → Still s → (∀ h ∈ s.groups, h.key.launch = id → h.key ∈ y.arrived) →
    (∀ k ∈ y.arrived, ∀ g, s.group? k = some g → ∃ amber pc count, AllAt g (.tree id n) amber pc count) →
    ∃ t y', exec (.treeComplete id n) s = .next t ∧ t.mem = s.mem ∧ t.tree? id n = some y' ∧ y'.arrived = [] ∧
      y'.phase = (y.phase + 1) % 2 ^ 32 ∧
      ∀ k ∈ y.arrived, ∀ g, s.group? k = some g → (t.core g.core).l1 = [] ∧
        ∃ g', t.group? k = some g' ∧ ∀ m ∈ g.liveLanes, (g'.lane? m).map (·.park) = some none)

/-- 10 R240 to R242, 11 R272, 12 R280: barriers park their fibres, and release them. -/
def Obligations.BarriersParkAndRelease : Prop := BarriersPark ∧ BarriersRelease

/-- 10 R243, R244: the words on barrier objects: `init` in the core's own local memory writes the 16 bytes EXPECT, STATUS 0,
PENDING, PHASE 0; an arrival is released first; `wait` goes on, after an acquire, once the phase is no longer the one it
names. And the step that an arrival takes on an object. -/
def Obligations.BarrierObjects : Prop :=
  (∀ f s k g b off,
    let n := g.word none f.b.toNat
    Issues (.baroInit f) s k g → CleanSources (.baroInit f) g → Still s → ObjectAt s k (g.word none f.a.toNat).toNat →
    1 ≤ n.toNat → n.toNat ≤ 65535 → s.blockOf k = some b → s.localTested g.core = false →
    placeOf b g.core (g.word none f.a.toNat).toNat = .localMem off false →
    ∃ t g' b', Runs (.baroInit f) s k t g' ∧ Retired (g.issue (.baroInit f)) g g' ∧ t.mem = s.mem ∧
      t.blockOf k = some b' ∧ ∀ a, cellsRead b'.mem.cells a =
        if off ≤ a ∧ a < off + 16 then bitsOf (n ++ (0 : Word) ++ n ++ (0 : Word)) (8 * (a - off)) 8
        else cellsRead b.mem.cells a) ∧
  (∀ f, ArrivesAtObject (.baroArrive f) f true) ∧ (∀ f, ArrivesAtObject (.baroAw f) f false) ∧
  (∀ f s k g b off, Issues (.baroWait f) s k g → CleanSources (.baroWait f) g → Quiet s → g.handler = false →
    ObjectAt s k (g.word none f.a.toNat).toNat → s.blockOf k = some b → s.localTested g.core = false →
    placeOf b g.core (g.word none f.a.toNat).toNat = .localMem off false →
    if bytesNat ((List.range 4).map fun j => cellsRead b.mem.cells (off + j)) = (g.word none f.b.toNat).toNat then
      Waits (.baroWait f) s k g
    else Acquires (.baroWait f) s k g) ∧
  (∀ (phase pending status expect : Word) (mst : BitVec 4),
    baroArrive (expect ++ status ++ pending ++ phase) mst = (phase,
      if pending = 1 then expect ++ (status ||| mst.setWidth 32) ++ expect ++ (phase + 1)
      else expect ++ (status ||| mst.setWidth 32) ++ (pending - 1) ++ phase))

/-- 16 R342, R343, 19 R381: the words of the compaction queue: `push` carries the lanes whose predicate held when the run
began; `pop` awaits a value for each fibre and their number; `count` reads how many entries the band has. -/
def Sys2Proof.Claims.CompactionQueueWords : Prop :=
  (∀ f s k g, Issues (.cqPush f) s k g → Forward s g → GuardClean (g.issue (.cqPush f)) g f.id.toNat →
    (∀ u ∈ (g.issue (.cqPush f)).units, ∀ r, g.reg? u f.a.toNat = some r → r.poison = false) →
    ∃ t g', Runs (.cqPush f) s k t g' ∧ Retired (g.issue (.cqPush f)) g g' ∧ t.mem = s.mem ∧ t.bands = s.bands ∧
      Queues s t k g (.unit (.cqPush f) [] (((g.issue (.cqPush f)).issuing.filter fun l =>
        (g.lane? l).any fun y => holds y.preds f.id.toNat).map fun l => (l, ⟨g.word (some l) f.a.toNat, false⟩)))) ∧
  (∀ f s k g, Issues (.cqPop f) s k g → Forward s g →
    ∃ t g', Runs (.cqPop f) s k t g' ∧ Retired (g.issue (.cqPop f)) g g' ∧ t.mem = s.mem ∧ t.bands = s.bands ∧
      (∀ l ∈ (g.issue (.cqPop f)).issuing, Awaited g' (some l) f.a.toNat) ∧ Awaited g' none f.b.toNat ∧
      Queues s t k g (.unit (.cqPop f) [] ((g.issue (.cqPop f)).issuing.map fun l => (l, ⟨0, false⟩)))) ∧
  (∀ f s k g, Issues (.cqReset f) s k g → Forward s g →
    ∃ t g', Runs (.cqReset f) s k t g' ∧ Retired (g.issue (.cqReset f)) g g' ∧ t.mem = s.mem ∧ t.bands = s.bands ∧
      Queues s t k g (.unit (.cqReset f) [] [])) ∧
  (∀ f s k g b, Issues (.cqCount f) s k g → g.redo = [] → s.bandOf k = some b →
    ∃ t g', Runs (.cqCount f) s k t g' ∧ Retired (g.issue (.cqCount f)) g g' ∧ t.mem = s.mem ∧ t.bands = s.bands ∧
      (g'.reg? none f.b.toNat).map (·.val) = some (BitVec.ofNat 32 b.cq.length))

/-- 11 R265 to R268: the words of the reduction unit; a contribution whose index is next is merged as it is taken; `get` of a
complete slot returns the maximum, the sum, the count and the error mark, and each fibre's accumulator. The model's choice: a
lane that does not issue contributes the register that its own window base names (log entry 131). -/
def Obligations.ReductionUnitWords : Prop :=
  (∀ f s k g b, Issues (.credInit f) s k g → CleanSources (.credInit f) g → Forward s g → g.count .ke < 63 →
    s.bandOf k = some b → b.cru = true → 1 ≤ (g.word none f.a.toNat).toNat → (g.word none f.a.toNat).toNat ≤ 64 →
    ∃ t g', Runs (.credInit f) s k t g' ∧ Retired (g.issue (.credInit f)) g g' ∧ t.mem = s.mem ∧
      g'.count .ke = g.count .ke + 1 ∧ Queues s t k g (.unit (.credInit f) [⟨g.word none f.a.toNat, false⟩] [])) ∧
  (∀ f, Contributes (.credTri f) f) ∧ (∀ f, Contributes (.credSum f) f) ∧
  (∀ f s k g b,
    let y := b.slot f.id.toNat
    Issues (.credGet f) s k g → s.bandOf k = some b → b.cru = true → g.redo = [] → g.handler = false →
    y.complete = true → s.credUnderway k = false → s.testing 10 b.cluster = false →
    ∃ t g', Runs (.credGet f) s k t g' ∧ Retired (g.issue (.credGet f)) g g' ∧ t.mem = s.mem ∧
      (g'.reg? none f.a.toNat).map (·.val) = some y.m.val ∧ (g'.reg? none (f.a.toNat + 1)).map (·.val) = some y.l.val ∧
      (g'.reg? none (f.a.toNat + 2)).map (·.val) = some (BitVec.ofNat 32 y.merged) ∧
      (g'.reg? none (f.a.toNat + 3)).map (·.val) = some (if y.err then 1 else 0) ∧
      ∀ l ∈ (g.issue (.credGet f)).issuing, l < 64 → (g'.lane? l).map (·.park) = some none ∧
        (g'.reg? (some l) f.b.toNat).map (·.val) = some ((y.acc[l]?.getD ⟨0, false⟩).val)) ∧
  (∀ s r f b args lanes, (s.homes.find? fun y => y.id == r.id && decide (256 ≤ y.home)) = some r →
    (s.homes.find? fun y => y.home == r.home && y.group == r.group) = some r → r.body = .unit (.credInit f) args lanes →
    s.bandOf r.group = some b → Quiet s → (b.slots.any fun y => y.id == f.id.toNat) = true →
    ∃ t b', exec (.cruRecord r.id) s = .next t ∧ t.bandOf r.group = some b' ∧ (∀ y ∈ t.homes, y.id ≠ r.id) ∧
      b'.slot f.id.toNat = CruSlot.fresh f.id.toNat (args.head?.elim 0 (·.val.toNat))) ∧
  (∀ (s : State) (r : HomeReq) (f : FmtE) (b : Band) (args : List Reg) (lanes : List (Nat × Reg)) (c : Contrib),
    let y := b.slot f.id.toNat
    (s.homes.find? fun q => q.id == r.id && decide (256 ≤ q.home)) = some r →
    (s.homes.find? fun q => q.home == r.home && q.group == r.group) = some r →
    r.body = .unit (.credTri f) args lanes → s.bandOf r.group = some b → Quiet s →
    (b.slots.any fun q => q.id == f.id.toNat) = true → b.buffered = [] → y.complete = false → y.mode ≠ some true →
    c.slot = f.id.toNat → c.k = (args[2]?.getD (⟨0, false⟩ : Reg)).val.toNat → c.sum = false → c.m = args[0]?.getD ⟨0, false⟩ →
    c.l = args[1]?.getD ⟨0, false⟩ → c.acc = lanes.map (·.2) → c.k = y.merged → c.k < y.n → c.k ∉ y.received →
    ∃ t b', exec (.cruRecord r.id) s = .next t ∧ t.bandOf r.group = some b' ∧
      (b'.slot f.id.toNat).merged = y.merged + 1 ∧ ((b'.slot f.id.toNat).complete = true ↔ y.merged + 1 = y.n) ∧
      (b'.slot f.id.toNat).err = y.err ∧
      ((b'.slot f.id.toNat).m, (b'.slot f.id.toNat).l, (b'.slot f.id.toNat).acc) =
        if y.merged = 0 then c.first y.m.poison else mergeTriple false y.m y.l y.acc c)

/-- 18 R372, 16 R339: `lnch` and `seqend` name their record by its address, wait in the hold queue and then for their
answer. -/
def Sys2Proof.Claims.LaunchAndSequenceWords : Prop :=
  (∀ f s k g,
    let c := capAt g none f.a
    Issues (.lnch f) s k g → CleanSources (.lnch f) g → Forward s g → Allows c c.addr 64 (rightR ||| rightM) →
    c.addr % 64 = 0 → AsksUnit (.lnch f) s k g
      [⟨BitVec.ofNat 32 c.addr, false⟩, ⟨BitVec.ofNat 32 (c.addr / 2 ^ 32), false⟩]) ∧
  (∀ f s k g,
    let c := capAt g none f.a
    Issues (.seqend f) s k g → CleanSources (.seqend f) g → Forward s g → Allows c c.addr 32 (rightR ||| rightM) →
    c.addr % 32 = 0 → AsksUnit (.seqend f) s k g
      [⟨BitVec.ofNat 32 c.addr, false⟩, ⟨BitVec.ofNat 32 (c.addr / 2 ^ 32), false⟩])

/-- 16 R336, R337: the gather words start their commands. -/
def Sys2Proof.Claims.GathersStart : Prop :=
  (∀ f, Gathers (.egkvLd f) f .ld fun s e q first n a => RowsOk s e q n a ∧ first + n ≤ q.ntok) ∧
  (∀ f, Gathers (.egkvLdx f) f .ldx fun s e q first n a => RowsOk s e q n a ∧ first % 4 = 0 ∧ EngineLocal s e first (4 * n)) ∧
  (∀ f, Gathers (.egkvSt f) f .st fun s e q first n a => RowsOk s e q n a ∧ first + n ≤ 16 * q.nblk) ∧
  (∀ f, Gathers (.egkvPurge f) f .purge fun _ _ _ _ _ _ => True)

/-- 16 R336, R337, R339, R342, R343, 18 R372, 19 R381: the words of the compaction queue, of launches and of sequences. -/
def Obligations.QueuedUnitWords : Prop := CompactionQueueWords ∧ LaunchAndSequenceWords ∧ GathersStart

/-- 16 R344, R345: `emerge` of two streams whose keys rise strictly: the intersection holds the products of the values of the
keys of both, the union the values of the keys of either, summed where both have one, in rising order, each rounded; and the
word leaves how many elements there are in s(A+6). -/
def Obligations.MergeOfSortedStreams : Prop :=
  (∀ (union dup : Bool) cap (xs ys : List MergeElem), Sorted xs → Sorted ys →
    (∀ n, withKey xs n ≠ none ∨ withKey ys n ≠ none → n < 2 ^ 32) → xs.length + ys.length ≤ cap →
    let r := mergeRun union dup cap (fun _ => none) (fun _ => none) (xs.length + ys.length + 1) 0 0 xs ys []
    r.code = 1 ∧ Sorted r.out ∧ ∀ n, withKey r.out n =
      match withKey xs n, withKey ys n with
      | some x, some y => some ⟨n, mergeRound (if union then mergeAdd x.val y.val else mergeMul x.val y.val), x.poison || y.poison⟩
      | some x, none => if union then some { x with val := mergeRound x.val } else none
      | none, some y => if union then some { y with val := mergeRound y.val } else none
      | none, none => none) ∧
  (∀ f s id e b xs ys,
    let r (k : Nat) : Nat := (e.word (f.a.toNat + k)).toNat
    let m := mergeRun (f.cls == 1) (f.id.getLsbD 1) (r 5) (mergeMeets (r 0) (r 1) (r 4)) (mergeMeets (r 2) (r 3) (r 4)) (xs.length + ys.length + 1) 0 0 xs ys []
    EngineIssues (.emerge f) s id e → CleanEngine e → f.id.getLsbD 0 = false → s.blockOf e.group = some b → Still s → NoWaitt s →
    (∀ j, j = 0 ∨ j = 2 ∨ j = 4 → EngineLocal s e (r j) (8 * r (j + 1)) ∧ r j % 8 = 0 ∧ (r j).testBit 31 = false) →
    s.mergeStream b e.core (r 0) (r 1) = some xs → s.mergeStream b e.core (r 2) (r 3) = some ys → m.code = 1 →
    ∃ t e', exec (.emerge f) s = .next t ∧ t.engine? id = some e' ∧ t.mem = s.mem ∧ e'.pc = e.pc + 4 ∧
      e'.word (f.a.toNat + 6) = BitVec.ofNat 32 m.out.length ∧ e'.cmds = e.cmds)

/-! ### The driver, boot and power -/

namespace Sys2Proof.Claims

/-- The state becomes `u`, and words held back are tried again. -/
def Becomes (i : Instr) (s u : State) : Prop := exec i s = .next u.releaseHeld

/-- The event leads to a next state of which `p` holds. -/
def Happens (i : Instr) (s : State) (p : State → Prop) : Prop := ∃ t, exec i s = .next t ∧ p t

/-- A write of a register of aperture 0 takes effect. -/
def Writes (s : State) (offset : Nat) (v : BitVec 64) (u : State) : Prop := Becomes (.registerWrite 0 offset v) s u

/-- The device answers at its registers (20 R408, R414). -/
def Answering (s : State) : Prop := s.dev.pwr ≠ 3 ∧ s.dev.bstate ≠ 7

/-- A driver's command has been written and waits to be performed (20 R406). -/
def Commanded (s : State) (op : Nat) : Prop := s.cp.status = 1 ∧ s.cp.op = op

/-- The operand `n` of a driver's command. -/
def operand (s : State) (n : Nat) : Nat := (s.cp.cmd[n]?.getD 0).toNat

/-- The eviction that a write of EVREQ asks for (20 R405). -/
def asked (v : BitVec 32) (now : Nat) : Eviction :=
  { neigh := (bitsOf v 0 12).toNat, grace := (bitsOf v 16 5).toNat, force := bitOf v 24, node := none, phase := .stop,
    since := now, expired := false, partners := [] }

/-- A driver's command ends with success, or refused for a reason. -/
def Ended (t : State) (reason : Nat) : Prop := t.cp.status = (if reason = 0 then 2 else 3) ∧ t.cp.result = reason

end Sys2Proof.Claims

/-- 18 R351, R352, 15 R305: what a write of a queue's or a range's registers leaves. QTAIL takes a tail that the ring can hold
and no other; QCFG takes EN alone while EN is 1, else its fields, and a size from 4 to 12; a range register is written
unless the ranges would break their limits. -/
def Sys2Proof.Claims.QueueAndRangeRegisterWrites : Prop :=
  (∀ s q v, s.dev.bstate = 5 → q < 64 → (s.queue q).src = false → Happens (.qtailWrite q v) s fun t =>
    t.groups = s.groups ∧ t.dev = s.dev ∧ (∀ r, r ≠ q → t.queue r = s.queue r) ∧
    t.queue q = if (bitsOf v 0 32 - (s.queue q).head).toNat ≤ 2 ^ (bitsOf (s.queue q).cfg 55 4).toNat then
      { s.queue q with tail := bitsOf v 0 32 } else s.queue q) ∧
  (∀ s q v, s.dev.bstate = 5 → q < 64 → Happens (.qcfgWrite q v) s fun t =>
    let c := (s.queue q).cfg
    let d := (t.queue q).cfg
    t.groups = s.groups ∧ t.mem = s.mem ∧ (∀ r, r ≠ q → t.queue r = s.queue r) ∧ t.queue q = { s.queue q with cfg := d } ∧
    bitOf d 63 = bitOf v 63 ∧
    if bitOf c 63 then ∀ j < 63, d.getLsbD j = c.getLsbD j
    else bitsOf d 59 4 = bitsOf v 59 4 ∧ bitsOf d 44 11 = bitsOf v 44 11 ∧
      bitsOf d 55 4 = if 4 ≤ (bitsOf v 55 4).toNat ∧ (bitsOf v 55 4).toNat ≤ 12 then bitsOf v 55 4 else bitsOf c 55 4) ∧
  (∀ s die n lim v, Answering s → die < s.dies.length → die < 4 → n < 8 → Happens (.lrangeWrite die n lim v) s fun t =>
    let d := s.die die
    let ctl := d.lctl.set n (if lim then d.lctl[n]?.getD 0 else lrCtl (d.lctl[n]?.getD 0) v)
    let lm := d.llim.set n (if lim then v &&& 0x000FFFFFFFFF0000 else d.llim[n]?.getD 0)
    t.groups = s.groups ∧
    if rangesOk (s.wayBudget die) ctl lm then (t.die die).lctl = ctl ∧ (t.die die).llim = lm ∧ t.mem = s.mem
    else (t.die die).lctl = d.lctl ∧ (t.die die).llim = d.llim)

/-- 20 R403 to R405, R409, R410, R414, 22 R423, R432: what a write of the device's other registers leaves, what the host reads,
and what it writes in memory (20 R401). -/
def Sys2Proof.Claims.DeviceRegistersAndHostAccesses : Prop :=
  (∀ s v, s.dev.bstate = 4 → s.dev.locked = false → Quiet s →
    Becomes (.facceptWrite 0 v) s
      { s with dev := { s.dev with facc := s.dev.facc.set 0 (v &&& 0x3FF), bstate := 5, locked := true } } ∧
    ∀ n, 1 ≤ n → n < 4 → Becomes (.facceptWrite n v) s { s with dev := { s.dev with facc := s.dev.facc.set n 0 } }) ∧
  (∀ s v, exec (.arbWrite v) s = .next { s with dev := { s.dev with
    fuses := if s.dev.fuses ≤ v.toNat ∧ v.toNat ≤ s.dev.svn ∧ v.toNat ≤ 64 then v.toNat else s.dev.fuses } }) ∧
  (∀ s v, exec (.fdevidWrite v) s =
    .next { s with dev := { s.dev with fdevid := if s.dev.bstate = 4 then bitsOf v 0 12 else s.dev.fdevid } }) ∧
  (∀ s n v, Answering s → n < 32 → Happens (.fbdWrite n v) s fun t =>
    let old := (lookupKey n s.dev.fbd).getD 0
    if s.cp.launches.any fun l => (l.ctx == (bitsOf old 40 11).toNat || l.ctx == (bitsOf v 40 11).toNat) &&
        l.trees.any fun y => y.n == n then t = s
    else ({ t with dev := { t.dev with fbd := s.dev.fbd } } : State) = s ∧
      ∀ m, lookupKey m t.dev.fbd = if m = n then some v else lookupKey m s.dev.fbd) ∧
  (∀ s v, Quiet s → s.dev.pwr ≠ 3 → bitOf v 8 = false → Becomes (.pwrreqWrite v) s { s with dev := { s.dev with
    pwrReq := (bitsOf v 0 2).toNat, pwrPreempt := false, pwrPend := (bitsOf v 0 2).toNat != s.dev.pwr } }) ∧
  (∀ s v l, Quiet s → bitOf v 8 = true → s.dev.pwr = 0 → (bitsOf v 0 2).toNat ≠ 0 → s.cp.launches = [l] → l.state = .running →
    l.replayDue = false → s.finished l = false → s.saveFits l = true → Happens (.pwrreqWrite v) s fun t =>
      t.dev.pwrPend = true ∧ t.cp.launches = [{ l with state := .draining, drain := some (.power, (s.die 0).clock) }]) ∧
  (∀ s v, Answering s → Quiet s →
    (∀ n < 4, Writes s (8 * n) v s) ∧
    (bitsOf v 0 32 ≠ 0 → Writes s 0x40 v { s with dev := { s.dev with linkto := bitsOf v 0 32 } } ∧
      Writes s 0x50 v { s with dev := { s.dev with flinkto := bitsOf v 0 32 } }) ∧
    Writes s 0x58 v { s with dev := { s.dev with frecvEn := bitOf v 63, frecvSrc := bitsOf v 0 12 } } ∧
    (∀ n < 8, Writes s (0x100 + 8 * n) v { s with cp := { s.cp with arg := s.cp.arg.set n v } }) ∧
    (s.cp.status = 1 → Writes s 0x140 v s) ∧
    (s.cp.status ≠ 1 → 1 ≤ (bitsOf v 0 8).toNat → (bitsOf v 0 8).toNat ≤ 7 → Writes s 0x140 v
      { s with cp := { s.cp with status := 1, result := 0, op := (bitsOf v 0 8).toNat, cmd := s.cp.arg } }) ∧
    (∀ n < 4096, Writes s (0x200000 + 8 * n) v
      { s with dev := { s.dev with froute := putKey n (bitsOf v 0 32) s.dev.froute } }) ∧
    ∀ d < 4, Writes s (0x100000 + 0x10000 * d + 0x200) v
      (s.modDie d fun y => ({ y with eqbase := v &&& 0x000FFFFFFFFF8001 } : Die))) ∧
  (∀ s d, Answering s → Quiet s → 4 ≤ s.dev.bstate → Becomes (.hostApertureAccess ⟨0, 0, 8, false, d⟩) s
    { s with free := s.free + 2, dev := { s.dev with hostReply := some (natBytes 8 0x3FF) } }) ∧
  (∀ s a, Answering s → Quiet s → NoWaitt s → a.aperture = 1 → inTier 0 a.addr a.size = true → a.write = false →
    Becomes (.hostApertureAccess a) s
      { s with dev := { s.dev with hostReply := some ((List.range a.size).map fun j => s.mem.read (a.addr + j)) } }) ∧
  (∀ s a, Answering s → Quiet s → NoWaitt s → a.aperture = 1 → inTier 0 a.addr a.size = true → a.write = true →
    a.data.length = a.size → 0 < a.size → Happens (.hostApertureAccess a) s fun t =>
      (∀ b, t.mem.read b = if a.addr ≤ b ∧ b < a.addr + a.size then a.data[b - a.addr]?.getD 0 else s.mem.read b) ∧
      ∀ b, t.mem.tag b = (s.mem.tag b && !(decide (a.addr / 16 ≤ b / 16) && decide (b / 16 ≤ (a.addr + a.size - 1) / 16)))) ∧
  (∀ s v, s.dev.bstate = 5 → s.dev.pwr ≠ 3 → Quiet s → s.dev.eviction = none → bitOf v 31 = true → bitsOf v 25 6 = 0 →
    bitsOf v 21 3 = 0 → bitsOf v 12 4 = 0 → (bitsOf v 16 5).toNat ≤ 20 → Becomes (.evreqWrite v) s
      { s with dev := { s.dev with evictBit := true, eviction := some (asked v (s.die 0).clock) } })

/-- 15 R305, 18 R351, R352, 20 R401, R403 to R405, R409, R410, R414, 22 R423, R432: the device's registers, and the host's
accesses. The model's choice: an FBD write is judged by the old and the new descriptor's context (log entry 71), a host read of
a poisoned line returns its data (106), and a driver's command takes CPARG as it starts (102). -/
def Obligations.RegisterWritesAndHostAccesses : Prop := QueueAndRangeRegisterWrites ∧ DeviceRegistersAndHostAccesses

/-- 20 R406, 16 R333, R339, 15 R321, 06 R169, 18 R374: the driver's commands, and the answers that complete them. -/
def Obligations.DriverCommands : Prop :=
  (∀ s, Commanded s 1 → Quiet s → operand s 0 ≤ 2047 → operand s 1 % 2 ^ 18 = 0 → inTier 0 (operand s 1) (2 ^ 18) = true →
    areaOk (operand s 2) (operand s 3) = true → areaOk (operand s 4) (operand s 5) = true → operand s 6 % 8192 = 0 →
    inTier 0 (operand s 6) 8192 = true → Happens .ctxcreate s fun t =>
      t.mem = s.mem ∧
      if (s.ctx? (operand s 0)).isSome then Ended t 3 ∧ t.dies = s.dies
      else Ended t 0 ∧ t.ctx? (operand s 0) = some ⟨operand s 0, operand s 1, operand s 2, operand s 3, operand s 4,
          operand s 5, operand s 6, 0⟩ ∧
        t.dies = s.dies.map fun d => ({ d with desc := putKey (operand s 0) (operand s 1) d.desc } : Die)) ∧
  (∀ s, Commanded s 2 → operand s 0 ≤ 2047 → Happens .ctxdestroy s fun t =>
    t.mem = s.mem ∧
    if (s.ctx? (operand s 0)).isSome ∧ s.ctxInUse (operand s 0) = false then
      Ended t 0 ∧ t.ctx? (operand s 0) = none ∧ ∀ d ∈ t.dies, lookupKey (operand s 0) d.desc = none ∧
        (∀ y ∈ d.tb, y.ctx ≠ operand s 0) ∧ ∀ y ∈ d.walks, y.ctx ≠ operand s 0
    else Ended t 3 ∧ t.cp.ctxs = s.cp.ctxs ∧ t.dies = s.dies) ∧
  (∀ s, Commanded s 3 → operand s 0 ≤ 4095 → operand s 1 ≤ 2047 → operand s 2 < 2 ^ 32 → Happens .seqopen s fun t =>
    t.mem = s.mem ∧
    if (∃ k ∈ s.cp.keys, k.n = operand s 0) ∨ BitVec.ofNat 32 (operand s 2) ∈ s.cp.seqsUsed ∨ s.ctx? (operand s 1) = none then
      Ended t 3 ∧ t.cp.keys = s.cp.keys
    else Ended t 0 ∧ t.cp.seqsUsed = s.cp.seqsUsed ++ [BitVec.ofNat 32 (operand s 2)] ∧ ∃ k, t.cp.keys = s.cp.keys ++ [k] ∧
      k.n = operand s 0 ∧ k.ctx = operand s 1 ∧ k.seq = BitVec.ofNat 32 (operand s 2) ∧ k.retiring = false ∧ k.refs = []) ∧
  (∀ s, Commanded s 4 → Quiet s → operand s 0 ≤ 4095 → Happens .seqclose s fun t =>
    t.mem = s.mem ∧
    if ∃ k ∈ s.cp.keys, k.n = operand s 0 ∧ k.retiring = false then
      t.cp.status = 1 ∧ (∀ k ∈ t.cp.keys, k.n = operand s 0 → k.retiring = true) ∧
      ((∀ k ∈ s.cp.keys, k.n = operand s 0 → k.refs = []) → (∀ k ∈ t.cp.keys, k.n = operand s 0 → k.k1 = 0 ∧ k.k2 = 0) ∧
        ∃ r ∈ t.cp.retires, r.slot = operand s 0 ∧ r.group = none ∧ r.purging = true)
    else Ended t 3 ∧ t.cp.keys = s.cp.keys) ∧
  (∀ s, Commanded s 5 → Quiet s → NoWaitt s → operand s 0 ≤ 2047 → operand s 1 ≤ 4095 → Happens .cancel s fun t =>
    (∀ n, s.node? ⟨operand s 0, operand s 1⟩ = some n → Ended t 0 ∧
      (n.launch.bind s.launch? = none → t.node? n.key = none) ∧
      ∀ l, n.launch.bind s.launch? = some l → t.launch? l.id = none ∧ (∀ g ∈ t.groups, g.key.launch ≠ l.id) ∧
        (l.node = n.key → t.node? n.key = none)) ∧
    (s.node? ⟨operand s 0, operand s 1⟩ = none → Ended t 3 ∧ t.cp.nodes = s.cp.nodes)) ∧
  (∀ s l, Commanded s 6 → Quiet s → s.launch? (operand s 0) = some l → l.state = .running → l.replayDue = false →
    s.finished l = false → s.saveFits l = true → Happens .preempt s fun t =>
      t.cp.status = 1 ∧ t.mem = s.mem ∧
      t.launch? (operand s 0) = some { l with state := .draining, drain := some (.driver, (s.die 0).clock) }) ∧
  (∀ s, Commanded s 262 → (∀ l, s.launch? (operand s 0) = some l → l.state ≠ .draining) → Happens .preempt s fun t =>
    Ended t 0 ∧ t.mem = s.mem ∧ t.groups = s.groups) ∧
  (∀ s, Commanded s 7 → operand s 0 ≤ 2047 → operand s 1 < 2 ^ 48 → operand s 2 ≤ 1 → Happens .inval s fun t =>
    t.mem = s.mem ∧ if (s.ctx? (operand s 0)).isSome then t.cp.status = 1 ∧ t.cp.invalAcks = [0, 1, 2, 3]
      else Ended t 3 ∧ t.cp.invalAcks = s.cp.invalAcks) ∧
  (∀ s port, port < s.dies.length → (∀ g ∈ s.groups, ∀ p ∈ g.pend, p.id ≠ 2 ^ 34) → port ∈ s.cp.invalAcks →
    Happens (.portInvalAck port (2 ^ 34)) s fun t =>
      t.mem = s.mem ∧ t.cp.invalAcks = s.cp.invalAcks.filter (· != port) ∧
      ((∀ p ∈ s.cp.invalAcks, p = port) → Ended t 0) ∧
      ∀ y ∈ (t.die port).tb, y.ctx = operand s 0 → operand s 2 = 1 ∧
        ¬ (y.page ≤ operand s 1 / 65536 * 65536 ∧ operand s 1 / 65536 * 65536 < y.page + levelSize y.level)) ∧
  (∀ s k g op port, s.group? k = some g → g.pend = [op] → port ∈ op.acks → op.lanes ≠ 0 → op.ready = false → op.dst = [] →
    (∀ h ∈ s.groups, h.key ≠ k → h.pend = []) → port < s.dies.length → g.redo = [] →
    (∀ f, op.instr = .cctlInvpt f → Happens (.portInvalAck port op.id) s fun t => t.mem = s.mem ∧
      (∀ y ∈ (t.die port).tb, y.ctx ≠ g.ctx) ∧ (∀ y ∈ (t.die port).walks, y.ctx ≠ g.ctx) ∧ ∃ g', t.group? k = some g' ∧
        if ∀ p ∈ op.acks, p = port then g'.pend = [] else (g'.pend.map (·.acks)) = [op.acks.filter (· != port)]) ∧
    (∀ f, op.instr = .pkrSet f → Happens (.pkrPortAck port op.id) s fun t => t.mem = s.mem ∧
      lookupKey g.ctx (t.die port).pkr = some (op.args[1]?.getD 0 ++ op.args[0]?.getD 0) ∧ ∃ g', t.group? k = some g' ∧
        if ∀ p ∈ op.acks, p = port then g'.pend = [] else (g'.pend.map (·.acks)) = [op.acks.filter (· != port)])) ∧
  (∀ s core id y, s.gathers.find? (fun g => g.id == id && g.acks.contains core) = some y → Happens (.btbPurgeAck core id) s fun t =>
    t.mem = s.mem ∧ t.groups = s.groups ∧ (∀ e ∈ (t.core core).btb, ¬ (e.ctx = y.ctx ∧ e.seq = y.seq ∧ e.stream = y.stream)) ∧
    ∀ g ∈ t.gathers, g.id = id → core ∉ g.acks) ∧
  (∀ s core r, Quiet s → (∀ g ∈ s.gathers, g.id ≠ r.id) →
    s.cp.retires.find? (fun y => y.id == r.id && y.purging && y.acks.contains core) = some r → Happens (.btbPurgeAck core r.id) s fun t =>
      t.mem = s.mem ∧ (∀ e ∈ (t.core core).btb, e.kslot ≠ r.slot) ∧
      (r.acks = [core] → r.group = none → Ended t 0 ∧ ∀ k ∈ t.cp.keys, k.n ≠ r.slot))

/-- 20 R408 to R412, R414, R415, 11 R261, 19 R395: reset and boot, power, and attestation. The model's choices: what power state 2,
off and a loss of power lose reads 0 (log entry 69); a reset request and the boot ROM's end are two events (70); and how the
image is verified and measured (160). -/
def Obligations.BootAndPower : Prop :=
  (∀ s fw, s.dev.bstate ≠ 1 → Happens (.powerOnReset fw) s fun t =>
    (∀ a, t.mem.read a = 0) ∧ t.groups = [] ∧ t.cp.launches = [] ∧ t.cp.nodes = [] ∧ t.cp.keys = [] ∧ t.dev.fuses = s.dev.fuses ∧
    t.dev.attIndex = s.dev.attIndex ∧ t.repair.cores = s.repair.cores ∧ t.repair.clusters = s.repair.clusters ∧
    t.dev.bstate = 1 ∧ t.dev.bcause = 0) ∧
  (∀ s ok, s.dev.bstate = 2 → Happens (.memoryTrained ok) s fun t =>
    (t.dev.bstate, t.dev.bcause) = (if ok then (3, 0) else (7, 3)) ∧
    (ok = true → (∀ a, t.mem.read a = 0) ∧ t.mem.tags = [] ∧ t.mem.poison = [] ∧
      ∀ d h, d < s.dies.length → h < 16 → ((∃ c < 16, 16 * d + c ∉ s.repair.clusters)) →
        ∃ c < 16, (t.die d).homes[h]? = some c ∧ 16 * d + c ∉ s.repair.clusters ∧
          (16 * d + h ∉ s.repair.clusters → c = h))) ∧
  (∀ s lanes, s.dev.bstate = 3 → exec (.linkTrained lanes) s = .next { s with dev := { s.dev with
    bstate := if 22 ≤ lanes then 4 else 7, bcause := if 22 ≤ lanes then 0 else 4 } }) ∧
  (∀ s, s.dev.pwrPend = true → s.dev.attStatus ≠ 1 → (s.dev.pwr = 0 → s.runningLaunches = []) → Quiet s →
    Happens .powerStateChange s fun t => t.dev.pwr = s.dev.pwrReq ∧ t.dev.pwrPend = false ∧
      (s.dev.pwrReq = 3 → t.groups = [] ∧ ∀ a, t.mem.read a = 0) ∧
      (s.dev.pwrReq = 2 → ∀ a, keyTier a = 1 → t.mem.read a = 0) ∧
      (s.dev.pwrReq = 2 → s.cp.ctxs = [] → ∀ a, keyTier a ≠ 1 → t.mem.read a = s.mem.read a) ∧
      (s.dev.pwrReq ≠ 2 → s.dev.pwrReq ≠ 3 → t.mem = s.mem)) ∧
  (∀ s on, exec (.powerCapThrottle on) s = .next { s with dev := { s.dev with throt := on } }) ∧
  (∀ s, Happens .powerLoss s fun t => (∀ a, t.mem.read a = 0) ∧ t.groups = [] ∧ t.cp.launches = [] ∧ t.cp.keys = [] ∧
    t.dev.fuses = s.dev.fuses ∧ t.dev.attIndex = s.dev.attIndex ∧ t.dev.pwr = 3) ∧
  (∀ s, s.dev.attStatus ≠ 1 → Happens .attestationRequest s fun t => t.mem = s.mem ∧ t.groups = s.groups ∧
    if 2 ^ 20 ≤ s.dev.attIndex then t.dev.attStatus = 3 ∧ t.dev.attIndex = s.dev.attIndex
    else t.dev.attStatus = 1 ∧ t.dev.attIndex = s.dev.attIndex + 1) ∧
  (∀ s, s.dev.attStatus = 1 → exec .attestationRequest s = .next s) ∧
  (∀ s reached, s.dev.attStatus = 1 → Happens (.attestationReportWritten reached) s fun t => t.mem = s.mem ∧
    if reached then t.dev.attStatus = 2 ∧ t.dev.attIndex = s.dev.attIndex ∧ t.dev.attReport.take s.dev.attReport.length = s.dev.attReport ∧
      t.dev.attReport.length = s.dev.attReport.length + 2820 ∧
      (t.fabric.sent.drop s.fabric.sent.length).flatMap (fun m => m.2.data) = t.dev.attReport ∧
      ∀ (j : Nat) m, t.fabric.sent[s.fabric.sent.length + j]? = some m → m.2.type = 3 ∧
        m.2.dst * 2 ^ 40 + m.2.addr = s.dev.attBuf.toNat + 128 * j
    else t.dev.attStatus = 4 ∧ t.dev.attIndex = s.dev.attIndex - 1) ∧
  (∀ s fw, s.dev.bstate = 1 →
    let d := if imageSigned fw.image = false then { s.dev with bstate := 7, bcause := 1 }
      else if imageSvn fw.image < s.dev.fuses then { s.dev with bstate := 7, bcause := 2 }
      else { s.dev with bstate := 2, bcause := 0, svn := imageSvn fw.image, measurement := imageMeasure fw.image }
    exec (.powerOnReset fw) s = .next { s with dev := d })

/-! ### Queues, launches and commands -/

namespace Sys2Proof.Claims

/-- Node `n` is ready, of operation `op`, and the one that the command processor starts next: of the highest priority, and
of these the first that became ready (18 R353). -/
def StartsNext (s : State) (n : Node) (op : Nat) : Prop :=
  s.dev.eviction = none ∧ s.node? n.key = some n ∧ n.state = .ready ∧ n.op = op ∧ s.waitsForWires n = false ∧
  ∀ m ∈ s.cp.nodes, m = n ∨ (m.key ≠ n.key ∧ (m.state = .ready → s.waitsForWires m = false →
    s.prioOf m < s.prioOf n ∨ (s.prioOf m = s.prioOf n ∧ n.readyNo < m.readyNo)))

/-- The 64-bit number at a key. -/
def valueAt (s : State) (key : Nat) : DWord := BitVec.ofNat 64 (bytesNat ((List.range 8).map fun j => s.mem.read (key + j)))

/-- The eight bytes at `key` are those of `v`; every other byte is as it was. -/
def Puts (s t : State) (key : Nat) (v : DWord) : Prop :=
  ∀ a, t.mem.read a = if key ≤ a ∧ a < key + 8 then bitsOf v (8 * (a - key)) 8 else s.mem.read a

/-- Token `va` of a context is translated at a port, lies in TIER 0 or 1, and no refresh and no soft instruction holds it. -/
def TokenAt (s : State) (port ctx va key : Nat) (a : Access) : Prop :=
  Mapped s port ctx va a key ∧ keyTier key ≤ 1 ∧ s.stalls none key 8 = false

/-- The command leaves its owner: a group's counter, an engine's list; a node has had its effect (10 R234, R237). -/
def Leaves (s t : State) (o : Owner) (id : Nat) : Prop :=
  (∀ k g w ws, o = .group k → s.group? k = some g → g.outst = w :: ws → w.id = id → (∀ y ∈ ws, y.done = false ∧ y.id ≠ id) →
    ∃ g', t.group? k = some g' ∧ g'.outst = ws) ∧
  (∀ e p pc x, o = .engine e p pc → s.engine? e = some x → ∃ x', t.engine? e = some x' ∧ x'.cmds = x.cmds.filter (· != id)) ∧
  (∀ k n, o = .node k → s.node? k = some n → t.node? k = some { n with state := .effectDone })

/-- A launch to place, or to place again: the device dispatches, and the plan, which binds these wires, moves no page and sets
no range register, keeps the rules of placement (18 R364 to R368). -/
def Placing (s : State) (p : PlacePlan) (c : Context) (l : Launch) (again : Bool) (trees : List Nat) : Prop :=
  s.dev.bstate = 5 ∧ s.dev.pwr = 0 ∧ s.ctx? p.node.ctx = some c ∧ p.copies = [] ∧ p.lranges = [] ∧ p.wires = s.bindWires trees ∧
  s.planOk p c l again = true ∧ s.planMoves p c l again = [] ∧ ∀ m ∈ s.cp.moving, m.launch ≠ l.id

/-- A launch that the priority rule names for one of priority `p`: it holds rows, at a priority two lower (18 R373). -/
def MayYield (s : State) (p : Nat) (l : Launch) : Prop :=
  (l.state = .running ∨ l.state = .draining) ∧ l.prio + 2 ≤ p ∧ s.saveFits l = true ∧ ∃ b ∈ s.blocks, b.launch = l.id

end Sys2Proof.Claims

/-- 18 R352, R353, R357: the queue in turn gives its head record, which enters the graph as a node; its predecessors that are
live know it. SIGNAL has its effect at once; WAIT when its token has reached the value; COPY and MSC start. -/
def Sys2Proof.Claims.QueuesGiveCommandsThatStart : Prop :=
  (∀ s q key,
    let r := s.queue q
    let a := r.recordAddr r.head
    let rec' := BitVec.ofNat 512 (bytesNat ((List.range 64).map fun j => s.mem.read (key + j)))
    let k : NKey := ⟨r.ctx, recNode rec'⟩
    let preds := (((List.range (recNpred rec')).map fun i => (⟨r.ctx, recPred rec' i⟩ : NKey)) ++
      if bitOf rec' 11 then r.last.toList else []).filter fun p => (s.node? p).isSome
    s.nextAccept = some q → s.dev.eviction = none → OnePage a 64 → Mapped s 0 r.ctx a {} key → keyTier key ≤ 1 →
    s.stalls none key 64 = false → (∀ j < 64, s.mem.poisoned (key + j) = false) → s.recordRefused rec' r.ctx false = false → (∀ o ∈ r.owners, o.1 ≠ r.head) →
    Happens (.queueAccept q) s fun t => t.mem = s.mem ∧ t.groups = s.groups ∧
      (t.queue q).head = r.head + 1 ∧ (t.queue q).tail = r.tail ∧ (t.queue q).last = some k ∧
      (∃ n, t.node? k = some n ∧ n.record = rec' ∧ n.queue = q ∧ n.index = r.head ∧ n.count = preds.length ∧ n.succs = [] ∧
        n.state = (if preds.isEmpty then NodeState.ready else NodeState.waiting) ∧
        n.launch = if recOp rec' = 1 then some s.cp.nextLaunch else none) ∧
      ∀ p ∈ preds, ∃ m, t.node? p = some m ∧ k ∈ m.succs) ∧
  (∀ s n, StartsNext s n 4 → Happens (.signal n.key) s fun t =>
    t.mem = s.mem ∧ t.groups = s.groups ∧ t.node? n.key = some { n with state := .effectDone }) ∧
  (∀ s n key,
    let va := recBytes n.record 32 8
    StartsNext s n 5 ∨ (s.node? n.key = some n ∧ n.op = 5 ∧ n.state = .running ∧ ∀ m ∈ s.cp.nodes, m.key = n.key → m = n) → TokenAt s 0 n.key.ctx va key {} →
    Happens (.wait n.key) s fun t => t.mem = s.mem ∧ t.groups = s.groups ∧ t.node? n.key =
      some { n with state := if recBytes n.record 40 8 ≤ (valueAt s key).toNat then .effectDone else .running }) ∧
  (∀ s n,
    let src := recBytes n.record 32 8
    let dst := recBytes n.record 40 8
    let len := recBytes n.record 48 8
    StartsNext s n 2 → src % 16 = 0 → dst % 16 = 0 → rangesMeet src len dst len = false →
    Happens (.copy n.key) s fun t => t.mem = s.mem ∧ t.node? n.key = some { n with state := .running } ∧
      ∃ c, t.copies = s.copies ++ [c] ∧ c.owner = .node n.key ∧ c.ctx = n.key.ctx ∧ c.src = .global src ∧ c.dst = [.global dst] ∧
        c.len = len ∧ c.readPos = 0 ∧ c.buf = [] ∧ c.writePos = 0 ∧ c.token = none) ∧
  (∀ s n,
    let target := recBytes n.record 32 8
    let source := recBytes n.record 40 8
    let w := recBytes n.record 48 4
    let ext := mscExtents (w % 4) (recBytes n.record 52 4) (recBytes n.record 56 4)
    StartsNext s n 3 → target % 4 = 0 → source % 4 = 0 → (w % 4 ≠ 0 → rangesMeet target ext.1 source ext.2 = false) →
    Happens (.msc n.key) s fun t => t.mem = s.mem ∧ t.node? n.key = some { n with state := .running } ∧
      ∃ m, t.mscs = s.mscs ++ [m] ∧ m.owner = .node n.key ∧ m.ctx = n.key.ctx ∧ m.cmd = w % 4 ∧ m.target = target ∧
        m.source = source ∧ m.p0 = BitVec.ofNat 32 (recBytes n.record 52 4) ∧ m.p1 = BitVec.ofNat 32 (recBytes n.record 56 4) ∧
        m.p2 = BitVec.ofNat 32 (recBytes n.record 60 4) ∧ m.left = true ∧ m.pos = 0)

/-- 18 R358, 12 R289: a node whose effect is complete adds to its token, and every successor's count falls; one whose count
reaches 0 is ready. A LAUNCH is complete when all that it does is. -/
def Sys2Proof.Claims.NodesComplete : Prop :=
  (∀ s n key,
    let va := recToken n.record
    let old := valueAt s key
    s.node? n.key = some n → n.state = .effectDone → n.launch.bind s.launch? = none → n.succs.Nodup → n.key ∉ n.succs → Quiet s →
    NoWaitt s → (va ≠ 0 → TokenAt s 0 n.key.ctx va key { rmw := true }) →
    Happens (.nodeComplete n.key) s fun t =>
      (va = 0 → t.mem = s.mem) ∧ (va ≠ 0 → Puts s t key (old + BitVec.ofNat 64 (recInc n.record))) ∧ t.node? n.key = none ∧
      ∀ m ∈ n.succs, ∀ x, s.node? m = some x → ∃ y, t.node? m = some y ∧ y.count = x.count - 1 ∧
        y.state = if x.count - 1 = 0 ∧ x.state = .waiting then .ready else x.state) ∧
  (∀ s n l, s.node? n.key = some n → n.state = .running → n.op = 1 → n.launch = some l.id → s.launch? l.id = some l →
    s.launchDone l = true → recToken n.record = 0 → Quiet s → NoWaitt s → Happens (.nodeComplete n.key) s fun t =>
      t.mem = s.mem ∧ t.node? n.key = none ∧ t.launch? l.id = none ∧ ∀ w ∈ t.cp.wires, w.2 ≠ l.id)

/-- 18 R352, R353, R357, R358, 12 R289: queues give nodes, which start and complete. -/
def Obligations.QueuesAndNodes : Prop := QueuesGiveCommandsThatStart ∧ NodesComplete

/-- 18 R360 to R364, R370, R375, 10 R252, R253, 01 R30: a launch is placed, its argument block written, and its blocks offered;
the loader seats a block whole, with its groups as they start; a saved launch is placed again with what was saved. -/
def Obligations.LaunchesArePlaced : Prop :=
  (∀ s p c n id d (ranges : List RangeEntry) args,
    StartsNext s n 1 → p.node = n.key → n.launch = some id → s.launch? id = none → Quiet s → NoWaitt s →
    Placing s p c (newLaunch n id (s.die 0).clock 1 (some 1) d ranges p p.wires [] (s.prioOf n)) false (recTrees n.record) →
    s.readLaunch n id = (.ok d ranges [] args, s) → (∀ r ∈ ranges, r.filled = false) → s.accepted 8 = false →
    Happens (.launch p) s fun t =>
      t.mem = (p.leaves.foldl (fun (m : Memory) q => m.putEntry q.pa q.val) s.mem).putArgs (memKey 0 p.argPa)
        (ranges.map RangeEntry.cap) args ∧
      t.node? n.key = some { n with state := .running } ∧ ∃ l, t.launch? id = some l ∧ l.state = .running ∧ l.ctx = n.key.ctx ∧
        l.code = d.code ∧ l.codeLen = d.codeLen ∧ l.entry = d.entry ∧ l.trapv = d.trapv ∧ l.w = d.w ∧ l.bfibres = d.block ∧
        l.band = d.band ∧ l.ranges = ranges ∧ l.argVa = p.argVa ∧ l.nblocks = recBytes n.record 40 4 ∧ l.attempt = 1 ∧
        l.seed = bitsOf n.record 384 64 ∧ l.pendingBands = List.range (recBytes n.record 40 4 / d.band) ∧
        l.trees.map (fun y => (y.n, y.wire)) = p.wires) ∧
  (∀ s l band q cluster,
    s.launch? l.id = some l → s.dev.bstate = 5 → s.dev.pwr = 0 → s.dev.eviction = none → l.state = .running →
    l.replayDue = false → band ∈ l.pendingBands → (l.trees = [] ∨ l.pendingBands = [band]) → s.treeTurn l = true →
    s.bandTurn l band = true → l.two = false →
    l.savedBands = [] → l.savedBlocks = [] → [q.block] = rangeFrom (band * l.band) l.band → cluster = clusterOfCore q.core →
    s.clusterFits l cluster ≠ 0 → cluster / 16 = s.dieFor l band → s.seatOk l cluster q = true → Quiet s →
    (∀ g ∈ s.groups, ¬ (g.key.launch = l.id ∧ g.key.block = q.block)) →
    (∀ b ∈ s.blocks, ¬ (b.launch = l.id ∧ b.index = q.block)) →
    Happens (.blockPlace ⟨l.id, band, [q]⟩) s fun t => t.mem = s.mem ∧
      (t.launch? l.id).map (·.pendingBands) = some (l.pendingBands.filter (· != band)) ∧
      (∃ b, t.block? l.id q.block = some b ∧ b.core = q.core ∧ b.band = band ∧ b.len = l.localLen ∧ b.groups = l.bfibres / l.w ∧
        (∀ a, cellsRead b.mem.cells a = 0) ∧ b.mem.poison = []) ∧
      ∀ idx < l.bfibres / l.w, ∃ g, t.group? ⟨l.id, q.block, idx⟩ = some g ∧ g.core = q.core ∧
        some g.row = q.rows[idx / (64 / l.w)]? ∧ g.w = l.w ∧ g.ctx = l.ctx ∧ g.lanes.length = l.w ∧ g.fpcr = 0 ∧ g.msr = 0 ∧
        g.handler = false ∧ g.outst = [] ∧ g.ub = 0 ∧
        (∀ y ∈ g.lanes, y.status = .live ∧ y.park = none ∧ y.pc = BitVec.ofNat 32 l.entry ∧ y.preds = 0xFFFF ∧ y.vb = 0 ∧
          y.fpsr = 0 ∧ y.v = ⟨[], [], []⟩) ∧
        (∀ j < 4, g.s.get? j = some ⟨bitsOf l.argCap (32 * j) 32, false⟩ ∧
          g.s.get? (4 + j) = some ⟨bitsOf (l.localDesc false) (32 * j) 32, false⟩) ∧ g.s.tag 0 = true ∧
        ∀ j, 8 ≤ j → g.s.get? j = none) ∧
  (∀ s p c n l, StartsNext s n 1 → p.node = n.key → n.launch = some l.id → s.launch? l.id = some l → l.state = .saved →
    p.argVa = l.argVa → Placing s p c l true (l.trees.map (·.n)) → Quiet s → NoWaitt s → Happens (.launchResume p) s fun t =>
      t.mem = p.leaves.foldl (fun (m : Memory) q => m.putEntry q.pa q.val) s.mem ∧
      t.node? n.key = some { n with state := .running } ∧ ∃ l', t.launch? l.id = some l' ∧ l'.state = .running ∧
        l'.pendingBands = l.pendingBands ∧ l'.savedBlocks = l.savedBlocks ∧ l'.savedBands = l.savedBands ∧
        l'.saved.map (fun g => (g.key, g.lanes, g.s)) = l.saved.map fun g => (g.key, g.lanes, g.s))

/-- 18 R373, 19 R386 to R390, R395, 22 R438: a launch that has waited 200 µs has one of a priority two lower pre-empted; a
pre-emption that takes too long ends in a replay, or in an abort; a launch to be replayed stops, and is restored once all
that had left is answered. -/
def Obligations.LaunchesArePreemptedAndReplayed : Prop :=
  (∀ s l y, s.dev.bstate = 5 → s.dev.pwr = 0 → s.dev.eviction = none → s.launch? y.id = some y → y.offers = true →
    y.lastPlaced + 380000 ≤ (s.die 0).clock → s.launch? l.id = some l → MayYield s y.prio l → l.state = .running →
    l.replayDue = false → s.finished l = false → (∀ m ∈ s.cp.launches, MayYield s y.prio m → m = l ∨ l.prio < m.prio) →
    Happens (.priorityPreempt l.id y.id) s fun t => t.mem = s.mem ∧ t.groups = s.groups ∧
      t.launch? l.id = some { l with state := .draining, drain := some (.priority, (s.die 0).clock) }) ∧
  (∀ s l why since, s.launch? l.id = some l → l.drain = some (why, since) →
    (why = .retire ∧ since + 1900000 ≤ (s.die 0).clock) ∨ (why = .evict ∧ since + 1900000000 ≤ (s.die 0).clock) →
    Happens (.preemptionAbandoned l.id) s fun t =>
      if s.accepted 8 = true ∧ l.nonReplay = none then t.launch? l.id = some { l with replayDue := true, drain := none }
      else t.launch? l.id = none ∧ ∀ g ∈ t.groups, g.key.launch ≠ l.id) ∧
  (∀ s l, s.launch? l.id = some l → l.replayDue = true → l.state ≠ .restoring → Quiet s → Happens (.launchReplay l.id) s fun t =>
    t.mem = s.mem ∧ t.launch? l.id = some { l with state := .restoring, drain := none } ∧
    (∀ g ∈ t.groups, g.key.launch = l.id → g.stopped = true) ∧ ∀ c ∈ t.cores, ∀ r ∈ c.hold, r.group.launch ≠ l.id) ∧
  (∀ s l n, s.launch? l.id = some l → l.replayDue = true → l.state = .restoring → s.settledOut l.id = true → l.poisonSrc = none →
    s.node? l.node = some n → (∀ m ∈ s.cp.nodes, m.by' ≠ some l.id) → Quiet s → NoWaitt s →
    Happens (.launchReplay l.id) s fun t => (∀ g ∈ t.groups, g.key.launch ≠ l.id) ∧ (∀ b ∈ t.blocks, b.launch ≠ l.id) ∧
      (t.node? l.node).map (·.state) = some .ready ∧ ∃ l', t.launch? l.id = some l' ∧ l'.state = .replaying ∧
        l'.attempt = l.attempt + 1 ∧ l'.replayDue = false ∧ l'.pages = [] ∧ l'.saved = [])

/-- 10 R230 to R232, R234, R239, 11 R270, 16 R337, 09 R223: an engine program takes a free context, and leaves its status in
its slot; a copy reads a portion, writes it once it is old enough, and is complete with its token; a fill writes its value;
a gather moves a row and is complete; a wait for a token ends at its time; an array error is counted in MSR. Rows pass through
the cipher of 16 R334 as the model has it (log entry 14); the model's choices: copies move outside the homes' queues (60), and
translate each portion as it is performed (141). -/
def Obligations.EnginesAndCommandsComplete : Prop :=
  (∀ s q pre e post, s.engines = pre ++ e :: post → (∀ y ∈ pre, ¬ (y.seqr = q ∧ y.started = false)) → e.seqr = q →
    e.started = false → (s.engines.filter fun y => y.seqr == q && y.started).length < (if q.kind = SeqKind.ke then 16 else 8) →
    exec (.engineContextStart q) s = .next { s with engines := pre ++ { e with started := true } :: post }) ∧
  (∀ s e g code pc, s.engine? e.id = some e → e.cmds = [] → e.remote = none → s.group? e.group = some g → Quiet s →
    e.slot < g.slots.length → (g.slots[e.slot]?.getD ⟨2, none⟩).engine = some e.id →
    (e.fails = [] ∧ e.stopped = some code ∧ pc = e.stopPc) ∨
      (e.stopped.isSome = true ∧ ∃ f ∈ e.fails, (∀ y ∈ e.fails, y = f ∨ f.order < y.order) ∧ f.code = code ∧ f.pc = pc) →
    Happens (.engineStatusFinal e.id) s fun t => t.mem = s.mem ∧ t.engine? e.id = none ∧ ∃ g', t.group? e.group = some g' ∧
      g'.slotStatus e.slot = if 3 ≤ code then bitsOf pc 2 24 ++ BitVec.ofNat 8 code else BitVec.ofNat 32 code) ∧
  (∀ s c va key, s.copies.find? (fun y => y.id == c.id) = some c → c.buf = [] → c.readPos < c.len → c.src = .global va → Quiet s →
    Mapped s (s.ownerDie c.owner c.core) c.ctx (va + c.readPos) { keyed := true } key → keyTier key ≤ 1 →
    s.stalls none key (c.portion c.readPos false) = false → Happens (.copyComplete c.id) s fun t => t.mem = s.mem ∧ ∃ y,
      let n := c.portion c.readPos false
      t.copies.find? (fun y => y.id == c.id) = some y ∧ y.readPos = c.readPos + n ∧ y.writePos = c.writePos ∧
      y.buf = (List.range (n / 16)).map fun i => ⟨(List.range 16).map fun j => s.mem.read (key + 16 * i + j),
        c.tags && keyTier key == 0 && s.mem.tag (key + 16 * i), s.mem.poisoned (key + 16 * i)⟩) ∧
  (∀ s c va key, s.copies.find? (fun y => y.id == c.id) = some c → c.buf ≠ [] → c.dst = [.global va] → Quiet s → NoWaitt s →
    s.aged c.owner c.core c.issued = true → (∀ q ∈ c.buf, q.bytes.length = 16 ∧ q.poison = false) → key % 16 = 0 →
    Mapped s (s.ownerDie c.owner c.core) c.ctx (va + c.writePos) { write := true, keyed := true } key → keyTier key ≤ 1 →
    s.locked none key (16 * c.buf.length) = false → Happens (.copyComplete c.id) s fun t =>
      (∀ a, t.mem.read a = if key ≤ a ∧ a < key + 16 * c.buf.length then
        (c.buf[(a - key) / 16]?.bind fun q => q.bytes[(a - key) % 16]?).getD 0 else s.mem.read a) ∧
      (∀ (i : Nat) (q : Granule), c.buf[i]? = some q → t.mem.tag (key + 16 * i) = (c.tags && keyTier key == 0 && q.tag)) ∧
      ∃ y, t.copies.find? (fun y => y.id == c.id) = some y ∧ y.buf = [] ∧ y.writePos = c.writePos + 16 * c.buf.length) ∧
  (∀ s c key, s.copies.find? (fun y => y.id == c.id) = some c → c.buf = [] → c.len ≤ c.readPos → Quiet s → NoWaitt s →
    s.aged c.owner c.core c.issued = true → s.tokenBehind c.owner = false →
    (∀ va, c.token = some va → TokenAt s (s.ownerDie c.owner c.core) c.ctx va key { rmw := true }) →
    Happens (.copyComplete c.id) s fun t => (∀ y ∈ t.copies, y.id ≠ c.id) ∧ Leaves s t c.owner c.id ∧
      (c.token = none → t.mem = s.mem) ∧ (c.token.isSome = true → Puts s t key (valueAt s key + c.inc))) ∧
  (∀ s m key,
    let va := m.target + 4 * m.pos
    let n := min (m.p1.toNat / 4 - m.pos) ((4096 - va % 4096) / 4)
    s.mscs.find? (fun y => y.id == m.id && y.left) = some m → m.cmd = 0 → m.pos < m.p1.toNat / 4 → m.target % 4 = 0 → Quiet s →
    NoWaitt s → Mapped s (s.ownerDie m.owner m.core) m.ctx va { write := true } key → keyTier key ≤ 1 →
    s.locked none key (4 * n) = false → (∀ home, s.mscBehind m home = false) → Happens (.mscComplete m.id) s fun t =>
      (∀ a, t.mem.read a = if key ≤ a ∧ a < key + 4 * n then bitsOf m.p0 (8 * ((a - key) % 4)) 8 else s.mem.read a) ∧
      ∃ y ∈ t.mscs, y.id = m.id ∧ y.pos = m.pos + n) ∧
  (∀ s m, s.mscs.find? (fun y => y.id == m.id && y.left) = some m → Quiet s → NoWaitt s →
    (mscExtents m.cmd m.p0.toNat m.p1.toNat).1 / 4 ≤ m.pos → Happens (.mscComplete m.id) s fun t =>
      t.mem = s.mem ∧ (∀ y ∈ t.mscs, y.id ≠ m.id) ∧ Leaves s t m.owner m.id) ∧
  (∀ s g key e b off slot,
    let t0 := g.t0 + g.k
    s.gathers.find? (fun y => y.id == g.id) = some g → g.form = .ld → g.k < g.n → Quiet s → NoWaitt s →
    s.cp.keys.find? (fun y => y.n == g.kslot) = some slot → t0 / 16 < g.nblk → 0 < g.rowb → g.rowb % 16 = 0 →
    (s.core g.ge).btb.find? (fun y => y.ctx == g.ctx && y.seq == g.seq && y.stream == g.stream && y.block == t0 / 16) = some e →
    OnePage (g.pool + (e.phys.toNat * 16 + t0 % 16) * g.rowb) g.rowb →
    Mapped s (dieOfCore g.ge) g.ctx (g.pool + (e.phys.toNat * 16 + t0 % 16) * g.rowb) { keyed := true } key → keyTier key ≤ 1 →
    s.stalls none key g.rowb = false → (∀ j < g.rowb, s.mem.poisoned (key + j) = false) → s.block? g.launch g.block = some b →
    placeOf b g.ge (g.laddr + g.k * g.rowb) = .localMem off false → Happens (.egkvCommandComplete g.id) s fun t => t.mem = s.mem ∧
      (∃ y ∈ t.gathers, y.id = g.id ∧ y.k = g.k + 1) ∧ ∃ b', t.block? g.launch g.block = some b' ∧ ∀ a, cellsRead b'.mem.cells a =
        if off ≤ a ∧ a < off + g.rowb then
          (xts false slot.k1 slot.k2 (tweakOf g.seq g.stream (t0 / 16) (t0 % 16))
            ((List.range g.rowb).map fun j => s.mem.read (key + j)))[a - off]?.getD 0
        else cellsRead b.mem.cells a) ∧
  (∀ s g, s.gathers.find? (fun y => y.id == g.id) = some g → g.n ≤ g.k → g.acks = [] → Quiet s → NoWaitt s → g.token = none →
    g.issued + 256 ≤ s.clockOf g.ge → Happens (.egkvCommandComplete g.id) s fun t => t.mem = s.mem ∧
      (∀ y ∈ t.gathers, y.id ≠ g.id) ∧ (∀ k ∈ t.cp.keys, k.n = g.kslot → g.id ∉ k.refs) ∧ Leaves s t g.owner g.id) ∧
  (∀ s k g op f d, s.group? k = some g → g.pend = [op] → op.instr = .waitt f → op.deadline = some d → d < s.clockOf g.core →
    g.handler = false → (∀ h ∈ s.groups, h.key ≠ k → h.pend = []) → Happens (.waittTimeout (.group k)) s fun t => t.mem = s.mem ∧
      ∃ g', t.group? k = some g' ∧ g'.pend = [] ∧ ∀ l < 64, op.lanes.getLsbD l = true → ∀ y, g'.lane? l = some y →
        y.park ≠ some (.await op.id) ∧
        (f.id.toNat < 15 → y.predMask.getLsbD f.id.toNat = true ∧ y.predNew.getLsbD f.id.toNat = false)) ∧
  (∀ s e w d, s.engine? e.id = some e → e.waitt = some w → w.deadline = some d → d < (s.die e.die).clock → Quiet s →
    Happens (.waittTimeout (.engine e.id)) s fun t => t.mem = s.mem ∧ ∃ e', t.engine? e.id = some e' ∧ e'.waitt = none ∧
      e'.pc = e.pc + 4 ∧ e'.count = e.count + 1 ∧ (w.pd < 15 → e'.preds.getLsbD w.pd = false)) ∧
  (∀ s k g arr col err, s.group? k = some g → Quiet s → Happens (.latchParityError k arr col err) s fun t =>
    ∃ g', t.group? k = some g' ∧ bitsOf g'.msr 16 8 = BitVec.ofNat 8 (min 255 ((bitsOf g.msr 16 8).toNat + 1)) ∧
      bitsOf g'.msr 10 6 = BitVec.ofNat 6 col ∧ bitsOf g'.msr 9 1 = BitVec.ofNat 1 arr ∧
      bitsOf g'.msr 0 4 = (bitsOf g.msr 0 4 ||| match err with
        | .parity => 1
        | .corrected => 2
        | .uncorrectable _ _ => 4) ∧
      ∀ lane reg y r, err = .uncorrectable lane reg → g.lane? lane = some y → y.v.get? reg = some r →
        ((g'.lane? lane).bind fun z => z.v.get? reg) = some ⟨r.val, true⟩)

/-! ### Pages, the fabric, reliability, eviction -/

namespace Sys2Proof.Claims

/-- A message of a type, for this device. -/
def Arrives (s : State) (m : Msg) (type : Nat) : Prop := m.type = type ∧ m.dst = s.dev.fdevid.toNat

/-- The device serves peers, and the request lies in memory it has (22 R425). -/
def Serving (s : State) (m : Msg) : Prop :=
  s.dev.bstate = 5 ∧ s.dev.fdevid ≠ 0xFFF ∧ s.dev.eviction = none ∧ inTier 0 m.addr m.size = true

/-- Window `n` covers the request, of the device that sent it. -/
def Covers (s : State) (m : Msg) (n : Nat) : Prop :=
  n < 16 ∧ windowCovers ((lookupKey n s.dev.fwinCtl).getD 0) ((lookupKey n s.dev.fwinLim).getD 0) m.src m.addr m.size = true

/-- A window grants a right: RD is bit 62, WR 61, AT 60. -/
def Grants (s : State) (n right : Nat) : Prop := bitOf ((lookupKey n s.dev.fwinCtl).getD 0) right = true

/-- The device sends one message, to `dst`, that answers `tag`. -/
def Sends (s t : State) (type dst tag code : Nat) (p : Msg → Prop) : Prop :=
  ∃ port m, t.fabric.sent = s.fabric.sent ++ [(port, m)] ∧ m.type = type ∧ m.dst = dst ∧ m.tag = tag ∧ m.code = code ∧
    m.src = s.dev.fdevid.toNat ∧ p m

/-- A peer's request without a window is refused with code 1, without the right with code 2 (22 R425, R427). -/
def RefusesWithoutARight (i : Msg → Instr) (type right : Nat) : Prop :=
  ∀ s m, Arrives s m type → Serving s m → (∀ n, Covers s m n → ¬ Grants s n right) → Happens (i m) s fun t =>
    t.groups = s.groups ∧ ((∃ n, Covers s m n) → Sends s t 7 m.src m.tag 2 fun _ => True) ∧
    ((∀ n, ¬ Covers s m n) → Sends s t 7 m.src m.tag 1 fun _ => True)

/-- An access for a piece of an operation is over: its answer stands, and it is outstanding no more (20 R402, 22 R429). -/
def EndsAccess (i : Instr) (s : State) (r : Remote) (fail : Option (BitVec 8)) (poison : Bool) (data : List Byte) : Prop :=
  ∀ id key, r.for' = .op id key → (∀ q ∈ s.homes, q.id ≠ id) → Quiet s → NoWaitt s → Happens i s fun t => t.mem = s.mem ∧
    t.fabric.remote = s.fabric.remote.filter (fun y => y.tag != r.tag) ∧
    t.fabric.answers = s.fabric.answers ++ [⟨id, key, fail, poison, data⟩]

/-- A load's access is answered: the group executes its load again with the line (20 R402, 22 R429). -/
def BringsALine (i : Instr) (s : State) (r : Remote) (data : List Byte) : Prop :=
  ∀ k va g, r.for' = .line k va → s.group? k = some g → 2 * r.tag ∈ g.remote → Quiet s → NoWaitt s → Happens i s fun t =>
    t.mem = s.mem ∧ ∃ g', t.group? k = some g' ∧ 2 * r.tag ∉ g'.remote ∧ ∃ ln, g'.fetched = (va, ln) :: g.fetched ∧
      ln.data = (data ++ List.replicate 128 0).take 128 ∧ ln.tags = 0

/-- The barrier numbered `m.code` is in force across devices, and its phase `m.phase` is complete on this device. -/
def WaitsForDevices (s : State) (m : Msg) (l : Launch) (y : TreeUse) (d : BitVec 64) : Prop :=
  s.fabricBarrier m.code = some (l, y, d) ∧ s.launch? l.id = some l ∧ y.n = m.code ∧ y.since.isSome = true ∧ y.phase = m.phase ∧
  l.state = .running ∧ l.pendingBands = [] ∧
  ∀ k ∈ y.arrived, ∀ g, s.group? k = some g → ∃ amber pc count, AllAt g (.tree l.id y.n) amber pc count

/-- The device has a number in the fabric (22 R423). -/
def Numbered (s : State) : Prop := s.dev.fdevid ≠ 0xFFF

/-- The waiters of the barrier go on in its next phase (22 R433). -/
def GoOn (s t : State) (l : Launch) (y : TreeUse) : Prop :=
  (∃ y', t.tree? l.id y.n = some y' ∧ y'.arrived = [] ∧ y'.phase = (y.phase + 1) % 2 ^ 32) ∧
  ∀ k ∈ y.arrived, ∀ g, s.group? k = some g → ∃ g', t.group? k = some g' ∧
    ∀ l ∈ g.liveLanes, (g'.lane? l).map (·.park) = some none

/-- The eviction has failed, and service is requested (22 R440). -/
def EvictionFailed (t : State) : Prop := t.dev.svcreq = true ∧ ∃ e, t.dev.eviction = some e ∧ e.phase = .failed

end Sys2Proof.Claims

/-- 15 R323, R326 to R329, 18 R369, 19 R386, 06 R172: the fault service maps a fresh page, or marks one it cannot map; the
snapshot manager copies a page before its first write; a core replays what its side log held for a page. The model's choices: a
faulting page of a range in the host tier is mapped with nothing filled (log entry 139), and a page's copy takes the first free
place of its context's area (64), one for each launch that has it in a write range (159). -/
def Obligations.PageFaultsAreServed : Prop :=
  (∀ s (m : PageMap) r,
    s.cp.lazy.find? (fun r => r.ctx == m.ctx && overlaps (r.va, r.len) m.va 65536) = some r → 0 < r.len → m.va % 65536 = 0 →
    (∃ d ∈ s.dies, (m.ctx, m.va) ∈ d.faults) → s.failedAt m.ctx m.va = false → (m.ctx, m.va) ∉ s.cp.snapFaults →
    s.movingAt m.ctx m.va = false → (∀ root ∈ s.rootsOf m.ctx, s.frameKey root m.va = none) → Quiet s → NoWaitt s →
    (leafV m.leaf = false → Happens (.pageMapped m) s fun t => (∃ b ∈ t.cp.badPages, b.ctx = m.ctx ∧ b.page = m.va) ∧
      ∀ d ∈ t.dies, (m.ctx, m.va) ∉ d.faults) ∧
    ∀ root a mem rest, freshLeaf r.hosted m.leaf = true → (r.hosted = false →
      s.frameUsed (leafKey m.leaf) 65536 = false ∧ s.touchedOn m.ctx m.va (leafKey m.leaf) = true) → (∀ f ∈ m.tables, s.frameUsed f 4096 = false) → r.img = 0 → r.slots = [] → s.rootsOf m.ctx = [root] →
      makePath m.va 2 root s.mem m.tables = some (a, mem, rest) → Happens (.pageMapped m) s fun t =>
        t.mem = (if r.hosted then mem else mem.fillFrame (leafKey m.leaf) (List.replicate 65536 0)).putEntry a m.leaf ∧
        (∀ d ∈ t.dies, (m.ctx, m.va) ∉ d.faults) ∧ ∀ g ∈ t.groups, g.ctx = m.ctx → m.va ∉ g.faultPages) ∧
  (∀ s ctx va root a e ps l c n,
    let mem := s.mem.copyFrame (memKey 0 (c.snapPa + 65536 * n)) (memKey (leafTier e) (leafPa e + va % 65536)) 65536
    (ctx, va) ∈ s.cp.snapFaults → (∃ d ∈ s.dies, (ctx, va) ∈ d.faults) → s.rootsOf ctx = [root] → walk s.mem va 2 root = (.leaf a 0 e, ps) → leafCopy e = false →
    leafSnap e = true → s.cp.launches.filter (fun y => y.ctx == ctx && y.ranges.any fun r => r.use != 1 && r.meets va) = [l] →
    s.launch? l.id = some l → s.ctx? ctx = some c → s.accepted 8 = true → l.nonReplay = none → s.areaPlace c = some n →
    (walk mem va 2 root).1 = .leaf a 0 e → Quiet s → NoWaitt s → Happens (.snapshotCopyDone ctx va []) s fun t =>
      t.mem = mem.putEntry a (e &&& ~~~0x40) ∧ (ctx, va) ∉ t.cp.snapFaults ∧
      (t.launch? l.id).map (·.pages) = some (l.pages ++ [⟨va, memKey (leafTier e) (leafPa e + va % 65536), some n⟩])) ∧
  (∀ s core ctx va k g e ln key, s.group? k = some g → g.core = core → (s.core core).log = [e] → e.group = k → e.ctx = ctx →
    e.page = va / 65536 * 65536 → e.body = .store .global [ln] → Still s → ln.hidden = [] → 0 < ln.bytes.length → OneLine ln.va ln.bytes.length →
    Mapped s (dieOfCore core) ctx ln.va { write := true } key → Happens (.sideLogReplay core ctx va) s fun t =>
      t.mem = s.mem ∧ (t.core core).log = [] ∧ t.homes = s.homes ++ [⟨e.id, .core core, k,
        s.homeOf (dieOfCore core) (keyTier key) (keyPa key), .store .global [{ ln with addr := key }], core⟩])

/-- 22 R425 to R427: a peer's request is performed in this device's memory if a window grants it, and answered; else it is
refused. -/
def Sys2Proof.Claims.PeersAreServed : Prop :=
  (∀ s m, Arrives s m 1 → Serving s m → (∃ n, Covers s m n ∧ Grants s n 62) → Happens (.rd m) s fun t =>
    t.mem = s.mem ∧ t.groups = s.groups ∧ Sends s t 2 m.src m.tag 0 fun a =>
      a.data = ((List.range m.size).map fun j => s.mem.read (m.addr + j)) ∧
      (a.poison = true ↔ ∃ j < m.size, s.mem.poisoned (m.addr + j) = true)) ∧
  (∀ s m, Arrives s m 3 → Serving s m → (∃ n, Covers s m n ∧ Grants s n 61) → m.data.length = m.size → Quiet s → NoWaitt s →
    Happens (.wr m) s fun t => (Sends s t 4 m.src m.tag 0 fun _ => True) ∧ ∀ a, t.mem.read a =
      if m.addr ≤ a ∧ a < m.addr + m.size then m.data[a - m.addr]?.getD 0 else s.mem.read a) ∧
  (∀ s m op l, Arrives s m 5 → Serving s m → (∃ n, Covers s m n ∧ Grants s n 60) → atomOf m = some (op, l) → m.last = true →
    (∀ y ∈ s.fabric.received, ¬ (y.type = 5 ∧ y.src = m.src ∧ y.addr = m.addr)) → Quiet s → NoWaitt s →
    let r := rmwRun op [l] s.mem.read
    Happens (.atom m) s fun t => (∀ a, t.mem.read a = r.2 a) ∧
      Sends s t 6 m.src m.tag 0 fun a => r.1.map (fun v => natBytes op.bytes v.toNat) = [a.data]) ∧
  RefusesWithoutARight .rd 1 62 ∧ RefusesWithoutARight .wr 3 61 ∧ RefusesWithoutARight .atom 5 60

/-- 20 R402, 22 R427 to R429: the host's and peers' answers, refusals and timeouts end the accesses they answer. -/
def Sys2Proof.Claims.AnswersEndAccesses : Prop :=
  (∀ s r data, s.fabric.remote.find? (fun y => y.host && y.tag == r.tag) = some r →
    EndsAccess (.hostAck r.tag true data) s r none false data ∧ BringsALine (.hostAck r.tag true data) s r data ∧
    EndsAccess (.hostAck r.tag false data) s r (some tREMFAULT) false data ∧
    (∀ q sp ls, r.for' = .req q → q.body = .store sp ls → (∃ i ∈ s.inflight, i.id = q.id) → Quiet s → NoWaitt s →
      Happens (.hostAck r.tag true data) s fun t => t.mem = s.mem ∧ t.acks = s.acks ++ [q.id]) ∧
    (r.sent + 1900 * s.dev.linkto.toNat ≤ (s.die 0).clock → EndsAccess (.hostTimeout r.tag) s r (some tREMTIME) false [])) ∧
  (∀ s r, s.fabric.remote.find? (fun y => !y.host && y.tag == r.tag) = some r →
    r.sent + 1900 * s.dev.flinkto.toNat ≤ (s.die 0).clock → EndsAccess (.fabricTimeout r.tag) s r (some tREMTIME) false []) ∧
  (∀ s m r, Arrives s m 2 → s.answeredBy m = some r →
    EndsAccess (.rdresp m) s r none m.poison m.data ∧ BringsALine (.rdresp m) s r m.data) ∧
  (∀ s m r, Arrives s m 4 → s.answeredBy m = some r → EndsAccess (.wrack m) s r none false []) ∧
  (∀ s m r, Arrives s m 6 → s.answeredBy m = some r → EndsAccess (.atomresp m) s r none m.poison m.data) ∧
  (∀ s m r, Arrives s m 7 → s.answeredBy m = some r → EndsAccess (.nack m) s r (some tREMFAULT) false [])

/-- 20 R402, 22 R425 to R429: peers' requests, and the answers to this device's own. The model's choice: one covering window
that grants the right is enough (log entry 58), and an ATOM's operation and operands stand in its first data bytes (55). -/
def Obligations.PeersAndAnswers : Prop := PeersAreServed ∧ AnswersEndAccesses

/-- 22 R432, R433, R437 to R439: barriers across devices, and the messages of an eviction. The root counts each device once
and releases the phase with the last; a member releases it at RELEASE; a phase that waits too long is abandoned, and its
groups trap. A partner withdraws its routes; state is received only where FRECV grants it, and installed with its last message.
The model's choices: an ARRIVE is counted though no barrier is in force (log entry 68), and what the messages of an eviction
hold, and the code of a refusal, are free (65, 158). -/
def Obligations.DevicesMeetAndWithdraw : Prop :=
  (∀ s m, Arrives s m 8 → Numbered s → s.fabricBarrier m.code = none → Happens (.arrive m) s fun t => t.mem = s.mem ∧ t.groups = s.groups ∧
    t.fabric.arrives = if s.fabric.arrives.contains (m.code, m.phase, m.src) then s.fabric.arrives
      else s.fabric.arrives ++ [(m.code, m.phase, m.src)]) ∧
  (∀ s m l y d, Arrives s m 8 → Numbered s → WaitsForDevices s m l y d → (bitsOf d 51 12).toNat = s.dev.fdevid.toNat → Still s →
    let devs := (s.countArrive m.code m.phase m.src).arrivalsOf m.code m.phase
    let self := s.dev.fdevid.toNat
    let release (q : Msg) (n : Nat) : Prop := q.type = 9 ∧ q.src = self ∧ q.dst = n ∧ q.code = m.code ∧ q.phase = m.phase
    (bitsOf d 32 8).toNat ≤ devs.length → (∀ n ∈ devs, n ≠ self → s.reachable n = true) →
    Happens (.arrive m) s fun t => t.mem = s.mem ∧ (∃ q ∈ t.fabric.received, release q self) ∧
      ∀ n ∈ devs, n ≠ self → ∃ q ∈ t.fabric.sent, release q.2 n) ∧
  (∀ s m l y d, Arrives s m 9 → Numbered s → WaitsForDevices s m l y d → (bitsOf d 51 12).toNat = m.src → Still s →
    Happens (.release m) s fun t => t.mem = s.mem ∧ GoOn s t l y) ∧
  (∀ s l y d c k g pc, s.launch? l.id = some l → s.tree? l.id y.n = some y → s.fbdOf l.id y.n = some d → y.since = some c →
    bitsOf d 0 32 ≠ 0 → l.state = .running → l.pendingBands = [] → c + 1900 * (bitsOf d 0 32).toNat ≤ (s.die 0).clock →
    y.arrived = [k] → s.group? k = some g → k.launch = l.id → AllAt g (.tree l.id y.n) false pc none → g.handler = false →
    l.trapv < l.codeLen → Still s → Happens (.fabricBarrierTimeout l.id y.n) s fun t =>
      (∃ y', t.tree? l.id y.n = some y' ∧ y'.arrived = [] ∧ y'.phase = (y.phase + 1) % 2 ^ 32 ∧ y'.since = none) ∧
      ∃ g', t.group? k = some g' ∧ g'.handler = true ∧ g'.tcause = tREMTIME ∧ g'.tval = BitVec.ofNat 64 (bitsOf d 51 12).toNat) ∧
  (∀ s m, Arrives s m 10 → Numbered s → Happens (.withdraw m) s fun t => t.mem = s.mem ∧ m.src ∈ t.fabric.withdrawn ∧
    Sends s t 11 m.src m.tag 0 fun _ => True) ∧
  (∀ s m e, Arrives s m 11 → s.dev.eviction = some e → exec (.wdack m) s = .next { s with dev := { s.dev with
    eviction := some { e with partners := e.partners.filter (· != m.src) } } }) ∧
  (∀ s m, Arrives s m 12 → Numbered s → s.dev.frecvEn = true → s.dev.frecvSrc.toNat = m.src → m.last = false →
    exec (.evstream m) s = .next { s with fabric := { s.fabric with received := s.fabric.received ++ [m] } }) ∧
  (∀ s m, Arrives s m 12 → Numbered s → s.dev.frecvEn = false ∨ s.dev.frecvSrc.toNat ≠ m.src → Happens (.evstream m) s fun t =>
    t.fabric.received = s.fabric.received ∧ ∃ c, Sends s t 7 m.src m.tag c fun _ => True) ∧
  (∀ s l y d q, s.launch? l.id = some l → s.tree? l.id y.n = some y → s.fbdOf l.id y.n = some d → y.since.isSome = true →
    l.state = .running → l.pendingBands = [] → y.arrived ≠ [] → q ∈ s.fabric.received → q.type = 9 → q.code = y.n →
    q.phase = y.phase → q.src = (bitsOf d 51 12).toNat → Still s → (∀ h ∈ s.groups, h.key.launch = l.id → h.key ∈ y.arrived) →
    (∀ k ∈ y.arrived, ∀ g, s.group? k = some g → ∃ amber pc count, AllAt g (.tree l.id y.n) amber pc count) →
    Happens (.treeComplete l.id y.n) s fun t => t.mem = s.mem ∧ GoOn s t l y) ∧
  (∀ s m, Arrives s m 12 → Numbered s → s.dev.frecvEn = true → s.dev.frecvSrc.toNat = m.src → m.last = true → Quiet s → NoWaitt s →
    let own (y : Msg) : Bool := y.type == 12 && y.src == m.src
    Happens (.evstream m) s fun t => t.fabric.received = s.fabric.received.filter (fun y => !own y) ∧
      (∀ c ∈ s.cp.ctxs, c ∈ t.cp.ctxs) ∧ (∀ n ∈ s.cp.nodes, n ∈ t.cp.nodes) ∧ (∀ l ∈ s.cp.launches, l ∈ t.cp.launches) ∧
      (Config.streamed s.free (s.fabric.received.filter own ++ [m]) = none → t.mem = s.mem ∧ t.cp = s.cp))

/-- 19 R377 to R400, 15 R310, R312, R313, 02 R35, R57: checkpoints, strikes, self-tests, records, scrub and refresh; and a fetch
that gives no instruction. The model's choices: a lasting fault of a core's logic retires the core, or the cluster for its core 0
(log entry 99), and memory errors enter by the lists of a strike (77). -/
def Obligations.ErrorsAreContained : Prop :=
  (∀ s core, s.clockOf core % 32 = 0 → (∃ g ∈ s.groups, g.core = core) → (∀ y ∈ (s.core core).ckpts, y.cycle ≠ s.clockOf core) →
    Happens (.shadowCheckpoint core) s fun t => t.mem = s.mem ∧ t.groups = s.groups ∧ (t.core core).ckpts.length ≤ 10 ∧
      ∃ y, (t.core core).ckpts.getLast? = some y ∧ y.cycle = s.clockOf core ∧ y.groups = s.groups.filter fun g => g.core == core) ∧
  (∀ s (k : Strike) c old cur ck, k.region = .core c → k.flaggedLate = false → k.unnamed = false → s.clockOf c ≤ k.cycle + 255 →
    ((s.core c).ckpts.filter fun y => decide (y.cycle < k.cycle)).getLast? = some ck → ck.restored ≤ k.cycle → ck.groups = [old] →
    s.group? old.key = some cur → cur.amber = .idle → old.pend = [] → old.ckpt = none → old.amber = .idle →
    (∃ l ∈ old.liveLanes, (old.lane? l).map (·.park) = some none) → Still s → c / 64 < s.dies.length → s.engines = [] →
    Happens (.strikeReport k) s fun t => (t.die (c / 64)).scnt = (s.die (c / 64)).scnt + 1 ∧
      ∃ g', t.group? old.key = some g' ∧ g'.s = old.s ∧ g'.runCount = old.runCount ∧
        ∀ l, (g'.lane? l).map (fun y => (y.status, y.pc, y.v, y.preds)) = (old.lane? l).map fun y => (y.status, y.pc, y.v, y.preds)) ∧
  (∀ s (k : Strike) c l, k.region = .core c → k.flaggedLate = true → k.unnamed = false → s.cp.launches = [l] → s.accepted 8 = true →
    l.nonReplay = none → l.attempt < 3 → l.replayDue = false → (∃ g ∈ s.groups, g.core = c ∧ g.key.launch = l.id) → Quiet s →
    Happens (.strikeReport k) s fun t => t.cp.launches = [{ l with replayDue := true, poisonSrc := none }]) ∧
  (∀ s (k : Strike) d, k.region = .uncore d → k.unnamed = false → k.cru = [] → k.cq = [] → Happens (.strikeReport k) s fun t =>
    t.groups = s.groups ∧ ∀ key ∈ k.poisoned, t.mem.poisoned key = true ∧
      (keyTier key = 0 → ∀ j < 128, t.mem.tag (key / 128 * 128 + j) = false)) ∧
  (∀ s x, x.passed = true → s.recentEvents x (s.die x.die).clock < 3 → Happens (.selfTestComplete x) s fun t =>
    t.groups = s.groups ∧ t.repair = { s.repair with
      events := s.repair.events ++ [(structCode x.struct, testCore x, x.index, (s.die x.die).clock)], tests := t.repair.tests }) ∧
  (∀ s x, x.passed = false → s.sparesUsed (structCode x.struct) (testUnit x) < spareCount x.struct → Quiet s →
    Happens (.selfTestComplete x) s fun t => t.repair.cores = s.repair.cores ∧ t.repair.clusters = s.repair.clusters ∧
      t.sparesUsed (structCode x.struct) (testUnit x) = s.sparesUsed (structCode x.struct) (testUnit x) + 1) ∧
  (∀ s x, x.passed = false → x.struct = .coreLogic → s.blocks = [] → Quiet s → Happens (.selfTestComplete x) s fun t =>
    if x.core % 4 = 0 then testCluster x ∈ t.repair.clusters else testCore x ∈ t.repair.cores) ∧
  (∀ s die r rest, die < s.dies.length → (s.die die).held = r :: rest → (s.die die).ringOpen = true → Quiet s → NoWaitt s →
    let pa := (bitsOf (s.die die).eqbase 15 37).toNat * 2 ^ 15 + 32 * ((s.die die).eqtail.toNat % 1024)
    Happens (.errorRecordWrite die) s fun t => (t.die die).held = rest ∧ (t.die die).eqtail = (s.die die).eqtail + 1 ∧
      ∀ a, t.mem.read a = if pa ≤ a ∧ a < pa + 32 then r.bytes[a - pa]?.getD 0 else s.mem.read a) ∧
  (∀ s line, exec (.hbmScrub line false) s = .next s) ∧
  (∀ s line, inTier0 (128 * line) = true → (s.die (128 * line / 2 ^ 38 % 4)).ringOpen = false →
    Happens (.hbmScrub line true) s fun t => t.mem = s.mem ∧
      t.dies = (s.modDie (128 * line / 2 ^ 38 % 4) fun d => { d with eqlost := d.eqlost + 1 }).dies ∧
      ∃ y, t.repair.tests.getLast? = some y ∧ y.struct = 14 ∧ y.die = 128 * line / 2 ^ 38 % 4 ∧ y.since = (s.die y.die).clock) ∧
  (∀ s die bank, bank < 32 → die < s.dies.length →
    let w := (s.die die).clock % 122880
    ((s.die die).refresh = none → bank * 3840 ≤ w → w < bank * 3840 + 384 → exec (.edramRefresh die bank true) s =
      .next (s.modDie die fun d => { d with refresh := some bank })) ∧
    ((s.die die).refresh = some bank → w < bank * 3840 ∨ bank * 3840 + 384 ≤ w → Quiet s →
      Becomes (.edramRefresh die bank false) s (s.modDie die fun d => { d with refresh := none }))) ∧
  (∀ s k g pc l c, s.turn = .group k → s.group? k = some g → g.canIssue = true → g.minPc = some pc → s.launch? k.launch = some l →
    l.trapv < l.codeLen → g.handler = false → g.amber = .idle → Happens (.decodingFault c) s fun t => ∃ g', t.group? k = some g' ∧
      g'.handler = true ∧ (g'.tcause, g'.tval) = match c with
        | .misaligned p => (tALIGN, p.setWidth 64)
        | .outOfCode p => (tILLEGAL, p.setWidth 64)
        | .badWord w => (tILLEGAL, w.setWidth 64)
        | .badPrefix w => (tILLEGAL, w.setWidth 64)) ∧
  (∀ s id e c, s.turn = .engine id → s.engine? id = some e → e.canIssue = true → Happens (.decodingFault c) s fun t =>
    ({ t with engines := s.engines } : State) = s ∧ (t.engine? id).map (·.stopped) = some (some 3))

/-- 22 R436, R438, R440: an eviction begins, goes from phase to phase, pre-empts what still runs when its grace has ended (at
once under FORCE, which acts as a grace of 0), streams to its neighbour, and fails, with a service request, when a phase takes
too long or the neighbour cannot be reached. The model's choice: the link partners are the devices that routes lead to (log
entry 67). -/
def Obligations.EvictionGoesThroughItsPhases : Prop :=
  (∀ s n, StartsNext s n 6 → Quiet s → Happens (.evict n.key) s fun t => t.mem = s.mem ∧ t.dev.evictBit = true ∧
    t.node? n.key = some { n with state := .running } ∧ t.dev.eviction = some ⟨recBytes n.record 32 2 % 4096,
      recBytes n.record 34 1, (recBytes n.record 35 1).testBit 0, some n.key, .stop, (s.die 0).clock, false, []⟩) ∧
  (∀ s k e, s.dev.eviction = some e → e.node = some k → Quiet s →
    (e.phase = .stop → e.force = false → e.grace ≠ 0 → Happens (.evict k) s fun t => t.mem = s.mem ∧
      t.dev.eviction = some { e with phase := .drain, since := (s.die 0).clock }) ∧
    (e.phase = .drain → s.runningLaunches = [] → s.copies = [] → s.mscs = [] → s.gathers = [] → s.fabric.remote = [] →
      Happens (.evict k) s fun t => t.mem = s.mem ∧ t.dev.eviction = some { e with phase := .keys, since := (s.die 0).clock }) ∧
    (e.phase = .keys → s.reachable e.neigh = false → Happens (.evict k) s EvictionFailed) ∧
    (e.phase = .stream → Happens (.evict k) s fun t => t.mem = s.mem ∧ t.dev.eviction =
      some { e with phase := .routes, since := (s.die 0).clock, partners := s.linkPartners }) ∧
    (e.phase = .routes → e.partners = [] → Happens (.evict k) s fun t => t.dev.unlatch = true ∧ t.dev.evictBit = false ∧
      (t.dev.eviction).map (·.phase) = some .unlatch) ∧
    (∀ l, e.phase = .stop → e.force = true ∨ e.grace = 0 → s.cp.launches = [l] → l.state = .running → l.replayDue = false →
      s.finished l = false → s.saveFits l = true → Happens (.evict k) s fun t => t.mem = s.mem ∧
        t.dev.eviction = some { e with phase := .drain, since := (s.die 0).clock, expired := true } ∧
        t.cp.launches = [{ l with state := .draining, drain := some (.evict, (s.die 0).clock) }]) ∧
    (e.phase = .keys → s.reachable e.neigh = true → Happens (.evict k) s fun t => t.mem = s.mem ∧
      t.dev.eviction = some { e with phase := .stream, since := (s.die 0).clock } ∧ ∃ ms : List (Nat × Msg),
        t.fabric.sent = s.fabric.sent ++ ms ∧ (∀ q ∈ ms, q.2.type = 12 ∧ q.2.dst = e.neigh) ∧
        (∀ line ∈ s.evictLines, ∃ q ∈ ms, q.2.addr = 128 * line ∧ q.2.size = 128 ∧
          q.2.data = (List.range 128).map fun j => s.mem.read (memKey 0 (128 * line) + j)) ∧
        ms.length = (s.cp.keys.filter fun z => !z.retiring).length + s.evictLines.length + s.evictRecords.length)) ∧
  (∀ s e l, s.dev.eviction = some e → e.phase = .drain → e.expired = false →
    e.since + (if e.force then 0 else e.grace) * 1900000000 ≤ (s.die 0).clock →
    s.cp.launches = [l] → l.state = .running → l.replayDue = false → s.finished l = false → s.saveFits l = true → Quiet s →
    Happens .evictGraceExpiry s fun t => t.mem = s.mem ∧ t.dev.eviction = some { e with expired := true } ∧
      t.cp.launches = [{ l with state := .draining, drain := some (.evict, (s.die 0).clock) }]) ∧
  (∀ s e b, s.dev.eviction = some e →
    (e.phase, b) ∈ [(.stop, 19000000), (.drain, ((if e.force then 0 else e.grace) + 1) * 1900000000), (.keys, 190000000),
      (.stream, 7600000000), (.routes, 380000000)] →
    (e.since + b < (s.die 0).clock → Happens .evictPhaseOverrun s EvictionFailed) ∧
    ((s.die 0).clock ≤ e.since + b → exec .evictPhaseOverrun s = .next s))
end

