-- ==== Sys2Proof/Laws/Issue.lean ====
section
/-!
SUPPORT. What the issue of a word can do: with its turn, and every check passed, a word answers what its effect gives.
-/

namespace Sys2Proof.Machine

open Sys2Proof

theorem readField_fresh (s : State) (g : Group) (u : Option Nat) (f : Nat) (h : g.runWrites u f = []) :
    readField s g u f = (g.reg? u f, false) := by
  simp [readField, h, Group.reg?]

theorem regChecks_pass (s : State) (g : Group) (u : Option Nat) (fs : List Nat)
    (live : ∀ f ∈ fs, (g.reg? u f).isSome = true) (fresh : ∀ f ∈ fs, g.runWrites u f = []) :
    regChecks s g u fs = none := by
  have h1 : fs.find? (g.hazard u) = none := by
    simp only [List.find?_eq_none]
    intro f hf
    simp [Group.hazard, fresh f hf]
  have h2 : fs.find? (fun f => (readField s g u f).1.isNone) = none := by
    simp only [List.find?_eq_none]
    intro f hf
    have := live f hf
    rw [readField_fresh s g u f (fresh f hf)]
    cases h : g.reg? u f <;> simp_all
  unfold regChecks
  rw [h1, h2]
  simp

theorem group?_key {s : State} {k : GKey} {g : Group} (h : s.group? k = some g) : g.key = k := by
  have := List.find?_some h
  simpa using this

theorem verdict_nil (x : Issue) : verdict x [] = none := rfl

/-- A word that issues, and whose own checks pass in every unit, answers what its effect gives. -/
theorem issueWord_group {i : Instr} {s : State} {k : GKey} {g : Group} (h : Issues i s k g)
    (own : Issue → Group → Option Nat → Option UnitErr) (eff : Issue → Group → State → Effect)
    (eng : Engine → Desc → State → State) (pass : ∀ u ∈ (g.issue i).units, own (g.issue i) g u = none) :
    issueWord i s own eff eng =
      (eff (g.issue i) g (s.drawn.setGroup
        ((if mayTrapLate i then g.mark (g.issue i) (s.die (dieOfCore g.core)).clock s.nextId else g).advance
          (g.issue i)))).outcome s.drawn (g.issue i) := by
  obtain ⟨turn, here, ready, calm, legal, mask, live, fresh, again⟩ := h
  have hstall : (g.amber == .speculating && amberStalls i) = false := by
    by_cases ha : g.amber = .speculating
    · simp [calm ha]
    · simp [ha]
  have unit : ∀ u ∈ (g.issue i).units,
      (regChecks s g u (unitFields s g (g.issue i) u)).or (own (g.issue i) g u) = none := fun u hu => by
    rw [regChecks_pass _ g u _ (live u hu) (fresh u (.inl hu)), pass u hu]
    rfl
  have herr : issueErrs s g (g.issue i) own = [] := by
    unfold issueErrs
    simp only [mask]
    unfold Issue.units at unit
    by_cases ho : (g.issue i).once = true
    · simp only [ho, if_true, List.mem_singleton, forall_eq] at unit ⊢
      simp [unit]
    · simp only [ho, Bool.false_eq_true, if_false, List.mem_map, forall_exists_index, and_imp, forall_apply_eq_imp_iff₂] at unit ⊢
      rw [List.filterMap_eq_nil_iff]
      intro l _
      split
      · rename_i hl
        simp [unit l (by simpa using hl)]
      · rfl
  have hwait : mustWait s g (g.issue i) = false := by
    unfold mustWait
    simp only [List.any_eq_false, Bool.not_eq_true]
    intro u hu f hf
    rw [readField_fresh _ g u f (fresh u (.inr hu) f hf)]
  have hredo : (g.redo? (g.issue i).pc).bind (fun r => r.trap?.map fun t => (r, t)) = none := by
    cases hr : g.redo? (g.issue i).pc with
    | none => rfl
    | some r => simp [again r hr]
  simp only [issueWord, turn, issueGroup, here, ready, Bool.not_true, Bool.false_eq_true, if_false, hstall, legal, herr,
    verdict_nil, hwait, hredo]

end Sys2Proof.Machine
end

