-- ==== Sys2Proof/Laws/Registers.lean ====
section
/-!
SUPPORT. What the operations on register files and on a group's registers do: a write is read back at its own register and
leaves every other alone.
-/

namespace Sys2Proof.Machine

open Sys2Proof

/-! ### Sorted lists -/

theorem lookupKey_putKey_same {α : Type} (k : Nat) (v : α) (l : List (Nat × α)) :
    lookupKey k (putKey k v l) = some v := by
  induction l with
  | nil => simp [putKey, lookupKey]
  | cons x t ih =>
    obtain ⟨j, w⟩ := x
    simp only [putKey]
    split
    · simp [lookupKey]
    · split
      · simp [lookupKey]
      · rename_i h1 h2
        simp [lookupKey, Ne.symm h2, ih]

theorem lookupKey_putKey_other {α : Type} (k j : Nat) (v : α) (l : List (Nat × α)) (h : j ≠ k) :
    lookupKey j (putKey k v l) = lookupKey j l := by
  induction l with
  | nil => simp [putKey, lookupKey, Ne.symm h]
  | cons x t ih =>
    obtain ⟨i, w⟩ := x
    simp only [putKey]
    split
    · simp [lookupKey, Ne.symm h]
    · split
      · rename_i h1 h2
        subst h2
        simp [lookupKey, Ne.symm h]
      · simp [lookupKey, ih]

theorem lookupKey_dropKey_same {α : Type} (k : Nat) (l : List (Nat × α)) : lookupKey k (dropKey k l) = none := by
  induction l with
  | nil => rfl
  | cons x t ih =>
    obtain ⟨j, w⟩ := x
    simp only [dropKey]
    split
    · exact ih
    · rename_i h
      simp [lookupKey, h, ih]

theorem lookupKey_dropKey_other {α : Type} (k j : Nat) (l : List (Nat × α)) (h : j ≠ k) :
    lookupKey j (dropKey k l) = lookupKey j l := by
  induction l with
  | nil => rfl
  | cons x t ih =>
    obtain ⟨i, w⟩ := x
    simp only [dropKey]
    split
    · rename_i h1
      subst h1
      simp [lookupKey, Ne.symm h, ih]
    · simp [lookupKey, ih]

/-! ### Register files -/

@[simp] theorem RegFile.get?_put_same (f : RegFile) (n : Nat) (r : Reg) : (f.put n r).get? n = some r := by
  simp [RegFile.get?, RegFile.put, lookupKey_putKey_same]

theorem RegFile.get?_put_other (f : RegFile) (n m : Nat) (r : Reg) (h : m ≠ n) : (f.put n r).get? m = f.get? m := by
  simp [RegFile.get?, RegFile.put, lookupKey_putKey_other _ _ _ _ h]

@[simp] theorem RegFile.get?_free_same (f : RegFile) (n : Nat) : (f.free n).get? n = none := by
  simp [RegFile.get?, RegFile.free, lookupKey_dropKey_same]

theorem RegFile.get?_free_other (f : RegFile) (n m : Nat) (h : m ≠ n) : (f.free n).get? m = f.get? m := by
  simp [RegFile.get?, RegFile.free, lookupKey_dropKey_other _ _ _ h]

@[simp] theorem RegFile.get?_setTag (f : RegFile) (n m : Nat) (b : Bool) : (f.setTag n b).get? m = f.get? m := rfl

/-! ### The registers of a group -/

/-- Register `n` of lane `l`, or of the uniform file for none; none when it is dead or there is no such lane. -/
def Group.at (g : Group) (l : Option Nat) (n : Nat) : Option Reg :=
  match l with
  | none => g.s.get? n
  | some i => (g.lane? i).bind fun y => y.v.get? n

theorem Group.lane?_modLane (g : Group) (i j : Nat) (f : Lane → Lane) :
    (g.modLane i f).lane? j = if i = j then (g.lane? j).map f else g.lane? j := by
  simp only [Group.lane?, Group.modLane, List.getElem?_modify]
  split <;> simp_all

/-- The bases of the window, by which fields name registers, are kept, and so are the lanes' numbers. -/
def SameBases (g g' : Group) : Prop :=
  g'.ub = g.ub ∧ (∀ i, (g'.lane? i).map (·.vb) = (g.lane? i).map (·.vb)) ∧ g'.lanes.length = g.lanes.length

theorem SameBases.refl (g : Group) : SameBases g g := ⟨rfl, fun _ => rfl, rfl⟩

theorem SameBases.trans {g h k : Group} (a : SameBases g h) (b : SameBases h k) : SameBases g k :=
  ⟨b.1.trans a.1, fun i => (b.2.1 i).trans (a.2.1 i), b.2.2.trans a.2.2⟩

theorem SameBases.modLane (g : Group) (i : Nat) (f : Lane → Lane) (h : ∀ y, (f y).vb = y.vb) :
    SameBases g (g.modLane i f) := by
  refine ⟨rfl, fun j => ?_, by simp [Group.modLane]⟩
  rw [Group.lane?_modLane]
  split
  · cases g.lane? j <;> simp [h]
  · rfl

theorem SameBases.regNum {g g' : Group} (h : SameBases g g') (u : Option Nat) (f : Nat) : g'.regNum u f = g.regNum u f := by
  unfold Group.regNum
  rw [h.1]
  split
  · rfl
  · cases u with
    | none => rfl
    | some l =>
      have := h.2.1 l
      cases h1 : g.lane? l <;> cases h2 : g'.lane? l <;> simp_all

/-- The place a field names in a unit: the lane, none for a uniform register, and the number. -/
def Group.place (g : Group) (u : Option Nat) (f : Nat) : Option Nat × Nat := (writeLane u f, g.regNum u f)

theorem Group.place_uniform (g : Group) (u : Option Nat) (f : Nat) (h : 96 ≤ f) : g.place u f = (none, g.ub + (f - 96)) := by
  simp [Group.place, writeLane, Group.regNum, h]

theorem Group.place_lane (g : Group) (l f : Nat) (h : ¬ 96 ≤ f) :
    g.place (some l) f = (some l, (g.lane? l).elim 0 (·.vb) + f) := by
  simp [Group.place, writeLane, Group.regNum, h]

theorem Group.reg?_eq_at (g : Group) (u : Option Nat) (f : Nat) (h : 96 ≤ f ∨ u.isSome) :
    g.reg? u f = g.at (g.place u f).1 (g.place u f).2 := by
  by_cases hf : 96 ≤ f
  · simp [g.place_uniform u f hf, Group.reg?, Group.file, Group.regNum, hf, Group.at]
  · cases u with
    | none => exact absurd (h.resolve_right (by simp)) hf
    | some l =>
      rw [g.place_lane l f hf]
      simp only [Group.reg?, Group.file, Group.regNum, hf, if_false, Group.at]
      cases g.lane? l <;> rfl

theorem SameBases.place {g g' : Group} (h : SameBases g g') (u : Option Nat) (f : Nat) : g'.place u f = g.place u f := by
  simp [Group.place, h.regNum]

theorem Group.lane?_lt {g : Group} {i : Nat} (h : i < g.lanes.length) : ∃ y, g.lane? i = some y :=
  ⟨_, List.getElem?_eq_getElem h⟩

theorem Group.at_modLane (g : Group) (i : Nat) (f : Lane → Lane) (q : Option Nat × Nat)
    (h : ∀ y, q.1 = some i → (f y).v.get? q.2 = y.v.get? q.2) : (g.modLane i f).at q.1 q.2 = g.at q.1 q.2 := by
  obtain ⟨l, n⟩ := q
  cases l with
  | none => rfl
  | some j =>
    simp only [Group.at, Group.lane?_modLane]
    split
    · rename_i e
      cases hj : g.lane? j with
      | none => rfl
      | some y => simpa [e] using h y (by simp [e])
    · rfl

/-- A unit in which a field names a register that exists. -/
def Group.names (g : Group) (u : Option Nat) (f : Nat) : Prop := 96 ≤ f ∨ ∃ l, u = some l ∧ l < g.lanes.length

/-- What a write of one register does. -/
theorem Group.writeReg_bases (g : Group) (u : Option Nat) (f : Nat) (r : Reg) : SameBases g (g.writeReg u f r none) := by
  unfold Group.writeReg
  by_cases hf : 96 ≤ f
  · simp [hf, SameBases, Group.lane?]
  · cases u with
    | none => simp [hf, SameBases, Group.lane?]
    | some l =>
      simp only [Option.isSome_none, Bool.false_eq_true, if_false, hf]
      exact SameBases.trans (h := { g with written := _ }) ⟨rfl, fun _ => rfl, rfl⟩ (SameBases.modLane _ _ _ fun _ => rfl)

theorem Group.writeReg_other (g : Group) (u : Option Nat) (f : Nat) (r : Reg) (q : Option Nat × Nat) (h : q ≠ g.place u f) :
    (g.writeReg u f r none).at q.1 q.2 = g.at q.1 q.2 := by
  unfold Group.writeReg
  by_cases hf : 96 ≤ f
  · rw [g.place_uniform u f hf] at h
    obtain ⟨l, n⟩ := q
    cases l with
    | none =>
      simp only [Option.isSome_none, Bool.false_eq_true, if_false, hf, if_true, Group.at, Group.regNum]
      exact RegFile.get?_put_other _ _ _ _ fun e => h (by rw [e])
    | some j => simp [hf, Group.at, Group.lane?]
  · cases u with
    | none => simp only [Option.isSome_none, Bool.false_eq_true, if_false, hf]; rfl
    | some l =>
      simp only [Option.isSome_none, Bool.false_eq_true, if_false, hf]
      rw [Group.at_modLane]
      · rfl
      · intro y hl
        apply RegFile.get?_put_other
        intro e
        apply h
        rw [g.place_lane l f hf]
        obtain ⟨l', n⟩ := q
        simp only [Group.regNum, hf, if_false] at e
        simp only at hl
        rw [hl, e]

theorem Group.writeReg_same (g : Group) (u : Option Nat) (f : Nat) (r : Reg) (h : g.names u f) :
    (g.writeReg u f r none).at (g.place u f).1 (g.place u f).2 = some r := by
  unfold Group.writeReg
  by_cases hf : 96 ≤ f
  · simp [hf, g.place_uniform u f hf, Group.at, Group.regNum]
  · obtain ⟨l, rfl, hl⟩ := h.resolve_left hf
    obtain ⟨y, hy⟩ := Group.lane?_lt hl
    rw [g.place_lane l f hf]
    simp only [Option.isSome_none, Bool.false_eq_true, if_false, hf, Group.at, Group.lane?_modLane, if_true]
    have : Group.lane? { g with written := ⟨writeLane (some l) f, g.regNum (some l) f, (g.file (some l) f).get? (g.regNum (some l) f),
      (g.file (some l) f).tag (g.regNum (some l) f), none, none, false⟩ :: g.written } l = some y := hy
    rw [this]
    simp [Group.regNum, hf, hy]

theorem SameBases.names {g g' : Group} (h : SameBases g g') {u : Option Nat} {f : Nat} (n : g.names u f) : g'.names u f := by
  rcases n with n | ⟨l, e, n⟩
  · exact .inl n
  · exact .inr ⟨l, e, h.2.2 ▸ n⟩

/-- `n` fields from `f` lie in one half of the fields: all vector, or all uniform (01 R14). -/
def oneHalf (f n : Nat) : Prop := 96 ≤ f ∨ f + n ≤ 96

theorem Group.place_inj (g : Group) (u : Option Nat) (f n i j : Nat) (h : oneHalf f n) (hi : i < n) (hj : j < n)
    (e : g.place u (f + i) = g.place u (f + j)) : i = j := by
  simp only [Group.place, Group.regNum, Prod.mk.injEq] at e
  obtain ⟨-, e⟩ := e
  rcases h with h | h
  · rw [if_pos (by omega), if_pos (by omega)] at e
    omega
  · rw [if_neg (by omega), if_neg (by omega)] at e
    cases u <;> simp at e <;> omega

theorem Group.writeRun_bases (u : Option Nat) (vals : List Reg) :
    ∀ (g : Group) (f : Nat), SameBases g (g.writeRun u f none vals) := by
  induction vals with
  | nil => exact fun g _ => SameBases.refl g
  | cons r t ih => exact fun g f => (g.writeReg_bases u f r).trans (ih _ _)

theorem Group.writeRun_other (u : Option Nat) (q : Option Nat × Nat) (vals : List Reg) :
    ∀ (g : Group) (f : Nat), (∀ j < vals.length, q ≠ g.place u (f + j)) →
      (g.writeRun u f none vals).at q.1 q.2 = g.at q.1 q.2 := by
  induction vals with
  | nil => exact fun _ _ _ => rfl
  | cons r t ih =>
    intro g f h
    have h1 := g.writeReg_bases u f r
    simp only [Group.writeRun]
    rw [ih, g.writeReg_other u f r q (h 0 (by simp))]
    intro j hj
    rw [h1.place]
    have := h (j + 1) (by simp; omega)
    rwa [show f + (j + 1) = f + 1 + j from by omega] at this

theorem Group.writeRun_same (u : Option Nat) (vals : List Reg) :
    ∀ (g : Group) (f : Nat), oneHalf f vals.length → (∀ j < vals.length, g.names u (f + j)) →
      ∀ j, (h : j < vals.length) →
        (g.writeRun u f none vals).at (g.place u (f + j)).1 (g.place u (f + j)).2 = some vals[j] := by
  induction vals with
  | nil => intro g f _ _ j h; simp at h
  | cons r t ih =>
    intro g f hh hn j hj
    have h1 := g.writeReg_bases u f r
    simp only [Group.writeRun]
    cases j with
    | zero =>
      rw [Group.writeRun_other]
      · exact g.writeReg_same u f r (hn 0 (by simp))
      · intro i hi e
        rw [h1.place, show f + 1 + i = f + (i + 1) from by omega] at e
        have := g.place_inj u f (t.length + 1) 0 (i + 1) hh (by omega) (by omega) e
        omega
    | succ j =>
      have hj' : j < t.length := by simpa using hj
      have := ih (g.writeReg u f r none) (f + 1)
        (by rcases hh with a | a; exact .inl (by omega); exact .inr (by simp at a; omega))
        (fun i hi => h1.names (by have := hn (i + 1) (by simp; omega); rwa [show f + 1 + i = f + (i + 1) from by omega]))
        j hj'
      rw [h1.place, show f + 1 + j = f + (j + 1) from by omega] at this
      simpa using this

theorem Group.tagQuad_bases (g : Group) (u : Option Nat) (f : Nat) : SameBases g (g.tagQuad u f) := by
  unfold Group.tagQuad
  by_cases hf : 96 ≤ f
  · simp [hf, SameBases, Group.lane?]
  · cases u with
    | none => simp [hf, SameBases, Group.lane?]
    | some l =>
      simp only [hf, if_false]
      exact SameBases.modLane g l _ fun _ => rfl

theorem Group.tagQuad_at (g : Group) (u : Option Nat) (f : Nat) (q : Option Nat × Nat) :
    (g.tagQuad u f).at q.1 q.2 = g.at q.1 q.2 := by
  unfold Group.tagQuad
  by_cases hf : 96 ≤ f
  · simp only [hf, if_true]
    cases q.1 <;> rfl
  · cases u with
    | none => simp [hf]
    | some l =>
      simp only [hf, if_false]
      exact Group.at_modLane _ _ _ _ fun _ _ => rfl

/-- A write of registers keeps the bases, brings the values to their places, and leaves every other register alone. -/
theorem Group.writeRegs_bases (g : Group) (u : Option Nat) (f : Nat) (vals : List Reg) (tag : Bool) :
    SameBases g (g.writeRegs u f vals tag) := by
  unfold Group.writeRegs
  have h := Group.writeRun_bases u vals g f
  simp only
  split
  · exact h.trans (Group.tagQuad_bases _ _ _)
  · exact h

theorem Group.writeRegs_other (g : Group) (u : Option Nat) (f : Nat) (vals : List Reg) (tag : Bool) (q : Option Nat × Nat)
    (h : ∀ j < vals.length, q ≠ g.place u (f + j)) : (g.writeRegs u f vals tag).at q.1 q.2 = g.at q.1 q.2 := by
  unfold Group.writeRegs
  simp only
  split
  · rw [Group.tagQuad_at, Group.writeRun_other u q vals g f h]
  · exact Group.writeRun_other u q vals g f h

theorem Group.writeRegs_same (g : Group) (u : Option Nat) (f : Nat) (vals : List Reg) (tag : Bool)
    (hh : oneHalf f vals.length) (hn : ∀ j < vals.length, g.names u (f + j)) (j : Nat) (h : j < vals.length) :
    (g.writeRegs u f vals tag).at (g.place u (f + j)).1 (g.place u (f + j)).2 = some vals[j] := by
  unfold Group.writeRegs
  simp only
  split
  · rw [Group.tagQuad_at, Group.writeRun_same u vals g f hh hn j h]
  · exact Group.writeRun_same u vals g f hh hn j h

end Sys2Proof.Machine
end

