-- ==== Sys2Proof/Laws/Alu.lean ====
section
/-!
SUPPORT. What a register-to-register word leaves in the registers: its result in every unit that takes part, 0 in the lanes
that MZ clears, and every register that it does not name as it was.
-/

namespace Sys2Proof.Machine

open Sys2Proof

/-! ### Steps over several units -/

/-- A place of the group's registers: a lane, none for the uniform file, and a number. -/
abbrev RegPlace := Option Nat × Nat

theorem foldl_bases {α : Type} (step : Group → α → Group) (h : ∀ g a, SameBases g (step g a)) (l : List α) :
    ∀ g, SameBases g (l.foldl step g) := by
  induction l with
  | nil => exact SameBases.refl
  | cons a t ih => exact fun g => (h g a).trans (ih _)

theorem foldl_other {α : Type} (g0 : Group) (step : Group → α → Group) (touch : α → RegPlace → Prop)
    (hb : ∀ g a, SameBases g (step g a))
    (ho : ∀ g a q, SameBases g0 g → ¬ touch a q → (step g a).at q.1 q.2 = g.at q.1 q.2) (l : List α) :
    ∀ g, SameBases g0 g → ∀ q, (∀ a ∈ l, ¬ touch a q) → (l.foldl step g).at q.1 q.2 = g.at q.1 q.2 := by
  induction l with
  | nil => exact fun _ _ _ _ => rfl
  | cons a t ih =>
    intro g h q hq
    simp only [List.foldl_cons]
    rw [ih _ (h.trans (hb g a)) q (fun b hb' => hq b (List.mem_cons_of_mem _ hb')), ho g a q h (hq a List.mem_cons_self)]

theorem foldl_same {α : Type} (g0 : Group) (step : Group → α → Group) (touch : α → RegPlace → Prop) (v : α → RegPlace → Reg)
    (hb : ∀ g a, SameBases g (step g a))
    (ho : ∀ g a q, SameBases g0 g → ¬ touch a q → (step g a).at q.1 q.2 = g.at q.1 q.2) (l : List α) :
    ∀ g, SameBases g0 g → l.Pairwise (fun a b => ∀ q, touch a q → ¬ touch b q) → ∀ a ∈ l, ∀ q, touch a q →
      (∀ g, SameBases g0 g → (step g a).at q.1 q.2 = some (v a q)) → (l.foldl step g).at q.1 q.2 = some (v a q) := by
  induction l with
  | nil => intro g _ _ a ha; simp at ha
  | cons b t ih =>
    intro g h hp a ha q hq hs
    simp only [List.foldl_cons]
    rw [List.pairwise_cons] at hp
    rcases List.mem_cons.mp ha with rfl | ha
    · rw [foldl_other g0 step touch hb ho t _ (h.trans (hb g a)) q (fun c hc => hp.1 c hc q hq), hs g h]
    · exact ih _ (h.trans (hb g b)) hp.2 a ha q hq hs

/-! ### Last use -/

theorem Group.alterField_bases (g : Group) (u : Option Nat) (f : Nat) (h : RegFile → Nat → RegFile) :
    SameBases g (g.alterField u f h) := by
  unfold Group.alterField
  by_cases hf : 96 ≤ f
  · simp [hf, SameBases, Group.lane?]
  · cases u with
    | none => simp [hf, SameBases, Group.lane?]
    | some l =>
      simp only [hf, if_false]
      exact SameBases.trans (h := { g with written := _ }) ⟨rfl, fun _ => rfl, rfl⟩ (SameBases.modLane _ _ _ fun _ => rfl)

/-- A change of one register leaves every other alone, if the change of its file does. -/
theorem Group.alterField_other (g : Group) (u : Option Nat) (f : Nat) (h : RegFile → Nat → RegFile)
    (keeps : ∀ r n m, m ≠ n → (h r n).get? m = r.get? m) (q : RegPlace) (out : q ≠ g.place u f) :
    (g.alterField u f h).at q.1 q.2 = g.at q.1 q.2 := by
  unfold Group.alterField
  obtain ⟨l', n⟩ := q
  by_cases hf : 96 ≤ f
  · rw [g.place_uniform u f hf] at out
    cases l' with
    | none =>
      simp only [hf, if_true, Group.at, Group.regNum]
      exact keeps _ _ _ fun e => out (by rw [e])
    | some j => simp [hf, Group.at, Group.lane?]
  · cases u with
    | none =>
      simp only [hf, if_false]
      rfl
    | some l =>
      simp only [hf, if_false]
      refine (Group.at_modLane { g with written := _ } l _ (l', n) ?_).trans rfl
      intro y hl
      apply keeps
      intro e
      apply out
      rw [g.place_lane l f hf]
      simp only [Group.regNum, hf, if_false] at e
      simp only at hl
      rw [hl, e]

theorem Group.freeField_bases (g : Group) (u : Option Nat) (f : Nat) : SameBases g (g.freeField u f) :=
  g.alterField_bases u f _

theorem Group.freeField_other (g : Group) (u : Option Nat) (f : Nat) (q : RegPlace) (h : q ≠ g.place u f) :
    (g.freeField u f).at q.1 q.2 = g.at q.1 q.2 :=
  g.alterField_other u f _ (fun r n m => RegFile.get?_free_other r n m) q h

/-- The places that the last uses of a word free. -/
def Issue.frees (x : Issue) (g : Group) (q : RegPlace) : Prop :=
  ∃ o ∈ x.desc.ops, o.last = true ∧ ∃ j < o.count, ∃ u, (u ∈ x.allUnits ∨ (u = none ∧ 96 ≤ o.field.toNat + j)) ∧
    q = g.place u (o.field.toNat + j)

theorem Group.freeLast_bases (g : Group) (x : Issue) : SameBases g (g.freeLast x) := by
  unfold Group.freeLast
  apply foldl_bases
  intro g o
  apply foldl_bases
  intro g k
  simp only
  split
  · split
    · exact SameBases.refl _
    · exact Group.freeField_bases _ _ _
  · exact foldl_bases _ (fun g u => Group.freeField_bases g u _) _ _

theorem Group.freeLast_other (g : Group) (x : Issue) (q : RegPlace) (h : ¬ x.frees g q) :
    (g.freeLast x).at q.1 q.2 = g.at q.1 q.2 := by
  unfold Group.freeLast
  refine foldl_other g _ (fun o q => ∃ k < o.count, ∃ u, (u ∈ x.allUnits ∨ (u = none ∧ 96 ≤ o.field.toNat + k)) ∧
    q = g.place u (o.field.toNat + k)) ?_ ?_ _ g (SameBases.refl g) q ?_
  · intro g o
    apply foldl_bases
    intro g k
    simp only
    split
    · split
      · exact SameBases.refl _
      · exact Group.freeField_bases _ _ _
    · exact foldl_bases _ (fun g u => Group.freeField_bases g u _) _ _
  · intro g' o q hg hq
    refine foldl_other g _ (fun k q => ∃ u, (u ∈ x.allUnits ∨ (u = none ∧ 96 ≤ o.field.toNat + k)) ∧
      q = g.place u (o.field.toNat + k)) ?_ ?_ _ g' hg q ?_
    · intro g k
      simp only
      split
      · split
        · exact SameBases.refl _
        · exact Group.freeField_bases _ _ _
      · exact foldl_bases _ (fun g u => Group.freeField_bases g u _) _ _
    · intro g2 k q hg2 hq
      simp only
      split
      · rename_i h96
        split
        · rfl
        · apply Group.freeField_other
          rw [hg2.place]
          exact fun e => hq ⟨none, .inr ⟨rfl, h96⟩, e⟩
      · refine foldl_other g _ (fun u q => q = g.place u (o.field.toNat + k)) (fun g u => Group.freeField_bases g u _) ?_ _ g2 hg2 q ?_
        · intro g3 u q hg3 hq
          apply Group.freeField_other
          rwa [hg3.place]
        · intro u hu e
          exact hq ⟨u, .inl hu, e⟩
    · intro k hk ⟨u, hu, e⟩
      exact hq ⟨k, by simpa using hk, u, hu, e⟩
  · intro o ho ⟨k, hk, u, hu, e⟩
    rw [List.mem_filter] at ho
    exact h ⟨o, ho.1, ho.2, k, hk, u, hu, e⟩

/-! ### Results -/

theorem Group.writeOpnd_bases (g : Group) (u : Option Nat) (o : Opnd) (v : Val) : SameBases g (g.writeOpnd u o v) :=
  Group.writeRegs_bases _ _ _ _ _

theorem Val.toRegs_length (v : Val) (n : Nat) : (v.toRegs n).length = n := by simp [Val.toRegs]

theorem Group.writeOpnd_other (g : Group) (u : Option Nat) (o : Opnd) (v : Val) (q : RegPlace)
    (h : ∀ j < o.count, q ≠ g.place u (o.field.toNat + j)) : (g.writeOpnd u o v).at q.1 q.2 = g.at q.1 q.2 :=
  Group.writeRegs_other _ _ _ _ _ _ (by simpa [Val.toRegs_length] using h)

theorem Group.writeOpnd_same (g : Group) (u : Option Nat) (o : Opnd) (v : Val) (hh : oneHalf o.field.toNat o.count)
    (hn : ∀ j < o.count, g.names u (o.field.toNat + j)) (j : Nat) (h : j < o.count) :
    (g.writeOpnd u o v).at (g.place u (o.field.toNat + j)).1 (g.place u (o.field.toNat + j)).2 =
      some ⟨bitsOf v.bits (32 * j) 32, v.poison⟩ := by
  have := Group.writeRegs_same g u o.field.toNat (v.toRegs o.count) v.tag (by simpa [Val.toRegs_length] using hh)
    (by simpa [Val.toRegs_length] using hn) j (by simpa [Val.toRegs_length] using h)
  rw [Group.writeOpnd, this]
  simp [Val.toRegs]

theorem Group.modLanes_lane? (g : Group) (ls : List Nat) (f : Lane → Lane) (i : Nat) :
    (g.modLanes ls f).lane? i = (g.lane? i).map fun y => if ls.contains i then f y else y := by
  simp only [Group.lane?, Group.modLanes, List.getElem?_map, List.getElem?_zipIdx, Option.map_map]
  cases g.lanes[i]? <;> simp

theorem Group.modLanes_bases (g : Group) (ls : List Nat) (f : Lane → Lane) (h : ∀ y, (f y).vb = y.vb) :
    SameBases g (g.modLanes ls f) := by
  refine ⟨rfl, fun i => ?_, by simp [Group.modLanes]⟩
  rw [Group.modLanes_lane?]
  cases g.lane? i with
  | none => rfl
  | some y => by_cases hc : i ∈ ls <;> simp [hc, h]

theorem Group.modLanes_at (g : Group) (ls : List Nat) (f : Lane → Lane) (h : ∀ y, (f y).v = y.v) (q : RegPlace) :
    (g.modLanes ls f).at q.1 q.2 = g.at q.1 q.2 := by
  obtain ⟨l, n⟩ := q
  cases l with
  | none => rfl
  | some i =>
    simp only [Group.at, Group.modLanes_lane?]
    cases g.lane? i with
    | none => rfl
    | some y => by_cases hc : i ∈ ls <;> simp [hc, h]

theorem Group.raiseFlags_bases (g : Group) (x : Issue) (u : Option Nat) (fl : Flags) : SameBases g (g.raiseFlags x u fl) := by
  unfold Group.raiseFlags
  split
  · exact SameBases.refl _
  · split
    · split
      · exact SameBases.modLane _ _ _ fun _ => rfl
      · exact SameBases.refl _
    · exact Group.modLanes_bases _ _ _ fun _ => rfl

theorem Group.raiseFlags_at (g : Group) (x : Issue) (u : Option Nat) (fl : Flags) (q : RegPlace) :
    (g.raiseFlags x u fl).at q.1 q.2 = g.at q.1 q.2 := by
  unfold Group.raiseFlags
  split
  · rfl
  · split
    · split
      · exact Group.at_modLane _ _ _ _ fun _ _ => rfl
      · rfl
    · exact Group.modLanes_at g x.active (fun y => { y with flags := y.flags ||| fl }) (fun _ => rfl) q

theorem Group.zeroMasked_bases (g : Group) (x : Issue) (o : Opnd) : SameBases g (g.zeroMasked x o) :=
  foldl_bases _ (fun g l => Group.writeOpnd_bases g (some l) o Val.zero) _ _

theorem Group.zeroMasked_other (g : Group) (x : Issue) (o : Opnd) (q : RegPlace)
    (h : ∀ l ∈ x.zeroed, ∀ j < o.count, q ≠ g.place (some l) (o.field.toNat + j)) :
    (g.zeroMasked x o).at q.1 q.2 = g.at q.1 q.2 := by
  refine foldl_other g _ (fun l q => ∃ j < o.count, q = g.place (some l) (o.field.toNat + j))
    (fun g l => Group.writeOpnd_bases g (some l) o Val.zero) ?_ _ g (SameBases.refl g) q ?_
  · intro g' l q hg hq
    apply Group.writeOpnd_other
    intro j hj e
    rw [hg.place] at e
    exact hq ⟨j, hj, e⟩
  · exact fun l hl ⟨j, hj, e⟩ => h l hl j hj e

/-- One unit's result of a register-to-register word. -/
def aluOut (x : Issue) (o : Opnd) (f : Srcs → LaneOut) (g : Group) (p : Option Nat × Srcs) : Group :=
  match (f p.2).val with
  | some v => (g.writeOpnd p.1 o ⟨v, (f p.2).tag, p.2.poison⟩).raiseFlags x p.1 (f p.2).flags
  | none => g.raiseFlags x p.1 (f p.2).flags

theorem aluOut_bases (x : Issue) (o : Opnd) (f : Srcs → LaneOut) (g : Group) (p : Option Nat × Srcs) :
    SameBases g (aluOut x o f g p) := by
  unfold aluOut
  split
  · exact (Group.writeOpnd_bases _ _ _ _).trans (Group.raiseFlags_bases _ _ _ _)
  · exact Group.raiseFlags_bases _ _ _ _

theorem aluOut_other (x : Issue) (o : Opnd) (f : Srcs → LaneOut) (g : Group) (p : Option Nat × Srcs) (q : RegPlace)
    (h : ∀ j < o.count, q ≠ g.place p.1 (o.field.toNat + j)) : (aluOut x o f g p).at q.1 q.2 = g.at q.1 q.2 := by
  unfold aluOut
  split
  · rw [Group.raiseFlags_at, Group.writeOpnd_other _ _ _ _ _ h]
  · exact Group.raiseFlags_at _ _ _ _ _

theorem Group.aluWrite_eq (g : Group) (s : State) (g0 : Group) (x : Issue) (f : FloatEnv → Srcs → LaneOut) (o : Opnd)
    (ho : x.desc.ops.find? (fun o => o.role == .d && o.write) = some o) :
    g.aluWrite s g0 x f =
      ((x.allUnits.map fun u => (u, readSrcs s g0 x.desc u)).foldl (aluOut x o (f (g0.floatEnv x.pfx))) (g.freeLast x)).zeroMasked
        x o := by
  unfold Group.aluWrite
  rw [ho]
  rfl

theorem receiving_nodup (x : Issue) : x.receiving.Nodup := List.Nodup.sublist List.filter_sublist List.nodup_range

/-- Places of different units do not meet, when the operand is uniform only for a word that executes once. -/
theorem places_apart (g : Group) (x : Issue) (o : Opnd) (hu : 96 ≤ o.field.toNat → x.once = true)
    (hh : oneHalf o.field.toNat o.count) :
    x.allUnits.Pairwise fun u v => ∀ q : RegPlace, (∃ j < o.count, q = g.place u (o.field.toNat + j)) →
      ¬ ∃ j < o.count, q = g.place v (o.field.toNat + j) := by
  unfold Issue.allUnits
  by_cases h : x.once = true
  · simp [h]
  · simp only [h, Bool.false_eq_true, if_false, List.pairwise_map]
    refine (receiving_nodup x).imp ?_
    intro a b hab q ⟨i, hi, ei⟩ ⟨j, hj, ej⟩
    have h96 : ¬ 96 ≤ o.field.toNat := fun c => h (hu c)
    have hlt := hh.resolve_left h96
    rw [g.place_lane a _ (by omega)] at ei
    rw [g.place_lane b _ (by omega)] at ej
    rw [ei] at ej
    exact hab (by simpa using congrArg Prod.fst ej)

/-- A register-to-register word writes its result in every unit that takes part. -/
theorem Group.aluWrite_result (g : Group) (s : State) (g0 : Group) (x : Issue) (f : FloatEnv → Srcs → LaneOut) (o : Opnd)
    (ho : x.desc.ops.find? (fun o => o.role == .d && o.write) = some o)
    (hu : 96 ≤ o.field.toNat → x.once = true) (hh : oneHalf o.field.toNat o.count)
    (hz : ∀ l ∈ x.zeroed, l ∉ x.receiving) (hz1 : x.once = true → x.zeroed = [])
    (u : Option Nat) (hm : u ∈ x.allUnits) (hn : ∀ j < o.count, g.names u (o.field.toNat + j))
    (v : BitVec 128) (hv : (f (g0.floatEnv x.pfx) (readSrcs s g0 x.desc u)).val = some v) (j : Nat) (hj : j < o.count) :
    (g.aluWrite s g0 x f).at (g.place u (o.field.toNat + j)).1 (g.place u (o.field.toNat + j)).2 =
      some ⟨bitsOf v (32 * j) 32, (readSrcs s g0 x.desc u).poison⟩ := by
  have hf := Group.freeLast_bases g x
  rw [Group.aluWrite_eq g s g0 x f o ho, Group.zeroMasked_other]
  · have key := foldl_same g (aluOut x o (f (g0.floatEnv x.pfx)))
      (fun p q => ∃ j < o.count, q = g.place p.1 (o.field.toNat + j))
      (fun p q => ⟨bitsOf v (32 * j) 32, (readSrcs s g0 x.desc u).poison⟩)
      (aluOut_bases x o _) (fun g' p q hg hq => aluOut_other x o _ g' p q fun i hi e => hq ⟨i, hi, by rwa [hg.place] at e⟩)
      (x.allUnits.map fun u => (u, readSrcs s g0 x.desc u)) (g.freeLast x) hf
      (by rw [List.pairwise_map]; exact places_apart g x o hu hh)
      (u, readSrcs s g0 x.desc u) (List.mem_map.mpr ⟨u, hm, rfl⟩) (g.place u (o.field.toNat + j)) ⟨j, hj, rfl⟩
    apply key
    intro g' hg
    unfold aluOut
    simp only [hv]
    rw [Group.raiseFlags_at, ← hg.place, Group.writeOpnd_same g' u o _ hh (fun i hi => hg.names (hn i hi)) j hj]
  · intro l hl i hi e
    have hb := foldl_bases (aluOut x o (f (g0.floatEnv x.pfx))) (aluOut_bases x o _)
      (x.allUnits.map fun u => (u, readSrcs s g0 x.desc u)) (g.freeLast x)
    rw [(hf.trans hb).place] at e
    by_cases h1 : x.once = true
    · rw [hz1 h1] at hl
      exact absurd hl (by simp)
    · have h96 : ¬ 96 ≤ o.field.toNat := fun c => h1 (hu c)
      have hlt := hh.resolve_left h96
      unfold Issue.allUnits at hm
      simp only [h1, Bool.false_eq_true, if_false, List.mem_map] at hm
      obtain ⟨m, hm, rfl⟩ := hm
      rw [g.place_lane m _ (by omega), g.place_lane l _ (by omega)] at e
      have : m = l := by simpa using congrArg Prod.fst e
      exact hz l hl (this ▸ hm)

/-- A register-to-register word leaves every register alone that it neither writes nor frees. -/
theorem Group.aluWrite_other (g : Group) (s : State) (g0 : Group) (x : Issue) (f : FloatEnv → Srcs → LaneOut) (o : Opnd)
    (ho : x.desc.ops.find? (fun o => o.role == .d && o.write) = some o) (q : RegPlace) (hfree : ¬ x.frees g q)
    (hout : ∀ u, u ∈ x.allUnits ∨ (∃ l ∈ x.zeroed, u = some l) → ∀ j < o.count, q ≠ g.place u (o.field.toNat + j)) :
    (g.aluWrite s g0 x f).at q.1 q.2 = g.at q.1 q.2 := by
  have hf := Group.freeLast_bases g x
  have hb := foldl_bases (aluOut x o (f (g0.floatEnv x.pfx))) (aluOut_bases x o _)
    (x.allUnits.map fun u => (u, readSrcs s g0 x.desc u)) (g.freeLast x)
  rw [Group.aluWrite_eq g s g0 x f o ho, Group.zeroMasked_other, ← Group.freeLast_other g x q hfree]
  · refine foldl_other g (aluOut x o (f (g0.floatEnv x.pfx))) (fun p q => ∃ j < o.count, q = g.place p.1 (o.field.toNat + j))
      (aluOut_bases x o _) (fun g' p q hg hq => aluOut_other x o _ g' p q fun i hi e => hq ⟨i, hi, by rwa [hg.place] at e⟩)
      _ _ hf q ?_
    intro p hp ⟨j, hj, e⟩
    obtain ⟨u, hu, rfl⟩ := List.mem_map.mp hp
    exact hout u (.inl hu) j hj e
  · intro l hl j hj e
    rw [(hf.trans hb).place] at e
    exact hout (some l) (.inr ⟨l, hl, rfl⟩) j hj e

end Sys2Proof.Machine
end

