-- ==== Sys2Proof/Laws/Memory.lean ====
section
/-!
SUPPORT. Memory: a byte written is read back, every other byte is left alone, and every operation keeps the canonical form.
-/

namespace Sys2Proof.Machine

open Sys2Proof

/-! ### Rising lists -/

theorem risingKeys_iff {α : Type} (l : List (Nat × α)) : risingKeys l = true ↔ l.Pairwise fun a b => a.1 < b.1 := by
  induction l with
  | nil => simp [risingKeys]
  | cons x t ih =>
    cases t with
    | nil => simp [risingKeys]
    | cons y t =>
      rw [List.pairwise_cons, ← ih]
      simp only [risingKeys, Bool.and_eq_true, decide_eq_true_eq, List.mem_cons, forall_eq_or_imp]
      constructor
      · intro ⟨h, r⟩
        refine ⟨⟨h, fun a ha => ?_⟩, r⟩
        rw [ih] at r
        exact Nat.lt_trans h ((List.pairwise_cons.mp r).1 a ha)
      · exact fun ⟨⟨h, _⟩, r⟩ => ⟨h, r⟩

theorem rising_iff (l : List Nat) : rising l = true ↔ l.Pairwise (· < ·) := by
  induction l with
  | nil => simp [rising]
  | cons x t ih =>
    cases t with
    | nil => simp [rising]
    | cons y t =>
      rw [List.pairwise_cons, ← ih]
      simp only [rising, Bool.and_eq_true, decide_eq_true_eq, List.mem_cons, forall_eq_or_imp]
      constructor
      · intro ⟨h, r⟩
        refine ⟨⟨h, fun a ha => ?_⟩, r⟩
        rw [ih] at r
        exact Nat.lt_trans h ((List.pairwise_cons.mp r).1 a ha)
      · exact fun ⟨⟨h, _⟩, r⟩ => ⟨h, r⟩

theorem mem_putKey {α : Type} (k : Nat) (v : α) (l : List (Nat × α)) (x : Nat × α) (h : x ∈ putKey k v l) : x = (k, v) ∨ x ∈ l := by
  induction l with
  | nil => simpa [putKey] using h
  | cons y t ih =>
    obtain ⟨j, w⟩ := y
    simp only [putKey] at h
    split at h
    · simpa using h
    · split at h
      · rcases List.mem_cons.mp h with h | h
        · exact .inl h
        · exact .inr (List.mem_cons_of_mem _ h)
      · rcases List.mem_cons.mp h with h | h
        · exact .inr (h ▸ List.mem_cons_self)
        · exact (ih h).imp id (List.mem_cons_of_mem _)

theorem putKey_rising {α : Type} (k : Nat) (v : α) (l : List (Nat × α)) (h : l.Pairwise fun a b => a.1 < b.1) :
    (putKey k v l).Pairwise fun a b => a.1 < b.1 := by
  induction l with
  | nil => simp [putKey]
  | cons y t ih =>
    obtain ⟨j, w⟩ := y
    rw [List.pairwise_cons] at h
    simp only [putKey]
    split
    · rename_i hk
      rw [List.pairwise_cons, List.pairwise_cons]
      refine ⟨fun a ha => ?_, h⟩
      rcases List.mem_cons.mp ha with rfl | ha
      · exact hk
      · exact Nat.lt_trans hk (h.1 a ha)
    · split
      · rename_i hk
        subst hk
        exact List.pairwise_cons.mpr h
      · rename_i h1 h2
        rw [List.pairwise_cons]
        refine ⟨fun a ha => ?_, ih h.2⟩
        rcases mem_putKey k v t a ha with rfl | ha
        · simp only
          omega
        · exact h.1 a ha

theorem dropKey_sublist {α : Type} (k : Nat) (l : List (Nat × α)) : (dropKey k l).Sublist l := by
  induction l with
  | nil => exact .slnil
  | cons y t ih =>
    obtain ⟨j, w⟩ := y
    simp only [dropKey]
    split
    · exact ih.cons _
    · exact ih.cons_cons _

theorem putNat_rising (k : Nat) (l : List Nat) (h : rising l = true) : rising (putNat k l) = true := by
  rw [rising_iff] at h ⊢
  have mem : ∀ (l : List Nat) x, x ∈ putNat k l → x = k ∨ x ∈ l := by
    intro l
    induction l with
    | nil => simp [putNat]
    | cons y t ih =>
      intro x hx
      simp only [putNat] at hx
      split at hx
      · simpa using hx
      · split at hx
        · exact .inr hx
        · rcases List.mem_cons.mp hx with rfl | hx
          · exact .inr List.mem_cons_self
          · exact (ih x hx).imp id (List.mem_cons_of_mem _)
  induction l with
  | nil => simp [putNat]
  | cons y t ih =>
    rw [List.pairwise_cons] at h
    simp only [putNat]
    split
    · rename_i hk
      rw [List.pairwise_cons, List.pairwise_cons]
      refine ⟨fun a ha => ?_, h⟩
      rcases List.mem_cons.mp ha with rfl | ha
      · exact hk
      · exact Nat.lt_trans hk (h.1 a ha)
    · split
      · exact List.pairwise_cons.mpr h
      · rw [List.pairwise_cons]
        refine ⟨fun a ha => ?_, ih h.2⟩
        rcases mem t a ha with rfl | ha
        · omega
        · exact h.1 a ha

theorem filter_rising (p : Nat → Bool) (l : List Nat) (h : rising l = true) : rising (l.filter p) = true := by
  rw [rising_iff] at h ⊢
  exact h.sublist List.filter_sublist

/-! ### Cells -/

theorem cellsWf_iff (c : List Host.Cell) :
    cellsWf c = true ↔ (c.Pairwise fun a b => a.1 < b.1) ∧ ∀ x ∈ c, x.2 ≠ unlisted := by
  simp [cellsWf, risingKeys_iff, List.all_eq_true]

theorem cellsWrite_wf (c : List Host.Cell) (a : Nat) (b : Byte) (h : cellsWf c = true) : cellsWf (cellsWrite c a b) = true := by
  rw [cellsWf_iff] at h ⊢
  unfold cellsWrite
  split
  · exact ⟨h.1.sublist (dropKey_sublist a c), fun x hx => h.2 x ((dropKey_sublist a c).subset hx)⟩
  · rename_i hb
    refine ⟨putKey_rising a b c h.1, fun x hx => ?_⟩
    rcases mem_putKey a b c x hx with rfl | hx
    · exact hb
    · exact h.2 x hx

/-- Writing bytes keeps the canonical form. -/
theorem cellsWriteN_wf (bs : List Byte) : ∀ (c : List Host.Cell) (a : Nat), cellsWf c = true → cellsWf (cellsWriteN c a bs) = true := by
  induction bs with
  | nil => exact fun _ _ h => h
  | cons b t ih => exact fun c a h => ih _ _ (cellsWrite_wf c a b h)

theorem cellsRead_write (c : List Host.Cell) (a : Nat) (b : Byte) (k : Nat) :
    cellsRead (cellsWrite c a b) k = if k = a then b else cellsRead c k := by
  unfold cellsRead cellsWrite
  by_cases h : k = a
  · subst h
    split
    · rename_i hb
      simp [lookupKey_dropKey_same, hb]
    · simp [lookupKey_putKey_same]
  · split
    · rw [lookupKey_dropKey_other _ _ _ h]
    · rw [lookupKey_putKey_other _ _ _ _ h]

/-- A byte written is read back; every other byte is as it was. -/
theorem cellsRead_writeN (bs : List Byte) : ∀ (c : List Host.Cell) (a k : Nat),
    cellsRead (cellsWriteN c a bs) k = if a ≤ k ∧ k < a + bs.length then bs[k - a]?.getD 0 else cellsRead c k := by
  induction bs with
  | nil =>
    intro c a k
    rw [if_neg (by simp)]
    rfl
  | cons b t ih =>
    intro c a k
    simp only [cellsWriteN, ih, cellsRead_write, List.length_cons]
    by_cases h1 : k = a
    · subst h1
      rw [if_neg (by omega), if_pos rfl, if_pos (by omega)]
      simp
    · by_cases h2 : a + 1 ≤ k ∧ k < a + 1 + t.length
      · rw [if_pos h2, if_pos (by omega)]
        obtain ⟨i, hi⟩ : ∃ i, k - a = i + 1 := ⟨k - a - 1, by omega⟩
        have : k - (a + 1) = i := by omega
        rw [this, hi]
        simp
      · rw [if_neg h2, if_neg h1, if_neg (by omega)]

/-! ### Memory -/

theorem Memory.wf_iff (m : Memory) :
    m.wf = true ↔ cellsWf m.cells = true ∧ rising m.tags = true ∧ rising m.poison = true := by
  simp [Memory.wf, and_assoc]

/-- A store is read back, and leaves every other byte alone. -/
theorem Memory.read_store (m : Memory) (k : Nat) (bs : List Byte) (a : Nat) :
    (m.store k bs).read a = if k ≤ a ∧ a < k + bs.length then bs[a - k]?.getD 0 else m.read a :=
  cellsRead_writeN bs m.cells k a

@[simp] theorem Memory.read_setTag (m : Memory) (k : Nat) (b : Bool) (a : Nat) : (m.setTag k b).read a = m.read a := rfl
@[simp] theorem Memory.read_setPoison (m : Memory) (k : Nat) (b : Bool) (a : Nat) : (m.setPoison k b).read a = m.read a := rfl
@[simp] theorem Memory.read_spoil (m : Memory) (k n a : Nat) : (m.spoil k n).read a = m.read a := by
  unfold Memory.spoil
  induction unitsOf k n generalizing m with
  | nil => rfl
  | cons u t ih => exact (ih _).trans rfl
@[simp] theorem Memory.read_cleanFrame (m : Memory) (k n a : Nat) : (m.cleanFrame k n).read a = m.read a := rfl

theorem Memory.store_wf (m : Memory) (k : Nat) (bs : List Byte) (h : m.wf = true) : (m.store k bs).wf = true := by
  rw [Memory.wf_iff] at h ⊢
  exact ⟨cellsWriteN_wf bs _ k h.1, filter_rising _ _ h.2.1, h.2.2⟩

theorem Memory.setTag_wf (m : Memory) (k : Nat) (b : Bool) (h : m.wf = true) : (m.setTag k b).wf = true := by
  rw [Memory.wf_iff] at h ⊢
  refine ⟨h.1, ?_, h.2.2⟩
  cases b
  · exact filter_rising _ _ h.2.1
  · exact putNat_rising _ _ h.2.1

theorem Memory.setPoison_wf (m : Memory) (k : Nat) (b : Bool) (h : m.wf = true) : (m.setPoison k b).wf = true := by
  rw [Memory.wf_iff] at h ⊢
  refine ⟨h.1, h.2.1, ?_⟩
  cases b
  · exact filter_rising _ _ h.2.2
  · exact putNat_rising _ _ h.2.2

theorem Memory.put_wf (m : Memory) (k : Nat) (b : Byte) (h : m.wf = true) : (m.put k b).wf = true := by
  rw [Memory.wf_iff] at h ⊢
  exact ⟨cellsWrite_wf _ k b h.1, h.2⟩

theorem Memory.storeNat_wf (m : Memory) (k n x : Nat) (h : m.wf = true) : (m.storeNat k n x).wf = true := m.store_wf k _ h

theorem Memory.storeCap_wf (m : Memory) (k : Nat) (bs : List Byte) (t : Bool) (h : m.wf = true) : (m.storeCap k bs t).wf = true :=
  Memory.setTag_wf _ _ _ (m.store_wf k bs h)

theorem Memory.cleanFrame_wf (m : Memory) (k n : Nat) (h : m.wf = true) : (m.cleanFrame k n).wf = true := by
  rw [Memory.wf_iff] at h ⊢
  exact ⟨h.1, h.2.1, filter_rising _ _ h.2.2⟩

theorem Memory.fillFrame_wf (m : Memory) (k : Nat) (bs : List Byte) (h : m.wf = true) : (m.fillFrame k bs).wf = true :=
  Memory.cleanFrame_wf _ _ _ (m.store_wf k bs h)

theorem Memory.dropTier1_wf (m : Memory) (h : m.wf = true) : m.dropTier1.wf = true := by
  rw [Memory.wf_iff] at h ⊢
  rw [cellsWf_iff] at h ⊢
  refine ⟨⟨h.1.1.sublist List.filter_sublist, fun x hx => h.1.2 x (List.mem_filter.mp hx).1⟩, filter_rising _ _ h.2.1, filter_rising _ _ h.2.2⟩

/-- Steps that each keep the canonical form keep it together. -/
theorem foldl_wf {α : Type} (f : Memory → α → Memory) (hf : ∀ m a, m.wf = true → (f m a).wf = true) (l : List α) :
    ∀ m : Memory, m.wf = true → (l.foldl f m).wf = true := by
  induction l with
  | nil => exact fun _ h => h
  | cons a t ih => exact fun m h => ih _ (hf m a h)

theorem Memory.spoil_wf (m : Memory) (k n : Nat) (h : m.wf = true) : (m.spoil k n).wf = true :=
  foldl_wf _ (fun _ _ hm => Memory.setPoison_wf _ _ _ hm) _ _ h

theorem Memory.settle_wf (m : Memory) (k n : Nat) (p : Bool) (h : m.wf = true) : (m.settle k n p).wf = true := by
  cases p
  · refine foldl_wf _ (fun y u hy => ?_) _ _ h
    dsimp only
    split
    · exact Memory.setPoison_wf _ _ _ hy
    · exact hy
  · exact m.spoil_wf k n h

theorem Memory.damage_wf (m : Memory) (k : Nat) (h : m.wf = true) : (m.damage k).wf = true := by
  have hp := m.setPoison_wf k true h
  rw [Memory.wf_iff] at h hp ⊢
  exact ⟨hp.1, filter_rising _ _ h.2.1, hp.2.2⟩

theorem Memory.write_wf (m : Memory) (k : Nat) (bs : List Byte) (p : Bool) (h : m.wf = true) : (m.write k bs p).wf = true :=
  Memory.settle_wf _ _ _ _ (m.store_wf k bs h)

theorem Memory.putEntry_wf (m : Memory) (a : Nat) (e : BitVec 64) (h : m.wf = true) : (m.putEntry a e).wf = true :=
  m.storeNat_wf _ _ _ h

theorem Memory.copyFrame_wf (m : Memory) (dst src n : Nat) (h : m.wf = true) : (m.copyFrame dst src n).wf = true := by
  unfold Memory.copyFrame
  simp only
  apply foldl_wf
  · intro y i hy
    split
    · exact Memory.spoil_wf _ _ _ hy
    · exact hy
  · split
    · apply foldl_wf
      · intro y i hy
        split
        · exact Memory.setTag_wf _ _ _ hy
        · exact hy
      · exact m.fillFrame_wf _ _ h
    · exact m.fillFrame_wf _ _ h

theorem Memory.putArgs_wf (m : Memory) (k : Nat) (caps : List (BitVec 128)) (args : List Byte) (h : m.wf = true) :
    (m.putArgs k caps args).wf = true := by
  unfold Memory.putArgs
  simp only
  exact foldl_wf _ (fun y i hy => Memory.setTag_wf _ _ _ hy) _ _ (m.fillFrame_wf _ _ h)

theorem Memory.performStores_wf (m : Memory) (ls : List LaneStore) (h : m.wf = true) : (m.performStores ls).wf = true := by
  unfold Memory.performStores
  simp only
  apply foldl_wf
  · intro y ln hy
    split
    · exact Memory.setPoison_wf _ _ _ hy
    · split
      · exact Memory.setPoison_wf _ _ _ hy
      · exact hy
  · refine foldl_wf _ ?_ _ _ h
    intro y l hy
    split
    · split
      · exact Memory.storeCap_wf _ _ _ _ hy
      · exact Memory.store_wf _ _ _ hy
    · exact Memory.store_wf _ _ _ hy

theorem Memory.performRmw_wf (m : Memory) (op : AtomOp) (l : LaneRmw) (h : m.wf = true) : (m.performRmw op l).2.wf = true := by
  unfold Memory.performRmw
  simp only
  split
  · exact Memory.store_wf _ _ _ h
  · exact h

theorem Memory.planCopies_wf (m : Memory) (cs : List FrameCopy) (far : List (List Byte × Bool)) (h : m.wf = true) :
    (m.planCopies cs far).wf = true := by
  unfold Memory.planCopies
  suffices ∀ (f : Memory × List (List Byte × Bool) → FrameCopy → Memory × List (List Byte × Bool)),
      (∀ acc q, acc.1.wf = true → (f acc q).1.wf = true) → ∀ (l : List FrameCopy) acc, acc.1.wf = true →
        (l.foldl f acc).1.wf = true by
    refine this _ (fun acc q hacc => ?_) cs (m, far) h
    dsimp only
    split
    · dsimp only
      split
      · exact hacc
      · exact Memory.copyFrame_wf _ _ _ _ hacc
    · split
      · exact hacc
      · refine foldl_wf _ (fun y w hy => ?_) _ _ (Memory.fillFrame_wf _ _ _ hacc)
        split
        · exact Memory.spoil_wf _ _ _ hy
        · exact hy
  intro f hf l
  induction l with
  | nil => exact fun _ h => h
  | cons q t ih => exact fun acc hacc => ih _ (hf acc q hacc)

theorem makePath_wf (va : Nat) : ∀ (n t : Nat) (m : Memory) (fs : List Nat) (r : Nat × Memory × List Nat), m.wf = true →
    makePath va n t m fs = some r → r.2.1.wf = true := by
  intro n
  induction n with
  | zero =>
    intro t m fs r h hr
    simp only [makePath, Option.some.injEq] at hr
    subst hr
    exact h
  | succ n ih =>
    intro t m fs r h hr
    simp only [makePath] at hr
    split at hr
    · split at hr
      · simp at hr
      · exact ih _ _ _ _ h hr
    · split at hr
      · simp at hr
      · exact ih _ _ _ _ (Memory.putEntry_wf _ _ _ (Memory.fillFrame_wf _ _ _ h)) hr

/-! ### Local and cluster memory -/

theorem LocalMem.wf_iff (m : LocalMem) : m.wf = true ↔ cellsWf m.cells = true ∧ rising m.poison = true := by
  simp [LocalMem.wf]

@[simp] theorem LocalMem.empty_wf : LocalMem.empty.wf = true := rfl

/-- A store to local memory is read back, and leaves every other byte alone. -/
theorem LocalMem.read_store (m : LocalMem) (k : Nat) (bs : List Byte) (a : Nat) :
    cellsRead (m.store k bs).cells a = if k ≤ a ∧ a < k + bs.length then bs[a - k]?.getD 0 else cellsRead m.cells a :=
  cellsRead_writeN bs m.cells k a

theorem LocalMem.store_wf (m : LocalMem) (a : Nat) (bs : List Byte) (h : m.wf = true) : (m.store a bs).wf = true := by
  rw [LocalMem.wf_iff] at h ⊢
  exact ⟨cellsWriteN_wf bs _ a h.1, filter_rising _ _ h.2⟩

theorem foldl_putNat_rising (ws : List Nat) : ∀ p : List Nat, rising p = true → rising (ws.foldl (fun p w => putNat w p) p) = true := by
  induction ws with
  | nil => exact fun _ h => h
  | cons w t ih => exact fun p h => ih _ (putNat_rising w p h)

theorem LocalMem.markPoison_wf (m : LocalMem) (a n : Nat) (h : m.wf = true) : (m.markPoison a n).wf = true := by
  rw [LocalMem.wf_iff] at h ⊢
  exact ⟨h.1, foldl_putNat_rising _ _ h.2⟩

/-! ### A copied frame -/

theorem foldl_read {α : Type} (f : Memory → α → Memory) (a : Nat) (hf : ∀ m x, (f m x).read a = m.read a) (l : List α) :
    ∀ m : Memory, (l.foldl f m).read a = m.read a := by
  induction l with
  | nil => exact fun _ => rfl
  | cons x t ih => exact fun m => (ih _).trans (hf m x)

theorem cellsReadN_length (c : List Host.Cell) (k n : Nat) : (cellsReadN c k n).length = n := by
  simp [cellsReadN]

/-- A copied frame leaves every byte outside the destination as it was. -/
theorem Memory.read_copyFrame (m : Memory) (dst src n a : Nat) (h : a < dst ∨ dst + n ≤ a) :
    (m.copyFrame dst src n).read a = m.read a := by
  have fill : (m.fillFrame dst (m.readN src n)).read a = m.read a := by
    rw [Memory.fillFrame, Memory.read_cleanFrame, Memory.read_store, if_neg]
    rw [Memory.readN, cellsReadN_length]
    omega
  unfold Memory.copyFrame
  simp only
  rw [foldl_read]
  · split
    · rw [foldl_read]
      · exact fill
      · intro y i; split <;> simp
    · exact fill
  · intro y i; split <;> simp

/-- A number outside the destination of a copied frame reads as it did. -/
theorem Memory.readNat_copyFrame (m : Memory) (dst src n k w : Nat) (h : k + w ≤ dst) :
    (m.copyFrame dst src n).readNat k w = m.readNat k w := by
  have e : ∀ j < w, cellsRead (m.copyFrame dst src n).cells (k + j) = cellsRead m.cells (k + j) := fun j hj =>
    m.read_copyFrame dst src n (k + j) (Or.inl (by omega))
  simp only [Memory.readNat, Memory.readN, cellsReadN]
  congr 1
  exact List.map_congr_left fun j hj => e j (List.mem_range.mp hj)

/-! ### After reset -/

theorem reset_mem_wf : State.reset.mem.wf = true := rfl

end Sys2Proof.Machine
end

