-- ==== Sys2Proof/Laws/State.lean ====
section
/-!
SUPPORT. One lemma per field for each update of the state and of a group: what the update leaves as it was.
-/

namespace Sys2Proof.Machine

open Sys2Proof

/-! ### The counter of the free values. -/

@[simp] theorem State.drawn_mem (s : State) : (s.drawn).mem = s.mem := rfl
@[simp] theorem State.drawn_dies (s : State) : (s.drawn).dies = s.dies := rfl
@[simp] theorem State.drawn_cores (s : State) : (s.drawn).cores = s.cores := rfl
@[simp] theorem State.drawn_groups (s : State) : (s.drawn).groups = s.groups := rfl
@[simp] theorem State.drawn_engines (s : State) : (s.drawn).engines = s.engines := rfl
@[simp] theorem State.drawn_blocks (s : State) : (s.drawn).blocks = s.blocks := rfl
@[simp] theorem State.drawn_bands (s : State) : (s.drawn).bands = s.bands := rfl
@[simp] theorem State.drawn_homes (s : State) : (s.drawn).homes = s.homes := rfl
@[simp] theorem State.drawn_inflight (s : State) : (s.drawn).inflight = s.inflight := rfl
@[simp] theorem State.drawn_acks (s : State) : (s.drawn).acks = s.acks := rfl
@[simp] theorem State.drawn_replies (s : State) : (s.drawn).replies = s.replies := rfl
@[simp] theorem State.drawn_copies (s : State) : (s.drawn).copies = s.copies := rfl
@[simp] theorem State.drawn_gathers (s : State) : (s.drawn).gathers = s.gathers := rfl
@[simp] theorem State.drawn_mscs (s : State) : (s.drawn).mscs = s.mscs := rfl
@[simp] theorem State.drawn_mwls (s : State) : (s.drawn).mwls = s.mwls := rfl
@[simp] theorem State.drawn_cp (s : State) : (s.drawn).cp = s.cp := rfl
@[simp] theorem State.drawn_dev (s : State) : (s.drawn).dev = s.dev := rfl
@[simp] theorem State.drawn_repair (s : State) : (s.drawn).repair = s.repair := rfl
@[simp] theorem State.drawn_fabric (s : State) : (s.drawn).fabric = s.fabric := rfl
@[simp] theorem State.drawn_nextId (s : State) : (s.drawn).nextId = s.nextId := rfl
@[simp] theorem State.drawn_inputs (s : State) : (s.drawn).inputs = s.inputs := rfl
@[simp] theorem State.drawn_turn (s : State) : (s.drawn).turn = s.turn := rfl
@[simp] theorem State.drawn_round (s : State) : (s.drawn).round = s.round := rfl
@[simp] theorem State.drawn_served (s : State) : (s.drawn).served = s.served := rfl
@[simp] theorem State.drawn_seen (s : State) : (s.drawn).seen = s.seen := rfl

/-! ### A group put back. -/

@[simp] theorem State.setGroup_mem (s : State) (g : Group) : (s.setGroup g).mem = s.mem := rfl
@[simp] theorem State.setGroup_dies (s : State) (g : Group) : (s.setGroup g).dies = s.dies := rfl
@[simp] theorem State.setGroup_cores (s : State) (g : Group) : (s.setGroup g).cores = s.cores := rfl
@[simp] theorem State.setGroup_engines (s : State) (g : Group) : (s.setGroup g).engines = s.engines := rfl
@[simp] theorem State.setGroup_blocks (s : State) (g : Group) : (s.setGroup g).blocks = s.blocks := rfl
@[simp] theorem State.setGroup_bands (s : State) (g : Group) : (s.setGroup g).bands = s.bands := rfl
@[simp] theorem State.setGroup_homes (s : State) (g : Group) : (s.setGroup g).homes = s.homes := rfl
@[simp] theorem State.setGroup_inflight (s : State) (g : Group) : (s.setGroup g).inflight = s.inflight := rfl
@[simp] theorem State.setGroup_acks (s : State) (g : Group) : (s.setGroup g).acks = s.acks := rfl
@[simp] theorem State.setGroup_replies (s : State) (g : Group) : (s.setGroup g).replies = s.replies := rfl
@[simp] theorem State.setGroup_copies (s : State) (g : Group) : (s.setGroup g).copies = s.copies := rfl
@[simp] theorem State.setGroup_gathers (s : State) (g : Group) : (s.setGroup g).gathers = s.gathers := rfl
@[simp] theorem State.setGroup_mscs (s : State) (g : Group) : (s.setGroup g).mscs = s.mscs := rfl
@[simp] theorem State.setGroup_mwls (s : State) (g : Group) : (s.setGroup g).mwls = s.mwls := rfl
@[simp] theorem State.setGroup_cp (s : State) (g : Group) : (s.setGroup g).cp = s.cp := rfl
@[simp] theorem State.setGroup_dev (s : State) (g : Group) : (s.setGroup g).dev = s.dev := rfl
@[simp] theorem State.setGroup_repair (s : State) (g : Group) : (s.setGroup g).repair = s.repair := rfl
@[simp] theorem State.setGroup_fabric (s : State) (g : Group) : (s.setGroup g).fabric = s.fabric := rfl
@[simp] theorem State.setGroup_nextId (s : State) (g : Group) : (s.setGroup g).nextId = s.nextId := rfl
@[simp] theorem State.setGroup_free (s : State) (g : Group) : (s.setGroup g).free = s.free := rfl
@[simp] theorem State.setGroup_inputs (s : State) (g : Group) : (s.setGroup g).inputs = s.inputs := rfl
@[simp] theorem State.setGroup_turn (s : State) (g : Group) : (s.setGroup g).turn = s.turn := rfl
@[simp] theorem State.setGroup_round (s : State) (g : Group) : (s.setGroup g).round = s.round := rfl
@[simp] theorem State.setGroup_served (s : State) (g : Group) : (s.setGroup g).served = s.served := rfl
@[simp] theorem State.setGroup_seen (s : State) (g : Group) : (s.setGroup g).seen = s.seen := rfl

/-! ### A group changed. -/

@[simp] theorem State.modGroup_mem (s : State) (k : GKey) (f : Group → Group) : (s.modGroup k f).mem = s.mem := rfl
@[simp] theorem State.modGroup_dies (s : State) (k : GKey) (f : Group → Group) : (s.modGroup k f).dies = s.dies := rfl
@[simp] theorem State.modGroup_cores (s : State) (k : GKey) (f : Group → Group) : (s.modGroup k f).cores = s.cores := rfl
@[simp] theorem State.modGroup_engines (s : State) (k : GKey) (f : Group → Group) : (s.modGroup k f).engines = s.engines := rfl
@[simp] theorem State.modGroup_blocks (s : State) (k : GKey) (f : Group → Group) : (s.modGroup k f).blocks = s.blocks := rfl
@[simp] theorem State.modGroup_bands (s : State) (k : GKey) (f : Group → Group) : (s.modGroup k f).bands = s.bands := rfl
@[simp] theorem State.modGroup_homes (s : State) (k : GKey) (f : Group → Group) : (s.modGroup k f).homes = s.homes := rfl
@[simp] theorem State.modGroup_inflight (s : State) (k : GKey) (f : Group → Group) : (s.modGroup k f).inflight = s.inflight := rfl
@[simp] theorem State.modGroup_acks (s : State) (k : GKey) (f : Group → Group) : (s.modGroup k f).acks = s.acks := rfl
@[simp] theorem State.modGroup_replies (s : State) (k : GKey) (f : Group → Group) : (s.modGroup k f).replies = s.replies := rfl
@[simp] theorem State.modGroup_copies (s : State) (k : GKey) (f : Group → Group) : (s.modGroup k f).copies = s.copies := rfl
@[simp] theorem State.modGroup_gathers (s : State) (k : GKey) (f : Group → Group) : (s.modGroup k f).gathers = s.gathers := rfl
@[simp] theorem State.modGroup_mscs (s : State) (k : GKey) (f : Group → Group) : (s.modGroup k f).mscs = s.mscs := rfl
@[simp] theorem State.modGroup_mwls (s : State) (k : GKey) (f : Group → Group) : (s.modGroup k f).mwls = s.mwls := rfl
@[simp] theorem State.modGroup_cp (s : State) (k : GKey) (f : Group → Group) : (s.modGroup k f).cp = s.cp := rfl
@[simp] theorem State.modGroup_dev (s : State) (k : GKey) (f : Group → Group) : (s.modGroup k f).dev = s.dev := rfl
@[simp] theorem State.modGroup_repair (s : State) (k : GKey) (f : Group → Group) : (s.modGroup k f).repair = s.repair := rfl
@[simp] theorem State.modGroup_fabric (s : State) (k : GKey) (f : Group → Group) : (s.modGroup k f).fabric = s.fabric := rfl
@[simp] theorem State.modGroup_nextId (s : State) (k : GKey) (f : Group → Group) : (s.modGroup k f).nextId = s.nextId := rfl
@[simp] theorem State.modGroup_free (s : State) (k : GKey) (f : Group → Group) : (s.modGroup k f).free = s.free := rfl
@[simp] theorem State.modGroup_inputs (s : State) (k : GKey) (f : Group → Group) : (s.modGroup k f).inputs = s.inputs := rfl
@[simp] theorem State.modGroup_turn (s : State) (k : GKey) (f : Group → Group) : (s.modGroup k f).turn = s.turn := rfl
@[simp] theorem State.modGroup_round (s : State) (k : GKey) (f : Group → Group) : (s.modGroup k f).round = s.round := rfl
@[simp] theorem State.modGroup_served (s : State) (k : GKey) (f : Group → Group) : (s.modGroup k f).served = s.served := rfl
@[simp] theorem State.modGroup_seen (s : State) (k : GKey) (f : Group → Group) : (s.modGroup k f).seen = s.seen := rfl

/-! ### An engine program changed. -/

@[simp] theorem State.modEngine_mem (s : State) (id : Nat) (f : Engine → Engine) : (s.modEngine id f).mem = s.mem := rfl
@[simp] theorem State.modEngine_dies (s : State) (id : Nat) (f : Engine → Engine) : (s.modEngine id f).dies = s.dies := rfl
@[simp] theorem State.modEngine_cores (s : State) (id : Nat) (f : Engine → Engine) : (s.modEngine id f).cores = s.cores := rfl
@[simp] theorem State.modEngine_groups (s : State) (id : Nat) (f : Engine → Engine) : (s.modEngine id f).groups = s.groups := rfl
@[simp] theorem State.modEngine_blocks (s : State) (id : Nat) (f : Engine → Engine) : (s.modEngine id f).blocks = s.blocks := rfl
@[simp] theorem State.modEngine_bands (s : State) (id : Nat) (f : Engine → Engine) : (s.modEngine id f).bands = s.bands := rfl
@[simp] theorem State.modEngine_homes (s : State) (id : Nat) (f : Engine → Engine) : (s.modEngine id f).homes = s.homes := rfl
@[simp] theorem State.modEngine_inflight (s : State) (id : Nat) (f : Engine → Engine) : (s.modEngine id f).inflight = s.inflight := rfl
@[simp] theorem State.modEngine_acks (s : State) (id : Nat) (f : Engine → Engine) : (s.modEngine id f).acks = s.acks := rfl
@[simp] theorem State.modEngine_replies (s : State) (id : Nat) (f : Engine → Engine) : (s.modEngine id f).replies = s.replies := rfl
@[simp] theorem State.modEngine_copies (s : State) (id : Nat) (f : Engine → Engine) : (s.modEngine id f).copies = s.copies := rfl
@[simp] theorem State.modEngine_gathers (s : State) (id : Nat) (f : Engine → Engine) : (s.modEngine id f).gathers = s.gathers := rfl
@[simp] theorem State.modEngine_mscs (s : State) (id : Nat) (f : Engine → Engine) : (s.modEngine id f).mscs = s.mscs := rfl
@[simp] theorem State.modEngine_mwls (s : State) (id : Nat) (f : Engine → Engine) : (s.modEngine id f).mwls = s.mwls := rfl
@[simp] theorem State.modEngine_cp (s : State) (id : Nat) (f : Engine → Engine) : (s.modEngine id f).cp = s.cp := rfl
@[simp] theorem State.modEngine_dev (s : State) (id : Nat) (f : Engine → Engine) : (s.modEngine id f).dev = s.dev := rfl
@[simp] theorem State.modEngine_repair (s : State) (id : Nat) (f : Engine → Engine) : (s.modEngine id f).repair = s.repair := rfl
@[simp] theorem State.modEngine_fabric (s : State) (id : Nat) (f : Engine → Engine) : (s.modEngine id f).fabric = s.fabric := rfl
@[simp] theorem State.modEngine_nextId (s : State) (id : Nat) (f : Engine → Engine) : (s.modEngine id f).nextId = s.nextId := rfl
@[simp] theorem State.modEngine_free (s : State) (id : Nat) (f : Engine → Engine) : (s.modEngine id f).free = s.free := rfl
@[simp] theorem State.modEngine_inputs (s : State) (id : Nat) (f : Engine → Engine) : (s.modEngine id f).inputs = s.inputs := rfl
@[simp] theorem State.modEngine_turn (s : State) (id : Nat) (f : Engine → Engine) : (s.modEngine id f).turn = s.turn := rfl
@[simp] theorem State.modEngine_round (s : State) (id : Nat) (f : Engine → Engine) : (s.modEngine id f).round = s.round := rfl
@[simp] theorem State.modEngine_served (s : State) (id : Nat) (f : Engine → Engine) : (s.modEngine id f).served = s.served := rfl
@[simp] theorem State.modEngine_seen (s : State) (id : Nat) (f : Engine → Engine) : (s.modEngine id f).seen = s.seen := rfl

/-! ### A die changed. -/

@[simp] theorem State.modDie_mem (s : State) (d : Nat) (f : Die → Die) : (s.modDie d f).mem = s.mem := rfl
@[simp] theorem State.modDie_cores (s : State) (d : Nat) (f : Die → Die) : (s.modDie d f).cores = s.cores := rfl
@[simp] theorem State.modDie_groups (s : State) (d : Nat) (f : Die → Die) : (s.modDie d f).groups = s.groups := rfl
@[simp] theorem State.modDie_engines (s : State) (d : Nat) (f : Die → Die) : (s.modDie d f).engines = s.engines := rfl
@[simp] theorem State.modDie_blocks (s : State) (d : Nat) (f : Die → Die) : (s.modDie d f).blocks = s.blocks := rfl
@[simp] theorem State.modDie_bands (s : State) (d : Nat) (f : Die → Die) : (s.modDie d f).bands = s.bands := rfl
@[simp] theorem State.modDie_homes (s : State) (d : Nat) (f : Die → Die) : (s.modDie d f).homes = s.homes := rfl
@[simp] theorem State.modDie_inflight (s : State) (d : Nat) (f : Die → Die) : (s.modDie d f).inflight = s.inflight := rfl
@[simp] theorem State.modDie_acks (s : State) (d : Nat) (f : Die → Die) : (s.modDie d f).acks = s.acks := rfl
@[simp] theorem State.modDie_replies (s : State) (d : Nat) (f : Die → Die) : (s.modDie d f).replies = s.replies := rfl
@[simp] theorem State.modDie_copies (s : State) (d : Nat) (f : Die → Die) : (s.modDie d f).copies = s.copies := rfl
@[simp] theorem State.modDie_gathers (s : State) (d : Nat) (f : Die → Die) : (s.modDie d f).gathers = s.gathers := rfl
@[simp] theorem State.modDie_mscs (s : State) (d : Nat) (f : Die → Die) : (s.modDie d f).mscs = s.mscs := rfl
@[simp] theorem State.modDie_mwls (s : State) (d : Nat) (f : Die → Die) : (s.modDie d f).mwls = s.mwls := rfl
@[simp] theorem State.modDie_cp (s : State) (d : Nat) (f : Die → Die) : (s.modDie d f).cp = s.cp := rfl
@[simp] theorem State.modDie_dev (s : State) (d : Nat) (f : Die → Die) : (s.modDie d f).dev = s.dev := rfl
@[simp] theorem State.modDie_repair (s : State) (d : Nat) (f : Die → Die) : (s.modDie d f).repair = s.repair := rfl
@[simp] theorem State.modDie_fabric (s : State) (d : Nat) (f : Die → Die) : (s.modDie d f).fabric = s.fabric := rfl
@[simp] theorem State.modDie_nextId (s : State) (d : Nat) (f : Die → Die) : (s.modDie d f).nextId = s.nextId := rfl
@[simp] theorem State.modDie_free (s : State) (d : Nat) (f : Die → Die) : (s.modDie d f).free = s.free := rfl
@[simp] theorem State.modDie_inputs (s : State) (d : Nat) (f : Die → Die) : (s.modDie d f).inputs = s.inputs := rfl
@[simp] theorem State.modDie_turn (s : State) (d : Nat) (f : Die → Die) : (s.modDie d f).turn = s.turn := rfl
@[simp] theorem State.modDie_round (s : State) (d : Nat) (f : Die → Die) : (s.modDie d f).round = s.round := rfl
@[simp] theorem State.modDie_served (s : State) (d : Nat) (f : Die → Die) : (s.modDie d f).served = s.served := rfl
@[simp] theorem State.modDie_seen (s : State) (d : Nat) (f : Die → Die) : (s.modDie d f).seen = s.seen := rfl

/-! ### A block changed. -/

@[simp] theorem State.modBlock_mem (s : State) (l b : Nat) (f : Block → Block) : (s.modBlock l b f).mem = s.mem := rfl
@[simp] theorem State.modBlock_dies (s : State) (l b : Nat) (f : Block → Block) : (s.modBlock l b f).dies = s.dies := rfl
@[simp] theorem State.modBlock_cores (s : State) (l b : Nat) (f : Block → Block) : (s.modBlock l b f).cores = s.cores := rfl
@[simp] theorem State.modBlock_groups (s : State) (l b : Nat) (f : Block → Block) : (s.modBlock l b f).groups = s.groups := rfl
@[simp] theorem State.modBlock_engines (s : State) (l b : Nat) (f : Block → Block) : (s.modBlock l b f).engines = s.engines := rfl
@[simp] theorem State.modBlock_bands (s : State) (l b : Nat) (f : Block → Block) : (s.modBlock l b f).bands = s.bands := rfl
@[simp] theorem State.modBlock_homes (s : State) (l b : Nat) (f : Block → Block) : (s.modBlock l b f).homes = s.homes := rfl
@[simp] theorem State.modBlock_inflight (s : State) (l b : Nat) (f : Block → Block) : (s.modBlock l b f).inflight = s.inflight := rfl
@[simp] theorem State.modBlock_acks (s : State) (l b : Nat) (f : Block → Block) : (s.modBlock l b f).acks = s.acks := rfl
@[simp] theorem State.modBlock_replies (s : State) (l b : Nat) (f : Block → Block) : (s.modBlock l b f).replies = s.replies := rfl
@[simp] theorem State.modBlock_copies (s : State) (l b : Nat) (f : Block → Block) : (s.modBlock l b f).copies = s.copies := rfl
@[simp] theorem State.modBlock_gathers (s : State) (l b : Nat) (f : Block → Block) : (s.modBlock l b f).gathers = s.gathers := rfl
@[simp] theorem State.modBlock_mscs (s : State) (l b : Nat) (f : Block → Block) : (s.modBlock l b f).mscs = s.mscs := rfl
@[simp] theorem State.modBlock_mwls (s : State) (l b : Nat) (f : Block → Block) : (s.modBlock l b f).mwls = s.mwls := rfl
@[simp] theorem State.modBlock_cp (s : State) (l b : Nat) (f : Block → Block) : (s.modBlock l b f).cp = s.cp := rfl
@[simp] theorem State.modBlock_dev (s : State) (l b : Nat) (f : Block → Block) : (s.modBlock l b f).dev = s.dev := rfl
@[simp] theorem State.modBlock_repair (s : State) (l b : Nat) (f : Block → Block) : (s.modBlock l b f).repair = s.repair := rfl
@[simp] theorem State.modBlock_fabric (s : State) (l b : Nat) (f : Block → Block) : (s.modBlock l b f).fabric = s.fabric := rfl
@[simp] theorem State.modBlock_nextId (s : State) (l b : Nat) (f : Block → Block) : (s.modBlock l b f).nextId = s.nextId := rfl
@[simp] theorem State.modBlock_free (s : State) (l b : Nat) (f : Block → Block) : (s.modBlock l b f).free = s.free := rfl
@[simp] theorem State.modBlock_inputs (s : State) (l b : Nat) (f : Block → Block) : (s.modBlock l b f).inputs = s.inputs := rfl
@[simp] theorem State.modBlock_turn (s : State) (l b : Nat) (f : Block → Block) : (s.modBlock l b f).turn = s.turn := rfl
@[simp] theorem State.modBlock_round (s : State) (l b : Nat) (f : Block → Block) : (s.modBlock l b f).round = s.round := rfl
@[simp] theorem State.modBlock_served (s : State) (l b : Nat) (f : Block → Block) : (s.modBlock l b f).served = s.served := rfl
@[simp] theorem State.modBlock_seen (s : State) (l b : Nat) (f : Block → Block) : (s.modBlock l b f).seen = s.seen := rfl

/-! ### A band changed. -/

@[simp] theorem State.modBand_mem (s : State) (l b : Nat) (f : Band → Band) : (s.modBand l b f).mem = s.mem := rfl
@[simp] theorem State.modBand_dies (s : State) (l b : Nat) (f : Band → Band) : (s.modBand l b f).dies = s.dies := rfl
@[simp] theorem State.modBand_cores (s : State) (l b : Nat) (f : Band → Band) : (s.modBand l b f).cores = s.cores := rfl
@[simp] theorem State.modBand_groups (s : State) (l b : Nat) (f : Band → Band) : (s.modBand l b f).groups = s.groups := rfl
@[simp] theorem State.modBand_engines (s : State) (l b : Nat) (f : Band → Band) : (s.modBand l b f).engines = s.engines := rfl
@[simp] theorem State.modBand_blocks (s : State) (l b : Nat) (f : Band → Band) : (s.modBand l b f).blocks = s.blocks := rfl
@[simp] theorem State.modBand_homes (s : State) (l b : Nat) (f : Band → Band) : (s.modBand l b f).homes = s.homes := rfl
@[simp] theorem State.modBand_inflight (s : State) (l b : Nat) (f : Band → Band) : (s.modBand l b f).inflight = s.inflight := rfl
@[simp] theorem State.modBand_acks (s : State) (l b : Nat) (f : Band → Band) : (s.modBand l b f).acks = s.acks := rfl
@[simp] theorem State.modBand_replies (s : State) (l b : Nat) (f : Band → Band) : (s.modBand l b f).replies = s.replies := rfl
@[simp] theorem State.modBand_copies (s : State) (l b : Nat) (f : Band → Band) : (s.modBand l b f).copies = s.copies := rfl
@[simp] theorem State.modBand_gathers (s : State) (l b : Nat) (f : Band → Band) : (s.modBand l b f).gathers = s.gathers := rfl
@[simp] theorem State.modBand_mscs (s : State) (l b : Nat) (f : Band → Band) : (s.modBand l b f).mscs = s.mscs := rfl
@[simp] theorem State.modBand_mwls (s : State) (l b : Nat) (f : Band → Band) : (s.modBand l b f).mwls = s.mwls := rfl
@[simp] theorem State.modBand_cp (s : State) (l b : Nat) (f : Band → Band) : (s.modBand l b f).cp = s.cp := rfl
@[simp] theorem State.modBand_dev (s : State) (l b : Nat) (f : Band → Band) : (s.modBand l b f).dev = s.dev := rfl
@[simp] theorem State.modBand_repair (s : State) (l b : Nat) (f : Band → Band) : (s.modBand l b f).repair = s.repair := rfl
@[simp] theorem State.modBand_fabric (s : State) (l b : Nat) (f : Band → Band) : (s.modBand l b f).fabric = s.fabric := rfl
@[simp] theorem State.modBand_nextId (s : State) (l b : Nat) (f : Band → Band) : (s.modBand l b f).nextId = s.nextId := rfl
@[simp] theorem State.modBand_free (s : State) (l b : Nat) (f : Band → Band) : (s.modBand l b f).free = s.free := rfl
@[simp] theorem State.modBand_inputs (s : State) (l b : Nat) (f : Band → Band) : (s.modBand l b f).inputs = s.inputs := rfl
@[simp] theorem State.modBand_turn (s : State) (l b : Nat) (f : Band → Band) : (s.modBand l b f).turn = s.turn := rfl
@[simp] theorem State.modBand_round (s : State) (l b : Nat) (f : Band → Band) : (s.modBand l b f).round = s.round := rfl
@[simp] theorem State.modBand_served (s : State) (l b : Nat) (f : Band → Band) : (s.modBand l b f).served = s.served := rfl
@[simp] theorem State.modBand_seen (s : State) (l b : Nat) (f : Band → Band) : (s.modBand l b f).seen = s.seen := rfl

/-! ### The command processor changed. -/

@[simp] theorem State.modCp_mem (s : State) (f : CmdProc → CmdProc) : (s.modCp f).mem = s.mem := rfl
@[simp] theorem State.modCp_dies (s : State) (f : CmdProc → CmdProc) : (s.modCp f).dies = s.dies := rfl
@[simp] theorem State.modCp_cores (s : State) (f : CmdProc → CmdProc) : (s.modCp f).cores = s.cores := rfl
@[simp] theorem State.modCp_groups (s : State) (f : CmdProc → CmdProc) : (s.modCp f).groups = s.groups := rfl
@[simp] theorem State.modCp_engines (s : State) (f : CmdProc → CmdProc) : (s.modCp f).engines = s.engines := rfl
@[simp] theorem State.modCp_blocks (s : State) (f : CmdProc → CmdProc) : (s.modCp f).blocks = s.blocks := rfl
@[simp] theorem State.modCp_bands (s : State) (f : CmdProc → CmdProc) : (s.modCp f).bands = s.bands := rfl
@[simp] theorem State.modCp_homes (s : State) (f : CmdProc → CmdProc) : (s.modCp f).homes = s.homes := rfl
@[simp] theorem State.modCp_inflight (s : State) (f : CmdProc → CmdProc) : (s.modCp f).inflight = s.inflight := rfl
@[simp] theorem State.modCp_acks (s : State) (f : CmdProc → CmdProc) : (s.modCp f).acks = s.acks := rfl
@[simp] theorem State.modCp_replies (s : State) (f : CmdProc → CmdProc) : (s.modCp f).replies = s.replies := rfl
@[simp] theorem State.modCp_copies (s : State) (f : CmdProc → CmdProc) : (s.modCp f).copies = s.copies := rfl
@[simp] theorem State.modCp_gathers (s : State) (f : CmdProc → CmdProc) : (s.modCp f).gathers = s.gathers := rfl
@[simp] theorem State.modCp_mscs (s : State) (f : CmdProc → CmdProc) : (s.modCp f).mscs = s.mscs := rfl
@[simp] theorem State.modCp_mwls (s : State) (f : CmdProc → CmdProc) : (s.modCp f).mwls = s.mwls := rfl
@[simp] theorem State.modCp_dev (s : State) (f : CmdProc → CmdProc) : (s.modCp f).dev = s.dev := rfl
@[simp] theorem State.modCp_repair (s : State) (f : CmdProc → CmdProc) : (s.modCp f).repair = s.repair := rfl
@[simp] theorem State.modCp_fabric (s : State) (f : CmdProc → CmdProc) : (s.modCp f).fabric = s.fabric := rfl
@[simp] theorem State.modCp_nextId (s : State) (f : CmdProc → CmdProc) : (s.modCp f).nextId = s.nextId := rfl
@[simp] theorem State.modCp_free (s : State) (f : CmdProc → CmdProc) : (s.modCp f).free = s.free := rfl
@[simp] theorem State.modCp_inputs (s : State) (f : CmdProc → CmdProc) : (s.modCp f).inputs = s.inputs := rfl
@[simp] theorem State.modCp_turn (s : State) (f : CmdProc → CmdProc) : (s.modCp f).turn = s.turn := rfl
@[simp] theorem State.modCp_round (s : State) (f : CmdProc → CmdProc) : (s.modCp f).round = s.round := rfl
@[simp] theorem State.modCp_served (s : State) (f : CmdProc → CmdProc) : (s.modCp f).served = s.served := rfl
@[simp] theorem State.modCp_seen (s : State) (f : CmdProc → CmdProc) : (s.modCp f).seen = s.seen := rfl

/-! ### The device registers changed. -/

@[simp] theorem State.modDev_mem (s : State) (f : DevRegs → DevRegs) : (s.modDev f).mem = s.mem := rfl
@[simp] theorem State.modDev_dies (s : State) (f : DevRegs → DevRegs) : (s.modDev f).dies = s.dies := rfl
@[simp] theorem State.modDev_cores (s : State) (f : DevRegs → DevRegs) : (s.modDev f).cores = s.cores := rfl
@[simp] theorem State.modDev_groups (s : State) (f : DevRegs → DevRegs) : (s.modDev f).groups = s.groups := rfl
@[simp] theorem State.modDev_engines (s : State) (f : DevRegs → DevRegs) : (s.modDev f).engines = s.engines := rfl
@[simp] theorem State.modDev_blocks (s : State) (f : DevRegs → DevRegs) : (s.modDev f).blocks = s.blocks := rfl
@[simp] theorem State.modDev_bands (s : State) (f : DevRegs → DevRegs) : (s.modDev f).bands = s.bands := rfl
@[simp] theorem State.modDev_homes (s : State) (f : DevRegs → DevRegs) : (s.modDev f).homes = s.homes := rfl
@[simp] theorem State.modDev_inflight (s : State) (f : DevRegs → DevRegs) : (s.modDev f).inflight = s.inflight := rfl
@[simp] theorem State.modDev_acks (s : State) (f : DevRegs → DevRegs) : (s.modDev f).acks = s.acks := rfl
@[simp] theorem State.modDev_replies (s : State) (f : DevRegs → DevRegs) : (s.modDev f).replies = s.replies := rfl
@[simp] theorem State.modDev_copies (s : State) (f : DevRegs → DevRegs) : (s.modDev f).copies = s.copies := rfl
@[simp] theorem State.modDev_gathers (s : State) (f : DevRegs → DevRegs) : (s.modDev f).gathers = s.gathers := rfl
@[simp] theorem State.modDev_mscs (s : State) (f : DevRegs → DevRegs) : (s.modDev f).mscs = s.mscs := rfl
@[simp] theorem State.modDev_mwls (s : State) (f : DevRegs → DevRegs) : (s.modDev f).mwls = s.mwls := rfl
@[simp] theorem State.modDev_cp (s : State) (f : DevRegs → DevRegs) : (s.modDev f).cp = s.cp := rfl
@[simp] theorem State.modDev_repair (s : State) (f : DevRegs → DevRegs) : (s.modDev f).repair = s.repair := rfl
@[simp] theorem State.modDev_fabric (s : State) (f : DevRegs → DevRegs) : (s.modDev f).fabric = s.fabric := rfl
@[simp] theorem State.modDev_nextId (s : State) (f : DevRegs → DevRegs) : (s.modDev f).nextId = s.nextId := rfl
@[simp] theorem State.modDev_free (s : State) (f : DevRegs → DevRegs) : (s.modDev f).free = s.free := rfl
@[simp] theorem State.modDev_inputs (s : State) (f : DevRegs → DevRegs) : (s.modDev f).inputs = s.inputs := rfl
@[simp] theorem State.modDev_turn (s : State) (f : DevRegs → DevRegs) : (s.modDev f).turn = s.turn := rfl
@[simp] theorem State.modDev_round (s : State) (f : DevRegs → DevRegs) : (s.modDev f).round = s.round := rfl
@[simp] theorem State.modDev_served (s : State) (f : DevRegs → DevRegs) : (s.modDev f).served = s.served := rfl
@[simp] theorem State.modDev_seen (s : State) (f : DevRegs → DevRegs) : (s.modDev f).seen = s.seen := rfl

/-! ### A launch changed. -/

@[simp] theorem State.modLaunch_mem (s : State) (id : Nat) (f : Launch → Launch) : (s.modLaunch id f).mem = s.mem := rfl
@[simp] theorem State.modLaunch_dies (s : State) (id : Nat) (f : Launch → Launch) : (s.modLaunch id f).dies = s.dies := rfl
@[simp] theorem State.modLaunch_cores (s : State) (id : Nat) (f : Launch → Launch) : (s.modLaunch id f).cores = s.cores := rfl
@[simp] theorem State.modLaunch_groups (s : State) (id : Nat) (f : Launch → Launch) : (s.modLaunch id f).groups = s.groups := rfl
@[simp] theorem State.modLaunch_engines (s : State) (id : Nat) (f : Launch → Launch) : (s.modLaunch id f).engines = s.engines := rfl
@[simp] theorem State.modLaunch_blocks (s : State) (id : Nat) (f : Launch → Launch) : (s.modLaunch id f).blocks = s.blocks := rfl
@[simp] theorem State.modLaunch_bands (s : State) (id : Nat) (f : Launch → Launch) : (s.modLaunch id f).bands = s.bands := rfl
@[simp] theorem State.modLaunch_homes (s : State) (id : Nat) (f : Launch → Launch) : (s.modLaunch id f).homes = s.homes := rfl
@[simp] theorem State.modLaunch_inflight (s : State) (id : Nat) (f : Launch → Launch) : (s.modLaunch id f).inflight = s.inflight := rfl
@[simp] theorem State.modLaunch_acks (s : State) (id : Nat) (f : Launch → Launch) : (s.modLaunch id f).acks = s.acks := rfl
@[simp] theorem State.modLaunch_replies (s : State) (id : Nat) (f : Launch → Launch) : (s.modLaunch id f).replies = s.replies := rfl
@[simp] theorem State.modLaunch_copies (s : State) (id : Nat) (f : Launch → Launch) : (s.modLaunch id f).copies = s.copies := rfl
@[simp] theorem State.modLaunch_gathers (s : State) (id : Nat) (f : Launch → Launch) : (s.modLaunch id f).gathers = s.gathers := rfl
@[simp] theorem State.modLaunch_mscs (s : State) (id : Nat) (f : Launch → Launch) : (s.modLaunch id f).mscs = s.mscs := rfl
@[simp] theorem State.modLaunch_mwls (s : State) (id : Nat) (f : Launch → Launch) : (s.modLaunch id f).mwls = s.mwls := rfl
@[simp] theorem State.modLaunch_dev (s : State) (id : Nat) (f : Launch → Launch) : (s.modLaunch id f).dev = s.dev := rfl
@[simp] theorem State.modLaunch_repair (s : State) (id : Nat) (f : Launch → Launch) : (s.modLaunch id f).repair = s.repair := rfl
@[simp] theorem State.modLaunch_fabric (s : State) (id : Nat) (f : Launch → Launch) : (s.modLaunch id f).fabric = s.fabric := rfl
@[simp] theorem State.modLaunch_nextId (s : State) (id : Nat) (f : Launch → Launch) : (s.modLaunch id f).nextId = s.nextId := rfl
@[simp] theorem State.modLaunch_free (s : State) (id : Nat) (f : Launch → Launch) : (s.modLaunch id f).free = s.free := rfl
@[simp] theorem State.modLaunch_inputs (s : State) (id : Nat) (f : Launch → Launch) : (s.modLaunch id f).inputs = s.inputs := rfl
@[simp] theorem State.modLaunch_turn (s : State) (id : Nat) (f : Launch → Launch) : (s.modLaunch id f).turn = s.turn := rfl
@[simp] theorem State.modLaunch_round (s : State) (id : Nat) (f : Launch → Launch) : (s.modLaunch id f).round = s.round := rfl
@[simp] theorem State.modLaunch_served (s : State) (id : Nat) (f : Launch → Launch) : (s.modLaunch id f).served = s.served := rfl
@[simp] theorem State.modLaunch_seen (s : State) (id : Nat) (f : Launch → Launch) : (s.modLaunch id f).seen = s.seen := rfl

/-! ### A node changed. -/

@[simp] theorem State.modNode_mem (s : State) (k : NKey) (f : Node → Node) : (s.modNode k f).mem = s.mem := rfl
@[simp] theorem State.modNode_dies (s : State) (k : NKey) (f : Node → Node) : (s.modNode k f).dies = s.dies := rfl
@[simp] theorem State.modNode_cores (s : State) (k : NKey) (f : Node → Node) : (s.modNode k f).cores = s.cores := rfl
@[simp] theorem State.modNode_groups (s : State) (k : NKey) (f : Node → Node) : (s.modNode k f).groups = s.groups := rfl
@[simp] theorem State.modNode_engines (s : State) (k : NKey) (f : Node → Node) : (s.modNode k f).engines = s.engines := rfl
@[simp] theorem State.modNode_blocks (s : State) (k : NKey) (f : Node → Node) : (s.modNode k f).blocks = s.blocks := rfl
@[simp] theorem State.modNode_bands (s : State) (k : NKey) (f : Node → Node) : (s.modNode k f).bands = s.bands := rfl
@[simp] theorem State.modNode_homes (s : State) (k : NKey) (f : Node → Node) : (s.modNode k f).homes = s.homes := rfl
@[simp] theorem State.modNode_inflight (s : State) (k : NKey) (f : Node → Node) : (s.modNode k f).inflight = s.inflight := rfl
@[simp] theorem State.modNode_acks (s : State) (k : NKey) (f : Node → Node) : (s.modNode k f).acks = s.acks := rfl
@[simp] theorem State.modNode_replies (s : State) (k : NKey) (f : Node → Node) : (s.modNode k f).replies = s.replies := rfl
@[simp] theorem State.modNode_copies (s : State) (k : NKey) (f : Node → Node) : (s.modNode k f).copies = s.copies := rfl
@[simp] theorem State.modNode_gathers (s : State) (k : NKey) (f : Node → Node) : (s.modNode k f).gathers = s.gathers := rfl
@[simp] theorem State.modNode_mscs (s : State) (k : NKey) (f : Node → Node) : (s.modNode k f).mscs = s.mscs := rfl
@[simp] theorem State.modNode_mwls (s : State) (k : NKey) (f : Node → Node) : (s.modNode k f).mwls = s.mwls := rfl
@[simp] theorem State.modNode_dev (s : State) (k : NKey) (f : Node → Node) : (s.modNode k f).dev = s.dev := rfl
@[simp] theorem State.modNode_repair (s : State) (k : NKey) (f : Node → Node) : (s.modNode k f).repair = s.repair := rfl
@[simp] theorem State.modNode_fabric (s : State) (k : NKey) (f : Node → Node) : (s.modNode k f).fabric = s.fabric := rfl
@[simp] theorem State.modNode_nextId (s : State) (k : NKey) (f : Node → Node) : (s.modNode k f).nextId = s.nextId := rfl
@[simp] theorem State.modNode_free (s : State) (k : NKey) (f : Node → Node) : (s.modNode k f).free = s.free := rfl
@[simp] theorem State.modNode_inputs (s : State) (k : NKey) (f : Node → Node) : (s.modNode k f).inputs = s.inputs := rfl
@[simp] theorem State.modNode_turn (s : State) (k : NKey) (f : Node → Node) : (s.modNode k f).turn = s.turn := rfl
@[simp] theorem State.modNode_round (s : State) (k : NKey) (f : Node → Node) : (s.modNode k f).round = s.round := rfl
@[simp] theorem State.modNode_served (s : State) (k : NKey) (f : Node → Node) : (s.modNode k f).served = s.served := rfl
@[simp] theorem State.modNode_seen (s : State) (k : NKey) (f : Node → Node) : (s.modNode k f).seen = s.seen := rfl

/-! ### A queue's registers put. -/

@[simp] theorem State.setQueue_mem (s : State) (q : Queue) : (s.setQueue q).mem = s.mem := rfl
@[simp] theorem State.setQueue_dies (s : State) (q : Queue) : (s.setQueue q).dies = s.dies := rfl
@[simp] theorem State.setQueue_cores (s : State) (q : Queue) : (s.setQueue q).cores = s.cores := rfl
@[simp] theorem State.setQueue_groups (s : State) (q : Queue) : (s.setQueue q).groups = s.groups := rfl
@[simp] theorem State.setQueue_engines (s : State) (q : Queue) : (s.setQueue q).engines = s.engines := rfl
@[simp] theorem State.setQueue_blocks (s : State) (q : Queue) : (s.setQueue q).blocks = s.blocks := rfl
@[simp] theorem State.setQueue_bands (s : State) (q : Queue) : (s.setQueue q).bands = s.bands := rfl
@[simp] theorem State.setQueue_homes (s : State) (q : Queue) : (s.setQueue q).homes = s.homes := rfl
@[simp] theorem State.setQueue_inflight (s : State) (q : Queue) : (s.setQueue q).inflight = s.inflight := rfl
@[simp] theorem State.setQueue_acks (s : State) (q : Queue) : (s.setQueue q).acks = s.acks := rfl
@[simp] theorem State.setQueue_replies (s : State) (q : Queue) : (s.setQueue q).replies = s.replies := rfl
@[simp] theorem State.setQueue_copies (s : State) (q : Queue) : (s.setQueue q).copies = s.copies := rfl
@[simp] theorem State.setQueue_gathers (s : State) (q : Queue) : (s.setQueue q).gathers = s.gathers := rfl
@[simp] theorem State.setQueue_mscs (s : State) (q : Queue) : (s.setQueue q).mscs = s.mscs := rfl
@[simp] theorem State.setQueue_mwls (s : State) (q : Queue) : (s.setQueue q).mwls = s.mwls := rfl
@[simp] theorem State.setQueue_dev (s : State) (q : Queue) : (s.setQueue q).dev = s.dev := rfl
@[simp] theorem State.setQueue_repair (s : State) (q : Queue) : (s.setQueue q).repair = s.repair := rfl
@[simp] theorem State.setQueue_fabric (s : State) (q : Queue) : (s.setQueue q).fabric = s.fabric := rfl
@[simp] theorem State.setQueue_nextId (s : State) (q : Queue) : (s.setQueue q).nextId = s.nextId := rfl
@[simp] theorem State.setQueue_free (s : State) (q : Queue) : (s.setQueue q).free = s.free := rfl
@[simp] theorem State.setQueue_inputs (s : State) (q : Queue) : (s.setQueue q).inputs = s.inputs := rfl
@[simp] theorem State.setQueue_turn (s : State) (q : Queue) : (s.setQueue q).turn = s.turn := rfl
@[simp] theorem State.setQueue_round (s : State) (q : Queue) : (s.setQueue q).round = s.round := rfl
@[simp] theorem State.setQueue_served (s : State) (q : Queue) : (s.setQueue q).served = s.served := rfl
@[simp] theorem State.setQueue_seen (s : State) (q : Queue) : (s.setQueue q).seen = s.seen := rfl

/-! ### A word held back. -/

@[simp] theorem State.holdBack_mem (s : State) (x : Issue) : (s.holdBack x).mem = s.mem := rfl
@[simp] theorem State.holdBack_dies (s : State) (x : Issue) : (s.holdBack x).dies = s.dies := rfl
@[simp] theorem State.holdBack_cores (s : State) (x : Issue) : (s.holdBack x).cores = s.cores := rfl
@[simp] theorem State.holdBack_engines (s : State) (x : Issue) : (s.holdBack x).engines = s.engines := rfl
@[simp] theorem State.holdBack_blocks (s : State) (x : Issue) : (s.holdBack x).blocks = s.blocks := rfl
@[simp] theorem State.holdBack_bands (s : State) (x : Issue) : (s.holdBack x).bands = s.bands := rfl
@[simp] theorem State.holdBack_homes (s : State) (x : Issue) : (s.holdBack x).homes = s.homes := rfl
@[simp] theorem State.holdBack_inflight (s : State) (x : Issue) : (s.holdBack x).inflight = s.inflight := rfl
@[simp] theorem State.holdBack_acks (s : State) (x : Issue) : (s.holdBack x).acks = s.acks := rfl
@[simp] theorem State.holdBack_replies (s : State) (x : Issue) : (s.holdBack x).replies = s.replies := rfl
@[simp] theorem State.holdBack_copies (s : State) (x : Issue) : (s.holdBack x).copies = s.copies := rfl
@[simp] theorem State.holdBack_gathers (s : State) (x : Issue) : (s.holdBack x).gathers = s.gathers := rfl
@[simp] theorem State.holdBack_mscs (s : State) (x : Issue) : (s.holdBack x).mscs = s.mscs := rfl
@[simp] theorem State.holdBack_mwls (s : State) (x : Issue) : (s.holdBack x).mwls = s.mwls := rfl
@[simp] theorem State.holdBack_cp (s : State) (x : Issue) : (s.holdBack x).cp = s.cp := rfl
@[simp] theorem State.holdBack_dev (s : State) (x : Issue) : (s.holdBack x).dev = s.dev := rfl
@[simp] theorem State.holdBack_repair (s : State) (x : Issue) : (s.holdBack x).repair = s.repair := rfl
@[simp] theorem State.holdBack_fabric (s : State) (x : Issue) : (s.holdBack x).fabric = s.fabric := rfl
@[simp] theorem State.holdBack_nextId (s : State) (x : Issue) : (s.holdBack x).nextId = s.nextId := rfl
@[simp] theorem State.holdBack_free (s : State) (x : Issue) : (s.holdBack x).free = s.free := rfl
@[simp] theorem State.holdBack_inputs (s : State) (x : Issue) : (s.holdBack x).inputs = s.inputs := rfl
@[simp] theorem State.holdBack_turn (s : State) (x : Issue) : (s.holdBack x).turn = s.turn := rfl
@[simp] theorem State.holdBack_round (s : State) (x : Issue) : (s.holdBack x).round = s.round := rfl
@[simp] theorem State.holdBack_served (s : State) (x : Issue) : (s.holdBack x).served = s.served := rfl
@[simp] theorem State.holdBack_seen (s : State) (x : Issue) : (s.holdBack x).seen = s.seen := rfl

/-! ### Fibres held back try again. -/

@[simp] theorem State.releaseHeld_mem (s : State) : (s.releaseHeld).mem = s.mem := rfl
@[simp] theorem State.releaseHeld_dies (s : State) : (s.releaseHeld).dies = s.dies := rfl
@[simp] theorem State.releaseHeld_cores (s : State) : (s.releaseHeld).cores = s.cores := rfl
@[simp] theorem State.releaseHeld_engines (s : State) : (s.releaseHeld).engines = s.engines := rfl
@[simp] theorem State.releaseHeld_blocks (s : State) : (s.releaseHeld).blocks = s.blocks := rfl
@[simp] theorem State.releaseHeld_bands (s : State) : (s.releaseHeld).bands = s.bands := rfl
@[simp] theorem State.releaseHeld_homes (s : State) : (s.releaseHeld).homes = s.homes := rfl
@[simp] theorem State.releaseHeld_inflight (s : State) : (s.releaseHeld).inflight = s.inflight := rfl
@[simp] theorem State.releaseHeld_acks (s : State) : (s.releaseHeld).acks = s.acks := rfl
@[simp] theorem State.releaseHeld_replies (s : State) : (s.releaseHeld).replies = s.replies := rfl
@[simp] theorem State.releaseHeld_copies (s : State) : (s.releaseHeld).copies = s.copies := rfl
@[simp] theorem State.releaseHeld_gathers (s : State) : (s.releaseHeld).gathers = s.gathers := rfl
@[simp] theorem State.releaseHeld_mscs (s : State) : (s.releaseHeld).mscs = s.mscs := rfl
@[simp] theorem State.releaseHeld_mwls (s : State) : (s.releaseHeld).mwls = s.mwls := rfl
@[simp] theorem State.releaseHeld_cp (s : State) : (s.releaseHeld).cp = s.cp := rfl
@[simp] theorem State.releaseHeld_dev (s : State) : (s.releaseHeld).dev = s.dev := rfl
@[simp] theorem State.releaseHeld_repair (s : State) : (s.releaseHeld).repair = s.repair := rfl
@[simp] theorem State.releaseHeld_fabric (s : State) : (s.releaseHeld).fabric = s.fabric := rfl
@[simp] theorem State.releaseHeld_nextId (s : State) : (s.releaseHeld).nextId = s.nextId := rfl
@[simp] theorem State.releaseHeld_free (s : State) : (s.releaseHeld).free = s.free := rfl
@[simp] theorem State.releaseHeld_inputs (s : State) : (s.releaseHeld).inputs = s.inputs := rfl
@[simp] theorem State.releaseHeld_turn (s : State) : (s.releaseHeld).turn = s.turn := rfl
@[simp] theorem State.releaseHeld_round (s : State) : (s.releaseHeld).round = s.round := rfl
@[simp] theorem State.releaseHeld_served (s : State) : (s.releaseHeld).served = s.served := rfl
@[simp] theorem State.releaseHeld_seen (s : State) : (s.releaseHeld).seen = s.seen := rfl

/-! ### An engine program stopped. -/

@[simp] theorem State.stopEngine_mem (s : State) (id c : Nat) : (s.stopEngine id c).mem = s.mem := rfl
@[simp] theorem State.stopEngine_dies (s : State) (id c : Nat) : (s.stopEngine id c).dies = s.dies := rfl
@[simp] theorem State.stopEngine_cores (s : State) (id c : Nat) : (s.stopEngine id c).cores = s.cores := rfl
@[simp] theorem State.stopEngine_groups (s : State) (id c : Nat) : (s.stopEngine id c).groups = s.groups := rfl
@[simp] theorem State.stopEngine_blocks (s : State) (id c : Nat) : (s.stopEngine id c).blocks = s.blocks := rfl
@[simp] theorem State.stopEngine_bands (s : State) (id c : Nat) : (s.stopEngine id c).bands = s.bands := rfl
@[simp] theorem State.stopEngine_homes (s : State) (id c : Nat) : (s.stopEngine id c).homes = s.homes := rfl
@[simp] theorem State.stopEngine_inflight (s : State) (id c : Nat) : (s.stopEngine id c).inflight = s.inflight := rfl
@[simp] theorem State.stopEngine_acks (s : State) (id c : Nat) : (s.stopEngine id c).acks = s.acks := rfl
@[simp] theorem State.stopEngine_replies (s : State) (id c : Nat) : (s.stopEngine id c).replies = s.replies := rfl
@[simp] theorem State.stopEngine_copies (s : State) (id c : Nat) : (s.stopEngine id c).copies = s.copies := rfl
@[simp] theorem State.stopEngine_gathers (s : State) (id c : Nat) : (s.stopEngine id c).gathers = s.gathers := rfl
@[simp] theorem State.stopEngine_mscs (s : State) (id c : Nat) : (s.stopEngine id c).mscs = s.mscs := rfl
@[simp] theorem State.stopEngine_mwls (s : State) (id c : Nat) : (s.stopEngine id c).mwls = s.mwls := rfl
@[simp] theorem State.stopEngine_cp (s : State) (id c : Nat) : (s.stopEngine id c).cp = s.cp := rfl
@[simp] theorem State.stopEngine_dev (s : State) (id c : Nat) : (s.stopEngine id c).dev = s.dev := rfl
@[simp] theorem State.stopEngine_repair (s : State) (id c : Nat) : (s.stopEngine id c).repair = s.repair := rfl
@[simp] theorem State.stopEngine_fabric (s : State) (id c : Nat) : (s.stopEngine id c).fabric = s.fabric := rfl
@[simp] theorem State.stopEngine_nextId (s : State) (id c : Nat) : (s.stopEngine id c).nextId = s.nextId := rfl
@[simp] theorem State.stopEngine_free (s : State) (id c : Nat) : (s.stopEngine id c).free = s.free := rfl
@[simp] theorem State.stopEngine_inputs (s : State) (id c : Nat) : (s.stopEngine id c).inputs = s.inputs := rfl
@[simp] theorem State.stopEngine_turn (s : State) (id c : Nat) : (s.stopEngine id c).turn = s.turn := rfl
@[simp] theorem State.stopEngine_round (s : State) (id c : Nat) : (s.stopEngine id c).round = s.round := rfl
@[simp] theorem State.stopEngine_served (s : State) (id c : Nat) : (s.stopEngine id c).served = s.served := rfl
@[simp] theorem State.stopEngine_seen (s : State) (id c : Nat) : (s.stopEngine id c).seen = s.seen := rfl

/-! ### A core put or changed -/

@[simp] theorem State.setCore_mem (s : State) (c : Core) : (s.setCore c).mem = s.mem := by
  unfold State.setCore
  split <;> rfl
@[simp] theorem State.modCore_mem (s : State) (c : Nat) (f : Core → Core) : (s.modCore c f).mem = s.mem := by
  simp [State.modCore]
@[simp] theorem State.setCore_dies (s : State) (c : Core) : (s.setCore c).dies = s.dies := by
  unfold State.setCore
  split <;> rfl
@[simp] theorem State.modCore_dies (s : State) (c : Nat) (f : Core → Core) : (s.modCore c f).dies = s.dies := by
  simp [State.modCore]
@[simp] theorem State.setCore_groups (s : State) (c : Core) : (s.setCore c).groups = s.groups := by
  unfold State.setCore
  split <;> rfl
@[simp] theorem State.modCore_groups (s : State) (c : Nat) (f : Core → Core) : (s.modCore c f).groups = s.groups := by
  simp [State.modCore]
@[simp] theorem State.setCore_engines (s : State) (c : Core) : (s.setCore c).engines = s.engines := by
  unfold State.setCore
  split <;> rfl
@[simp] theorem State.modCore_engines (s : State) (c : Nat) (f : Core → Core) : (s.modCore c f).engines = s.engines := by
  simp [State.modCore]
@[simp] theorem State.setCore_blocks (s : State) (c : Core) : (s.setCore c).blocks = s.blocks := by
  unfold State.setCore
  split <;> rfl
@[simp] theorem State.modCore_blocks (s : State) (c : Nat) (f : Core → Core) : (s.modCore c f).blocks = s.blocks := by
  simp [State.modCore]
@[simp] theorem State.setCore_bands (s : State) (c : Core) : (s.setCore c).bands = s.bands := by
  unfold State.setCore
  split <;> rfl
@[simp] theorem State.modCore_bands (s : State) (c : Nat) (f : Core → Core) : (s.modCore c f).bands = s.bands := by
  simp [State.modCore]
@[simp] theorem State.setCore_homes (s : State) (c : Core) : (s.setCore c).homes = s.homes := by
  unfold State.setCore
  split <;> rfl
@[simp] theorem State.modCore_homes (s : State) (c : Nat) (f : Core → Core) : (s.modCore c f).homes = s.homes := by
  simp [State.modCore]
@[simp] theorem State.setCore_inflight (s : State) (c : Core) : (s.setCore c).inflight = s.inflight := by
  unfold State.setCore
  split <;> rfl
@[simp] theorem State.modCore_inflight (s : State) (c : Nat) (f : Core → Core) : (s.modCore c f).inflight = s.inflight := by
  simp [State.modCore]
@[simp] theorem State.setCore_acks (s : State) (c : Core) : (s.setCore c).acks = s.acks := by
  unfold State.setCore
  split <;> rfl
@[simp] theorem State.modCore_acks (s : State) (c : Nat) (f : Core → Core) : (s.modCore c f).acks = s.acks := by
  simp [State.modCore]
@[simp] theorem State.setCore_replies (s : State) (c : Core) : (s.setCore c).replies = s.replies := by
  unfold State.setCore
  split <;> rfl
@[simp] theorem State.modCore_replies (s : State) (c : Nat) (f : Core → Core) : (s.modCore c f).replies = s.replies := by
  simp [State.modCore]
@[simp] theorem State.setCore_copies (s : State) (c : Core) : (s.setCore c).copies = s.copies := by
  unfold State.setCore
  split <;> rfl
@[simp] theorem State.modCore_copies (s : State) (c : Nat) (f : Core → Core) : (s.modCore c f).copies = s.copies := by
  simp [State.modCore]
@[simp] theorem State.setCore_gathers (s : State) (c : Core) : (s.setCore c).gathers = s.gathers := by
  unfold State.setCore
  split <;> rfl
@[simp] theorem State.modCore_gathers (s : State) (c : Nat) (f : Core → Core) : (s.modCore c f).gathers = s.gathers := by
  simp [State.modCore]
@[simp] theorem State.setCore_mscs (s : State) (c : Core) : (s.setCore c).mscs = s.mscs := by
  unfold State.setCore
  split <;> rfl
@[simp] theorem State.modCore_mscs (s : State) (c : Nat) (f : Core → Core) : (s.modCore c f).mscs = s.mscs := by
  simp [State.modCore]
@[simp] theorem State.setCore_mwls (s : State) (c : Core) : (s.setCore c).mwls = s.mwls := by
  unfold State.setCore
  split <;> rfl
@[simp] theorem State.modCore_mwls (s : State) (c : Nat) (f : Core → Core) : (s.modCore c f).mwls = s.mwls := by
  simp [State.modCore]
@[simp] theorem State.setCore_cp (s : State) (c : Core) : (s.setCore c).cp = s.cp := by
  unfold State.setCore
  split <;> rfl
@[simp] theorem State.modCore_cp (s : State) (c : Nat) (f : Core → Core) : (s.modCore c f).cp = s.cp := by
  simp [State.modCore]
@[simp] theorem State.setCore_dev (s : State) (c : Core) : (s.setCore c).dev = s.dev := by
  unfold State.setCore
  split <;> rfl
@[simp] theorem State.modCore_dev (s : State) (c : Nat) (f : Core → Core) : (s.modCore c f).dev = s.dev := by
  simp [State.modCore]
@[simp] theorem State.setCore_repair (s : State) (c : Core) : (s.setCore c).repair = s.repair := by
  unfold State.setCore
  split <;> rfl
@[simp] theorem State.modCore_repair (s : State) (c : Nat) (f : Core → Core) : (s.modCore c f).repair = s.repair := by
  simp [State.modCore]
@[simp] theorem State.setCore_fabric (s : State) (c : Core) : (s.setCore c).fabric = s.fabric := by
  unfold State.setCore
  split <;> rfl
@[simp] theorem State.modCore_fabric (s : State) (c : Nat) (f : Core → Core) : (s.modCore c f).fabric = s.fabric := by
  simp [State.modCore]
@[simp] theorem State.setCore_nextId (s : State) (c : Core) : (s.setCore c).nextId = s.nextId := by
  unfold State.setCore
  split <;> rfl
@[simp] theorem State.modCore_nextId (s : State) (c : Nat) (f : Core → Core) : (s.modCore c f).nextId = s.nextId := by
  simp [State.modCore]
@[simp] theorem State.setCore_free (s : State) (c : Core) : (s.setCore c).free = s.free := by
  unfold State.setCore
  split <;> rfl
@[simp] theorem State.modCore_free (s : State) (c : Nat) (f : Core → Core) : (s.modCore c f).free = s.free := by
  simp [State.modCore]
@[simp] theorem State.setCore_inputs (s : State) (c : Core) : (s.setCore c).inputs = s.inputs := by
  unfold State.setCore
  split <;> rfl
@[simp] theorem State.modCore_inputs (s : State) (c : Nat) (f : Core → Core) : (s.modCore c f).inputs = s.inputs := by
  simp [State.modCore]
@[simp] theorem State.setCore_turn (s : State) (c : Core) : (s.setCore c).turn = s.turn := by
  unfold State.setCore
  split <;> rfl
@[simp] theorem State.setCore_round (s : State) (c : Core) : (s.setCore c).round = s.round := by
  unfold State.setCore
  split <;> rfl
@[simp] theorem State.setCore_served (s : State) (c : Core) : (s.setCore c).served = s.served := by
  unfold State.setCore
  split <;> rfl
@[simp] theorem State.setCore_seen (s : State) (c : Core) : (s.setCore c).seen = s.seen := by
  unfold State.setCore
  split <;> rfl
@[simp] theorem State.modCore_turn (s : State) (c : Nat) (f : Core → Core) : (s.modCore c f).turn = s.turn := by
  simp [State.modCore]
@[simp] theorem State.modCore_round (s : State) (c : Nat) (f : Core → Core) : (s.modCore c f).round = s.round := by
  simp [State.modCore]
@[simp] theorem State.modCore_served (s : State) (c : Nat) (f : Core → Core) : (s.modCore c f).served = s.served := by
  simp [State.modCore]
@[simp] theorem State.modCore_seen (s : State) (c : Nat) (f : Core → Core) : (s.modCore c f).seen = s.seen := by
  simp [State.modCore]

/-! ### Lanes of a group changed -/

@[simp] theorem Group.modLane_key (g : Group) (i : Nat) (f : Lane → Lane) : (g.modLane i f).key = g.key := rfl
@[simp] theorem Group.modLanes_key (g : Group) (ls : List Nat) (f : Lane → Lane) : (g.modLanes ls f).key = g.key := rfl
@[simp] theorem Group.wakeYield_key (g : Group) (ls : List Nat) : (g.wakeYield ls).key = g.key := rfl
@[simp] theorem Group.release_key (g : Group) : g.release.key = g.key := rfl
@[simp] theorem Group.advance_key (g : Group) (x : Issue) : (g.advance x).key = g.key := rfl
@[simp] theorem Group.modLane_ctx (g : Group) (i : Nat) (f : Lane → Lane) : (g.modLane i f).ctx = g.ctx := rfl
@[simp] theorem Group.modLanes_ctx (g : Group) (ls : List Nat) (f : Lane → Lane) : (g.modLanes ls f).ctx = g.ctx := rfl
@[simp] theorem Group.wakeYield_ctx (g : Group) (ls : List Nat) : (g.wakeYield ls).ctx = g.ctx := rfl
@[simp] theorem Group.release_ctx (g : Group) : g.release.ctx = g.ctx := rfl
@[simp] theorem Group.advance_ctx (g : Group) (x : Issue) : (g.advance x).ctx = g.ctx := rfl
@[simp] theorem Group.modLane_core (g : Group) (i : Nat) (f : Lane → Lane) : (g.modLane i f).core = g.core := rfl
@[simp] theorem Group.modLanes_core (g : Group) (ls : List Nat) (f : Lane → Lane) : (g.modLanes ls f).core = g.core := rfl
@[simp] theorem Group.wakeYield_core (g : Group) (ls : List Nat) : (g.wakeYield ls).core = g.core := rfl
@[simp] theorem Group.release_core (g : Group) : g.release.core = g.core := rfl
@[simp] theorem Group.advance_core (g : Group) (x : Issue) : (g.advance x).core = g.core := rfl
@[simp] theorem Group.modLane_row (g : Group) (i : Nat) (f : Lane → Lane) : (g.modLane i f).row = g.row := rfl
@[simp] theorem Group.modLanes_row (g : Group) (ls : List Nat) (f : Lane → Lane) : (g.modLanes ls f).row = g.row := rfl
@[simp] theorem Group.wakeYield_row (g : Group) (ls : List Nat) : (g.wakeYield ls).row = g.row := rfl
@[simp] theorem Group.release_row (g : Group) : g.release.row = g.row := rfl
@[simp] theorem Group.advance_row (g : Group) (x : Issue) : (g.advance x).row = g.row := rfl
@[simp] theorem Group.modLane_pos (g : Group) (i : Nat) (f : Lane → Lane) : (g.modLane i f).pos = g.pos := rfl
@[simp] theorem Group.modLanes_pos (g : Group) (ls : List Nat) (f : Lane → Lane) : (g.modLanes ls f).pos = g.pos := rfl
@[simp] theorem Group.wakeYield_pos (g : Group) (ls : List Nat) : (g.wakeYield ls).pos = g.pos := rfl
@[simp] theorem Group.release_pos (g : Group) : g.release.pos = g.pos := rfl
@[simp] theorem Group.advance_pos (g : Group) (x : Issue) : (g.advance x).pos = g.pos := rfl
@[simp] theorem Group.modLane_w (g : Group) (i : Nat) (f : Lane → Lane) : (g.modLane i f).w = g.w := rfl
@[simp] theorem Group.modLanes_w (g : Group) (ls : List Nat) (f : Lane → Lane) : (g.modLanes ls f).w = g.w := rfl
@[simp] theorem Group.wakeYield_w (g : Group) (ls : List Nat) : (g.wakeYield ls).w = g.w := rfl
@[simp] theorem Group.release_w (g : Group) : g.release.w = g.w := rfl
@[simp] theorem Group.advance_w (g : Group) (x : Issue) : (g.advance x).w = g.w := rfl
@[simp] theorem Group.modLane_s (g : Group) (i : Nat) (f : Lane → Lane) : (g.modLane i f).s = g.s := rfl
@[simp] theorem Group.modLanes_s (g : Group) (ls : List Nat) (f : Lane → Lane) : (g.modLanes ls f).s = g.s := rfl
@[simp] theorem Group.wakeYield_s (g : Group) (ls : List Nat) : (g.wakeYield ls).s = g.s := rfl
@[simp] theorem Group.release_s (g : Group) : g.release.s = g.s := rfl
@[simp] theorem Group.advance_s (g : Group) (x : Issue) : (g.advance x).s = g.s := rfl
@[simp] theorem Group.modLane_ub (g : Group) (i : Nat) (f : Lane → Lane) : (g.modLane i f).ub = g.ub := rfl
@[simp] theorem Group.modLanes_ub (g : Group) (ls : List Nat) (f : Lane → Lane) : (g.modLanes ls f).ub = g.ub := rfl
@[simp] theorem Group.wakeYield_ub (g : Group) (ls : List Nat) : (g.wakeYield ls).ub = g.ub := rfl
@[simp] theorem Group.release_ub (g : Group) : g.release.ub = g.ub := rfl
@[simp] theorem Group.advance_ub (g : Group) (x : Issue) : (g.advance x).ub = g.ub := rfl
@[simp] theorem Group.modLane_fpcr (g : Group) (i : Nat) (f : Lane → Lane) : (g.modLane i f).fpcr = g.fpcr := rfl
@[simp] theorem Group.modLanes_fpcr (g : Group) (ls : List Nat) (f : Lane → Lane) : (g.modLanes ls f).fpcr = g.fpcr := rfl
@[simp] theorem Group.wakeYield_fpcr (g : Group) (ls : List Nat) : (g.wakeYield ls).fpcr = g.fpcr := rfl
@[simp] theorem Group.release_fpcr (g : Group) : g.release.fpcr = g.fpcr := rfl
@[simp] theorem Group.advance_fpcr (g : Group) (x : Issue) : (g.advance x).fpcr = g.fpcr := rfl
@[simp] theorem Group.modLane_fpcrWrite (g : Group) (i : Nat) (f : Lane → Lane) : (g.modLane i f).fpcrWrite = g.fpcrWrite := rfl
@[simp] theorem Group.modLanes_fpcrWrite (g : Group) (ls : List Nat) (f : Lane → Lane) : (g.modLanes ls f).fpcrWrite = g.fpcrWrite := rfl
@[simp] theorem Group.wakeYield_fpcrWrite (g : Group) (ls : List Nat) : (g.wakeYield ls).fpcrWrite = g.fpcrWrite := rfl
@[simp] theorem Group.release_fpcrWrite (g : Group) : g.release.fpcrWrite = g.fpcrWrite := rfl
@[simp] theorem Group.advance_fpcrWrite (g : Group) (x : Issue) : (g.advance x).fpcrWrite = g.fpcrWrite := rfl
@[simp] theorem Group.modLane_msr (g : Group) (i : Nat) (f : Lane → Lane) : (g.modLane i f).msr = g.msr := rfl
@[simp] theorem Group.modLanes_msr (g : Group) (ls : List Nat) (f : Lane → Lane) : (g.modLanes ls f).msr = g.msr := rfl
@[simp] theorem Group.wakeYield_msr (g : Group) (ls : List Nat) : (g.wakeYield ls).msr = g.msr := rfl
@[simp] theorem Group.release_msr (g : Group) : g.release.msr = g.msr := rfl
@[simp] theorem Group.advance_msr (g : Group) (x : Issue) : (g.advance x).msr = g.msr := rfl
@[simp] theorem Group.modLane_msrWrite (g : Group) (i : Nat) (f : Lane → Lane) : (g.modLane i f).msrWrite = g.msrWrite := rfl
@[simp] theorem Group.modLanes_msrWrite (g : Group) (ls : List Nat) (f : Lane → Lane) : (g.modLanes ls f).msrWrite = g.msrWrite := rfl
@[simp] theorem Group.wakeYield_msrWrite (g : Group) (ls : List Nat) : (g.wakeYield ls).msrWrite = g.msrWrite := rfl
@[simp] theorem Group.release_msrWrite (g : Group) : g.release.msrWrite = g.msrWrite := rfl
@[simp] theorem Group.advance_msrWrite (g : Group) (x : Issue) : (g.advance x).msrWrite = g.msrWrite := rfl
@[simp] theorem Group.modLane_cvs (g : Group) (i : Nat) (f : Lane → Lane) : (g.modLane i f).cvs = g.cvs := rfl
@[simp] theorem Group.modLanes_cvs (g : Group) (ls : List Nat) (f : Lane → Lane) : (g.modLanes ls f).cvs = g.cvs := rfl
@[simp] theorem Group.wakeYield_cvs (g : Group) (ls : List Nat) : (g.wakeYield ls).cvs = g.cvs := rfl
@[simp] theorem Group.release_cvs (g : Group) : g.release.cvs = g.cvs := rfl
@[simp] theorem Group.advance_cvs (g : Group) (x : Issue) : (g.advance x).cvs = g.cvs := rfl
@[simp] theorem Group.modLane_runCount (g : Group) (i : Nat) (f : Lane → Lane) : (g.modLane i f).runCount = g.runCount := rfl
@[simp] theorem Group.modLanes_runCount (g : Group) (ls : List Nat) (f : Lane → Lane) : (g.modLanes ls f).runCount = g.runCount := rfl
@[simp] theorem Group.wakeYield_runCount (g : Group) (ls : List Nat) : (g.wakeYield ls).runCount = g.runCount := rfl
@[simp] theorem Group.release_runCount (g : Group) : g.release.runCount = g.runCount := rfl
@[simp] theorem Group.modLane_written (g : Group) (i : Nat) (f : Lane → Lane) : (g.modLane i f).written = g.written := rfl
@[simp] theorem Group.modLanes_written (g : Group) (ls : List Nat) (f : Lane → Lane) : (g.modLanes ls f).written = g.written := rfl
@[simp] theorem Group.wakeYield_written (g : Group) (ls : List Nat) : (g.wakeYield ls).written = g.written := rfl
@[simp] theorem Group.release_written (g : Group) : g.release.written = g.written := rfl
@[simp] theorem Group.advance_written (g : Group) (x : Issue) : (g.advance x).written = g.written := rfl
@[simp] theorem Group.modLane_draining (g : Group) (i : Nat) (f : Lane → Lane) : (g.modLane i f).draining = g.draining := rfl
@[simp] theorem Group.modLane_marks (g : Group) (i : Nat) (f : Lane → Lane) : (g.modLane i f).marks = g.marks := rfl
@[simp] theorem Group.modLanes_draining (g : Group) (ls : List Nat) (f : Lane → Lane) : (g.modLanes ls f).draining = g.draining := rfl
@[simp] theorem Group.modLanes_marks (g : Group) (ls : List Nat) (f : Lane → Lane) : (g.modLanes ls f).marks = g.marks := rfl
@[simp] theorem Group.wakeYield_draining (g : Group) (ls : List Nat) : (g.wakeYield ls).draining = g.draining := rfl
@[simp] theorem Group.wakeYield_marks (g : Group) (ls : List Nat) : (g.wakeYield ls).marks = g.marks := rfl
@[simp] theorem Group.release_draining (g : Group) : g.release.draining = g.draining := rfl
@[simp] theorem Group.release_marks (g : Group) : g.release.marks = g.marks := rfl
@[simp] theorem Group.modLane_tcause (g : Group) (i : Nat) (f : Lane → Lane) : (g.modLane i f).tcause = g.tcause := rfl
@[simp] theorem Group.modLanes_tcause (g : Group) (ls : List Nat) (f : Lane → Lane) : (g.modLanes ls f).tcause = g.tcause := rfl
@[simp] theorem Group.wakeYield_tcause (g : Group) (ls : List Nat) : (g.wakeYield ls).tcause = g.tcause := rfl
@[simp] theorem Group.release_tcause (g : Group) : g.release.tcause = g.tcause := rfl
@[simp] theorem Group.advance_tcause (g : Group) (x : Issue) : (g.advance x).tcause = g.tcause := rfl
@[simp] theorem Group.modLane_tval (g : Group) (i : Nat) (f : Lane → Lane) : (g.modLane i f).tval = g.tval := rfl
@[simp] theorem Group.modLanes_tval (g : Group) (ls : List Nat) (f : Lane → Lane) : (g.modLanes ls f).tval = g.tval := rfl
@[simp] theorem Group.wakeYield_tval (g : Group) (ls : List Nat) : (g.wakeYield ls).tval = g.tval := rfl
@[simp] theorem Group.release_tval (g : Group) : g.release.tval = g.tval := rfl
@[simp] theorem Group.advance_tval (g : Group) (x : Issue) : (g.advance x).tval = g.tval := rfl
@[simp] theorem Group.modLane_tmask (g : Group) (i : Nat) (f : Lane → Lane) : (g.modLane i f).tmask = g.tmask := rfl
@[simp] theorem Group.modLanes_tmask (g : Group) (ls : List Nat) (f : Lane → Lane) : (g.modLanes ls f).tmask = g.tmask := rfl
@[simp] theorem Group.wakeYield_tmask (g : Group) (ls : List Nat) : (g.wakeYield ls).tmask = g.tmask := rfl
@[simp] theorem Group.release_tmask (g : Group) : g.release.tmask = g.tmask := rfl
@[simp] theorem Group.advance_tmask (g : Group) (x : Issue) : (g.advance x).tmask = g.tmask := rfl
@[simp] theorem Group.modLane_handler (g : Group) (i : Nat) (f : Lane → Lane) : (g.modLane i f).handler = g.handler := rfl
@[simp] theorem Group.modLanes_handler (g : Group) (ls : List Nat) (f : Lane → Lane) : (g.modLanes ls f).handler = g.handler := rfl
@[simp] theorem Group.wakeYield_handler (g : Group) (ls : List Nat) : (g.wakeYield ls).handler = g.handler := rfl
@[simp] theorem Group.release_handler (g : Group) : g.release.handler = g.handler := rfl
@[simp] theorem Group.advance_handler (g : Group) (x : Issue) : (g.advance x).handler = g.handler := rfl
@[simp] theorem Group.modLane_outst (g : Group) (i : Nat) (f : Lane → Lane) : (g.modLane i f).outst = g.outst := rfl
@[simp] theorem Group.modLanes_outst (g : Group) (ls : List Nat) (f : Lane → Lane) : (g.modLanes ls f).outst = g.outst := rfl
@[simp] theorem Group.wakeYield_outst (g : Group) (ls : List Nat) : (g.wakeYield ls).outst = g.outst := rfl
@[simp] theorem Group.release_outst (g : Group) : g.release.outst = g.outst := rfl
@[simp] theorem Group.advance_outst (g : Group) (x : Issue) : (g.advance x).outst = g.outst := rfl
@[simp] theorem Group.modLane_fails (g : Group) (i : Nat) (f : Lane → Lane) : (g.modLane i f).fails = g.fails := rfl
@[simp] theorem Group.modLanes_fails (g : Group) (ls : List Nat) (f : Lane → Lane) : (g.modLanes ls f).fails = g.fails := rfl
@[simp] theorem Group.wakeYield_fails (g : Group) (ls : List Nat) : (g.wakeYield ls).fails = g.fails := rfl
@[simp] theorem Group.release_fails (g : Group) : g.release.fails = g.fails := rfl
@[simp] theorem Group.advance_fails (g : Group) (x : Issue) : (g.advance x).fails = g.fails := rfl
@[simp] theorem Group.modLane_fabFails (g : Group) (i : Nat) (f : Lane → Lane) : (g.modLane i f).fabFails = g.fabFails := rfl
@[simp] theorem Group.modLanes_fabFails (g : Group) (ls : List Nat) (f : Lane → Lane) : (g.modLanes ls f).fabFails = g.fabFails := rfl
@[simp] theorem Group.wakeYield_fabFails (g : Group) (ls : List Nat) : (g.wakeYield ls).fabFails = g.fabFails := rfl
@[simp] theorem Group.release_fabFails (g : Group) : g.release.fabFails = g.fabFails := rfl
@[simp] theorem Group.advance_fabFails (g : Group) (x : Issue) : (g.advance x).fabFails = g.fabFails := rfl
@[simp] theorem Group.modLane_slots (g : Group) (i : Nat) (f : Lane → Lane) : (g.modLane i f).slots = g.slots := rfl
@[simp] theorem Group.modLanes_slots (g : Group) (ls : List Nat) (f : Lane → Lane) : (g.modLanes ls f).slots = g.slots := rfl
@[simp] theorem Group.wakeYield_slots (g : Group) (ls : List Nat) : (g.wakeYield ls).slots = g.slots := rfl
@[simp] theorem Group.release_slots (g : Group) : g.release.slots = g.slots := rfl
@[simp] theorem Group.advance_slots (g : Group) (x : Issue) : (g.advance x).slots = g.slots := rfl
@[simp] theorem Group.modLane_collector (g : Group) (i : Nat) (f : Lane → Lane) : (g.modLane i f).collector = g.collector := rfl
@[simp] theorem Group.modLanes_collector (g : Group) (ls : List Nat) (f : Lane → Lane) : (g.modLanes ls f).collector = g.collector := rfl
@[simp] theorem Group.wakeYield_collector (g : Group) (ls : List Nat) : (g.wakeYield ls).collector = g.collector := rfl
@[simp] theorem Group.release_collector (g : Group) : g.release.collector = g.collector := rfl
@[simp] theorem Group.advance_collector (g : Group) (x : Issue) : (g.advance x).collector = g.collector := rfl
@[simp] theorem Group.modLane_amber (g : Group) (i : Nat) (f : Lane → Lane) : (g.modLane i f).amber = g.amber := rfl
@[simp] theorem Group.modLanes_amber (g : Group) (ls : List Nat) (f : Lane → Lane) : (g.modLanes ls f).amber = g.amber := rfl
@[simp] theorem Group.wakeYield_amber (g : Group) (ls : List Nat) : (g.wakeYield ls).amber = g.amber := rfl
@[simp] theorem Group.release_amber (g : Group) : g.release.amber = g.amber := rfl
@[simp] theorem Group.advance_amber (g : Group) (x : Issue) : (g.advance x).amber = g.amber := rfl
@[simp] theorem Group.modLane_ckpt (g : Group) (i : Nat) (f : Lane → Lane) : (g.modLane i f).ckpt = g.ckpt := rfl
@[simp] theorem Group.modLanes_ckpt (g : Group) (ls : List Nat) (f : Lane → Lane) : (g.modLanes ls f).ckpt = g.ckpt := rfl
@[simp] theorem Group.wakeYield_ckpt (g : Group) (ls : List Nat) : (g.wakeYield ls).ckpt = g.ckpt := rfl
@[simp] theorem Group.release_ckpt (g : Group) : g.release.ckpt = g.ckpt := rfl
@[simp] theorem Group.advance_ckpt (g : Group) (x : Issue) : (g.advance x).ckpt = g.ckpt := rfl
@[simp] theorem Group.modLane_pend (g : Group) (i : Nat) (f : Lane → Lane) : (g.modLane i f).pend = g.pend := rfl
@[simp] theorem Group.modLanes_pend (g : Group) (ls : List Nat) (f : Lane → Lane) : (g.modLanes ls f).pend = g.pend := rfl
@[simp] theorem Group.wakeYield_pend (g : Group) (ls : List Nat) : (g.wakeYield ls).pend = g.pend := rfl
@[simp] theorem Group.release_pend (g : Group) : g.release.pend = g.pend := rfl
@[simp] theorem Group.advance_pend (g : Group) (x : Issue) : (g.advance x).pend = g.pend := rfl
@[simp] theorem Group.modLane_faultPages (g : Group) (i : Nat) (f : Lane → Lane) : (g.modLane i f).faultPages = g.faultPages := rfl
@[simp] theorem Group.modLanes_faultPages (g : Group) (ls : List Nat) (f : Lane → Lane) : (g.modLanes ls f).faultPages = g.faultPages := rfl
@[simp] theorem Group.wakeYield_faultPages (g : Group) (ls : List Nat) : (g.wakeYield ls).faultPages = g.faultPages := rfl
@[simp] theorem Group.release_faultPages (g : Group) : g.release.faultPages = g.faultPages := rfl
@[simp] theorem Group.advance_faultPages (g : Group) (x : Issue) : (g.advance x).faultPages = g.faultPages := rfl
@[simp] theorem Group.modLane_remote (g : Group) (i : Nat) (f : Lane → Lane) : (g.modLane i f).remote = g.remote := rfl
@[simp] theorem Group.modLanes_remote (g : Group) (ls : List Nat) (f : Lane → Lane) : (g.modLanes ls f).remote = g.remote := rfl
@[simp] theorem Group.wakeYield_remote (g : Group) (ls : List Nat) : (g.wakeYield ls).remote = g.remote := rfl
@[simp] theorem Group.release_remote (g : Group) : g.release.remote = g.remote := rfl
@[simp] theorem Group.advance_remote (g : Group) (x : Issue) : (g.advance x).remote = g.remote := rfl
@[simp] theorem Group.modLane_fetched (g : Group) (i : Nat) (f : Lane → Lane) : (g.modLane i f).fetched = g.fetched := rfl
@[simp] theorem Group.modLanes_fetched (g : Group) (ls : List Nat) (f : Lane → Lane) : (g.modLanes ls f).fetched = g.fetched := rfl
@[simp] theorem Group.wakeYield_fetched (g : Group) (ls : List Nat) : (g.wakeYield ls).fetched = g.fetched := rfl
@[simp] theorem Group.release_fetched (g : Group) : g.release.fetched = g.fetched := rfl
@[simp] theorem Group.advance_fetched (g : Group) (x : Issue) : (g.advance x).fetched = g.fetched := rfl
@[simp] theorem Group.modLane_remoteFail (g : Group) (i : Nat) (f : Lane → Lane) : (g.modLane i f).remoteFail = g.remoteFail := rfl
@[simp] theorem Group.modLanes_remoteFail (g : Group) (ls : List Nat) (f : Lane → Lane) : (g.modLanes ls f).remoteFail = g.remoteFail := rfl
@[simp] theorem Group.wakeYield_remoteFail (g : Group) (ls : List Nat) : (g.wakeYield ls).remoteFail = g.remoteFail := rfl
@[simp] theorem Group.release_remoteFail (g : Group) : g.release.remoteFail = g.remoteFail := rfl
@[simp] theorem Group.advance_remoteFail (g : Group) (x : Issue) : (g.advance x).remoteFail = g.remoteFail := rfl
@[simp] theorem Group.modLane_stopped (g : Group) (i : Nat) (f : Lane → Lane) : (g.modLane i f).stopped = g.stopped := rfl
@[simp] theorem Group.modLanes_stopped (g : Group) (ls : List Nat) (f : Lane → Lane) : (g.modLanes ls f).stopped = g.stopped := rfl
@[simp] theorem Group.wakeYield_stopped (g : Group) (ls : List Nat) : (g.wakeYield ls).stopped = g.stopped := rfl
@[simp] theorem Group.release_stopped (g : Group) : g.release.stopped = g.stopped := rfl
@[simp] theorem Group.advance_stopped (g : Group) (x : Issue) : (g.advance x).stopped = g.stopped := rfl
@[simp] theorem Group.modLane_seq (g : Group) (i : Nat) (f : Lane → Lane) : (g.modLane i f).seq = g.seq := rfl
@[simp] theorem Group.modLanes_seq (g : Group) (ls : List Nat) (f : Lane → Lane) : (g.modLanes ls f).seq = g.seq := rfl
@[simp] theorem Group.wakeYield_seq (g : Group) (ls : List Nat) : (g.wakeYield ls).seq = g.seq := rfl
@[simp] theorem Group.release_seq (g : Group) : g.release.seq = g.seq := rfl
@[simp] theorem Group.advance_seq (g : Group) (x : Issue) : (g.advance x).seq = g.seq := rfl
@[simp] theorem Group.modLane_redo (g : Group) (i : Nat) (f : Lane → Lane) : (g.modLane i f).redo = g.redo := rfl
@[simp] theorem Group.modLanes_redo (g : Group) (ls : List Nat) (f : Lane → Lane) : (g.modLanes ls f).redo = g.redo := rfl
@[simp] theorem Group.wakeYield_redo (g : Group) (ls : List Nat) : (g.wakeYield ls).redo = g.redo := rfl
@[simp] theorem Group.release_redo (g : Group) : g.release.redo = g.redo := rfl
@[simp] theorem Group.advance_redo (g : Group) (x : Issue) : (g.advance x).redo = g.redo := rfl
@[simp] theorem Group.modLane_after (g : Group) (i : Nat) (f : Lane → Lane) : (g.modLane i f).after = g.after := rfl
@[simp] theorem Group.modLanes_after (g : Group) (ls : List Nat) (f : Lane → Lane) : (g.modLanes ls f).after = g.after := rfl
@[simp] theorem Group.wakeYield_after (g : Group) (ls : List Nat) : (g.wakeYield ls).after = g.after := rfl
@[simp] theorem Group.release_after (g : Group) : g.release.after = g.after := rfl
@[simp] theorem Group.advance_after (g : Group) (x : Issue) : (g.advance x).after = g.after := rfl

/-! ### Looking up what was changed -/

theorem find?_map_key {α κ : Type} [BEq κ] [LawfulBEq κ] (key : α → κ) (f : α → α) (hf : ∀ x, key (f x) = key x) (k j : κ)
    (l : List α) :
    (l.map fun x => if key x == j then f x else x).find? (fun x => key x == k) =
      (l.find? fun x => key x == k).map fun x => if k == j then f x else x := by
  induction l with
  | nil => rfl
  | cons x t ih =>
    have hk : key (if key x == j then f x else x) = key x := by
      split
      · exact hf x
      · rfl
    simp only [List.map_cons, List.find?_cons, hk, ih]
    cases h : key x == k with
    | true => rw [← eq_of_beq h]; rfl
    | false => rfl

/-- A group changed is found changed; every other is as it was. -/
theorem State.group?_modGroup (s : State) (k j : GKey) (f : Group → Group) (hf : ∀ g, (f g).key = g.key) :
    (s.modGroup j f).group? k = (s.group? k).map fun g => if k == j then f g else g :=
  find?_map_key (fun g : Group => g.key) f hf k j s.groups

/-- A group put back is found; every other is as it was. -/
theorem State.group?_setGroup (s : State) (g : Group) (k : GKey) :
    (s.setGroup g).group? k = (s.group? k).map fun h => if k == g.key then g else h := by
  have h : ∀ l : List Group, (l.map fun x => if x.key == g.key then g else x).find? (fun x => x.key == k) =
      (l.find? fun x => x.key == k).map fun h => if k == g.key then g else h := by
    intro l
    induction l with
    | nil => rfl
    | cons x t ih =>
      have hk : (if x.key == g.key then g else x).key = x.key := by
        split
        · rename_i e
          exact (eq_of_beq e).symm
        · rfl
      simp only [List.map_cons, List.find?_cons, hk, ih]
      cases h : x.key == k with
      | true => simp [← eq_of_beq h]
      | false => rfl
  exact h s.groups

/-- An engine program changed is found changed; every other is as it was. -/
theorem State.engine?_modEngine (s : State) (id j : Nat) (f : Engine → Engine) (hf : ∀ e, (f e).id = e.id) :
    (s.modEngine j f).engine? id = (s.engine? id).map fun e => if id == j then f e else e :=
  find?_map_key (fun e : Engine => e.id) f hf id j s.engines

/-- A core changed is found changed; every other is as it was. -/
theorem State.core_modCore (s : State) (c d : Nat) (f : Core → Core) (hf : ∀ x, (f x).id = x.id) :
    (s.modCore c f).core d = if d = c then f (s.core c) else s.core d := by
  have hid : ∀ n, (s.core n).id = n := by
    intro n
    unfold State.core
    cases h : s.cores.find? fun x => x.id == n with
    | none => rfl
    | some y => simpa using List.find?_some h
  have hc : (f (s.core c)).id = c := by rw [hf, hid]
  unfold State.modCore State.setCore
  rw [hc]
  by_cases h : (s.cores.any fun x => x.id == c) = true
  · rw [if_pos h]
    simp only [State.core]
    have key : ∀ l : List Core, (l.map fun x => if x.id == c then f (s.core c) else x).find? (fun x => x.id == d) =
        (l.find? fun x => x.id == d).map fun x => if d = c then f (s.core c) else x := by
      intro l
      induction l with
      | nil => rfl
      | cons x t ih =>
        have hk : (if x.id == c then f (s.core c) else x).id = x.id := by
          split
          · rename_i e
            rw [hc, eq_of_beq e]
          · rfl
        simp only [List.map_cons, List.find?_cons, hk, ih]
        cases h : x.id == d with
        | true => simp [← eq_of_beq h]
        | false => rfl
    simp only [State.core] at key
    rw [key]
    by_cases hd : d = c
    · subst hd
      obtain ⟨y, hy, hyc⟩ := List.any_eq_true.mp h
      cases hf' : s.cores.find? fun x => x.id == d with
      | none => exact absurd hyc (by simpa using List.find?_eq_none.mp hf' y hy)
      | some z => simp
    · simp [hd]
  · rw [if_neg h]
    simp only [State.core, List.find?_append]
    have hn : s.cores.find? (fun x => x.id == c) = none := by
      rw [List.find?_eq_none]
      intro x hx hxc
      exact h (List.any_eq_true.mpr ⟨x, hx, hxc⟩)
    by_cases hd : d = c
    · subst hd
      have hc' : (f ((s.cores.find? fun x => x.id == d).getD (Core.empty d))).id = d := hc
      simp [hn] at hc' ⊢
      simp [hc']
    · have hc' : (f ((s.cores.find? fun x => x.id == c).getD (Core.empty c))).id = c := hc
      simp [hc', Ne.symm hd, hd]

end Sys2Proof.Machine
end

