-- ==== Sys2Proof/Laws/Traps.lean ====
section
/-!
SUPPORT. What the shared operations at the edge of a word can do: the issue of an engine program's word, taking a trap
and leaving its handler, an error record, and a translation, which touches memory in one leaf entry at most.
-/

namespace Sys2Proof.Machine

open Sys2Proof

/-! ### Engine programs -/

/-- A word that an engine program may run has its effect. -/
theorem issueWord_engine {i : Instr} {s : State} {id : Nat} {e : Engine} (h : EngineIssues i s id e)
    (own : Issue → Group → Option Nat → Option UnitErr) (eff : Issue → Group → State → Effect)
    (eng : Engine → Desc → State → State) :
    issueWord i s own eff eng = .next (eng e (describe 64 i) s.drawn) := by
  obtain ⟨turn, here, runs, subset, pfx, legal, names, feature⟩ := h
  have here' : s.drawn.engine? id = some e := here
  have hf : (describe 64 i).feature.any (fun b => !s.drawn.accepted b) = false := by
    cases hb : (describe 64 i).feature with
    | none => rfl
    | some b =>
      have := feature b hb
      show (!s.accepted b) = false
      simp [this]
  simp only [Bool.and_eq_true] at legal
  obtain ⟨⟨⟨hw, hl⟩, ha⟩, hm⟩ := legal
  simp only [issueWord, turn, issueEngine, here', runs, pfx, Option.isSome_none, hw, hl, ha, hm, names, hf]
  obtain hs | hs := subset <;> simp [hs]

/-! ### Traps -/

/-- A trap of a group that does not speculate, with a handler: the group is in its handler, with its cause. -/
theorem State.takeTrap_handled {s : State} {k : GKey} {g : Group} {pc h : Word} {t : TrapInfo}
    (here : s.group? k = some g) (calm : g.amber ≠ .speculating) (calm' : g.amber ≠ .stalled)
    (handler : s.handlerPc g t.code = some h) :
    ∃ ls : List Lane, ls.length = g.lanes.length ∧
      s.takeTrap k pc t = s.setGroup { g with
        lanes := ls, tcause := t.code, tval := t.tval, tmask := maskOf t.mask, handler := true, draining := true
        fetched := [], remoteFail := [] } := by
  simp only [State.takeTrap, here, handler]
  rw [if_neg (by simp [calm, calm'])]
  refine ⟨_, ?_, rfl⟩
  simp

/-- A trap that no handler takes aborts the launch, with the trap in its record. -/
theorem State.takeTrap_unhandled {s : State} {k : GKey} {g : Group} {pc : Word} {t : TrapInfo}
    (here : s.group? k = some g) (calm : g.amber ≠ .speculating) (calm' : g.amber ≠ .stalled)
    (none : s.handlerPc g t.code = none) :
    s.takeTrap k pc t = s.abortLaunch k.launch ⟨0, 0, t.code.toNat, t.tval.toNat⟩ := by
  simp only [State.takeTrap, here, none]
  rw [if_neg (by simp [calm, calm'])]

/-- Leaving the handler touches the fibres and the handler state alone. -/
theorem Group.leaveHandler_frame (g : Group) (skip : Bool) (size : Word → Nat) :
    ∃ ls : List Lane, g.leaveHandler skip size = { g with handler := false, lanes := ls } := ⟨_, rfl⟩

/-- A fibre that did not enter the handler keeps its address; its wait for `rtt` is over. -/
theorem Group.leaveHandler_outside (g : Group) (skip : Bool) (size : Word → Nat) (i : Nat) (l : Lane)
    (here : g.lane? i = some l) (out : l.trapped = false) :
    (g.leaveHandler skip size).lane? i = some { l with
      park := if l.park = some .untilRtt ∨ l.park = some .held then none else l.park, outside := false } := by
  unfold Group.lane? at here ⊢
  simp only [Group.leaveHandler, List.getElem?_map, List.getElem?_zipIdx, here, Option.map_some]
  by_cases hp : l.park = some .untilRtt ∨ l.park = some .held
  · obtain hp | hp := hp <;> simp [hp, out]
  · obtain ⟨h1, h2⟩ := not_or.mp hp
    simp [h1, h2, out]

/-- A live fibre that entered the handler goes on at its TPC, under `skip` after the word there if TMASK names it. -/
theorem Group.leaveHandler_trapped (g : Group) (skip : Bool) (size : Word → Nat) (i : Nat) (l : Lane)
    (here : g.lane? i = some l) (live : l.status = .live) (entered : l.trapped = true) :
    (g.leaveHandler skip size).lane? i = some { l with
      park := none, outside := false, trapped := false
      pc := if skip = true ∧ bitOf g.tmask i = true then l.tpc + BitVec.ofNat 32 (size l.tpc) else l.tpc } := by
  unfold Group.lane? at here ⊢
  simp only [Group.leaveHandler, List.getElem?_map, List.getElem?_zipIdx, here, Option.map_some]
  by_cases hp : l.park = some .untilRtt ∨ l.park = some .held
  · obtain hp | hp := hp <;> simp [hp, live, entered]
  · obtain ⟨h1, h2⟩ := not_or.mp hp
    simp [h1, h2, live, entered]

/-! ### Error records and translation -/

theorem State.ringWrite_wf (s : State) (die : Nat) (r : ErrRec) (h : s.mem.wf = true) :
    (s.ringWrite die r).mem.wf = true := Memory.store_wf _ _ _ h

theorem State.logError_wf (s : State) (die : Nat) (r : ErrRec) (h : s.mem.wf = true) :
    (s.logError die r).mem.wf = true := by
  unfold State.logError
  dsimp only
  split <;> split <;> first | (rw [State.modDie_mem]; exact h) | exact s.ringWrite_wf die _ h

@[simp] theorem State.reportFault_mem (s : State) (port ctx va : Nat) : (s.reportFault port ctx va).mem = s.mem := rfl

theorem State.snapshotFault_mem (s : State) (port ctx va : Nat) : (s.snapshotFault port ctx va).2.mem = s.mem := by
  unfold State.snapshotFault
  split <;> rfl

/-- A translation keeps memory in canonical form: it writes at most one leaf entry and one error record. -/
theorem State.translate_wf (s : State) (port ctx va : Nat) (a : Access) (h : s.mem.wf = true) :
    (s.translate port ctx va a).2.mem.wf = true := by
  have hl (r : ErrRec) : (s.logError port r).mem.wf = true := s.logError_wf port r h
  have hs (c : Bool) (r : Xlat) (s' : State) (h' : s'.mem.wf = true) :
      (if c = true then s'.snapshotFault port ctx va else (r, s')).2.mem.wf = true := by
    cases c
    · exact h'
    · rw [if_pos rfl, State.snapshotFault_mem]
      exact h'
  have hm (c : Bool) (k v : Nat) : (if c = true then s else { s with mem := s.mem.storeNat k 8 v }).mem.wf = true := by
    cases c
    · exact Memory.storeNat_wf _ _ _ _ h
    · exact h
  unfold State.translate
  dsimp only
  split
  · exact hs _ _ _ h
  · split
    · exact h
    · split
      · split <;> exact h
      · exact hl _
      · split
        · refine hs _ _ _ ?_
          split <;> first | exact h | exact hl _
        · rw [State.modDie_mem]
          exact hm _ _ _

theorem State.translateRange_wf (s : State) (port ctx va n : Nat) (a : Access) (h : s.mem.wf = true) :
    (s.translateRange port ctx va n a).2.mem.wf = true := by
  unfold State.translateRange
  suffices ∀ (l : List Nat) (acc : List (Nat × Xlat) × State), acc.2.mem.wf = true →
      (l.foldl (fun (acc : List (Nat × Xlat) × State) p =>
        let at_ := max va p
        let r := acc.2.translate port ctx at_ a
        (acc.1 ++ [(at_, r.1)], r.2)) acc).2.mem.wf = true from this _ _ h
  intro l
  induction l with
  | nil => intro acc h; exact h
  | cons p l ih => intro acc h; exact ih _ (acc.2.translate_wf port ctx _ a h)

end Sys2Proof.Machine
end

