-- ==== Sys2Proof/Tests/Slice0.lean ====
section
/-!
SUPPORT. Tests: ill-formed terms that the check refuses, words that the spec writes out and the instructions they decode to,
states that meet the hypotheses of the statements, and single results worked out from the spec.
-/

set_option Elab.async false
set_option linter.unusedVariables false
set_option maxRecDepth 20000

namespace Sys2Proof.Tests

open Sys2Proof Sys2Proof.Machine Sys2Proof.Claims

/-! ### A small device -/

/-- A capability's 128 bits: rights, exponent, multiple, base and address (03 R83). -/
def capBits (rights : BitVec 8) (le : BitVec 6) (lm : BitVec 18) (base addr : BitVec 48) : BitVec 128 :=
  rights ++ le ++ lm ++ base ++ addr

/-- 64 KiB at 0x10000, and at 0x30000, with every right. -/
def capA : BitVec 128 := capBits 0xFF 0 0xFFFF 0x10000 0x10000
def capB : BitVec 128 := capBits 0xFF 0 0xFFFF 0x30000 0x30000

/-- Register `n` of lane `l`: v0 to v15 hold numbers of FP32, v16 the lane, v17 to v19 four times the lane. -/
def laneReg (l n : Nat) : Reg :=
  ⟨BitVec.ofNat 32 (if n < 16 then 0x3F800000 + 0x100000 * l + 0x10000 * n else if n = 16 then l else 4 * l), false⟩

/-- The lane `l` of the small group: it stands at word 0. -/
def lane (l : Nat) : Lane := { newLane 0 with v := ⟨(List.range 20).map fun n => (n, laneReg l n), [], []⟩ }

/-- The launch: eight lanes to a group, with a handler at 0x40. -/
def launch : Launch :=
  { fetchLaunch with codeLen := 0x1000, trapv := 0x40, localLen := 4096, clen := 1024, seed := 0x123456789ABCDEF0, cru := true }

def key : GKey := ⟨1, 0, 0⟩

/-- The uniform registers: s0:4 and s4:4 hold the two capabilities, s8 to s31 their numbers, but for the registers given. -/
def uniforms (regs : List (Nat × Word)) : List (Nat × Reg) :=
  (List.range 32).map fun n => (n, ⟨(lookupKey n regs).getD (
    if n < 4 then bitsOf capA (32 * n) 32 else if n < 8 then bitsOf capB (32 * (n - 4)) 32 else BitVec.ofNat 32 n), false⟩)

/-- The small group, with these uniform registers given and these quads tagged. -/
def group (regs : List (Nat × Word)) (tags : List Nat) : Group :=
  { newGroup launch 0 0 0 0 0 false with lanes := (List.range 8).map lane, s := ⟨uniforms regs, tags, []⟩ }

/-- The group as it is mostly used. -/
def plain : Group := group [] [0, 1]

/-- The page of 64 KiB at `va` lies at the same address of TIER 0, readable and writable. -/
def pageOf (va : Nat) : TbEntry := ⟨1, va, 0, BitVec.ofNat 64 (va + 0x3F)⟩

/-- The device with one group of one launch, whose turn it is. -/
def device (g : Group) : State :=
  let r := State.reset
  { r with
    dies := r.dies.map fun d => { d with clock := 1000, desc := [(1, 0x40000)], tb := [pageOf 0x10000, pageOf 0x30000] }
    dev := { r.dev with bstate := 5, locked := true, facc := r.dev.facc.set 0 Config.feat0 }
    cp := { r.cp with launches := [launch], ctxs := [⟨1, 0x40000, 0, 0, 0, 0, 0, 0x5⟩], nextLaunch := 2 }
    groups := [g]
    blocks := [launch.blockOf 0 fetchSeat]
    bands := [launch.bandOf 0 0]
    cores := [{ Core.empty 0 with rows := [⟨0, .running, 1, 8, launch.lease⟩] }]
    nextId := 10, turn := .group key }

/-- The device with an engine program of the kind `q` whose turn it is, started by the group. -/
def program (q : SeqKind) (regs : List (Nat × Word)) (tags : List Nat) : Engine :=
  { Engine.start 5 ⟨q, 0⟩ key 1 0 0 [] true with started := true, s := ⟨uniforms regs, tags, []⟩ }

def withProgram (e : Engine) : State := { device plain with engines := [e], turn := .engine 5 }

/-- Whether a word issues (01 R18, 02 R57), by evaluation. -/
def issuesB (i : Instr) (s : State) (k : GKey) (g : Group) : Bool :=
  s.turn == .group k && s.group? k == some g && g.canIssue && (g.amber != .speculating || !amberStalls i) &&
  wordChecks s g (g.issue i) == none && maskPoison g (g.issue i) == [] &&
  ((g.issue i).units.all fun u => (unitFields s g (g.issue i) u).all fun f => (g.reg? u f).isSome) &&
  (((g.issue i).units ++ (g.issue i).allUnits).all fun u => (unitFields s g (g.issue i) u).all fun f => g.runWrites u f == []) &&
  (g.redo? (g.issue i).pc).all fun r => r.trap? == none

theorem issues_of {i : Instr} {s : State} {k : GKey} {g : Group} (h : issuesB i s k g = true) : Issues i s k g := by
  simp only [issuesB, Bool.and_eq_true, Bool.or_eq_true, beq_iff_eq, bne_iff_ne, List.all_eq_true, Bool.not_eq_true',
    Option.all_eq_true] at h
  obtain ⟨⟨⟨⟨⟨⟨⟨⟨h1, h2⟩, h3⟩, h4⟩, h5⟩, h6⟩, h7⟩, h8⟩, h9⟩ := h
  exact ⟨h1, h2, h3, fun a => h4.resolve_left (fun b => b a), h5, h6, h7, fun u hu => h8 u (List.mem_append.2 hu), h9⟩

/-- Whether an engine program's word issues (10 R230), by evaluation. -/
def engineIssuesB (i : Instr) (s : State) (id : Nat) (e : Engine) : Bool :=
  s.turn == .engine id && s.engine? id == some e && e.canIssue &&
  (engineMajor (majorOf i.baseWord).toNat || sequencerMajor e.seqr.kind (majorOf i.baseWord).toNat) &&
  i.pfx == none && (i.wf && (describe 64 i).legal && (describe 64 i).aligned && (describe 64 i).mixOk) &&
  engineFieldsOk (describe 64 i) && ((describe 64 i).feature.all fun b => s.accepted b)

theorem engineIssues_of {i : Instr} {s : State} {id : Nat} {e : Engine} (h : engineIssuesB i s id e = true) :
    EngineIssues i s id e := by
  simp only [engineIssuesB, Bool.and_eq_true, Bool.or_eq_true, beq_iff_eq, Option.all_eq_true] at h
  obtain ⟨⟨⟨⟨⟨⟨⟨h1, h2⟩, h3⟩, h4⟩, h5⟩, h6⟩, h7⟩, h8⟩ := h
  exact ⟨h1, h2, h3, h4, h5, by simpa only [Bool.and_eq_true] using h6, h7, h8⟩


/-! ### Hypotheses by evaluation -/

/-- Whether the word decodes to the instruction. -/
def decodesB (w : Word) (next : Option Word) (i : Instr) : Bool :=
  match decodeWords w next with
  | .ok j => j == i
  | .error _ => false

theorem decodes_of {w : Word} {n : Option Word} {i : Instr} (h : decodesB w n i = true) : decodeWords w n = .ok i := by
  unfold decodesB at h
  split at h
  · rename_i j e; rw [e, eq_of_beq h]
  · cases h

theorem turn_of {i : Instr} {s : State} {k : GKey} {g : Group}
    (h : s.turn = .group k ∧ s.group? k = some g ∧ g.canIssue = true ∧ g.amber = .idle) : Turn i s k g :=
  ⟨h.1, h.2.1, h.2.2.1, h.2.2.2⟩

theorem lookupKey_mem {α : Type} {n : Nat} {r : α} : ∀ {l : List (Nat × α)}, lookupKey n l = some r → (n, r) ∈ l
  | [], h => by cases h
  | (k, v) :: l, h => by
    by_cases e : k = n
    · subst e; simp [lookupKey] at h; simp [h]
    · simp [lookupKey, e] at h; exact List.mem_cons_of_mem _ (lookupKey_mem h)

theorem cleanEngine_of {e : Engine} (h : ∀ p ∈ e.s.regs, p.2.poison = false) : CleanEngine e :=
  fun _ r hr => h (_, r) (lookupKey_mem hr)

theorem runWrites_nil {g : Group} (h : g.written = []) (u : Option Nat) (f : Nat) : g.runWrites u f = [] := by
  simp [Group.runWrites, h]

theorem loadReady_of {i : Instr} {s : State} {g : Group} {n : Nat} {e key : Option Nat → Nat}
    (h : ((g.issue i).helpers = [] ∧ g.amber = .idle ∧ g.redo = [] ∧ g.fetched = [] ∧ g.remoteFail = []) ∧
      ∀ u ∈ (g.issue i).units, e u / 65536 = (e u + n - 1) / 65536 ∧ keyTier (key u) ≤ 1 ∧
        (s.pageLogged g.core g.ctx (e u) n = false ∧ s.ownRmwMeets g (e u) (key u) n = false) ∧
        ∀ j < n, s.lineWaits g ((key u + j) / 128 * 128) = false)
    (m : ∀ u ∈ (g.issue i).units, Mapped s (dieOfCore g.core) g.ctx (e u) {} (key u)) : LoadReady i s g n e key :=
  ⟨h.1.1, h.1.2.1, h.1.2.2, fun u hu => (h.2 u hu).1, m, fun u hu => (h.2 u hu).2.1,
    fun u hu => (h.2 u hu).2.2.1, fun u hu => (h.2 u hu).2.2.2⟩

theorem productReady_of {s : State} {g : Group} {n : Nat} {i : Instr} {pass : SliceOp → Prop} {regs : List Nat} (pc : Word)
    (h : ((g.cv n).op = some i ∧ (g.cv n).queued = true ∧ (∀ q ∈ (g.cv n).signed, q.2 = pc) ∧ g.written = []) ∧
      (∀ arr ∈ productArrays i, (s.sliceOf g arr).order.takeWhile (fun o => o != .product g.key n) = [] ∧
        s.columnTested g.core arr = false) ∧
      (∀ r ∈ regs, r < 96) ∧ ∀ q ∈ (g.cv n).signed, ∀ r ∈ regs, (g.reg? (some q.1) r).isSome = true) :
    ProductReady s g n i pass regs := by
  obtain ⟨⟨h1, h2, h3, h4⟩, h5, h6, h7⟩ := h
  exact ⟨h1, h2, ⟨pc, h3⟩, fun a ha => by simp [(h5 a ha).1], fun a ha => (h5 a ha).2, h6,
    fun q hq r hr => ⟨h7 q hq r hr, runWrites_nil h4 _ _⟩⟩

theorem ofGroups {s : State} {P : Group → Prop} {ks : List GKey} (h : ∀ k ∈ ks, ∀ g ∈ (s.group? k).toList, P g) :
    ∀ k ∈ ks, ∀ g, s.group? k = some g → P g :=
  fun k hk g hg => h k hk g (by simp [hg])

theorem unparked_of {g : Group} (h : ∀ y ∈ g.lanes, (match y.park with | some (.yield _) => false | _ => true) = true) :
    ∀ (l : Nat) (y : Lane) (m : LaneMask), g.lane? l = some y → y.park ≠ some (.yield m) := by
  intro l y m hy e
  have := h y (List.mem_of_getElem? hy)
  rw [e] at this
  cases this

theorem place_of {b : Block} {core a : Nat} {far : Bool}
    (h : (match placeOf b core a with | .localMem _ f => f == far | _ => false) = true) :
    ∃ off, placeOf b core a = .localMem off far := by
  split at h
  · rename_i off f e; exact ⟨off, e.trans (by rw [eq_of_beq h])⟩
  · cases h

theorem place_all {b : Block} {core a : Nat} {far : Bool} {P : Nat → Bool}
    (h : (match placeOf b core a with | .localMem off f => !(f == far) || !P off | _ => true) = true) :
    ∀ off, placeOf b core a = .localMem off far → P off = false := by
  intro off e
  rw [e] at h
  simpa using h

theorem noGrant_of {s : State} {m : Msg} {r : Nat}
    (h : ∀ n < 16, ¬ (windowCovers ((lookupKey n s.dev.fwinCtl).getD 0) ((lookupKey n s.dev.fwinLim).getD 0) m.src m.addr m.size = true ∧
      bitOf ((lookupKey n s.dev.fwinCtl).getD 0) r = true)) : ∀ n, Covers s m n → ¬ Grants s n r :=
  fun n c g => h n c.1 ⟨c.2, g⟩

/-- The table entries that a walk reads lie below `top`. -/
def pathBelow (m : Memory) (va top : Nat) : Nat → Nat → Bool
  | 0, t => decide (memKey 0 (t + 8 * levelIndex 0 va) + 8 ≤ top)
  | n + 1, t =>
    let a := t + 8 * levelIndex (n + 1) va
    decide (memKey 0 a + 8 ≤ top) && pathBelow m va top n (leafPa (BitVec.ofNat 64 (m.readNat (memKey 0 a) 8)))

theorem walk_congr {m m' : Memory} {va top : Nat} (h : ∀ k, k + 8 ≤ top → m'.readNat k 8 = m.readNat k 8) :
    ∀ n t, pathBelow m va top n t = true → walk m' va n t = walk m va n t := by
  intro n
  induction n with
  | zero => intro t p; unfold walk; simp only [h _ (of_decide_eq_true p)]
  | succ n ih =>
    intro t p
    simp only [pathBelow, Bool.and_eq_true, decide_eq_true_eq] at p
    unfold walk
    simp only [h _ p.1, ih _ p.2]

/-- Whether a prefix masks the lane off, by evaluation. -/
def maskedOffB (i : Instr) (g : Group) (helpers : Bool) (l : Nat) : Bool :=
  match i.pfx, g.lane? l with
  | some p, some y => p.mz && (holds y.preds p.pr.toNat == p.pn) &&
      ((g.issue i).issuing.contains l || (helpers && y.status == .helper && (g.issue i).issuing.any fun m => m / 4 == l / 4))
  | _, _ => false

theorem maskedOff_of {i : Instr} {g : Group} {b : Bool} {l : Nat} (h : maskedOffB i g b l = true) : MaskedOff i g b l := by
  unfold maskedOffB at h
  split at h
  · rename_i p y hp hy
    simp only [Bool.and_eq_true, Bool.or_eq_true, beq_iff_eq, List.contains_iff_mem, List.any_eq_true] at h
    exact ⟨p, y, hp, h.1.1, hy, h.1.2, h.2.imp_right fun a => ⟨a.1.1, a.1.2, a.2⟩⟩
  · cases h

/-- Whether the code of a program gives the instruction. -/
def fetchesB (s : State) (k : GKey) (core : Nat) (pc : Word) (i : Instr) : Bool :=
  match s.fetch k core pc with
  | .ok j => j == i
  | .error _ => false

theorem fetches_of {s : State} {k : GKey} {core : Nat} {pc : Word} {i : Instr} (h : fetchesB s k core pc i = true) :
    s.fetch k core pc = .ok i := by
  unfold fetchesB at h
  split at h
  · rename_i j e; rw [e, eq_of_beq h]
  · cases h

/-- Whether a step goes on. -/
def goesB (o : Out) : Bool :=
  match o with
  | .next _ => true
  | _ => false

theorem next_of {o : Out} (h : goesB o = true) : ∃ t, o = .next t := by
  cases o with
  | next t => exact ⟨t, rfl⟩
  | fault e => cases h
  | refused e => cases h

theorem issues_all {is : List Instr} {s : State} {k : GKey} {g : Group} (h : (is.all fun i => issuesB i s k g) = true) :
    ∀ i ∈ is, Issues i s k g :=
  fun i hi => issues_of (List.all_eq_true.1 h i hi)

theorem engineIssues_all {is : List Instr} {s : State} {id : Nat} {e : Engine}
    (h : (is.all fun i => engineIssuesB i s id e) = true) : ∀ i ∈ is, EngineIssues i s id e :=
  fun i hi => engineIssues_of (List.all_eq_true.1 h i hi)

/-- Conjuncts shown together, then the rest. -/
theorem and2 {a b r : Prop} (h : a ∧ b) (t : r) : a ∧ b ∧ r :=
  ⟨h.1, h.2, t⟩
theorem and3 {a b c r : Prop} (h : a ∧ b ∧ c) (t : r) : a ∧ b ∧ c ∧ r :=
  ⟨h.1, h.2.1, h.2.2, t⟩
theorem and4 {a b c d r : Prop} (h : a ∧ b ∧ c ∧ d) (t : r) : a ∧ b ∧ c ∧ d ∧ r :=
  ⟨h.1, h.2.1, h.2.2.1, h.2.2.2, t⟩
theorem and5 {a b c d e r : Prop} (h : a ∧ b ∧ c ∧ d ∧ e) (t : r) : a ∧ b ∧ c ∧ d ∧ e ∧ r :=
  ⟨h.1, h.2.1, h.2.2.1, h.2.2.2.1, h.2.2.2.2, t⟩
theorem and6 {a b c d e f r : Prop} (h : a ∧ b ∧ c ∧ d ∧ e ∧ f) (t : r) : a ∧ b ∧ c ∧ d ∧ e ∧ f ∧ r :=
  ⟨h.1, h.2.1, h.2.2.1, h.2.2.2.1, h.2.2.2.2.1, h.2.2.2.2.2, t⟩


/-! ### Ill-formed terms

Each term breaks one fixed field of its word (02 R36, R37), or has a prefix whose rounding code is reserved (02 R45). -/

/-- A prefix with the reserved rounding code 6. -/
def badPfx : Pfx := some ⟨15, false, false, 6, 0, false, false, false, false, false⟩

/-- Fields that the table fixes hold another value. -/
theorem test_illFormed_fields_1 :
    (([.bfi none ⟨false, 0, 0, 0, false, false, true⟩, .neg none ⟨false, 0, 0, 1, false, false⟩, .not_ none ⟨false, 0, 0, 2,
      false, false⟩, .abs none ⟨false, 0, 0, 3, false, false⟩, .popc none ⟨false, 0, 0, 4, false, false⟩, .clz none ⟨false, 0,
      0, 5, false, false⟩, .ctz none ⟨false, 0, 0, 6, false, false⟩, .brev none ⟨false, 0, 0, 7, false, false⟩, .bswap none
      ⟨false, 0, 0, 8, false, false⟩, .sext8 none ⟨false, 0, 0, 9, false, false⟩, .sext8 none ⟨false, 0, 0, 8, false, true⟩,
      .sext16 none ⟨false, 0, 0, 10, false, false⟩, .sext16 none ⟨false, 0, 0, 9, false, true⟩, .zext8 none ⟨false, 0, 0, 11,
      false, false⟩, .zext8 none ⟨false, 0, 0, 10, false, true⟩, .zext16 none ⟨false, 0, 0, 12, false, false⟩, .zext16 none
      ⟨false, 0, 0, 11, false, true⟩, .mov none ⟨false, 0, 0, 13, false, false⟩, .pget none ⟨false, 0, 1, 13, false, false⟩,
      .pget none ⟨false, 0, 0, 14, false, false⟩, .pget none ⟨false, 0, 0, 13, true, false⟩, .pget none ⟨false, 0, 0, 13,
      false, true⟩, .pput none ⟨false, 1, 0, 14, false, false⟩, .pput none ⟨false, 0, 0, 15, false, false⟩, .pput none ⟨false,
      0, 0, 14, false, true⟩, .sext32 none ⟨false, 0, 0, 16, false, true⟩, .sext32 none ⟨false, 0, 0, 15, false, false⟩,
      .zext32 none ⟨false, 0, 0, 17, false, true⟩, .zext32 none ⟨false, 0, 0, 16, false, false⟩, .fadd none ⟨false, 0, 0, 0,
      false, false, true⟩, .fsub none ⟨false, 0, 0, 0, false, false, true⟩, .fmul none ⟨false, 0, 0, 0, false, false, true⟩,
      .ffma none ⟨false, 0, 0, 0, false, false, true⟩, .fmin none ⟨false, 0, 0, 0, false, false, true⟩, .fmax none ⟨false, 0,
      0, 0, false, false, false⟩, .fcvt none ⟨false, 0, 0, 1, false, false⟩, .fabs none ⟨false, 0, 0, 1, false, false⟩, .fabs
      none ⟨false, 0, 0, 0, false, true⟩, .fneg none ⟨false, 0, 0, 2, false, false⟩, .fneg none ⟨false, 0, 0, 1, false, true⟩]
      : List Instr).all fun i => i.wf == false) = true := by
  decide +kernel

/-- Fields that the table fixes hold another value. -/
theorem test_illFormed_fields_2 :
    (([.fsqrt none ⟨false, 0, 0, 3, false, false⟩, .fsqrt none ⟨false, 0, 0, 2, false, true⟩, .frint none ⟨false, 0, 0, 4,
      false, false⟩, .frint none ⟨false, 0, 0, 3, false, true⟩, .frcp none ⟨false, 0, 0, 5, false, false⟩, .frcp none ⟨false,
      0, 0, 4, false, true⟩, .fsat none ⟨false, 0, 0, 6, false, false⟩, .fsat none ⟨false, 0, 0, 5, false, true⟩, .sfuRcp none
      ⟨false, 0, 0, 1, false, false⟩, .sfuRcp none ⟨false, 0, 0, 0, false, true⟩, .sfuRsqrt none ⟨false, 0, 0, 2, false,
      false⟩, .sfuRsqrt none ⟨false, 0, 0, 1, false, true⟩, .sfuExp2 none ⟨false, 0, 0, 3, false, false⟩, .sfuExp2 none
      ⟨false, 0, 0, 2, false, true⟩, .sfuLog2 none ⟨false, 0, 0, 4, false, false⟩, .sfuLog2 none ⟨false, 0, 0, 3, false,
      true⟩, .sfuSin none ⟨false, 0, 0, 5, false, false⟩, .sfuSin none ⟨false, 0, 0, 4, false, true⟩, .sfuCos none ⟨false, 0,
      0, 6, false, false⟩, .sfuCos none ⟨false, 0, 0, 5, false, true⟩, .sfuTanh none ⟨false, 0, 0, 7, false, false⟩, .sfuTanh
      none ⟨false, 0, 0, 6, false, true⟩, .fclass none ⟨false, 0, 0, 0, false, true⟩, .fminNan none ⟨false, 0, 0, 1, false,
      false⟩, .fminNan none ⟨false, 0, 0, 0, false, true⟩, .fmaxNan none ⟨false, 0, 0, 2, false, false⟩, .fmaxNan none ⟨false,
      0, 0, 1, false, true⟩, .fminmag none ⟨false, 0, 0, 3, false, false⟩, .fminmag none ⟨false, 0, 0, 2, false, true⟩,
      .fmaxmag none ⟨false, 0, 0, 4, false, false⟩, .fmaxmag none ⟨false, 0, 0, 3, false, true⟩, .rand none ⟨false, 0, 1, 0,
      false, false⟩, .rand none ⟨false, 0, 0, 0, true, false⟩, .rand none ⟨false, 0, 0, 0, false, true⟩, .jr ⟨false, 1, 0, 0,
      false⟩, .fork ⟨false, 0, true, 0⟩, .endF ⟨false, 1, 0⟩, .endF ⟨false, 0, 1⟩, .yield ⟨false, 1, 0⟩, .yield ⟨false, 0, 1⟩]
      : List Instr).all fun i => i.wf == false) = true := by
  decide +kernel

/-- Fields that the table fixes hold another value. -/
theorem test_illFormed_fields_3 :
    (([.win ⟨false, 1, 0⟩, .win ⟨false, 0, 1024⟩, .trap ⟨false, 1, 0⟩, .rtt ⟨false, 1, 0, 0, false, false⟩, .rtt ⟨false, 0, 1,
      0, false, false⟩, .rtt ⟨false, 0, 0, 1, false, false⟩, .rtt ⟨false, 0, 0, 0, true, false⟩, .rtt ⟨false, 0, 0, 0, false,
      true⟩, .rttSkip ⟨false, 1, 0, 0, false, true⟩, .rttSkip ⟨false, 0, 1, 0, false, true⟩, .rttSkip ⟨false, 0, 0, 1, false,
      true⟩, .rttSkip ⟨false, 0, 0, 0, true, true⟩, .rttSkip ⟨false, 0, 0, 0, false, false⟩, .pset ⟨false, 0, 0, 16, 0, 0⟩,
      .pset ⟨false, 0, 0, 0, 16, 0⟩, .cvdeclLive ⟨false, 1, 0, 0, false, false⟩, .cvdeclLive ⟨false, 0, 1, 0, false, false⟩,
      .cvdeclLive ⟨false, 0, 0, 8, false, false⟩, .cvdeclLive ⟨false, 0, 0, 0, true, false⟩, .cvdeclLive ⟨false, 0, 0, 0,
      false, true⟩, .cvdeclSet ⟨false, 1, 0, 0, false, true⟩, .cvdeclSet ⟨false, 0, 1, 0, false, true⟩, .cvdeclSet ⟨false, 0,
      0, 8, false, true⟩, .cvdeclSet ⟨false, 0, 0, 0, true, true⟩, .cvdeclSet ⟨false, 0, 0, 0, false, false⟩, .cvsign ⟨false,
      1, 0, 0, false, false⟩, .cvsign ⟨false, 0, 1, 0, false, false⟩, .cvsign ⟨false, 0, 0, 8, false, false⟩, .cvsign ⟨false,
      0, 0, 0, true, false⟩, .cvsign ⟨false, 0, 0, 0, false, true⟩, .nop ⟨false, 1, 0⟩, .nop ⟨false, 0, 1⟩, .qswpH none
      ⟨false, 0, 0, 1, false, false⟩, .qswpH none ⟨false, 0, 0, 0, false, true⟩, .qswpV none ⟨false, 0, 0, 2, false, false⟩,
      .qswpV none ⟨false, 0, 0, 1, false, true⟩, .qswpD none ⟨false, 0, 0, 3, false, false⟩, .qswpD none ⟨false, 0, 0, 2,
      false, true⟩, .qbc none ⟨false, 0, 0, 0, false, false⟩, .qbc none ⟨false, 0, 0, 4, false, true⟩] : List Instr).all fun i
      => i.wf == false) = true := by
  decide +kernel

/-- Fields that the table fixes hold another value. -/
theorem test_illFormed_fields_4 :
    (([.qddx none ⟨false, 0, 0, 9, false, false⟩, .qddx none ⟨false, 0, 0, 8, false, true⟩, .qddy none ⟨false, 0, 0, 10,
      false, false⟩, .qddy none ⟨false, 0, 0, 9, false, true⟩, .voteSome none ⟨false, 0, 16, 0, false, false⟩, .voteSome none
      ⟨false, 0, 0, 1, false, false⟩, .voteSome none ⟨false, 0, 0, 0, true, false⟩, .voteEvery none ⟨false, 0, 16, 1, false,
      false⟩, .voteEvery none ⟨false, 0, 0, 2, false, false⟩, .voteEvery none ⟨false, 0, 0, 1, true, false⟩, .voteAgree none
      ⟨false, 0, 16, 2, false, false⟩, .voteAgree none ⟨false, 0, 0, 3, false, false⟩, .voteAgree none ⟨false, 0, 0, 2, true,
      false⟩, .voteMask none ⟨false, 0, 16, 3, false, false⟩, .voteMask none ⟨false, 0, 0, 4, false, false⟩, .voteMask none
      ⟨false, 0, 0, 3, true, false⟩, .voteCount none ⟨false, 0, 16, 4, false, false⟩, .voteCount none ⟨false, 0, 0, 5, false,
      false⟩, .voteCount none ⟨false, 0, 0, 4, true, false⟩, .voteFirst none ⟨false, 0, 16, 5, false, false⟩, .voteFirst none
      ⟨false, 0, 0, 6, false, false⟩, .voteFirst none ⟨false, 0, 0, 5, true, false⟩, .voteLast none ⟨false, 0, 16, 6, false,
      false⟩, .voteLast none ⟨false, 0, 0, 7, false, false⟩, .voteLast none ⟨false, 0, 0, 6, true, false⟩, .matchF none
      ⟨false, 0, 0, 0, false, true⟩, .redg none ⟨false, 0, 0, 0, false, true⟩, .fenceAcq ⟨false, 0, 1⟩, .fenceRel ⟨false, 0,
      2⟩, .fenceAr ⟨false, 0, 3⟩, .fenceXpath ⟨false, 1, 3⟩, .fenceXpath ⟨false, 0, 4⟩, .cctlInvl1 ⟨false, 1, 0, 0, 0⟩,
      .cctlInvl1 ⟨false, 0, 1, 0, 0⟩, .cctlInvl1 ⟨false, 0, 0, 1, 0⟩, .cctlInvl1 ⟨false, 0, 0, 0, 1⟩, .cctlInvline ⟨false, 1,
      0, 0, 1⟩, .cctlInvline ⟨false, 0, 0, 0, 2⟩, .cctlInvpt ⟨false, 1, 0, 0, 2⟩, .cctlInvpt ⟨false, 0, 1, 0, 2⟩] : List
      Instr).all fun i => i.wf == false) = true := by
  decide +kernel

/-- Fields that the table fixes hold another value. -/
theorem test_illFormed_fields_5 :
    (([.cctlInvpt ⟨false, 0, 0, 1, 2⟩, .cctlInvpt ⟨false, 0, 0, 0, 3⟩, .cctlInvpg ⟨false, 1, 0, 0, 3⟩, .cctlInvpg ⟨false, 0,
      0, 0, 4⟩, .cctlPfL1 ⟨false, 1, 0, 0, 4⟩, .cctlPfL1 ⟨false, 0, 0, 0, 5⟩, .cctlPfLlc ⟨false, 1, 0, 0, 5⟩, .cctlPfLlc
      ⟨false, 0, 0, 0, 6⟩, .waitc ⟨false, 0, 1, 0, 0⟩, .waitc ⟨false, 0, 0, 1, 0⟩, .cpa ⟨false, 0, 2, 0, 0⟩, .mscFill ⟨false,
      0, 0, 0, 1⟩, .mscRdo ⟨false, 0, 0, 0, 0⟩, .mscAxpy ⟨false, 0, 0, 0, 3⟩, .mscCopy ⟨false, 0, 0, 0, 2⟩, .pkrSet ⟨false, 1,
      0, 0, false, false⟩, .pkrSet ⟨false, 0, 0, 1, false, false⟩, .pkrSet ⟨false, 0, 0, 0, false, true⟩, .pkrGet ⟨false, 0,
      1, 1, false, false⟩, .pkrGet ⟨false, 0, 0, 2, false, false⟩, .pkrGet ⟨false, 0, 0, 1, true, false⟩, .pkrGet ⟨false, 0,
      0, 1, false, true⟩, .capMov none ⟨false, 0, 0, 1, false, false⟩, .capMov none ⟨false, 0, 0, 0, false, true⟩, .capGetaddr
      none ⟨false, 0, 0, 2, false, false⟩, .capGetaddr none ⟨false, 0, 0, 1, false, true⟩, .capGetbase none ⟨false, 0, 0, 3,
      false, false⟩, .capGetbase none ⟨false, 0, 0, 2, false, true⟩, .capGetlen none ⟨false, 0, 0, 4, false, false⟩,
      .capGetlen none ⟨false, 0, 0, 3, false, true⟩, .capGetrights none ⟨false, 0, 0, 5, false, false⟩, .capGetrights none
      ⟨false, 0, 0, 4, false, true⟩, .capGettag none ⟨false, 0, 0, 6, false, false⟩, .capGettag none ⟨false, 0, 0, 5, false,
      true⟩, .capRestrict none ⟨false, 0, 0, 7, false, false⟩, .capRestrict none ⟨false, 0, 0, 6, false, true⟩, .capSetaddr
      none ⟨false, 0, 0, 8, false, false⟩, .capSetaddr none ⟨false, 0, 0, 7, false, true⟩, .capIncaddr none ⟨false, 0, 0, 9,
      false, false⟩, .capIncaddr none ⟨false, 0, 0, 8, false, true⟩] : List Instr).all fun i => i.wf == false) = true := by
  decide +kernel

/-- Fields that the table fixes hold another value. -/
theorem test_illFormed_fields_6 :
    (([.capClrtag none ⟨false, 0, 0, 10, false, false⟩, .capClrtag none ⟨false, 0, 0, 9, false, true⟩, .sld none ⟨false, 0, 0,
      0, 4⟩, .snorm none ⟨false, 0, 0, 0, false, true⟩, .harden none ⟨false, 0, 0, 0, false, true⟩, .sldg none ⟨false, 0, 0,
      0, 4⟩, .mwl ⟨false, 0, 0, 1, 0, false, false, 0⟩, .mwl ⟨false, 0, 0, 0, 1, false, false, 0⟩, .mwl ⟨false, 0, 0, 0, 0,
      true, false, 0⟩, .mwl ⟨false, 0, 0, 0, 0, false, false, 1⟩, .mmaD ⟨false, 0, 0, 0, 2, false, false, 0⟩, .mmaD ⟨false, 0,
      0, 0, 0, true, false, 0⟩, .mmaD ⟨false, 0, 0, 0, 0, false, false, 1⟩, .mswap ⟨false, 1, 0, 0, 0, false, false, 0⟩,
      .mswap ⟨false, 0, 1, 0, 0, false, false, 0⟩, .mswap ⟨false, 0, 0, 1, 0, false, false, 0⟩, .mswap ⟨false, 0, 0, 0, 1,
      false, false, 0⟩, .mswap ⟨false, 0, 0, 0, 0, true, false, 0⟩, .mswap ⟨false, 0, 0, 0, 0, false, false, 1⟩, .mscl ⟨false,
      1, 0, 0, 0, false, false, 0⟩, .mscl ⟨false, 0, 0, 0, 1, false, false, 0⟩, .mscl ⟨false, 0, 0, 0, 0, true, false, 0⟩,
      .mscl ⟨false, 0, 0, 0, 0, false, false, 1⟩, .rdv ⟨false, 1, 0, 0, 0⟩, .rdv ⟨false, 0, 0, 0, 1⟩, .rdvTest ⟨false, 2, 0,
      0, 0⟩, .rdvTest ⟨false, 1, 0, 0, 1⟩, .bar ⟨false, 0, 0, 0, 1⟩, .baroInit ⟨false, 1, 0, 0, 0⟩, .baroInit ⟨false, 0, 1, 0,
      0⟩, .baroArrive ⟨false, 2, 0, 0, 0⟩, .baroArrive ⟨false, 1, 2, 0, 0⟩, .baroWait ⟨false, 3, 0, 0, 0⟩, .baroWait ⟨false,
      2, 1, 0, 0⟩, .baroAw ⟨false, 4, 0, 0, 0⟩, .baroAw ⟨false, 3, 2, 0, 0⟩, .baroAw ⟨false, 3, 0, 0, 1⟩, .tbar ⟨false, 4, 0,
      0, 0⟩, .tbar ⟨false, 0, 0, 1, 0⟩, .tbar ⟨false, 0, 0, 0, 1⟩] : List Instr).all fun i => i.wf == false) = true := by
  decide +kernel

/-- Fields that the table fixes hold another value. -/
theorem test_illFormed_fields_7 :
    (([.cqPush ⟨false, 1, 0, 0, 0⟩, .cqPush ⟨false, 0, 0, 0, 1⟩, .cqPop ⟨false, 2, 0, 0, 0⟩, .cqPop ⟨false, 1, 1, 0, 0⟩,
      .cqReset ⟨false, 3, 0, 0, 0⟩, .cqReset ⟨false, 2, 1, 0, 0⟩, .cqReset ⟨false, 2, 0, 1, 0⟩, .cqReset ⟨false, 2, 0, 0, 1⟩,
      .cqCount ⟨false, 4, 0, 0, 0⟩, .cqCount ⟨false, 3, 1, 0, 0⟩, .cqCount ⟨false, 3, 0, 1, 0⟩, .credInit ⟨false, 1, 0, 0, 0⟩,
      .credInit ⟨false, 0, 0, 0, 1⟩, .credTri ⟨false, 2, 0, 0, 0⟩, .credSum ⟨false, 3, 0, 0, 0⟩, .credGet ⟨false, 4, 0, 0, 0⟩,
      .seqend ⟨false, 1, 0, 0, 0⟩, .seqend ⟨false, 0, 1, 0, 0⟩, .waitt ⟨false, 1, 0, 0, 0⟩, .ecopy ⟨false, 0, 2, 0, 0⟩,
      .emcast ⟨false, 0, 2, 0, 0⟩, .egkvLd ⟨false, 1, 0, 0, 0⟩, .egkvLd ⟨false, 0, 2, 0, 0⟩, .egkvLdx ⟨false, 2, 0, 0, 0⟩,
      .egkvLdx ⟨false, 1, 2, 0, 0⟩, .egkvSt ⟨false, 3, 0, 0, 0⟩, .egkvSt ⟨false, 2, 2, 0, 0⟩, .egkvPurge ⟨false, 4, 0, 0, 0⟩,
      .egkvPurge ⟨false, 3, 2, 0, 0⟩, .emerge ⟨false, 0, 4, 0, 0⟩, .esig ⟨false, 1, 0, 0, 0⟩, .esig ⟨false, 0, 1, 0, 0⟩] :
      List Instr).all fun i => i.wf == false) = true := by
  decide +kernel

/-- The prefix has a reserved rounding code. -/
theorem test_illFormed_rounding_1 :
    (([.add badPfx ⟨false, 0, 0, 0, false, false, false⟩, .sub badPfx ⟨false, 0, 0, 0, false, false, false⟩, .mul badPfx
      ⟨false, 0, 0, 0, false, false, false⟩, .mulh badPfx ⟨false, 0, 0, 0, false, false, false⟩, .and_ badPfx ⟨false, 0, 0, 0,
      false, false, false⟩, .or_ badPfx ⟨false, 0, 0, 0, false, false, false⟩, .xor_ badPfx ⟨false, 0, 0, 0, false, false,
      false⟩, .andn badPfx ⟨false, 0, 0, 0, false, false, false⟩, .shl badPfx ⟨false, 0, 0, 0, false, false, false⟩, .shr
      badPfx ⟨false, 0, 0, 0, false, false, false⟩, .rot badPfx ⟨false, 0, 0, 0, false, false, false⟩, .min badPfx ⟨false, 0,
      0, 0, false, false, false⟩, .max badPfx ⟨false, 0, 0, 0, false, false, false⟩, .movc badPfx ⟨false, 0, 0, 0, false,
      false, false⟩, .bfx badPfx ⟨false, 0, 0, 0, false, false, false⟩, .bfi badPfx ⟨false, 0, 0, 0, false, false, false⟩,
      .neg badPfx ⟨false, 0, 0, 0, false, false⟩, .not_ badPfx ⟨false, 0, 0, 0, false, false⟩, .abs badPfx ⟨false, 0, 0, 0,
      false, false⟩, .popc badPfx ⟨false, 0, 0, 0, false, false⟩, .clz badPfx ⟨false, 0, 0, 0, false, false⟩, .ctz badPfx
      ⟨false, 0, 0, 0, false, false⟩, .brev badPfx ⟨false, 0, 0, 0, false, false⟩, .bswap badPfx ⟨false, 0, 0, 0, false,
      false⟩, .sext8 badPfx ⟨false, 0, 0, 0, false, false⟩, .sext16 badPfx ⟨false, 0, 0, 0, false, false⟩, .zext8 badPfx
      ⟨false, 0, 0, 0, false, false⟩, .zext16 badPfx ⟨false, 0, 0, 0, false, false⟩, .mov badPfx ⟨false, 0, 0, 0, false,
      false⟩, .pget badPfx ⟨false, 0, 0, 0, false, false⟩, .pput badPfx ⟨false, 0, 0, 0, false, false⟩, .sext32 badPfx ⟨false,
      0, 0, 0, false, false⟩, .zext32 badPfx ⟨false, 0, 0, 0, false, false⟩, .cmpI32 badPfx ⟨false, 0, 0, 0, 0, 0⟩, .cmpUi32
      badPfx ⟨false, 0, 0, 0, 0, 0⟩, .cmpI64 badPfx ⟨false, 0, 0, 0, 0, 0⟩, .cmpUi64 badPfx ⟨false, 0, 0, 0, 0, 0⟩, .addi
      badPfx ⟨false, 0, 0, 0, false⟩, .andi badPfx ⟨false, 0, 0, 0, false⟩, .ori badPfx ⟨false, 0, 0, 0, false⟩] : List
      Instr).all fun i => i.wf == false) = true := by
  decide +kernel

/-- The prefix has a reserved rounding code. -/
theorem test_illFormed_rounding_2 :
    (([.xori badPfx ⟨false, 0, 0, 0, false⟩, .shi badPfx ⟨false, 0, 0, 0, false⟩, .cmpi badPfx ⟨false, 0, 0, 0, 0, 0⟩, .li
      badPfx ⟨false, 0, 0⟩, .lui badPfx ⟨false, 0, 0⟩, .mad badPfx ⟨false, 0, 0, 0, false, false, false⟩, .fadd badPfx ⟨false,
      0, 0, 0, false, false, false⟩, .fsub badPfx ⟨false, 0, 0, 0, false, false, false⟩, .fmul badPfx ⟨false, 0, 0, 0, false,
      false, false⟩, .ffma badPfx ⟨false, 0, 0, 0, false, false, false⟩, .fmin badPfx ⟨false, 0, 0, 0, false, false, false⟩,
      .fmax badPfx ⟨false, 0, 0, 0, false, false, false⟩, .fcmp badPfx ⟨false, 0, 0, 0, 0, 0⟩, .hadd2 badPfx ⟨false, 0, 0, 0,
      false, false, false⟩, .hmul2 badPfx ⟨false, 0, 0, 0, false, false, false⟩, .hfma2 badPfx ⟨false, 0, 0, 0, false, false,
      false⟩, .fcvt badPfx ⟨false, 0, 0, 0, false, false⟩, .fabs badPfx ⟨false, 0, 0, 0, false, false⟩, .fneg badPfx ⟨false,
      0, 0, 0, false, false⟩, .fsqrt badPfx ⟨false, 0, 0, 0, false, false⟩, .frint badPfx ⟨false, 0, 0, 0, false, false⟩,
      .frcp badPfx ⟨false, 0, 0, 0, false, false⟩, .fsat badPfx ⟨false, 0, 0, 0, false, false⟩, .sfuRcp badPfx ⟨false, 0, 0,
      0, false, false⟩, .sfuRsqrt badPfx ⟨false, 0, 0, 0, false, false⟩, .sfuExp2 badPfx ⟨false, 0, 0, 0, false, false⟩,
      .sfuLog2 badPfx ⟨false, 0, 0, 0, false, false⟩, .sfuSin badPfx ⟨false, 0, 0, 0, false, false⟩, .sfuCos badPfx ⟨false, 0,
      0, 0, false, false⟩, .sfuTanh badPfx ⟨false, 0, 0, 0, false, false⟩, .fclass badPfx ⟨false, 0, 0, 0, false, false⟩,
      .dot2 badPfx ⟨false, 0, 0, 0, false, false, false⟩, .fminNan badPfx ⟨false, 0, 0, 0, false, false⟩, .fmaxNan badPfx
      ⟨false, 0, 0, 0, false, false⟩, .fminmag badPfx ⟨false, 0, 0, 0, false, false⟩, .fmaxmag badPfx ⟨false, 0, 0, 0, false,
      false⟩, .rand badPfx ⟨false, 0, 0, 0, false, false⟩, .shflIdx badPfx ⟨false, 0, 0, 0, false, false, false⟩, .shflRel
      badPfx ⟨false, 0, 0, 0, false⟩, .qswpH badPfx ⟨false, 0, 0, 0, false, false⟩] : List Instr).all fun i => i.wf == false)
      = true := by
  decide +kernel

/-- The prefix has a reserved rounding code. -/
theorem test_illFormed_rounding_3 :
    (([.qswpV badPfx ⟨false, 0, 0, 0, false, false⟩, .qswpD badPfx ⟨false, 0, 0, 0, false, false⟩, .qbc badPfx ⟨false, 0, 0,
      0, false, false⟩, .qddx badPfx ⟨false, 0, 0, 0, false, false⟩, .qddy badPfx ⟨false, 0, 0, 0, false, false⟩, .voteSome
      badPfx ⟨false, 0, 0, 0, false, false⟩, .voteEvery badPfx ⟨false, 0, 0, 0, false, false⟩, .voteAgree badPfx ⟨false, 0, 0,
      0, false, false⟩, .voteMask badPfx ⟨false, 0, 0, 0, false, false⟩, .voteCount badPfx ⟨false, 0, 0, 0, false, false⟩,
      .voteFirst badPfx ⟨false, 0, 0, 0, false, false⟩, .voteLast badPfx ⟨false, 0, 0, 0, false, false⟩, .matchF badPfx
      ⟨false, 0, 0, 0, false, false⟩, .redg badPfx ⟨false, 0, 0, 0, false, false⟩, .scang badPfx ⟨false, 0, 0, 0, false,
      false⟩, .bcast badPfx ⟨false, 0, 0, 0, false⟩, .ld badPfx ⟨false, 0, 0, 0, 0⟩, .st badPfx ⟨false, 0, 0, 0, 0⟩, .ldi
      badPfx ⟨false, 0, 0, 0, 0⟩, .sti badPfx ⟨false, 0, 0, 0, 0⟩, .ldl badPfx ⟨false, 0, 0, 0, 0⟩, .stl badPfx ⟨false, 0, 0,
      0, 0⟩, .ldln badPfx ⟨false, 0, 0, 0, 0⟩, .atomI32 badPfx ⟨false, 0, 0, 0, 0⟩, .atomI64 badPfx ⟨false, 0, 0, 0, 0⟩,
      .atomF32 badPfx ⟨false, 0, 0, 0, 0⟩, .redI32 badPfx ⟨false, 0, 0, 0, 0⟩, .redI64 badPfx ⟨false, 0, 0, 0, 0⟩, .redF32
      badPfx ⟨false, 0, 0, 0, 0⟩, .atoml badPfx ⟨false, 0, 0, 0, 0⟩, .cas badPfx ⟨false, 0, 0, 0, 0⟩, .capMov badPfx ⟨false,
      0, 0, 0, false, false⟩, .capGetaddr badPfx ⟨false, 0, 0, 0, false, false⟩, .capGetbase badPfx ⟨false, 0, 0, 0, false,
      false⟩, .capGetlen badPfx ⟨false, 0, 0, 0, false, false⟩, .capGetrights badPfx ⟨false, 0, 0, 0, false, false⟩,
      .capGettag badPfx ⟨false, 0, 0, 0, false, false⟩, .capRestrict badPfx ⟨false, 0, 0, 0, false, false⟩, .capSetaddr badPfx
      ⟨false, 0, 0, 0, false, false⟩, .capIncaddr badPfx ⟨false, 0, 0, 0, false, false⟩] : List Instr).all fun i => i.wf ==
      false) = true := by
  decide +kernel

/-- The prefix has a reserved rounding code. -/
theorem test_illFormed_rounding_4 :
    (([.capClrtag badPfx ⟨false, 0, 0, 0, false, false⟩, .cbnd badPfx ⟨false, 0, 0, 0, false, false, false⟩, .sld badPfx
      ⟨false, 0, 0, 0, 0⟩, .sst badPfx ⟨false, 0, 0, 0, 0⟩, .sshift badPfx ⟨false, 0, 0, 0, false, false, false⟩, .snorm
      badPfx ⟨false, 0, 0, 0, false, false⟩, .harden badPfx ⟨false, 0, 0, 0, false, false⟩, .sldg badPfx ⟨false, 0, 0, 0, 0⟩,
      .sstg badPfx ⟨false, 0, 0, 0, 0⟩] : List Instr).all fun i => i.wf == false) = true := by
  decide +kernel

/-- The same words with every fixed field at its value are well formed. -/
theorem test_wellFormed_1 :
    (([.bfi none ⟨false, 0, 0, 0, false, false, false⟩, .neg none ⟨false, 0, 0, 0, false, false⟩, .not_ none ⟨false, 0, 0, 1,
      false, false⟩, .abs none ⟨false, 0, 0, 2, false, false⟩, .popc none ⟨false, 0, 0, 3, false, false⟩, .clz none ⟨false, 0,
      0, 4, false, false⟩, .ctz none ⟨false, 0, 0, 5, false, false⟩, .brev none ⟨false, 0, 0, 6, false, false⟩, .bswap none
      ⟨false, 0, 0, 7, false, false⟩, .sext8 none ⟨false, 0, 0, 8, false, false⟩, .sext16 none ⟨false, 0, 0, 9, false, false⟩,
      .zext8 none ⟨false, 0, 0, 10, false, false⟩, .zext16 none ⟨false, 0, 0, 11, false, false⟩, .mov none ⟨false, 0, 0, 12,
      false, false⟩, .pget none ⟨false, 0, 0, 13, false, false⟩, .pput none ⟨false, 0, 0, 14, false, false⟩, .sext32 none
      ⟨false, 0, 0, 15, false, true⟩, .zext32 none ⟨false, 0, 0, 16, false, true⟩, .fadd none ⟨false, 0, 0, 0, false, false,
      false⟩, .fsub none ⟨false, 0, 0, 0, false, false, false⟩, .fmul none ⟨false, 0, 0, 0, false, false, false⟩, .ffma none
      ⟨false, 0, 0, 0, false, false, false⟩, .fmin none ⟨false, 0, 0, 0, false, false, false⟩, .fmax none ⟨false, 0, 0, 0,
      false, false, true⟩, .fcvt none ⟨false, 0, 0, 0, false, false⟩, .fabs none ⟨false, 0, 0, 0, false, false⟩, .fneg none
      ⟨false, 0, 0, 1, false, false⟩, .fsqrt none ⟨false, 0, 0, 2, false, false⟩, .frint none ⟨false, 0, 0, 3, false, false⟩,
      .frcp none ⟨false, 0, 0, 4, false, false⟩, .fsat none ⟨false, 0, 0, 5, false, false⟩, .sfuRcp none ⟨false, 0, 0, 0,
      false, false⟩, .sfuRsqrt none ⟨false, 0, 0, 1, false, false⟩, .sfuExp2 none ⟨false, 0, 0, 2, false, false⟩, .sfuLog2
      none ⟨false, 0, 0, 3, false, false⟩, .sfuSin none ⟨false, 0, 0, 4, false, false⟩, .sfuCos none ⟨false, 0, 0, 5, false,
      false⟩, .sfuTanh none ⟨false, 0, 0, 6, false, false⟩, .fclass none ⟨false, 0, 0, 0, false, false⟩, .fminNan none ⟨false,
      0, 0, 0, false, false⟩, .fmaxNan none ⟨false, 0, 0, 1, false, false⟩, .fminmag none ⟨false, 0, 0, 2, false, false⟩,
      .fmaxmag none ⟨false, 0, 0, 3, false, false⟩, .rand none ⟨false, 0, 0, 0, false, false⟩, .jr ⟨false, 0, 0, 0, false⟩,
      .fork ⟨false, 0, false, 0⟩, .endF ⟨false, 0, 0⟩, .yield ⟨false, 0, 0⟩, .win ⟨false, 0, 0⟩, .trap ⟨false, 0, 0⟩, .rtt
      ⟨false, 0, 0, 0, false, false⟩, .rttSkip ⟨false, 0, 0, 0, false, true⟩, .pset ⟨false, 0, 0, 0, 0, 0⟩, .cvdeclLive
      ⟨false, 0, 0, 0, false, false⟩, .cvdeclSet ⟨false, 0, 0, 0, false, true⟩, .cvsign ⟨false, 0, 0, 0, false, false⟩, .nop
      ⟨false, 0, 0⟩, .qswpH none ⟨false, 0, 0, 0, false, false⟩, .qswpV none ⟨false, 0, 0, 1, false, false⟩, .qswpD none
      ⟨false, 0, 0, 2, false, false⟩] : List Instr).all fun i => i.wf == true) = true := by
  decide +kernel

/-- The same words with every fixed field at its value are well formed. -/
theorem test_wellFormed_2 :
    (([.qbc none ⟨false, 0, 0, 4, false, false⟩, .qddx none ⟨false, 0, 0, 8, false, false⟩, .qddy none ⟨false, 0, 0, 9, false,
      false⟩, .voteSome none ⟨false, 0, 0, 0, false, false⟩, .voteEvery none ⟨false, 0, 0, 1, false, false⟩, .voteAgree none
      ⟨false, 0, 0, 2, false, false⟩, .voteMask none ⟨false, 0, 0, 3, false, false⟩, .voteCount none ⟨false, 0, 0, 4, false,
      false⟩, .voteFirst none ⟨false, 0, 0, 5, false, false⟩, .voteLast none ⟨false, 0, 0, 6, false, false⟩, .matchF none
      ⟨false, 0, 0, 0, false, false⟩, .redg none ⟨false, 0, 0, 0, false, false⟩, .fenceAcq ⟨false, 0, 0⟩, .fenceRel ⟨false, 0,
      1⟩, .fenceAr ⟨false, 0, 2⟩, .fenceXpath ⟨false, 0, 3⟩, .cctlInvl1 ⟨false, 0, 0, 0, 0⟩, .cctlInvline ⟨false, 0, 0, 0, 1⟩,
      .cctlInvpt ⟨false, 0, 0, 0, 2⟩, .cctlInvpg ⟨false, 0, 0, 0, 3⟩, .cctlPfL1 ⟨false, 0, 0, 0, 4⟩, .cctlPfLlc ⟨false, 0, 0,
      0, 5⟩, .waitc ⟨false, 0, 0, 0, 0⟩, .cpa ⟨false, 0, 0, 0, 0⟩, .mscFill ⟨false, 0, 0, 0, 0⟩, .mscRdo ⟨false, 0, 0, 0, 1⟩,
      .mscAxpy ⟨false, 0, 0, 0, 2⟩, .mscCopy ⟨false, 0, 0, 0, 3⟩, .pkrSet ⟨false, 0, 0, 0, false, false⟩, .pkrGet ⟨false, 0,
      0, 1, false, false⟩, .capMov none ⟨false, 0, 0, 0, false, false⟩, .capGetaddr none ⟨false, 0, 0, 1, false, false⟩,
      .capGetbase none ⟨false, 0, 0, 2, false, false⟩, .capGetlen none ⟨false, 0, 0, 3, false, false⟩, .capGetrights none
      ⟨false, 0, 0, 4, false, false⟩, .capGettag none ⟨false, 0, 0, 5, false, false⟩, .capRestrict none ⟨false, 0, 0, 6,
      false, false⟩, .capSetaddr none ⟨false, 0, 0, 7, false, false⟩, .capIncaddr none ⟨false, 0, 0, 8, false, false⟩,
      .capClrtag none ⟨false, 0, 0, 9, false, false⟩, .sld none ⟨false, 0, 0, 0, 0⟩, .snorm none ⟨false, 0, 0, 0, false,
      false⟩, .harden none ⟨false, 0, 0, 0, false, false⟩, .sldg none ⟨false, 0, 0, 0, 0⟩, .mwl ⟨false, 0, 0, 0, 0, false,
      false, 0⟩, .mmaD ⟨false, 0, 0, 0, 0, false, false, 0⟩, .mswap ⟨false, 0, 0, 0, 0, false, false, 0⟩, .mscl ⟨false, 0, 0,
      0, 0, false, false, 0⟩, .rdv ⟨false, 0, 0, 0, 0⟩, .rdvTest ⟨false, 1, 0, 0, 0⟩, .bar ⟨false, 0, 0, 0, 0⟩, .baroInit
      ⟨false, 0, 0, 0, 0⟩, .baroArrive ⟨false, 1, 0, 0, 0⟩, .baroWait ⟨false, 2, 0, 0, 0⟩, .baroAw ⟨false, 3, 0, 0, 0⟩, .tbar
      ⟨false, 0, 0, 0, 0⟩, .cqPush ⟨false, 0, 0, 0, 0⟩, .cqPop ⟨false, 1, 0, 0, 0⟩, .cqReset ⟨false, 2, 0, 0, 0⟩, .cqCount
      ⟨false, 3, 0, 0, 0⟩] : List Instr).all fun i => i.wf == true) = true := by
  decide +kernel

/-- The same words with every fixed field at its value are well formed. -/
theorem test_wellFormed_3 :
    (([.credInit ⟨false, 0, 0, 0, 0⟩, .credTri ⟨false, 1, 0, 0, 0⟩, .credSum ⟨false, 2, 0, 0, 0⟩, .credGet ⟨false, 3, 0, 0,
      0⟩, .seqend ⟨false, 0, 0, 0, 0⟩, .waitt ⟨false, 0, 0, 0, 0⟩, .ecopy ⟨false, 0, 0, 0, 0⟩, .emcast ⟨false, 0, 0, 0, 0⟩,
      .egkvLd ⟨false, 0, 0, 0, 0⟩, .egkvLdx ⟨false, 1, 0, 0, 0⟩, .egkvSt ⟨false, 2, 0, 0, 0⟩, .egkvPurge ⟨false, 3, 0, 0, 0⟩,
      .emerge ⟨false, 0, 0, 0, 0⟩, .esig ⟨false, 0, 0, 0, 0⟩] : List Instr).all fun i => i.wf == true) = true := by
  decide +kernel

/-! ### Words written out in the spec, and the instructions they stand for -/

/-- 02 R36: add v2, v1, v0; ldi.cap s8:4, s0:4, 0 ^; addi s13, s12, 7 ^; sti.i32 s13, s8:4, 4; end; shr.ui32 v3, v1, v2; popc
v3, v1; clz.b64 v4, v2:2; li v9, 8 ^; lui v9, 0xD438; shi.shl v3, v1, 4; cmp.i64.ge p3, v4:2, v6:2. -/
theorem test_decode_1 :
    decodesB 0x01040400 none (.add none ⟨false, 2, 1, 0, false, false, false⟩) = true ∧
    decodesB 0xCAD18007 none (.ldi none ⟨true, 104, 96, 0, 7⟩) = true ∧
    decodesB 0x96DBB00E none (.addi none ⟨true, 109, 108, 7, false⟩) = true ∧
    decodesB 0x4BDBA00C none (.sti none ⟨false, 109, 104, 1, 4⟩) = true ∧
    decodesB 0x34000000 none (.endF ⟨false, 0, 0⟩) = true ∧
    decodesB 0x0A060410 none (.shr none ⟨false, 3, 1, 2, false, false, false⟩) = true ∧
    decodesB 0x11060418 none (.popc none ⟨false, 3, 1, 3, false, false⟩) = true ∧
    decodesB 0x11080821 none (.clz none ⟨false, 4, 2, 4, false, true⟩) = true ∧
    decodesB 0x9C120008 none (.li none ⟨true, 9, 8⟩) = true ∧
    decodesB 0x1D12D438 none (.lui none ⟨false, 9, 54328⟩) = true ∧
    decodesB 0x1A060408 none (.shi none ⟨false, 3, 1, 4, false⟩) = true ∧
    decodesB 0x14301035 none (.cmpI64 none ⟨false, 3, 0, 4, 6, 5⟩) = true := by
  decide +kernel

/-- 02 R36: cmp.i32.lt.or p2, v1, v3; pset.xor p4, p1, p2; movs v0, lane; jr v10; fork child; yield ^; cvdecl.live cv2;
cvdecl.set cv2; cvsign cv2; cbnd s12:4, s8:4, s16:2; cap.getlen v4:2, s8:4; trap 5. -/
theorem test_decode_2 :
    decodesB 0x1224041A none (.cmpI32 none ⟨false, 2, 2, 1, 3, 2⟩) = true ∧
    decodesB 0x3B400412 none (.pset ⟨false, 4, 0, 1, 2, 2⟩) = true ∧
    decodesB 0x1F000000 none (.movs ⟨false, 0, 0, 0, false, false⟩) = true ∧
    decodesB 0x32002800 none (.jr ⟨false, 0, 10, 0, false⟩) = true ∧
    decodesB 0x33F00008 none (.fork ⟨false, 15, false, 8⟩) = true ∧
    decodesB 0xB5000000 none (.yield ⟨true, 0, 0⟩) = true ∧
    decodesB 0x3C000010 none (.cvdeclLive ⟨false, 0, 0, 2, false, false⟩) = true ∧
    decodesB 0x3C000011 none (.cvdeclSet ⟨false, 0, 0, 2, false, true⟩) = true ∧
    decodesB 0x3D000010 none (.cvsign ⟨false, 0, 0, 2, false, false⟩) = true ∧
    decodesB 0x5FD9A380 none (.cbnd none ⟨false, 108, 104, 112, false, false, false⟩) = true ∧
    decodesB 0x5E09A018 none (.capGetlen none ⟨false, 4, 104, 3, false, false⟩) = true ∧
    decodesB 0x37000005 none (.trap ⟨false, 0, 5⟩) = true := by
  decide +kernel

/-- 02 R36: svc 1, s8:4; rtt; nop ^; fadd v3, v1, v2; fmul v3, v1, v2; fmax v3, v1, v2; fcmp.lt p2, v1, v3; hadd2.f16 v3, v1,
v2; sfu.exp2 v3, v1; sfu.sin v3, v1!; fclass.f16 v3, v1; fcvt.f32.e4m3 v4, v3. -/
theorem test_decode_3 :
    decodesB 0x38D00001 none (.svc ⟨false, 104, 1⟩) = true ∧
    decodesB 0x39000000 none (.rtt ⟨false, 0, 0, 0, false, false⟩) = true ∧
    decodesB 0xBE000000 none (.nop ⟨true, 0, 0⟩) = true ∧
    decodesB 0x20060410 none (.fadd none ⟨false, 3, 1, 2, false, false, false⟩) = true ∧
    decodesB 0x22060410 none (.fmul none ⟨false, 3, 1, 2, false, false, false⟩) = true ∧
    decodesB 0x24060411 none (.fmax none ⟨false, 3, 1, 2, false, false, true⟩) = true ∧
    decodesB 0x2520041A none (.fcmp none ⟨false, 2, 0, 1, 3, 2⟩) = true ∧
    decodesB 0x26060410 none (.hadd2 none ⟨false, 3, 1, 2, false, false, false⟩) = true ∧
    decodesB 0x2B060410 none (.sfuExp2 none ⟨false, 3, 1, 2, false, false⟩) = true ∧
    decodesB 0x2B060424 none (.sfuSin none ⟨false, 3, 1, 4, true, false⟩) = true ∧
    decodesB 0x2C060408 none (.fclass none ⟨false, 3, 1, 1, false, false⟩) = true ∧
    decodesB 0x29080C30 none (.fcvt none ⟨false, 4, 3, 6, false, false⟩) = true := by
  decide +kernel

/-- 02 R36: rand.b32 v3; shfl.idx v5, v8, v2; shfl.rel v3, v1, 4; qswp.h v3, v1; qddx v3, v1; vote.mask s10:2, p1; vote.some
v4, !p2; vote.first s4, p2; match.b32 v6:2, v2; redg.add.f32 s12, v3; scang.add.i32 v9, v4; bcast s14, v2, 5. -/
theorem test_decode_4 :
    decodesB 0x2F060000 none (.rand none ⟨false, 3, 0, 0, false, false⟩) = true ∧
    decodesB 0x400A2010 none (.shflIdx none ⟨false, 5, 8, 2, false, false, false⟩) = true ∧
    decodesB 0x41060408 none (.shflRel none ⟨false, 3, 1, 4, false⟩) = true ∧
    decodesB 0x42060400 none (.qswpH none ⟨false, 3, 1, 0, false, false⟩) = true ∧
    decodesB 0x42060440 none (.qddx none ⟨false, 3, 1, 8, false, false⟩) = true ∧
    decodesB 0x43D40418 none (.voteMask none ⟨false, 106, 1, 3, false, false⟩) = true ∧
    decodesB 0x43080801 none (.voteSome none ⟨false, 4, 2, 0, false, true⟩) = true ∧
    decodesB 0x43C80828 none (.voteFirst none ⟨false, 100, 2, 5, false, false⟩) = true ∧
    decodesB 0x440C0800 none (.matchF none ⟨false, 6, 2, 0, false, false⟩) = true ∧
    decodesB 0x45D80C08 none (.redg none ⟨false, 108, 3, 1, false, false⟩) = true ∧
    decodesB 0x46121000 none (.scang none ⟨false, 9, 4, 0, false, false⟩) = true ∧
    decodesB 0x47DC080A none (.bcast none ⟨false, 110, 2, 5, false⟩) = true := by
  decide +kernel

/-- 02 R36: ld.i32 v8, s0:4, v2; st.i32 v9, s0:4, v2; ldl.i32 v3, v1, v2; stl.i32 v3, v1, v2; ldln.i32 v8, s8:4, s12;
atom.i32.add v5, s0:4, v2; red.i32.or v5, s8:4, v2; red.f32.add v6, s0:4, v2; atoml.add v5, v1, v2; fence acq.blk; fence
rel.dev; fence ar.clu. -/
theorem test_decode_5 :
    decodesB 0x48118014 none (.ld none ⟨false, 8, 96, 2, 4⟩) = true ∧
    decodesB 0x49138014 none (.st none ⟨false, 9, 96, 2, 4⟩) = true ∧
    decodesB 0x4C060414 none (.ldl none ⟨false, 3, 1, 2, 4⟩) = true ∧
    decodesB 0x4D060414 none (.stl none ⟨false, 3, 1, 2, 4⟩) = true ∧
    decodesB 0x4E11A364 none (.ldln none ⟨false, 8, 104, 108, 4⟩) = true ∧
    decodesB 0x4F0B8010 none (.atomI32 none ⟨false, 5, 96, 2, 0⟩) = true ∧
    decodesB 0x520BA012 none (.redI32 none ⟨false, 5, 104, 2, 2⟩) = true ∧
    decodesB 0x540D8010 none (.redF32 none ⟨false, 6, 96, 2, 0⟩) = true ∧
    decodesB 0x550A0410 none (.atoml none ⟨false, 5, 1, 2, 0⟩) = true ∧
    decodesB 0x57200000 none (.fenceAcq ⟨false, 1, 0⟩) = true ∧
    decodesB 0x57640000 none (.fenceRel ⟨false, 3, 1⟩) = true ∧
    decodesB 0x57480000 none (.fenceAr ⟨false, 2, 2⟩) = true := by
  decide +kernel

/-- 02 R36: fence xpath; cctl.invpt ^; cctl.pf.l1 s8:4, v2; msc.rdo.rel s16:4, s8:4, s12:4; msc.fill s16:4, s8:4, s8:4;
pkr.set s10:2; pkr.get s10:2; sld.f32 v12, s8:4, v4; sst.f32 v10, s8:4, v4; sshift v8, v4, s16:4; snorm v8, v4, 4; harden v6,
v4, 4. -/
theorem test_decode_6 :
    decodesB 0x570C0000 none (.fenceXpath ⟨false, 0, 3⟩) = true ∧
    decodesB 0xD8000002 none (.cctlInvpt ⟨true, 0, 0, 0, 2⟩) = true ∧
    decodesB 0x5801A014 none (.cctlPfL1 ⟨false, 0, 104, 2, 4⟩) = true ∧
    decodesB 0x5BE1A365 none (.mscRdo ⟨false, 112, 104, 108, 5⟩) = true ∧
    decodesB 0x5BE1A340 none (.mscFill ⟨false, 112, 104, 104, 0⟩) = true ∧
    decodesB 0x5D01A800 none (.pkrSet ⟨false, 0, 106, 0, false, false⟩) = true ∧
    decodesB 0x5DD40008 none (.pkrGet ⟨false, 106, 0, 1, false, false⟩) = true ∧
    decodesB 0x6019A020 none (.sld none ⟨false, 12, 104, 4, 0⟩) = true ∧
    decodesB 0x6115A020 none (.sst none ⟨false, 10, 104, 4, 0⟩) = true ∧
    decodesB 0x62101380 none (.sshift none ⟨false, 8, 4, 112, false, false, false⟩) = true ∧
    decodesB 0x63101018 none (.snorm none ⟨false, 8, 4, 3, false, false⟩) = true ∧
    decodesB 0x640C1018 none (.harden none ⟨false, 6, 4, 3, false, false⟩) = true := by
  decide +kernel

/-- 02 R36: mwl.a1 s12:2; mswap.a0; mma.bf16 v64, v0, cv2; mma.s.bf16.2of4 v64, v0, cv1; mscl.a0 v20, cv1; forke.ce 3, s8,
s12:4; rdv s9, 3; cpa.g2g s16:8; esig s24:4, s8; waitc ce, 2; waitt p3, s24:4, s28:4; bar 0. -/
theorem test_decode_7 :
    decodesB 0x6801B004 none (.mwl ⟨false, 0, 108, 0, 0, false, true, 0⟩) = true ∧
    decodesB 0x6C000000 none (.mswap ⟨false, 0, 0, 0, 0, false, false, 0⟩) = true ∧
    decodesB 0x69800100 none (.mma ⟨false, 64, 0, 2, 0, false, false, 0⟩) = true ∧
    decodesB 0x6A800080 none (.mmaS ⟨false, 64, 0, 1, 0, false, false, 0⟩) = true ∧
    decodesB 0x6D005080 none (.mscl ⟨false, 0, 20, 1, 0, false, false, 0⟩) = true ∧
    decodesB 0x7027A360 none (.forke ⟨false, 1, 3, 104, 108⟩) = true ∧
    decodesB 0x7107A400 none (.rdv ⟨false, 0, 3, 105, 0⟩) = true ∧
    decodesB 0x5A01C000 none (.cpa ⟨false, 0, 0, 112, 0⟩) = true ∧
    decodesB 0x7E01E340 none (.esig ⟨false, 0, 0, 120, 104⟩) = true ∧
    decodesB 0x59200010 none (.waitc ⟨false, 1, 0, 0, 2⟩) = true ∧
    decodesB 0x7907E3E0 none (.waitt ⟨false, 0, 3, 120, 124⟩) = true ∧
    decodesB 0x72000000 none (.bar ⟨false, 0, 0, 0, 0⟩) = true := by
  decide +kernel

/-- 02 R36: baro.init s10, s11; cred.init 2, s12; cred.tri 2, s8:4, v40; cred.get 2, s8:4, v40 ^; emcast.g2l.tok s16:8, s24:4;
tbar 5; cmpi.ne p2, v4, 0 ^; frcp s28, s24 ^; (!p5) bra arrive; ffma v12, v16, s3, v12; egkv.ld.tok s16:8, s24:4; seqend s12,
s8:4. -/
theorem test_decode_8 :
    decodesB 0x7301AB58 none (.baroInit ⟨false, 0, 0, 106, 107⟩) = true ∧
    decodesB 0x7605B000 none (.credInit ⟨false, 0, 2, 108, 0⟩) = true ∧
    decodesB 0x7625A140 none (.credTri ⟨false, 1, 2, 104, 40⟩) = true ∧
    decodesB 0xF665A140 none (.credGet ⟨true, 3, 2, 104, 40⟩) = true ∧
    decodesB 0x7B03C3C0 none (.emcast ⟨false, 0, 1, 112, 120⟩) = true ∧
    decodesB 0x740A0000 none (.tbar ⟨false, 0, 5, 0, 0⟩) = true ∧
    decodesB 0x9B201001 none (.cmpi none ⟨true, 2, 0, 4, 0, 1⟩) = true ∧
    decodesB 0xAAF9E020 none (.frcp none ⟨true, 124, 120, 4, false, false⟩) = true ∧
    decodesB 0x30580002 none (.bra ⟨false, 5, true, 2⟩) = true ∧
    decodesB 0x23184318 none (.ffma none ⟨false, 12, 16, 99, false, false, false⟩) = true ∧
    decodesB 0x7C03C3C0 none (.egkvLd ⟨false, 0, 1, 112, 120⟩) = true ∧
    decodesB 0x7801A360 none (.seqend ⟨false, 0, 0, 104, 108⟩) = true := by
  decide +kernel

/-- 02 R36: cq.push p3, v4; emerge.and s16:8; lnch s12, s8:4, 5; egkv.st s0:8; movc.ez v8, v0, s30. -/
theorem test_decode_9 :
    decodesB 0x75061000 none (.cqPush ⟨false, 0, 3, 4, 0⟩) = true ∧
    decodesB 0x7D01C000 none (.emerge ⟨false, 0, 0, 112, 0⟩) = true ∧
    decodesB 0x770BA360 none (.lnch ⟨false, 0, 5, 104, 108⟩) = true ∧
    decodesB 0x7C418000 none (.egkvSt ⟨false, 2, 0, 96, 0⟩) = true ∧
    decodesB 0x0E1003F1 none (.movc none ⟨false, 8, 0, 126, false, false, true⟩) = true := by
  decide +kernel

/-- 03 R79: `win 32, 32` and `win.u 64`. -/
theorem test_decode_win :
    decodesB 0x36000022 none (.win ⟨false, 0, 0x22⟩) = true ∧ decodesB 0x36000140 none (.win ⟨false, 0, 0x140⟩) = true := by
  decide +kernel

/-! ### The spec's worked values -/

/-- The registers of the group after the word, by field number. -/
def regsAfter (i : Instr) (g : Group) (fs : List Nat) : List (Option Word) :=
  match exec i (device g) with
  | .next t => (t.group? key).elim [] fun g => fs.map fun f => (g.reg? none f).map (·.val)
  | _ => []

/-- 03 R61, R62: with v1 = 0x8000_0000, `shr.ui32` and `shr.i32` by 4 give 0x0800_0000 and 0xF800_0000, by 40 they give 0 and
0xFFFF_FFFF. -/
theorem test_shr :
    regsAfter (.shr none ⟨true, 108, 104, 105, false, false, false⟩) (group [(8, 0x80000000), (9, 4)] []) [108] = [some 0x08000000] ∧
    regsAfter (.shr none ⟨true, 108, 104, 105, false, false, true⟩) (group [(8, 0x80000000), (9, 4)] []) [108] = [some 0xF8000000] ∧
    regsAfter (.shr none ⟨true, 108, 104, 105, false, false, false⟩) (group [(8, 0x80000000), (9, 40)] []) [108] = [some 0] ∧
    regsAfter (.shr none ⟨true, 108, 104, 105, false, false, true⟩) (group [(8, 0x80000000), (9, 40)] []) [108] = [some 0xFFFFFFFF] := by
  decide +kernel

/-- 03 R87's parent: base 0x4000_0000, 16 MiB, address 0x4000_1000, every right; and the requested length in s16:2. -/
def cbndGroup (n : Nat) : Group :=
  let c := capBits 0xFF 6 0x3FFFF 0x40000000 0x40001000
  group ((List.range 4).map (fun j => (8 + j, bitsOf c (32 * j) 32)) ++ [(16, BitVec.ofNat 32 n), (17, 0)]) [2]

/-- LE, LM and the tag of s12:4 after `cbnd` or `cbnd.up`. -/
def bounded (up : Bool) (n : Nat) : Option (Nat × Nat × Bool) :=
  match exec (.cbnd none ⟨true, 108, 104, 112, false, false, up⟩) (device (cbndGroup n)) with
  | .next t => (t.group? key).map fun g =>
    ((bitsOf (g.quad none 108) 114 6).toNat, (bitsOf (g.quad none 108) 96 18).toNat, g.quadTag none 108)
  | _ => none

/-- 03 R87: the table of results. -/
theorem test_cbnd :
    bounded false 1000000 = some (2, 249999, true) ∧ bounded true 1000000 = some (2, 249999, true) ∧
    bounded false 300001 = some (1, 150000, false) ∧ bounded true 300001 = some (1, 150000, true) ∧
    bounded false 20000000 = some (7, 156249, false) ∧ bounded false 0 = some (0, 0, false) := by
  decide +kernel

/-- 04 R99: SPT8 values in 64ths: 0x00 is 2.0, 0x88 is -2.0, 0x07 is 1.0, 0x19 is 0, 0x1A is 0.25, 0x8E is -1 - 1/64. -/
theorem test_spt8_values : [0x00, 0x88, 0x07, 0x19, 0x1A, 0x8E].map sptValue = [128, -128, 64, 0, 16, -65] := by
  decide +kernel

/-- 04 R122: `fcvt.spt8.f32` writes 1.0 as 0x07, -0.5 as 0x97, 0.75 as 0x12 and 63/64 as 0x0E. -/
theorem test_spt8_codes :
    ([0x3F800000, 0xBF000000, 0x3F400000, 0x3F7C0000] : List Word).map (fun w =>
      regsAfter (.fcvt none ⟨true, 108, 104, 0x70, false, false⟩) (group [(8, w)] []) [108]) =
    [[some 0x07], [some 0x97], [some 0x12], [some 0x0E]] := by
  decide +kernel

/-- 06 R163: three lanes each add 1 to a word that holds 10: they receive 10, 11 and 12, and the word ends at 13. -/
theorem test_atom_lanes :
    let m := State.reset.mem.store 0x100 [10, 0, 0, 0]
    let r0 := m.performRmw (.i32 0) ⟨0, 0x100, 0x100, 1, 1⟩
    let r1 := r0.2.performRmw (.i32 0) ⟨1, 0x100, 0x100, 1, 1⟩
    let r3 := r1.2.performRmw (.i32 0) ⟨3, 0x100, 0x100, 1, 1⟩
    r0.1.map (·.val) = [10] ∧ r1.1.map (·.val) = [11] ∧ r3.1.map (·.val) = [12] ∧ r3.2.readNat 0x100 4 = 13 := by
  decide +kernel

/-- 07 R183, R184: the region [2, 0, 0, 0] with weights [0.5, 0.5, 0, 0]: `sst` of 5.0 leaves [3.5, 2.5, 0, 0], and `sld` then
returns 3.0. -/
theorem test_soft_steps :
    let l : LaneSoft := 
      { lane := 0, addr := 0, va := 0, addr2 := none, va2 := 0, n := 4, k := 1, weights := [0x3F000000, 0x3F000000, 0, 0],
        vals := [0x40A00000], carry := [] }
    let m : Slots := [⟨0x40000000, false⟩, ⟨0, false⟩, ⟨0, false⟩, ⟨0, false⟩]
    let m' := (softStep (.sst false) l m).region.getD []
    m'.map (·.val) = [0x40600000, 0x40200000, 0, 0] ∧ (softStep .sld l m').datum.map (·.val) = [0x40400000] := by
  decide +kernel

/-- 11 R267: the triples (0, 16, 16), (1, 16, 48) and (2, 8, 32) fold to (1, 24, 56), then (2, 20, 60). -/
theorem test_triples :
    let c1 : Contrib := ⟨2, 1, false, ⟨0x3F800000, false⟩, ⟨0x41800000, false⟩, [⟨0x42400000, false⟩]⟩
    let c2 : Contrib := ⟨2, 2, false, ⟨0x40000000, false⟩, ⟨0x41000000, false⟩, [⟨0x42000000, false⟩]⟩
    let r1 := mergeTriple false ⟨0, false⟩ ⟨0x41800000, false⟩ [⟨0x41800000, false⟩] c1
    let r2 := mergeTriple false r1.1 r1.2.1 r1.2.2 c2
    r1 = (⟨0x3F800000, false⟩, ⟨0x41C00000, false⟩, [⟨0x42600000, false⟩]) ∧
    r2 = (⟨0x40000000, false⟩, ⟨0x41A00000, false⟩, [⟨0x42700000, false⟩]) := by
  decide +kernel

/-- 12 R287: `msc.axpy` with a = -0.25, x = 0.5 on 1.0 gives 0.875. -/
theorem test_axpy :
    (floatFma fp32 homeEnv (unpack fp32 0xBE800000) (unpack fp32 0x3F000000) (unpack fp32 0x3F800000)).bits = 0x3F600000 := by
  decide +kernel

/-- 15 R318: the indices of va 0x4_1234_5678 are 2, 9 and 52, and its leaf names pa 0x0A30_0000 with protection key 3. -/
theorem test_walk_indices :
    levelIndex 2 0x412345678 = 2 ∧ levelIndex 1 0x412345678 = 9 ∧ levelIndex 0 0x412345678 = 52 ∧
    leafPa 0x003000000A30000F = 0x0A300000 ∧ leafPk 0x003000000A30000F = 3 ∧ leafD 0x003000000A30000F = false ∧
    leafD 0x003000000A30003F = true := by
  decide +kernel

/-- 16 R344: `emerge.or` of (2, 1.0), (5, 2.0), (9, 3.0) and (5, 0.5), (7, 1.0), (6, 4.0) emits (2, 1.0) and (5, 2.5), and
stops with status 6 at element 2 of y, with `.dup` as without. -/
theorem test_emerge_stops :
    let xs : List MergeElem := [⟨2, 0x3F800000, false⟩, ⟨5, 0x40000000, false⟩, ⟨9, 0x40400000, false⟩]
    let ys : List MergeElem := [⟨5, 0x3F000000, false⟩, ⟨7, 0x3F800000, false⟩, ⟨6, 0x40800000, false⟩]
    mergeRun true false 8 (fun _ => none) (fun _ => none) 7 0 0 xs ys [] = ⟨6, [⟨2, 0x3F800000, false⟩, ⟨5, 0x40200000, false⟩], 0x80000002⟩ ∧
    mergeRun true true 8 (fun _ => none) (fun _ => none) 7 0 0 xs ys [] = ⟨6, [⟨2, 0x3F800000, false⟩, ⟨5, 0x40200000, false⟩], 0x80000002⟩ := by
  decide +kernel

/-- 01 R15: with N = 192 and W = 32 the lease is 62,720 bytes; with N = 128 and W = 64 it is 41,600. -/
theorem test_lease :
    ({ launch with regs := 192, w := 32 } : Launch).lease = 62720 ∧ ({ launch with regs := 128, w := 64 } : Launch).lease = 41600 := by
  decide +kernel

/-- 01 R31, R32: `trap` in a launch with a handler at 0x40 takes every lane there, TPC holds its address and the group is in the handler state. -/
theorem test_trap_enters_the_handler :
    (match exec (.trap ⟨true, 0, 5⟩) (device plain) with
      | .next t => (t.group? key).map fun g => (g.handler, g.lanes.map (·.pc), g.lanes.map (·.tpc))
      | _ => none) = some (true, List.replicate 8 0x40, List.replicate 8 0) := by
  decide +kernel

/-! ### Parts of the states that meet the statements' hypotheses

Prefixes (`Pm` and so on), groups (`g…`), engine programs (`e…`), states (`s…`, `d…`), registers of a kind of word and values of
a record each have a short name; a state is the small device with the parts that its clauses speak of. -/

def Pm : Pfx := some ⟨1, false, true, 0, 0, false, false, false, false, false⟩
def mixed (regs : List (Nat × Word) := []) (tags : List Nat := [0,1]) : Group :=
  let g := group regs tags
  { g with fpcr := 3, runCount := 5, lanes := (List.range 8).map fun l => { lane l with
      preds := BitVec.ofNat 16 (0x8001 + 0x0222 * l), flags := BitVec.ofNat 7 l, fpsr := BitVec.ofNat 7 (3*l), calls := BitVec.ofNat 64 l,
      status := if l = 2 then .helper else if l = 4 then .free else .live
      park := if l = 5 then some (.cv 3) else none
      pc := if l = 6 then 8 else 0 } }
def dM := device mixed
def eD := program .ce [] [0,1]
def sE := withProgram eD
def rnd (n : Nat) : Byte := BitVec.ofNat 8 ((n * 2654435761 + n / 7 * 40503 + 12345) / 65536)
def L1s (s : State) : State := s.modCore 0 fun c => { c with l1 := [⟨1, 0x10000/512, [some ⟨(List.range 128).map fun n => rnd (n+77), 0xA5, 0⟩, none, none, none]⟩] }
def memD : Memory := (((State.reset.mem.store 0x10000 ((List.range 24).map rnd)).store 0x30000 ((List.range 24).map fun n => rnd (n+9999))).setTag 0x10010 true).setTag 0x10040 true
def dMem (g : Group) : State := { device g with mem := memD }
def sF (g : Group) : State := L1s (dMem g)
def live8 (regs : List (Nat × Word) := []) (tags : List Nat := [0,1]) : Group :=
  let g := group regs tags
  { g with runCount := 5, lanes := (List.range 8).map fun l => { lane l with
      preds := BitVec.ofNat 16 (0x8001 + 0x0222 * l), flags := BitVec.ofNat 7 l,
      v := ⟨(List.range 24).map fun n => (n, if n < 20 then laneReg l n else ⟨bitsOf (capBits 0xFF 0 0xFFFF 0x10000 (0x10000 + BitVec.ofNat 48 (16*l))) (32*(n-20)) 32, false⟩), if l = 3 then [] else [5], []⟩
      status := if l = 4 then .free else .live, park := if l = 5 then some (.cv 3) else none, pc := if l = 6 then 8 else 0 } }
def gSt (n : Nat) : Group := { live8 with outst := (List.range n).map fun j => ⟨.st,3+j,false,none⟩ }
def gC (c : BitVec 128) (tags : List Nat) : Group := live8 [(0,bitsOf c 0 32),(1,bitsOf c 32 32),(2,bitsOf c 64 32),(3,bitsOf c 96 32),(8,0x10)] tags
def gCl (c : BitVec 128) : Group := { gC c [0,1] with lanes := (gC c [0,1]).lanes.map fun y => { y with v := y.v.put 16 ⟨0x10,false⟩ } }
def gM (l : List (Nat × Word)) : Group := live8 l
def gCnt (c : Ctr) (n : Nat) : Group := { live8 with outst := (List.range n).map fun j => ⟨c,3+j,false,none⟩ }
def gSl (i : Nat) (st : Word) (r : List Ret := []) : Group := { live8 with slots := live8.slots.zipIdx.map fun p => if p.2 = i then ⟨st, none⟩ else p.1, redo := r }
def le (n : Nat) (v : Nat) : List Byte := (List.range n).map fun j => BitVec.ofNat 8 (v / 256^j)
def sT (g : Group) : State := let s := sF g; { s with mem := s.mem.store 0x10000 (le 8 0x123456789ABC) }
def gW (v : Nat) (lim : Word) (r : Nat) : Group := live8 [(r,BitVec.ofNat 32 v),(r+1,BitVec.ofNat 32 (v/2^32)),(r+2,lim)]
def sW (e : Engine) : State := let s := withProgram e; { s with mem := s.mem.store 0x10000 (le 8 0x123456789ABC) }
def eW (q : SeqKind) (v : Nat) : Engine := program q [(8,BitVec.ofNat 32 v),(9,BitVec.ofNat 32 (v/2^32)),(10,50)] [0,1]
def cpR (dl sl : Bool) (len : Nat) (tok : Bool) : List (Nat × Word) :=
  let dst : List (Nat × Word) := if dl then [(16, 0x100), (17, BitVec.ofNat 32 len)] else (List.range 4).map fun j => (16+j, bitsOf (capBits 0xFF 0 (BitVec.ofNat 18 (len-1)) 0x30000 0x30000) (32*j) 32)
  let src : List (Nat × Word) := if sl then [(20, 0x80), (21, 7)] else (List.range 4).map fun j => (20+j, bitsOf capA (32*j) 32)
  let tk : List (Nat × Word) := (List.range 4).map fun j => (24+j, bitsOf (capBits 0xFF 0 0xFFFF 0x30000 0x30800) (32*j) 32)
  dst ++ src ++ tk
def cpT : List Nat := [0,1,4,5,6]
def gCp (dl sl : Bool) (len : Nat) : Group := live8 (cpR dl sl len true) cpT
def eCp (q : SeqKind) (dl sl : Bool) (len : Nat) : Engine := { program q (cpR dl sl len true) cpT with cmds := [99] }
def eCs (q : SeqKind) (dl sl : Bool) (len : Nat) : Engine := program q (cpR dl sl len true) cpT
def capX (base len : Nat) : BitVec 128 := capBits 0xFF 0 (BitVec.ofNat 18 (len-1)) (BitVec.ofNat 48 base) (BitVec.ofNat 48 base)
def gSo (k n : Nat) (o1 o2 : Nat := 0) : Group :=
  let g := group [(16,0x3F800000)] [0,1]
  { g with runCount := 5, lanes := (List.range 8).map fun l => { lane l with
      preds := BitVec.ofNat 16 (0x8001 + 0x0222 * l), flags := BitVec.ofNat 7 l,
      v := ⟨(List.range 28).map fun m => (m, if m < 20 then laneReg l m else if m < 24 then ⟨bitsOf (capX (0x10000 + o1 + 64*l*k) (n*4*k)) (32*(m-20)) 32, false⟩ else ⟨bitsOf (capX (0x30000 + o2 + 64*l*k) (n*4*k)) (32*(m-24)) 32, false⟩), [5,6], []⟩
      status := if l = 4 then .free else .live, park := if l = 5 then some (.cv 3) else none, pc := if l = 6 then 8 else 0 } }
def kf (k n : Nat) : Option Nat → Nat := fun u => 0x10000 + 64*u.getD 0*k
def kf2 (k n : Nat) : Option Nat → Nat := fun u => 0x30000 + 64*u.getD 0*k
def PR (c : BitVec 7) : Pfx := some ⟨0,false,false,0,c,false,false,false,false,false⟩
def gB (n : Nat) : Group :=
  let g := group [(16,0x3F000000),(17,0x3E800000),(18,0x3E800000),(19,BitVec.ofNat 32 (n-1))] [0,1]
  { g with runCount := 5, lanes := (List.range 8).map fun l => { lane l with
     v := ⟨(List.range 20).map fun m => (m, laneReg l m), [], []⟩ } }
def fpW (l n : Nat) : Word := BitVec.ofNat 32 ((l * 2654435761 + n * 40503 * 65537 + 12345*n*n) % 0x100000000)
def smW (l n : Nat) : Word := BitVec.ofNat 32 (0x3F000000 + ((l*7919+n*104729) % 128) * 65536 + (if (l+n) % 3 = 0 then 0x80000000 else 0))
def gMx (raw : Bool) (op : Option Instr) (mask : LaneMask) (signed : List Nat) (regs : List (Nat × Word) := []) : Group :=
  let g := group regs [0,1]
  { g with lanes := (List.range 8).map fun l => { lane l with
      v := ⟨(List.range 40).map fun n => (n, ⟨if raw && n ≥ 8 then fpW l n else smW l n, false⟩), [], []⟩
      park := if l ∈ signed then some (.cv 2) else none }
           cvs := g.cvs.zipIdx.map fun p => if p.2 = 2 then ⟨some mask, signed.map fun l => (l, 0), op, op.isSome && (List.range 8).all fun l => !mask.getLsbD l || decide (l ∈ signed)⟩ else p.1 }
def hdr (fmt kr co src : Nat) (t : Bool) : Word := BitVec.ofNat 32 (fmt + (if t then 8 else 0) + 16*src + 64*kr + 8192*co)
def locCells : List Host.Cell := cellsWriteN [] 0 ((List.range 40).map rnd)
def dLoc (g : Group) (c2 : Bool) : State :=
  let d := dMem g
  { d with blocks := d.blocks.map fun b => { b with mem := ⟨locCells, []⟩, core2 := if c2 then some 1 else none, split := if c2 then 256 else 4096 },
           bands := d.bands.map fun b => { b with mem := ⟨cellsWriteN [] 0 ((List.range 16).map fun n => rnd (n+5555)), []⟩ } }
def sMx (g : Group) (arr : Nat) (cur sh : Option Tile) (ord : List SliceOp) : State :=
  (dLoc g false).modCore 0 fun c => { c with slices := [{ Slice.empty arr 0 8 with cur := cur, shadow := sh, order := ord, scales := (List.range 8).map fun n => ⟨smW 5 n, false⟩ }] }
def tile (fmt kr co : Nat) (raw : Bool) : Tile := ⟨fmt, kr, co, (List.range (kr*co)).map fun n => if raw then fpW 77 n else smW 77 n, false, ⟨0,0,0,key,1⟩⟩
def mw (arr : Nat) (h0 h1 : Word) : MwlOp := ⟨44, key, 0, arr, 0, ⟨h0,h1,0,key,1⟩, 8, [], none⟩
def sLw (arr : Nat) (h0 h1 : Word) (rest : List SliceOp) : State := { sMx { (gMx false none 0 []) with outst := [⟨.me,44,false,none⟩] } arr (some (tile 1 4 4 false)) none (.mwl 44 :: rest) with mwls := [mw arr h0 h1] }
def bkOf (s : State) : Block := s.blocks.headD (launch.blockOf 0 fetchSeat)
def sMx2 (g : Group) (c0 c1 : Option Tile) (o0 o1 : List SliceOp) : State :=
  (dLoc g false).modCore 0 fun c => { c with slices := [{ Slice.empty 0 0 8 with cur := c0, order := o0, scales := (List.range 8).map fun n => ⟨smW 5 n, false⟩ }, { Slice.empty 1 0 8 with cur := c1, order := o1, scales := (List.range 8).map fun n => ⟨smW 6 n, false⟩ }] }
def gSp (pt : Nat) (half raw : Bool) (op : Instr) (mask : LaneMask) (signed : List Nat) : Group :=
  let g := gMx raw (some op) mask signed
  let nv := if pt = 1 then 8 else 16
  let pat : List Nat := if pt = 0 then [0x32203110, 0x20103231, 0x21313020] else if pt = 1 then [0x01320213,0x33221100,0x10230123] else [0x64317520,0x76543210,0x76403210]
  { g with lanes := g.lanes.zipIdx.map fun q => { q.1 with v := { q.1.v with regs := q.1.v.regs.map fun r => if 8 + nv ≤ r.1 then (r.1, ⟨BitVec.ofNat 32 (pat[(r.1 + q.2) % 3]?.getD 0), false⟩) else r } } }
def gO (a b : Word) (st : Nat := 0) : Group := { live8 [(24,a),(25,b)] with msr := 0x2B, outst := (List.range st).map fun j => ⟨.st,3+j,false,none⟩ }
def gTr (s : State) : State := { s with cp := { s.cp with launches := s.cp.launches.map fun l => { l with trees := [⟨3,0,0,[],none⟩,⟨16,1,0,[],none⟩] } } }
def laOf (s : State) : Launch := s.cp.launches.headD launch
def sP (g : Group) (arr : List GKey) (b : BarKey) (infl : List Inflight := []) : State :=
  let s := gTr (L1s (dLoc g false))
  let bl := s.blocks.map fun (k : Block) => ({ k with bars := (match b with | .block _ _ i => [⟨i,7,arr,none⟩] | _ => []) } : Block)
  let bn := s.bands.map fun (k : Band) => ({ k with bars := (match b with | .band _ _ i => [⟨i,0xFFFFFFFF,arr,none⟩] | _ => []) } : Band)
  let ls := s.cp.launches.map fun (l : Launch) => ({ l with trees := [⟨3,0,9,arr,none⟩,⟨16,1,0xFFFFFFFF,arr,none⟩] } : Launch)
  ({ s with inflight := infl, blocks := bl, bands := bn, cp := { s.cp with launches := ls } } : State)
def gP (b : BarKey) (am : Bool) (pc : Word) (ct : Option Word) (pd : List PendOp := []) : Group := { live8 with pend := pd, lanes := live8.lanes.map fun y => { y with park := if y.status = .live then some (.barrier b am pc ct) else none } }
def opB (b : BarKey) (am : Bool) (ct : Option Word) (acks : List Nat) : PendOp := { id := 8, lanes := 0, pc := 0, instr := arrivalWord b am ct.isSome, args := ct.toList, dst := [], acks := acks, deadline := none, issued := 900, seq := 1, sent := false, ready := false }
def trOf (n : Nat) (arr : List GKey) : TreeUse := if n = 3 then ⟨3,0,9,arr,none⟩ else ⟨16,1,0xFFFFFFFF,arr,none⟩
def sF2 (g : Group) : State := L1s (dLoc g false)
def sB (g : Group) (sl : List CruSlot) (cq : List Reg) : State :=
  let s := sF2 g
  let bn := s.bands.map fun (k : Band) => ({ k with slots := sl, cq := cq, cru := true } : Band)
  ({ s with bands := bn } : State)
def gK (n : Nat) (a : Word := 5) : Group := { live8 [(24,a),(25,9),(26,3)] with outst := (List.range n).map fun j => ⟨.ke,3+j,false,none⟩ }
def bnOf (s : State) : Band := s.bands.headD (launch.bandOf 0 0)
def slot (id n mg : Nat) (cp er : Bool) (mode : Option Bool) : CruSlot := ⟨id, n, mode, List.range mg, mg, ⟨0x3F800000,false⟩, ⟨0x40000000,false⟩, (List.range 8).map fun j => ⟨BitVec.ofNat 32 (0x40400000+j*65536),false⟩, cp, er⟩
def hqr (i : Instr) (args : List Reg) (ln : List (Nat × Reg)) : HomeReq := ⟨3, .core 0, key, 257, .unit i args ln, 0⟩
def sHq (i : Instr) (args : List Reg) (ln : List (Nat × Reg)) (sl : List CruSlot) : State := { sB live8 sl [] with homes := [hqr i args ln, ⟨4,.core 0,⟨7,7,7⟩,5,.msc 3,0⟩] }
def q4 (n : Nat) (c : BitVec 128) : List (Nat × Word) := (List.range 4).map fun j => (n+j, bitsOf c (32*j) 32)
def capQ (a len : Nat) : BitVec 128 := capBits 0xFF 0 (BitVec.ofNat 18 (len-1)) (BitVec.ofNat 48 a) (BitVec.ofNat 48 a)
def descBytes (ntok nblk rowb16 stream kslot seq pool table : Nat) : List Byte :=
  let n := table + pool*2^64 + seq*2^128 + kslot*2^160 + stream*2^176 + (rowb16-1)*2^192 + nblk*2^200 + ntok*2^224
  (List.range 32).map fun j => BitVec.ofNat 8 (n / 256^j)
def sG (e : Engine) : State :=
  let s := withProgram e
  let s := { s with mem := (memD.store 0x10100 (descBytes 40 3 4 1 0x123 0x31 0x30000 0x30800)) }
  { s with cp := { s.cp with keys := [⟨7,false,1,0x31,0,0,[]⟩, ⟨0x123,false,1,0x31,5,6,[77]⟩] }, repair := { s.repair with cores := [9], clusters := [4] } }
def eG (q : SeqKind) (first n a : Nat) : Engine := { program q (q4 16 (capQ 0x10100 32) ++ [(20,BitVec.ofNat 32 first),(21,BitVec.ofNat 32 n),(22,BitVec.ofNat 32 a)] ++ q4 24 (capQ 0x30808 8)) [4,6] with cmds := [99] }
def els (xs : List (Nat × Nat)) : List MergeElem := xs.map fun p => ⟨p.1, BitVec.ofNat 32 p.2, false⟩
def loc2 (xs ys : List (Nat × Nat)) : List Host.Cell :=
  let put (c : List Host.Cell) (a : Nat) (l : List (Nat × Nat)) := l.zipIdx.foldl (fun c p => cellsWriteN c (a+8*p.2) ((List.range 4).map (fun j => BitVec.ofNat 8 (p.1.1/256^j)) ++ (List.range 4).map (fun j => BitVec.ofNat 8 (p.1.2/256^j)))) c
  put (put [] 0x100 xs) 0x200 ys
def sMg (e : Engine) (xs ys : List (Nat × Nat)) : State :=
  let s := withProgram e
  let bl := s.blocks.map fun (b : Block) => ({ b with mem := ⟨loc2 xs ys, []⟩ } : Block)
  ({ s with blocks := bl } : State)
def eMg (q : SeqKind) (nx ny cap : Nat) : Engine := program q [(16,0x100),(17,BitVec.ofNat 32 nx),(18,0x200),(19,BitVec.ofNat 32 ny),(20,0x300),(21,BitVec.ofNat 32 cap)] [0,1]
def d0 : State := sF2 live8
def qs (cfg : BitVec 64) (h t : Word) : State := let s := d0; s.setQueue { s.queue 5 with cfg := cfg, head := h, tail := t }
def wdev (s : State) (f : DevRegs → DevRegs) : State := { s with dev := f s.dev }
def off (s : State) : State := wdev s fun d => { d with bstate := 4, locked := false }
def wcp (s : State) (f : CmdProc → CmdProc) : State := { s with cp := f s.cp }
def sv (s : State) : State := wcp s fun c => { c with ctxs := [⟨1, 0x40000, 0x1000000, 0x1000000, 0, 0, 0, 0x5⟩] }
def cmd (s : State) (op : Nat) (a : List Nat) (st : Nat := 1) : State := wcp s fun c => { c with status := st, op := op, cmd := (a ++ List.replicate 8 0).take 8 |>.map (BitVec.ofNat 64) }
def keys (l : List KeySlot) (s : State) : State := wcp s fun c => { c with keys := l, seqsUsed := [0x44] }
def nodes (l : List Node) (s : State) : State := wcp s fun c => { c with nodes := l }
def nodeR (k : NKey) (st : NodeState) (l : Option Nat) : Node := ⟨k, 5, 0, 0, 0, [], st, none, l, 0, 0⟩
def tb2 (s : State) : State := { s with dies := s.dies.map fun (d : Die) => ({ d with tb := d.tb ++ [⟨1,0x200000,1,5⟩,⟨2,0x10000,0,5⟩], walks := [⟨1,2,0,0x1000⟩,⟨2,2,0,0x1000⟩] } : Die) }
def opI (i : Instr) (acks : List Nat) : PendOp := { id := 8, lanes := 3, pc := 0, instr := i, args := [0x11,0x22], dst := [], acks := acks, deadline := none, issued := 900, seq := 1, sent := true, ready := false }
def gI (i : Instr) (acks : List Nat) : Group := { live8 with pend := [opI i acks], lanes := live8.lanes.zipIdx.map fun p => if p.2 < 2 then { p.1 with park := some (.await 8) } else p.1 }
def gath (acks : List Nat) : Gather := ⟨6,.engine 3 0 0,0,1,.purge,0x31,1,7,40,3,64,0x30800,0x30000,0,0,0,0,1,0,none,0,acks⟩
def withGath (acks : List Nat) : State := ({ d0 with gathers := [gath acks] } : State).modCore 2 fun c => { c with btb := [⟨1,0x31,1,0,5,7⟩,⟨1,0x32,1,0,5,7⟩] }
def retire (acks : List Nat) (g : Option GKey) : Retire := ⟨9,7,g,acks,true⟩
def withRet (acks : List Nat) (g : Option GKey) : State := (cmd (wcp d0 fun c => { c with retires := [retire acks g], keys := [⟨7,true,1,0x31,0,0,[]⟩,⟨8,false,1,0x32,0,0,[]⟩] }) 260 [7]).modCore 2 fun c => { c with btb := [⟨1,0x31,1,0,5,7⟩,⟨1,0x32,1,0,5,8⟩] }
def fwOk : Firmware := ⟨(List.range 3000).map fun n => BitVec.ofNat 8 n⟩
def bs (n : Nat) (s : State) : State := wdev s fun d => { d with bstate := n }
def noG (s : State) : State := wcp { s with groups := [] } fun c => { c with launches := [], nodes := [] }
def bytesOf (n : Nat) (v : Nat) : List Byte := (List.range n).map fun j => BitVec.ofNat 8 (v / 256^j)
def memR (s : State) (a : Nat) (r : BitVec 512) : State := { s with mem := s.mem.store a (bytesOf 64 r.toNat) }
def qset (s : State) (q : Nat) (prio : Nat) (h t : Word) (last : Option NKey := none) : State := s.setQueue { s.queue q with base := 0x30000, cfg := BitVec.ofNat 64 (2^63 + 2^44 + (6<<<55) + (prio<<<59)), head := h, tail := t, last := last }
def withN (ns : List Node) (s : State := d0) : State := { s with cp := { s.cp with nodes := ns } }
def node (num : Nat) (r : BitVec 512) (st : NodeState) (rn : Nat := 3) (q : Nat := 5) (l : Option Nat := none) (succs : List NKey := []) (cnt : Nat := 0) : Node := ⟨⟨1,num⟩, q, 0, r, cnt, succs, st, none, l, rn, 0⟩
def lb (l : List (Nat × Nat)) : Nat := l.foldl (fun n p => n + p.2 * 2^p.1) 0
def rec (l : List (Nat × Nat)) : BitVec 512 := BitVec.ofNat 512 (lb (l.map fun p => (8*p.1, p.2)))
def hd (op num npred : Nat) (ser : Bool) (preds : List Nat) (inc : Nat) : Nat := op + 2^16*num + 2^13*npred + (if ser then 2^11 else 0) + 2^32*inc + lb (preds.zipIdx.map fun p => (64+16*p.2, p.1))
def others : List Node := [node 0x20 (rec [(0,hd 4 0x20 0 false [] 0)]) .ready 9, node 0x21 0 .waiting 0]
def r4 : BitVec 512 := rec [(0, hd 4 0x12 0 false [] 3), (24, 0x10100)]
def n4 (st : NodeState) := node 0x12 r4 st
def r5 (v : Nat) : BitVec 512 := rec [(0, hd 5 0x13 0 false [] 3), (32, 0x10100), (40, v)]
def r2 : BitVec 512 := rec [(0, hd 2 0x14 0 false [] 3), (32, 0x10100), (40, 0x30200), (48, 0x130)]
def r3 (w L : Nat) : BitVec 512 := rec [(0, hd 3 0x15 0 false [] 3), (32, 0x10100), (40, 0x30200), (48, w), (52, if w=0 ∨ w = 3 then 0x55 else 8), (56, L), (60, 0x3F800000)]
def noLa (s : State) : State := { s with groups := [], blocks := [], bands := [], cp := { s.cp with launches := [] }, cores := s.cores.map fun (c : Core) => ({ c with rows := [] } : Core) }
def r1 : BitVec 512 := rec [(0, hd 1 0x16 0 false [] 0), (32, 0x30400), (40, 3), (48, 0xABCDEF), (56, 0x5)]
def n1 (l : Nat) : Node := node 0x16 r1 .ready 3 5 (some l)
def laP (bf : Nat) : Launch := { launch with id := 7, w := 8, band := 1, bfibres := bf, pendingBands := [2,3], nblocks := 4, localLen := 256, clen := 0, regs := 96, entry := 0x20, cru := false, argVa := 0x50000, argLen := 32, trees := [] }
def descL : Nat := 0x20000 + 2^64*0x800 + 2^96*0x40 + 2^128*0x80 + 2^160*(8+256) + 2^192*16 + 2^224*96 + 2^240*64 + 2^256*256 + 2^288*2 + 2^320*0x30500 + 2^384*0x30600 + 2^448*32
def rngs : Nat := (0x100000 + 2^64*0x1234 + 2^192*64 + 2^224*(1+4)) + 2^256*(0x200000 + 2^64*0x1000 + 2^224*3)
def sLn : State := let s := noLa (withN (n1 7 :: others)); { s with mem := ((s.mem.store 0x30400 (bytesOf 64 descL)).store 0x30500 (bytesOf 64 rngs)).store 0x30600 ((List.range 32).map rnd), dev := { s.dev with facc := s.dev.facc.set 0 0x2FF } }
def plan (argVa : Nat) (w : List (Nat × Nat)) : PlacePlan := ⟨⟨1,0x16⟩, [⟨0x40008, 0x400000001⟩, ⟨0x400000000, 0x400001001⟩, ⟨0x400001000, 0x400010007⟩], [], [], argVa, 0x400010000, w, []⟩
def ctx1 : Context := ⟨1, 0x40000, 0, 0, 0, 0, 0, 0x5⟩
def desc1 : LaunchDesc := LaunchDesc.ofBytes (bytesOf 64 descL)
def rg : List RangeEntry := [(rangeOf (bytesOf 32 rngs)).1, (rangeOf (bytesOf 32 (rngs/2^256))).1]
def sBp (bf : Nat) : State := let s := noLa d0; { s with cp := { s.cp with launches := [laP bf] } }
def laS : Launch := { laP 16 with argVa := 0x200000000, state := .saved, saved := [live8], trees := [⟨3,9,4,[],none⟩,⟨17,8,2,[],none⟩] }
def sRs : State := let s := noLa (withN (n1 7 :: others)); { s with cp := { s.cp with launches := [laS] }, mem := (((s.mem.putEntry 0x40008 0x400000001).putEntry 0x400000000 0x400001001).putEntry 0x400001000 0x400010007) }
def laQ (id prio : Nat) (pb : List Nat) : Launch := { launch with id := id, prio := prio, pendingBands := pb }
def sPr : State := let s := sv d0; let s := { s with cp := { s.cp with launches := [laQ 1 2 [], laQ 9 4 [0], laQ 3 3 []] }, dies := s.dies.map fun (d : Die) => ({ d with clock := 500000 } : Die) }; s
def laD (why : DrainFor) (nr : Option Nat) : Launch := { launch with state := .draining, drain := some (why, 100), nonReplay := nr }
def sDr (why : DrainFor) (nr : Option Nat) (f : BitVec 64) (cl : Nat) : State := { d0 with cp := { d0.cp with launches := [laD why nr] }, dies := d0.dies.map (fun (d : Die) => ({ d with clock := cl } : Die)), dev := { d0.dev with facc := d0.dev.facc.set 0 f } }
def laX (st : LaunchState) : Launch := { launch with node := ⟨1,0x16⟩, state := st, replayDue := true, attempt := 1 }
def withHold (s : State) (rs : List Req) : State := s.modCore 0 fun c => { c with hold := rs }
def rq (id seq : Nat) (b : ReqBody) : Req := ⟨id, seq, key, 900, none, none, b⟩
def sRp (st : LaunchState) : State := let s := withN (({ n1 1 with state := .running }) :: others); let s := { s with cp := { s.cp with launches := [laX st] } }; withHold s [rq 3 1 (.store .global [⟨0,0x10003,0,[1,2],none,false,[]⟩])]
def eng (id : Nat) (st : Bool) : Engine := { program .ce [] [0,1] with id := id, started := st }
def sQ (es : List Engine) : State := { withProgram (eng 5 true) with engines := es }
def gSlot (sl : Nat) (id : Nat) : Group := { live8 with slots := live8.slots.zipIdx.map fun p => if p.2 = sl then ⟨0, some id⟩ else p.1 }
def sFin (e : Engine) : State := { sF2 (gSlot 3 5) with engines := [e] }
def eFin (st : Option Nat) (fl : List EngFail) : Engine := { program .ce [] [0,1] with slot := 3, stopped := st, stopPc := 0x124, fails := fl }
def cpy (ow : Owner) (src : Side) (dst : List Side) (len rp wp : Nat) (buf : List Granule) (tok : Option Nat) (tags : Bool := true) : Copy := ⟨77, ow, 1, 0, src, dst, len, tags, tok, 3, 100, rp, buf, wp, 0⟩
def sCp (c : Copy) (g : Group := live8) : State := { sF2 g with copies := [cpy (.group key) (.global 0) [] 0 0 0 [] none |> fun y => { y with id := 5 }, c] }
def bufX (n : Nat) : List Granule := (List.range n).map fun i => ⟨(List.range 16).map fun j => rnd (1000+16*i+j), i % 2 == 0, false⟩
def gCe : Group := { live8 with outst := [⟨.ce,77,false,none⟩,⟨.ce,78,false,none⟩] }
def gMs : Group := { live8 with outst := [⟨.ms,77,false,none⟩,⟨.ms,78,false,none⟩] }
def sMs (m : MscOp) : State := { sF2 gMs with mscs := [m] }
def ms (ow : Owner) (cmd tg sr p0 p1 pos : Nat) : MscOp := { id := 77, owner := ow, ctx := 1, core := 0, cmd := cmd, rel := false, target := tg, source := sr, p0 := BitVec.ofNat 32 p0, p1 := BitVec.ofNat 32 p1, p2 := 0, left := true, pos := pos, buf := [], before := [9] }
def beX : BtbEntry := ⟨1,0x31,1,0,0,7⟩
def slX (refs : List Nat) : KeySlot := ⟨7,false,1,0x31,0x1234567890ABCDEF,0xFEDCBA0987654321,refs⟩
def sGa (g : Gather) : State := wcp (({ sF2 gMs with gathers := [g], engines := [{ eng 5 true with cmds := [77,80] }] } : State).modCore 0 fun c => { c with btb := [beX] }) fun c => { c with keys := [slX [77]] }
def gaX (ow : Owner) (n k : Nat) (acks : List Nat) : Gather := { id := 77, owner := ow, ge := 0, ctx := 1, form := .ld, seq := 0x31, stream := 1, kslot := 7, ntok := 40, nblk := 3, rowb := 64, table := 0x30800, pool := 0x10000, t0 := 2, n := n, k := k, laddr := 0x80, launch := 1, block := 0, token := none, issued := 100, acks := acks }
def opW (f : FmtE) (d : Nat) : PendOp := { id := 8, lanes := 3, pc := 0, instr := .waitt f, args := [0x11,0x22], dst := [], acks := [], deadline := some d, issued := 100, seq := 1, sent := true, ready := false }
def gW2 (f : FmtE) (d : Nat) : Group := { live8 with pend := [opW f d], lanes := live8.lanes.zipIdx.map fun p => if p.2 < 2 then { p.1 with park := some (.await 8) } else p.1 }
def eWt (pd : Nat) : Engine := { eng 5 true with waitt := some ⟨0x10000, 5, some 900, pd, false⟩ }
def leaves (m : Memory) (l : List (Nat × BitVec 64)) : Memory := l.foldl (fun m p => m.putEntry p.1 p.2) m
def lz : LazyRange := ⟨1, 0x1000000, 0x20000, 0, 0, [], false⟩
def sPg : State :=
  let s := d0
  let s := { s with cp := { s.cp with lazy := [lz] }, dies := s.dies.map (fun (d : Die) => ({ d with faults := [(1,0x1010000)], desc := [(1,0x40000)] } : Die)), groups := s.groups.map fun (g : Group) => ({ g with faultPages := [0x1010000, 0x1000000] } : Group) }
  { s with mem := leaves s.mem [(0x40000 + 8 * levelIndex 2 0x1010000, 0x70001), (0x70000 + 8 * levelIndex 1 0x1010000, 0x71001)] }
def pm (lf : BitVec 64) (t : List Nat) : PageMap := ⟨1, 0x1010000, lf, t⟩
def mk : Nat × Memory × List Nat := (makePath 0x1010000 2 0x40000 sPg.mem []).getD (0, sPg.mem, [])
def snE : BitVec 64 := 0x30000 + 0x4F
def lSn : Launch := { launch with ranges := [⟨0x10000, 0x30000, 0, 0, 2, 0, false⟩] }
def cSn : Context := ⟨1, 0x40000, 0, 0, 0x200000, 0x40000, 0, 0x5⟩
def sSn : State := { d0 with dies := d0.dies.map fun d => ({ d with faults := [(1,0x30000)] } : Die), mem := leaves d0.mem [(0x40000,0x42001),(0x42000,0x43001),(0x43000+8*3,snE)], cp := { d0.cp with snapFaults := [(1,0x30000)], launches := [lSn], ctxs := [cSn] } }
def psn := (walk sSn.mem 0x30000 2 0x40000).2
def lnS (a n : Nat) : LaneStore := ⟨0, a, a, (List.range n).map rnd, none,false,[]⟩
def lgE (a n : Nat) : LogEntry := ⟨3, key, 1, a/65536*65536, true, .store .global [lnS a n]⟩
def sLg (a n : Nat) : State := (({ d0 with inflight := [⟨3,key,0,none,1⟩] } : State)).modCore 0 fun c => { c with log := [lgE a n] }
def fb (s : State) : State := wdev s fun d => { d with fdevid := 7, froute := [(9, 0x00020001), (12, 0x00000004), (7,1)], fwinCtl := [(3, 2^63+2^62+(9<<<40)+(1<<<16)), (4, 2^63+2^61+2^60+(0xFFF<<<40)+(1<<<16)), (5, 2^63+(12<<<40)+(1<<<16))], fwinLim := [(3, 3<<<16),(4,3<<<16),(5,3<<<16)] }
def fs : State := let s := fb d0; { s with fabric := { s.fabric with portsUp := 0x0007, nextTag := 65535 } }
def msg (ty dst src tag addr size code ph : Nat) (data : List Byte := []) : Msg := ⟨ty,false,true,src,dst,tag,addr,size,code,ph,data⟩
def gRm : Group := { live8 with remote := [140000, 2*5], lanes := live8.lanes.zipIdx.map fun p => if p.2 < 2 then { p.1 with park := some .held } else p.1 }
def sRm (r : Remote) (cl : Nat) : State := let s := fb (sF2 gRm); { s with fabric := { s.fabric with remote := [⟨5,r.host,0,8,0,.op 1 2⟩, r] }, inflight := [⟨44,key,0,none,1⟩], dies := s.dies.map fun (d : Die) => ({ d with clock := cl } : Die) }
def rem (host : Bool) (f : RemoteFor) : Remote := ⟨70000, host, 9*2^40+0x100, 128, 10, f⟩
def recvD (s : State) : State := wdev s fun d => ({ d with frecvEn := true, frecvSrc := 9 } : DevRegs)
def msgN (ty dst src tag addr size code ph : Nat) (data : List Byte := []) : Msg := ⟨ty,false,false,src,dst,tag,addr,size,code,ph,data⟩
def gots (s : State) (l : List Msg) : State := { s with fabric := { s.fabric with received := l } }
def gPt (am : Bool) (pc : Word) : Group := { live8 with lanes := live8.lanes.map fun y => { y with park := if y.status = .live then some (.barrier (.tree 1 3) am pc none) else none } }
def fdv (root cnt tmo : Nat) : BitVec 64 := BitVec.ofNat 64 (2^63 + root*2^51 + 2^40 + cnt*2^32 + tmo)
def trP (since : Option Nat) : TreeUse := ⟨3, 0, 4, [key], since⟩
def lTr (since : Option Nat) : Launch := { launch with trees := [trP since] }
def sBr (root cnt tmo : Nat) (since : Option Nat) (arr : List (Nat × Nat × Nat)) : State :=
  let s := fb (sF2 (gPt false 8)); let s := wdev s fun d => { d with fbd := [(3, fdv root cnt tmo)] }
  { s with cp := { s.cp with launches := [lTr since] }, fabric := { s.fabric with portsUp := 7, arrives := arr }, dies := s.dies.map fun (d : Die) => ({ d with clock := 100000 } : Die) }
def wck (s : State) (l : List ShadowCkpt) : State := s.modCore 0 fun c => { c with ckpts := l }
def clk (n : Nat) (s : State) : State := { s with dies := s.dies.map fun (d : Die) => ({ d with clock := n } : Die) }
def ckp (cy : Nat) (g : List Group) (rs : Nat := 0) : ShadowCkpt := ⟨cy, rs, g, [], [], [], [], []⟩
def gOld : Group := { live8 with runCount := 2, s := ⟨uniforms [(8,0x99)],[0],[]⟩, lanes := live8.lanes.map fun y => { y with preds := 0x77, pc := y.pc + 4 } }
def stk (r : Region) (cy : Nat) (late : Bool) (po : List Nat) : Strike := ⟨r, cy, late, po, [], [], false, [], .none, 0⟩
def tst (st : Struct) (ix : Nat) (p : Bool) : SelfTest := ⟨st, 1, 5, 2, ix, p, [], []⟩
def er (n : Nat) : ErrRec := ⟨n,19,1,2,3,4,5,6,7,8,9⟩
def sEr : State := { d0 with dies := d0.dies.zipIdx.map fun (p : Die × Nat) => if p.2 = 1 then ({ p.1 with held := [er 9, er 10], eqbase := BitVec.ofNat 64 (1 + 5*2^15), eqhead := 0xFFFFFFF0, eqtail := 3 } : Die) else p.1 }
def r6 : BitVec 512 := rec [(0, hd 6 0x17 0 false [] 3), (32, 0x1009), (34, 5), (35, 1)]
def sEv (e : Eviction) (s : State := d0) : State := wdev s fun d => { d with eviction := some e, fdevid := 7, froute := [(9, 0x00020001), (12, 4)] }
def evn (ph : EvictPhase) (gr : Nat) (fo : Bool) (nd : Option NKey) (ex : Bool) (ps : List Nat) : Eviction := ⟨9, gr, fo, nd, ph, 10, ex, ps⟩
def noL (s : State) : State := { s with cp := { s.cp with launches := [] } }
def noP (s : State) : State := { s with fabric := { s.fabric with portsUp := 0 } }
def laE : Launch := { launch with state := .running }
def sOne (s : State) : State := wcp (sv s) fun c => { c with launches := [laE] }
def word1 : State := { d0 with mem := d0.mem.store 0x10000 ((List.range 4).map fun j => bitsOf (0x01102450 : Word) (8*j) 8) }
def Pz : Pfx := some ⟨0, false, true, 0, 0, false, false, false, false, false⟩
def poisoned (g : Group) : Group :=
  { g with
    lanes := g.lanes.zipIdx.map fun (y, l) => { y with
      predPoison := BitVec.ofNat 16 (0x0002 * l + 0x0008 * (l % 3))
      v := ⟨y.v.regs.map fun (n, r) => (n, { r with poison := (n + l) % 3 == 0 && n < 18 }), y.v.tags, y.v.srcs⟩ }
    s := ⟨g.s.regs.map fun (n, r) => (n, { r with poison := n % 5 == 0 && 7 < n }), g.s.tags, g.s.srcs⟩ }
def gP2 := poisoned mixed
def dP := device gP2
def Pzn : Pfx := some ⟨0, true, true, 0, 0, false, false, false, false, false⟩
def Ps : Pfx := some ⟨0, false, false, 0, 0, false, false, false, false, true⟩
def bigg : Group := let g := mixed
  { g with lanes := g.lanes.zipIdx.map fun (y, l) => { y with
      v := ⟨y.v.regs.map fun (n, r) => (n, if n < 8 then ⟨if (n + l) % 3 = 0 then 0x7FFFFFFF else if (n + l) % 3 = 1 then 0x80000000 else 0x7FFFFF80, false⟩ else r), y.v.tags, y.v.srcs⟩ } }
def dG := device bigg
def gcv (m : LaneMask) (sg : List (Nat × Word)) : Group := { mixed with cvs := mixed.cvs.set 3 ⟨some m, sg, none, false⟩ }
def tr (h : Bool) : Group := { mixed with handler := h, tmask := 0x13, lanes := mixed.lanes.map fun y => { y with tpc := 0x10, trapped := y.status == .live && y.park == none } }
def PS : Pfx := some ⟨15, false, false, 2, 0, false, true, true, false, true⟩
def fl (l n : Nat) : Word := ([0x3F800000,0xBF800000,0x7F800000,0xFF800000,0x7FC00000,0x7F800001,0x00000001,0x80000000,0x00000000,0x007FFFFF,0x7F7FFFFF,0x40490FDB,0x33D6BF95,0x3F7FFFFF,0x80800000,0x4B800001][(l*5+n*3)%16]?).getD 0
def gF (rm : BitVec 5) : Group := { mixed with fpcr := rm, lanes := (mixed.lanes.zipIdx).map fun p => { p.1 with v := ⟨(List.range 20).map fun n => (n, ⟨fl p.2 n, false⟩), [], []⟩ } }
def PT0 : Pfx := some ⟨1, false, true, 0, 0, false, false, false, false, false⟩
def gX : Group := { mixed with lanes := (mixed.lanes.zipIdx).map fun p => { p.1 with v := ⟨(List.range 20).map fun n => (n, ⟨if n = 8 then BitVec.ofNat 32 (p.2*3+1) else if n = 9 then BitVec.ofNat 32 (p.2/2) else if n = 10 then 0 else (laneReg p.2 n).val, false⟩), [], []⟩ } }
def dX := device gX
def tg (t : Bool) : Group := { live8 with lanes := live8.lanes.map fun y => { y with v := { y.v with tags := [5] } } }
def sM := dMem (tg true)
def kid (g : Group) (f : FmtM) (ad : FmtM → Group → Option Nat → Cap × Nat) (u : Option Nat) : Nat := (ad f g u).2
def sL := L1s sM
def sF3 := withHold sL [rq 3 1 (.store .global [⟨0,0x10003,0x10003,[1,2,3,4,5],none,false,[]⟩,⟨1,0x10014,0x10014,[9,8,7],none,false,[]⟩])]
def gL (base : Word) : Group := live8 [(24,base),(25,base+0x100)]
def fs2 (base : Word) (c2 : Bool) : State := withHold (dLoc (gL base) c2) [rq 3 1 (.store .partner [⟨0,0x103,0,[1,2,3,4,5],none,false,[]⟩,⟨1,0x118,0,[9,8,7],none,false,[]⟩]), rq 4 2 (.store .cluster [⟨0,0x3,0,[1,2,3,4,5],none,false,[]⟩])]
def Pq : Pfx := some ⟨1, false, false, 0, 0, false, false, false, false, false⟩
def eM := program .ke [(8,0x20),(9,0)] [0,1]
def sEM : State := { withProgram eM with mem := memD }
def noF (g : Group) : State := { device g with dev := { (device g).dev with facc := [0,0,0,0] } }
def gO2 (c : BitVec 128) (tags : List Nat) : Group :=
  let g := live8 [(0,bitsOf c 0 32),(1,bitsOf c 32 32),(2,bitsOf c 64 32),(3,bitsOf c 96 32)] tags
  { g with lanes := g.lanes.zipIdx.map fun p => { p.1 with v := (p.1.v.put 16 ⟨if p.2 = 1 ∨ p.2 = 3 then 0x10000 else 8, false⟩) } }
def gA (x : Word) : Group := live8 [(24,x)]
def gR : Group := { live8 with lanes := live8.lanes.zipIdx.map fun p => { p.1 with v := (p.1.v.put 16 ⟨BitVec.ofNat 32 (8*(p.2/2)), false⟩) } }
def sR := L1s (dMem gR)
def rS : Req := ⟨3,1,key,700,none,none,.store .global [⟨0,0x10003,0x10003,[1,2,3,4,5],none,false,[]⟩]⟩
def rS2 : Req := ⟨4,2,key,700,none,none,.store .global [⟨1,0x10013,0x10013,[1,2,3,4,5],none,false,[]⟩]⟩
def sS := withHold (dMem live8) [rS, rS2]
def hq (b : ReqBody) : HomeReq := ⟨3, .core 0, key, 5, b, 0⟩
def sH (b : ReqBody) : State := { sR with homes := [hq b, ⟨4,.core 0,key,5,b,0⟩], inflight := [⟨3,key,0,none,2⟩] }
def gAck : Group := { live8 with outst := [⟨.st,3,false,none⟩,⟨.st,4,false,none⟩] }
def sAck (n : Nat) : State := { device gAck with acks := [3,3,4], inflight := [⟨3,key,0,none,n⟩,⟨4,key,0,none,1⟩] }
def opP : PendOp := { id := 3, lanes := 0x3, pc := 0, instr := .fenceAcq ⟨true,1,0⟩, args := [], dst := [], acks := [], deadline := none, issued := 900, seq := 1, sent := true, ready := false }
def gRep (h : Bool) : Group := { live8 with handler := h, pend := [opP], written := (List.range 4).map fun i => ⟨some (i/2), 12 + i % 2, none, false, some 3, none, false⟩, lanes := live8.lanes.zipIdx.map fun p => if p.2 < 2 then { p.1 with park := some (.await 3) } else p.1 }
def rep : ReplyMsg := ⟨3, key, [(some 0, 12, [⟨7,false⟩,⟨8,true⟩], false),(some 1, 12, [⟨9,false⟩,⟨10,false⟩], false)]⟩
def sRep (h : Bool) : State := ({ device (gRep h) with replies := [rep] } : State).modCore 0 fun c => { c with slotsUsed := [3,5] }
def gD : Group := { live8 with draining := true, runCount := 9, fpcrWrite := some 3, msrWrite := none, written := [⟨some 0,3,none,false,none,none,false⟩], lanes := live8.lanes.zipIdx.map fun p => { p.1 with predMask := 0x0F0 , predNew := BitVec.ofNat 16 (p.2*0x37), fpsrWrite := if p.2 = 1 then some 0x11 else none, flags := 0x42 } }
def codeEngine : State := { word1 with engines := [eD], turn := .engine 5 }

/-! ### For every statement with hypotheses, states that meet them, clause by clause -/

/-- States that meet the hypotheses of O3. -/
theorem test_meets_StepRunsTheInstructionInTurn :
    (∃ (s : State) (k : GKey) (g : Group) (pc : Word) (i : Instr) (l : Launch), s.inputs = [] ∧ s.turn = Agent.group k ∧
      s.group? k = some g ∧ s.groupReady g = true ∧ g.minPc = some pc ∧ s.launch? k.launch = some l ∧ BitVec.toNat pc % 4 = 0
      ∧ BitVec.toNat pc + 4 ≤ l.codeLen ∧ (decodeWords (s.codeWord k g.core pc) (if BitVec.toNat pc + 8 ≤ l.codeLen then some
      (s.codeWord k g.core (pc + 4)) else none) = Except.ok i)) :=
  ⟨word1, key, live8, 0, (.add none ⟨false, 8, 9, 10, false, false, false⟩), (laOf word1), and6 (by decide +kernel) (and2
    (by decide +kernel) (decodes_of (by decide +kernel)))⟩

/-- States that meet the hypotheses of O7. -/
theorem test_meets_OneSourceIntegerResults :
    (∀ i ∈ ([.neg Pm ⟨true,0,6,0,true,false⟩, .neg Pm ⟨true,0,6,0,true,true⟩, .not_ Pm ⟨true,0,6,1,true,false⟩, .not_ Pm
      ⟨true,0,6,1,true,true⟩, .abs Pm ⟨true,0,6,2,true,false⟩, .abs Pm ⟨true,0,6,2,true,true⟩, .popc Pm
      ⟨true,0,6,3,true,true⟩, .clz Pm ⟨true,0,6,4,true,true⟩, .ctz Pm ⟨true,0,6,5,true,true⟩, .brev Pm
      ⟨true,0,6,6,true,false⟩, .brev Pm ⟨true,0,6,6,true,true⟩, .bswap Pm ⟨true,0,6,7,true,false⟩, .bswap Pm
      ⟨true,0,6,7,true,true⟩, .mov Pm ⟨true,0,6,12,true,false⟩, .mov Pm ⟨true,0,6,12,true,true⟩, .sext8 Pm
      ⟨true,0,6,8,true,false⟩, .sext16 Pm ⟨true,0,6,9,true,false⟩, .zext8 Pm ⟨true,0,6,10,true,false⟩, .zext16 Pm
      ⟨true,0,6,11,true,false⟩, .sext32 Pm ⟨true,0,6,15,true,true⟩, .zext32 Pm ⟨true,0,6,16,true,true⟩] : List Instr), Issues
      i dM key mixed) ∧
    (∀ i ∈ ([.neg none ⟨true,98,100,0,false,true⟩, .not_ none ⟨true,98,100,1,false,true⟩, .abs none
      ⟨true,98,100,2,false,true⟩, .popc none ⟨true,98,100,3,false,true⟩, .clz none ⟨true,98,100,4,false,true⟩, .ctz none
      ⟨true,98,100,5,false,true⟩, .brev none ⟨true,98,100,6,false,true⟩, .bswap none ⟨true,98,100,7,false,true⟩, .mov none
      ⟨true,98,100,12,false,true⟩, .sext8 none ⟨true,98,100,8,false,false⟩, .sext16 none ⟨true,98,100,9,false,false⟩, .zext8
      none ⟨true,98,100,10,false,false⟩, .zext16 none ⟨true,98,100,11,false,false⟩, .sext32 none ⟨true,98,100,15,false,true⟩,
      .zext32 none ⟨true,98,100,16,false,true⟩] : List Instr), EngineIssues i sE 5 eD) :=
  ⟨issues_all (by decide +kernel),
   engineIssues_all (by decide +kernel)⟩

/-- States that meet the hypotheses of O8. -/
theorem test_meets_ImmediateFieldAndMoveResults :
    (∀ i ∈ ([.bfx Pm ⟨false,0,2,6,false,false,false⟩, .bfi Pm ⟨false,0,2,6,false,false,false⟩, .movc Pm
      ⟨false,0,0,3,true,false,true⟩, .addi Pm ⟨true,0,6,0x1FF,true⟩, .andi Pm ⟨true,0,6,0x1FF,true⟩, .ori Pm
      ⟨true,0,6,0x1FF,true⟩, .xori Pm ⟨true,0,6,0x1FF,true⟩, .li Pm ⟨true,0,0x1FFF0⟩, .lui Pm ⟨true,0,0x1FFF0⟩, .mad none
      ⟨false,4,2,6,false,false,false⟩, .mad none ⟨false,4,2,6,false,false,true⟩] : List Instr), Issues i dM key mixed) ∧
    (∀ i ∈ ([.bfx none ⟨false,98,100,108,false,false,false⟩, .bfi none ⟨false,98,100,108,false,false,false⟩, .movc none
      ⟨false,100,104,105,false,false,true⟩, .addi none ⟨true,98,100,0x1F0,false⟩, .andi none ⟨true,98,100,0x1F0,false⟩, .ori
      none ⟨true,98,100,0x1F0,false⟩, .xori none ⟨true,98,100,0x1F0,false⟩, .li none ⟨true,100,0xFFF0⟩, .lui none
      ⟨true,100,0xFFF0⟩] : List Instr), EngineIssues i sE 5 eD) ∧
    (∃ (p : Pfx) (f : FmtRI) (s : State) (k : GKey) (g : Group), (¬bitOf f.imm 8 = true) ∧ Issues (Instr.shi p f) s k g) ∧
    (∃ (p : Pfx) (f : FmtRI) (s : State) (k : GKey) (g : Group), bitOf f.imm 8 = true ∧ Issues (Instr.shi p f) s k g) :=
  ⟨issues_all (by decide +kernel),
   engineIssues_all (by decide +kernel),
   ⟨Pm, ⟨true,0,6,0x005,true⟩, dM, key, mixed, by decide +kernel, issues_of (by decide +kernel)⟩,
   ⟨Pm, ⟨true,0,6,0x145,true⟩, dM, key, mixed, by decide +kernel, issues_of (by decide +kernel)⟩⟩

/-- States that meet the hypotheses of O9. -/
theorem test_meets_TwoSourceAndShiftResults :
    (∀ i ∈ ([.add Ps ⟨true,0,2,6,true,true,false⟩, .sub Ps ⟨true,0,2,6,true,true,false⟩, .neg Ps ⟨true,0,2,0,true,false⟩, .abs
      Ps ⟨true,0,2,2,true,false⟩, .addi Ps ⟨true,0,2,255,true⟩] : List Instr), Issues i dG key bigg) ∧
    (∀ i ∈ ([.shl Pm ⟨false,0,2,16,false,true,false⟩, .shl Pm ⟨false,0,2,18,false,false,true⟩, .shr Pm
      ⟨false,0,2,18,false,false,true⟩, .rot Pm ⟨false,0,2,16,false,true,false⟩, .rot Pm ⟨false,0,2,18,false,false,true⟩, .add
      Pm ⟨true,0,2,6,true,false,false⟩, .add Pm ⟨true,0,2,6,true,false,true⟩, .sub Pm ⟨true,0,2,6,true,false,false⟩, .sub Pm
      ⟨true,0,2,6,true,false,true⟩, .mul Pm ⟨true,0,2,6,true,false,false⟩, .mul Pm ⟨true,0,2,6,true,false,true⟩, .mulh Pm
      ⟨true,0,2,6,true,false,true⟩, .and_ Pm ⟨true,0,2,6,true,false,false⟩, .and_ Pm ⟨true,0,2,6,true,false,true⟩, .or_ Pm
      ⟨true,0,2,6,true,false,false⟩, .or_ Pm ⟨true,0,2,6,true,false,true⟩, .xor_ Pm ⟨true,0,2,6,true,false,false⟩, .xor_ Pm
      ⟨true,0,2,6,true,false,true⟩, .andn Pm ⟨true,0,2,6,true,false,false⟩, .andn Pm ⟨true,0,2,6,true,false,true⟩, .min Pm
      ⟨true,0,2,6,true,false,true⟩, .max Pm ⟨true,0,2,6,true,false,true⟩] : List Instr), Issues i dM key mixed) ∧
    (∀ i ∈ ([.shl none ⟨false,98,100,108,false,false,true⟩, .shr none ⟨false,98,100,108,false,false,false⟩, .rot none
      ⟨false,98,100,108,false,false,true⟩, .add none ⟨false,98,100,102,false,false,true⟩, .sub none
      ⟨false,98,100,102,false,false,true⟩, .mul none ⟨false,98,100,102,false,false,true⟩, .mulh none
      ⟨false,98,100,102,false,false,true⟩, .and_ none ⟨false,98,100,102,false,false,true⟩, .or_ none
      ⟨false,98,100,102,false,false,true⟩, .xor_ none ⟨false,98,100,102,false,false,true⟩, .andn none
      ⟨false,98,100,102,false,false,true⟩, .min none ⟨false,98,100,102,false,false,true⟩, .max none
      ⟨false,98,100,102,false,false,true⟩] : List Instr), EngineIssues i sE 5 eD) ∧
    (∃ (i : Instr) (s : State) (k : GKey) (g : Group), isPlainWord i = true ∧ Issues i s k g) :=
  ⟨issues_all (by decide +kernel),
   issues_all (by decide +kernel),
   engineIssues_all (by decide +kernel),
   ⟨(.lui none ⟨true,0,16⟩), dM, key, mixed, by decide +kernel, issues_of (by decide +kernel)⟩⟩

/-- States that meet the hypotheses of O10. -/
theorem test_meets_RegisterWordsLeaveTheRest :
    (∀ i ∈ ([.movc Pz ⟨true,0,3,6,true,true,false⟩, .pset ⟨true,9,0,2,2,0⟩, .pput Pz ⟨true,0,2,14,true,false⟩, .pget Pz
      ⟨true,3,0,13,false,false⟩] : List Instr), Issues i dP key gP2) ∧
    (∃ (i : Instr) (s : State) (k : GKey) (g : Group) (l : Nat), (isResultWord i = true ∨ isLaneWord i = true) ∧ Issues i s k
      g ∧ MaskedOff i g true l) ∧
    (∃ (i : Instr) (s : State) (k : GKey) (g : Group) (l : Nat), isCompareWord i = true ∧ Issues i s k g ∧ MaskedOff i g false
      l ∧ (predicateOf i).fst < 15) ∧
    (∃ (p : Pfx) (f : FmtRM) (s : State) (k : GKey) (g : Group) (l : Nat), Issues (Instr.pput p f) s k g ∧ MaskedOff
      (Instr.pput p f) g false l) ∧
    (∃ (i : Instr) (s : State) (k : GKey) (g : Group), isResultWord i = true ∧ (∀ (p : Pfx) (f : FmtRRR), i ≠ Instr.movc p f)
      ∧ Issues i s k g) ∧
    (∃ (i : Instr) (s : State) (k : GKey) (g : Group), isCompareWord i = true ∧ Issues i s k g) ∧
    (∃ (i : Instr) (s : State) (k : GKey) (g : Group), isResultWord i = true ∧ Issues i s k g) ∧
    (∃ (i : Instr) (s : State) (k : GKey) (g : Group), isCompareWord i = true ∧ Issues i s k g) :=
  ⟨issues_all (by decide +kernel),
   ⟨(.lui Pzn ⟨true,0,16⟩), dP, key, gP2, 7, by decide +kernel, issues_of (by decide +kernel), maskedOff_of
     (by decide +kernel)⟩,
   ⟨(.fcmp Pzn ⟨true,3,1,2,6,2⟩), dP, key, gP2, 1, by decide +kernel, issues_of (by decide +kernel), maskedOff_of
     (by decide +kernel), by decide +kernel⟩,
   ⟨Pzn, ⟨true,0,2,14,true,false⟩, dP, key, gP2, 1, issues_of (by decide +kernel), maskedOff_of (by decide +kernel)⟩,
   ⟨(.lui Pz ⟨true,0,16⟩), dP, key, gP2, by decide +kernel, (fun _ _ h => by cases h), issues_of (by decide +kernel)⟩,
   ⟨(.fcmp Pz ⟨true,3,1,2,6,2⟩), dP, key, gP2, by decide +kernel, issues_of (by decide +kernel)⟩,
   ⟨(.lui none ⟨true,0,16⟩), dM, key, mixed, by decide +kernel, issues_of (by decide +kernel)⟩,
   ⟨(.fcmp none ⟨true,3,1,2,6,2⟩), dM, key, mixed, by decide +kernel, issues_of (by decide +kernel)⟩⟩

/-- States that meet the hypotheses of O11. -/
theorem test_meets_ComparesAndPredicateWords :
    (∀ i ∈ ([.cmpI32 Pm ⟨true,2,0,2,18,1⟩, .cmpUi32 Pm ⟨true,2,0,2,18,0⟩, .cmpI64 Pm ⟨true,2,0,2,6,2⟩, .cmpUi64 Pm
      ⟨true,2,0,2,6,1⟩, .cmpi Pm ⟨true,3,2,16,0,3⟩, .pset ⟨true,3,0,2,5,0⟩, .pput Pm ⟨true,0,3,14,true,false⟩, .pget Pm
      ⟨true,3,0,13,false,false⟩] : List Instr), Issues i dM key mixed) ∧
    (∀ i ∈ ([.cmpI32 none ⟨true,3,1,100,102,2⟩, .cmpUi32 none ⟨true,3,1,100,102,2⟩, .cmpI64 none ⟨true,3,1,100,102,2⟩,
      .cmpUi64 none ⟨true,3,1,100,102,2⟩, .cmpi none ⟨true,3,1,100,2,2⟩, .pset ⟨true,3,1,2,5,1⟩, .pput none
      ⟨true,0,103,14,false,false⟩] : List Instr), EngineIssues i sE 5 eD) :=
  ⟨issues_all (by decide +kernel),
   engineIssues_all (by decide +kernel)⟩

/-- States that meet the hypotheses of O12. -/
theorem test_meets_CapabilityWords :
    (∀ i ∈ ([.capMov Pm ⟨true,8,4,0,false,false⟩, .capClrtag Pm ⟨true,8,4,9,false,false⟩, .capGetaddr Pm
      ⟨true,8,4,1,false,false⟩, .capGetbase Pm ⟨true,8,4,2,false,false⟩, .capGetlen Pm ⟨true,8,4,3,false,false⟩, .capGetrights
      Pm ⟨true,8,4,4,false,false⟩, .capGettag Pm ⟨true,8,4,5,false,false⟩, .capRestrict Pm ⟨true,8,4,6,false,false⟩,
      .capSetaddr Pm ⟨true,8,4,7,false,false⟩, .capIncaddr Pm ⟨true,8,4,8,false,false⟩, .cbnd Pm
      ⟨true,4,96,108,false,false,true⟩] : List Instr), Issues i dM key mixed) :=
  issues_all (by decide +kernel)

/-- States that meet the hypotheses of O13. -/
theorem test_meets_SpecialRegisters :
    (∀ f ∈ ([⟨true,0,0,0,false,false⟩, ⟨true,0,0,1,false,false⟩, ⟨true,0,0,2,false,false⟩, ⟨true,0,0,3,false,false⟩,
      ⟨true,0,0,4,false,false⟩, ⟨true,0,0,5,false,false⟩, ⟨true,0,0,6,false,false⟩, ⟨true,0,0,7,false,false⟩,
      ⟨true,0,0,8,false,false⟩, ⟨true,0,0,9,false,false⟩, ⟨true,0,0,10,false,false⟩, ⟨true,0,0,11,false,false⟩,
      ⟨true,0,0,12,false,false⟩, ⟨true,0,0,13,false,false⟩, ⟨true,0,0,14,false,false⟩, ⟨true,0,0,15,false,false⟩,
      ⟨true,0,0,16,false,false⟩, ⟨true,0,0,17,false,false⟩, ⟨true,0,0,18,false,false⟩, ⟨true,0,0,19,false,false⟩,
      ⟨true,0,0,20,false,false⟩, ⟨true,0,0,21,false,false⟩, ⟨true,0,0,22,false,false⟩, ⟨true,0,0,23,false,false⟩,
      ⟨true,0,0,24,false,false⟩] : List FmtRM), (f.x = false ∧ Issues (.movs f) dM key mixed) ∧ (dM).launch? key.launch = some
      (launch) ∧ (mixed).redo = []) ∧
    (∃ (f : FmtRM) (s : State) (k : GKey) (g : Group), f.x = true ∧ f.m = 14 ∧ Issues (Instr.movs f) s k g) ∧
    (∃ (f : FmtRM) (s : State) (k : GKey) (g : Group), f.x = true ∧ f.m = 15 ∧ Issues (Instr.movs f) s k g ∧ BitVec.toNat
      (g.word none f.a.toNat) % 8 < 6) ∧
    (∃ (f : FmtRM) (s : State) (k : GKey) (g : Group) (l : Launch), f.x = true ∧ f.m = 15 ∧ Issues (Instr.movs f) s k g ∧ 6 ≤
      BitVec.toNat (g.word none f.a.toNat) % 8 ∧ (∀ (u : Option Nat), u ∈ (g.issue (Instr.movs f)).units → Option.map (fun (x
      : Reg) => x.poison) (g.reg? u f.a.toNat) = some false) ∧ g.amber = AmberState.idle ∧ s.launch? k.launch = some l ∧
      l.trapv < l.codeLen ∧ g.handler = false) ∧
    (∃ (f : FmtRM) (s : State) (k : GKey) (g : Group), f.x = true ∧ f.m = 20 ∧ Issues (Instr.movs f) s k g) :=
  ⟨fun f h => ⟨⟨(by decide +kernel : ∀ f ∈ ([⟨true,0,0,0,false,false⟩, ⟨true,0,0,1,false,false⟩, ⟨true,0,0,2,false,false⟩,
    ⟨true,0,0,3,false,false⟩, ⟨true,0,0,4,false,false⟩, ⟨true,0,0,5,false,false⟩, ⟨true,0,0,6,false,false⟩,
    ⟨true,0,0,7,false,false⟩, ⟨true,0,0,8,false,false⟩, ⟨true,0,0,9,false,false⟩, ⟨true,0,0,10,false,false⟩,
    ⟨true,0,0,11,false,false⟩, ⟨true,0,0,12,false,false⟩, ⟨true,0,0,13,false,false⟩, ⟨true,0,0,14,false,false⟩,
    ⟨true,0,0,15,false,false⟩, ⟨true,0,0,16,false,false⟩, ⟨true,0,0,17,false,false⟩, ⟨true,0,0,18,false,false⟩,
    ⟨true,0,0,19,false,false⟩, ⟨true,0,0,20,false,false⟩, ⟨true,0,0,21,false,false⟩, ⟨true,0,0,22,false,false⟩,
    ⟨true,0,0,23,false,false⟩, ⟨true,0,0,24,false,false⟩] : List FmtRM), f.x = false) f h, issues_of ((by decide +kernel : ∀ f
    ∈ ([⟨true,0,0,0,false,false⟩, ⟨true,0,0,1,false,false⟩, ⟨true,0,0,2,false,false⟩, ⟨true,0,0,3,false,false⟩,
    ⟨true,0,0,4,false,false⟩, ⟨true,0,0,5,false,false⟩, ⟨true,0,0,6,false,false⟩, ⟨true,0,0,7,false,false⟩,
    ⟨true,0,0,8,false,false⟩, ⟨true,0,0,9,false,false⟩, ⟨true,0,0,10,false,false⟩, ⟨true,0,0,11,false,false⟩,
    ⟨true,0,0,12,false,false⟩, ⟨true,0,0,13,false,false⟩, ⟨true,0,0,14,false,false⟩, ⟨true,0,0,15,false,false⟩,
    ⟨true,0,0,16,false,false⟩, ⟨true,0,0,17,false,false⟩, ⟨true,0,0,18,false,false⟩, ⟨true,0,0,19,false,false⟩,
    ⟨true,0,0,20,false,false⟩, ⟨true,0,0,21,false,false⟩, ⟨true,0,0,22,false,false⟩, ⟨true,0,0,23,false,false⟩,
    ⟨true,0,0,24,false,false⟩] : List FmtRM), issuesB (.movs f) dM key mixed = true) f h)⟩, by decide +kernel,
    by decide +kernel⟩,
   ⟨⟨true,0,16,0x0E,false,true⟩, dM, key, mixed, and2 (by decide +kernel) (issues_of (by decide +kernel))⟩,
   ⟨⟨true,0,105,0x0F,false,true⟩, dM, key, mixed, and2 (by decide +kernel) ⟨issues_of (by decide +kernel),
     by decide +kernel⟩⟩,
   ⟨⟨true,0,110,0x0F,false,true⟩, dM, key, mixed, launch, and2 (by decide +kernel) ⟨issues_of (by decide +kernel),
     by decide +kernel⟩⟩,
   ⟨⟨true,0,110,0x14,false,true⟩, dM, key, mixed, and2 (by decide +kernel) (issues_of (by decide +kernel))⟩⟩

/-- States that meet the hypotheses of O14. -/
theorem test_meets_TransfersOfControl :
    (∀ i ∈ ([.call ⟨true,3,100⟩, .nop ⟨true,0,0⟩] : List Instr), Issues i dM key mixed) ∧
    (∀ i ∈ ([.nop ⟨true,0,0⟩] : List Instr), EngineIssues i sE 5 eD) ∧
    (∃ (f : FmtBR) (s : State) (k : GKey) (g : Group), Issues (Instr.bra f) s k g ∧ GuardClean (g.issue (Instr.bra f)) g
      f.p.toNat) ∧
    (∃ (f : FmtBR) (s : State) (id : Nat) (e : Engine), EngineIssues (Instr.bra f) s id e ∧ e.predPoison.getLsbD f.p.toNat =
      false) ∧
    (∃ (f : FmtRI) (s : State) (k : GKey) (g : Group), Issues (Instr.jr f) s k g ∧ (∀ (u : Option Nat), u ∈ (g.issue (Instr.jr
      f)).units → Option.map (fun (x : Reg) => x.poison) (g.reg? u f.a.toNat) = some false)) :=
  ⟨issues_all (by decide +kernel),
   engineIssues_all (by decide +kernel),
   ⟨⟨true,2,true,5⟩, dM, key, mixed, issues_of (by decide +kernel), by delta GuardClean; decide +kernel⟩,
   ⟨⟨true,2,true,5⟩, sE, 5, eD, engineIssues_of (by decide +kernel), by decide +kernel⟩,
   ⟨⟨true,0,17,4,true⟩, dM, key, mixed, issues_of (by decide +kernel), by decide +kernel⟩⟩

/-- States that meet the hypotheses of O15. -/
theorem test_meets_FibresStartYieldAndEnd :
    (∀ i ∈ ([.win ⟨true,0,0x81⟩] : List Instr), Issues i dM key mixed) ∧
    (∀ i ∈ ([.endF ⟨true,0,0⟩] : List Instr), EngineIssues i sE 5 eD) ∧
    (∃ (f : FmtF) (s : State) (k : GKey) (g : Group), Issues (Instr.endF f) s k g ∧ Quiet s ∧ (∃ (l : Nat), l ∈ g.liveLanes ∧
      ¬l ∈ (g.issue (Instr.endF f)).issuing)) ∧
    (∃ (f : FmtF) (s : State) (k : GKey) (g : Group), Issues (Instr.endF f) s k g ∧ Quiet s ∧ (∀ (l : Nat), l ∈ g.liveLanes →
      l ∈ (g.issue (Instr.endF f)).issuing) ∧ g.fails = [] ∧ g.fabFails = []) ∧
    (∃ (f : FmtF) (s : State) (k : GKey) (g : Group), Issues (Instr.yield f) s k g ∧ (∀ (l : Nat) (y : Lane) (m : LaneMask),
      g.lane? l = some y → y.park ≠ some (Park.yield m))) ∧
    (∃ (f : FmtBR) (s : State) (k : GKey) (g : Group), Issues (Instr.fork f) s k g ∧ GuardClean (g.issue (Instr.fork f)) g
      f.p.toNat) :=
  ⟨issues_all (by decide +kernel),
   engineIssues_all (by decide +kernel),
   ⟨⟨true,0,0⟩, dM, key, mixed, issues_of (by decide +kernel), by delta Quiet; decide +kernel, by decide +kernel⟩,
   ⟨⟨true,0,0⟩, (device plain), key, plain, issues_of (by decide +kernel), by delta Quiet; decide +kernel, by decide +kernel⟩,
   ⟨⟨true,0,0⟩, dM, key, mixed, issues_of (by decide +kernel), unparked_of (by decide +kernel)⟩,
   ⟨⟨true,1,false,5⟩, dM, key, mixed, issues_of (by decide +kernel), by delta GuardClean; decide +kernel⟩⟩

/-- States that meet the hypotheses of O16. -/
theorem test_meets_ConvergenceWords :
    (∃ (f : FmtRM) (s : State) (k : GKey) (g : Group), Issues (Instr.cvdeclLive f) s k g ∧ (g.cv (f.m.toNat % 8)).signed = []) ∧
    (∃ (f : FmtRM) (s : State) (k : GKey) (g : Group), Issues (Instr.cvdeclSet f) s k g ∧ (g.cv (f.m.toNat % 8)).signed = []) ∧
    (∃ (f : FmtRM) (s : State) (k : GKey) (g : Group) (m : LaneMask), Issues (Instr.cvsign f) s k g ∧ Quiet s ∧ f.m.toNat % 8
      < g.cvs.length ∧ (g.cv (f.m.toNat % 8)).declared = some m ∧ (∀ (l : Nat), l ∈ (g.issue (Instr.cvsign f)).issuing →
      BitVec.getLsbD m l = true)) ∧
    (∃ (f : FmtMX) (s : State) (k : GKey) (g : Group) (m : LaneMask), Issues (Instr.mma f) s k g ∧ Quiet s ∧ (g.cv
      f.cv.toNat).declared = some m ∧ (∀ (l : Nat), l ∈ (g.issue (Instr.mma f)).issuing → BitVec.getLsbD m l = true)) ∧
    (∃ (f : FmtMX) (s : State) (k : GKey) (g : Group) (m : LaneMask), Issues (Instr.mmaS f) s k g ∧ Quiet s ∧ (g.cv
      f.cv.toNat).declared = some m ∧ (∀ (l : Nat), l ∈ (g.issue (Instr.mmaS f)).issuing → BitVec.getLsbD m l = true)) ∧
    (∃ (f : FmtMX) (s : State) (k : GKey) (g : Group) (m : LaneMask), Issues (Instr.mmaD f) s k g ∧ Quiet s ∧ (g.cv
      f.cv.toNat).declared = some m ∧ (∀ (l : Nat), l ∈ (g.issue (Instr.mmaD f)).issuing → BitVec.getLsbD m l = true)) ∧
    (∃ (f : FmtMX) (s : State) (k : GKey) (g : Group) (m : LaneMask), Issues (Instr.mscl f) s k g ∧ Quiet s ∧ (g.cv
      f.cv.toNat).declared = some m ∧ (∀ (l : Nat), l ∈ (g.issue (Instr.mscl f)).issuing → BitVec.getLsbD m l = true)) :=
  ⟨⟨⟨true,0,0,3,false,false⟩, dM, key, mixed, issues_of (by decide +kernel), by decide +kernel⟩,
   ⟨⟨true,0,0,3,false,true⟩, dM, key, mixed, issues_of (by decide +kernel), by decide +kernel⟩,
   ⟨⟨true,0,0,3,false,false⟩, (device (gcv 0xFF [])), key, (gcv 0xFF []), 0xFF, issues_of (by decide +kernel),
     by delta Quiet; decide +kernel, by decide +kernel⟩,
   ⟨⟨false,0,8,2,0,false,true,0⟩, (sMx (gMx false none 0xFF []) 1 (some (tile 0 4 4 false)) none []), key, (gMx false none
     0xFF []), 0xFF, issues_of (by decide +kernel), by delta Quiet; decide +kernel, by decide +kernel⟩,
   ⟨⟨false,0,8,2,0,false,true,0⟩, (sMx (gMx false none 0xFF []) 1 (some (tile 0 4 4 false)) none []), key, (gMx false none
     0xFF []), 0xFF, issues_of (by decide +kernel), by delta Quiet; decide +kernel, by decide +kernel⟩,
   ⟨⟨false,0,8,2,0,false,true,0⟩, (sMx (gMx false none 0xFF []) 1 (some (tile 0 4 4 false)) none []), key, (gMx false none
     0xFF []), 0xFF, issues_of (by decide +kernel), by delta Quiet; decide +kernel, by decide +kernel⟩,
   ⟨⟨false,0,8,2,0,false,true,0⟩, (sMx (gMx false none 0xFF []) 1 (some (tile 0 4 4 false)) none []), key, (gMx false none
     0xFF []), 0xFF, issues_of (by decide +kernel), by delta Quiet; decide +kernel, by decide +kernel⟩⟩

/-- States that meet the hypotheses of O17. -/
theorem test_meets_RttReturnsFromTheHandler :
    (∃ (f : FmtRM) (s : State) (k : GKey) (g : Group), Issues (Instr.rtt f) s k g ∧ g.handler = true) ∧
    (∃ (f : FmtRM) (s : State) (k : GKey) (g : Group), Issues (Instr.rttSkip f) s k g ∧ g.handler = true) ∧
    (∃ (i : Instr) (s : State) (k : GKey) (g : Group) (l : Launch) (f : FmtRM), (i = Instr.rtt f ∨ i = Instr.rttSkip f) ∧
      Issues i s k g ∧ g.handler = false ∧ g.amber = AmberState.idle ∧ s.launch? k.launch = some l ∧ l.trapv < l.codeLen) :=
  ⟨⟨⟨true,0,0,0,false,false⟩, (device (tr true)), key, (tr true), issues_of (by decide +kernel), by decide +kernel⟩,
   ⟨⟨true,0,0,0,false,true⟩, (device (tr true)), key, (tr true), issues_of (by decide +kernel), by decide +kernel⟩,
   ⟨(.rtt ⟨true,0,0,0,false,false⟩), (device (tr false)), key, (tr false), launch, ⟨true,0,0,0,false,false⟩,
     by decide +kernel, issues_of (by decide +kernel), by decide +kernel⟩⟩

/-- States that meet the hypotheses of O18. -/
theorem test_meets_TrapAndServiceCalls :
    (∃ (f : FmtRL) (s : State) (k : GKey) (g : Group), Issues (Instr.svc f) s k g ∧ Forward s g) ∧
    (∃ (f : FmtRL) (s : State) (k : GKey) (g : Group) (l : Launch), Issues (Instr.trap f) s k g ∧ s.launch? k.launch = some l
      ∧ l.trapv < l.codeLen ∧ g.handler = false) ∧
    (∃ (f : FmtRL) (s : State) (k : GKey) (g : Group) (l : Launch), Issues (Instr.trap f) s k g ∧ s.launch? k.launch = some l
      ∧ (l.codeLen ≤ l.trapv ∨ g.handler = true)) :=
  ⟨⟨⟨true,100,0⟩, dM, key, mixed, issues_of (by decide +kernel), by delta Forward; decide +kernel⟩,
   ⟨⟨true,0,0x1FF⟩, dM, key, mixed, launch, issues_of (by decide +kernel), by decide +kernel⟩,
   ⟨⟨true,0,0x1FF⟩, (device (tr true)), key, (tr true), launch, issues_of (by decide +kernel), by decide +kernel⟩⟩

/-- States that meet the hypotheses of O20. -/
theorem test_meets_FloatSumAndProductResults :
    (∀ i ∈ ([.fadd PS ⟨true,12,2,6,false,false,false⟩, .fsub PS ⟨true,12,2,6,false,false,false⟩, .fmul PS
      ⟨true,12,2,6,false,false,false⟩, .ffma PS ⟨true,12,2,6,false,false,false⟩, .hadd2 PS ⟨true,12,2,6,false,false,true⟩,
      .hmul2 PS ⟨true,12,2,6,false,false,true⟩, .hfma2 PS ⟨true,12,2,6,false,false,true⟩, .dot2 PS
      ⟨true,12,2,6,false,false,true⟩] : List Instr), Issues i (device (gF 0)) key (gF 0)) :=
  issues_all (by decide +kernel)

/-- States that meet the hypotheses of O21. -/
theorem test_meets_FloatSelectSignAndFunctionResults :
    (∀ i ∈ ([.fsqrt none ⟨true,12,2,2,false,false⟩, .frcp none ⟨true,12,2,4,false,false⟩, .frint none
      ⟨true,12,2,3,false,false⟩, .sfuRcp none ⟨true,12,2,0,false,false⟩, .sfuRsqrt none ⟨true,12,2,1,false,false⟩, .sfuExp2
      none ⟨true,12,2,2,false,false⟩, .sfuLog2 none ⟨true,12,2,3,false,false⟩, .sfuSin none ⟨true,12,2,4,false,false⟩, .sfuCos
      none ⟨true,12,2,5,false,false⟩, .sfuTanh none ⟨true,12,2,6,false,false⟩, .fmin PT0 ⟨true,12,2,6,false,false,false⟩,
      .fmax PT0 ⟨true,12,2,6,false,false,true⟩, .fminNan PT0 ⟨true,12,2,0,false,false⟩, .fmaxNan PT0
      ⟨true,12,2,1,false,false⟩, .fminmag PT0 ⟨true,12,2,2,false,false⟩, .fmaxmag PT0 ⟨true,12,2,3,false,false⟩, .fabs PT0
      ⟨true,12,2,0,false,false⟩, .fneg PT0 ⟨true,12,2,1,false,false⟩, .fsat PT0 ⟨true,12,2,5,false,false⟩, .fclass none
      ⟨true,12,2,0,false,false⟩] : List Instr), Issues i (device (gF 0)) key (gF 0)) :=
  issues_all (by decide +kernel)

/-- States that meet the hypotheses of O22. -/
theorem test_meets_ConvertCompareAndDraw :
    (∀ i ∈ ([.fcvt none ⟨true,12,2,2,false,false⟩] : List Instr), Issues i (device (gF 0)) key (gF 0)) ∧
    (∀ i ∈ ([.fcmp none ⟨true,1,0,2,7,0⟩] : List Instr), Issues i (device (gF 3)) key (gF 3)) ∧
    (∃ (p : Pfx) (f : FmtRM) (s : State) (k : GKey) (g : Group) (l : Launch), Issues (Instr.rand p f) s k g ∧ s.launch?
      k.launch = some l) :=
  ⟨issues_all (by decide +kernel),
   issues_all (by decide +kernel),
   ⟨Pm, ⟨true,12,0,0,false,false⟩, (device (gF 3)), key, (gF 3), launch, issues_of (by decide +kernel), by decide +kernel⟩⟩

/-- States that meet the hypotheses of O23. -/
theorem test_meets_LaneMovesAndDerivatives_1 :
    (∃ (p : Pfx) (f : FmtRRR) (s : State) (k : GKey) (g : Group), Issues (Instr.shflIdx p f) s k g ∧ SourceFresh g f.a) ∧
    (∃ (p : Pfx) (f : FmtRI) (s : State) (k : GKey) (g : Group), Issues (Instr.shflRel p f) s k g ∧ SourceFresh g f.a) ∧
    (∃ (p : Pfx) (f : FmtRM) (s : State) (k : GKey) (g : Group), Issues (Instr.qswpH p f) s k g ∧ SourceFresh g f.a) ∧
    (∃ (p : Pfx) (f : FmtRM) (s : State) (k : GKey) (g : Group), Issues (Instr.qswpV p f) s k g ∧ SourceFresh g f.a) ∧
    (∃ (p : Pfx) (f : FmtRM) (s : State) (k : GKey) (g : Group), Issues (Instr.qswpD p f) s k g ∧ SourceFresh g f.a) ∧
    (∃ (p : Pfx) (f : FmtRM) (s : State) (k : GKey) (g : Group), Issues (Instr.qbc p f) s k g ∧ SourceFresh g f.a) ∧
    (∃ (p : Pfx) (f : FmtRI) (s : State) (k : GKey) (g : Group), f.imm ≠ 511 ∧ Issues (Instr.bcast p f) s k g ∧ SourceFresh g
      f.a) ∧
    (∃ (p : Pfx) (f : FmtRI) (s : State) (k : GKey) (g : Group) (j : Nat), f.imm = 511 ∧ Issues (Instr.bcast p f) s k g ∧
      SourceFresh g f.a ∧ (g.issue (Instr.bcast p f)).active.head? = some j) :=
  ⟨⟨Pm, ⟨true,12,2,8,false,false,true⟩, dX, key, gX, issues_of (by decide +kernel), (fun _ => runWrites_nil
    (by decide +kernel) _ _)⟩,
   ⟨Pm, ⟨true,12,2,3,false⟩, dX, key, gX, issues_of (by decide +kernel), (fun _ => runWrites_nil (by decide +kernel) _ _)⟩,
   ⟨Pm, ⟨true,12,2,0,false,false⟩, dX, key, gX, issues_of (by decide +kernel), (fun _ => runWrites_nil (by decide +kernel) _
     _)⟩,
   ⟨Pm, ⟨true,12,2,1,false,false⟩, dX, key, gX, issues_of (by decide +kernel), (fun _ => runWrites_nil (by decide +kernel) _
     _)⟩,
   ⟨Pm, ⟨true,12,2,2,false,false⟩, dX, key, gX, issues_of (by decide +kernel), (fun _ => runWrites_nil (by decide +kernel) _
     _)⟩,
   ⟨Pm, ⟨true,12,2,4,false,false⟩, dX, key, gX, issues_of (by decide +kernel), (fun _ => runWrites_nil (by decide +kernel) _
     _)⟩,
   ⟨none, ⟨true,12,2,0,false⟩, dX, key, gX, by decide +kernel, issues_of (by decide +kernel), (fun _ => runWrites_nil
     (by decide +kernel) _ _)⟩,
   ⟨none, ⟨true,12,2,0x1FF,false⟩, dX, key, gX, 0, by decide +kernel, issues_of (by decide +kernel), (fun _ => runWrites_nil
     (by decide +kernel) _ _), by decide +kernel⟩⟩

/-- States that meet the hypotheses of O23. -/
theorem test_meets_LaneMovesAndDerivatives_2 :
    (∃ (p : Pfx) (f : FmtRM) (s : State) (k : GKey) (g : Group), Issues (Instr.qddx p f) s k g ∧ SourceFresh g f.a) ∧
    (∃ (p : Pfx) (f : FmtRM) (s : State) (k : GKey) (g : Group), Issues (Instr.qddy p f) s k g ∧ SourceFresh g f.a) :=
  ⟨⟨Pm, ⟨true,12,2,8,false,false⟩, dX, key, gX, issues_of (by decide +kernel), (fun _ => runWrites_nil (by decide +kernel) _
    _)⟩,
   ⟨Pm, ⟨true,12,2,9,false,false⟩, dX, key, gX, issues_of (by decide +kernel), (fun _ => runWrites_nil (by decide +kernel) _
     _)⟩⟩

/-- States that meet the hypotheses of O24. -/
theorem test_meets_VotesAndMatches :
    (∀ i ∈ ([.voteSome Pm ⟨true,12,1,0,false,true⟩, .voteEvery Pm ⟨true,12,1,1,false,true⟩, .voteAgree Pm
      ⟨true,12,1,2,false,true⟩, .voteCount Pm ⟨true,12,1,4,false,true⟩, .voteFirst Pm ⟨true,12,1,5,false,true⟩, .voteLast Pm
      ⟨true,12,1,6,false,true⟩, .voteMask Pm ⟨true,12,1,3,false,true⟩, .matchF Pm ⟨true,12,8,0,false,false⟩] : List Instr),
      Issues i dX key gX) :=
  issues_all (by decide +kernel)

/-- States that meet the hypotheses of O25. -/
theorem test_meets_ReductionsAndScans :
    (∃ (p : Pfx) (f : FmtRM) (s : State) (k : GKey) (g : Group) (n : Nat), Issues (Instr.redg p f) s k g ∧ g.w = 2 ^ n) ∧
    (∃ (p : Pfx) (f : FmtRM) (s : State) (k : GKey) (g : Group) (n : Nat), Issues (Instr.scang p f) s k g ∧ g.w = 2 ^ n) :=
  ⟨⟨Pm, ⟨true,12,2,0,false,false⟩, dX, key, gX, 3, issues_of (by decide +kernel), by decide +kernel⟩,
   ⟨Pm, ⟨true,12,2,0,false,true⟩, dX, key, gX, 3, issues_of (by decide +kernel), by decide +kernel⟩⟩

/-- States that meet the hypotheses of O26. -/
theorem test_meets_EngineLoadsAndStores :
    (∃ (p : Pfx) (f : FmtM) (s : State) (id : Nat) (e : Engine) (key : Nat), EngineIssues (Instr.ldi p f) s id e ∧ (∀ (j :
      Nat), j < 4 → ∀ (r : Reg), e.s.get? (f.c.toNat - 96 + j) = some r → r.poison = false) ∧ Allows (Cap.ofVal (Val.mk
      (quadAt e.word f.c.toNat) (e.s.tag (f.c.toNat - 96)) false)) (addressOf (Cap.ofVal (Val.mk (quadAt e.word f.c.toNat)
      (e.s.tag (f.c.toNat - 96)) false)) (f.o.toInt * ↑(widthBytes f.w.toNat))) (widthBytes f.w.toNat) rightR ∧ (f.w = 7 →
      addressOf (Cap.ofVal (Val.mk (quadAt e.word f.c.toNat) (e.s.tag (f.c.toNat - 96)) false)) (f.o.toInt * ↑(widthBytes
      f.w.toNat)) % 16 = 0) ∧ OnePage (addressOf (Cap.ofVal (Val.mk (quadAt e.word f.c.toNat) (e.s.tag (f.c.toNat - 96))
      false)) (f.o.toInt * ↑(widthBytes f.w.toNat))) (widthBytes f.w.toNat) ∧ e.redo = [] ∧ Mapped s e.die e.ctx (addressOf
      (Cap.ofVal (Val.mk (quadAt e.word f.c.toNat) (e.s.tag (f.c.toNat - 96)) false)) (f.o.toInt * ↑(widthBytes f.w.toNat)))
      (Access.mk false false false false) key ∧ keyTier key ≤ 1 ∧ s.ownStoreMeets e (addressOf (Cap.ofVal (Val.mk (quadAt
      e.word f.c.toNat) (e.s.tag (f.c.toNat - 96)) false)) (f.o.toInt * ↑(widthBytes f.w.toNat))) key (widthBytes f.w.toNat) =
      false ∧ s.stalls none key (widthBytes f.w.toNat) = false) ∧
    (∃ (p : Pfx) (f : FmtM) (s : State) (id : Nat) (e : Engine), EngineIssues (Instr.sti p f) s id e ∧ (∀ (j : Nat), j < 4 → ∀
      (r : Reg), e.s.get? (f.c.toNat - 96 + j) = some r → r.poison = false) ∧ (∀ (j : Nat), j < widthRegs f.w.toNat → ∀ (r :
      Reg), e.s.get? (f.d.toNat - 96 + j) = some r → r.poison = false) ∧ Allows (Cap.ofVal (Val.mk (quadAt e.word f.c.toNat)
      (e.s.tag (f.c.toNat - 96)) false)) (addressOf (Cap.ofVal (Val.mk (quadAt e.word f.c.toNat) (e.s.tag (f.c.toNat - 96))
      false)) (f.o.toInt * ↑(widthBytes f.w.toNat))) (widthBytes f.w.toNat) rightW ∧ (f.w = 7 → addressOf (Cap.ofVal (Val.mk
      (quadAt e.word f.c.toNat) (e.s.tag (f.c.toNat - 96)) false)) (f.o.toInt * ↑(widthBytes f.w.toNat)) % 16 = 0) ∧ e.redo =
      []) :=
  ⟨⟨none, ⟨true,112,96,0,0⟩, sEM, 5, eM, (0x10000 + 0*widthBytes 0), engineIssues_of (by decide +kernel), by decide +kernel,
    by delta Allows; decide +kernel, by decide +kernel, by delta OnePage; decide +kernel, by decide +kernel,
    by delta Mapped; decide +kernel, by decide +kernel⟩,
   ⟨none, ⟨true,100,96,0,0⟩, sEM, 5, eM, engineIssues_of (by decide +kernel), and2 (by decide +kernel)
     ⟨by delta Allows; decide +kernel, by decide +kernel⟩⟩⟩

/-- States that meet the hypotheses of O27. -/
theorem test_meets_GlobalLoadsAndStores :
    (∃ (p : Pfx) (f : FmtM) (s : State) (k : GKey) (g : Group) (key : Option Nat → Nat), Issues (Instr.ld p f) s k g ∧
      CleanSources (Instr.ld p f) g ∧ (∀ (u : Option Nat), u ∈ (g.issue (Instr.ld p f)).units → Allows (byRegister f g u).fst
      (byRegister f g u).snd (widthBytes f.w.toNat) rightR ∧ ((f.w == 7) = true → (byRegister f g u).snd % widthBytes
      f.w.toNat = 0)) ∧ LoadReady (Instr.ld p f) s g (widthBytes f.w.toNat) (fun (u : Option Nat) => (byRegister f g u).snd)
      key) ∧
    (∃ (p : Pfx) (f : FmtM) (s : State) (k : GKey) (g : Group) (key : Option Nat → Nat), Issues (Instr.ldi p f) s k g ∧
      CleanSources (Instr.ldi p f) g ∧ (∀ (u : Option Nat), u ∈ (g.issue (Instr.ldi p f)).units → Allows (byImmediate f g
      u).fst (byImmediate f g u).snd (widthBytes f.w.toNat) rightR ∧ ((f.w == 7) = true → (byImmediate f g u).snd % widthBytes
      f.w.toNat = 0)) ∧ LoadReady (Instr.ldi p f) s g (widthBytes f.w.toNat) (fun (u : Option Nat) => (byImmediate f g u).snd)
      key) ∧
    (∃ (p : Pfx) (f : FmtM) (s : State) (k : GKey) (g : Group) (key : Option Nat → Nat), Issues (Instr.ldln p f) s k g ∧
      CleanSources (Instr.ldln p f) g ∧ (∀ (u : Option Nat), u ∈ (g.issue (Instr.ldln p f)).units → Allows ((fun (g : Group)
      (u : Option Nat) => ((byRegister f g none).fst, (byRegister f g none).snd + u.getD 0 * widthBytes f.w.toNat)) g u).fst
      ((fun (g : Group) (u : Option Nat) => ((byRegister f g none).fst, (byRegister f g none).snd + u.getD 0 * widthBytes
      f.w.toNat)) g u).snd (widthBytes f.w.toNat) rightR ∧ (true = true → ((fun (g : Group) (u : Option Nat) => ((byRegister f
      g none).fst, (byRegister f g none).snd + u.getD 0 * widthBytes f.w.toNat)) g u).snd % widthBytes f.w.toNat = 0)) ∧
      LoadReady (Instr.ldln p f) s g (widthBytes f.w.toNat) (fun (u : Option Nat) => ((fun (g : Group) (u : Option Nat) =>
      ((byRegister f g none).fst, (byRegister f g none).snd + u.getD 0 * widthBytes f.w.toNat)) g u).snd) key) ∧
    (∃ (p : Pfx) (f : FmtM) (s : State) (k : GKey) (g : Group), Issues (Instr.st p f) s k g ∧ CleanSources (Instr.st p f) g ∧
      (∀ (u : Option Nat), u ∈ (g.issue (Instr.st p f)).units → Allows (byRegister f g u).fst (byRegister f g u).snd
      (widthBytes f.w.toNat) rightW ∧ (f.w = 7 → (byRegister f g u).snd % widthBytes f.w.toNat = 0)) ∧ (g.issue (Instr.st p
      f)).units ≠ [] ∧ g.amber = AmberState.idle ∧ Forward s g ∧ s.writeWaits g = false) ∧
    (∃ (p : Pfx) (f : FmtM) (s : State) (k : GKey) (g : Group), Issues (Instr.sti p f) s k g ∧ CleanSources (Instr.sti p f) g
      ∧ (∀ (u : Option Nat), u ∈ (g.issue (Instr.sti p f)).units → Allows (byImmediate f g u).fst (byImmediate f g u).snd
      (widthBytes f.w.toNat) rightW ∧ (f.w = 7 → (byImmediate f g u).snd % widthBytes f.w.toNat = 0)) ∧ (g.issue (Instr.sti p
      f)).units ≠ [] ∧ g.amber = AmberState.idle ∧ Forward s g ∧ s.writeWaits g = false) :=
  ⟨⟨Pm, ⟨true,12,96,17,0⟩, sM, key, (tg true), (kid (tg true) ⟨true,12,96,17,0⟩ Sys2Proof.Claims.byRegister), issues_of
    (by decide +kernel), by delta CleanSources; decide +kernel, by delta Allows; decide +kernel, loadReady_of
    (by decide +kernel) (by delta Mapped; decide +kernel)⟩,
   ⟨Pm, ⟨true,12,96,2,0⟩, sM, key, (tg true), (kid (tg true) ⟨true,12,96,2,0⟩ Sys2Proof.Claims.byImmediate), issues_of
     (by decide +kernel), by delta CleanSources; decide +kernel, by delta Allows; decide +kernel, loadReady_of
     (by decide +kernel) (by delta Mapped; decide +kernel)⟩,
   ⟨none, ⟨true,12,96,112,4⟩, sM, key, (tg true), (fun u => (Sys2Proof.Claims.byRegister ⟨true,12,96,112,4⟩ (tg true) none).2
     + u.getD 0 * widthBytes (⟨true,12,96,112,4⟩ : FmtM).w.toNat), issues_of (by decide +kernel),
     by delta CleanSources; decide +kernel, by delta Allows; decide +kernel, loadReady_of (by decide +kernel)
     (by delta Mapped; decide +kernel)⟩,
   ⟨none, ⟨true,8,96,17,0⟩, sF3, key, (tg true), issues_of (by decide +kernel), by delta CleanSources; decide +kernel,
     by delta Allows; decide +kernel, and2 (by decide +kernel) ⟨by delta Forward; decide +kernel, by decide +kernel⟩⟩,
   ⟨none, ⟨true,8,20,1,0⟩, sF3, key, (tg true), issues_of (by decide +kernel), by delta CleanSources; decide +kernel,
     by delta Allows; decide +kernel, and2 (by decide +kernel) ⟨by delta Forward; decide +kernel, by decide +kernel⟩⟩⟩

/-- States that meet the hypotheses of O28. -/
theorem test_meets_LocalLoadsAndStores :
    (∃ (p : Pfx) (f : FmtM) (s : State) (k : GKey) (g : Group) (b : Block), Issues (Instr.ldl p f) s k g ∧ CleanSources
      (Instr.ldl p f) g ∧ (∀ (u : Option Nat), u ∈ (g.issue (Instr.ldl p f)).units → LocalAllowed s k (localAt f g u)
      (widthBytes f.w.toNat)) ∧ (g.issue (Instr.ldl p f)).helpers = [] ∧ s.blockOf k = some b ∧ g.amber = AmberState.idle ∧
      g.redo = [] ∧ (∀ (e : AmberStore), e ∈ (s.core g.core).stores → e.group ≠ k) ∧ (∀ (u : Option Nat), u ∈ (g.issue
      (Instr.ldl p f)).units → s.localWaits b g.core k (placeOf b g.core (localAt f g u)) (widthBytes f.w.toNat) = false)) ∧
    (∃ (p : Pfx) (f : FmtM) (s : State) (k : GKey) (g : Group) (b : Block), Issues (Instr.stl p f) s k g ∧ CleanSources
      (Instr.stl p f) g ∧ (∀ (u : Option Nat), u ∈ (g.issue (Instr.stl p f)).units → LocalAllowed s k (localAt f g u)
      (widthBytes f.w.toNat)) ∧ (g.issue (Instr.stl p f)).units ≠ [] ∧ s.blockOf k = some b ∧ Still s ∧ s.localTested g.core =
      false ∧ s.writeWaits g = false ∧ Forward s g) :=
  ⟨⟨Pm, ⟨true,12,120,17,2⟩, (fs2 0 true), key, (gL 0), (bkOf (fs2 0 true)), issues_of (by decide +kernel),
    by delta CleanSources; decide +kernel, by delta LocalAllowed; decide +kernel, by decide +kernel⟩,
   ⟨Pq, ⟨true,8,120,17,0⟩, (fs2 0 true), key, (gL 0), (bkOf (fs2 0 true)), issues_of (by decide +kernel),
     by delta CleanSources; decide +kernel, by delta LocalAllowed; decide +kernel, and2 (by decide +kernel)
     ⟨by delta Still; decide +kernel, and2 (by decide +kernel) (by delta Forward; decide +kernel)⟩⟩⟩

/-- States that meet the hypotheses of O29. -/
theorem test_meets_TrapsArePrecise_1 :
    (∃ (i : Instr) (s : State) (k : GKey) (g : Group), Turn i s k g ∧ i.isWord = true ∧ (majorOf i.baseWord).toNat < 122 ∧
      (describe g.w i).pfxOk i.pfx = false) ∧
    (∃ (i : Instr) (s : State) (k : GKey) (g : Group), Turn i s k g ∧ i.isWord = true ∧ (majorOf i.baseWord).toNat < 122 ∧
      (describe g.w i).pfxOk i.pfx = true ∧ (i.wf && (describe g.w i).legal && (describe g.w i).aligned && (describe g.w
      i).mixOk) = false) ∧
    (∃ (i : Instr) (s : State) (k : GKey) (g : Group) (b : Nat), Turn i s k g ∧ i.isWord = true ∧ (majorOf i.baseWord).toNat <
      122 ∧ (describe g.w i).pfxOk i.pfx = true ∧ (i.wf && (describe g.w i).legal && (describe g.w i).aligned && (describe g.w
      i).mixOk) = true ∧ (∀ (o : Opnd), o ∈ (describe g.w i).ops → ∀ (j : Nat), j < o.count → ∀ (l : Nat), l ∈ g.issuingSet →
      g.regNum (some l) (o.field.toNat + j) < if isUni o.field = true then (s.regLimits g.key).snd else (s.regLimits
      g.key).fst) ∧ (∀ (o : Opnd), o ∈ (describe g.w i).ops → isUni o.field = true ∨ o.field.toNat + o.count ≤ 96) ∧ (describe
      g.w i).feature = some b ∧ s.accepted b = false) ∧
    (∃ (i : Instr) (s : State) (k : GKey) (g : Group) (u : Option Nat) (us : List (Option Nat)) (f : Nat), isResultWord i =
      true ∧ Turn i s k g ∧ wordChecks s g (g.issue i) = none ∧ maskPoison g (g.issue i) = [] ∧ (∀ (v : Option Nat), v ∈
      (g.issue i).units → ∀ (f : Nat), f ∈ unitFields s g (g.issue i) v → g.runWrites v f = []) ∧ (List.filter (fun (v :
      Option Nat) => (unitFields s g (g.issue i) v).any fun (f : Nat) => (g.reg? v f).isNone) (g.issue i).units = u :: us) ∧
      List.find? (fun (f : Nat) => (g.reg? u f).isNone) (unitFields s g (g.issue i) u) = some f) ∧
    (∃ (p : Pfx) (f : FmtM) (s : State) (k : GKey) (g : Group) (code : Nat) (u : Option Nat) (us : List (Option Nat)), Issues
      (Instr.ld p f) s k g ∧ g.amber = AmberState.idle ∧ (∀ (v : Option Nat), v ∈ (g.issue (Instr.ld p f)).units → ∀ (d :
      Nat), (fun (u : Option Nat) => capFault (capAt g u f.c) ((fun (g : Group) (u : Option Nat) => (byRegister f g u).snd) g
      u) (widthBytes f.w.toNat) rightR) v = some d → code ≤ d) ∧ List.filter (fun (v : Option Nat) => (fun (u : Option Nat) =>
      capFault (capAt g u f.c) ((fun (g : Group) (u : Option Nat) => (byRegister f g u).snd) g u) (widthBytes f.w.toNat)
      rightR) v == some code) (g.issue (Instr.ld p f)).units = u :: us) ∧
    (∃ (p : Pfx) (f : FmtM) (s : State) (k : GKey) (g : Group) (code : Nat) (u : Option Nat) (us : List (Option Nat)), Issues
      (Instr.ldi p f) s k g ∧ g.amber = AmberState.idle ∧ (∀ (v : Option Nat), v ∈ (g.issue (Instr.ldi p f)).units → ∀ (d :
      Nat), (fun (u : Option Nat) => capFault (capAt g u f.c) ((fun (g : Group) (u : Option Nat) => (byImmediate f g u).snd) g
      u) (widthBytes f.w.toNat) rightR) v = some d → code ≤ d) ∧ List.filter (fun (v : Option Nat) => (fun (u : Option Nat) =>
      capFault (capAt g u f.c) ((fun (g : Group) (u : Option Nat) => (byImmediate f g u).snd) g u) (widthBytes f.w.toNat)
      rightR) v == some code) (g.issue (Instr.ldi p f)).units = u :: us) ∧
    (∃ (p : Pfx) (f : FmtM) (s : State) (k : GKey) (g : Group) (code : Nat) (u : Option Nat) (us : List (Option Nat)), Issues
      (Instr.st p f) s k g ∧ g.amber = AmberState.idle ∧ (∀ (v : Option Nat), v ∈ (g.issue (Instr.st p f)).units → ∀ (d :
      Nat), (fun (u : Option Nat) => capFault (capAt g u f.c) ((fun (g : Group) (u : Option Nat) => (byRegister f g u).snd) g
      u) (widthBytes f.w.toNat) rightW) v = some d → code ≤ d) ∧ List.filter (fun (v : Option Nat) => (fun (u : Option Nat) =>
      capFault (capAt g u f.c) ((fun (g : Group) (u : Option Nat) => (byRegister f g u).snd) g u) (widthBytes f.w.toNat)
      rightW) v == some code) (g.issue (Instr.st p f)).units = u :: us) ∧
    (∃ (p : Pfx) (f : FmtM) (s : State) (k : GKey) (g : Group) (code : Nat) (u : Option Nat) (us : List (Option Nat)), Issues
      (Instr.sti p f) s k g ∧ g.amber = AmberState.idle ∧ (∀ (v : Option Nat), v ∈ (g.issue (Instr.sti p f)).units → ∀ (d :
      Nat), (fun (u : Option Nat) => capFault (capAt g u f.c) ((fun (g : Group) (u : Option Nat) => (byImmediate f g u).snd) g
      u) (widthBytes f.w.toNat) rightW) v = some d → code ≤ d) ∧ List.filter (fun (v : Option Nat) => (fun (u : Option Nat) =>
      capFault (capAt g u f.c) ((fun (g : Group) (u : Option Nat) => (byImmediate f g u).snd) g u) (widthBytes f.w.toNat)
      rightW) v == some code) (g.issue (Instr.sti p f)).units = u :: us) :=
  ⟨⟨(.addi (some ⟨1,false,false,0,0,false,true,false,false,false⟩) ⟨true,0,2,6,false⟩), dM, key, mixed, turn_of
    (by decide +kernel), by decide +kernel⟩,
   ⟨(.neg none ⟨true,0,2,5,false,false⟩), dM, key, mixed, turn_of (by decide +kernel), by decide +kernel⟩,
   ⟨(.sld none ⟨true,12,96,0,0⟩), (noF mixed), key, mixed, 0, turn_of (by decide +kernel), by decide +kernel⟩,
   ⟨(.add Pm ⟨true,0,2,30,false,false,false⟩), dM, key, mixed, (some 1), [some 3, some 7], 30, by decide +kernel, turn_of
     (by decide +kernel), by decide +kernel⟩,
   ⟨none, ⟨true,12,96,16,4⟩, (dMem (gO2 capA [0,1])), key, (gO2 capA [0,1]), 5, (some 1), [some 3], issues_of
     (by decide +kernel), by decide +kernel⟩,
   ⟨none, ⟨true,12,96,0x3F,4⟩, (dMem (gO2 capA [1])), key, (gO2 capA [1]), 4, (some 0), [some 1, some 2, some 3, some 7],
     issues_of (by decide +kernel), by decide +kernel⟩,
   ⟨none, ⟨true,12,96,16,4⟩, (dMem (gO2 capA [0,1])), key, (gO2 capA [0,1]), 5, (some 1), [some 3], issues_of
     (by decide +kernel), by decide +kernel⟩,
   ⟨none, ⟨true,12,96,0x3F,4⟩, (dMem (gO2 capA [1])), key, (gO2 capA [1]), 4, (some 0), [some 1, some 2, some 3, some 7],
     issues_of (by decide +kernel), by decide +kernel⟩⟩

/-- States that meet the hypotheses of O29. -/
theorem test_meets_TrapsArePrecise_2 :
    (∃ (p : Pfx) (f : FmtM) (s : State) (k : GKey) (g : Group) (code : Nat) (u : Option Nat) (us : List (Option Nat)), Issues
      (Instr.atomI32 p f) s k g ∧ g.amber = AmberState.idle ∧ (∀ (v : Option Nat), v ∈ (g.issue (Instr.atomI32 p f)).units → ∀
      (d : Nat), (fun (u : Option Nat) => capFault (capAt g u f.c) ((fun (g : Group) (u : Option Nat) => (byRegister f g
      u).snd) g u) 4 (rightA ||| rightR ||| rightW)) v = some d → code ≤ d) ∧ List.filter (fun (v : Option Nat) => (fun (u :
      Option Nat) => capFault (capAt g u f.c) ((fun (g : Group) (u : Option Nat) => (byRegister f g u).snd) g u) 4 (rightA |||
      rightR ||| rightW)) v == some code) (g.issue (Instr.atomI32 p f)).units = u :: us) ∧
    (∃ (p : Pfx) (f : FmtM) (s : State) (k : GKey) (g : Group) (code : Nat) (u : Option Nat) (us : List (Option Nat)), Issues
      (Instr.atomI64 p f) s k g ∧ g.amber = AmberState.idle ∧ (∀ (v : Option Nat), v ∈ (g.issue (Instr.atomI64 p f)).units → ∀
      (d : Nat), (fun (u : Option Nat) => capFault (capAt g u f.c) ((fun (g : Group) (u : Option Nat) => (byRegister f g
      u).snd) g u) 8 (rightA ||| rightR ||| rightW)) v = some d → code ≤ d) ∧ List.filter (fun (v : Option Nat) => (fun (u :
      Option Nat) => capFault (capAt g u f.c) ((fun (g : Group) (u : Option Nat) => (byRegister f g u).snd) g u) 8 (rightA |||
      rightR ||| rightW)) v == some code) (g.issue (Instr.atomI64 p f)).units = u :: us) ∧
    (∃ (p : Pfx) (f : FmtM) (s : State) (k : GKey) (g : Group) (code : Nat) (u : Option Nat) (us : List (Option Nat)), Issues
      (Instr.atomF32 p f) s k g ∧ g.amber = AmberState.idle ∧ (∀ (v : Option Nat), v ∈ (g.issue (Instr.atomF32 p f)).units → ∀
      (d : Nat), (fun (u : Option Nat) => capFault (capAt g u f.c) ((fun (g : Group) (u : Option Nat) => (byRegister f g
      u).snd) g u) 4 (rightA ||| rightR ||| rightW)) v = some d → code ≤ d) ∧ List.filter (fun (v : Option Nat) => (fun (u :
      Option Nat) => capFault (capAt g u f.c) ((fun (g : Group) (u : Option Nat) => (byRegister f g u).snd) g u) 4 (rightA |||
      rightR ||| rightW)) v == some code) (g.issue (Instr.atomF32 p f)).units = u :: us) ∧
    (∃ (p : Pfx) (f : FmtM) (s : State) (k : GKey) (g : Group) (code : Nat) (u : Option Nat) (us : List (Option Nat)), Issues
      (Instr.redI32 p f) s k g ∧ g.amber = AmberState.idle ∧ (∀ (v : Option Nat), v ∈ (g.issue (Instr.redI32 p f)).units → ∀
      (d : Nat), (fun (u : Option Nat) => capFault (capAt g u f.c) ((fun (g : Group) (u : Option Nat) => (byRegister f g
      u).snd) g u) 4 (rightA ||| rightR ||| rightW)) v = some d → code ≤ d) ∧ List.filter (fun (v : Option Nat) => (fun (u :
      Option Nat) => capFault (capAt g u f.c) ((fun (g : Group) (u : Option Nat) => (byRegister f g u).snd) g u) 4 (rightA |||
      rightR ||| rightW)) v == some code) (g.issue (Instr.redI32 p f)).units = u :: us) ∧
    (∃ (p : Pfx) (f : FmtM) (s : State) (k : GKey) (g : Group) (code : Nat) (u : Option Nat) (us : List (Option Nat)), Issues
      (Instr.redI64 p f) s k g ∧ g.amber = AmberState.idle ∧ (∀ (v : Option Nat), v ∈ (g.issue (Instr.redI64 p f)).units → ∀
      (d : Nat), (fun (u : Option Nat) => capFault (capAt g u f.c) ((fun (g : Group) (u : Option Nat) => (byRegister f g
      u).snd) g u) 8 (rightA ||| rightR ||| rightW)) v = some d → code ≤ d) ∧ List.filter (fun (v : Option Nat) => (fun (u :
      Option Nat) => capFault (capAt g u f.c) ((fun (g : Group) (u : Option Nat) => (byRegister f g u).snd) g u) 8 (rightA |||
      rightR ||| rightW)) v == some code) (g.issue (Instr.redI64 p f)).units = u :: us) ∧
    (∃ (p : Pfx) (f : FmtM) (s : State) (k : GKey) (g : Group) (code : Nat) (u : Option Nat) (us : List (Option Nat)), Issues
      (Instr.redF32 p f) s k g ∧ g.amber = AmberState.idle ∧ (∀ (v : Option Nat), v ∈ (g.issue (Instr.redF32 p f)).units → ∀
      (d : Nat), (fun (u : Option Nat) => capFault (capAt g u f.c) ((fun (g : Group) (u : Option Nat) => (byRegister f g
      u).snd) g u) 4 (rightA ||| rightR ||| rightW)) v = some d → code ≤ d) ∧ List.filter (fun (v : Option Nat) => (fun (u :
      Option Nat) => capFault (capAt g u f.c) ((fun (g : Group) (u : Option Nat) => (byRegister f g u).snd) g u) 4 (rightA |||
      rightR ||| rightW)) v == some code) (g.issue (Instr.redF32 p f)).units = u :: us) ∧
    (∃ (p : Pfx) (f : FmtM) (s : State) (k : GKey) (g : Group) (u : Option Nat) (us : List (Option Nat)), Issues (Instr.ldl p
      f) s k g ∧ g.amber = AmberState.idle ∧ List.filter (fun (v : Option Nat) => (fun (u : Option Nat) => localOk
      (s.localLimits k.launch k.block).fst (s.localLimits k.launch k.block).snd (localAt f g u) (widthBytes f.w.toNat)) v &&
      (fun (u : Option Nat) => localAt f g u % widthBytes f.w.toNat != 0 || (localAt f g u).testBit 31 && decide (4 <
      widthBytes f.w.toNat)) v) (g.issue (Instr.ldl p f)).units = u :: us) ∧
    (∃ (p : Pfx) (f : FmtM) (s : State) (k : GKey) (g : Group) (u : Option Nat) (us : List (Option Nat)), Issues (Instr.ldl p
      f) s k g ∧ g.amber = AmberState.idle ∧ (∀ (v : Option Nat), v ∈ (g.issue (Instr.ldl p f)).units → (fun (u : Option Nat)
      => localOk (s.localLimits k.launch k.block).fst (s.localLimits k.launch k.block).snd (localAt f g u) (widthBytes
      f.w.toNat)) v = true → (fun (u : Option Nat) => localAt f g u % widthBytes f.w.toNat != 0 || (localAt f g u).testBit 31
      && decide (4 < widthBytes f.w.toNat)) v = false) ∧ CleanSources (Instr.ldl p f) g ∧ List.filter (fun (v : Option Nat) =>
      !(fun (u : Option Nat) => localOk (s.localLimits k.launch k.block).fst (s.localLimits k.launch k.block).snd (localAt f g
      u) (widthBytes f.w.toNat)) v) (g.issue (Instr.ldl p f)).units = u :: us) :=
  ⟨⟨none, ⟨true,12,96,16,0⟩, (dMem (gO2 capA [0,1])), key, (gO2 capA [0,1]), 5, (some 1), [some 3], issues_of
    (by decide +kernel), by decide +kernel⟩,
   ⟨none, ⟨true,12,96,16,0⟩, (dMem (gO2 capA [0,1])), key, (gO2 capA [0,1]), 5, (some 1), [some 3], issues_of
     (by decide +kernel), by decide +kernel⟩,
   ⟨none, ⟨true,12,96,16,0⟩, (dMem (gO2 capA [0,1])), key, (gO2 capA [0,1]), 5, (some 1), [some 3], issues_of
     (by decide +kernel), by decide +kernel⟩,
   ⟨none, ⟨true,12,96,16,0⟩, (dMem (gO2 capA [0,1])), key, (gO2 capA [0,1]), 5, (some 1), [some 3], issues_of
     (by decide +kernel), by decide +kernel⟩,
   ⟨none, ⟨true,12,96,16,0⟩, (dMem (gO2 capA [0,1])), key, (gO2 capA [0,1]), 5, (some 1), [some 3], issues_of
     (by decide +kernel), by decide +kernel⟩,
   ⟨none, ⟨true,12,96,16,0⟩, (dMem (gO2 capA [0,1])), key, (gO2 capA [0,1]), 5, (some 1), [some 3], issues_of
     (by decide +kernel), by decide +kernel⟩,
   ⟨none, ⟨true,12,120,17,4⟩, (dLoc (gA 0x1) false), key, (gA 0x1), (some 0), [some 1, some 2, some 3, some 7], issues_of
     (by decide +kernel), by decide +kernel⟩,
   ⟨none, ⟨true,12,120,17,4⟩, (dLoc (gA 0xFF0) false), key, (gA 0xFF0), (some 7), [], issues_of (by decide +kernel), and2
     (by decide +kernel) ⟨by delta CleanSources; decide +kernel, by decide +kernel⟩⟩⟩

/-- States that meet the hypotheses of O29. -/
theorem test_meets_TrapsArePrecise_3 :
    (∃ (p : Pfx) (f : FmtM) (s : State) (k : GKey) (g : Group) (u : Option Nat) (us : List (Option Nat)), Issues (Instr.stl p
      f) s k g ∧ g.amber = AmberState.idle ∧ List.filter (fun (v : Option Nat) => (fun (u : Option Nat) => localOk
      (s.localLimits k.launch k.block).fst (s.localLimits k.launch k.block).snd (localAt f g u) (widthBytes f.w.toNat)) v &&
      (fun (u : Option Nat) => localAt f g u % widthBytes f.w.toNat != 0 || (localAt f g u).testBit 31 && decide (4 <
      widthBytes f.w.toNat)) v) (g.issue (Instr.stl p f)).units = u :: us) ∧
    (∃ (p : Pfx) (f : FmtM) (s : State) (k : GKey) (g : Group) (u : Option Nat) (us : List (Option Nat)), Issues (Instr.stl p
      f) s k g ∧ g.amber = AmberState.idle ∧ (∀ (v : Option Nat), v ∈ (g.issue (Instr.stl p f)).units → (fun (u : Option Nat)
      => localOk (s.localLimits k.launch k.block).fst (s.localLimits k.launch k.block).snd (localAt f g u) (widthBytes
      f.w.toNat)) v = true → (fun (u : Option Nat) => localAt f g u % widthBytes f.w.toNat != 0 || (localAt f g u).testBit 31
      && decide (4 < widthBytes f.w.toNat)) v = false) ∧ CleanSources (Instr.stl p f) g ∧ List.filter (fun (v : Option Nat) =>
      !(fun (u : Option Nat) => localOk (s.localLimits k.launch k.block).fst (s.localLimits k.launch k.block).snd (localAt f g
      u) (widthBytes f.w.toNat)) v) (g.issue (Instr.stl p f)).units = u :: us) ∧
    (∃ (p : Pfx) (f : FmtM) (s : State) (k : GKey) (g : Group) (u : Option Nat) (us : List (Option Nat)), Issues (Instr.atoml
      p f) s k g ∧ g.amber = AmberState.idle ∧ List.filter (fun (v : Option Nat) => (fun (u : Option Nat) => localOk
      (s.localLimits k.launch k.block).fst (s.localLimits k.launch k.block).snd (localAt f g u) 4) v && (fun (u : Option Nat)
      => localAt f g u % 4 != 0 || (localAt f g u).testBit 31 && decide (4 < 4)) v) (g.issue (Instr.atoml p f)).units = u ::
      us) ∧
    (∃ (p : Pfx) (f : FmtM) (s : State) (k : GKey) (g : Group) (u : Option Nat) (us : List (Option Nat)), Issues (Instr.atoml
      p f) s k g ∧ g.amber = AmberState.idle ∧ (∀ (v : Option Nat), v ∈ (g.issue (Instr.atoml p f)).units → (fun (u : Option
      Nat) => localOk (s.localLimits k.launch k.block).fst (s.localLimits k.launch k.block).snd (localAt f g u) 4) v = true →
      (fun (u : Option Nat) => localAt f g u % 4 != 0 || (localAt f g u).testBit 31 && decide (4 < 4)) v = false) ∧
      CleanSources (Instr.atoml p f) g ∧ List.filter (fun (v : Option Nat) => !(fun (u : Option Nat) => localOk (s.localLimits
      k.launch k.block).fst (s.localLimits k.launch k.block).snd (localAt f g u) 4) v) (g.issue (Instr.atoml p f)).units = u
      :: us) :=
  ⟨⟨none, ⟨true,12,120,17,4⟩, (dLoc (gA 0x1) false), key, (gA 0x1), (some 0), [some 1, some 2, some 3, some 7], issues_of
    (by decide +kernel), by decide +kernel⟩,
   ⟨none, ⟨true,12,120,17,4⟩, (dLoc (gA 0xFF0) false), key, (gA 0xFF0), (some 7), [], issues_of (by decide +kernel), and2
     (by decide +kernel) ⟨by delta CleanSources; decide +kernel, by decide +kernel⟩⟩,
   ⟨none, ⟨true,12,120,17,0⟩, (dLoc (gA 0x1) false), key, (gA 0x1), (some 0), [some 1, some 2, some 3, some 7], issues_of
     (by decide +kernel), by decide +kernel⟩,
   ⟨none, ⟨true,12,120,17,0⟩, (dLoc (gA 0xFF0) false), key, (gA 0xFF0), (some 7), [], issues_of (by decide +kernel), and2
     (by decide +kernel) ⟨by delta CleanSources; decide +kernel, by decide +kernel⟩⟩⟩

/-- States that meet the hypotheses of O30. -/
theorem test_meets_GlobalAtomicsAndReductionsQueue_1 :
    (∃ (p : Pfx) (f : FmtM) (s : State) (k : GKey) (g : Group) (key : Option Nat → Nat), Issues (Instr.atomI32 p f) s k g ∧
      CleanSources (Instr.atomI32 p f) g ∧ (∀ (u : Option Nat), u ∈ (g.issue (Instr.atomI32 p f)).units → Allows (capAt g u
      f.c) ((fun (u : Option Nat) => (byRegister f g u).snd) u) (AtomOp.i32 f.w.toNat).bytes (rightA ||| rightR ||| rightW) ∧
      (fun (u : Option Nat) => (byRegister f g u).snd) u % (AtomOp.i32 f.w.toNat).bytes = 0) ∧ (g.issue (Instr.atomI32 p
      f)).units ≠ [] ∧ Forward s g ∧ s.writeWaits g = false ∧ s.slotsFull g.core = false ∧ (∀ (u : Option Nat), u ∈ (g.issue
      (Instr.atomI32 p f)).units → Mapped s (dieOfCore g.core) g.ctx ((fun (u : Option Nat) => (byRegister f g u).snd) u)
      (Access.mk false true false false) (key u) ∧ keyTier (key u) ≤ 1 ∧ s.pageLogged g.core g.ctx ((fun (u : Option Nat) =>
      (byRegister f g u).snd) u) (AtomOp.i32 f.w.toNat).bytes = false)) ∧
    (∃ (p : Pfx) (f : FmtM) (s : State) (k : GKey) (g : Group) (key : Option Nat → Nat), Issues (Instr.atomI64 p f) s k g ∧
      CleanSources (Instr.atomI64 p f) g ∧ (∀ (u : Option Nat), u ∈ (g.issue (Instr.atomI64 p f)).units → Allows (capAt g u
      f.c) ((fun (u : Option Nat) => (byRegister f g u).snd) u) (AtomOp.i64 f.w.toNat).bytes (rightA ||| rightR ||| rightW) ∧
      (fun (u : Option Nat) => (byRegister f g u).snd) u % (AtomOp.i64 f.w.toNat).bytes = 0) ∧ (g.issue (Instr.atomI64 p
      f)).units ≠ [] ∧ Forward s g ∧ s.writeWaits g = false ∧ s.slotsFull g.core = false ∧ (∀ (u : Option Nat), u ∈ (g.issue
      (Instr.atomI64 p f)).units → Mapped s (dieOfCore g.core) g.ctx ((fun (u : Option Nat) => (byRegister f g u).snd) u)
      (Access.mk false true false false) (key u) ∧ keyTier (key u) ≤ 1 ∧ s.pageLogged g.core g.ctx ((fun (u : Option Nat) =>
      (byRegister f g u).snd) u) (AtomOp.i64 f.w.toNat).bytes = false)) ∧
    (∃ (p : Pfx) (f : FmtM) (s : State) (k : GKey) (g : Group) (key : Option Nat → Nat), Issues (Instr.atomF32 p f) s k g ∧
      CleanSources (Instr.atomF32 p f) g ∧ (∀ (u : Option Nat), u ∈ (g.issue (Instr.atomF32 p f)).units → Allows (capAt g u
      f.c) ((fun (u : Option Nat) => (byRegister f g u).snd) u) (AtomOp.f32 f.w.toNat).bytes (rightA ||| rightR ||| rightW) ∧
      (fun (u : Option Nat) => (byRegister f g u).snd) u % (AtomOp.f32 f.w.toNat).bytes = 0) ∧ (g.issue (Instr.atomF32 p
      f)).units ≠ [] ∧ Forward s g ∧ s.writeWaits g = false ∧ s.slotsFull g.core = false ∧ (∀ (u : Option Nat), u ∈ (g.issue
      (Instr.atomF32 p f)).units → Mapped s (dieOfCore g.core) g.ctx ((fun (u : Option Nat) => (byRegister f g u).snd) u)
      (Access.mk false true false false) (key u) ∧ keyTier (key u) ≤ 1 ∧ s.pageLogged g.core g.ctx ((fun (u : Option Nat) =>
      (byRegister f g u).snd) u) (AtomOp.f32 f.w.toNat).bytes = false)) ∧
    (∃ (p : Pfx) (f : FmtM) (s : State) (k : GKey) (g : Group) (key : Option Nat → Nat), f.w = 0 ∧ Issues (Instr.cas p f) s k
      g ∧ CleanSources (Instr.cas p f) g ∧ (∀ (u : Option Nat), u ∈ (g.issue (Instr.cas p f)).units → Allows (capAt g u f.c)
      ((fun (u : Option Nat) => (byRegister f g u).snd) u) (AtomOp.cas false).bytes (rightA ||| rightR ||| rightW) ∧ (fun (u :
      Option Nat) => (byRegister f g u).snd) u % (AtomOp.cas false).bytes = 0) ∧ (g.issue (Instr.cas p f)).units ≠ [] ∧
      Forward s g ∧ s.writeWaits g = false ∧ s.slotsFull g.core = false ∧ (∀ (u : Option Nat), u ∈ (g.issue (Instr.cas p
      f)).units → Mapped s (dieOfCore g.core) g.ctx ((fun (u : Option Nat) => (byRegister f g u).snd) u) (Access.mk false true
      false false) (key u) ∧ keyTier (key u) ≤ 1 ∧ s.pageLogged g.core g.ctx ((fun (u : Option Nat) => (byRegister f g u).snd)
      u) (AtomOp.cas false).bytes = false)) ∧
    (∃ (p : Pfx) (f : FmtM) (s : State) (k : GKey) (g : Group) (key : Option Nat → Nat), f.w = 1 ∧ Issues (Instr.cas p f) s k
      g ∧ CleanSources (Instr.cas p f) g ∧ (∀ (u : Option Nat), u ∈ (g.issue (Instr.cas p f)).units → Allows (capAt g u f.c)
      ((fun (u : Option Nat) => (byRegister f g u).snd) u) (AtomOp.cas true).bytes (rightA ||| rightR ||| rightW) ∧ (fun (u :
      Option Nat) => (byRegister f g u).snd) u % (AtomOp.cas true).bytes = 0) ∧ (g.issue (Instr.cas p f)).units ≠ [] ∧ Forward
      s g ∧ s.writeWaits g = false ∧ s.slotsFull g.core = false ∧ (∀ (u : Option Nat), u ∈ (g.issue (Instr.cas p f)).units →
      Mapped s (dieOfCore g.core) g.ctx ((fun (u : Option Nat) => (byRegister f g u).snd) u) (Access.mk false true false
      false) (key u) ∧ keyTier (key u) ≤ 1 ∧ s.pageLogged g.core g.ctx ((fun (u : Option Nat) => (byRegister f g u).snd) u)
      (AtomOp.cas true).bytes = false)) ∧
    (∃ (p : Pfx) (f : FmtM) (s : State) (k : GKey) (g : Group) (key : Option Nat → Nat), f.w = 2 ∧ Issues (Instr.cas p f) s k
      g ∧ CleanSources (Instr.cas p f) g ∧ (∀ (u : Option Nat), u ∈ (g.issue (Instr.cas p f)).units → Allows (capAt g u f.c)
      ((fun (u : Option Nat) => (byRegister f g u).snd) u) (AtomOp.xchg false).bytes (rightA ||| rightR ||| rightW) ∧ (fun (u
      : Option Nat) => (byRegister f g u).snd) u % (AtomOp.xchg false).bytes = 0) ∧ (g.issue (Instr.cas p f)).units ≠ [] ∧
      Forward s g ∧ s.writeWaits g = false ∧ s.slotsFull g.core = false ∧ (∀ (u : Option Nat), u ∈ (g.issue (Instr.cas p
      f)).units → Mapped s (dieOfCore g.core) g.ctx ((fun (u : Option Nat) => (byRegister f g u).snd) u) (Access.mk false true
      false false) (key u) ∧ keyTier (key u) ≤ 1 ∧ s.pageLogged g.core g.ctx ((fun (u : Option Nat) => (byRegister f g u).snd)
      u) (AtomOp.xchg false).bytes = false)) ∧
    (∃ (p : Pfx) (f : FmtM) (s : State) (k : GKey) (g : Group) (key : Option Nat → Nat), f.w = 3 ∧ Issues (Instr.cas p f) s k
      g ∧ CleanSources (Instr.cas p f) g ∧ (∀ (u : Option Nat), u ∈ (g.issue (Instr.cas p f)).units → Allows (capAt g u f.c)
      ((fun (u : Option Nat) => (byRegister f g u).snd) u) (AtomOp.xchg true).bytes (rightA ||| rightR ||| rightW) ∧ (fun (u :
      Option Nat) => (byRegister f g u).snd) u % (AtomOp.xchg true).bytes = 0) ∧ (g.issue (Instr.cas p f)).units ≠ [] ∧
      Forward s g ∧ s.writeWaits g = false ∧ s.slotsFull g.core = false ∧ (∀ (u : Option Nat), u ∈ (g.issue (Instr.cas p
      f)).units → Mapped s (dieOfCore g.core) g.ctx ((fun (u : Option Nat) => (byRegister f g u).snd) u) (Access.mk false true
      false false) (key u) ∧ keyTier (key u) ≤ 1 ∧ s.pageLogged g.core g.ctx ((fun (u : Option Nat) => (byRegister f g u).snd)
      u) (AtomOp.xchg true).bytes = false)) ∧
    (∃ (p : Pfx) (f : FmtM) (s : State) (k : GKey) (g : Group), Issues (Instr.redI32 p f) s k g ∧ CleanSources (Instr.redI32 p
      f) g ∧ (∀ (u : Option Nat), u ∈ (g.issue (Instr.redI32 p f)).units → Allows (capAt g u f.c) ((fun (u : Option Nat) =>
      (byRegister f g u).snd) u) (AtomOp.i32 f.w.toNat).bytes (rightA ||| rightR ||| rightW) ∧ (fun (u : Option Nat) =>
      (byRegister f g u).snd) u % (AtomOp.i32 f.w.toNat).bytes = 0) ∧ (g.issue (Instr.redI32 p f)).units ≠ [] ∧ Forward s g ∧
      s.writeWaits g = false) :=
  ⟨⟨Pm, ⟨true,12,96,16,0⟩, sR, key, gR, (fun u => (Sys2Proof.Claims.byRegister ⟨true,12,96,16,0⟩ gR u).2), issues_of
    (by decide +kernel), by delta CleanSources; decide +kernel, by delta Allows; decide +kernel, by decide +kernel,
    by delta Forward; decide +kernel, and2 (by decide +kernel) (by delta Mapped; decide +kernel)⟩,
   ⟨Pm, ⟨true,12,96,16,0⟩, sR, key, gR, (fun u => (Sys2Proof.Claims.byRegister ⟨true,12,96,16,0⟩ gR u).2), issues_of
     (by decide +kernel), by delta CleanSources; decide +kernel, by delta Allows; decide +kernel, by decide +kernel,
     by delta Forward; decide +kernel, and2 (by decide +kernel) (by delta Mapped; decide +kernel)⟩,
   ⟨Pm, ⟨true,12,96,16,0⟩, sR, key, gR, (fun u => (Sys2Proof.Claims.byRegister ⟨true,12,96,16,0⟩ gR u).2), issues_of
     (by decide +kernel), by delta CleanSources; decide +kernel, by delta Allows; decide +kernel, by decide +kernel,
     by delta Forward; decide +kernel, and2 (by decide +kernel) (by delta Mapped; decide +kernel)⟩,
   ⟨Pm, ⟨true,12,96,16,0⟩, sR, key, gR, (fun u => (Sys2Proof.Claims.byRegister ⟨true,12,96,16,0⟩ gR u).2), by decide +kernel,
     issues_of (by decide +kernel), by delta CleanSources; decide +kernel, by delta Allows; decide +kernel, by decide +kernel,
     by delta Forward; decide +kernel, and2 (by decide +kernel) (by delta Mapped; decide +kernel)⟩,
   ⟨Pm, ⟨true,12,96,16,1⟩, sR, key, gR, (fun u => (Sys2Proof.Claims.byRegister ⟨true,12,96,16,1⟩ gR u).2), by decide +kernel,
     issues_of (by decide +kernel), by delta CleanSources; decide +kernel, by delta Allows; decide +kernel, by decide +kernel,
     by delta Forward; decide +kernel, and2 (by decide +kernel) (by delta Mapped; decide +kernel)⟩,
   ⟨Pm, ⟨true,12,96,16,2⟩, sR, key, gR, (fun u => (Sys2Proof.Claims.byRegister ⟨true,12,96,16,2⟩ gR u).2), by decide +kernel,
     issues_of (by decide +kernel), by delta CleanSources; decide +kernel, by delta Allows; decide +kernel, by decide +kernel,
     by delta Forward; decide +kernel, and2 (by decide +kernel) (by delta Mapped; decide +kernel)⟩,
   ⟨Pm, ⟨true,12,96,16,3⟩, sR, key, gR, (fun u => (Sys2Proof.Claims.byRegister ⟨true,12,96,16,3⟩ gR u).2), by decide +kernel,
     issues_of (by decide +kernel), by delta CleanSources; decide +kernel, by delta Allows; decide +kernel, by decide +kernel,
     by delta Forward; decide +kernel, and2 (by decide +kernel) (by delta Mapped; decide +kernel)⟩,
   ⟨Pq, ⟨true,12,96,16,0⟩, sR, key, gR, issues_of (by decide +kernel), by delta CleanSources; decide +kernel,
     by delta Allows; decide +kernel, by decide +kernel, by delta Forward; decide +kernel, by decide +kernel⟩⟩

/-- States that meet the hypotheses of O30. -/
theorem test_meets_GlobalAtomicsAndReductionsQueue_2 :
    (∃ (p : Pfx) (f : FmtM) (s : State) (k : GKey) (g : Group), Issues (Instr.redI64 p f) s k g ∧ CleanSources (Instr.redI64 p
      f) g ∧ (∀ (u : Option Nat), u ∈ (g.issue (Instr.redI64 p f)).units → Allows (capAt g u f.c) ((fun (u : Option Nat) =>
      (byRegister f g u).snd) u) (AtomOp.i64 f.w.toNat).bytes (rightA ||| rightR ||| rightW) ∧ (fun (u : Option Nat) =>
      (byRegister f g u).snd) u % (AtomOp.i64 f.w.toNat).bytes = 0) ∧ (g.issue (Instr.redI64 p f)).units ≠ [] ∧ Forward s g ∧
      s.writeWaits g = false) ∧
    (∃ (p : Pfx) (f : FmtM) (s : State) (k : GKey) (g : Group), Issues (Instr.redF32 p f) s k g ∧ CleanSources (Instr.redF32 p
      f) g ∧ (∀ (u : Option Nat), u ∈ (g.issue (Instr.redF32 p f)).units → Allows (capAt g u f.c) ((fun (u : Option Nat) =>
      (byRegister f g u).snd) u) (AtomOp.f32 f.w.toNat).bytes (rightA ||| rightR ||| rightW) ∧ (fun (u : Option Nat) =>
      (byRegister f g u).snd) u % (AtomOp.f32 f.w.toNat).bytes = 0) ∧ (g.issue (Instr.redF32 p f)).units ≠ [] ∧ Forward s g ∧
      s.writeWaits g = false) :=
  ⟨⟨Pq, ⟨true,12,96,16,0⟩, sR, key, gR, issues_of (by decide +kernel), by delta CleanSources; decide +kernel,
    by delta Allows; decide +kernel, by decide +kernel, by delta Forward; decide +kernel, by decide +kernel⟩,
   ⟨Pq, ⟨true,12,96,16,0⟩, sR, key, gR, issues_of (by decide +kernel), by delta CleanSources; decide +kernel,
     by delta Allows; decide +kernel, by decide +kernel, by delta Forward; decide +kernel, by decide +kernel⟩⟩

/-- States that meet the hypotheses of O31. -/
theorem test_meets_ReadModifyWriteResults :
    (∃ (a : Nat) (old : DWord) (x : DWord) (c : DWord), a < 8) ∧
    (∃ (a : Nat) (old : DWord) (x : DWord) (c : DWord), a < 6) ∧
    (∃ (a : Nat) (old : DWord) (x : DWord) (c : DWord), a < 3) :=
  ⟨⟨0, 0xFFFFFFFF80000000, 5, 3, by decide +kernel⟩,
   ⟨0, 0xFFFFFFFF80000000, 5, 3, by decide +kernel⟩,
   ⟨1, 0, 1, 7, by decide +kernel⟩⟩

/-- States that meet the hypotheses of O32. -/
theorem test_meets_LocalAtomicsRun :
    (∃ (p : Pfx) (f : FmtM) (s : State) (k : GKey) (g : Group) (b : Block), Issues (Instr.atoml p f) s k g ∧ CleanSources
      (Instr.atoml p f) g ∧ (∀ (u : Option Nat), u ∈ (g.issue (Instr.atoml p f)).units → LocalAllowed s k (localAt f g u) 4) ∧
      (g.issue (Instr.atoml p f)).units ≠ [] ∧ s.blockOf k = some b ∧ Still s ∧ s.localTested g.core = false ∧ s.writeWaits g
      = false ∧ Forward s g) :=
  ⟨none, ⟨true,8,120,17,0⟩, (fs2 0 true), key, (gL 0), (bkOf (fs2 0 true)), issues_of (by decide +kernel),
    by delta CleanSources; decide +kernel, by delta LocalAllowed; decide +kernel, and2 (by decide +kernel)
    ⟨by delta Still; decide +kernel, and2 (by decide +kernel) (by delta Forward; decide +kernel)⟩⟩

/-- States that meet the hypotheses of O33. -/
theorem test_meets_StoresLeaveTheHoldQueue :
    (∃ (s : State) (k : GKey) (g : Group) (core : Nat) (l : Launch) (r : Req) (rest : List Req) (ln : LaneStore) (key : Nat),
      s.group? k = some g ∧ g.core = core ∧ s.launch? k.launch = some l ∧ (s.core core).hold = r :: rest ∧ r.group = k ∧ r.eng
      = none ∧ r.body = ReqBody.store Space.global [ln] ∧ r.issued + 256 ≤ s.clockOf core ∧ r.after = none ∧ (∀ (y : Req), y ∈
      rest → y.id ≠ r.id) ∧ Still s ∧ ln.hidden = [] ∧ 0 < ln.bytes.length ∧ OneLine ln.va ln.bytes.length ∧ Mapped s
      (dieOfCore core) l.ctx ln.va (Access.mk true false false false) key ∧ s.pageLogged core l.ctx ln.va ln.bytes.length =
      false) :=
  ⟨sS, key, live8, 0, launch, rS, [rS2], ⟨0,0x10003,0x10003,[1,2,3,4,5],none,false,[]⟩, 0x10003, and6 (by decide +kernel)
    (and4 (by decide +kernel) ⟨by delta Still; decide +kernel, and2 (by decide +kernel) ⟨by delta OneLine; decide +kernel,
    by delta Mapped; decide +kernel, by decide +kernel⟩⟩)⟩

/-- States that meet the hypotheses of O34. -/
theorem test_meets_HomesPerformRequests :
    (∃ (s : State) (home : Nat) (src : Source) (r : HomeReq) (sp : Space) (ls : List LaneStore), home < 256 ∧ List.find? (fun
      (y : HomeReq) => y.home == home && y.src == src) s.homes = some r ∧ s.heldAtHome r = false ∧ Still s ∧ NoWaitt s ∧
      r.body = ReqBody.store sp ls ∧ (∀ (l : LaneStore), l ∈ ls → keyTier l.addr ≤ 1)) ∧
    (∃ (s : State) (home : Nat) (src : Source) (r : HomeReq) (sp : Space) (op : AtomOp) (d : Option Dest) (ls : List LaneRmw),
      home < 256 ∧ List.find? (fun (y : HomeReq) => y.home == home && y.src == src) s.homes = some r ∧ s.heldAtHome r = false
      ∧ Still s ∧ NoWaitt s ∧ r.body = ReqBody.rmw sp op d ls ∧ (∀ (l : LaneRmw), l ∈ ls → keyTier l.addr ≤ 1)) :=
  ⟨⟨(sH (.store .global [⟨0,2^52+0x40,0x10010,[1,2],none,false,[]⟩])), 5, (.core 0), (hq (.store .global
    [⟨0,2^52+0x40,0x10010,[1,2],none,false,[]⟩])), .global, [⟨0,2^52+0x40,0x10010,[1,2],none,false,[]⟩], and3
    (by decide +kernel) ⟨by delta Still; decide +kernel, by delta NoWaitt; decide +kernel, by decide +kernel⟩⟩,
   ⟨(sH (.rmw .global (.i32 0) none
     [⟨0,0x10008,0x10008,5,9⟩,⟨1,0x10008,0x10008,0xFFFFFFFFFFFFFFF7,2⟩,⟨3,0x10010,0x10010,0x123456789,2⟩])), 5, (.core 0), (hq
     (.rmw .global (.i32 0) none
     [⟨0,0x10008,0x10008,5,9⟩,⟨1,0x10008,0x10008,0xFFFFFFFFFFFFFFF7,2⟩,⟨3,0x10010,0x10010,0x123456789,2⟩])), .global, (.i32
     0), none, [⟨0,0x10008,0x10008,5,9⟩,⟨1,0x10008,0x10008,0xFFFFFFFFFFFFFFF7,2⟩,⟨3,0x10010,0x10010,0x123456789,2⟩], and3
     (by decide +kernel) ⟨by delta Still; decide +kernel, by delta NoWaitt; decide +kernel, by decide +kernel⟩⟩⟩

/-- States that meet the hypotheses of O35. -/
theorem test_meets_AnswersComplete :
    (∃ (s : State) (id : Nat) (i : Inflight), s.acks.contains id = true ∧ List.find? (fun (y : Inflight) => y.id == id)
      s.inflight = some i ∧ i.eng = none ∧ Quiet s) ∧
    (∃ (s : State) (r : ReplyMsg) (k : GKey) (g : Group) (op : PendOp), List.find? (fun (y : ReplyMsg) => y.id == r.id)
      s.replies = some r ∧ r.group = k ∧ s.group? k = some g ∧ g.pend = [op] ∧ op.id = r.id ∧ op.lanes ≠ 0 ∧ (∀ (h : Group), h
      ∈ s.groups → h.key ≠ k → h.pend = []) ∧ (∀ (v : Option Nat × Nat × List Reg × Bool), v ∈ r.vals → ∀ (l : Nat), v.fst =
      some l → l < g.lanes.length) ∧ (List.Pairwise (fun (a b : Option Nat × Nat × List Reg × Bool) => a.fst = b.fst → ∀ (i :
      Nat), i < a.snd.snd.fst.length → ∀ (j : Nat), j < b.snd.snd.fst.length → a.snd.fst + i ≠ b.snd.fst + j) r.vals) ∧ (∀ (v
      : Option Nat × Nat × List Reg × Bool), v ∈ r.vals → ∀ (j : Nat), j < v.snd.snd.fst.length → Option.any (fun (w :
      RunWrite) => w.pending == some r.id) (List.find? (fun (w : RunWrite) => w.lane == v.fst && w.reg == v.snd.fst + j)
      g.written) = true) ∧ (∀ (w : RunWrite), w ∈ g.written → w.pending = some r.id → w.src = none ∧ ∃ (v : Option Nat × Nat ×
      List Reg × Bool), v ∈ r.vals ∧ w.lane = v.fst ∧ ∃ (j : Nat), j < v.snd.snd.fst.length ∧ w.reg = v.snd.fst + j) ∧ (∀ (w :
      RunWrite), w ∈ g.written → w.pending = some r.id → List.find? (fun (y : RunWrite) => y.lane == w.lane && y.reg == w.reg)
      g.written = some w)) :=
  ⟨⟨(sAck 1), 3, ⟨3,key,0,none,1⟩, and3 (by decide +kernel) (by delta Quiet; decide +kernel)⟩,
   ⟨(sRep true), rep, key, (gRep true), opP, by decide +kernel⟩⟩

/-- States that meet the hypotheses of O36. -/
theorem test_meets_DrainCommitsTheRun :
    (∃ (s : State) (k : GKey) (g : Group), s.group? k = some g ∧ g.draining = true ∧ (∀ (w : RunWrite), w ∈ g.written →
      w.pending = none) ∧ (∀ (c : CvReg), c ∈ g.cvs → c.queued = false) ∧ (∀ (p : PendOp), p ∈ g.pend → bringsPredicates
      p.instr = false)) :=
  ⟨(device gD), key, gD, by decide +kernel⟩

/-- States that meet the hypotheses of O37. -/
theorem test_meets_FencesAndCacheControl_1 :
    (∀ i ∈ ([.cctlInvl1 ⟨false,0,0,0,0⟩, .cctlPfL1 ⟨false,0,20,16,4⟩, .cctlPfLlc ⟨false,0,20,16,5⟩] : List Instr), Issues i
      (sF (gCl capA)) key (gCl capA)) ∧
    (∃ (f : FmtM) (s : State) (k : GKey) (g : Group), Issues (Instr.cctlInvline f) s k g ∧ CleanSources (Instr.cctlInvline f)
      g ∧ (∀ (u : Option Nat), u ∈ (g.issue (Instr.cctlInvline f)).units → Allows (capAt g u f.c) (byRegister f g u).snd 1
      rightR)) ∧
    (∃ (f : FmtM) (s : State) (k : GKey) (g : Group), Issues (Instr.cctlInvpt f) s k g ∧ Forward s g) ∧
    (∃ (f : FmtM) (s : State) (k : GKey) (g : Group), Issues (Instr.cctlInvpg f) s k g ∧ CleanSources (Instr.cctlInvpg f) g ∧
      Forward s g ∧ (∀ (u : Option Nat), u ∈ (g.issue (Instr.cctlInvpg f)).units → Allows (capAt g u f.c) (byRegister f g
      u).snd 1 rightM)) ∧
    (∃ (f : FmtRM) (s : State) (k : GKey) (g : Group), Issues (Instr.pkrSet f) s k g ∧ Forward s g) ∧
    (∃ (f : FmtRM) (s : State) (k : GKey) (g : Group) (c : Context), Issues (Instr.pkrGet f) s k g ∧ s.ctx? g.ctx = some c) ∧
    (∃ (f : FmtF) (s : State) (k : GKey) (g : Group), Issues (Instr.fenceAcq f) s k g ∧ Quiet s ∧ g.handler = false ∧
      (¬f.scope = 0)) ∧
    (∃ (f : FmtF) (s : State) (k : GKey) (g : Group), Issues (Instr.fenceAcq f) s k g ∧ Quiet s ∧ g.handler = false ∧ f.scope
      = 0) :=
  ⟨issues_all (by decide +kernel),
   ⟨⟨true,0,96,104,1⟩, (sF (gC capA [0,1])), key, (gC capA [0,1]), issues_of (by decide +kernel),
     by delta CleanSources; decide +kernel, by delta Allows; decide +kernel⟩,
   ⟨⟨false,0,0,0,2⟩, (sF (gCl capA)), key, (gCl capA), issues_of (by decide +kernel), by delta Forward; decide +kernel⟩,
   ⟨⟨true,0,96,104,3⟩, (sF (gC capA [0,1])), key, (gC capA [0,1]), issues_of (by decide +kernel),
     by delta CleanSources; decide +kernel, by delta Forward; decide +kernel, by delta Allows; decide +kernel⟩,
   ⟨⟨false,0,100,0,true,false⟩, (sF (gCl capA)), key, (gCl capA), issues_of (by decide +kernel),
     by delta Forward; decide +kernel⟩,
   ⟨⟨true,104,0,1,false,false⟩, (sF (gCl capA)), key, (gCl capA), (⟨1, 0x40000, 0, 0, 0, 0, 0, 0x5⟩), issues_of
     (by decide +kernel), by decide +kernel⟩,
   ⟨⟨false,1,0⟩, (sF (gSt 0)), key, (gSt 0), issues_of (by decide +kernel), by delta Quiet; decide +kernel,
     by decide +kernel⟩,
   ⟨⟨false,0,0⟩, (sF (gSt 0)), key, (gSt 0), issues_of (by decide +kernel), by delta Quiet; decide +kernel,
     by decide +kernel⟩⟩

/-- States that meet the hypotheses of O37. -/
theorem test_meets_FencesAndCacheControl_2 :
    (∃ (f : FmtF) (s : State) (k : GKey) (g : Group), Issues (Instr.fenceRel f) s k g ∧ Quiet s ∧ g.handler = false ∧ (f.scope
      = 0 ∨ Released s g)) ∧
    (∃ (f : FmtF) (s : State) (k : GKey) (g : Group), Issues (Instr.fenceRel f) s k g ∧ Quiet s ∧ g.handler = false ∧ f.scope
      ≠ 0 ∧ g.count Ctr.st ≠ 0) ∧
    (∃ (f : FmtF) (s : State) (k : GKey) (g : Group), Issues (Instr.fenceAr f) s k g ∧ Quiet s ∧ g.handler = false ∧ f.scope =
      0) ∧
    (∃ (f : FmtF) (s : State) (k : GKey) (g : Group), Issues (Instr.fenceAr f) s k g ∧ Quiet s ∧ g.handler = false ∧ f.scope ≠
      0 ∧ Released s g) ∧
    (∃ (f : FmtF) (s : State) (k : GKey) (g : Group), Issues (Instr.fenceAr f) s k g ∧ Quiet s ∧ g.handler = false ∧ f.scope ≠
      0 ∧ g.count Ctr.st ≠ 0) ∧
    (∃ (f : FmtF) (s : State) (k : GKey) (g : Group), Issues (Instr.fenceXpath f) s k g ∧ Quiet s ∧ g.handler = false ∧
      Released s g) ∧
    (∃ (f : FmtF) (s : State) (k : GKey) (g : Group), Issues (Instr.fenceXpath f) s k g ∧ Quiet s ∧ g.handler = false ∧
      g.count Ctr.st ≠ 0) :=
  ⟨⟨⟨false,0,1⟩, (sF (gSt 0)), key, (gSt 0), issues_of (by decide +kernel), by delta Quiet; decide +kernel, by decide +kernel,
    by delta Released; decide +kernel⟩,
   ⟨⟨false,1,1⟩, (sF (gSt 2)), key, (gSt 2), issues_of (by decide +kernel), by delta Quiet; decide +kernel,
     by decide +kernel⟩,
   ⟨⟨false,0,2⟩, (sF (gSt 0)), key, (gSt 0), issues_of (by decide +kernel), by delta Quiet; decide +kernel,
     by decide +kernel⟩,
   ⟨⟨false,1,2⟩, (sF (gSt 0)), key, (gSt 0), issues_of (by decide +kernel), by delta Quiet; decide +kernel, and2
     (by decide +kernel) (by delta Released; decide +kernel)⟩,
   ⟨⟨false,1,2⟩, (sF (gSt 2)), key, (gSt 2), issues_of (by decide +kernel), by delta Quiet; decide +kernel,
     by decide +kernel⟩,
   ⟨⟨false,0,3⟩, (sF (gSt 0)), key, (gSt 0), issues_of (by decide +kernel), by delta Quiet; decide +kernel, by decide +kernel,
     by delta Released; decide +kernel⟩,
   ⟨⟨false,0,3⟩, (sF (gSt 2)), key, (gSt 2), issues_of (by decide +kernel), by delta Quiet; decide +kernel,
     by decide +kernel⟩⟩

/-- States that meet the hypotheses of O38. -/
theorem test_meets_ForksAndWaitsForEngines :
    (∃ (f : FmtE) (s : State) (k : GKey) (g : Group), Issues (Instr.waitc f) s k g ∧ g.handler = false ∧ (¬g.count (counterOf
      f.cls).fst ≤ f.b.toNat)) ∧
    (∃ (f : FmtE) (s : State) (k : GKey) (g : Group), Issues (Instr.waitc f) s k g ∧ g.handler = false ∧ g.count (counterOf
      f.cls).fst ≤ f.b.toNat) ∧
    (∃ (f : FmtE) (s : State) (k : GKey) (g : Group), Issues (Instr.rdv f) s k g ∧ (¬bitsOf (g.slotStatus f.id.toNat) 0 8 =
      0)) ∧
    (∃ (f : FmtE) (s : State) (k : GKey) (g : Group), Issues (Instr.rdv f) s k g ∧ bitsOf (g.slotStatus f.id.toNat) 0 8 = 0) ∧
    (∃ (f : FmtE) (s : State) (k : GKey) (g : Group), Issues (Instr.rdvTest f) s k g ∧ g.redo = []) ∧
    (∃ (f : FmtE) (s : State) (k : GKey) (g : Group), Issues (Instr.forke f) s k g ∧ CleanSources (Instr.forke f) g ∧ Forward
      s g ∧ bitsOf (g.slotStatus f.id.toNat) 0 8 ≠ 0 ∧ (g.full (if f.cls = 1 then Ctr.ce else if f.cls = 2 then Ctr.ge else
      Ctr.ke) = false)) :=
  ⟨⟨⟨true,0,0,0,1⟩, (sF (gCnt .st 2)), key, (gCnt .st 2), issues_of (by decide +kernel), by decide +kernel⟩,
   ⟨⟨true,0,0,0,0⟩, (sF (gCnt .st 0)), key, (gCnt .st 0), issues_of (by decide +kernel), by decide +kernel⟩,
   ⟨⟨true,0,3,104,0⟩, (sF (gSl 3 1)), key, (gSl 3 1), issues_of (by decide +kernel), by decide +kernel⟩,
   ⟨⟨true,0,3,104,0⟩, (sF (gSl 3 0)), key, (gSl 3 0), issues_of (by decide +kernel), by decide +kernel⟩,
   ⟨⟨true,1,3,104,0⟩, (sF (gSl 3 0)), key, (gSl 3 0), issues_of (by decide +kernel), by decide +kernel⟩,
   ⟨⟨true,1,3,108,96⟩, (sF (gSl 3 1)), key, (gSl 3 1), issues_of (by decide +kernel), by delta CleanSources; decide +kernel,
     by delta Forward; decide +kernel, by decide +kernel⟩⟩

/-- States that meet the hypotheses of O39. -/
theorem test_meets_WaittObservesATarget :
    (∃ (f : FmtE) (s : State) (k : GKey) (g : Group) (key : Nat), Issues (Instr.waitt f) s k g ∧ CleanSources (Instr.waitt f)
      g ∧ Allows (capAt g none f.a) (capAt g none f.a).addr 8 rightR ∧ (capAt g none f.a).addr % 8 = 0 ∧ g.redo = [] ∧
      g.handler = false ∧ Mapped s (dieOfCore g.core) g.ctx (capAt g none f.a).addr (Access.mk false false false false) key ∧
      keyTier key ≤ 1 ∧ s.stalls none key 8 = false ∧ (¬(decide (BitVec.toNat (g.pair none f.b.toNat) ≤ s.mem.readNat key 8 %
      2 ^ 64) || g.word none (f.b.toNat + 2) == 0) = true)) ∧
    (∃ (f : FmtE) (s : State) (k : GKey) (g : Group) (key : Nat), Issues (Instr.waitt f) s k g ∧ CleanSources (Instr.waitt f)
      g ∧ Allows (capAt g none f.a) (capAt g none f.a).addr 8 rightR ∧ (capAt g none f.a).addr % 8 = 0 ∧ g.redo = [] ∧
      g.handler = false ∧ Mapped s (dieOfCore g.core) g.ctx (capAt g none f.a).addr (Access.mk false false false false) key ∧
      keyTier key ≤ 1 ∧ s.stalls none key 8 = false ∧ (decide (BitVec.toNat (g.pair none f.b.toNat) ≤ s.mem.readNat key 8 % 2
      ^ 64) || g.word none (f.b.toNat + 2) == 0) = true) ∧
    (∃ (f : FmtE) (s : State) (id : Nat) (e : Engine) (key : Nat), EngineIssues (Instr.waitt f) s id e ∧ CleanEngine e ∧
      Allows (Cap.ofVal (Val.mk (quadAt e.word f.a.toNat) (e.s.tag (f.a.toNat - 96)) false)) (Cap.ofVal (Val.mk (quadAt e.word
      f.a.toNat) (e.s.tag (f.a.toNat - 96)) false)).addr 8 rightR ∧ (Cap.ofVal (Val.mk (quadAt e.word f.a.toNat) (e.s.tag
      (f.a.toNat - 96)) false)).addr % 8 = 0 ∧ e.redo = [] ∧ Mapped s e.die e.ctx (Cap.ofVal (Val.mk (quadAt e.word f.a.toNat)
      (e.s.tag (f.a.toNat - 96)) false)).addr (Access.mk false false false false) key ∧ keyTier key ≤ 1 ∧ s.stalls none key 8
      = false) :=
  ⟨⟨⟨true,0,0,96,104⟩, (sT (gW 20015998343869 50 8)), key, (gW 20015998343869 50 8), 0x10000, issues_of (by decide +kernel),
    by delta CleanSources; decide +kernel, by delta Allows; decide +kernel, and3 (by decide +kernel)
    ⟨by delta Mapped; decide +kernel, by decide +kernel⟩⟩,
   ⟨⟨true,0,0,96,104⟩, (sT (gW 0 0 8)), key, (gW 0 0 8), 0x10000, issues_of (by decide +kernel),
     by delta CleanSources; decide +kernel, by delta Allows; decide +kernel, and3 (by decide +kernel)
     ⟨by delta Mapped; decide +kernel, by decide +kernel⟩⟩,
   ⟨⟨true,0,0,96,104⟩, (sW (eW .ce 0)), 5, (eW .ce 0), 0x10000, engineIssues_of (by decide +kernel), cleanEngine_of
     (by decide +kernel), by delta Allows; decide +kernel, and2 (by decide +kernel) ⟨by delta Mapped; decide +kernel,
     by decide +kernel⟩⟩⟩

/-- States that meet the hypotheses of O40. -/
theorem test_meets_CommandsAndCopiesStart :
    (∃ (f : FmtE) (s : State) (k : GKey) (g : Group), Issues (Instr.cpa f) s k g ∧ CleanSources (Instr.cpa f) g ∧ g.redo = []
      ∧ g.full Ctr.ce = false ∧ (copyArgs g f (f.cls.getLsbD 0) (f.cls.getLsbD 1)).fails (s.localLimits k.launch k.block) =
      none) ∧
    (∃ (f : FmtE) (s : State) (id : Nat) (e : Engine), EngineIssues (Instr.ecopy f) s id e ∧ CleanEngine e ∧ e.redo = [] ∧
      (engineArgs e f (f.cls.getLsbD 0) (f.cls.getLsbD 1)).fails (s.localLimits e.group.launch e.group.block) = none) ∧
    (∃ (f : FmtE) (s : State) (id : Nat) (e : Engine) (l : Launch), EngineIssues (Instr.emcast f) s id e ∧ CleanEngine e ∧
      e.redo = [] ∧ (engineArgs e f true (f.cls.getLsbD 0)).fails (s.localLimits e.group.launch e.group.block) = none ∧
      s.launch? e.group.launch = some l ∧ 0 < l.band) ∧
    (∃ (f : FmtE) (s : State) (id : Nat) (e : Engine), EngineIssues (Instr.esig f) s id e ∧ CleanEngine e ∧ e.redo = [] ∧
      Allows (Cap.ofVal (Val.mk (quadAt e.word f.a.toNat) (e.s.tag (f.a.toNat - 96)) false)) (Cap.ofVal (Val.mk (quadAt e.word
      f.a.toNat) (e.s.tag (f.a.toNat - 96)) false)).addr 8 (rightA ||| rightR ||| rightW) ∧ (Cap.ofVal (Val.mk (quadAt e.word
      f.a.toNat) (e.s.tag (f.a.toNat - 96)) false)).addr % 8 = 0 ∧ e.cmds = []) ∧
    (∃ (f : FmtM) (s : State) (k : GKey) (g : Group), Issues (Instr.mscFill f) s k g ∧ CleanSources (Instr.mscFill f) g ∧ (∀
      (j : Nat), j < 3 → g.runWrites none (f.d.toNat + j) = []) ∧ Forward s g ∧ g.count Ctr.ms < 63 ∧ (fun (x n : Nat) => n %
      4 == 0) (BitVec.toNat ((fun (j : Nat) => g.word none (f.d.toNat + j)) 0)) (BitVec.toNat ((fun (j : Nat) => g.word none
      (f.d.toNat + j)) 1)) = true ∧ Allows (capAt g none f.c) (capAt g none f.c).addr ((fun (x n : Nat) => (n, 0))
      (BitVec.toNat ((fun (j : Nat) => g.word none (f.d.toNat + j)) 0)) (BitVec.toNat ((fun (j : Nat) => g.word none
      (f.d.toNat + j)) 1))).fst rightM ∧ (capAt g none f.c).addr % 4 = 0 ∧ (0 ≠ 0 → Allows (capAt g none f.o) (capAt g none
      f.o).addr ((fun (x n : Nat) => (n, 0)) (BitVec.toNat ((fun (j : Nat) => g.word none (f.d.toNat + j)) 0)) (BitVec.toNat
      ((fun (j : Nat) => g.word none (f.d.toNat + j)) 1))).snd rightM ∧ (capAt g none f.o).addr % 4 = 0 ∧ rangesMeet (capAt g
      none f.c).addr ((fun (x n : Nat) => (n, 0)) (BitVec.toNat ((fun (j : Nat) => g.word none (f.d.toNat + j)) 0))
      (BitVec.toNat ((fun (j : Nat) => g.word none (f.d.toNat + j)) 1))).fst (capAt g none f.o).addr ((fun (x n : Nat) => (n,
      0)) (BitVec.toNat ((fun (j : Nat) => g.word none (f.d.toNat + j)) 0)) (BitVec.toNat ((fun (j : Nat) => g.word none
      (f.d.toNat + j)) 1))).snd = false)) ∧
    (∃ (f : FmtM) (s : State) (k : GKey) (g : Group), Issues (Instr.mscRdo f) s k g ∧ CleanSources (Instr.mscRdo f) g ∧ (∀ (j
      : Nat), j < 3 → g.runWrites none (f.d.toNat + j) = []) ∧ Forward s g ∧ g.count Ctr.ms < 63 ∧ (fun (x r : Nat) => r != 0
      && decide (r ≤ 65536)) (BitVec.toNat ((fun (j : Nat) => g.word none (f.d.toNat + j)) 0)) (BitVec.toNat ((fun (j : Nat)
      => g.word none (f.d.toNat + j)) 1)) = true ∧ Allows (capAt g none f.c) (capAt g none f.c).addr ((fun (n r : Nat) => (4 *
      n, 4 * n * r)) (BitVec.toNat ((fun (j : Nat) => g.word none (f.d.toNat + j)) 0)) (BitVec.toNat ((fun (j : Nat) => g.word
      none (f.d.toNat + j)) 1))).fst rightM ∧ (capAt g none f.c).addr % 4 = 0 ∧ (1 ≠ 0 → Allows (capAt g none f.o) (capAt g
      none f.o).addr ((fun (n r : Nat) => (4 * n, 4 * n * r)) (BitVec.toNat ((fun (j : Nat) => g.word none (f.d.toNat + j))
      0)) (BitVec.toNat ((fun (j : Nat) => g.word none (f.d.toNat + j)) 1))).snd rightM ∧ (capAt g none f.o).addr % 4 = 0 ∧
      rangesMeet (capAt g none f.c).addr ((fun (n r : Nat) => (4 * n, 4 * n * r)) (BitVec.toNat ((fun (j : Nat) => g.word none
      (f.d.toNat + j)) 0)) (BitVec.toNat ((fun (j : Nat) => g.word none (f.d.toNat + j)) 1))).fst (capAt g none f.o).addr
      ((fun (n r : Nat) => (4 * n, 4 * n * r)) (BitVec.toNat ((fun (j : Nat) => g.word none (f.d.toNat + j)) 0)) (BitVec.toNat
      ((fun (j : Nat) => g.word none (f.d.toNat + j)) 1))).snd = false)) ∧
    (∃ (f : FmtM) (s : State) (k : GKey) (g : Group), Issues (Instr.mscAxpy f) s k g ∧ CleanSources (Instr.mscAxpy f) g ∧ (∀
      (j : Nat), j < 3 → g.runWrites none (f.d.toNat + j) = []) ∧ Forward s g ∧ g.count Ctr.ms < 63 ∧ (fun (x x_1 : Nat) =>
      true) (BitVec.toNat ((fun (j : Nat) => g.word none (f.d.toNat + j)) 0)) (BitVec.toNat ((fun (j : Nat) => g.word none
      (f.d.toNat + j)) 1)) = true ∧ Allows (capAt g none f.c) (capAt g none f.c).addr ((fun (n x : Nat) => (4 * n, 4 * n))
      (BitVec.toNat ((fun (j : Nat) => g.word none (f.d.toNat + j)) 0)) (BitVec.toNat ((fun (j : Nat) => g.word none
      (f.d.toNat + j)) 1))).fst rightM ∧ (capAt g none f.c).addr % 4 = 0 ∧ (2 ≠ 0 → Allows (capAt g none f.o) (capAt g none
      f.o).addr ((fun (n x : Nat) => (4 * n, 4 * n)) (BitVec.toNat ((fun (j : Nat) => g.word none (f.d.toNat + j)) 0))
      (BitVec.toNat ((fun (j : Nat) => g.word none (f.d.toNat + j)) 1))).snd rightM ∧ (capAt g none f.o).addr % 4 = 0 ∧
      rangesMeet (capAt g none f.c).addr ((fun (n x : Nat) => (4 * n, 4 * n)) (BitVec.toNat ((fun (j : Nat) => g.word none
      (f.d.toNat + j)) 0)) (BitVec.toNat ((fun (j : Nat) => g.word none (f.d.toNat + j)) 1))).fst (capAt g none f.o).addr
      ((fun (n x : Nat) => (4 * n, 4 * n)) (BitVec.toNat ((fun (j : Nat) => g.word none (f.d.toNat + j)) 0)) (BitVec.toNat
      ((fun (j : Nat) => g.word none (f.d.toNat + j)) 1))).snd = false)) ∧
    (∃ (f : FmtM) (s : State) (k : GKey) (g : Group), Issues (Instr.mscCopy f) s k g ∧ CleanSources (Instr.mscCopy f) g ∧ (∀
      (j : Nat), j < 3 → g.runWrites none (f.d.toNat + j) = []) ∧ Forward s g ∧ g.count Ctr.ms < 63 ∧ (fun (x n : Nat) => n %
      4 == 0) (BitVec.toNat ((fun (j : Nat) => g.word none (f.d.toNat + j)) 0)) (BitVec.toNat ((fun (j : Nat) => g.word none
      (f.d.toNat + j)) 1)) = true ∧ Allows (capAt g none f.c) (capAt g none f.c).addr ((fun (x n : Nat) => (n, n))
      (BitVec.toNat ((fun (j : Nat) => g.word none (f.d.toNat + j)) 0)) (BitVec.toNat ((fun (j : Nat) => g.word none
      (f.d.toNat + j)) 1))).fst rightM ∧ (capAt g none f.c).addr % 4 = 0 ∧ (3 ≠ 0 → Allows (capAt g none f.o) (capAt g none
      f.o).addr ((fun (x n : Nat) => (n, n)) (BitVec.toNat ((fun (j : Nat) => g.word none (f.d.toNat + j)) 0)) (BitVec.toNat
      ((fun (j : Nat) => g.word none (f.d.toNat + j)) 1))).snd rightM ∧ (capAt g none f.o).addr % 4 = 0 ∧ rangesMeet (capAt g
      none f.c).addr ((fun (x n : Nat) => (n, n)) (BitVec.toNat ((fun (j : Nat) => g.word none (f.d.toNat + j)) 0))
      (BitVec.toNat ((fun (j : Nat) => g.word none (f.d.toNat + j)) 1))).fst (capAt g none f.o).addr ((fun (x n : Nat) => (n,
      n)) (BitVec.toNat ((fun (j : Nat) => g.word none (f.d.toNat + j)) 0)) (BitVec.toNat ((fun (j : Nat) => g.word none
      (f.d.toNat + j)) 1))).snd = false)) :=
  ⟨⟨⟨true,3,0,112,0⟩, (sF (gCp true true 16)), key, (gCp true true 16), issues_of (by decide +kernel),
    by delta CleanSources; decide +kernel, by decide +kernel⟩,
   ⟨⟨true,3,0,112,0⟩, (withProgram (eCp .ce true true 16)), 5, (eCp .ce true true 16), engineIssues_of (by decide +kernel),
     cleanEngine_of (by decide +kernel), by decide +kernel⟩,
   ⟨⟨true,1,0,112,0⟩, (withProgram (eCp .ke true true 16)), 5, (eCp .ke true true 16), launch, engineIssues_of
     (by decide +kernel), cleanEngine_of (by decide +kernel), by decide +kernel⟩,
   ⟨⟨true,0,0,120,104⟩, (withProgram (eCs .ce true true 7)), 5, (eCs .ce true true 7), engineIssues_of (by decide +kernel),
     cleanEngine_of (by decide +kernel), by decide +kernel, by delta Allows; decide +kernel, by decide +kernel⟩,
   ⟨⟨false,108,96,96,0⟩, (sF (gM [(12,5),(13,8),(14,3)])), key, (gM [(12,5),(13,8),(14,3)]), issues_of (by decide +kernel),
     by delta CleanSources; decide +kernel, by decide +kernel, by delta Forward; decide +kernel, and2 (by decide +kernel)
     ⟨by delta Allows; decide +kernel, by decide +kernel, by delta Allows; decide +kernel⟩⟩,
   ⟨⟨false,108,96,100,1⟩, (sF (gM [(12,5),(13,8),(14,3)])), key, (gM [(12,5),(13,8),(14,3)]), issues_of (by decide +kernel),
     by delta CleanSources; decide +kernel, by decide +kernel, by delta Forward; decide +kernel, and2 (by decide +kernel)
     ⟨by delta Allows; decide +kernel, by decide +kernel, by delta Allows; decide +kernel⟩⟩,
   ⟨⟨false,108,96,100,2⟩, (sF (gM [(12,5),(13,8),(14,3)])), key, (gM [(12,5),(13,8),(14,3)]), issues_of (by decide +kernel),
     by delta CleanSources; decide +kernel, by decide +kernel, by delta Forward; decide +kernel, and2 (by decide +kernel)
     ⟨by delta Allows; decide +kernel, by decide +kernel, by delta Allows; decide +kernel⟩⟩,
   ⟨⟨false,108,96,100,3⟩, (sF (gM [(12,5),(13,8),(14,3)])), key, (gM [(12,5),(13,8),(14,3)]), issues_of (by decide +kernel),
     by delta CleanSources; decide +kernel, by decide +kernel, by delta Forward; decide +kernel, and2 (by decide +kernel)
     ⟨by delta Allows; decide +kernel, by decide +kernel, by delta Allows; decide +kernel⟩⟩⟩

/-- States that meet the hypotheses of O41. -/
theorem test_meets_SoftWords :
    (∀ i ∈ ([.snorm Pm ⟨false,0,8,0,false,false⟩, .harden Pm ⟨false,0,8,0,false,false⟩] : List Instr), Issues i (sF (gB 1))
      key (gB 1)) ∧
    (∃ (p : Pfx) (f : FmtM) (s : State) (k : GKey) (g : Group) (n : Option Nat → Nat) (key : Option Nat → Nat) (key2 : Option
      Nat → Nat), Issues (Instr.sld p f) s k g ∧ CleanSources (Instr.sld p f) g ∧ Forward s g ∧ (g.issue (Instr.sld p
      f)).units ≠ [] ∧ (∀ (u : Option Nat), u ∈ (g.issue (Instr.sld p f)).units → SoftRegion (capAt g u f.c) (softK f.w) (n u)
      rightS ∧ RunReadable s g u f.o (n u) ∧ ∀ (c : BitVec 7), none = some c → SoftRegion (capAt g u c) (softK f.w) (n u) (if
      false = true then rightS ||| rightW else rightS)) ∧ (SoftOp.sld ≠ SoftOp.sld → s.writeWaits g = false) ∧ (∀ (a : Access
      × Access), some (Access.mk false false false false, Access.mk false false false false) = some a → s.slotsFull g.core =
      false ∧ ∀ (u : Option Nat), u ∈ (g.issue (Instr.sld p f)).units → Mapped s (dieOfCore g.core) g.ctx (capAt g u f.c).addr
      a.fst (key u) ∧ keyTier (key u) ≤ 1 ∧ s.pageLogged g.core g.ctx (capAt g u f.c).addr (4 * n u * softK f.w) = false ∧ ∀
      (c : BitVec 7), none = some c → Mapped s (dieOfCore g.core) g.ctx (capAt g u c).addr a.snd (key2 u) ∧ keyTier (key2 u) ≤
      1 ∧ s.pageLogged g.core g.ctx (capAt g u c).addr (4 * n u * softK f.w) = false)) ∧
    (∃ (p : Pfx) (f : FmtM) (s : State) (k : GKey) (g : Group) (n : Option Nat → Nat) (key : Option Nat → Nat) (key2 : Option
      Nat → Nat), Issues (Instr.sst p f) s k g ∧ CleanSources (Instr.sst p f) g ∧ Forward s g ∧ (g.issue (Instr.sst p
      f)).units ≠ [] ∧ (∀ (u : Option Nat), u ∈ (g.issue (Instr.sst p f)).units → SoftRegion (capAt g u f.c) (softK f.w) (n u)
      rightS ∧ RunReadable s g u f.o (n u) ∧ ∀ (c : BitVec 7), regionField p f.d = some c → SoftRegion (capAt g u c) (softK
      f.w) (n u) (if true = true then rightS ||| rightW else rightS)) ∧ (SoftOp.sst (bitOf f.w 2) ≠ SoftOp.sld → s.writeWaits
      g = false) ∧ (∀ (a : Access × Access), none = some a → s.slotsFull g.core = false ∧ ∀ (u : Option Nat), u ∈ (g.issue
      (Instr.sst p f)).units → Mapped s (dieOfCore g.core) g.ctx (capAt g u f.c).addr a.fst (key u) ∧ keyTier (key u) ≤ 1 ∧
      s.pageLogged g.core g.ctx (capAt g u f.c).addr (4 * n u * softK f.w) = false ∧ ∀ (c : BitVec 7), regionField p f.d =
      some c → Mapped s (dieOfCore g.core) g.ctx (capAt g u c).addr a.snd (key2 u) ∧ keyTier (key2 u) ≤ 1 ∧ s.pageLogged
      g.core g.ctx (capAt g u c).addr (4 * n u * softK f.w) = false)) ∧
    (∃ (p : Pfx) (f : FmtM) (s : State) (k : GKey) (g : Group) (n : Option Nat → Nat) (key : Option Nat → Nat) (key2 : Option
      Nat → Nat), Issues (Instr.sldg p f) s k g ∧ CleanSources (Instr.sldg p f) g ∧ Forward s g ∧ (g.issue (Instr.sldg p
      f)).units ≠ [] ∧ (∀ (u : Option Nat), u ∈ (g.issue (Instr.sldg p f)).units → SoftRegion (capAt g u f.c) (softK f.w) (n
      u) rightS ∧ RunReadable s g u f.o (n u) ∧ ∀ (c : BitVec 7), regionField p f.d = some c → SoftRegion (capAt g u c) (softK
      f.w) (n u) (if true = true then rightS ||| rightW else rightS)) ∧ (SoftOp.sldg ≠ SoftOp.sld → s.writeWaits g = false) ∧
      (∀ (a : Access × Access), some (Access.mk false false false false, Access.mk true false false false) = some a →
      s.slotsFull g.core = false ∧ ∀ (u : Option Nat), u ∈ (g.issue (Instr.sldg p f)).units → Mapped s (dieOfCore g.core)
      g.ctx (capAt g u f.c).addr a.fst (key u) ∧ keyTier (key u) ≤ 1 ∧ s.pageLogged g.core g.ctx (capAt g u f.c).addr (4 * n u
      * softK f.w) = false ∧ ∀ (c : BitVec 7), regionField p f.d = some c → Mapped s (dieOfCore g.core) g.ctx (capAt g u
      c).addr a.snd (key2 u) ∧ keyTier (key2 u) ≤ 1 ∧ s.pageLogged g.core g.ctx (capAt g u c).addr (4 * n u * softK f.w) =
      false)) ∧
    (∃ (p : Pfx) (f : FmtM) (s : State) (k : GKey) (g : Group) (n : Option Nat → Nat) (key : Option Nat → Nat) (key2 : Option
      Nat → Nat), Issues (Instr.sstg p f) s k g ∧ CleanSources (Instr.sstg p f) g ∧ Forward s g ∧ (g.issue (Instr.sstg p
      f)).units ≠ [] ∧ (∀ (u : Option Nat), u ∈ (g.issue (Instr.sstg p f)).units → SoftRegion (capAt g u f.c) (softK f.w) (n
      u) rightS ∧ RunReadable s g u f.o (n u) ∧ ∀ (c : BitVec 7), regionField p f.d = some c → SoftRegion (capAt g u c) (softK
      f.w) (n u) (if (!bitOf f.w 2) = true then rightS ||| rightW else rightS)) ∧ (SoftOp.sstg (bitOf f.w 2) ≠ SoftOp.sld →
      s.writeWaits g = false) ∧ (∀ (a : Access × Access), some (Access.mk false false false false, Access.mk (!bitOf f.w 2)
      false false false) = some a → s.slotsFull g.core = false ∧ ∀ (u : Option Nat), u ∈ (g.issue (Instr.sstg p f)).units →
      Mapped s (dieOfCore g.core) g.ctx (capAt g u f.c).addr a.fst (key u) ∧ keyTier (key u) ≤ 1 ∧ s.pageLogged g.core g.ctx
      (capAt g u f.c).addr (4 * n u * softK f.w) = false ∧ ∀ (c : BitVec 7), regionField p f.d = some c → Mapped s (dieOfCore
      g.core) g.ctx (capAt g u c).addr a.snd (key2 u) ∧ keyTier (key2 u) ≤ 1 ∧ s.pageLogged g.core g.ctx (capAt g u c).addr (4
      * n u * softK f.w) = false)) ∧
    (∃ (p : Pfx) (f : FmtRRR) (s : State) (k : GKey) (g : Group), Issues (Instr.sshift p f) s k g ∧ (∀ (u : Option Nat), u ∈
      (g.issue (Instr.sshift p f)).allUnits → RunWritable s g u f.d ((fun (u : Option Nat) => (bitsOf ((fun (u : Option Nat)
      => g.quad u f.b.toNat) u) 96 6).toNat + 1) u) ∧ RunReadable s g u f.a ((fun (u : Option Nat) => (bitsOf ((fun (u :
      Option Nat) => g.quad u f.b.toNat) u) 96 6).toNat + 1) u))) :=
  ⟨issues_all (by decide +kernel),
   ⟨none, ⟨false,0,20,8,0⟩, (sF (gSo 1 1)), key, (gSo 1 1), (fun _ => 1), (kf 1 1), (kf2 1 1), issues_of (by decide +kernel),
     by delta CleanSources; decide +kernel, by delta Forward; decide +kernel, by decide +kernel,
     by delta SoftRegion RunReadable; decide +kernel, by decide +kernel, by delta Mapped; decide +kernel⟩,
   ⟨none, ⟨false,0,20,8,0⟩, (sF (gSo 1 1)), key, (gSo 1 1), (fun _ => 1), (kf 1 1), (kf2 1 1), issues_of (by decide +kernel),
     by delta CleanSources; decide +kernel, by delta Forward; decide +kernel, by decide +kernel,
     by delta SoftRegion RunReadable; decide +kernel, by decide +kernel, by delta Mapped; decide +kernel⟩,
   ⟨(PR 24), ⟨false,0,20,8,0⟩, (sF (gSo 1 1)), key, (gSo 1 1), (fun _ => 1), (kf 1 1), (kf2 1 1), issues_of
     (by decide +kernel), by delta CleanSources; decide +kernel, by delta Forward; decide +kernel, by decide +kernel,
     by delta SoftRegion RunReadable; decide +kernel, by decide +kernel, by delta Mapped; decide +kernel⟩,
   ⟨(PR 24), ⟨false,0,20,8,0⟩, (sF (gSo 1 1)), key, (gSo 1 1), (fun _ => 1), (kf 1 1), (kf2 1 1), issues_of
     (by decide +kernel), by delta CleanSources; decide +kernel, by delta Forward; decide +kernel, by decide +kernel,
     by delta SoftRegion RunReadable; decide +kernel, by decide +kernel, by delta Mapped; decide +kernel⟩,
   ⟨Pm, ⟨false,0,8,112,false,true,true⟩, (sF (gB 1)), key, (gB 1), issues_of (by decide +kernel),
     by delta RunWritable RunReadable; decide +kernel⟩⟩

/-- States that meet the hypotheses of O42. -/
theorem test_meets_MatrixProducts :
    (∃ (s : State) (k : GKey) (g : Group) (n : Nat) (f : FmtMX) (tl : Tile), s.group? k = some g ∧ Quiet s ∧ f.pt = 0 ∧
      ProductReady s g n (Instr.mma f) (Passable s) (productRegs g f g.w 16) ∧ RowsServe g n f 16 ∧ ((s.sliceOf g (if f.ar =
      true then 1 else 0)).cur = some tl) ∧ f.af.toNat < 5 ∧ pairLegal tl.fmt f.af.toNat = true) ∧
    (∃ (s : State) (k : GKey) (g : Group) (n : Nat) (f : FmtMX) (rest : List SliceOp), s.group? k = some g ∧ Quiet s ∧ (g.cv
      n).op = some (Instr.mscl f) ∧ (g.cv n).queued = true ∧ ((s.sliceOf g (if f.ar = true then 1 else 0)).order =
      SliceOp.product k n :: rest) ∧ (∀ (o : SliceOp), o ∈ rest → o ≠ SliceOp.product k n) ∧ (∀ (o : SliceOp) (os : List
      SliceOp), rest = o :: os → Abides o) ∧ (∃ (pc : Word), ∀ (q : Nat × Word), q ∈ (g.cv n).signed → q.snd = pc) ∧ (List.map
      (fun (x : Nat × Word) => x.fst) (g.cv n).signed).Nodup ∧ (∀ (q : Nat × Word), q ∈ (g.cv n).signed → (g.reg? (some q.fst)
      f.a.toNat).isSome = true ∧ g.runWrites (some q.fst) f.a.toNat = [])) ∧
    (∃ (s : State) (k : GKey) (g : Group) (n : Nat) (f : FmtMX) (t0 : Tile) (t1 : Tile), s.group? k = some g ∧ Quiet s ∧ f.pt
      = 1 ∧ ProductReady s g n (Instr.mma f) (Passable s) (productRegs g f g.w 32) ∧ RowsServe g n f 32 ∧ (s.sliceOf g 0).cur
      = some t0 ∧ (s.sliceOf g 1).cur = some t1 ∧ t1.fmt = t0.fmt ∧ f.af.toNat < 5 ∧ pairLegal t0.fmt f.af.toNat = true) ∧
    (∃ (s : State) (k : GKey) (g : Group) (n : Nat) (f : FmtMX) (t0 : Tile) (t1 : Tile), s.group? k = some g ∧ Quiet s ∧
      f.pt.toNat < 3 ∧ g.collector = none ∧ (ProductReady s g n (Instr.mmaS f) (fun (o : SliceOp) => Passable s o ∧ ∀ (id :
      Nat), o ≠ SliceOp.mwl id) (productRegs g f g.w ((pattern f.pt).snd.snd + nibbleRegs f))) ∧ ((s.sliceOf g (if f.ar = true
      then 1 else 0)).cur = some t0) ∧ ((s.sliceOf g (if f.ar = true then 1 else 0)).shadow = some t1) ∧ t1.fmt = t0.fmt ∧
      f.af.toNat < 5 ∧ pairLegal t0.fmt f.af.toNat = true ∧ (∀ (q : Nat × Word), q ∈ (g.cv n).signed → ∀ (i : Nat), i <
      (pattern f.pt).snd.snd * 4 / actBytes f.af.toNat → nibbleOf g f q.fst i < (pattern f.pt).fst ∧ (i % (pattern
      f.pt).snd.fst ≠ 0 → nibbleOf g f q.fst (i - 1) < nibbleOf g f q.fst i))) ∧
    (∃ (s : State) (k : GKey) (g : Group) (n : Nat) (f : FmtMX) (tl : Tile), s.group? k = some g ∧ Quiet s ∧ g.collector =
      none ∧ f.ru = false ∧ g.w ≤ 32 ∧ (ProductReady s g n (Instr.mmaD f) (fun (o : SliceOp) => ∀ (id : Nat), o ≠
      SliceOp.mswap id ∧ o ≠ SliceOp.reload id) (regsFrom f.d.toNat (2 * g.w) ++ regsFrom f.a.toNat ((2 * g.w + 3) / 4) ++
      regsFrom (f.a.toNat + 16) ((2 * g.w + 3) / 4))) ∧ ((s.sliceOf g (if f.ar = true then 1 else 0)).cur = some tl) ∧
      tl.krows = g.w ∧ tl.cols = g.w ∧ tl.fmt = f.af.toNat ∧ tl.fmt ≤ 1) :=
  ⟨⟨(sMx (gMx true (some (.mma ⟨false,0,8,2,0,false,true,0⟩)) 0x92 [1,4,7]) 1 (some (tile 0 3 8 true)) none [.product key 2]),
    key, (gMx true (some (.mma ⟨false,0,8,2,0,false,true,0⟩)) 0x92 [1,4,7]), 2, ⟨false,0,8,2,0,false,true,0⟩, (tile 0 3 8
    true), by decide +kernel, by delta Quiet; decide +kernel, by decide +kernel, productReady_of 0 (by decide +kernel),
    by delta RowsServe; decide +kernel, by decide +kernel⟩,
   ⟨(sMx (gMx true (some (.mscl ⟨false,0,8,2,0,false,true,0⟩)) 0x92 [1,4,7]) 1 none none [.product key 2]), key, (gMx true
     (some (.mscl ⟨false,0,8,2,0,false,true,0⟩)) 0x92 [1,4,7]), 2, ⟨false,0,8,2,0,false,true,0⟩, [], by decide +kernel,
     by delta Quiet; decide +kernel, and4 (by decide +kernel) ⟨(fun _ _ h => by cases h), ⟨0, by decide +kernel⟩,
     by decide +kernel⟩⟩,
   ⟨(sMx2 (gMx true (some (.mma ⟨false,0,8,2,0,false,false,1⟩)) 0x92 [1,4,7]) (some (tile 0 3 8 true)) (some (tile 0 16 5
     true)) [.product key 2] [.product key 2]), key, (gMx true (some (.mma ⟨false,0,8,2,0,false,false,1⟩)) 0x92 [1,4,7]), 2,
     ⟨false,0,8,2,0,false,false,1⟩, (tile 0 3 8 true), (tile 0 16 5 true), by decide +kernel, by delta Quiet; decide +kernel,
     by decide +kernel, productReady_of 0 (by decide +kernel), by delta RowsServe; decide +kernel, by decide +kernel⟩,
   ⟨(sMx (gSp 0 true true (.mmaS ⟨false,0,8,2,0,false,true,0⟩) 0x92 [1,4,7]) 1 (some (tile 0 32 8 true)) (some (tile 0 16 5
     true)) [.product key 2]), key, (gSp 0 true true (.mmaS ⟨false,0,8,2,0,false,true,0⟩) 0x92 [1,4,7]), 2,
     ⟨false,0,8,2,0,false,true,0⟩, (tile 0 32 8 true), (tile 0 16 5 true), by decide +kernel, by delta Quiet; decide +kernel,
     and2 (by decide +kernel) ⟨productReady_of 0 (by decide +kernel), by decide +kernel⟩⟩,
   ⟨(sMx (gMx true (some (.mmaD ⟨false,0,16,2,0,false,true,0⟩)) 0x92 [1,4,7]) 1 (some (tile 0 8 8 true)) none [.product key
     2]), key, (gMx true (some (.mmaD ⟨false,0,16,2,0,false,true,0⟩)) 0x92 [1,4,7]), 2, ⟨false,0,16,2,0,false,true,0⟩, (tile 0
     8 8 true), by decide +kernel, by delta Quiet; decide +kernel, and3 (by decide +kernel) ⟨productReady_of 0
     (by decide +kernel), by decide +kernel⟩⟩⟩

/-- States that meet the hypotheses of O43. -/
theorem test_meets_TilesAndLatchWrites :
    (∃ (s : State) (g : Group) (b : Block) (m : MwlOp) (rest : List SliceOp), List.find? (fun (y : MwlOp) => y.id == m.id)
      s.mwls = some m ∧ s.group? m.group = some g ∧ g.core = m.core ∧ m.base = g.pos * g.w ∧ m.width = g.w ∧ m.reload = none ∧
      (∀ (id : Nat), id ∈ m.behind → (∀ (r : Req), r ∈ (s.core m.core).hold → r.id ≠ id) ∧ ∀ (i : Inflight), i ∈ s.inflight →
      i.id ≠ id) ∧ (tileHdr m.src.hdr1).src = 0 ∧ (tileHdr m.src.hdr1).t = false ∧ s.blockOf m.group = some b ∧ s.localTested
      m.core = false ∧ Quiet s ∧ (∀ (q : Nat × Nat), q ∈ (tileHdr m.src.hdr1).cells → ∃ (off : Nat), placeOf b m.core
      ((tileHdr m.src.hdr1).elemAddr (BitVec.toNat m.src.hdr0) q.fst q.snd) = Place.localMem off false) ∧ (s.sliceOf g
      m.arr).order = SliceOp.mwl m.id :: rest ∧ (∀ (o : SliceOp), o ∈ rest → o ≠ SliceOp.mwl m.id) ∧ (∀ (o : SliceOp) (os :
      List SliceOp), rest = o :: os → Abides o)) ∧
    (∃ (f : FmtMX) (s : State) (k : GKey) (g : Group), Issues (Instr.mwl f) s k g ∧ CleanSources (Instr.mwl f) g ∧ g.count
      Ctr.me < 63 ∧ ((tileHdr (g.word none (f.a.toNat + 1))).fmt = 5 → s.accepted 5 = true) ∧ badHeader (g.word none
      (f.a.toNat + 1)) g.w f.d = false ∧ ((tileHdr (g.word none (f.a.toNat + 1))).src = 1 → Allows (capAt g none f.d) (if
      (tileHdr (g.word none (f.a.toNat + 1))).src = 1 then ((capAt g none f.d).addr + BitVec.toNat (g.word none f.a.toNat)) %
      2 ^ 48 else BitVec.toNat (g.word none f.a.toNat)) ((tileHdr (g.word none (f.a.toNat + 1))).krows * (tileHdr (g.word none
      (f.a.toNat + 1))).cols * fmtBytes (tileHdr (g.word none (f.a.toNat + 1))).fmt) rightR ∧ (if (tileHdr (g.word none
      (f.a.toNat + 1))).src = 1 then ((capAt g none f.d).addr + BitVec.toNat (g.word none f.a.toNat)) % 2 ^ 48 else
      BitVec.toNat (g.word none f.a.toNat)) % 4 = 0) ∧ ((tileHdr (g.word none (f.a.toNat + 1))).src = 0 → ((if (tileHdr
      (g.word none (f.a.toNat + 1))).src = 1 then ((capAt g none f.d).addr + BitVec.toNat (g.word none f.a.toNat)) % 2 ^ 48
      else BitVec.toNat (g.word none f.a.toNat)) % if (tileHdr (g.word none (f.a.toNat + 1))).t = true then 1024 else 4) = 0 ∧
      ∀ (q : Nat × Nat), q ∈ (tileHdr (g.word none (f.a.toNat + 1))).cells → localOk (s.localLimits k.launch k.block).fst
      (s.localLimits k.launch k.block).snd ((tileHdr (g.word none (f.a.toNat + 1))).elemAddr (if (tileHdr (g.word none
      (f.a.toNat + 1))).src = 1 then ((capAt g none f.d).addr + BitVec.toNat (g.word none f.a.toNat)) % 2 ^ 48 else
      BitVec.toNat (g.word none f.a.toNat)) q.fst q.snd) (fmtBytes (tileHdr (g.word none (f.a.toNat + 1))).fmt) = true)) ∧
    (∃ (f : FmtMX) (s : State) (k : GKey) (g : Group), Issues (Instr.mswap f) s k g ∧ Quiet s) :=
  ⟨⟨(sLw 0 0x64 (hdr 0 1 1 0 false) []), ({ (gMx false none 0 []) with outst := [⟨.me,44,false,none⟩] }), (bkOf (sLw 0 0x64
    (hdr 0 1 1 0 false) [])), (mw 0 0x64 (hdr 0 1 1 0 false)), [], and6 (by decide +kernel) (and5 (by decide +kernel)
    ⟨by delta Quiet; decide +kernel, (fun q hq => place_of ((by decide +kernel : ∀ q ∈ (tileHdr ((mw 0 0x64 (hdr 0 1 1 0
    false))).src.hdr1).cells,
    (match placeOf ((bkOf (sLw 0 0x64 (hdr 0 1 1 0 false) []))) ((mw 0 0x64 (hdr 0 1 1 0 false))).core ((tileHdr ((mw 0 0x64 (hdr 0 1 1 0 false))).src.hdr1).elemAddr ((mw 0 0x64 (hdr 0 1 1 0 false))).src.hdr0.toNat q.1 q.2) with | .localMem _ f => f == false | _ => false)
    = true) q hq)), and2 (by decide +kernel) (fun _ _ h => by cases h)⟩)⟩,
   ⟨⟨false,0,120,0,0,false,true,0⟩, (sF (gMx false none 0 [] [(24,100),(25,hdr 0 1 1 0 false)])), key, (gMx false none 0 []
     [(24,100),(25,hdr 0 1 1 0 false)]), issues_of (by decide +kernel), by delta CleanSources; decide +kernel, and3
     (by decide +kernel) ⟨by delta Allows; decide +kernel, by decide +kernel⟩⟩,
   ⟨⟨false,0,0,0,0,false,true,0⟩, (sMx (gMx false none 0 []) 1 (some (tile 0 4 4 true)) (some (tile 1 4 4 true)) []), key,
     (gMx false none 0 []), issues_of (by decide +kernel), by delta Quiet; decide +kernel⟩⟩

/-- States that meet the hypotheses of O44. -/
theorem test_meets_BarriersParkAndRelease :
    (∃ (f : FmtE) (s : State) (k : GKey) (g : Group) (b : Block), Issues (Instr.bar f) s k g ∧ CleanSources (Instr.bar f) g ∧
      s.blockOf k = some b) ∧
    (∃ (f : FmtE) (s : State) (k : GKey) (g : Group) (l : Launch), Issues (Instr.tbar f) s k g ∧ s.launch? k.launch = some l ∧
      (∃ (y : TreeUse), y ∈ l.trees ∧ y.n = (if f.cls.getLsbD 0 = true then 16 else 0) + f.id.toNat)) ∧
    (∃ (s : State) (k : GKey) (g : Group) (b : BarKey) (amber : Bool) (pc : Word) (count : Option Word), s.group? k = some g ∧
      AllAt g b amber pc count ∧ g.pend = [] ∧ (∀ (r : Req), r ∈ (s.core g.core).hold → r.group ≠ k) ∧ (¬k ∈ (s.barState
      b).arrived) ∧ Forward s g) ∧
    (∃ (s : State) (k : GKey) (g : Group) (b : BarKey) (pc : Word) (count : Option Word) (op : PendOp), s.group? k = some g ∧
      AllAt g b false pc count ∧ g.pend = [op] ∧ op.instr = arrivalWord b false count.isSome ∧ g.count Ctr.st = 0 ∧ (∀ (y :
      Inflight), y ∈ s.inflight → ¬y.id ∈ op.acks) ∧ s.fabric.remote = [] ∧ g.fails = [] ∧ g.fabFails = [] ∧ (∀ (h : Group), h
      ∈ s.groups → h.key ≠ k → h.pend = []) ∧ (∀ (p : GKey × Nat × Nat), p ∈ (s.core g.core).left → p.fst = k → p.snd.fst ≠
      op.seq)) ∧
    (∃ (s : State) (b : BarKey), (∀ (l n : Nat), b ≠ BarKey.tree l n) ∧ (s.barState b).arrived ≠ [] ∧ (s.barState b).count =
      none ∧ Still s ∧ (∀ (h : Group), h ∈ s.groups → s.participates b h.key = true → h.key ∈ (s.barState b).arrived) ∧ (∀ (k
      : GKey), k ∈ (s.barState b).arrived → ∀ (g : Group), s.group? k = some g → ∃ (amber : Bool), ∃ (pc : Word), ∃ (count :
      Option Word), AllAt g b amber pc count)) ∧
    (∃ (s : State) (id : Nat) (n : Nat) (l : Launch) (y : TreeUse), s.launch? id = some l ∧ l.state = LaunchState.running ∧
      l.pendingBands = [] ∧ s.fbdOf id n = none ∧ s.tree? id n = some y ∧ y.arrived ≠ [] ∧ Still s ∧ (∀ (h : Group), h ∈
      s.groups → h.key.launch = id → h.key ∈ y.arrived) ∧ (∀ (k : GKey), k ∈ y.arrived → ∀ (g : Group), s.group? k = some g →
      ∃ (amber : Bool), ∃ (pc : Word), ∃ (count : Option Word), AllAt g (BarKey.tree id n) amber pc count)) :=
  ⟨⟨⟨true,0,0,0,0⟩, (sF (gO 2 0)), key, (gO 2 0), (bkOf (sF (gO 2 0))), issues_of (by decide +kernel),
    by delta CleanSources; decide +kernel, by decide +kernel⟩,
   ⟨⟨true,0,3,0,0⟩, (gTr (sF live8)), key, live8, (laOf (gTr (sF live8))), issues_of (by decide +kernel), by decide +kernel⟩,
   ⟨(sP (gP (.tree 1 3) true 8 none) [] (.tree 1 3) []), key, (gP (.tree 1 3) true 8 none), (.tree 1 3), true, 8, none,
     by decide +kernel, by delta AllAt; decide +kernel, and3 (by decide +kernel) (by delta Forward; decide +kernel)⟩,
   ⟨(sP (gP (.tree 1 3) false 8 none [opB (.tree 1 3) false none [7]]) [] (.tree 1 3) []), key, (gP (.tree 1 3) false 8 none
     [opB (.tree 1 3) false none [7]]), (.tree 1 3), 8, none, (opB (.tree 1 3) false none [7]), by decide +kernel,
     by delta AllAt; decide +kernel, by decide +kernel⟩,
   ⟨(sP (gP (.band 1 0 6) false 8 none) [key] (.band 1 0 6)), (.band 1 0 6), (fun _ _ h => by cases h), and2
     (by decide +kernel) ⟨by delta Still; decide +kernel, by decide +kernel, ofGroups fun k hk g hg => ⟨false, 8, none,
     by revert k g; delta AllAt; decide +kernel⟩⟩⟩,
   ⟨(sP (gP (.tree 1 3) false 8 none) [key] (.tree 1 3)), 1, 3, (laOf (sP (gP (.tree 1 3) false 8 none) [key] (.tree 1 3))),
     (trOf 3 [key]), and6 (by decide +kernel) ⟨by delta Still; decide +kernel, by decide +kernel, ofGroups fun k hk g hg =>
     ⟨false, 8, none, by revert k g; delta AllAt; decide +kernel⟩⟩⟩⟩

/-- States that meet the hypotheses of O45. -/
theorem test_meets_BarrierObjects :
    (∃ (f : FmtE) (s : State) (k : GKey) (g : Group) (b : Block) (off : Nat), Issues (Instr.baroInit f) s k g ∧ CleanSources
      (Instr.baroInit f) g ∧ Still s ∧ ObjectAt s k (BitVec.toNat (g.word none f.a.toNat)) ∧ 1 ≤ BitVec.toNat (g.word none
      f.b.toNat) ∧ BitVec.toNat (g.word none f.b.toNat) ≤ 65535 ∧ s.blockOf k = some b ∧ s.localTested g.core = false ∧
      placeOf b g.core (BitVec.toNat (g.word none f.a.toNat)) = Place.localMem off false) ∧
    (∃ (f : FmtE) (s : State) (k : GKey) (g : Group), Issues (Instr.baroArrive f) s k g ∧ CleanSources (Instr.baroArrive f) g
      ∧ Forward s g ∧ Quiet s ∧ g.fails = [] ∧ ObjectAt s k (BitVec.toNat (g.word none f.a.toNat))) ∧
    (∃ (f : FmtE) (s : State) (k : GKey) (g : Group), Issues (Instr.baroAw f) s k g ∧ CleanSources (Instr.baroAw f) g ∧
      Forward s g ∧ Quiet s ∧ g.fails = [] ∧ ObjectAt s k (BitVec.toNat (g.word none f.a.toNat))) ∧
    (∃ (f : FmtE) (s : State) (k : GKey) (g : Group) (b : Block) (off : Nat), Issues (Instr.baroWait f) s k g ∧ CleanSources
      (Instr.baroWait f) g ∧ Quiet s ∧ g.handler = false ∧ ObjectAt s k (BitVec.toNat (g.word none f.a.toNat)) ∧ s.blockOf k =
      some b ∧ s.localTested g.core = false ∧ placeOf b g.core (BitVec.toNat (g.word none f.a.toNat)) = Place.localMem off
      false ∧ (¬bytesNat (List.map (fun (j : Nat) => cellsRead b.mem.cells (off + j)) (List.range 4)) = BitVec.toNat (g.word
      none f.b.toNat))) ∧
    (∃ (f : FmtE) (s : State) (k : GKey) (g : Group) (b : Block) (off : Nat), Issues (Instr.baroWait f) s k g ∧ CleanSources
      (Instr.baroWait f) g ∧ Quiet s ∧ g.handler = false ∧ ObjectAt s k (BitVec.toNat (g.word none f.a.toNat)) ∧ s.blockOf k =
      some b ∧ s.localTested g.core = false ∧ placeOf b g.core (BitVec.toNat (g.word none f.a.toNat)) = Place.localMem off
      false ∧ bytesNat (List.map (fun (j : Nat) => cellsRead b.mem.cells (off + j)) (List.range 4)) = BitVec.toNat (g.word
      none f.b.toNat)) :=
  ⟨⟨⟨true,0,0,120,121⟩, (dLoc (gO 0 1) false), key, (gO 0 1), (bkOf (dLoc (gO 0 1) false)), 0, issues_of (by decide +kernel),
    by delta CleanSources; decide +kernel, by delta Still; decide +kernel, by delta ObjectAt; decide +kernel,
    by decide +kernel⟩,
   ⟨⟨true,1,0,120,124⟩, (dLoc (gO 0 1 0) false), key, (gO 0 1 0), issues_of (by decide +kernel),
     by delta CleanSources; decide +kernel, by delta Forward; decide +kernel, by delta Quiet; decide +kernel,
     by decide +kernel, by delta ObjectAt; decide +kernel⟩,
   ⟨⟨true,3,0,120,0⟩, (dLoc (gO 0 1 0) false), key, (gO 0 1 0), issues_of (by decide +kernel),
     by delta CleanSources; decide +kernel, by delta Forward; decide +kernel, by delta Quiet; decide +kernel,
     by decide +kernel, by delta ObjectAt; decide +kernel⟩,
   ⟨⟨true,2,0,120,121⟩, (dLoc (gO 0 (0)) false), key, (gO 0 (0)), (bkOf (dLoc (gO 0 (0)) false)), 0, issues_of
     (by decide +kernel), by delta CleanSources; decide +kernel, by delta Quiet; decide +kernel, by decide +kernel,
     by delta ObjectAt; decide +kernel, by decide +kernel⟩,
   ⟨⟨true,2,0,120,121⟩, (dLoc (gO 4080 (0)) false), key, (gO 4080 (0)), (bkOf (dLoc (gO 4080 (0)) false)), 4080, issues_of
     (by decide +kernel), by delta CleanSources; decide +kernel, by delta Quiet; decide +kernel, by decide +kernel,
     by delta ObjectAt; decide +kernel, by decide +kernel⟩⟩

/-- States that meet the hypotheses of O46. -/
theorem test_meets_ReductionUnitWords :
    (∃ (f : FmtE) (s : State) (k : GKey) (g : Group) (b : Band), Issues (Instr.credInit f) s k g ∧ CleanSources
      (Instr.credInit f) g ∧ Forward s g ∧ g.count Ctr.ke < 63 ∧ s.bandOf k = some b ∧ b.cru = true ∧ 1 ≤ BitVec.toNat (g.word
      none f.a.toNat) ∧ BitVec.toNat (g.word none f.a.toNat) ≤ 64) ∧
    (∃ (f : FmtE) (s : State) (k : GKey) (g : Group) (b : Band), Issues (Instr.credTri f) s k g ∧ CleanSources (Instr.credTri
      f) g ∧ Forward s g ∧ SourceFresh g f.b ∧ g.count Ctr.ke < 63 ∧ s.bandOf k = some b ∧ b.cru = true ∧ (∀ (j : Nat), j <
      g.w → ∀ (y : Lane), g.lane? j = some y → y.status ≠ LaneStatus.free → (g.reg? (some j) f.b.toNat).isSome = true)) ∧
    (∃ (f : FmtE) (s : State) (k : GKey) (g : Group) (b : Band), Issues (Instr.credSum f) s k g ∧ CleanSources (Instr.credSum
      f) g ∧ Forward s g ∧ SourceFresh g f.b ∧ g.count Ctr.ke < 63 ∧ s.bandOf k = some b ∧ b.cru = true ∧ (∀ (j : Nat), j <
      g.w → ∀ (y : Lane), g.lane? j = some y → y.status ≠ LaneStatus.free → (g.reg? (some j) f.b.toNat).isSome = true)) ∧
    (∃ (f : FmtE) (s : State) (k : GKey) (g : Group) (b : Band), Issues (Instr.credGet f) s k g ∧ s.bandOf k = some b ∧ b.cru
      = true ∧ g.redo = [] ∧ g.handler = false ∧ (b.slot f.id.toNat).complete = true ∧ s.credUnderway k = false ∧ s.testing 10
      b.cluster = false) ∧
    (∃ (s : State) (r : HomeReq) (f : FmtE) (b : Band) (args : List Reg) (lanes : List (Nat × Reg)), List.find? (fun (y :
      HomeReq) => y.id == r.id && decide (256 ≤ y.home)) s.homes = some r ∧ List.find? (fun (y : HomeReq) => y.home == r.home
      && y.group == r.group) s.homes = some r ∧ r.body = ReqBody.unit (Instr.credInit f) args lanes ∧ s.bandOf r.group = some
      b ∧ Quiet s ∧ ((b.slots.any fun (y : CruSlot) => y.id == f.id.toNat) = true)) ∧
    (∃ (s : State) (r : HomeReq) (f : FmtE) (b : Band) (args : List Reg) (lanes : List (Nat × Reg)) (c : Contrib), List.find?
      (fun (q : HomeReq) => q.id == r.id && decide (256 ≤ q.home)) s.homes = some r ∧ List.find? (fun (q : HomeReq) => q.home
      == r.home && q.group == r.group) s.homes = some r ∧ r.body = ReqBody.unit (Instr.credTri f) args lanes ∧ s.bandOf
      r.group = some b ∧ Quiet s ∧ ((b.slots.any fun (q : CruSlot) => q.id == f.id.toNat) = true) ∧ b.buffered = [] ∧ (b.slot
      f.id.toNat).complete = false ∧ (b.slot f.id.toNat).mode ≠ some true ∧ c.slot = f.id.toNat ∧ c.k = BitVec.toNat
      (args[2]?.getD (Reg.mk 0 false)).val ∧ c.sum = false ∧ c.m = args[0]?.getD (Reg.mk 0 false) ∧ c.l = args[1]?.getD
      (Reg.mk 0 false) ∧ c.acc = List.map (fun (x : Nat × Reg) => x.snd) lanes ∧ c.k = (b.slot f.id.toNat).merged ∧ c.k <
      (b.slot f.id.toNat).n ∧ (¬c.k ∈ (b.slot f.id.toNat).received)) :=
  ⟨⟨⟨true,0,2,120,0⟩, (sB (gK 2 1) [] []), key, (gK 2 1), (bnOf (sB (gK 2 1) [] [])), issues_of (by decide +kernel),
    by delta CleanSources; decide +kernel, by delta Forward; decide +kernel, by decide +kernel⟩,
   ⟨⟨true,1,2,120,9⟩, (sB (gK 0) [] []), key, (gK 0), (bnOf (sB (gK 0) [] [])), issues_of (by decide +kernel),
     by delta CleanSources; decide +kernel, by delta Forward; decide +kernel, (fun _ => runWrites_nil (by decide +kernel) _
     _), by decide +kernel⟩,
   ⟨⟨true,2,2,120,9⟩, (sB (gK 0) [] []), key, (gK 0), (bnOf (sB (gK 0) [] [])), issues_of (by decide +kernel),
     by delta CleanSources; decide +kernel, by delta Forward; decide +kernel, (fun _ => runWrites_nil (by decide +kernel) _
     _), by decide +kernel⟩,
   ⟨⟨true,3,2,120,9⟩, (sB (gK 0) [slot 5 3 3 true true none,slot 2 4 4 true true (some true)] []), key, (gK 0), (bnOf (sB (gK
     0) [slot 5 3 3 true true none,slot 2 4 4 true true (some true)] [])), issues_of (by decide +kernel), by decide +kernel⟩,
   ⟨(sHq (.credInit ⟨true,0,2,120,0⟩) [⟨1,false⟩] [] [slot 2 4 3 false true (some true)]), (hqr (.credInit ⟨true,0,2,120,0⟩)
     [⟨1,false⟩] []), ⟨true,0,2,120,0⟩, (bnOf (sHq (.credInit ⟨true,0,2,120,0⟩) [⟨1,false⟩] [] [slot 2 4 3 false true (some
     true)])), [⟨1,false⟩], [], and4 (by decide +kernel) ⟨by delta Quiet; decide +kernel, by decide +kernel⟩⟩,
   ⟨(sHq (.credTri ⟨true,1,2,120,9⟩) [⟨0x3F000000,false⟩,⟨0x3F400000,false⟩,⟨0,false⟩] ((List.range 8).map fun j => (j,
     ⟨BitVec.ofNat 32 (0x3F000000+j*0x110000),false⟩)) [slot 2 4 0 false false none]), (hqr (.credTri ⟨true,1,2,120,9⟩)
     [⟨0x3F000000,false⟩,⟨0x3F400000,false⟩,⟨0,false⟩] ((List.range 8).map fun j => (j, ⟨BitVec.ofNat 32
     (0x3F000000+j*0x110000),false⟩))), ⟨true,1,2,120,9⟩, (bnOf (sHq (.credTri ⟨true,1,2,120,9⟩)
     [⟨0x3F000000,false⟩,⟨0x3F400000,false⟩,⟨0,false⟩] ((List.range 8).map fun j => (j, ⟨BitVec.ofNat 32
     (0x3F000000+j*0x110000),false⟩)) [slot 2 4 0 false false none])), [⟨0x3F000000,false⟩,⟨0x3F400000,false⟩,⟨0,false⟩],
     (((List.range 8).map fun j => (j, ⟨BitVec.ofNat 32 (0x3F000000+j*0x110000),false⟩))),
     (⟨2,0,false,⟨0x3F000000,false⟩,⟨0x3F400000,false⟩,((List.range 8).map fun j => (j, ⟨BitVec.ofNat 32
     (0x3F000000+j*0x110000),false⟩)).map (·.2)⟩), and4 (by decide +kernel) ⟨by delta Quiet; decide +kernel,
     by decide +kernel⟩⟩⟩

/-- States that meet the hypotheses of O47. -/
theorem test_meets_QueuedUnitWords_1 :
    (∃ (f : FmtE) (s : State) (k : GKey) (g : Group), Issues (Instr.cqPush f) s k g ∧ Forward s g ∧ GuardClean (g.issue
      (Instr.cqPush f)) g f.id.toNat ∧ (∀ (u : Option Nat), u ∈ (g.issue (Instr.cqPush f)).units → ∀ (r : Reg), g.reg? u
      f.a.toNat = some r → r.poison = false)) ∧
    (∃ (f : FmtE) (s : State) (k : GKey) (g : Group), Issues (Instr.cqPop f) s k g ∧ Forward s g) ∧
    (∃ (f : FmtE) (s : State) (k : GKey) (g : Group), Issues (Instr.cqReset f) s k g ∧ Forward s g) ∧
    (∃ (f : FmtE) (s : State) (k : GKey) (g : Group) (b : Band), Issues (Instr.cqCount f) s k g ∧ g.redo = [] ∧ s.bandOf k =
      some b) ∧
    (∃ (f : FmtE) (s : State) (id : Nat) (e : Engine) (key : Nat), EngineIssues (Instr.egkvLd f) s id e ∧ CleanEngine e ∧
      e.redo = [] ∧ Allows (Cap.ofVal (Val.mk (quadAt e.word f.a.toNat) (e.s.tag (f.a.toNat - 96)) false)) (Cap.ofVal (Val.mk
      (quadAt e.word f.a.toNat) (e.s.tag (f.a.toNat - 96)) false)).addr 32 (rightR ||| rightM) ∧ (Cap.ofVal (Val.mk (quadAt
      e.word f.a.toNat) (e.s.tag (f.a.toNat - 96)) false)).addr % 32 = 0 ∧ Mapped s e.die e.ctx (Cap.ofVal (Val.mk (quadAt
      e.word f.a.toNat) (e.s.tag (f.a.toNat - 96)) false)).addr (Access.mk false false false false) key ∧ keyTier key ≤ 1 ∧
      s.stalls none key 32 = false ∧ s.mem.poisonedN key 32 = false ∧ (SeqDesc.ofBytes (List.map (fun (j : Nat) => s.mem.read
      (key + j)) (List.range 32))).ok = true ∧ (GatherForm.ld ≠ GatherForm.purge → ∃ (y : KeySlot), s.liveKey (SeqDesc.ofBytes
      (List.map (fun (j : Nat) => s.mem.read (key + j)) (List.range 32))) e.ctx = some y) ∧ ((fun (s : State) (e : Engine) (q
      : SeqDesc) (first n a : Nat) => RowsOk s e q n a ∧ first + n ≤ q.ntok) s e (SeqDesc.ofBytes (List.map (fun (j : Nat) =>
      s.mem.read (key + j)) (List.range 32))) (BitVec.toNat (e.word (f.a.toNat + 4))) (BitVec.toNat (e.word (f.a.toNat + 5)))
      (BitVec.toNat (e.word (f.a.toNat + 6)))) ∧ (f.id.getLsbD 0 = true → Allows (Cap.ofVal (Val.mk (quadAt e.word f.b.toNat)
      (e.s.tag (f.b.toNat - 96)) false)) (Cap.ofVal (Val.mk (quadAt e.word f.b.toNat) (e.s.tag (f.b.toNat - 96)) false)).addr
      8 (rightA ||| rightR ||| rightW) ∧ (Cap.ofVal (Val.mk (quadAt e.word f.b.toNat) (e.s.tag (f.b.toNat - 96)) false)).addr
      % 8 = 0)) ∧
    (∃ (f : FmtE) (s : State) (id : Nat) (e : Engine) (key : Nat), EngineIssues (Instr.egkvLdx f) s id e ∧ CleanEngine e ∧
      e.redo = [] ∧ Allows (Cap.ofVal (Val.mk (quadAt e.word f.a.toNat) (e.s.tag (f.a.toNat - 96)) false)) (Cap.ofVal (Val.mk
      (quadAt e.word f.a.toNat) (e.s.tag (f.a.toNat - 96)) false)).addr 32 (rightR ||| rightM) ∧ (Cap.ofVal (Val.mk (quadAt
      e.word f.a.toNat) (e.s.tag (f.a.toNat - 96)) false)).addr % 32 = 0 ∧ Mapped s e.die e.ctx (Cap.ofVal (Val.mk (quadAt
      e.word f.a.toNat) (e.s.tag (f.a.toNat - 96)) false)).addr (Access.mk false false false false) key ∧ keyTier key ≤ 1 ∧
      s.stalls none key 32 = false ∧ s.mem.poisonedN key 32 = false ∧ (SeqDesc.ofBytes (List.map (fun (j : Nat) => s.mem.read
      (key + j)) (List.range 32))).ok = true ∧ (GatherForm.ldx ≠ GatherForm.purge → ∃ (y : KeySlot), s.liveKey
      (SeqDesc.ofBytes (List.map (fun (j : Nat) => s.mem.read (key + j)) (List.range 32))) e.ctx = some y) ∧ ((fun (s : State)
      (e : Engine) (q : SeqDesc) (first n a : Nat) => RowsOk s e q n a ∧ first % 4 = 0 ∧ EngineLocal s e first (4 * n)) s e
      (SeqDesc.ofBytes (List.map (fun (j : Nat) => s.mem.read (key + j)) (List.range 32))) (BitVec.toNat (e.word (f.a.toNat +
      4))) (BitVec.toNat (e.word (f.a.toNat + 5))) (BitVec.toNat (e.word (f.a.toNat + 6)))) ∧ (f.id.getLsbD 0 = true → Allows
      (Cap.ofVal (Val.mk (quadAt e.word f.b.toNat) (e.s.tag (f.b.toNat - 96)) false)) (Cap.ofVal (Val.mk (quadAt e.word
      f.b.toNat) (e.s.tag (f.b.toNat - 96)) false)).addr 8 (rightA ||| rightR ||| rightW) ∧ (Cap.ofVal (Val.mk (quadAt e.word
      f.b.toNat) (e.s.tag (f.b.toNat - 96)) false)).addr % 8 = 0)) ∧
    (∃ (f : FmtE) (s : State) (id : Nat) (e : Engine) (key : Nat), EngineIssues (Instr.egkvSt f) s id e ∧ CleanEngine e ∧
      e.redo = [] ∧ Allows (Cap.ofVal (Val.mk (quadAt e.word f.a.toNat) (e.s.tag (f.a.toNat - 96)) false)) (Cap.ofVal (Val.mk
      (quadAt e.word f.a.toNat) (e.s.tag (f.a.toNat - 96)) false)).addr 32 (rightR ||| rightM) ∧ (Cap.ofVal (Val.mk (quadAt
      e.word f.a.toNat) (e.s.tag (f.a.toNat - 96)) false)).addr % 32 = 0 ∧ Mapped s e.die e.ctx (Cap.ofVal (Val.mk (quadAt
      e.word f.a.toNat) (e.s.tag (f.a.toNat - 96)) false)).addr (Access.mk false false false false) key ∧ keyTier key ≤ 1 ∧
      s.stalls none key 32 = false ∧ s.mem.poisonedN key 32 = false ∧ (SeqDesc.ofBytes (List.map (fun (j : Nat) => s.mem.read
      (key + j)) (List.range 32))).ok = true ∧ (GatherForm.st ≠ GatherForm.purge → ∃ (y : KeySlot), s.liveKey (SeqDesc.ofBytes
      (List.map (fun (j : Nat) => s.mem.read (key + j)) (List.range 32))) e.ctx = some y) ∧ ((fun (s : State) (e : Engine) (q
      : SeqDesc) (first n a : Nat) => RowsOk s e q n a ∧ first + n ≤ 16 * q.nblk) s e (SeqDesc.ofBytes (List.map (fun (j :
      Nat) => s.mem.read (key + j)) (List.range 32))) (BitVec.toNat (e.word (f.a.toNat + 4))) (BitVec.toNat (e.word (f.a.toNat
      + 5))) (BitVec.toNat (e.word (f.a.toNat + 6)))) ∧ (f.id.getLsbD 0 = true → Allows (Cap.ofVal (Val.mk (quadAt e.word
      f.b.toNat) (e.s.tag (f.b.toNat - 96)) false)) (Cap.ofVal (Val.mk (quadAt e.word f.b.toNat) (e.s.tag (f.b.toNat - 96))
      false)).addr 8 (rightA ||| rightR ||| rightW) ∧ (Cap.ofVal (Val.mk (quadAt e.word f.b.toNat) (e.s.tag (f.b.toNat - 96))
      false)).addr % 8 = 0)) ∧
    (∃ (f : FmtE) (s : State) (id : Nat) (e : Engine) (key : Nat), EngineIssues (Instr.egkvPurge f) s id e ∧ CleanEngine e ∧
      e.redo = [] ∧ Allows (Cap.ofVal (Val.mk (quadAt e.word f.a.toNat) (e.s.tag (f.a.toNat - 96)) false)) (Cap.ofVal (Val.mk
      (quadAt e.word f.a.toNat) (e.s.tag (f.a.toNat - 96)) false)).addr 32 (rightR ||| rightM) ∧ (Cap.ofVal (Val.mk (quadAt
      e.word f.a.toNat) (e.s.tag (f.a.toNat - 96)) false)).addr % 32 = 0 ∧ Mapped s e.die e.ctx (Cap.ofVal (Val.mk (quadAt
      e.word f.a.toNat) (e.s.tag (f.a.toNat - 96)) false)).addr (Access.mk false false false false) key ∧ keyTier key ≤ 1 ∧
      s.stalls none key 32 = false ∧ s.mem.poisonedN key 32 = false ∧ (SeqDesc.ofBytes (List.map (fun (j : Nat) => s.mem.read
      (key + j)) (List.range 32))).ok = true ∧ (GatherForm.purge ≠ GatherForm.purge → ∃ (y : KeySlot), s.liveKey
      (SeqDesc.ofBytes (List.map (fun (j : Nat) => s.mem.read (key + j)) (List.range 32))) e.ctx = some y) ∧ (fun (x : State)
      (x_1 : Engine) (x_2 : SeqDesc) (x_3 x_4 x_5 : Nat) => True) s e (SeqDesc.ofBytes (List.map (fun (j : Nat) => s.mem.read
      (key + j)) (List.range 32))) (BitVec.toNat (e.word (f.a.toNat + 4))) (BitVec.toNat (e.word (f.a.toNat + 5)))
      (BitVec.toNat (e.word (f.a.toNat + 6))) ∧ (f.id.getLsbD 0 = true → Allows (Cap.ofVal (Val.mk (quadAt e.word f.b.toNat)
      (e.s.tag (f.b.toNat - 96)) false)) (Cap.ofVal (Val.mk (quadAt e.word f.b.toNat) (e.s.tag (f.b.toNat - 96)) false)).addr
      8 (rightA ||| rightR ||| rightW) ∧ (Cap.ofVal (Val.mk (quadAt e.word f.b.toNat) (e.s.tag (f.b.toNat - 96)) false)).addr
      % 8 = 0)) :=
  ⟨⟨⟨true,0,0,9,0⟩, (sB (live8) [] [⟨1,false⟩,⟨2,false⟩]), key, live8, issues_of (by decide +kernel),
    by delta Forward; decide +kernel, by delta GuardClean; decide +kernel, by decide +kernel⟩,
   ⟨⟨true,1,0,9,120⟩, (sB (live8) [] [⟨1,false⟩,⟨2,false⟩]), key, live8, issues_of (by decide +kernel),
     by delta Forward; decide +kernel⟩,
   ⟨⟨true,2,0,0,0⟩, (sB (live8) [] [⟨1,false⟩,⟨2,false⟩]), key, live8, issues_of (by decide +kernel),
     by delta Forward; decide +kernel⟩,
   ⟨⟨true,3,0,0,120⟩, (sB (gK 2) [] [⟨1,false⟩,⟨2,false⟩]), key, (gK 2), (bnOf (sB (gK 2) [] [⟨1,false⟩,⟨2,false⟩])),
     issues_of (by decide +kernel), by decide +kernel⟩,
   ⟨⟨true,0,0,112,0⟩, (sG (eG .ge 0 3 256)), 5, (eG .ge 0 3 256), 0x10100, engineIssues_of (by decide +kernel), cleanEngine_of
     (by decide +kernel), by decide +kernel, by delta Allows; decide +kernel, by decide +kernel,
     by delta Mapped; decide +kernel, and4 (by decide +kernel) ⟨(fun _ => Option.isSome_iff_exists.1 (by decide +kernel)),
     by delta RowsOk; delta EngineLocal; decide +kernel, by delta Allows; decide +kernel⟩⟩,
   ⟨⟨true,1,0,112,0⟩, (sG (eG .ge 0 3 256)), 5, (eG .ge 0 3 256), 0x10100, engineIssues_of (by decide +kernel), cleanEngine_of
     (by decide +kernel), by decide +kernel, by delta Allows; decide +kernel, by decide +kernel,
     by delta Mapped; decide +kernel, and4 (by decide +kernel) ⟨(fun _ => Option.isSome_iff_exists.1 (by decide +kernel)),
     by delta RowsOk EngineLocal; decide +kernel, by delta Allows; decide +kernel⟩⟩,
   ⟨⟨true,2,0,112,0⟩, (sG (eG .ge 0 3 256)), 5, (eG .ge 0 3 256), 0x10100, engineIssues_of (by decide +kernel), cleanEngine_of
     (by decide +kernel), by decide +kernel, by delta Allows; decide +kernel, by decide +kernel,
     by delta Mapped; decide +kernel, and4 (by decide +kernel) ⟨(fun _ => Option.isSome_iff_exists.1 (by decide +kernel)),
     by delta RowsOk; delta EngineLocal; decide +kernel, by delta Allows; decide +kernel⟩⟩,
   ⟨⟨true,3,0,112,0⟩, (sG (eG .ge 0 3 256)), 5, (eG .ge 0 3 256), 0x10100, engineIssues_of (by decide +kernel), cleanEngine_of
     (by decide +kernel), by decide +kernel, by delta Allows; decide +kernel, by decide +kernel,
     by delta Mapped; decide +kernel, and4 (by decide +kernel) ⟨(fun h => absurd rfl h), trivial,
     by delta Allows; decide +kernel⟩⟩⟩

/-- States that meet the hypotheses of O47. -/
theorem test_meets_QueuedUnitWords_2 :
    (∃ (f : FmtE) (s : State) (k : GKey) (g : Group), Issues (Instr.lnch f) s k g ∧ CleanSources (Instr.lnch f) g ∧ Forward s
      g ∧ Allows (capAt g none f.a) (capAt g none f.a).addr 64 (rightR ||| rightM) ∧ (capAt g none f.a).addr % 64 = 0) ∧
    (∃ (f : FmtE) (s : State) (k : GKey) (g : Group), Issues (Instr.seqend f) s k g ∧ CleanSources (Instr.seqend f) g ∧
      Forward s g ∧ Allows (capAt g none f.a) (capAt g none f.a).addr 32 (rightR ||| rightM) ∧ (capAt g none f.a).addr % 32 =
      0) :=
  ⟨⟨⟨true,0,0,112,104⟩, (sF2 (live8 (q4 16 (capQ 0x10040 64)) [4])), key, (live8 (q4 16 (capQ 0x10040 64)) [4]), issues_of
    (by decide +kernel), by delta CleanSources; decide +kernel, by delta Forward; decide +kernel,
    by delta Allows; decide +kernel, by decide +kernel⟩,
   ⟨⟨true,0,0,112,104⟩, (sF2 (live8 (q4 16 (capQ 0x10040 64)) [4])), key, (live8 (q4 16 (capQ 0x10040 64)) [4]), issues_of
     (by decide +kernel), by delta CleanSources; decide +kernel, by delta Forward; decide +kernel,
     by delta Allows; decide +kernel, by decide +kernel⟩⟩

/-- States that meet the hypotheses of O48. -/
theorem test_meets_MergeOfSortedStreams :
    (∃ (union : Bool) (dup : Bool) (cap : Nat) (xs : List MergeElem) (ys : List MergeElem), Sorted xs ∧ Sorted ys ∧ (∀ (n :
      Nat), withKey xs n ≠ none ∨ withKey ys n ≠ none → n < 2 ^ 32) ∧ xs.length + ys.length ≤ cap) ∧
    (∃ (f : FmtE) (s : State) (id : Nat) (e : Engine) (b : Block) (xs : List MergeElem) (ys : List MergeElem), EngineIssues
      (Instr.emerge f) s id e ∧ CleanEngine e ∧ f.id.getLsbD 0 = false ∧ s.blockOf e.group = some b ∧ Still s ∧ NoWaitt s ∧ (∀
      (j : Nat), j = 0 ∨ j = 2 ∨ j = 4 → EngineLocal s e ((fun (k : Nat) => BitVec.toNat (e.word (f.a.toNat + k))) j) (8 *
      (fun (k : Nat) => BitVec.toNat (e.word (f.a.toNat + k))) (j + 1)) ∧ (fun (k : Nat) => BitVec.toNat (e.word (f.a.toNat +
      k))) j % 8 = 0 ∧ ((fun (k : Nat) => BitVec.toNat (e.word (f.a.toNat + k))) j).testBit 31 = false) ∧ s.mergeStream b
      e.core ((fun (k : Nat) => BitVec.toNat (e.word (f.a.toNat + k))) 0) ((fun (k : Nat) => BitVec.toNat (e.word (f.a.toNat +
      k))) 1) = some xs ∧ s.mergeStream b e.core ((fun (k : Nat) => BitVec.toNat (e.word (f.a.toNat + k))) 2) ((fun (k : Nat)
      => BitVec.toNat (e.word (f.a.toNat + k))) 3) = some ys ∧ (mergeRun (f.cls == 1) (f.id.getLsbD 1) ((fun (k : Nat) =>
      BitVec.toNat (e.word (f.a.toNat + k))) 5) (mergeMeets ((fun (k : Nat) => BitVec.toNat (e.word (f.a.toNat + k))) 0) ((fun
      (k : Nat) => BitVec.toNat (e.word (f.a.toNat + k))) 1) ((fun (k : Nat) => BitVec.toNat (e.word (f.a.toNat + k))) 4))
      (mergeMeets ((fun (k : Nat) => BitVec.toNat (e.word (f.a.toNat + k))) 2) ((fun (k : Nat) => BitVec.toNat (e.word
      (f.a.toNat + k))) 3) ((fun (k : Nat) => BitVec.toNat (e.word (f.a.toNat + k))) 4)) (xs.length + ys.length + 1) 0 0 xs ys
      []).code = 1) :=
  ⟨⟨true, true, 8, (els []), (els []), by delta Sorted; decide +kernel, by delta Sorted; decide +kernel, (fun _ h => h.elim
    (fun a => absurd rfl a) (fun a => absurd rfl a)), by decide +kernel⟩,
   ⟨⟨true,1,2,112,0⟩, (sMg (eMg .ge 0 0 8) [] []), 5, (eMg .ge 0 0 8), (bkOf (sMg (eMg .ge 0 0 8) [] [])), (els []), (els []),
     engineIssues_of (by decide +kernel), cleanEngine_of (by decide +kernel), and2 (by decide +kernel)
     ⟨by delta Still; decide +kernel, by delta NoWaitt; decide +kernel,
     by rintro j (rfl | rfl | rfl) <;> delta EngineLocal <;> decide +kernel, by decide +kernel⟩⟩⟩

/-- States that meet the hypotheses of O49. -/
theorem test_meets_RegisterWritesAndHostAccesses_1 :
    (∃ (s : State) (v : BitVec 64), s.dev.bstate = 4 ∧ s.dev.locked = false ∧ Quiet s) ∧
    (∃ (s : State) (n : Nat) (v : BitVec 64), Answering s ∧ n < 32) ∧
    (∃ (s : State) (v : BitVec 64), Quiet s ∧ s.dev.pwr ≠ 3 ∧ bitOf v 8 = false) ∧
    (∃ (s : State) (v : BitVec 64) (l : Launch), Quiet s ∧ bitOf v 8 = true ∧ s.dev.pwr = 0 ∧ (bitsOf v 0 2).toNat ≠ 0 ∧
      s.cp.launches = [l] ∧ l.state = LaunchState.running ∧ l.replayDue = false ∧ s.finished l = false ∧ s.saveFits l = true) ∧
    (∃ (s : State) (v : BitVec 64), Answering s ∧ Quiet s) ∧
    (∃ (s : State) (d : List Byte), Answering s ∧ Quiet s ∧ 4 ≤ s.dev.bstate) ∧
    (∃ (s : State) (a : HostAccess), Answering s ∧ Quiet s ∧ NoWaitt s ∧ a.aperture = 1 ∧ inTier 0 a.addr a.size = true ∧
      a.write = false) ∧
    (∃ (s : State) (a : HostAccess), Answering s ∧ Quiet s ∧ NoWaitt s ∧ a.aperture = 1 ∧ inTier 0 a.addr a.size = true ∧
      a.write = true ∧ a.data.length = a.size ∧ 0 < a.size) :=
  ⟨⟨(off d0), 0, and2 (by decide +kernel) (by delta Quiet; decide +kernel)⟩,
   ⟨d0, 0, 0, by delta Answering; decide +kernel, by decide +kernel⟩,
   ⟨d0, 0, by delta Quiet; decide +kernel, by decide +kernel⟩,
   ⟨(sv d0), 257, (laOf d0), by delta Quiet; decide +kernel, by decide +kernel⟩,
   ⟨d0, 0, by delta Answering; decide +kernel, by delta Quiet; decide +kernel⟩,
   ⟨d0, [], by delta Answering; decide +kernel, by delta Quiet; decide +kernel, by decide +kernel⟩,
   ⟨d0, ⟨1,0,8,false,[]⟩, by delta Answering; decide +kernel, by delta Quiet; decide +kernel,
     by delta NoWaitt; decide +kernel, by decide +kernel⟩,
   ⟨d0, (⟨1,0,8,true,(List.range 8).map rnd⟩), by delta Answering; decide +kernel, by delta Quiet; decide +kernel,
     by delta NoWaitt; decide +kernel, by decide +kernel⟩⟩

/-- States that meet the hypotheses of O49. -/
theorem test_meets_RegisterWritesAndHostAccesses_2 :
    (∃ (s : State) (v : BitVec 32), s.dev.bstate = 5 ∧ s.dev.pwr ≠ 3 ∧ Quiet s ∧ s.dev.eviction = none ∧ bitOf v 31 = true ∧
      bitsOf v 25 6 = 0 ∧ bitsOf v 21 3 = 0 ∧ bitsOf v 12 4 = 0 ∧ (bitsOf v 16 5).toNat ≤ 20) ∧
    (∃ (s : State) (q : Nat) (v : BitVec 64), s.dev.bstate = 5 ∧ q < 64 ∧ (s.queue q).src = false) ∧
    (∃ (s : State) (q : Nat) (v : BitVec 64), s.dev.bstate = 5 ∧ q < 64) ∧
    (∃ (s : State) (die : Nat) (n : Nat) (lim : Bool) (v : BitVec 64), Answering s ∧ die < s.dies.length ∧ die < 4 ∧ n < 8) :=
  ⟨⟨d0, 2147483648, and2 (by decide +kernel) ⟨by delta Quiet; decide +kernel, by decide +kernel⟩⟩,
   ⟨(qs 0 0 0), 5, 0, by decide +kernel⟩,
   ⟨(qs 0 0 0), 5, 0, by decide +kernel⟩,
   ⟨d0, 0, 0, true, 0, by delta Answering; decide +kernel, by decide +kernel⟩⟩

/-- States that meet the hypotheses of O50. -/
theorem test_meets_DriverCommands_1 :
    (∃ (s : State), Commanded s 1 ∧ Quiet s ∧ operand s 0 ≤ 2047 ∧ operand s 1 % 2 ^ 18 = 0 ∧ inTier 0 (operand s 1) (2 ^ 18)
      = true ∧ areaOk (operand s 2) (operand s 3) = true ∧ areaOk (operand s 4) (operand s 5) = true ∧ operand s 6 % 8192 = 0
      ∧ inTier 0 (operand s 6) 8192 = true) ∧
    (∃ (s : State), Commanded s 2 ∧ operand s 0 ≤ 2047) ∧
    (∃ (s : State), Commanded s 3 ∧ operand s 0 ≤ 4095 ∧ operand s 1 ≤ 2047 ∧ operand s 2 < 2 ^ 32) ∧
    (∃ (s : State), Commanded s 4 ∧ Quiet s ∧ operand s 0 ≤ 4095) ∧
    (∃ (s : State), Commanded s 5 ∧ Quiet s ∧ NoWaitt s ∧ operand s 0 ≤ 2047 ∧ operand s 1 ≤ 4095) ∧
    (∃ (s : State), Commanded s 5 ∧ Quiet s ∧ NoWaitt s ∧ operand s 0 ≤ 2047 ∧ operand s 1 ≤ 4095) ∧
    (∃ (s : State) (l : Launch), Commanded s 6 ∧ Quiet s ∧ s.launch? (operand s 0) = some l ∧ l.state = LaunchState.running ∧
      l.replayDue = false ∧ s.finished l = false ∧ s.saveFits l = true) ∧
    (∃ (s : State), Commanded s 262 ∧ (∀ (l : Launch), s.launch? (operand s 0) = some l → l.state ≠ LaunchState.draining)) :=
  ⟨⟨(cmd d0 1 [1,0x40000,0x100000,0x10000,0x200000,0x10000,0x8000]), by delta Commanded; decide +kernel,
    by delta Quiet; decide +kernel, by decide +kernel⟩,
   ⟨(cmd d0 2 [1]), by delta Commanded; decide +kernel, by decide +kernel⟩,
   ⟨(cmd (keys [⟨7,false,1,0x31,0,0,[]⟩] d0) 3 [7,1,68]), by delta Commanded; decide +kernel, by decide +kernel⟩,
   ⟨(cmd (keys [⟨7,true,1,0x31,5,6,[]⟩] d0) 4 [7]), by delta Commanded; decide +kernel, by delta Quiet; decide +kernel,
     by decide +kernel⟩,
   ⟨(cmd (nodes [nodeR ⟨1,0⟩ .waiting none, nodeR ⟨1,6⟩ .waiting none] d0) 5 [1,0]), by delta Commanded; decide +kernel,
     by delta Quiet; decide +kernel, by delta NoWaitt; decide +kernel, by decide +kernel⟩,
   ⟨(cmd (nodes [nodeR ⟨1,0⟩ .waiting none, nodeR ⟨1,6⟩ .waiting none] d0) 5 [1,0]), by delta Commanded; decide +kernel,
     by delta Quiet; decide +kernel, by delta NoWaitt; decide +kernel, by decide +kernel⟩,
   ⟨(cmd (sv d0) 6 [1]), (laOf d0), by delta Commanded; decide +kernel, by delta Quiet; decide +kernel, by decide +kernel⟩,
   ⟨(cmd d0 262 [1]), by delta Commanded; decide +kernel, by decide +kernel⟩⟩

/-- States that meet the hypotheses of O50. -/
theorem test_meets_DriverCommands_2 :
    (∃ (s : State), Commanded s 7 ∧ operand s 0 ≤ 2047 ∧ operand s 1 < 2 ^ 48 ∧ operand s 2 ≤ 1) ∧
    (∃ (s : State) (port : Nat), port < s.dies.length ∧ (∀ (g : Group), g ∈ s.groups → ∀ (p : PendOp), p ∈ g.pend → p.id ≠ 2 ^
      34) ∧ port ∈ s.cp.invalAcks) ∧
    (∃ (s : State) (k : GKey) (g : Group) (op : PendOp) (port : Nat) (f : FmtM), s.group? k = some g ∧ g.pend = [op] ∧ port ∈
      op.acks ∧ op.lanes ≠ 0 ∧ op.ready = false ∧ op.dst = [] ∧ (∀ (h : Group), h ∈ s.groups → h.key ≠ k → h.pend = []) ∧ port
      < s.dies.length ∧ g.redo = [] ∧ op.instr = Instr.cctlInvpt f) ∧
    (∃ (s : State) (k : GKey) (g : Group) (op : PendOp) (port : Nat) (f : FmtRM), s.group? k = some g ∧ g.pend = [op] ∧ port ∈
      op.acks ∧ op.lanes ≠ 0 ∧ op.ready = false ∧ op.dst = [] ∧ (∀ (h : Group), h ∈ s.groups → h.key ≠ k → h.pend = []) ∧ port
      < s.dies.length ∧ g.redo = [] ∧ op.instr = Instr.pkrSet f) ∧
    (∃ (s : State) (core : Nat) (id : Nat) (y : Gather), List.find? (fun (g : Gather) => g.id == id && g.acks.contains core)
      s.gathers = some y) ∧
    (∃ (s : State) (core : Nat) (r : Retire), Quiet s ∧ (∀ (g : Gather), g ∈ s.gathers → g.id ≠ r.id) ∧ List.find? (fun (y :
      Retire) => y.id == r.id && y.purging && y.acks.contains core) s.cp.retires = some r) :=
  ⟨⟨(cmd d0 7 [1,0x10000,0]), by delta Commanded; decide +kernel, by decide +kernel⟩,
   ⟨(cmd (wcp (tb2 d0) fun c => ({ c with invalAcks := [2] } : CmdProc)) 263 [1,0,1]), 2, by decide +kernel⟩,
   ⟨(tb2 (sF2 (gI (.cctlInvpt ⟨false,0,0,0,2⟩) [2]))), key, (gI (.cctlInvpt ⟨false,0,0,0,2⟩) [2]), (opI (.cctlInvpt
     ⟨false,0,0,0,2⟩) [2]), 2, ⟨false,0,0,0,2⟩, by decide +kernel⟩,
   ⟨(tb2 (sF2 (gI (.pkrSet ⟨false,0,104,0,false,false⟩) [2]))), key, (gI (.pkrSet ⟨false,0,104,0,false,false⟩) [2]), (opI
     (.pkrSet ⟨false,0,104,0,false,false⟩) [2]), 2, ⟨false,0,104,0,false,false⟩, by decide +kernel⟩,
   ⟨(withGath [2]), 2, 6, (gath [2]), by decide +kernel⟩,
   ⟨(withRet [2] none), 2, (retire [2] none), by delta Quiet; decide +kernel, by decide +kernel⟩⟩

/-- States that meet the hypotheses of O51. -/
theorem test_meets_BootAndPower :
    (∃ (s : State) (fw : Firmware), s.dev.bstate ≠ 1) ∧
    (∃ (s : State) (ok : Bool), s.dev.bstate = 2) ∧
    (∃ (s : State) (lanes : Nat), s.dev.bstate = 3) ∧
    (∃ (s : State), s.dev.pwrPend = true ∧ s.dev.attStatus ≠ 1 ∧ (s.dev.pwr = 0 → s.runningLaunches = []) ∧ Quiet s) ∧
    (∃ (s : State), s.dev.attStatus ≠ 1) ∧
    (∃ (s : State), s.dev.attStatus = 1) ∧
    (∃ (s : State) (reached : Bool), s.dev.attStatus = 1) ∧
    (∃ (s : State) (fw : Firmware), s.dev.bstate = 1) :=
  ⟨⟨(wdev d0 fun d => ({ d with bstate := 5, fuses := 2, attIndex := 77 } : DevRegs)), fwOk, by decide +kernel⟩,
   ⟨({ bs 2 d0 with repair := { d0.repair with cores := [3], clusters := [17,0] } }), true, by decide +kernel⟩,
   ⟨(bs 3 d0), 21, by decide +kernel⟩,
   ⟨(wdev (noG d0) fun d => ({ d with pwrPend := true, pwrReq := 0, pwr := 0 } : DevRegs)), and3 (by decide +kernel)
     (by delta Quiet; decide +kernel)⟩,
   ⟨(wdev d0 fun d => ({ d with attIndex := 0, attStatus := 0 } : DevRegs)), by decide +kernel⟩,
   ⟨(wdev d0 fun d => ({ d with attIndex := 0, attStatus := 1 } : DevRegs)), by decide +kernel⟩,
   ⟨(wdev d0 fun d => ({ d with attIndex := 5, attStatus := 1, attReport := [1,2,3] } : DevRegs)), true, by decide +kernel⟩,
   ⟨(bs 1 d0), fwOk, by decide +kernel⟩⟩

/-- States that meet the hypotheses of O52. -/
theorem test_meets_QueuesAndNodes :
    (∃ (s : State) (n : Node) (key : Nat), s.node? n.key = some n ∧ n.state = NodeState.effectDone ∧ n.launch.bind s.launch? =
      none ∧ n.succs.Nodup ∧ (¬n.key ∈ n.succs) ∧ Quiet s ∧ NoWaitt s ∧ (recToken n.record ≠ 0 → TokenAt s 0 n.key.ctx
      (recToken n.record) key (Access.mk false true false false))) ∧
    (∃ (s : State) (n : Node) (l : Launch), s.node? n.key = some n ∧ n.state = NodeState.running ∧ n.op = 1 ∧ n.launch = some
      l.id ∧ s.launch? l.id = some l ∧ s.launchDone l = true ∧ recToken n.record = 0 ∧ Quiet s ∧ NoWaitt s) ∧
    (∃ (s : State) (q : Nat) (key : Nat), s.nextAccept = some q ∧ s.dev.eviction = none ∧ OnePage ((s.queue q).recordAddr
      (s.queue q).head) 64 ∧ Mapped s 0 (s.queue q).ctx ((s.queue q).recordAddr (s.queue q).head) (Access.mk false false false
      false) key ∧ keyTier key ≤ 1 ∧ s.stalls none key 64 = false ∧ (∀ (j : Nat), j < 64 → s.mem.poisoned (key + j) = false) ∧
      s.recordRefused (BitVec.ofNat 512 (bytesNat (List.map (fun (j : Nat) => s.mem.read (key + j)) (List.range 64))))
      (s.queue q).ctx false = false ∧ (∀ (o : Word × Nat × Bool), o ∈ (s.queue q).owners → o.fst ≠ (s.queue q).head)) ∧
    (∃ (s : State) (n : Node), StartsNext s n 4) ∧
    (∃ (s : State) (n : Node) (key : Nat), (StartsNext s n 5 ∨ s.node? n.key = some n ∧ n.op = 5 ∧ n.state = NodeState.running
      ∧ ∀ (m : Node), m ∈ s.cp.nodes → m.key = n.key → m = n) ∧ TokenAt s 0 n.key.ctx (recBytes n.record 32 8) key (Access.mk
      false false false false)) ∧
    (∃ (s : State) (n : Node), StartsNext s n 2 ∧ recBytes n.record 32 8 % 16 = 0 ∧ recBytes n.record 40 8 % 16 = 0 ∧
      rangesMeet (recBytes n.record 32 8) (recBytes n.record 48 8) (recBytes n.record 40 8) (recBytes n.record 48 8) = false) ∧
    (∃ (s : State) (n : Node), StartsNext s n 3 ∧ recBytes n.record 32 8 % 4 = 0 ∧ recBytes n.record 40 8 % 4 = 0 ∧ (recBytes
      n.record 48 4 % 4 ≠ 0 → rangesMeet (recBytes n.record 32 8) (mscExtents (recBytes n.record 48 4 % 4) (recBytes n.record
      52 4) (recBytes n.record 56 4)).fst (recBytes n.record 40 8) (mscExtents (recBytes n.record 48 4 % 4) (recBytes n.record
      52 4) (recBytes n.record 56 4)).snd = false)) :=
  ⟨⟨(withN [node 0x12 (rec [(0,hd 4 0x12 0 false [] 0),(24,0)]) .effectDone 3 5 none [⟨1,0x20⟩,⟨1,0x21⟩,⟨1,0x22⟩,⟨1,0x99⟩],
    node 0x20 0 .waiting 0 5 none [] 1, node 0x21 0 .waiting 0 5 none [] 2, node 0x22 0 .running 0 5 none [] 1]), (node 0x12
    (rec [(0,hd 4 0x12 0 false [] 0),(24,0)]) .effectDone 3 5 none [⟨1,0x20⟩,⟨1,0x21⟩,⟨1,0x22⟩,⟨1,0x99⟩]), 0x10100, and5
    (by decide +kernel) ⟨by delta Quiet; decide +kernel, by delta NoWaitt; decide +kernel,
    by delta TokenAt; delta Mapped; decide +kernel⟩⟩,
   ⟨({ (noLa (withN ({ n1 7 with state := .running } :: others))) with cp := { (withN ({ n1 7 with state := .running } ::
     others)).cp with launches := [{ laP 16 with pendingBands := [], node := ⟨1,0x16⟩ }], wires := [(3,7),(4,8)] } }), ({ n1 7
     with state := .running }), ({ laP 16 with pendingBands := [], node := ⟨1,0x16⟩ }), and6 (by decide +kernel)
     ⟨by decide +kernel, by delta Quiet; decide +kernel, by delta NoWaitt; decide +kernel⟩⟩,
   ⟨(memR (qset (withN others) 9 3 65 67 none) 0x30040 (rec [(0, hd 4 0x55 0 false [] 0),(24,0)])), 9, 0x30040, and2
     (by decide +kernel) ⟨by delta OnePage; decide +kernel, by delta Mapped; decide +kernel, by decide +kernel⟩⟩,
   ⟨(withN (n4 .ready :: others)), (n4 .ready), by delta StartsNext; decide +kernel⟩,
   ⟨(withN (node 0x13 (r5 0) .ready :: others)), (node 0x13 (r5 0) .ready), 0x10100, by delta StartsNext; decide +kernel,
     by delta TokenAt; delta Mapped; decide +kernel⟩,
   ⟨(withN (node 0x14 r2 .ready :: others)), (node 0x14 r2 .ready), by delta StartsNext; decide +kernel, by decide +kernel⟩,
   ⟨(withN (node 0x15 (r3 0 0) .ready :: others)), (node 0x15 (r3 0 0) .ready), by delta StartsNext; decide +kernel,
     by decide +kernel⟩⟩

/-- States that meet the hypotheses of O53. -/
theorem test_meets_LaunchesArePlaced :
    (∃ (s : State) (p : PlacePlan) (c : Context) (n : Node) (id : Nat) (d : LaunchDesc) (ranges : List RangeEntry) (args :
      List Byte), StartsNext s n 1 ∧ p.node = n.key ∧ n.launch = some id ∧ s.launch? id = none ∧ Quiet s ∧ NoWaitt s ∧ Placing
      s p c (newLaunch n id (s.die 0).clock 1 (some 1) d ranges p p.wires [] (s.prioOf n)) false (recTrees n.record) ∧
      s.readLaunch n id = (LaunchRead.ok d ranges [] args, s) ∧ (∀ (r : RangeEntry), r ∈ ranges → r.filled = false) ∧
      s.accepted 8 = false) ∧
    (∃ (s : State) (l : Launch) (band : Nat) (q : Seat) (cluster : Nat), s.launch? l.id = some l ∧ s.dev.bstate = 5 ∧
      s.dev.pwr = 0 ∧ s.dev.eviction = none ∧ l.state = LaunchState.running ∧ l.replayDue = false ∧ band ∈ l.pendingBands ∧
      (l.trees = [] ∨ l.pendingBands = [band]) ∧ s.treeTurn l = true ∧ s.bandTurn l band = true ∧ l.two = false ∧ l.savedBands
      = [] ∧ l.savedBlocks = [] ∧ [q.block] = rangeFrom (band * l.band) l.band ∧ cluster = clusterOfCore q.core ∧
      s.clusterFits l cluster ≠ 0 ∧ cluster / 16 = s.dieFor l band ∧ s.seatOk l cluster q = true ∧ Quiet s ∧ (∀ (g : Group), g
      ∈ s.groups → ¬(g.key.launch = l.id ∧ g.key.block = q.block)) ∧ (∀ (b : Block), b ∈ s.blocks → ¬(b.launch = l.id ∧
      b.index = q.block))) ∧
    (∃ (s : State) (p : PlacePlan) (c : Context) (n : Node) (l : Launch), StartsNext s n 1 ∧ p.node = n.key ∧ n.launch = some
      l.id ∧ s.launch? l.id = some l ∧ l.state = LaunchState.saved ∧ p.argVa = l.argVa ∧ Placing s p c l true (List.map (fun
      (x : TreeUse) => x.n) l.trees) ∧ Quiet s ∧ NoWaitt s) :=
  ⟨⟨sLn, (plan 0x200000000 (sLn.bindWires [0,2])), ctx1, (n1 7), 7, desc1, rg, ((List.range 32).map rnd),
    by delta StartsNext; decide +kernel, and3 (by decide +kernel) ⟨by delta Quiet; decide +kernel,
    by delta NoWaitt; decide +kernel, by delta Placing; decide +kernel, by decide +kernel⟩⟩,
   ⟨(sBp 8), (laP 8), 2, (⟨2, 130, (List.range 1).reverse, none, []⟩), 32, and6 (by decide +kernel) (and6 (by decide +kernel)
     (and6 (by decide +kernel) ⟨by delta Quiet; decide +kernel, by decide +kernel⟩))⟩,
   ⟨sRs, (plan 0x200000000 (sRs.bindWires [3,17])), ctx1, (n1 7), laS, by delta StartsNext; decide +kernel, and5
     (by decide +kernel) ⟨by delta Placing; decide +kernel, by delta Quiet; decide +kernel,
     by delta NoWaitt; decide +kernel⟩⟩⟩

/-- States that meet the hypotheses of O54. -/
theorem test_meets_LaunchesArePreemptedAndReplayed :
    (∃ (s : State) (l : Launch) (y : Launch), s.dev.bstate = 5 ∧ s.dev.pwr = 0 ∧ s.dev.eviction = none ∧ s.launch? y.id = some
      y ∧ y.offers = true ∧ y.lastPlaced + 380000 ≤ (s.die 0).clock ∧ s.launch? l.id = some l ∧ MayYield s y.prio l ∧ l.state
      = LaunchState.running ∧ l.replayDue = false ∧ s.finished l = false ∧ (∀ (m : Launch), m ∈ s.cp.launches → MayYield s
      y.prio m → m = l ∨ l.prio < m.prio)) ∧
    (∃ (s : State) (l : Launch) (why : DrainFor) (since : Nat), s.launch? l.id = some l ∧ l.drain = some (why, since) ∧ (why =
      DrainFor.retire ∧ since + 1900000 ≤ (s.die 0).clock ∨ why = DrainFor.evict ∧ since + 1900000000 ≤ (s.die 0).clock)) ∧
    (∃ (s : State) (l : Launch), s.launch? l.id = some l ∧ l.replayDue = true ∧ l.state ≠ LaunchState.restoring ∧ Quiet s) ∧
    (∃ (s : State) (l : Launch) (n : Node), s.launch? l.id = some l ∧ l.replayDue = true ∧ l.state = LaunchState.restoring ∧
      s.settledOut l.id = true ∧ l.poisonSrc = none ∧ s.node? l.node = some n ∧ (∀ (m : Node), m ∈ s.cp.nodes → m.by' ≠ some
      l.id) ∧ Quiet s ∧ NoWaitt s) :=
  ⟨⟨sPr, (laQ 1 2 []), (laQ 9 4 [0]), and6 (by decide +kernel) ⟨by decide +kernel, by delta MayYield; decide +kernel, and3
    (by decide +kernel) (by delta MayYield; decide +kernel)⟩⟩,
   ⟨(sDr .retire none 0x3FF 1900100), (laD .retire none), .retire, 100, by decide +kernel⟩,
   ⟨(sRp .running), (laX .running), and3 (by decide +kernel) (by delta Quiet; decide +kernel)⟩,
   ⟨(sRp .restoring), (laX .restoring), ({ n1 1 with state := .running }), and6 (by decide +kernel) ⟨by decide +kernel,
     by delta Quiet; decide +kernel, by delta NoWaitt; decide +kernel⟩⟩⟩

/-- States that meet the hypotheses of O55. -/
theorem test_meets_EnginesAndCommandsComplete_1 :
    (∃ (s : State) (q : Sequencer) (pre : List Engine) (e : Engine) (post : List Engine), s.engines = pre ++ e :: post ∧ (∀ (y
      : Engine), y ∈ pre → ¬(y.seqr = q ∧ y.started = false)) ∧ e.seqr = q ∧ e.started = false ∧ ((List.filter (fun (y :
      Engine) => y.seqr == q && y.started) s.engines).length < if q.kind = SeqKind.ke then 16 else 8)) ∧
    (∃ (s : State) (e : Engine) (g : Group) (code : Nat) (pc : BitVec 32), s.engine? e.id = some e ∧ e.cmds = [] ∧ e.remote =
      none ∧ s.group? e.group = some g ∧ Quiet s ∧ e.slot < g.slots.length ∧ (g.slots[e.slot]?.getD (StartSlot.mk 2
      none)).engine = some e.id ∧ (e.fails = [] ∧ e.stopped = some code ∧ pc = e.stopPc ∨ e.stopped.isSome = true ∧ ∃ (f :
      EngFail), f ∈ e.fails ∧ (∀ (y : EngFail), y ∈ e.fails → y = f ∨ f.order < y.order) ∧ f.code = code ∧ f.pc = pc)) ∧
    (∃ (s : State) (c : Copy) (va : Nat) (key : Nat), List.find? (fun (y : Copy) => y.id == c.id) s.copies = some c ∧ c.buf =
      [] ∧ c.readPos < c.len ∧ c.src = Side.global va ∧ Quiet s ∧ Mapped s (s.ownerDie c.owner c.core) c.ctx (va + c.readPos)
      (Access.mk false false true false) key ∧ keyTier key ≤ 1 ∧ s.stalls none key (c.portion c.readPos false) = false) ∧
    (∃ (s : State) (c : Copy) (va : Nat) (key : Nat), List.find? (fun (y : Copy) => y.id == c.id) s.copies = some c ∧ c.buf ≠
      [] ∧ c.dst = [Side.global va] ∧ Quiet s ∧ NoWaitt s ∧ s.aged c.owner c.core c.issued = true ∧ (∀ (q : Granule), q ∈
      c.buf → q.bytes.length = 16 ∧ q.poison = false) ∧ key % 16 = 0 ∧ Mapped s (s.ownerDie c.owner c.core) c.ctx (va +
      c.writePos) (Access.mk true false true false) key ∧ keyTier key ≤ 1 ∧ s.locked none key (16 * c.buf.length) = false) ∧
    (∃ (s : State) (c : Copy) (key : Nat), List.find? (fun (y : Copy) => y.id == c.id) s.copies = some c ∧ c.buf = [] ∧ c.len
      ≤ c.readPos ∧ Quiet s ∧ NoWaitt s ∧ s.aged c.owner c.core c.issued = true ∧ s.tokenBehind c.owner = false ∧ (∀ (va :
      Nat), c.token = some va → TokenAt s (s.ownerDie c.owner c.core) c.ctx va key (Access.mk false true false false))) ∧
    (∃ (s : State) (m : MscOp) (key : Nat), List.find? (fun (y : MscOp) => y.id == m.id && y.left) s.mscs = some m ∧ m.cmd = 0
      ∧ m.pos < BitVec.toNat m.p1 / 4 ∧ m.target % 4 = 0 ∧ Quiet s ∧ NoWaitt s ∧ Mapped s (s.ownerDie m.owner m.core) m.ctx
      (m.target + 4 * m.pos) (Access.mk true false false false) key ∧ keyTier key ≤ 1 ∧ s.locked none key (4 * min
      (BitVec.toNat m.p1 / 4 - m.pos) ((4096 - (m.target + 4 * m.pos) % 4096) / 4)) = false ∧ (∀ (home : Nat), s.mscBehind m
      home = false)) ∧
    (∃ (s : State) (m : MscOp), List.find? (fun (y : MscOp) => y.id == m.id && y.left) s.mscs = some m ∧ Quiet s ∧ NoWaitt s ∧
      (mscExtents m.cmd (BitVec.toNat m.p0) (BitVec.toNat m.p1)).fst / 4 ≤ m.pos) ∧
    (∃ (s : State) (g : Gather) (key : Nat) (e : BtbEntry) (b : Block) (off : Nat) (slot : KeySlot), List.find? (fun (y :
      Gather) => y.id == g.id) s.gathers = some g ∧ g.form = GatherForm.ld ∧ g.k < g.n ∧ Quiet s ∧ NoWaitt s ∧ List.find? (fun
      (y : KeySlot) => y.n == g.kslot) s.cp.keys = some slot ∧ (g.t0 + g.k) / 16 < g.nblk ∧ 0 < g.rowb ∧ g.rowb % 16 = 0 ∧
      List.find? (fun (y : BtbEntry) => y.ctx == g.ctx && y.seq == g.seq && y.stream == g.stream && y.block == (g.t0 + g.k) /
      16) (s.core g.ge).btb = some e ∧ OnePage (g.pool + (BitVec.toNat e.phys * 16 + (g.t0 + g.k) % 16) * g.rowb) g.rowb ∧
      Mapped s (dieOfCore g.ge) g.ctx (g.pool + (BitVec.toNat e.phys * 16 + (g.t0 + g.k) % 16) * g.rowb) (Access.mk false
      false true false) key ∧ keyTier key ≤ 1 ∧ s.stalls none key g.rowb = false ∧ (∀ (j : Nat), j < g.rowb → s.mem.poisoned
      (key + j) = false) ∧ s.block? g.launch g.block = some b ∧ placeOf b g.ge (g.laddr + g.k * g.rowb) = Place.localMem off
      false) :=
  ⟨⟨(sQ [{ eng 4 false with seqr := ⟨.ge,0⟩ }, eng 3 true, eng 5 false, eng 6 false]), ⟨.ce,0⟩, ([{ eng 4 false with seqr :=
    ⟨.ge,0⟩ }, eng 3 true]), (eng 5 false), ([eng 6 false]), by decide +kernel⟩,
   ⟨(sFin (eFin (some 1) [])), (eFin (some 1) []), (gSlot 3 5), 1, 0x124, and4 (by decide +kernel)
     ⟨by delta Quiet; decide +kernel, by decide +kernel⟩⟩,
   ⟨(sCp (cpy (.group key) (.global 65536) [.global 0x30200] 64 0 0 [] none true)), (cpy (.group key) (.global 65536) [.global
     0x30200] 64 0 0 [] none true), 65536, 0x10000, and4 (by decide +kernel) ⟨by delta Quiet; decide +kernel,
     by delta Mapped; decide +kernel, by decide +kernel⟩⟩,
   ⟨(sCp (cpy (.group key) (.global 0x10000) [.global 0x30200] 256 (16*1+0) 0 (bufX 1) none true)), (cpy (.group key) (.global
     0x10000) [.global 0x30200] 256 (16*1+0) 0 (bufX 1) none true), 0x30200, 0x30200, and3 (by decide +kernel)
     ⟨by delta Quiet; decide +kernel, by delta NoWaitt; decide +kernel, and3 (by decide +kernel)
     ⟨by delta Mapped; decide +kernel, by decide +kernel⟩⟩⟩,
   ⟨(withN [node 0x14 r2 .running] { sCp (cpy (.group key) (.global 0x10000) [.global 0x30200] 256 256 256 [] none) gCe with
     engines := [{ eng 5 true with cmds := [77,80] }] }), (cpy (.group key) (.global 0x10000) [.global 0x30200] 256 256 256 []
     none), 0x30100, and3 (by decide +kernel) ⟨by delta Quiet; decide +kernel, by delta NoWaitt; decide +kernel, and2
     (by decide +kernel) (by delta TokenAt; delta Mapped; decide +kernel)⟩⟩,
   ⟨(sMs (ms (.group key) 0 196608 196608 0xA1B2C3D4 64 0)), (ms (.group key) 0 196608 196608 0xA1B2C3D4 64 0), 0x30000, and4
     (by decide +kernel) ⟨by delta Quiet; decide +kernel, by delta NoWaitt; decide +kernel, by delta Mapped; decide +kernel,
     and2 (by decide +kernel) (fun _ => rfl)⟩⟩,
   ⟨(withN [node 0x14 r2 .running] { sMs (ms (.group key) 0 0x30000 0x10000 5 0 0) with engines := [{ eng 5 true with cmds :=
     [77,80] }] }), (ms (.group key) 0 0x30000 0x10000 5 0 0), by decide +kernel, by delta Quiet; decide +kernel,
     by delta NoWaitt; decide +kernel, by decide +kernel⟩,
   ⟨(sGa (gaX (.engine 5 3 0x10) 5 0 [])), (gaX (.engine 5 3 0x10) 5 0 []), 0x10080, beX, (bkOf (sGa (gaX (.engine 5 3 0x10) 5
     0 []))), 0x80, (slX [77]), and3 (by decide +kernel) ⟨by delta Quiet; decide +kernel, by delta NoWaitt; decide +kernel,
     and5 (by decide +kernel) ⟨by delta OnePage; decide +kernel, by delta Mapped; decide +kernel, by decide +kernel⟩⟩⟩⟩

/-- States that meet the hypotheses of O55. -/
theorem test_meets_EnginesAndCommandsComplete_2 :
    (∃ (s : State) (g : Gather), List.find? (fun (y : Gather) => y.id == g.id) s.gathers = some g ∧ g.n ≤ g.k ∧ g.acks = [] ∧
      Quiet s ∧ NoWaitt s ∧ g.token = none ∧ g.issued + 256 ≤ s.clockOf g.ge) ∧
    (∃ (s : State) (k : GKey) (g : Group) (op : PendOp) (f : FmtE) (d : Nat), s.group? k = some g ∧ g.pend = [op] ∧ op.instr =
      Instr.waitt f ∧ op.deadline = some d ∧ d < s.clockOf g.core ∧ g.handler = false ∧ (∀ (h : Group), h ∈ s.groups → h.key ≠
      k → h.pend = [])) ∧
    (∃ (s : State) (e : Engine) (w : EngWait) (d : Nat), s.engine? e.id = some e ∧ e.waitt = some w ∧ w.deadline = some d ∧ d
      < (s.die e.die).clock ∧ Quiet s) ∧
    (∃ (s : State) (k : GKey) (g : Group) (arr : Nat) (col : Nat) (err : LatchError), s.group? k = some g ∧ Quiet s) :=
  ⟨⟨(sGa (gaX (.engine 5 3 0x10) 5 5 [])), (gaX (.engine 5 3 0x10) 5 5 []), and3 (by decide +kernel)
    ⟨by delta Quiet; decide +kernel, by delta NoWaitt; decide +kernel, by decide +kernel⟩⟩,
   ⟨(sF2 (gW2 ⟨true,0,0,96,104⟩ 999)), key, (gW2 ⟨true,0,0,96,104⟩ 999), (opW ⟨true,0,0,96,104⟩ 999), ⟨true,0,0,96,104⟩, 999,
     by decide +kernel⟩,
   ⟨({ withProgram (eWt 0) with turn := .none }), (eWt 0), (⟨0x10000,5,some 900,0,false⟩), 900, and4 (by decide +kernel)
     (by delta Quiet; decide +kernel)⟩,
   ⟨(sF2 ({ live8 with msr := 0 })), key, ({ live8 with msr := 0 }), 1, 37, .parity, by decide +kernel,
     by delta Quiet; decide +kernel⟩⟩

/-- States that meet the hypotheses of O56. -/
theorem test_meets_PageFaultsAreServed :
    (∃ (s : State) (m : PageMap) (r : LazyRange), List.find? (fun (r : LazyRange) => r.ctx == m.ctx && overlaps (r.va, r.len)
      m.va 65536) s.cp.lazy = some r ∧ 0 < r.len ∧ m.va % 65536 = 0 ∧ (∃ (d : Die), d ∈ s.dies ∧ (m.ctx, m.va) ∈ d.faults) ∧
      s.failedAt m.ctx m.va = false ∧ (¬(m.ctx, m.va) ∈ s.cp.snapFaults) ∧ s.movingAt m.ctx m.va = false ∧ (∀ (root : Nat),
      root ∈ s.rootsOf m.ctx → s.frameKey root m.va = none) ∧ Quiet s ∧ NoWaitt s ∧ leafV m.leaf = false) ∧
    (∃ (s : State) (m : PageMap) (r : LazyRange) (root : Nat) (a : Nat) (mem : Memory) (rest : List Nat), List.find? (fun (r :
      LazyRange) => r.ctx == m.ctx && overlaps (r.va, r.len) m.va 65536) s.cp.lazy = some r ∧ 0 < r.len ∧ m.va % 65536 = 0 ∧
      (∃ (d : Die), d ∈ s.dies ∧ (m.ctx, m.va) ∈ d.faults) ∧ s.failedAt m.ctx m.va = false ∧ (¬(m.ctx, m.va) ∈
      s.cp.snapFaults) ∧ s.movingAt m.ctx m.va = false ∧ (∀ (root : Nat), root ∈ s.rootsOf m.ctx → s.frameKey root m.va =
      none) ∧ Quiet s ∧ NoWaitt s ∧ freshLeaf r.hosted m.leaf = true ∧ (r.hosted = false → s.frameUsed (leafKey m.leaf) 65536
      = false ∧ s.touchedOn m.ctx m.va (leafKey m.leaf) = true) ∧ (∀ (f : Nat), f ∈ m.tables → s.frameUsed f 4096 = false) ∧
      r.img = 0 ∧ r.slots = [] ∧ s.rootsOf m.ctx = [root] ∧ makePath m.va 2 root s.mem m.tables = some (a, mem, rest)) ∧
    (∃ (s : State) (ctx : Nat) (va : Nat) (root : Nat) (a : Nat) (e : BitVec 64) (ps : List (Nat × Nat)) (l : Launch) (c :
      Context) (n : Nat), (ctx, va) ∈ s.cp.snapFaults ∧ (∃ (d : Die), d ∈ s.dies ∧ (ctx, va) ∈ d.faults) ∧ s.rootsOf ctx =
      [root] ∧ walk s.mem va 2 root = (WalkEnd.leaf a 0 e, ps) ∧ leafCopy e = false ∧ leafSnap e = true ∧ (List.filter (fun (y
      : Launch) => y.ctx == ctx && y.ranges.any fun (r : RangeEntry) => r.use != 1 && r.meets va) s.cp.launches = [l]) ∧
      s.launch? l.id = some l ∧ s.ctx? ctx = some c ∧ s.accepted 8 = true ∧ l.nonReplay = none ∧ s.areaPlace c = some n ∧
      (walk (s.mem.copyFrame (memKey 0 (c.snapPa + 65536 * n)) (memKey (leafTier e) (leafPa e + va % 65536)) 65536) va 2
      root).fst = WalkEnd.leaf a 0 e ∧ Quiet s ∧ NoWaitt s) ∧
    (∃ (s : State) (core : Nat) (ctx : Nat) (va : Nat) (k : GKey) (g : Group) (e : LogEntry) (ln : LaneStore) (key : Nat),
      s.group? k = some g ∧ g.core = core ∧ (s.core core).log = [e] ∧ e.group = k ∧ e.ctx = ctx ∧ e.page = va / 65536 * 65536
      ∧ e.body = ReqBody.store Space.global [ln] ∧ Still s ∧ ln.hidden = [] ∧ 0 < ln.bytes.length ∧ OneLine ln.va
      ln.bytes.length ∧ Mapped s (dieOfCore core) ctx ln.va (Access.mk true false false false) key) :=
  ⟨⟨sPg, (pm 0 []), lz, and6 (by decide +kernel) (and2 (by decide +kernel) ⟨by delta Quiet; decide +kernel,
    by delta NoWaitt; decide +kernel, by decide +kernel⟩)⟩,
   ⟨sPg, (pm 0x400060007 []), lz, 0x40000, mk.1, mk.2.1, mk.2.2, and6 (by decide +kernel) (and2 (by decide +kernel)
     ⟨by delta Quiet; decide +kernel, by delta NoWaitt; decide +kernel, by decide +kernel⟩)⟩,
   ⟨sSn, 1, 0x30000, 0x40000, 0x43018, snE, psn, lSn, cSn, 0, and6 (by decide +kernel) (and6 (by decide +kernel)
     ⟨by rw [walk_congr (top := 0x200000) (fun k hk => Memory.readNat_copyFrame _ _ _ _ _ _ (by exact hk)) _ _ (by decide +kernel)]; decide +kernel,
     by delta Quiet; decide +kernel, by delta NoWaitt; decide +kernel⟩)⟩,
   ⟨(sLg 65539 9), 0, 1, 65539, key, live8, (lgE 65539 9), (lnS 65539 9), 65539, and6 (by decide +kernel) ⟨by decide +kernel,
     by delta Still; decide +kernel, and2 (by decide +kernel) ⟨by delta OneLine; decide +kernel,
     by delta Mapped; decide +kernel⟩⟩⟩⟩

/-- States that meet the hypotheses of O57. -/
theorem test_meets_PeersAndAnswers_1 :
    (∃ (s : State) (r : Remote) (data : List Byte) (id : Nat) (key : Nat), List.find? (fun (y : Remote) => y.host && y.tag ==
      r.tag) s.fabric.remote = some r ∧ r.for' = RemoteFor.op id key ∧ (∀ (q : HomeReq), q ∈ s.homes → q.id ≠ id) ∧ Quiet s ∧
      NoWaitt s) ∧
    (∃ (s : State) (r : Remote) (data : List Byte) (k : GKey) (va : Nat) (g : Group), List.find? (fun (y : Remote) => y.host
      && y.tag == r.tag) s.fabric.remote = some r ∧ r.for' = RemoteFor.line k va ∧ s.group? k = some g ∧ 2 * r.tag ∈ g.remote
      ∧ Quiet s ∧ NoWaitt s) ∧
    (∃ (s : State) (r : Remote) (data : List Byte) (id : Nat) (key : Nat), List.find? (fun (y : Remote) => y.host && y.tag ==
      r.tag) s.fabric.remote = some r ∧ r.for' = RemoteFor.op id key ∧ (∀ (q : HomeReq), q ∈ s.homes → q.id ≠ id) ∧ Quiet s ∧
      NoWaitt s) ∧
    (∃ (s : State) (r : Remote) (data : List Byte) (q : HomeReq) (sp : Space) (ls : List LaneStore), List.find? (fun (y :
      Remote) => y.host && y.tag == r.tag) s.fabric.remote = some r ∧ r.for' = RemoteFor.req q ∧ q.body = ReqBody.store sp ls
      ∧ (∃ (i : Inflight), i ∈ s.inflight ∧ i.id = q.id) ∧ Quiet s ∧ NoWaitt s) ∧
    (∃ (s : State) (r : Remote) (data : List Byte) (id : Nat) (key : Nat), List.find? (fun (y : Remote) => y.host && y.tag ==
      r.tag) s.fabric.remote = some r ∧ r.sent + 1900 * BitVec.toNat s.dev.linkto ≤ (s.die 0).clock ∧ r.for' = RemoteFor.op id
      key ∧ (∀ (q : HomeReq), q ∈ s.homes → q.id ≠ id) ∧ Quiet s ∧ NoWaitt s) ∧
    (∃ (s : State) (r : Remote) (id : Nat) (key : Nat), List.find? (fun (y : Remote) => !y.host && y.tag == r.tag)
      s.fabric.remote = some r ∧ r.sent + 1900 * BitVec.toNat s.dev.flinkto ≤ (s.die 0).clock ∧ r.for' = RemoteFor.op id key ∧
      (∀ (q : HomeReq), q ∈ s.homes → q.id ≠ id) ∧ Quiet s ∧ NoWaitt s) ∧
    (∃ (s : State) (m : Msg) (r : Remote) (id : Nat) (key : Nat), Arrives s m 2 ∧ s.answeredBy m = some r ∧ r.for' =
      RemoteFor.op id key ∧ (∀ (q : HomeReq), q ∈ s.homes → q.id ≠ id) ∧ Quiet s ∧ NoWaitt s) ∧
    (∃ (s : State) (m : Msg) (r : Remote) (k : GKey) (va : Nat) (g : Group), Arrives s m 2 ∧ s.answeredBy m = some r ∧ r.for'
      = RemoteFor.line k va ∧ s.group? k = some g ∧ 2 * r.tag ∈ g.remote ∧ Quiet s ∧ NoWaitt s) :=
  ⟨⟨(sRm (rem true (.op 55 0x9000)) 10), (rem true (.op 55 0x9000)), ((List.range 100).map rnd), 55, 0x9000, and3
    (by decide +kernel) ⟨by delta Quiet; decide +kernel, by delta NoWaitt; decide +kernel⟩⟩,
   ⟨(sRm (rem true (.line key 0x10080)) 10), (rem true (.line key 0x10080)), ((List.range 100).map rnd), key, 0x10080, gRm,
     and4 (by decide +kernel) ⟨by delta Quiet; decide +kernel, by delta NoWaitt; decide +kernel⟩⟩,
   ⟨(sRm (rem true (.op 55 0x9000)) 10), (rem true (.op 55 0x9000)), ((List.range 100).map rnd), 55, 0x9000, and3
     (by decide +kernel) ⟨by delta Quiet; decide +kernel, by delta NoWaitt; decide +kernel⟩⟩,
   ⟨(sRm (rem true (.req ⟨44,.core 0,key,3,.store .global [⟨0,0,0,[1],none,false,[]⟩], 0⟩)) 10), (rem true (.req ⟨44,.core
     0,key,3,.store .global [⟨0,0,0,[1],none,false,[]⟩], 0⟩)), ((List.range 100).map rnd), (⟨44,.core 0,key,3,.store .global
     [⟨0,0,0,[1],none,false,[]⟩], 0⟩), .global, [⟨0,0,0,[1],none,false,[]⟩], and4 (by decide +kernel)
     ⟨by delta Quiet; decide +kernel, by delta NoWaitt; decide +kernel⟩⟩,
   ⟨(sRm (rem true (.op 55 0x9000)) 4000000), (rem true (.op 55 0x9000)), ((List.range 100).map rnd), 55, 0x9000, and4
     (by decide +kernel) ⟨by delta Quiet; decide +kernel, by delta NoWaitt; decide +kernel⟩⟩,
   ⟨(sRm (rem false (.op 55 0x9000)) 4000000), (rem false (.op 55 0x9000)), 55, 0x9000, and4 (by decide +kernel)
     ⟨by delta Quiet; decide +kernel, by delta NoWaitt; decide +kernel⟩⟩,
   ⟨(sRm (rem false (.op 55 0x9000)) 10), (msg 2 7 9 (70000%65536) 0 128 0 0 ((List.range 100).map rnd)), (rem false (.op 55
     0x9000)), 55, 0x9000, by delta Arrives; decide +kernel, and3 (by decide +kernel) ⟨by delta Quiet; decide +kernel,
     by delta NoWaitt; decide +kernel⟩⟩,
   ⟨(sRm (rem false (.line key 0x10080)) 10), (msg 2 7 9 (70000%65536) 0 128 0 0 ((List.range 100).map rnd)), (rem false
     (.line key 0x10080)), key, 0x10080, gRm, by delta Arrives; decide +kernel, and4 (by decide +kernel)
     ⟨by delta Quiet; decide +kernel, by delta NoWaitt; decide +kernel⟩⟩⟩

/-- States that meet the hypotheses of O57. -/
theorem test_meets_PeersAndAnswers_2 :
    (∃ (s : State) (m : Msg) (r : Remote) (id : Nat) (key : Nat), Arrives s m 4 ∧ s.answeredBy m = some r ∧ r.for' =
      RemoteFor.op id key ∧ (∀ (q : HomeReq), q ∈ s.homes → q.id ≠ id) ∧ Quiet s ∧ NoWaitt s) ∧
    (∃ (s : State) (m : Msg) (r : Remote) (id : Nat) (key : Nat), Arrives s m 6 ∧ s.answeredBy m = some r ∧ r.for' =
      RemoteFor.op id key ∧ (∀ (q : HomeReq), q ∈ s.homes → q.id ≠ id) ∧ Quiet s ∧ NoWaitt s) ∧
    (∃ (s : State) (m : Msg) (r : Remote) (id : Nat) (key : Nat), Arrives s m 7 ∧ s.answeredBy m = some r ∧ r.for' =
      RemoteFor.op id key ∧ (∀ (q : HomeReq), q ∈ s.homes → q.id ≠ id) ∧ Quiet s ∧ NoWaitt s) ∧
    (∃ (s : State) (m : Msg), Arrives s m 1 ∧ Serving s m ∧ (∃ (n : Nat), Covers s m n ∧ Grants s n 62)) ∧
    (∃ (s : State) (m : Msg), Arrives s m 3 ∧ Serving s m ∧ (∃ (n : Nat), Covers s m n ∧ Grants s n 61) ∧ m.data.length =
      m.size ∧ Quiet s ∧ NoWaitt s) ∧
    (∃ (s : State) (m : Msg) (op : AtomOp) (l : LaneRmw), Arrives s m 5 ∧ Serving s m ∧ (∃ (n : Nat), Covers s m n ∧ Grants s
      n 60) ∧ atomOf m = some (op, l) ∧ m.last = true ∧ (∀ (y : Msg), y ∈ s.fabric.received → ¬(y.type = 5 ∧ y.src = m.src ∧
      y.addr = m.addr)) ∧ Quiet s ∧ NoWaitt s) ∧
    (∃ (s : State) (m : Msg), Arrives s m 1 ∧ Serving s m ∧ (∀ (n : Nat), Covers s m n → ¬Grants s n 62)) ∧
    (∃ (s : State) (m : Msg), Arrives s m 3 ∧ Serving s m ∧ (∀ (n : Nat), Covers s m n → ¬Grants s n 61)) :=
  ⟨⟨(sRm (rem false (.op 55 0x9000)) 10), (msg 4 7 9 (70000%65536) 0 128 0 0 ((List.range 100).map rnd)), (rem false (.op 55
    0x9000)), 55, 0x9000, by delta Arrives; decide +kernel, and3 (by decide +kernel) ⟨by delta Quiet; decide +kernel,
    by delta NoWaitt; decide +kernel⟩⟩,
   ⟨(sRm (rem false (.op 55 0x9000)) 10), (msg 6 7 9 (70000%65536) 0 128 0 0 ((List.range 100).map rnd)), (rem false (.op 55
     0x9000)), 55, 0x9000, by delta Arrives; decide +kernel, and3 (by decide +kernel) ⟨by delta Quiet; decide +kernel,
     by delta NoWaitt; decide +kernel⟩⟩,
   ⟨(sRm (rem false (.op 55 0x9000)) 10), (msg 7 7 9 (70000%65536) 0 128 0 0 ((List.range 100).map rnd)), (rem false (.op 55
     0x9000)), 55, 0x9000, by delta Arrives; decide +kernel, and3 (by decide +kernel) ⟨by delta Quiet; decide +kernel,
     by delta NoWaitt; decide +kernel⟩⟩,
   ⟨fs, (msg 1 7 9 5 65539 9 0 0), by delta Arrives; decide +kernel, by delta Serving; decide +kernel, ⟨3,
     by delta Covers Grants; decide +kernel⟩⟩,
   ⟨fs, (msg 3 7 9 5 65539 9 0 0 ((List.range 9).map rnd)), by delta Arrives; decide +kernel,
     by delta Serving; decide +kernel, ⟨4, by delta Covers Grants; decide +kernel⟩, by decide +kernel,
     by delta Quiet; decide +kernel, by delta NoWaitt; decide +kernel⟩,
   ⟨fs, (msg 5 7 9 5 65544 4 0 0 ([0] ++ (List.range 16).map rnd)), (((atomOf (msg 5 7 9 5 65544 4 0 0 ([0] ++ (List.range
     16).map rnd))).getD (.cas false, ⟨0, 0, 0, 0, 0⟩)).1), (((atomOf (msg 5 7 9 5 65544 4 0 0 ([0] ++ (List.range 16).map
     rnd))).getD (.cas false, ⟨0, 0, 0, 0, 0⟩)).2), by delta Arrives; decide +kernel, by delta Serving; decide +kernel, ⟨4,
     by delta Covers Grants; decide +kernel⟩, and3 (by decide +kernel) ⟨by delta Quiet; decide +kernel,
     by delta NoWaitt; decide +kernel⟩⟩,
   ⟨fs, (msg 1 7 9 5 65528 8 0 0), by delta Arrives; decide +kernel, by delta Serving; decide +kernel, noGrant_of
     (by decide +kernel)⟩,
   ⟨fs, (msg 3 7 9 5 65528 8 0 0 ((List.range 8).map rnd)), by delta Arrives; decide +kernel,
     by delta Serving; decide +kernel, noGrant_of (by decide +kernel)⟩⟩

/-- States that meet the hypotheses of O57. -/
theorem test_meets_PeersAndAnswers_3 :
    (∃ (s : State) (m : Msg), Arrives s m 5 ∧ Serving s m ∧ (∀ (n : Nat), Covers s m n → ¬Grants s n 60)) :=
  ⟨fs, (msg 5 7 9 5 327688 4 0 0 ([0] ++ (List.range 16).map rnd)), by delta Arrives; decide +kernel,
    by delta Serving; decide +kernel, noGrant_of (by decide +kernel)⟩

/-- States that meet the hypotheses of O58. -/
theorem test_meets_DevicesMeetAndWithdraw_1 :
    (∃ (s : State) (m : Msg), Arrives s m 8 ∧ Numbered s ∧ s.fabricBarrier m.code = none) ∧
    (∃ (s : State) (m : Msg) (l : Launch) (y : TreeUse) (d : BitVec 64), Arrives s m 8 ∧ Numbered s ∧ WaitsForDevices s m l y
      d ∧ (bitsOf d 51 12).toNat = s.dev.fdevid.toNat ∧ Still s ∧ (bitsOf d 32 8).toNat ≤ ((s.countArrive m.code m.phase
      m.src).arrivalsOf m.code m.phase).length ∧ (∀ (n : Nat), n ∈ (s.countArrive m.code m.phase m.src).arrivalsOf m.code
      m.phase → n ≠ s.dev.fdevid.toNat → s.reachable n = true)) ∧
    (∃ (s : State) (m : Msg) (l : Launch) (y : TreeUse) (d : BitVec 64), Arrives s m 9 ∧ Numbered s ∧ WaitsForDevices s m l y
      d ∧ (bitsOf d 51 12).toNat = m.src ∧ Still s) ∧
    (∃ (s : State) (l : Launch) (y : TreeUse) (d : BitVec 64) (c : Nat) (k : GKey) (g : Group) (pc : Word), s.launch? l.id =
      some l ∧ s.tree? l.id y.n = some y ∧ s.fbdOf l.id y.n = some d ∧ y.since = some c ∧ bitsOf d 0 32 ≠ 0 ∧ l.state =
      LaunchState.running ∧ l.pendingBands = [] ∧ c + 1900 * (bitsOf d 0 32).toNat ≤ (s.die 0).clock ∧ y.arrived = [k] ∧
      s.group? k = some g ∧ k.launch = l.id ∧ AllAt g (BarKey.tree l.id y.n) false pc none ∧ g.handler = false ∧ l.trapv <
      l.codeLen ∧ Still s) ∧
    (∃ (s : State) (m : Msg), Arrives s m 10 ∧ Numbered s) ∧
    (∃ (s : State) (m : Msg) (e : Eviction), Arrives s m 11 ∧ s.dev.eviction = some e) ∧
    (∃ (s : State) (m : Msg), Arrives s m 12 ∧ Numbered s ∧ s.dev.frecvEn = true ∧ s.dev.frecvSrc.toNat = m.src ∧ m.last =
      false) ∧
    (∃ (s : State) (m : Msg), Arrives s m 12 ∧ Numbered s ∧ (s.dev.frecvEn = false ∨ s.dev.frecvSrc.toNat ≠ m.src)) :=
  ⟨⟨fs, (msg 8 7 9 5 0 1 3 4), by delta Arrives; decide +kernel, by delta Numbered; decide +kernel, by decide +kernel⟩,
   ⟨(sBr 7 2 5 (some 10) [(3,4,7)]), (msg 8 7 9 5 0 1 3 4), (lTr (some 10)), (trP (some 10)), (fdv 7 2 5),
     by delta Arrives; decide +kernel, by delta Numbered; decide +kernel, ⟨by decide +kernel, by decide +kernel,
     by decide +kernel, by decide +kernel, by decide +kernel, by decide +kernel, by decide +kernel, ofGroups fun k hk g hg =>
     ⟨false, 8, none, by revert k g; delta AllAt; decide +kernel⟩⟩, by decide +kernel, by delta Still; decide +kernel,
     by decide +kernel⟩,
   ⟨(sBr 9 2 5 (some 10) []), (msg 9 7 9 5 0 1 3 4), (lTr (some 10)), (trP (some 10)), (fdv 9 2 5),
     by delta Arrives; decide +kernel, by delta Numbered; decide +kernel, ⟨by decide +kernel, by decide +kernel,
     by decide +kernel, by decide +kernel, by decide +kernel, by decide +kernel, by decide +kernel, ofGroups fun k hk g hg =>
     ⟨false, 8, none, by revert k g; delta AllAt; decide +kernel⟩⟩, by decide +kernel, by delta Still; decide +kernel⟩,
   ⟨(sBr 7 2 5 (some 10) []), (lTr (some 10)), (trP (some 10)), (fdv 7 2 5), 10, key, (gPt false 8), 8, and6
     (by decide +kernel) (and5 (by decide +kernel) ⟨by delta AllAt; decide +kernel, and2 (by decide +kernel)
     (by delta Still; decide +kernel)⟩)⟩,
   ⟨fs, (msg 10 7 9 5 0 1 3 4), by delta Arrives; decide +kernel, by delta Numbered; decide +kernel⟩,
   ⟨(wdev fs fun d => ({ d with eviction := some ⟨9, 3, false, none, .routes, 10, false, [9,12]⟩ } : DevRegs)), (msg 11 7 9 5
     0 1 3 4), (⟨9, 3, false, none, .routes, 10, false, [9,12]⟩), by delta Arrives; decide +kernel, by decide +kernel⟩,
   ⟨(recvD fs), (msgN 12 7 9 5 0 1 3 4 [1,2]), by delta Arrives; decide +kernel, by delta Numbered; decide +kernel,
     by decide +kernel⟩,
   ⟨(recvD fs), (msgN 12 7 8 5 0 1 3 4 [1,2]), by delta Arrives; decide +kernel, by delta Numbered; decide +kernel,
     by decide +kernel⟩⟩

/-- States that meet the hypotheses of O58. -/
theorem test_meets_DevicesMeetAndWithdraw_2 :
    (∃ (s : State) (l : Launch) (y : TreeUse) (d : BitVec 64) (q : Msg), s.launch? l.id = some l ∧ s.tree? l.id y.n = some y ∧
      s.fbdOf l.id y.n = some d ∧ y.since.isSome = true ∧ l.state = LaunchState.running ∧ l.pendingBands = [] ∧ y.arrived ≠ []
      ∧ q ∈ s.fabric.received ∧ q.type = 9 ∧ q.code = y.n ∧ q.phase = y.phase ∧ q.src = (bitsOf d 51 12).toNat ∧ Still s ∧ (∀
      (h : Group), h ∈ s.groups → h.key.launch = l.id → h.key ∈ y.arrived) ∧ (∀ (k : GKey), k ∈ y.arrived → ∀ (g : Group),
      s.group? k = some g → ∃ (amber : Bool), ∃ (pc : Word), ∃ (count : Option Word), AllAt g (BarKey.tree l.id y.n) amber pc
      count)) ∧
    (∃ (s : State) (m : Msg), Arrives s m 12 ∧ Numbered s ∧ s.dev.frecvEn = true ∧ s.dev.frecvSrc.toNat = m.src ∧ m.last =
      true ∧ Quiet s ∧ NoWaitt s) :=
  ⟨⟨(gots (sBr 7 2 5 (some 10) []) [msg 9 7 7 5 0 1 3 4]), (lTr (some 10)), (trP (some 10)), (fdv 7 2 5), (msg 9 7 7 5 0 1 3
    4), and6 (by decide +kernel) (and6 (by decide +kernel) ⟨by delta Still; decide +kernel, by decide +kernel, ofGroups fun k
    hk g hg => ⟨false, 8, none, by revert k g; delta AllAt; decide +kernel⟩⟩)⟩,
   ⟨(recvD fs), (msg 12 7 9 5 0 1 3 4 [1,2]), by delta Arrives; decide +kernel, by delta Numbered; decide +kernel, and3
     (by decide +kernel) ⟨by delta Quiet; decide +kernel, by delta NoWaitt; decide +kernel⟩⟩⟩

/-- States that meet the hypotheses of O59. -/
theorem test_meets_ErrorsAreContained_1 :
    (∃ (s : State) (core : Nat), s.clockOf core % 32 = 0 ∧ (∃ (g : Group), g ∈ s.groups ∧ g.core = core) ∧ (∀ (y :
      ShadowCkpt), y ∈ (s.core core).ckpts → y.cycle ≠ s.clockOf core)) ∧
    (∃ (s : State) (k : Strike) (c : Nat) (old : Group) (cur : Group) (ck : ShadowCkpt), k.region = Region.core c ∧
      k.flaggedLate = false ∧ k.unnamed = false ∧ s.clockOf c ≤ k.cycle + 255 ∧ (List.filter (fun (y : ShadowCkpt) => decide
      (y.cycle < k.cycle)) (s.core c).ckpts).getLast? = some ck ∧ ck.restored ≤ k.cycle ∧ ck.groups = [old] ∧ s.group? old.key
      = some cur ∧ cur.amber = AmberState.idle ∧ old.pend = [] ∧ old.ckpt = none ∧ old.amber = AmberState.idle ∧ (∃ (l : Nat),
      l ∈ old.liveLanes ∧ Option.map (fun (x : Lane) => x.park) (old.lane? l) = some none) ∧ Still s ∧ c / 64 < s.dies.length
      ∧ s.engines = []) ∧
    (∃ (s : State) (k : Strike) (c : Nat) (l : Launch), k.region = Region.core c ∧ k.flaggedLate = true ∧ k.unnamed = false ∧
      s.cp.launches = [l] ∧ s.accepted 8 = true ∧ l.nonReplay = none ∧ l.attempt < 3 ∧ l.replayDue = false ∧ (∃ (g : Group), g
      ∈ s.groups ∧ g.core = c ∧ g.key.launch = l.id) ∧ Quiet s) ∧
    (∃ (s : State) (k : Strike) (d : Nat), k.region = Region.uncore d ∧ k.unnamed = false ∧ k.cru = [] ∧ k.cq = []) ∧
    (∃ (s : State) (x : SelfTest), x.passed = true ∧ s.recentEvents x (s.die x.die).clock < 3) ∧
    (∃ (s : State) (x : SelfTest), x.passed = false ∧ s.sparesUsed (structCode x.struct) (testUnit x) < spareCount x.struct ∧
      Quiet s) ∧
    (∃ (s : State) (x : SelfTest), x.passed = false ∧ x.struct = Struct.coreLogic ∧ s.blocks = [] ∧ Quiet s) ∧
    (∃ (s : State) (die : Nat) (r : ErrRec) (rest : List ErrRec), die < s.dies.length ∧ (s.die die).held = r :: rest ∧ (s.die
      die).ringOpen = true ∧ Quiet s ∧ NoWaitt s) :=
  ⟨⟨(wck (clk 1024 d0) ([])), 0, by decide +kernel⟩,
   ⟨(wck d0 [ckp 960 [gOld]]), (stk (.core 0) 970 false []), 0, gOld, live8, (ckp 960 [gOld]), and6 (by decide +kernel) (and6
     (by decide +kernel) ⟨by decide +kernel, by delta Still; decide +kernel, by decide +kernel⟩)⟩,
   ⟨d0, (stk (.core 0) 970 true []), 0, (laOf d0), and6 (by decide +kernel) (and3 (by decide +kernel)
     (by delta Quiet; decide +kernel))⟩,
   ⟨d0, (stk (.uncore 2) 970 true [0x10000]), 2, by decide +kernel⟩,
   ⟨d0, (tst .ke 0 true), by decide +kernel⟩,
   ⟨d0, (tst .l1Way 0 false), and2 (by decide +kernel) (by delta Quiet; decide +kernel)⟩,
   ⟨(noLa d0), (tst .coreLogic 0 false), and3 (by decide +kernel) (by delta Quiet; decide +kernel)⟩,
   ⟨sEr, 1, (er 9), ([er 10]), and3 (by decide +kernel) ⟨by delta Quiet; decide +kernel, by delta NoWaitt; decide +kernel⟩⟩⟩

/-- States that meet the hypotheses of O59. -/
theorem test_meets_ErrorsAreContained_2 :
    (∃ (s : State) (line : Nat), inTier0 (128 * line) = true ∧ (s.die (128 * line / 2 ^ 38 % 4)).ringOpen = false) ∧
    (∃ (s : State) (die : Nat) (bank : Nat), bank < 32 ∧ die < s.dies.length ∧ (s.die die).refresh = none ∧ bank * 3840 ≤
      (s.die die).clock % 122880 ∧ (s.die die).clock % 122880 < bank * 3840 + 384) ∧
    (∃ (s : State) (die : Nat) (bank : Nat), bank < 32 ∧ die < s.dies.length ∧ (s.die die).refresh = some bank ∧ ((s.die
      die).clock % 122880 < bank * 3840 ∨ bank * 3840 + 384 ≤ (s.die die).clock % 122880) ∧ Quiet s) ∧
    (∃ (s : State) (k : GKey) (g : Group) (pc : Word) (l : Launch) (c : DecodeFault), s.turn = Agent.group k ∧ s.group? k =
      some g ∧ g.canIssue = true ∧ g.minPc = some pc ∧ s.launch? k.launch = some l ∧ l.trapv < l.codeLen ∧ g.handler = false ∧
      g.amber = AmberState.idle) ∧
    (∃ (s : State) (id : Nat) (e : Engine) (c : DecodeFault), s.turn = Agent.engine id ∧ s.engine? id = some e ∧ e.canIssue =
      true) :=
  ⟨⟨d0, 5, by decide +kernel⟩,
   ⟨({ d0 with dies := d0.dies.map fun (d : Die) => ({ d with clock := 0, refresh := none } : Die) }), 2, 0,
     by decide +kernel⟩,
   ⟨({ d0 with dies := d0.dies.map fun (d : Die) => ({ d with clock := 384, refresh := (some 0) } : Die) }), 2, 0, and4
     (by decide +kernel) (by delta Quiet; decide +kernel)⟩,
   ⟨d0, key, live8, 0, (laOf d0), (.misaligned 6), by decide +kernel⟩,
   ⟨(withProgram (program .ce [] [0,1])), 5, (program .ce [] [0,1]), (.misaligned 6), by decide +kernel⟩⟩

/-- States that meet the hypotheses of O60. -/
theorem test_meets_EvictionGoesThroughItsPhases_1 :
    (∃ (s : State) (n : Node), StartsNext s n 6 ∧ Quiet s) ∧
    (∃ (s : State) (k : NKey) (e : Eviction), s.dev.eviction = some e ∧ e.node = some k ∧ Quiet s ∧ e.phase = EvictPhase.stop
      ∧ e.force = false ∧ e.grace ≠ 0) ∧
    (∃ (s : State) (k : NKey) (e : Eviction), s.dev.eviction = some e ∧ e.node = some k ∧ Quiet s ∧ e.phase = EvictPhase.drain
      ∧ s.runningLaunches = [] ∧ s.copies = [] ∧ s.mscs = [] ∧ s.gathers = [] ∧ s.fabric.remote = []) ∧
    (∃ (s : State) (k : NKey) (e : Eviction), s.dev.eviction = some e ∧ e.node = some k ∧ Quiet s ∧ e.phase = EvictPhase.keys
      ∧ s.reachable e.neigh = false) ∧
    (∃ (s : State) (k : NKey) (e : Eviction), s.dev.eviction = some e ∧ e.node = some k ∧ Quiet s ∧ e.phase =
      EvictPhase.stream) ∧
    (∃ (s : State) (k : NKey) (e : Eviction), s.dev.eviction = some e ∧ e.node = some k ∧ Quiet s ∧ e.phase =
      EvictPhase.routes ∧ e.partners = []) ∧
    (∃ (s : State) (k : NKey) (e : Eviction) (l : Launch), s.dev.eviction = some e ∧ e.node = some k ∧ Quiet s ∧ e.phase =
      EvictPhase.stop ∧ (e.force = true ∨ e.grace = 0) ∧ s.cp.launches = [l] ∧ l.state = LaunchState.running ∧ l.replayDue =
      false ∧ s.finished l = false ∧ s.saveFits l = true) ∧
    (∃ (s : State) (k : NKey) (e : Eviction), s.dev.eviction = some e ∧ e.node = some k ∧ Quiet s ∧ e.phase = EvictPhase.keys
      ∧ s.reachable e.neigh = true) :=
  ⟨⟨(withN (node 0x17 r6 .ready :: others)), (node 0x17 r6 .ready), by delta StartsNext; decide +kernel,
    by delta Quiet; decide +kernel⟩,
   ⟨(sEv (evn .stop 3 false (some ⟨1,0x17⟩) false [])), ⟨1,0x17⟩, (evn .stop 3 false (some ⟨1,0x17⟩) false []), and2
     (by decide +kernel) ⟨by delta Quiet; decide +kernel, by decide +kernel⟩⟩,
   ⟨(sEv (evn .drain 3 false (some ⟨1,0x17⟩) false []) (noL d0)), ⟨1,0x17⟩, (evn .drain 3 false (some ⟨1,0x17⟩) false []),
     and2 (by decide +kernel) ⟨by delta Quiet; decide +kernel, by decide +kernel⟩⟩,
   ⟨(noP (sEv (evn .keys 3 false (some ⟨1,0x17⟩) false []))), ⟨1,0x17⟩, (evn .keys 3 false (some ⟨1,0x17⟩) false []), and2
     (by decide +kernel) ⟨by delta Quiet; decide +kernel, by decide +kernel⟩⟩,
   ⟨(sEv (evn .stream 3 false (some ⟨1,0x17⟩) false [])), ⟨1,0x17⟩, (evn .stream 3 false (some ⟨1,0x17⟩) false []), and2
     (by decide +kernel) ⟨by delta Quiet; decide +kernel, by decide +kernel⟩⟩,
   ⟨(sEv (evn .routes 3 false (some ⟨1,0x17⟩) false [])), ⟨1,0x17⟩, (evn .routes 3 false (some ⟨1,0x17⟩) false []), and2
     (by decide +kernel) ⟨by delta Quiet; decide +kernel, by decide +kernel⟩⟩,
   ⟨(sEv (evn .stop 3 true (some ⟨1,0x17⟩) false []) (sOne d0)), ⟨1,0x17⟩, (evn .stop 3 true (some ⟨1,0x17⟩) false []), laE,
     and2 (by decide +kernel) ⟨by delta Quiet; decide +kernel, by decide +kernel⟩⟩,
   ⟨(sEv (evn .keys 3 true (some ⟨1,0x17⟩) false [])), ⟨1,0x17⟩, (evn .keys 3 true (some ⟨1,0x17⟩) false []), and2
     (by decide +kernel) ⟨by delta Quiet; decide +kernel, by decide +kernel⟩⟩⟩

/-- States that meet the hypotheses of O60. -/
theorem test_meets_EvictionGoesThroughItsPhases_2 :
    (∃ (s : State) (e : Eviction) (l : Launch), s.dev.eviction = some e ∧ e.phase = EvictPhase.drain ∧ e.expired = false ∧
      (e.since + (if e.force = true then 0 else e.grace) * 1900000000 ≤ (s.die 0).clock) ∧ s.cp.launches = [l] ∧ l.state =
      LaunchState.running ∧ l.replayDue = false ∧ s.finished l = false ∧ s.saveFits l = true ∧ Quiet s) ∧
    (∃ (s : State) (e : Eviction) (b : Nat), s.dev.eviction = some e ∧ ((e.phase, b) ∈ [(EvictPhase.stop, 19000000),
      (EvictPhase.drain, ((if e.force = true then 0 else e.grace) + 1) * 1900000000), (EvictPhase.keys, 190000000),
      (EvictPhase.stream, 7600000000), (EvictPhase.routes, 380000000)])) :=
  ⟨⟨(clk 11 (sEv (evn .drain 3 true (some ⟨1,0x17⟩) false []) (sOne d0))), (evn .drain 3 true (some ⟨1,0x17⟩) false []), laE,
    and6 (by decide +kernel) (and3 (by decide +kernel) (by delta Quiet; decide +kernel))⟩,
   ⟨(clk 19000010 (sEv (evn .stop 3 false (some ⟨1,0x17⟩) false []))), (evn .stop 3 false (some ⟨1,0x17⟩) false []), 19000000,
     by decide +kernel⟩⟩

/-- A state that meets the hypotheses of O2, the encoding of a well-formed word. -/
theorem test_meets_DecodeOfEncodeIsTheInstruction : ∃ i : Instr, i.isWord = true ∧ i.wf = true :=
  ⟨.add none ⟨false, 8, 9, 10, false, false, false⟩, by decide +kernel, by decide +kernel⟩

/-- States that meet the hypotheses of O3's clauses of engine programs and of events. -/
theorem test_meets_StepRunsTheInstructionInTurn_events :
    (∃ (s : State) (id : Nat) (e : Engine) (i : Instr), s.inputs = [] ∧ s.turn = .engine id ∧ s.engine? id = some e ∧
      s.engineReady e = true ∧ s.fetch e.group e.core e.pc = .ok i) ∧
    (∃ (s : State) (i : Instr) (rest : List Input), s.inputs = .event i :: rest ∧ isInputEvent i = true) :=
  ⟨⟨codeEngine, 5, eD, .add none ⟨false, 8, 9, 10, false, false, false⟩, by decide +kernel, by decide +kernel,
    by decide +kernel, by decide +kernel, fetches_of (by decide +kernel)⟩,
   ⟨{ State.reset with inputs := [.event .powerLoss] }, .powerLoss, [], rfl, by decide +kernel⟩⟩

/-- A state that meets the hypotheses of O5, and (as O4 says of every state) one from which a step goes on. -/
theorem test_meets_StepKeepsMemoryCanonical : ∃ s t : State, s.canonical = true ∧ step s = .next t :=
  ⟨State.reset, (next_of (by decide +kernel : goesB (step State.reset) = true)).choose, by decide +kernel,
    (next_of (by decide +kernel)).choose_spec⟩

end Sys2Proof.Tests
end

section
/-!
Traps are precise (O29). Every word issues through `issueWord`; what its checks give decides a trap, and a trap that is taken
does what `Traps` says. The rest is what the checks of each kind of word give in a unit.
-/

namespace Sys2Proof.Precise

open Sys2Proof Sys2Proof.Machine Sys2Proof.Claims

/-! ### Taking a trap -/

/-- A fibre after a trap of its group (01 R31, R32): one that runs saves where it goes on and goes to the handler. -/
def entered (pc h : Word) (mask : List Nat) (n : Nat) (y : Lane) : Lane :=
  match y.status, y.park with
  | .live, none => { y with tpc := if mask.contains n then pc else y.pc, pc := h, trapped := true }
  | .live, some (.yield _) => { y with tpc := y.pc, pc := h, trapped := true, park := none }
  | .live, _ => { y with outside := true }
  | _, _ => y

/-- A group after a trap that its handler takes. -/
def inHandler (g : Group) (pc h : Word) (t : TrapInfo) : Group :=
  { g with
    lanes := g.lanes.zipIdx.map fun p => entered pc h t.mask p.2 p.1
    tcause := t.code, tval := t.tval, tmask := maskOf t.mask, handler := true, draining := true
    fetched := [], remoteFail := [] }

theorem takeTrap_eq_inHandler {s : State} {k : GKey} {g : Group} {pc h : Word} {t : TrapInfo} (here : s.group? k = some g)
    (calm : g.amber = .idle) (handler : s.handlerPc g t.code = some h) :
    s.takeTrap k pc t = s.setGroup (inHandler g pc h t) := by
  simp only [State.takeTrap, here, handler]
  rw [if_neg (by simp [calm])]
  rfl

theorem entered_keeps (pc h : Word) (mask : List Nat) (n : Nat) (y : Lane) :
    (entered pc h mask n y).v = y.v ∧ (entered pc h mask n y).preds = y.preds ∧ (entered pc h mask n y).vb = y.vb ∧
      (entered pc h mask n y).fpsr = y.fpsr := by
  unfold entered
  split <;> exact ⟨rfl, rfl, rfl, rfl⟩

theorem entered_of_running (pc h : Word) (mask : List Nat) (n : Nat) {y : Lane} (live : y.status = .live)
    (free : y.park = none) :
    entered pc h mask n y = { y with tpc := if n ∈ mask then pc else y.pc, pc := h, trapped := true } := by
  simp [entered, live, free]

theorem inHandler_lane? {g : Group} {pc h : Word} {t : TrapInfo} {n : Nat} {y : Lane} (here : g.lane? n = some y) :
    (inHandler g pc h t).lane? n = some (entered pc h t.mask n y) := by
  unfold Group.lane? at here ⊢
  simp [inHandler, here]

/-- A word that answers with a trap, other than a consumption of poison, traps precisely. -/
theorem traps_of_takeTrap {i : Instr} {s : State} {k : GKey} {g : Group} {cause : BitVec 8} {tval : DWord} {mask : List Nat}
    (turn : Turn i s k g) (ne : cause ≠ tPOISON)
    (run : exec i s = .next (s.drawn.takeTrap k (g.issue i).pc ⟨cause, tval, mask⟩)) : Traps i s k g cause tval mask := by
  intro l hl hv hh
  obtain ⟨-, here, -, calm⟩ := turn
  have here' : s.drawn.group? k = some g := here
  have hk : g.key = k := group?_key here
  have handler : s.drawn.handlerPc g cause = some (BitVec.ofNat 32 l.trapv) := by
    have hl' : s.drawn.launch? g.key.launch = some l := hk ▸ hl
    simp [State.handlerPc, hl', ne, hh, hv]
  rw [takeTrap_eq_inHandler here' calm handler] at run
  refine ⟨_, inHandler g (g.issue i).pc (BitVec.ofNat 32 l.trapv) ⟨cause, tval, mask⟩, ⟨run, ?_⟩, rfl, ?_, rfl, rfl, rfl,
    rfl, rfl, rfl, rfl, rfl, rfl, rfl, rfl, ?_⟩
  · simp [State.group?_setGroup, here', inHandler, hk]
  · intro k' hne
    have key : (inHandler g (g.issue i).pc (BitVec.ofNat 32 l.trapv) ⟨cause, tval, mask⟩).key = k := hk
    rw [State.group?_setGroup, key]
    simp [hne]
    rfl
  · intro n y hy
    obtain ⟨hv, hp, hb, hf⟩ := entered_keeps (g.issue i).pc (BitVec.ofNat 32 l.trapv) mask n y
    refine ⟨_, inHandler_lane? hy, hv, hp, hb, hf, fun live free => ?_⟩
    rw [entered_of_running _ _ _ _ live free]
    exact ⟨rfl, rfl, rfl⟩

/-! ### Words issue through their checks -/

/-- The meaning of every word is `issueWord` of its own checks and effects. -/
theorem exec_word {i : Instr} (h : i.isWord = true) (s : State) :
    ∃ own eff eng, exec i s = issueWord i s own eff eng := by
  cases i <;> simp only [Instr.isWord, Bool.false_eq_true] at h <;> exact ⟨_, _, _, rfl⟩

/-- A word whose effect is a result in registers has no check of its own. -/
theorem exec_resultWord {i : Instr} (h : isResultWord i = true) (s : State) :
    ∃ eff eng, exec i s = issueWord i s noCheck eff eng := by
  cases i <;> simp only [isResultWord, isPlainWord, isFlagWord, Bool.or_self, Bool.false_eq_true] at h <;> exact ⟨_, _, rfl⟩

section
variable {i : Instr} {s : State} {k : GKey} {g : Group} {own : Issue → Group → Option Nat → Option UnitErr}
  {eff : Issue → Group → State → Effect} {eng : Engine → Desc → State → State}

/-- A word that fails a check of the word as a whole (02 R57, checks 2 to 7) traps in the active fibres. -/
theorem issueWord_badWord (turn : Turn i s k g) {c : BitVec 8} {v : DWord} (bad : wordChecks s g (g.issue i) = some (c, v)) :
    issueWord i s own eff eng = .next (s.drawn.takeTrap k (g.issue i).pc ⟨c, v, (g.issue i).wholeMask⟩) := by
  obtain ⟨turn, here, ready, calm⟩ := turn
  simp [issueWord, turn, issueGroup, here, ready, calm, bad]

/-- A word that passes those checks and fails in a unit raises what `verdict` chooses (01 R31). -/
theorem issueWord_badUnit (turn : Turn i s k g) (legal : wordChecks s g (g.issue i) = none) {t : TrapInfo}
    (bad : verdict (g.issue i) (issueErrs s g (g.issue i) own) = some t) :
    issueWord i s own eff eng = .next (s.drawn.raise (g.issue i) t) := by
  obtain ⟨turn, here, ready, calm⟩ := turn
  simp [issueWord, turn, issueGroup, here, ready, calm, legal, bad]

end

theorem wholeMask_eq (x : Issue) : x.wholeMask = if x.active = [] then x.issuing else x.active := by
  simp [Issue.wholeMask]

theorem traps_of_wordChecks {i : Instr} {s : State} {k : GKey} {g : Group} {c : BitVec 8} {v : DWord} (turn : Turn i s k g)
    (word : i.isWord = true) (ne : c ≠ tPOISON) (bad : wordChecks s g (g.issue i) = some (c, v)) :
    Traps i s k g c v (if (g.issue i).active = [] then (g.issue i).issuing else (g.issue i).active) := by
  obtain ⟨own, eff, eng, run⟩ := exec_word word s
  rw [issueWord_badWord turn bad, wholeMask_eq] at run
  exact traps_of_takeTrap turn ne run

/-! ### The checks of the whole word -/

section
variable {i : Instr} {s : State} {g : Group} (major : (majorOf i.baseWord).toNat < 0x7A)
include major

theorem wordChecks_badPfx (bad : (describe g.w i).pfxOk i.pfx = false) :
    wordChecks s g (g.issue i) = some (tILLEGAL, pfxWord64 i) := by
  have hx : (g.issue i).desc.pfxOk (g.issue i).pfx = false := bad
  simp only [wordChecks, hx]
  rw [if_neg (by simpa [Group.issue] using major)]
  rfl

theorem wordChecks_illegal (pfx : (describe g.w i).pfxOk i.pfx = true)
    (bad : (i.wf && (describe g.w i).legal && (describe g.w i).aligned && (describe g.w i).mixOk) = false) :
    wordChecks s g (g.issue i) = some (tILLEGAL, baseWord64 i) := by
  have hp : (g.issue i).desc.pfxOk (g.issue i).pfx = true := pfx
  have hb : ((g.issue i).instr.wf && (g.issue i).desc.legal && (g.issue i).desc.aligned && (g.issue i).desc.mixOk) = false :=
    bad
  simp only [wordChecks, hp, hb]
  rw [if_neg (by simpa [Group.issue] using major)]
  rfl

theorem wordChecks_noFeature (pfx : (describe g.w i).pfxOk i.pfx = true)
    (legal : (i.wf && (describe g.w i).legal && (describe g.w i).aligned && (describe g.w i).mixOk) = true)
    (within : ∀ l ∈ g.issuingSet, beyondCount g (s.regLimits g.key) (describe g.w i) (some l) = none) {b : Nat}
    (feature : (describe g.w i).feature = some b) (refused : s.accepted b = false) :
    wordChecks s g (g.issue i) = some (tFEATURE, BitVec.ofNat 64 b) := by
  have hp : (g.issue i).desc.pfxOk (g.issue i).pfx = true := pfx
  have hb : ((g.issue i).instr.wf && (g.issue i).desc.legal && (g.issue i).desc.aligned && (g.issue i).desc.mixOk) = true :=
    legal
  have hf : (g.issue i).desc.feature = some b := feature
  have hn : (g.issue i).issuing.findSome? (fun l => beyondCount g (s.regLimits g.key) (g.issue i).desc (some l)) = none :=
    List.findSome?_eq_none_iff.mpr within
  simp only [wordChecks, hp, hb, hn, hf, refused]
  rw [if_neg (by simpa [Group.issue] using major)]
  rfl

end

/-- No register of a word lies beyond its count, when each operand stays in its half of the fields and below the limit of its
file. -/
theorem beyondCount_none {g : Group} {lim : Nat × Nat} {d : Desc} {u : Option Nat}
    (below : ∀ o ∈ d.ops, ∀ j < o.count,
      g.regNum u (o.field.toNat + j) < (if isUni o.field then lim.2 else lim.1))
    (half : ∀ o ∈ d.ops, isUni o.field = true ∨ o.field.toNat + o.count ≤ 96) : beyondCount g lim d u = none := by
  unfold beyondCount
  simp only [List.findSome?_eq_none_iff]
  intro o ho j hj
  obtain ⟨ho, -⟩ := List.mem_filter.mp ho
  have hj := List.mem_range.mp hj
  have hb := below o ho j hj
  have file : (96 ≤ o.field.toNat + j) ↔ isUni o.field = true := by
    have := half o ho
    simp only [isUni, decide_eq_true_eq] at this ⊢
    omega
  simp only [file]
  rw [if_neg (by omega)]

/-! ### What the units raise -/

theorem filterMap_eq_of_eq {α β : Type} {f h : α → Option β} {l : List α} (eq : ∀ a ∈ l, f a = h a) :
    l.filterMap f = l.filterMap h := by
  induction l with
  | nil => rfl
  | cons a t ih =>
    rw [List.filterMap_cons, List.filterMap_cons, eq a List.mem_cons_self, ih fun b hb => eq b (List.mem_cons_of_mem _ hb)]

theorem find?_eq_of_eq {α : Type} {p q : α → Bool} {l : List α} (eq : ∀ a ∈ l, p a = q a) : l.find? p = l.find? q := by
  induction l with
  | nil => rfl
  | cons a t ih =>
    rw [List.find?_cons, List.find?_cons, eq a List.mem_cons_self, ih fun b hb => eq b (List.mem_cons_of_mem _ hb)]

/-- What a unit raises at the issue of a word: a register that it may not read, else a cause of the word's own (01 R31). -/
def unitErr (own : Issue → Group → Option Nat → Option UnitErr) (s : State) (g : Group) (x : Issue) (u : Option Nat) :
    Option UnitErr :=
  (regChecks s g u (unitFields s g x u)).or (own x g u)

theorem issue_active (g : Group) (i : Instr) :
    (g.issue i).active = (g.issue i).issuing.filter fun l => (g.lane? l).any (maskBit i.pfx) := rfl

/-- With no poisoned mask the errors of a word are those of its units, in their order. -/
theorem issueErrs_eq (own : Issue → Group → Option Nat → Option UnitErr) (s : State) {g : Group} {i : Instr}
    (clean : maskPoison g (g.issue i) = []) :
    issueErrs s g (g.issue i) own = (g.issue i).units.filterMap (unitErr own s g (g.issue i)) := by
  have lanes (E : Option Nat → Option UnitErr) :
      (g.issue i).issuing.filterMap (fun l => (if (g.issue i).active.contains l then E (some l) else none).or none) =
        ((g.issue i).active.map some).filterMap E := by
    rw [issue_active, List.filterMap_map, List.filterMap_filter]
    apply filterMap_eq_of_eq
    intro l hl
    simp [hl]
  unfold issueErrs Issue.units
  simp only [clean, List.find?_nil]
  split
  · show (unitErr own s g (g.issue i) none).toList = _
    cases h : unitErr own s g (g.issue i) none <;> simp [h]
  · exact lanes (unitErr own s g (g.issue i))

/-- The code that `verdict` chooses is the one raised that is least. -/
theorem foldl_least {c : BitVec 8} (l : List UnitErr) (a : BitVec 8) (least : ∀ e ∈ l, c.toNat ≤ e.code.toNat)
    (ha : c.toNat ≤ a.toNat) (raised : a = c ∨ ∃ e ∈ l, e.code = c) :
    l.foldl (fun c y => if y.code.toNat < c.toNat then y.code else c) a = c := by
  induction l generalizing a with
  | nil => simpa using raised
  | cons y t ih =>
    have hy := least y List.mem_cons_self
    rw [List.foldl_cons]
    refine ih _ (fun e he => least e (List.mem_cons_of_mem _ he)) (by split <;> assumption) ?_
    simp only [List.mem_cons, exists_eq_or_imp] at raised
    obtain rfl | rfl | later := raised
    · exact .inl (if_neg (by omega))
    · by_cases h : y.code.toNat < a.toNat
      · exact .inl (if_pos h)
      · exact .inl ((if_neg h).trans (BitVec.eq_of_toNat_eq (by omega)))
    · exact .inr later

theorem units_isNone {x : Issue} {v : Option Nat} (h : v ∈ x.units) : v.isNone = x.once := by
  unfold Issue.units at h
  split at h
  · simp_all
  · obtain ⟨l, -, rfl⟩ := List.mem_map.mp h
    simp_all

/-- 01 R31: of what the units raise, the lowest code traps, in the units that raise it, with the value of the lowest. -/
theorem verdict_units {x : Issue} {E : Option Nat → Option UnitErr} {code : BitVec 8} {tval : DWord} {u : Option Nat}
    {us : List (Option Nat)} (least : ∀ v ∈ x.units, ∀ e, E v = some e → e.unit = v ∧ code.toNat ≤ e.code.toNat)
    (those : (x.units.filter fun v => (E v).any (·.code == code)) = u :: us) (first : E u = some ⟨u, code, tval⟩) :
    verdict x (x.units.filterMap E) = some ⟨code, tval, lanesOf x (u :: us)⟩ := by
  have kept : (x.units.filterMap E).filter (·.code == code) = (u :: us).filterMap E := by
    rw [← those, List.filterMap_filter, List.filter_filterMap]
    apply filterMap_eq_of_eq
    intro v _
    cases E v <;> simp [Option.filter]
  have raised : ∀ v ∈ u :: us, v ∈ x.units ∧ (E v).map (·.unit) = some v := by
    intro v hv
    rw [← those, List.mem_filter, Option.any_eq_true] at hv
    obtain ⟨hu, e, he, -⟩ := hv
    exact ⟨hu, by rw [he, Option.map_some, (least v hu e he).1]⟩
  have names : ((u :: us).filterMap E).map (·.unit) = u :: us := by
    rw [List.map_filterMap, filterMap_eq_of_eq fun v hv => (raised v hv).2, List.filterMap_some]
  have head : ((u :: us).filterMap E).head? = some ⟨u, code, tval⟩ := by simp [first]
  have whole : ((u :: us).filterMap E).any (fun y => y.unit.isNone) = x.once := by
    calc ((u :: us).filterMap E).any (fun y => y.unit.isNone)
        = (((u :: us).filterMap E).map (·.unit)).any Option.isNone := by rw [List.any_map]; rfl
      _ = (u :: us).any Option.isNone := by rw [names]
      _ = (u :: us).any fun _ => x.once := by
        rw [Bool.eq_iff_iff, List.any_eq_true, List.any_eq_true]
        exact exists_congr fun v => and_congr_right fun hv => by rw [units_isNone (raised v hv).1]
      _ = x.once := by simp
  have lanes : ((u :: us).filterMap E).filterMap (·.unit) = (u :: us).filterMap id := by
    conv =>
      rhs
      rw [← names, List.filterMap_map]
    rfl
  cases hE : x.units.filterMap E with
  | nil => simp [hE, ← kept] at head
  | cons e t =>
    have ge : ∀ y ∈ e :: t, code.toNat ≤ y.code.toNat := by
      intro y hy
      obtain ⟨v, hv, he⟩ := List.mem_filterMap.mp (hE ▸ hy)
      exact (least v hv y he).2
    have some_raised : ∃ y ∈ e :: t, y.code = code := by
      have := List.mem_of_mem_head? head
      rw [← kept, List.mem_filter, hE] at this
      exact ⟨_, this.1, rfl⟩
    have chosen := foldl_least t e.code (fun y hy => ge y (List.mem_cons_of_mem _ hy)) (ge e List.mem_cons_self)
      (by simpa [eq_comm] using some_raised)
    rw [hE] at kept
    simp only [verdict, chosen, kept, head, whole, lanes, lanesOf, Option.elim_some]

/-- A word whose units raise errors, the lowest of them no consumption of poison, traps in the units that raise it. -/
theorem traps_of_unitErr {i : Instr} {s : State} {k : GKey} {g : Group} {own : Issue → Group → Option Nat → Option UnitErr}
    {eff : Issue → Group → State → Effect} {eng : Engine → Desc → State → State} {code : BitVec 8} {tval : DWord}
    {u : Option Nat} {us : List (Option Nat)} (run : exec i s = issueWord i s own eff eng) (turn : Turn i s k g)
    (legal : wordChecks s g (g.issue i) = none) (mask : maskPoison g (g.issue i) = []) (ne : code ≠ tPOISON)
    (least : ∀ v ∈ (g.issue i).units, ∀ e, unitErr own s g (g.issue i) v = some e → e.unit = v ∧ code.toNat ≤ e.code.toNat)
    (those : ((g.issue i).units.filter fun v => (unitErr own s g (g.issue i) v).any (·.code == code)) = u :: us)
    (first : unitErr own s g (g.issue i) u = some ⟨u, code, tval⟩) :
    Traps i s k g code tval (lanesOf (g.issue i) (u :: us)) := by
  have verdict_eq := verdict_units least those first
  rw [← issueErrs_eq own s mask] at verdict_eq
  have hk : (g.issue i).key = k := group?_key turn.here
  refine traps_of_takeTrap turn ne ?_
  rw [run, issueWord_badUnit turn legal verdict_eq, State.raise, if_neg (by simpa using ne), hk]

/-! ### Dead registers -/

theorem hazard_none {g : Group} {u : Option Nat} {fs : List Nat} (fresh : ∀ f ∈ fs, g.runWrites u f = []) :
    fs.find? (g.hazard u) = none := by
  rw [List.find?_eq_none]
  intro f hf
  simp [Group.hazard, fresh f hf]

/-- Where the run wrote none of the registers, the checks of a unit's registers find the first dead one. -/
theorem regChecks_fresh (s : State) {g : Group} {u : Option Nat} {fs : List Nat} (fresh : ∀ f ∈ fs, g.runWrites u f = []) :
    regChecks s g u fs =
      (fs.find? fun f => (g.reg? u f).isNone).map fun f => ⟨u, tDEADREG, BitVec.ofNat 64 (g.regNum u f)⟩ := by
  have read : fs.find? (fun f => (readField s g u f).1.isNone) = fs.find? fun f => (g.reg? u f).isNone :=
    find?_eq_of_eq fun f hf => by rw [readField_fresh s g u f (fresh f hf)]
  unfold regChecks
  rw [hazard_none fresh, read, ite_self]
  cases fs.find? fun f => (g.reg? u f).isNone <;> rfl

/-- Where every register is live and the run wrote none, a unit raises what the word's own check gives. -/
theorem unitErr_of_issues {i : Instr} {s : State} {k : GKey} {g : Group} (h : Issues i s k g)
    (own : Issue → Group → Option Nat → Option UnitErr) {u : Option Nat} (hu : u ∈ (g.issue i).units) :
    unitErr own s g (g.issue i) u = own (g.issue i) g u := by
  rw [unitErr, regChecks_pass s g u _ (h.live u hu) (h.fresh u (.inl hu))]
  rfl

theorem any_map_find? {c : BitVec 8} {e : Nat → UnitErr} (fs : List Nat) (p : Nat → Bool) (code : ∀ n, (e n).code = c) :
    ((fs.find? p).map e).any (·.code == c) = fs.any p := by
  rw [Bool.eq_iff_iff]
  simp [code, Option.any_map]

/-- 01 R25, R31: a result word that reads a dead register traps in the units where it does. -/
theorem resultWord_deadRegister {i : Instr} {s : State} {k : GKey} {g : Group} {u : Option Nat} {us : List (Option Nat)}
    {f : Nat} (word : isResultWord i = true) (turn : Turn i s k g) (legal : wordChecks s g (g.issue i) = none)
    (mask : maskPoison g (g.issue i) = [])
    (fresh : ∀ v ∈ (g.issue i).units, ∀ f ∈ unitFields s g (g.issue i) v, g.runWrites v f = [])
    (those : ((g.issue i).units.filter fun v => (unitFields s g (g.issue i) v).any fun f => (g.reg? v f).isNone) = u :: us)
    (first : ((unitFields s g (g.issue i) u).find? fun f => (g.reg? u f).isNone) = some f) :
    Traps i s k g 0x02 (BitVec.ofNat 64 (g.regNum u f)) (lanesOf (g.issue i) (u :: us)) := by
  obtain ⟨eff, eng, run⟩ := exec_resultWord word s
  have err : ∀ v ∈ (g.issue i).units, unitErr noCheck s g (g.issue i) v =
      ((unitFields s g (g.issue i) v).find? fun f => (g.reg? v f).isNone).map
        fun f => ⟨v, tDEADREG, BitVec.ofNat 64 (g.regNum v f)⟩ := by
    intro v hv
    rw [unitErr, regChecks_fresh s (fresh v hv), noCheck, Option.or_none]
  have hu : u ∈ (g.issue i).units := (List.mem_filter.mp (those ▸ List.mem_cons_self)).1
  refine traps_of_unitErr run turn legal mask (by decide) ?_ ?_ (by rw [err u hu, first]; rfl)
  · intro v hv e he
    rw [err v hv, Option.map_eq_some_iff] at he
    obtain ⟨f, -, rfl⟩ := he
    exact ⟨rfl, Nat.le_refl _⟩
  · rw [← those]
    apply List.filter_congr
    intro v hv
    rw [err v hv]
    exact any_map_find? _ _ fun _ => rfl

/-! ### What an operand holds -/

section
variable {i : Instr} {s : State} {k : GKey} {g : Group}

/-- A unit reads the registers of every operand that its word reads at issue. -/
theorem mem_unitFields {x : Issue} {u : Option Nat} {o : Opnd} {j : Nat} (ho : o ∈ x.desc.ops) (read : o.read = true)
    (now : o.now = true) (hj : j < o.count) : o.field.toNat + j ∈ unitFields s g x u := by
  unfold unitFields
  split
  · exact List.mem_flatMap.mpr ⟨o, List.mem_filter.mpr ⟨ho, by simp [read, now]⟩,
      List.mem_map.mpr ⟨j, List.mem_range.mpr hj, rfl⟩⟩
  · refine List.mem_flatMap.mpr ⟨o, List.mem_filter.mpr ⟨ho, read⟩, ?_⟩
    rw [if_pos now]
    exact List.mem_map.mpr ⟨j, List.mem_range.mpr hj, rfl⟩

theorem opnd?_mem {d : Desc} {r : Role} {o : Opnd} (h : d.opnd? r = some o) : o ∈ d.ops ∧ o.now = true := by
  have hn := List.find?_some h
  simp only [Bool.and_eq_true] at hn
  exact ⟨List.mem_of_find?_eq_some h, hn.2⟩

/-- A word that issues finds its registers as their files hold them (01 R22). -/
theorem readField_of_issues (h : Issues i s k g) {u : Option Nat} (hu : u ∈ (g.issue i).units) {f : Nat}
    (hf : f ∈ unitFields s g (g.issue i) u) : readField s g u f = (g.reg? u f, false) :=
  readField_fresh s g u f (h.fresh u (.inl hu) f hf)

theorem readTag_fresh {u : Option Nat} {f : Nat} (fresh : ∀ j < 4, g.runWrites u (f + j) = []) :
    readTag s g u f = g.quadTag u f := by
  have none : ((List.range 4).findSome? fun j => (g.runWrites u (f + j)).head?) = none := by
    rw [List.findSome?_eq_none_iff]
    intro j hj
    rw [fresh j (List.mem_range.mp hj)]
    rfl
  simp only [readTag, none]
  rfl

/-- The low 32 bits of a value read from one register. -/
theorem ofRegs_one_w (tag : Bool) (r : Option Reg) : (Val.ofRegs tag [r]).w = r.elim 0 (·.val) := by
  cases r with
  | none => rfl
  | some r =>
    apply BitVec.eq_of_toNat_eq
    simpa [Val.w, Val.ofRegs, bitsOf] using r.val.isLt

theorem toNat_append_eq {m n : Nat} (x : BitVec m) (y : BitVec n) : (x ++ y).toNat = x.toNat * 2 ^ n + y.toNat := by
  rw [BitVec.toNat_append, ← Nat.shiftLeft_add_eq_or_of_lt y.isLt, Nat.shiftLeft_eq]

/-- Four words, low first, as one number. -/
theorem ofNat_four_words (a b c d : Word) :
    BitVec.ofNat 128 (a.toNat + 2 ^ 32 * (b.toNat + 2 ^ 32 * (c.toNat + 2 ^ 32 * (d.toNat + 2 ^ 32 * 0)))) =
      (d ++ c : DWord) ++ (b ++ a : DWord) := by
  apply BitVec.eq_of_toNat_eq
  have ha := a.isLt
  have hb := b.isLt
  have hc := c.isLt
  have hd := d.isLt
  simp only [toNat_append_eq, BitVec.toNat_ofNat]
  omega

theorem elim_toNat (r : Option Reg) : r.elim 0 (fun x => x.val.toNat) = (r.elim 0 (·.val) : Word).toNat := by
  cases r <;> rfl

theorem ofRegs_quad_bits (tag : Bool) (a b c d : Option Reg) :
    (Val.ofRegs tag [a, b, c, d]).bits =
      (d.elim 0 (·.val) ++ c.elim 0 (·.val) : DWord) ++ (b.elim 0 (·.val) ++ a.elim 0 (·.val) : DWord) := by
  rw [← ofNat_four_words]
  simp only [← elim_toNat]
  rfl

/-- The word of a one-register operand. -/
theorem readRole_word (h : Issues i s k g) {u : Option Nat} (hu : u ∈ (g.issue i).units) {r : Role} {f : BitVec 7}
    (role : (g.issue i).desc.opnd? r = some (src r f)) : (readRole s g (g.issue i).desc u r).w = g.word u f.toNat := by
  obtain ⟨mem, now⟩ := opnd?_mem role
  have field := readField_of_issues h hu (mem_unitFields (s := s) (j := 0) mem rfl now Nat.one_pos)
  rw [readRole, role]
  show (Val.ofRegs _ [(readField s g u (f.toNat + 0)).1]).w = _
  rw [ofRegs_one_w]
  exact congrArg (fun q : Option Reg × Bool => q.1.elim 0 (·.val)) field

/-- The capability of a quad operand. -/
theorem capOf_issues (h : Issues i s k g) {u : Option Nat} (hu : u ∈ (g.issue i).units) {f : BitVec 7}
    (role : (g.issue i).desc.opnd? .a = some (src .a f 4)) : capOf s g (g.issue i) u = capAt g u f := by
  obtain ⟨mem, now⟩ := opnd?_mem role
  have inFields (j : Nat) (hj : j < 4) : f.toNat + j ∈ unitFields s g (g.issue i) u := mem_unitFields mem rfl now hj
  have field (j : Nat) (hj : j < 4) := readField_of_issues h hu (inFields j hj)
  have tag := readTag_fresh (s := s) fun j hj => h.fresh u (.inl hu) _ (inFields j hj)
  have bits : (readOpnd s g u (src .a f 4)).bits = g.quad u f.toNat := by
    show (Val.ofRegs _ [(readField s g u (f.toNat + 0)).1, (readField s g u (f.toNat + 1)).1, (readField s g u (f.toNat + 2)).1,
      (readField s g u (f.toNat + 3)).1]).bits = _
    rw [ofRegs_quad_bits, field 0 (by decide), field 1 (by decide), field 2 (by decide), field 3 (by decide)]
    rfl
  have tag' : (readOpnd s g u (src .a f 4)).tag = g.quadTag u f.toNat := tag
  rw [capOf, readRole, role]
  simp only [capAt, Cap.ofVal, bits, tag']

/-- The capability and the address of an access by capability and register (06 R152). -/
theorem addrReg_issues (h : Issues i s k g) {u : Option Nat} (hu : u ∈ (g.issue i).units) {f : FmtM}
    (cap : (g.issue i).desc.opnd? .a = some (src .a f.c 4)) (off : (g.issue i).desc.opnd? .b = some (src .b f.o)) :
    addrReg s (g.issue i) g u = byRegister f g u := by
  simp only [addrReg, offsetOf, capOf_issues h hu cap, readRole_word h hu off]
  rfl

/-- The capability and the address of an access by capability and immediate (06 R152). -/
theorem addrImm_issues (h : Issues i s k g) {u : Option Nat} (hu : u ∈ (g.issue i).units) {f : FmtM}
    (cap : (g.issue i).desc.opnd? .a = some (src .a f.c 4)) :
    addrImm f.o (widthBytes f.w.toNat) s (g.issue i) g u = byImmediate f g u := by
  simp only [addrImm, capOf_issues h hu cap]
  rfl

/-- A consumption of poison names its unit, and is a code above those of the checks. -/
theorem consumes_code {u : Option Nat} {fs : List Nat} {e : UnitErr} (h : consumes s g u fs = some e) :
    e.unit = u ∧ e.code = tPOISON := by
  obtain ⟨f, -, rfl⟩ := Option.map_eq_some_iff.mp h
  exact ⟨rfl, rfl⟩

theorem consumes_any_code {c : BitVec 8} (ne : c ≠ tPOISON) {u : Option Nat} {fs : List Nat} :
    (consumes s g u fs).any (·.code == c) = false := by
  cases h : consumes s g u fs with
  | none => rfl
  | some e => simp [(consumes_code h).2, ne.symm]

/-- Clean sources are no consumption (03 R59). -/
theorem consumes_clean (h : Issues i s k g) (clean : CleanSources i g) {u : Option Nat} (hu : u ∈ (g.issue i).units)
    (roles : List Role) : consumes s g u (roleFields (g.issue i).desc roles) = none := by
  rw [consumes, Option.map_eq_none_iff, List.find?_eq_none]
  intro f hf
  obtain ⟨o, ho, hf⟩ := List.mem_flatMap.mp hf
  obtain ⟨j, hj, rfl⟩ := List.mem_map.mp hf
  obtain ⟨mem, role⟩ := List.mem_filter.mp ho
  simp only [Bool.and_eq_true] at role
  obtain ⟨⟨now, read⟩, -⟩ := role
  have inRead : o.field.toNat + j ∈ readFields (g.issue i).desc :=
    List.mem_flatMap.mpr ⟨o, List.mem_filter.mpr ⟨mem, by simp [read, now]⟩, List.mem_map.mpr ⟨j, hj, rfl⟩⟩
  rw [readField_of_issues h hu (mem_unitFields mem read now (List.mem_range.mp hj))]
  cases hr : g.reg? u (o.field.toNat + j) with
  | none => simp [Reg.isPoisoned]
  | some r => simp [Reg.isPoisoned, clean u hu _ inRead r hr]

end

theorem turn_of_issues {i : Instr} {s : State} {k : GKey} {g : Group} (h : Issues i s k g) (calm : g.amber = .idle) :
    Turn i s k g := ⟨h.turn, h.here, h.ready, calm⟩

/-! ### Global accesses -/

theorem capFault_code {c : Cap} {e n d : Nat} {rights : BitVec 8} (h : capFault c e n rights = some d) :
    d = 4 ∨ d = 5 ∨ d = 6 := by
  unfold capFault at h
  split at h
  · exact .inl (Option.some.inj h).symm
  · split at h
    · exact .inr (.inl (Option.some.inj h).symm)
    · split at h
      · exact .inr (.inr (Option.some.inj h).symm)
      · cases h

theorem capFault_toNat {c : Cap} {e n d : Nat} {rights : BitVec 8} (h : capFault c e n rights = some d) :
    (BitVec.ofNat 8 d).toNat = d ∧ d < 7 := by
  obtain rfl | rfl | rfl := capFault_code h <;> decide

theorem capCheck_eq (c : Cap) (e n : Nat) (rights : BitVec 8) :
    capCheck c e n rights = (capFault c e n rights).map (BitVec.ofNat 8) := by
  unfold capCheck capFault
  cases c.tag
  · rfl
  · simp only [Cap.has, Bool.not_true, Bool.false_eq_true, if_false, Bool.or_eq_true, decide_eq_true_eq, reduceCtorEq,
      Bool.not_eq_true', beq_eq_false_iff_ne]
    split
    · rfl
    · split <;> rfl

section
variable {s : State} {e n : Nat} {cap : Cap} {rights : BitVec 8} {aligned : Bool} {roles : List Role} {x : Issue} {g : Group}
  {u : Option Nat}

/-- An access whose capability fails raises the code of the part that fails, with its address (03 R85). -/
theorem globalCheck_of_capFault {d : Nat} (h : capFault cap e n rights = some d) :
    globalCheck s e n cap rights aligned roles x g u = some ⟨u, BitVec.ofNat 8 d, BitVec.ofNat 64 e⟩ := by
  simp [globalCheck, capCheck_eq, h]

/-- What an access raises whose capability allows it comes after the codes of a capability. -/
theorem globalCheck_of_allowed (h : capFault cap e n rights = none) {err : UnitErr}
    (he : globalCheck s e n cap rights aligned roles x g u = some err) : err.unit = u ∧ 7 ≤ err.code.toNat := by
  simp only [globalCheck, capCheck_eq, h, Option.map_none] at he
  split at he
  · cases he
    exact ⟨rfl, (by decide : 7 ≤ tALIGN.toNat)⟩
  · obtain ⟨hu, hc⟩ := consumes_code he
    exact ⟨hu, by rw [hc]; decide⟩

/-- A code of a capability that is least among those of the units comes before everything that a unit raises. -/
theorem globalCheck_least {code : Nat} (below : code < 7) (least : ∀ d, capFault cap e n rights = some d → code ≤ d)
    {err : UnitErr} (he : globalCheck s e n cap rights aligned roles x g u = some err) :
    err.unit = u ∧ code ≤ err.code.toNat := by
  cases hf : capFault cap e n rights with
  | none =>
    obtain ⟨unit, above⟩ := globalCheck_of_allowed hf he
    exact ⟨unit, by omega⟩
  | some d =>
    rw [globalCheck_of_capFault hf, Option.some.injEq] at he
    subst he
    exact ⟨rfl, (capFault_toNat hf).1.symm ▸ least d hf⟩

/-- A unit raises a code of a capability exactly where its capability fails with it. -/
theorem globalCheck_any_code {code : Nat} (toNat : (BitVec.ofNat 8 code).toNat = code) (below : code < 7) :
    (globalCheck s e n cap rights aligned roles x g u).any (·.code == BitVec.ofNat 8 code) =
      (capFault cap e n rights == some code) := by
  rw [Bool.eq_iff_iff, beq_iff_eq, Option.any_eq_true]
  cases hf : capFault cap e n rights with
  | none =>
    refine iff_of_false (fun ⟨err, he, hc⟩ => ?_) nofun
    have above := (globalCheck_of_allowed hf he).2
    rw [eq_of_beq hc, toNat] at above
    omega
  | some d =>
    have same : BitVec.ofNat 8 d = BitVec.ofNat 8 code ↔ d = code :=
      ⟨fun e => by rw [← (capFault_toNat hf).1, e, toNat], fun e => e ▸ rfl⟩
    simp [globalCheck_of_capFault hf, same]

end

/-- The check of an access of `n` bytes through a capability with these rights, in each unit at `addr`. -/
def accessCheck (addr : Issue → Group → Option Nat → Cap × Nat) (s : State) (n : Nat) (rights : BitVec 8) (aligned : Bool)
    (roles : List Role) : Issue → Group → Option Nat → Option UnitErr :=
  fun x g u => globalCheck s (addr x g u).2 n (addr x g u).1 rights aligned roles x g u

/-- The word's own check is that of an access. -/
def ChecksAccess (i : Instr) (n : Nat) (rights : BitVec 8) (addr : State → Issue → Group → Option Nat → Cap × Nat) : Prop :=
  ∀ s, ∃ aligned roles eff eng, exec i s = issueWord i s (accessCheck (addr s) s n rights aligned roles) eff eng

theorem checksCapability_of_access {i : Instr} {c : BitVec 7} {n : Nat} {rights : BitVec 8}
    {addr : State → Issue → Group → Option Nat → Cap × Nat} {pos : Group → Option Nat → Nat}
    (access : ChecksAccess i n rights addr)
    (addr_eq : ∀ s k g, Issues i s k g → ∀ u ∈ (g.issue i).units, addr s (g.issue i) g u = (capAt g u c, pos g u)) :
    ChecksCapability i c n rights pos := by
  intro s k g code u us h calm fault least those
  obtain ⟨aligned, roles, eff, eng, run⟩ := access s
  have err : ∀ v ∈ (g.issue i).units, unitErr (accessCheck (addr s) s n rights aligned roles) s g (g.issue i) v =
      globalCheck s (pos g v) n (capAt g v c) rights aligned roles (g.issue i) g v := by
    intro v hv
    rw [unitErr_of_issues h _ hv, accessCheck, addr_eq s k g h v hv]
  have member : u ∈ (g.issue i).units.filter fun v => fault v == some code := those ▸ List.mem_cons_self
  obtain ⟨hu, hcode⟩ := List.mem_filter.mp member
  have hcode : fault u = some code := eq_of_beq hcode
  obtain ⟨toNat, below⟩ := capFault_toNat hcode
  refine traps_of_unitErr run (turn_of_issues h calm) h.legal h.mask (fun e => ?_) ?_ ?_
    ((err u hu).trans (globalCheck_of_capFault hcode))
  · rw [e] at toNat
    exact absurd (toNat ▸ below) (by decide)
  · intro v hv e he
    rw [err v hv] at he
    rw [toNat]
    exact globalCheck_least below (least v hv) he
  · rw [← those]
    refine List.filter_congr fun v hv => ?_
    rw [err v hv, globalCheck_any_code toNat below]

theorem globalLoad_checksAccess {i : Instr} {w : Nat} {aligned : Bool} {addr : State → Issue → Group → Option Nat → Cap × Nat}
    {eng : Engine → Desc → State → State} (run : ∀ s, exec i s = globalLoad i s w aligned addr eng) :
    ChecksAccess i (widthBytes w) rightR addr := by
  intro s
  obtain ⟨eff, issue⟩ : ∃ eff, globalLoad i s w aligned addr eng = issueWord i s (fun x g u =>
      (globalCheck s (addr s x g u).2 (widthBytes w) (addr s x g u).1 rightR aligned [.a, .b] x g u).map fun e => e) eff eng :=
    ⟨_, rfl⟩
  have own : accessCheck (addr s) s (widthBytes w) rightR aligned [.a, .b] = fun x g u =>
      (globalCheck s (addr s x g u).2 (widthBytes w) (addr s x g u).1 rightR aligned [.a, .b] x g u).map fun e => e := by
    funext x g u
    exact Option.map_id'.symm
  exact ⟨aligned, [.a, .b], eff, eng, by rw [run s, issue, own]⟩

theorem checksCapability_byRegister {i : Instr} {f : FmtM} {n : Nat} {rights : BitVec 8} (access : ChecksAccess i n rights addrReg)
    (cap : ∀ w, (describe w i).opnd? .a = some (src .a f.c 4)) (off : ∀ w, (describe w i).opnd? .b = some (src .b f.o)) :
    ChecksCapability i f.c n rights fun g u => (byRegister f g u).2 :=
  checksCapability_of_access access fun _ _ g h _ hu => addrReg_issues h hu (cap g.w) (off g.w)

theorem checksCapability_byImmediate {i : Instr} {f : FmtM} {n : Nat} {rights : BitVec 8}
    (access : ChecksAccess i n rights (addrImm f.o (widthBytes f.w.toNat)))
    (cap : ∀ w, (describe w i).opnd? .a = some (src .a f.c 4)) :
    ChecksCapability i f.c n rights fun g u => (byImmediate f g u).2 :=
  checksCapability_of_access access fun _ _ g h _ hu => addrImm_issues h hu (cap g.w)

/-! ### Local accesses -/

/-- What a local access raises in a unit: it lies outside its block's memory, else it is misaligned or too wide for its view, else
it consumes poison (06 R144, R148, R153). -/
def localErr (inside crooked : Option Nat → Bool) (pos : Option Nat → Nat) (poison : Option Nat → Option UnitErr)
    (u : Option Nat) : Option UnitErr :=
  if inside u = false then some ⟨u, tLOCALBOUNDS, BitVec.ofNat 64 (pos u)⟩
  else if crooked u = true then some ⟨u, tALIGN, BitVec.ofNat 64 (pos u)⟩
  else poison u

section
variable {s : State} {g : Group} {inside crooked : Option Nat → Bool} {pos : Option Nat → Nat} {fs : List Nat} {u : Option Nat}

/-- ALIGN is the least code of a local access. -/
theorem localErr_least {e : UnitErr} (h : localErr inside crooked pos (consumes s g · fs) u = some e) :
    e.unit = u ∧ tALIGN.toNat ≤ e.code.toNat := by
  unfold localErr at h
  split at h
  · cases h
    exact ⟨rfl, (by decide : tALIGN.toNat ≤ tLOCALBOUNDS.toNat)⟩
  · split at h
    · cases h
      exact ⟨rfl, Nat.le_refl _⟩
    · obtain ⟨unit, code⟩ := consumes_code h
      exact ⟨unit, code ▸ (by decide : tALIGN.toNat ≤ tPOISON.toNat)⟩

theorem localErr_any_align :
    (localErr inside crooked pos (consumes s g · fs) u).any (·.code == tALIGN) = (inside u && crooked u) := by
  unfold localErr
  cases inside u with
  | false => rfl
  | true =>
    cases crooked u with
    | true => rfl
    | false => exact consumes_any_code (by decide)

/-- With clean sources, and no misaligned unit inside the memory, only a unit outside raises anything. -/
theorem localErr_straight (straight : inside u = true → crooked u = false) (clean : consumes s g u fs = none) :
    localErr inside crooked pos (consumes s g · fs) u =
      if inside u = false then some ⟨u, tLOCALBOUNDS, BitVec.ofNat 64 (pos u)⟩ else none := by
  unfold localErr
  split
  · rfl
  · rename_i h
    simp [straight (by simpa using h), clean]

end

theorem localCheck_issues {i : Instr} {s : State} {k : GKey} {g : Group} {f : FmtM} {n : Nat} {roles : List Role}
    {u : Option Nat} (h : Issues i s k g) (hu : u ∈ (g.issue i).units)
    (a : (g.issue i).desc.opnd? .a = some (src .a f.c)) (b : (g.issue i).desc.opnd? .b = some (src .b f.o)) :
    localCheck s n roles (g.issue i) g u = localErr
      (fun v => localOk (s.localLimits k.launch k.block).1 (s.localLimits k.launch k.block).2 (localAt f g v) n)
      (fun v => localAt f g v % n != 0 || ((localAt f g v).testBit 31 && decide (4 < n))) (localAt f g)
      (consumes s g · (roleFields (g.issue i).desc roles)) u := by
  simp only [localCheck, readRole_word h hu a, readRole_word h hu b, group?_key h.here, Bool.not_eq_true', localErr]
  rfl

theorem checksLocal_of_localCheck {i : Instr} {f : FmtM} {n : Nat} {roles : List Role}
    (access : ∀ s, ∃ eff eng, exec i s = issueWord i s (localCheck s n roles) eff eng)
    (a : ∀ w, (describe w i).opnd? .a = some (src .a f.c)) (b : ∀ w, (describe w i).opnd? .b = some (src .b f.o)) :
    ChecksLocal i f n := by
  intro s k g u us h calm inside crooked
  obtain ⟨eff, eng, run⟩ := access s
  have err : ∀ v ∈ (g.issue i).units, unitErr (localCheck s n roles) s g (g.issue i) v =
      localErr inside crooked (localAt f g) (consumes s g · (roleFields (g.issue i).desc roles)) v := fun v hv =>
    (unitErr_of_issues h _ hv).trans (localCheck_issues h hv (a g.w) (b g.w))
  constructor
  · intro those
    have member : u ∈ (g.issue i).units.filter fun v => inside v && crooked v := those ▸ List.mem_cons_self
    obtain ⟨hu, hin, hcr⟩ : u ∈ (g.issue i).units ∧ inside u = true ∧ crooked u = true := by simpa using member
    refine traps_of_unitErr run (turn_of_issues h calm) h.legal h.mask (by decide) (fun v hv e he => ?_) ?_
      (by simp [err u hu, localErr, hin, hcr]; rfl)
    · exact localErr_least ((err v hv).symm.trans he)
    · rw [← those]
      exact List.filter_congr fun v hv => by rw [err v hv]; exact localErr_any_align
  · intro straight clean those
    have outside : ∀ v ∈ (g.issue i).units, unitErr (localCheck s n roles) s g (g.issue i) v =
        if inside v = false then some ⟨v, tLOCALBOUNDS, BitVec.ofNat 64 (localAt f g v)⟩ else none := fun v hv =>
      (err v hv).trans (localErr_straight (straight v hv) (consumes_clean h clean hv roles))
    have member : u ∈ (g.issue i).units.filter fun v => !inside v := those ▸ List.mem_cons_self
    obtain ⟨hu, hout⟩ : u ∈ (g.issue i).units ∧ inside u = false := by simpa using member
    refine traps_of_unitErr run (turn_of_issues h calm) h.legal h.mask (by decide) (fun v hv e he => ?_) ?_
      (by simp [outside u hu, hout]; rfl)
    · rw [outside v hv] at he
      split at he
      · cases he
        exact ⟨rfl, Nat.le_refl _⟩
      · cases he
    · rw [← those]
      refine List.filter_congr fun v hv => ?_
      rw [outside v hv]
      cases inside v <;> rfl

/-! ### The obligation -/

/-- 02 R57, 00 R8, 01 R15, 02 R37, R45: what traps the word as a whole. -/
theorem badWords_trap (i : Instr) (s : State) (k : GKey) (g : Group) (turn : Turn i s k g) (word : i.isWord = true)
    (major : (majorOf i.baseWord).toNat < 0x7A) :
    let d := describe g.w i
    let whole := if (g.issue i).active = [] then (g.issue i).issuing else (g.issue i).active
    (d.pfxOk i.pfx = false → ∀ p, i.pfx = some p → Traps i s k g 0x01 (p.toWord.setWidth 64) whole) ∧
    (d.pfxOk i.pfx = true → (i.wf && d.legal && d.aligned && d.mixOk) = false →
      Traps i s k g 0x01 (i.baseWord.setWidth 64) whole) ∧
    (∀ b, d.pfxOk i.pfx = true → (i.wf && d.legal && d.aligned && d.mixOk) = true →
      (∀ o ∈ d.ops, ∀ j < o.count, ∀ l ∈ g.issuingSet,
        g.regNum (some l) (o.field.toNat + j) < (if isUni o.field then (s.regLimits g.key).2 else (s.regLimits g.key).1)) →
      (∀ o ∈ d.ops, isUni o.field = true ∨ o.field.toNat + o.count ≤ 96) →
      d.feature = some b → s.accepted b = false → Traps i s k g 0x10 (BitVec.ofNat 64 b) whole) := by
  refine ⟨fun bad p hp => ?_, fun pfx bad => ?_, fun b pfx legal below half feature refused => ?_⟩
  · have trap := traps_of_wordChecks turn word (by decide) (wordChecks_badPfx major bad)
    rwa [pfxWord64, hp] at trap
  · exact traps_of_wordChecks turn word (by decide) (wordChecks_illegal major pfx bad)
  · exact traps_of_wordChecks turn word (by decide)
      (wordChecks_noFeature major pfx legal (fun l hl => beyondCount_none (fun o ho j hj => below o ho j hj l hl) half)
        feature refused)

/-- Settles O29: every word issues through its checks, and what they give traps as 01 R31 says. -/
theorem trapsArePrecise : Obligations.TrapsArePrecise := by
  unfold Obligations.TrapsArePrecise
  refine ⟨badWords_trap,
    fun _ _ _ _ _ _ _ word turn legal mask fresh those first =>
      resultWord_deadRegister word turn legal mask fresh those first,
    ?ld, ?ldi, ?st, ?sti, ?atomI32, ?atomI64, ?atomF32, ?redI32, ?redI64, ?redF32, ?ldl, ?stl, ?atoml⟩ <;> intro p f
  case ld => exact checksCapability_byRegister (globalLoad_checksAccess fun _ => rfl) (fun _ => rfl) fun _ => rfl
  case ldi => exact checksCapability_byImmediate (globalLoad_checksAccess fun _ => rfl) fun _ => rfl
  case sti => exact checksCapability_byImmediate (fun _ => ⟨_, _, _, _, rfl⟩) fun _ => rfl
  case st | atomI32 | atomI64 | atomF32 | redI32 | redI64 | redF32 =>
    exact checksCapability_byRegister (fun _ => ⟨_, _, _, _, rfl⟩) (fun _ => rfl) fun _ => rfl
  case ldl | stl | atoml => exact checksLocal_of_localCheck (fun _ => ⟨_, _, rfl⟩) (fun _ => rfl) fun _ => rfl

end Sys2Proof.Precise
end

section
/-!
The execution of fibres (O3, O13, O15, O35, O36). First what a word that issues leaves of its group: where its fibres go on,
which lanes it names, and that writes of registers change nothing else. Then the step, the drain, and `movs` by its reads and
writes; last the states in which two of the statements fail.
-/

namespace Sys2Proof.FibreRuns

open Sys2Proof Sys2Proof.Machine Sys2Proof.Claims

/-! ### The lanes that a word names -/

theorem mem_laneList {g : Group} {p : Nat × Lane} : p ∈ g.laneList ↔ g.lane? p.1 = some p.2 := by
  obtain ⟨i, y⟩ := p
  simp only [Group.laneList, Group.lane?, List.mem_map, Prod.mk.injEq]
  constructor
  · rintro ⟨⟨z, j⟩, mem, rfl, rfl⟩
    exact List.mem_zipIdx_iff_getElem?.mp mem
  · exact fun h => ⟨(y, i), List.mem_zipIdx_iff_getElem?.mpr h, rfl, rfl⟩

/-- 01 R18: the issuing set holds the live, unparked fibres at the least PC. -/
theorem mem_issuing {g : Group} {i : Instr} {l : Nat} (h : l ∈ (g.issue i).issuing) :
    ∃ y, g.lane? l = some y ∧ y.ready = true ∧ y.pc = (g.issue i).pc := by
  have h : l ∈ g.issuingSet := h
  cases hp : g.minPc with
  | none => simp [Group.issuingSet, hp] at h
  | some pc =>
    simp only [Group.issuingSet, hp, List.mem_map, List.mem_filter, Bool.and_eq_true, beq_iff_eq] at h
    obtain ⟨⟨j, y⟩, ⟨mem, ready, here⟩, rfl⟩ := h
    exact ⟨y, mem_laneList.mp mem, ready, by rw [here]; simp [Group.issue, hp]⟩

theorem mem_receiving {g : Group} {i : Instr} {l : Nat} (h : l ∈ (g.issue i).receiving) : ∃ y, g.lane? l = some y := by
  simp only [Issue.receiving, List.mem_filter, Bool.or_eq_true, List.contains_iff_mem] at h
  obtain ⟨-, active | helper⟩ := h
  · have issuing : l ∈ (g.issue i).issuing := (List.mem_filter.mp active).1
    exact (mem_issuing issuing).imp fun _ hy => hy.1
  · obtain ⟨p, hp, rfl⟩ := List.mem_map.mp (List.mem_filter.mp helper).1
    exact ⟨p.2, mem_laneList.mp (List.mem_filter.mp hp).1⟩

theorem lane?_lt_length {g : Group} {l : Nat} {y : Lane} (h : g.lane? l = some y) : l < g.lanes.length :=
  (List.getElem?_eq_some_iff.mp h).1

/-! ### A word that has issued -/

/-- What is left of a `yield`'s wait when fibres have issued (01 R19). -/
def parkAfter (g : Group) (issued : List Nat) (p : Option Park) : Option Park :=
  match p with
  | some (.yield owed) =>
    let left := owed &&& ~~~maskOf issued &&& maskOf g.readyLanes
    if left == 0 then none else some (.yield left)
  | _ => p

theorem lane?_wakeYield (g : Group) (issued : List Nat) (l : Nat) :
    (g.wakeYield issued).lane? l = (g.lane? l).map fun y => { y with park := parkAfter g issued y.park } := by
  simp only [Group.lane?, Group.wakeYield, List.getElem?_map]
  congr 1
  funext y
  unfold parkAfter
  split <;> simp_all

theorem laneList_modLanes (g : Group) (ls : List Nat) (f : Lane → Lane) :
    (g.modLanes ls f).laneList = g.laneList.map fun p => (p.1, if ls.contains p.1 then f p.2 else p.2) := by
  apply List.ext_getElem?
  intro i
  simp only [Group.laneList, Group.modLanes, List.getElem?_map, List.getElem?_zipIdx]
  cases g.lanes[i]? <;> simp

theorem readyLanes_modLanes (g : Group) (ls : List Nat) (f : Lane → Lane) (keeps : ∀ y, (f y).ready = y.ready) :
    (g.modLanes ls f).readyLanes = g.readyLanes := by
  rw [Group.readyLanes, laneList_modLanes, List.filter_map, List.map_map]
  refine congrArg (List.map _) (List.filter_congr fun p _ => ?_)
  simp only [Function.comp]
  split
  · exact keeps p.2
  · rfl

/-- 01 R18: the issuing fibres go on to the next word; what else changes is the wait of fibres that yielded. -/
theorem lane?_advance (g : Group) (x : Issue) (l : Nat) :
    (g.advance x).lane? l = (g.lane? l).map fun y =>
      { y with pc := if l ∈ x.issuing then x.pc + BitVec.ofNat 32 x.size else y.pc, park := parkAfter g x.issuing y.park } := by
  have ready := readyLanes_modLanes g x.issuing (fun y => { y with pc := x.pc + BitVec.ofNat 32 x.size }) fun _ => rfl
  have lanes : (g.advance x).lane? l =
    ((g.modLanes x.issuing fun y => { y with pc := x.pc + BitVec.ofNat 32 x.size }).wakeYield x.issuing).lane? l := rfl
  rw [lanes, lane?_wakeYield, Group.modLanes_lane?, Option.map_map]
  congr 1
  funext y
  by_cases h : l ∈ x.issuing <;> simp [h, parkAfter, ready]

theorem advance_bases (g : Group) (x : Issue) : SameBases g (g.advance x) := by
  refine ⟨rfl, fun l => ?_, by simp [Group.advance, Group.wakeYield, Group.modLanes, Group.keepLanes]⟩
  rw [lane?_advance]
  cases g.lane? l <;> rfl

/-- A word has issued when the run and the places of its fibres are those after its advance. -/
theorem retired_of_advance {g g' : Group} {i : Instr} (run : g'.runCount = (g.advance (g.issue i)).runCount)
    (drain : g'.draining = (g.advance (g.issue i)).draining)
    (pc : ∀ l, (g'.lane? l).map (·.pc) = ((g.advance (g.issue i)).lane? l).map (·.pc)) : Retired (g.issue i) g g' := by
  refine ⟨fun l hl => ?_, run, drain⟩
  obtain ⟨y, hy, -⟩ := mem_issuing hl
  rw [pc, lane?_advance, hy]
  simp [hl]

/-! ### What writes of registers leave as it was -/

/-- A lane without its registers. -/
def bare (y : Lane) : Lane := { y with v := RegFile.empty }

/-- Nothing of a group has changed but its registers and its run's list of their writes. -/
def RegsOnly (g g' : Group) : Prop :=
  ({ g' with lanes := g.lanes, s := g.s, written := g.written } : Group) = g ∧
  ∀ l, (g'.lane? l).map bare = (g.lane? l).map bare

theorem RegsOnly.refl (g : Group) : RegsOnly g g := ⟨rfl, fun _ => rfl⟩

theorem RegsOnly.trans {g h k : Group} (a : RegsOnly g h) (b : RegsOnly h k) : RegsOnly g k := by
  refine ⟨?_, fun l => (b.2 l).trans (a.2 l)⟩
  have back := congrArg (fun q : Group => ({ q with lanes := g.lanes, s := g.s, written := g.written } : Group)) b.1
  exact back.trans a.1

theorem RegsOnly.modLane (g : Group) (i : Nat) (f : Lane → Lane) (h : ∀ y, bare (f y) = bare y) :
    RegsOnly g (g.modLane i f) := by
  refine ⟨rfl, fun l => ?_⟩
  rw [Group.lane?_modLane]
  split
  · cases g.lane? l <;> simp [h]
  · rfl

theorem RegsOnly.note (g : Group) (s : RegFile) (ws : List RunWrite) : RegsOnly g { g with s := s, written := ws } :=
  ⟨rfl, fun _ => rfl⟩

theorem RegsOnly.foldl {α : Type} {step : Group → α → Group} (h : ∀ g a, RegsOnly g (step g a)) (l : List α) :
    ∀ g, RegsOnly g (l.foldl step g) := by
  induction l with
  | nil => exact RegsOnly.refl
  | cons a t ih => exact fun g => (h g a).trans (ih _)

theorem RegsOnly.writeReg (g : Group) (u : Option Nat) (f : Nat) (r : Reg) (p : Option Nat) :
    RegsOnly g (g.writeReg u f r p) := by
  unfold Group.writeReg
  have noted (ws : List RunWrite) : RegsOnly g { g with written := ws } := RegsOnly.note g g.s ws
  split
  · exact noted _
  · split
    · exact RegsOnly.note g _ _
    · split
      · exact (noted _).trans (RegsOnly.modLane _ _ _ fun _ => rfl)
      · exact noted _

theorem RegsOnly.writeRun (u : Option Nat) (p : Option Nat) (vals : List Reg) :
    ∀ (g : Group) (f : Nat), RegsOnly g (g.writeRun u f p vals) := by
  induction vals with
  | nil => exact fun g _ => RegsOnly.refl g
  | cons r t ih => exact fun g f => (RegsOnly.writeReg g u f r p).trans (ih _ _)

theorem RegsOnly.tagQuad (g : Group) (u : Option Nat) (f : Nat) : RegsOnly g (g.tagQuad u f) := by
  unfold Group.tagQuad
  split
  · exact RegsOnly.note g _ g.written
  · split
    · exact RegsOnly.modLane _ _ _ fun _ => rfl
    · exact RegsOnly.refl g

theorem RegsOnly.writeOpnd (g : Group) (u : Option Nat) (o : Opnd) (v : Val) : RegsOnly g (g.writeOpnd u o v) := by
  have run := RegsOnly.writeRun u none (v.toRegs o.count) g o.field.toNat
  unfold Group.writeOpnd Group.writeRegs
  split
  · exact run.trans (RegsOnly.tagQuad _ _ _)
  · exact run

theorem RegsOnly.freeField (g : Group) (u : Option Nat) (f : Nat) : RegsOnly g (g.freeField u f) := by
  unfold Group.freeField Group.alterField
  split
  · exact RegsOnly.note g _ _
  · split
    · exact (RegsOnly.note g g.s _).trans (RegsOnly.modLane _ _ _ fun _ => rfl)
    · exact RegsOnly.note g g.s _

/-- 01 R24: last uses free registers, and nothing else. -/
theorem RegsOnly.freeLast (g : Group) (x : Issue) : RegsOnly g (g.freeLast x) := by
  refine RegsOnly.foldl (fun g o => RegsOnly.foldl (fun g k => ?_) _ g) _ g
  dsimp only
  split
  · split
    · exact RegsOnly.refl g
    · exact RegsOnly.freeField _ _ _
  · exact RegsOnly.foldl (fun g u => RegsOnly.freeField g u _) _ g

section
variable {g g' : Group} (h : RegsOnly g g')
include h

theorem RegsOnly.lane_field {α : Type} (p : Lane → α) (keeps : ∀ y, p (bare y) = p y) (l : Nat) :
    (g'.lane? l).map p = (g.lane? l).map p := by
  have := congrArg (Option.map p) (h.2 l)
  simpa [Function.comp_def, keeps] using this

theorem RegsOnly.group_field {α : Type} (p : Group → α)
    (keeps : ∀ (q : Group) ls s ws, p { q with lanes := ls, s := s, written := ws } = p q) : p g' = p g := by
  rw [← keeps g' g.lanes g.s g.written, h.1]

end

/-! ### How a word issues, reads and writes -/

/-- A word that changes nothing of the device but its group answers with the group changed. -/
theorem runs_modGroup {s : State} {k : GKey} {g h : Group} {f : Group → Group} (here : s.group? k = some g)
    (key : h.key = k) (keeps : ∀ q, (f q).key = q.key) :
    ((s.drawn.setGroup h).modGroup k f).group? k = some (f h) := by
  have drawn : s.drawn.group? k = some g := here
  rw [State.group?_modGroup _ _ _ _ keeps, State.group?_setGroup, drawn, key]
  simp

/-- The legal form of a word that issues (02 R57, check 4). -/
theorem legal_of_issues {i : Instr} {s : State} {k : GKey} {g : Group} (h : Issues i s k g) :
    (describe g.w i).legal = true ∧ (describe g.w i).aligned = true := by
  have legal := h.legal
  unfold wordChecks at legal
  dsimp only at legal
  split at legal
  · cases legal
  · split at legal
    · cases legal
    · split at legal
      · cases legal
      · rename_i ok
        simp only [Bool.not_eq_true', Bool.not_eq_false, Bool.and_eq_true] at ok
        obtain ⟨⟨⟨-, ok⟩, aligned⟩, -⟩ := ok
        exact ⟨ok, aligned⟩

/-- The write of a value in every unit of a word and its helpers. -/
def writeUnits (x : Issue) (o : Opnd) (v : Option Nat → Val) (g : Group) : Group :=
  x.allUnits.foldl (fun h u => h.writeOpnd u o (v u)) g

theorem writeUnits_regsOnly (x : Issue) (o : Opnd) (v : Option Nat → Val) (g : Group) : RegsOnly g (writeUnits x o v g) :=
  RegsOnly.foldl (fun g u => RegsOnly.writeOpnd g u o (v u)) _ g

/-- In every unit the registers of the operand then hold its value. -/
theorem writeUnits_reg? {x : Issue} {o : Opnd} (v : Option Nat → Val) (g : Group)
    (uniform : 96 ≤ o.field.toNat → x.once = true) (vector : x.once = true → 96 ≤ o.field.toNat)
    (half : oneHalf o.field.toNat o.count) (lanes : ∀ l ∈ x.receiving, l < g.lanes.length)
    {u : Option Nat} (hu : u ∈ x.allUnits) {j : Nat} (hj : j < o.count) :
    (writeUnits x o v g).reg? u (o.field.toNat + j) = some ⟨bitsOf (v u).bits (32 * j) 32, (v u).poison⟩ := by
  have bases : SameBases g (writeUnits x o v g) := foldl_bases _ (fun g u => Group.writeOpnd_bases g u o (v u)) _ g
  have existing : ∀ u ∈ x.allUnits, 96 ≤ o.field.toNat ∨ ∃ l, u = some l ∧ l < g.lanes.length := by
    intro u hu
    unfold Issue.allUnits at hu
    split at hu
    · exact .inl (vector ‹_›)
    · obtain ⟨l, hl, rfl⟩ := List.mem_map.mp hu
      exact .inr ⟨l, rfl, lanes l hl⟩
  have names : ∀ i < o.count, g.names u (o.field.toNat + i) := fun i _ => (existing u hu).imp (by omega) id
  have place : (96 ≤ o.field.toNat + j) ∨ u.isSome = true := by
    rcases existing u hu with h | ⟨l, rfl, -⟩
    · exact .inl (by omega)
    · exact .inr rfl
  rw [Group.reg?_eq_at _ _ _ place, bases.place]
  refine foldl_same g (fun h u => h.writeOpnd u o (v u)) (fun u q => ∃ j < o.count, q = g.place u (o.field.toNat + j))
    (fun _ _ => ⟨bitsOf (v u).bits (32 * j) 32, (v u).poison⟩) (fun h u => Group.writeOpnd_bases h u o (v u)) ?_ x.allUnits g
    (SameBases.refl g) (places_apart g x o uniform half) u hu _ ⟨j, hj, rfl⟩ ?_
  · intro h u q same out
    refine Group.writeOpnd_other h u o (v u) q fun i hi e => out ⟨i, hi, ?_⟩
    rwa [same.place] at e
  · intro h same
    rw [← same.place]
    exact Group.writeOpnd_same h u o (v u) half (fun i hi => same.names (names i hi)) j hj

/-- A word that issues and whose effect is a new state answers that state. -/
theorem exec_done {i : Instr} {s : State} {k : GKey} {g : Group} {own : Issue → Group → Option Nat → Option UnitErr}
    {eff : Issue → Group → State → Effect} {eng : Engine → Desc → State → State} {t : State} (h : Issues i s k g)
    (run : exec i s = issueWord i s own eff eng) (early : mayTrapLate i = false)
    (pass : ∀ u ∈ (g.issue i).units, own (g.issue i) g u = none)
    (done : eff (g.issue i) g (s.drawn.setGroup (g.advance (g.issue i))) = .done t) : exec i s = .next t := by
  rw [run, issueWord_group h own eff eng pass, early, if_neg Bool.false_ne_true, done]
  rfl

theorem units_of_once {x : Issue} (once : x.once = true) : x.units = [none] ∧ x.allUnits = [none] := by
  simp [Issue.units, Issue.allUnits, once]

theorem unitOf_mem {x : Issue} {l : Nat} (h : l ∈ x.receiving) : unitOf x l ∈ x.allUnits := by
  unfold unitOf Issue.allUnits
  split
  · exact List.mem_singleton_self _
  · exact List.mem_map.mpr ⟨l, h, rfl⟩

/-- The word of a one-register source, in a unit or a helper (01 R22). -/
theorem readRole_word_allUnits {i : Instr} {s : State} {k : GKey} {g : Group} (h : Issues i s k g) {u : Option Nat}
    (hu : u ∈ (g.issue i).allUnits) {r : Role} {f : BitVec 7} {last : Bool}
    (role : (g.issue i).desc.opnd? r = some (src r f 1 last)) :
    (readRole s g (g.issue i).desc u r).w = g.word u f.toNat := by
  obtain ⟨mem, now⟩ := Precise.opnd?_mem role
  have inFields := Precise.mem_unitFields (s := s) (g := g) (u := u) (j := 0) mem rfl now Nat.one_pos
  have field := readField_fresh s g u _ (h.fresh u (.inr hu) _ inFields)
  rw [readRole, role]
  show (Val.ofRegs _ [(readField s g u (f.toNat + 0)).1]).w = _
  rw [Precise.ofRegs_one_w]
  exact congrArg (fun q : Option Reg × Bool => q.1.elim 0 (·.val)) field

theorem lane?_foldl_modLane (f : Nat → Lane → Lane) (i : Nat) (ls : List Nat) : ∀ g : Group, ls.Nodup →
    (ls.foldl (fun h l => h.modLane l (f l)) g).lane? i = (g.lane? i).map fun y => if i ∈ ls then f i y else y := by
  induction ls with
  | nil => simp
  | cons l t ih =>
    intro g nodup
    obtain ⟨out, nodup⟩ := List.nodup_cons.mp nodup
    rw [List.foldl_cons, ih _ nodup, Group.lane?_modLane]
    by_cases e : l = i
    · subst e
      simp [out, Function.comp_def]
    · simp [e, Ne.symm e]

theorem foldl_field {α β : Type} (p : Group → β) {step : Group → α → Group} (keeps : ∀ g a, p (step g a) = p g) (l : List α) :
    ∀ g, p (l.foldl step g) = p g := by
  induction l with
  | nil => exact fun _ => rfl
  | cons a t ih => exact fun g => (ih _).trans (keeps g a)

/-- A word whose fibres have advanced, whose registers were written, and which then changed no PC and no run, has issued. -/
theorem retired_of_regsOnly {g h g' : Group} {i : Instr} (regs : RegsOnly (g.advance (g.issue i)) h)
    (run : g'.runCount = h.runCount) (drain : g'.draining = h.draining)
    (pc : ∀ l, (g'.lane? l).map (·.pc) = (h.lane? l).map (·.pc)) : Retired (g.issue i) g g' :=
  retired_of_advance (run.trans (regs.group_field (·.runCount) fun _ _ _ _ => rfl))
    (drain.trans (regs.group_field (·.draining) fun _ _ _ _ => rfl))
    fun l => (pc l).trans (regs.lane_field (·.pc) (fun _ => rfl) l)

/-! ### The instruction in turn (O3) -/

/-- An agent that may issue, whose fetch gives an instruction, runs it in the next step. -/
theorem step_of_turn {s : State} {i : Instr} (idle : s.inputs = []) (may : s.mayIssue s.turn = true)
    (fetched : s.fetchFor s.turn = some (.ok i)) : step s = onNext (exec i s) fun t => { t with turn := .none } := by
  simp only [step, idle, State.runTurn, may, if_true, State.runAgent, fetched]

/-- 02 R35: an aligned PC inside the code object gives what its words decode to. -/
theorem fetch_of_decodeWords {s : State} {k : GKey} {core : Nat} {pc : Word} {i : Instr} {l : Launch}
    (launch : s.launch? k.launch = some l) (aligned : pc.toNat % 4 = 0) (inside : pc.toNat + 4 ≤ l.codeLen)
    (decoded : decodeWords (s.codeWord k core pc)
      (if pc.toNat + 8 ≤ l.codeLen then some (s.codeWord k core (pc + 4)) else none) = .ok i) :
    s.fetch k core pc = .ok i := by
  have within : ¬ l.codeLen < pc.toNat + 4 := by omega
  simp only [State.fetch, launch, Option.elim_some, aligned, bne_self_eq_false, Bool.false_eq_true, if_false, within, decoded]

theorem stepRunsTheDecodedInstruction : StepRunsTheDecodedInstruction := by
  intro s k g pc i l idle turn here ready least launch aligned inside decoded
  refine step_of_turn idle ?_ ?_
  · simp [turn, State.mayIssue, here, ready]
  · simp [turn, State.fetchFor, here, least, fetch_of_decodeWords launch aligned inside decoded]

theorem stepRunsAnEngineProgramsWord : StepRunsAnEngineProgramsWord := by
  intro s id e i idle turn here ready fetched
  refine step_of_turn idle ?_ ?_
  · simp [turn, State.mayIssue, here, ready]
  · simp [turn, State.fetchFor, here, fetched]

theorem stepRunsAnInputEvent : StepRunsAnInputEvent := by
  intro s i rest next event
  simp only [step, next, State.runInput, event, if_true]

/-- Settles O3: the turn's agent may issue and its fetch gives the instruction; an event is the next input. -/
theorem stepRunsTheInstructionInTurn : Obligations.StepRunsTheInstructionInTurn :=
  ⟨stepRunsTheDecodedInstruction, stepRunsAnEngineProgramsWord, stepRunsAnInputEvent⟩

/-! ### The drain of a run (O36) -/

theorem lane?_drained (g : Group) (l : Nat) : g.drained.lane? l = (g.lane? l).map Lane.commit := by
  simp [Group.lane?, Group.drained]

/-- 01 R23: a predicate that the run wrote takes its new value, every other stays. -/
theorem commit_preds_getLsbD (y : Lane) {q : Nat} (hq : q < 16) :
    y.commit.preds.getLsbD q = if y.predMask.getLsbD q then y.predNew.getLsbD q else y.preds.getLsbD q := by
  cases h : y.predMask.getLsbD q <;>
    simp only [Lane.commit, BitVec.getLsbD_or, BitVec.getLsbD_and, BitVec.getLsbD_not, h, hq] <;> simp

/-- A run with every result written, no queued matrix operation and no predicate on its way is drained at once. -/
theorem execDrain_eq {s : State} {k : GKey} {g : Group} (here : s.group? k = some g) (draining : g.draining = true)
    (written : ∀ w ∈ g.written, w.pending = none) (cvs : ∀ c ∈ g.cvs, c.queued = false)
    (pend : ∀ p ∈ g.pend, bringsPredicates p.instr = false) : execDrain k s = .next (s.modGroup k Group.drained) := by
  have ready : g.drainable = true := by
    simpa [Group.drainable, draining] using ⟨⟨written, cvs⟩, pend⟩
  simp [execDrain, here, ready]

/-- Settles O36: nothing is outstanding, so the drain happens; it commits each lane. -/
theorem drainCommitsTheRun : Obligations.DrainCommitsTheRun := by
  intro s k g here draining written cvs pend
  have after : (s.modGroup k Group.drained).group? k = some g.drained := by
    rw [State.group?_modGroup s k k Group.drained fun _ => rfl, here]
    simp
  refine ⟨_, _, execDrain_eq here draining written cvs pend, after, rfl, rfl, rfl, rfl, rfl, rfl, rfl, fun l y hy => ?_⟩
  refine ⟨y.commit, by rw [lane?_drained, hy]; rfl, rfl, rfl, rfl, rfl, rfl, fun q hq => ?_⟩
  exact commit_preds_getLsbD y hq

/-! ### Special registers (O13) -/

theorem bitsOf_ofNat_word (v : Nat) {j : Nat} (hj : j < 4) :
    bitsOf (BitVec.ofNat 128 v) (32 * j) 32 = BitVec.ofNat 32 (v / 2 ^ (32 * j)) := by
  apply BitVec.eq_of_getLsbD_eq
  intro i hi
  have inside : i + 32 * j < 128 := by omega
  simp only [BitVec.getLsbD_extractLsb', BitVec.getLsbD_ofNat, hi, inside, decide_true, Bool.true_and,
    Nat.testBit_div_two_pow, Nat.add_comm]

/-- What `movs` reads from special register `m` in a unit. -/
def specialVal (s : State) (g : Group) (m : BitVec 7) (u : Option Nat) : Val :=
  ⟨BitVec.ofNat 128 (specialValue s g u m.toNat), false, false⟩

section
variable {f : FmtRM} {s : State} {k : GKey} {g : Group}

/-- The operands of a read of a special register (03 R72). -/
theorem describe_movsRead {w n : Nat} {fibre writable : Bool} (reg : specialReg f.m.toNat = some (n, fibre, writable))
    (read : f.x = false) :
    describe w (.movs f) = { ops := [dst .d f.d n], legal := f.a == 0 && !f.la && !(fibre && isUni f.d) } := by
  show descMovs f = _
  simp [descMovs, reg, read]

/-- The value of a special register comes to D in every unit; the group has changed in nothing else (03 R72). -/
theorem exec_movsRead {n : Nat} {fibre writable : Bool} (reg : specialReg f.m.toNat = some (n, fibre, writable))
    (read : f.x = false) (h : Issues (.movs f) s k g) (redo : f.m = 0x0C → g.redo = []) :
    ∃ t, Runs (.movs f) s k t
      (writeUnits (g.issue (.movs f)) (dst .d f.d n) (specialVal s g f.m) (g.advance (g.issue (.movs f)))) := by
  have opnd : (g.issue (.movs f)).desc.opnd? .d = some (dst .d f.d n) := by
    show (describe g.w (.movs f)).opnd? .d = _
    rw [describe_movsRead reg read]
    rfl
  have key : (g.issue (.movs f)).key = k := group?_key h.here
  have pass : ∀ u ∈ (g.issue (.movs f)).units, movsCheck s f (g.issue (.movs f)) g u = none := by
    simp [movsCheck, read]
  let written := (s.drawn.setGroup (g.advance (g.issue (.movs f)))).modGroup k
    (writeUnits (g.issue (.movs f)) (dst .d f.d n) (specialVal s g f.m))
  have changed : written.group? k = some _ := runs_modGroup h.here key fun q =>
    (writeUnits_regsOnly _ _ _ q).group_field (·.key) fun _ _ _ _ => rfl
  by_cases clock : f.m = 0x0C
  · have noRedo : g.redo? (g.issue (.movs f)).pc = none := by rw [Group.redo?, redo clock, List.find?_nil]
    refine ⟨written.remember g (g.issue (.movs f)).pc [(0, (specialVal s g 0x0C none).toRegs 2, false)],
      exec_done h rfl rfl pass ?_, ?_⟩
    · simp only [read, opnd, clock, noRedo, Bool.false_eq_true, if_false, beq_self_eq_true, if_true, key, written]
      rfl
    · rw [← changed, State.remember, State.group?, State.modCore_groups]
      rfl
  · refine ⟨written, exec_done h rfl rfl pass ?_, changed⟩
    simp only [read, opnd, clock, Bool.false_eq_true, if_false, beq_iff_eq, key]
    rfl

end

/-- A read of a special register of `n` registers brings its value to D (03 R72). -/
theorem readsSpecial {m : BitVec 7} {n : Nat} {fibre writable : Bool} {val : State → Group → Launch → Nat → Nat}
    (reg : specialReg m.toNat = some (n, fibre, writable)) (width : n = 1 ∨ n = 2)
    (value : ∀ s g l u, s.launch? g.key.launch = some l → specialValue s g u m.toNat = val s g l (u.getD 0)) :
    ReadsSpecial m n val := by
  rintro f s k g l read rfl h launch redo
  obtain ⟨t, run⟩ := exec_movsRead reg read h redo
  have regs := writeUnits_regsOnly (g.issue (.movs f)) (dst .d f.d n) (specialVal s g f.m) (g.advance (g.issue (.movs f)))
  refine ⟨t, _, run, retired_of_advance (regs.group_field (·.runCount) fun _ _ _ _ => rfl)
    (regs.group_field (·.draining) fun _ _ _ _ => rfl) (regs.lane_field (·.pc) fun _ => rfl), fun u hu j hj => ?_⟩
  have once : (g.issue (.movs f)).once = isUni f.d := by
    show (describe g.w (.movs f)).once = _
    rw [describe_movsRead reg read]
    simp [Desc.once, dst]
  have half : oneHalf f.d.toNat n := by
    have aligned := (legal_of_issues h).2
    rw [describe_movsRead reg read] at aligned
    rcases width with rfl | rfl <;> simp [Desc.aligned, dst, alignOf] at aligned <;> unfold oneHalf <;> omega
  have lanes : ∀ l ∈ (g.issue (.movs f)).receiving, l < (g.advance (g.issue (.movs f))).lanes.length := by
    intro l hl
    obtain ⟨y, hy⟩ := mem_receiving hl
    rw [(advance_bases g (g.issue (.movs f))).2.2]
    exact lane?_lt_length hy
  have result := writeUnits_reg? (x := g.issue (.movs f)) (o := dst .d f.d n) (specialVal s g f.m)
    (g.advance (g.issue (.movs f))) (fun uni => once.trans (decide_eq_true uni)) (fun o => of_decide_eq_true (once.symm.trans o)) half lanes hu hj
  have launch' : s.launch? g.key.launch = some l := group?_key h.here ▸ launch
  rw [show (dst .d f.d n).field = f.d from rfl] at result
  rw [result, Option.map_some, specialVal, bitsOf_ofNat_word _ (by omega), value s g l u launch']

/-- 03 R72, 01 R11: each register has the width that the statement reads, and the value it gives. -/
theorem specialRegisterReads : SpecialRegisterReads := by
  unfold SpecialRegisterReads
  refine ⟨?_, ?_, ?_, ?_, ?_, ?_, ?_, ?_, ?_, ?_, ?_, ?_, ?_, ?_, ?_, ?_, ?_, ?_, ?_, ?_, ?_, ?_, ?_, ?_, ?_⟩
  all_goals
    refine readsSpecial rfl (by decide) fun s g l u launch => ?_
    simp [specialValue, State.gfid, State.clockOf, dieOfCore, launch]

section
variable {f : FmtRM} {s : State} {k : GKey} {g : Group} (write : f.x = true) {fibre : Bool}
  (reg : specialReg f.m.toNat = some (1, fibre, true)) (h : Issues (.movs f) s k g)
include write reg

/-- The operands of a write of a special register (03 R72). -/
theorem describe_movsWrite (w : Nat) :
    describe w (.movs f) = { ops := [src .a f.a 1 f.la], legal := f.d == 0 && (f.m == 0x0E || isUni f.a) } := by
  show descMovs f = _
  simp [descMovs, reg, write]

theorem movsWrite_source : (g.issue (.movs f)).desc.opnd? .a = some (src .a f.a 1 f.la) := by
  show (describe g.w (.movs f)).opnd? .a = _
  rw [describe_movsWrite write reg]
  rfl

include h

/-- 03 R72: a write of FPCR or MSR has a uniform source, so it executes once. -/
theorem movsWrite_once (group : f.m ≠ 0x0E) : (g.issue (.movs f)).once = true := by
  have legal := (legal_of_issues h).1
  rw [describe_movsWrite write reg] at legal
  show (describe g.w (.movs f)).once = true
  rw [describe_movsWrite write reg]
  simp only [Bool.and_eq_true, Bool.or_eq_true, beq_iff_eq, group, false_or] at legal
  simpa [Desc.once, src] using legal.2

end

/-- The write of FPSR in each fibre that takes part, to stand at the drain (03 R73). -/
def writeFpsr (x : Issue) (v : Nat → Word) (g : Group) : Group :=
  x.receiving.foldl (fun h l => h.modLane l fun y => { y with fpsrWrite := some (bitsOf (v l) 0 7) }) g

theorem lane?_writeFpsr (x : Issue) (v : Nat → Word) (g : Group) (l : Nat) :
    (writeFpsr x v g).lane? l = (g.lane? l).map fun y =>
      if l ∈ x.receiving then { y with fpsrWrite := some (bitsOf (v l) 0 7) } else y :=
  lane?_foldl_modLane (fun l y => { y with fpsrWrite := some (bitsOf (v l) 0 7) }) l _ g (receiving_nodup x)

@[simp] theorem writeFpsr_key (x : Issue) (v : Nat → Word) (g : Group) : (writeFpsr x v g).key = g.key :=
  foldl_field (·.key) (fun q l => Group.modLane_key q l _) _ g
@[simp] theorem writeFpsr_runCount (x : Issue) (v : Nat → Word) (g : Group) : (writeFpsr x v g).runCount = g.runCount :=
  foldl_field (·.runCount) (fun q l => Group.modLane_runCount q l _) _ g
@[simp] theorem writeFpsr_draining (x : Issue) (v : Nat → Word) (g : Group) : (writeFpsr x v g).draining = g.draining :=
  foldl_field (·.draining) (fun q l => Group.modLane_draining q l _) _ g

/-- 03 R73: a write of FPSR brings the low bits of its source to each fibre's pending write, and frees a last use. -/
theorem movs_writesFpsr : ∀ (f : FmtRM) s k g, f.x = true → f.m = 0x0E → Issues (.movs f) s k g →
    ∃ t g', Runs (.movs f) s k t g' ∧ Retired (g.issue (.movs f)) g g' ∧
      ∀ l ∈ (g.issue (.movs f)).receiving, (g'.lane? l).map (·.fpsrWrite) =
        some (some (bitsOf (g.word (unitOf (g.issue (.movs f)) l) f.a.toNat) 0 7)) ∧
        (g'.lane? l).map (·.fpsr) = (g.lane? l).map (·.fpsr) := by
  intro f s k g write hm h
  have reg : specialReg f.m.toNat = some (1, true, true) := by rw [hm]; rfl
  have pass : ∀ u ∈ (g.issue (.movs f)).units, movsCheck s f (g.issue (.movs f)) g u = none := by
    simp [movsCheck, hm]
  have key : (g.issue (.movs f)).key = k := group?_key h.here
  let v (l : Nat) : Word := (readRole s g (g.issue (.movs f)).desc (unitOf (g.issue (.movs f)) l) .a).w
  let change (q : Group) : Group := writeFpsr (g.issue (.movs f)) v (q.freeLast (g.issue (.movs f)))
  have freed := RegsOnly.freeLast (g.advance (g.issue (.movs f))) (g.issue (.movs f))
  refine ⟨_, _, ⟨exec_done (t := (s.drawn.setGroup (g.advance (g.issue (.movs f)))).modGroup k change) h rfl rfl pass ?_,
    runs_modGroup h.here key ?_⟩, ?_, ?_⟩
  · simp only [write, if_true, hm, key]
    refine congrArg Effect.done (congrArg _ (funext fun q => ?_))
    show (if (g.issue (.movs f)).once = true then _ else _) = writeFpsr (g.issue (.movs f)) v _
    split
    · simp [v, unitOf, writeFpsr, ‹(g.issue (.movs f)).once = true›]
    · simp [v, unitOf, writeFpsr, ‹¬ (g.issue (.movs f)).once = true›]
  · intro q
    exact (writeFpsr_key _ _ _).trans ((RegsOnly.freeLast q _).group_field (·.key) fun _ _ _ _ => rfl)
  · refine retired_of_regsOnly freed (writeFpsr_runCount _ _ _) (writeFpsr_draining _ _ _) fun l => ?_
    rw [lane?_writeFpsr, Option.map_map]
    refine congrArg (Option.map · _) (funext fun y => ?_)
    simp only [Function.comp]
    split <;> rfl
  · intro l hl
    obtain ⟨y, hy⟩ := mem_receiving hl
    have fpsr := freed.lane_field (·.fpsr) (fun _ => rfl) l
    rw [lane?_advance, hy] at fpsr
    have source : v l = g.word (unitOf (g.issue (.movs f)) l) f.a.toNat :=
      readRole_word_allUnits h (unitOf_mem hl) (movsWrite_source write reg)
    rw [lane?_writeFpsr, ← source]
    cases lane : Group.lane? (Group.freeLast (g.advance (g.issue (.movs f))) (g.issue (.movs f))) l with
    | none => simp [lane] at fpsr
    | some z => simpa [lane, hl, hy] using fpsr

/-- 03 R73: a value with a reserved rounding mode fails the check of a write of FPCR. -/
theorem movsCheck_fpcr {f : FmtRM} {s : State} {k : GKey} {g : Group} (write : f.x = true) (hm : f.m = 0x0F)
    (h : Issues (.movs f) s k g) : movsCheck s f (g.issue (.movs f)) g none =
      if 6 ≤ (g.word none f.a.toNat).toNat % 8 then some ⟨none, tILLEGAL, (g.word none f.a.toNat).setWidth 64⟩ else none := by
  have reg : specialReg f.m.toNat = some (1, false, true) := by rw [hm]; rfl
  have once := movsWrite_once write reg h (by rw [hm]; decide)
  have source := readRole_word_allUnits h (u := none) (by simp [units_of_once once]) (movsWrite_source write reg)
  simp [movsCheck, write, hm, source]

/-- The write of FPCR or MSR, to stand at the drain (03 R73). -/
def writeSpecial (m : BitVec 7) (v : Word) (g : Group) : Group :=
  if m = 0x0F then { g with fpcrWrite := some (bitsOf v 0 5 &&& fpcrMask) } else { g with msrWrite := some (v &&& msrMask) }

theorem writeSpecial_key (m : BitVec 7) (v : Word) (g : Group) : (writeSpecial m v g).key = g.key := by
  unfold writeSpecial
  split <;> rfl

/-- 03 R73: a write of FPCR or MSR frees a last use, and keeps the value of its uniform source for the drain. -/
theorem exec_movsWrite_group {f : FmtRM} {s : State} {k : GKey} {g : Group} (write : f.x = true)
    (hm : f.m = 0x0F ∨ f.m = 0x14) (h : Issues (.movs f) s k g)
    (pass : movsCheck s f (g.issue (.movs f)) g none = none) :
    ∃ t, Runs (.movs f) s k t
      (writeSpecial f.m (g.word none f.a.toNat) ((g.advance (g.issue (.movs f))).freeLast (g.issue (.movs f)))) := by
  have reg : specialReg f.m.toNat = some (1, false, true) := by rcases hm with e | e <;> rw [e] <;> rfl
  have once := movsWrite_once write reg h (by rcases hm with e | e <;> rw [e] <;> decide)
  obtain ⟨units, all⟩ := units_of_once once
  have source := readRole_word_allUnits h (u := none) (by simp [all]) (movsWrite_source write reg)
  have key : (g.issue (.movs f)).key = k := group?_key h.here
  have passes : ∀ u ∈ (g.issue (.movs f)).units, movsCheck s f (g.issue (.movs f)) g u = none := by simpa [units] using pass
  refine ⟨_, exec_done (t := (s.drawn.setGroup (g.advance (g.issue (.movs f)))).modGroup k fun q =>
    writeSpecial f.m (g.word none f.a.toNat) (q.freeLast (g.issue (.movs f)))) h rfl rfl passes ?_,
    runs_modGroup h.here key fun q => ?_⟩
  · rcases hm with e | e <;> simp only [write, if_true, e, key, source] <;> rfl
  · exact (writeSpecial_key _ _ _).trans ((RegsOnly.freeLast q _).group_field (·.key) fun _ _ _ _ => rfl)

theorem movs_writesFpcr : ∀ (f : FmtRM) s k g, f.x = true → f.m = 0x0F → Issues (.movs f) s k g →
    (g.word none f.a.toNat).toNat % 8 < 6 →
    ∃ t g', Runs (.movs f) s k t g' ∧ Retired (g.issue (.movs f)) g g' ∧
      g'.fpcrWrite = some (bitsOf (g.word none f.a.toNat) 0 5 &&& 0x17) ∧ g'.fpcr = g.fpcr := by
  intro f s k g write hm h mode
  have freed := RegsOnly.freeLast (g.advance (g.issue (.movs f))) (g.issue (.movs f))
  obtain ⟨t, run⟩ := exec_movsWrite_group write (.inl hm) h (by rw [movsCheck_fpcr write hm h, if_neg (by omega)])
  rw [hm] at run
  exact ⟨t, _, run, retired_of_regsOnly freed rfl rfl fun _ => rfl, rfl, freed.group_field (·.fpcr) fun _ _ _ _ => rfl⟩

theorem movs_writesMsr : ∀ (f : FmtRM) s k g, f.x = true → f.m = 0x14 → Issues (.movs f) s k g →
    ∃ t g', Runs (.movs f) s k t g' ∧ Retired (g.issue (.movs f)) g g' ∧
      g'.msrWrite = some (g.word none f.a.toNat &&& 0x00FFFE0F) ∧ g'.msr = g.msr := by
  intro f s k g write hm h
  have freed := RegsOnly.freeLast (g.advance (g.issue (.movs f))) (g.issue (.movs f))
  obtain ⟨t, run⟩ := exec_movsWrite_group write (.inr hm) h (by simp [movsCheck, hm])
  rw [hm] at run
  exact ⟨t, _, run, retired_of_regsOnly freed rfl rfl fun _ => rfl, rfl, freed.group_field (·.msr) fun _ _ _ _ => rfl⟩

/-- 03 R73: a reserved rounding mode is the one error of its word, which traps ILLEGAL with the value. -/
theorem movs_reservedMode_traps : ∀ (f : FmtRM) s k g l, f.x = true → f.m = 0x0F → Issues (.movs f) s k g →
    6 ≤ (g.word none f.a.toNat).toNat % 8 →
    (∀ u ∈ (g.issue (.movs f)).units, (g.reg? u f.a.toNat).map (·.poison) = some false) → g.amber = .idle →
    s.launch? k.launch = some l → l.trapv < l.codeLen → g.handler = false →
    ∃ t g', Runs (.movs f) s k t g' ∧ g'.handler = true ∧ g'.tcause = 0x01 ∧
      g'.tval = (g.word none f.a.toNat).setWidth 64 ∧ g'.fpcr = g.fpcr ∧ g'.fpcrWrite = g.fpcrWrite := by
  intro f s k g l write hm h mode _ calm launch inCode outside
  have reg : specialReg f.m.toNat = some (1, false, true) := by rw [hm]; rfl
  have once := movsWrite_once write reg h (by rw [hm]; decide)
  have units := (units_of_once once).1
  have key : g.key = k := group?_key h.here
  let trap : TrapInfo := ⟨tILLEGAL, (g.word none f.a.toNat).setWidth 64, (g.issue (.movs f)).issuing⟩
  have error : issueErrs s g (g.issue (.movs f)) (movsCheck s f) = [⟨none, tILLEGAL, (g.word none f.a.toNat).setWidth 64⟩] := by
    have unit := Precise.unitErr_of_issues h (movsCheck s f) (u := none) (by simp [units])
    rw [Precise.issueErrs_eq _ s h.mask, units]
    simp [unit, movsCheck_fpcr write hm h, mode]
  have chosen : verdict (g.issue (.movs f)) (issueErrs s g (g.issue (.movs f)) (movsCheck s f)) = some trap := by
    rw [error]
    rfl
  have handler : s.drawn.handlerPc g tILLEGAL = some (BitVec.ofNat 32 l.trapv) := by
    have launch' : s.drawn.launch? g.key.launch = some l := key ▸ launch
    simp [State.handlerPc, launch', outside, inCode, tILLEGAL, tPOISON]
  have here : s.drawn.group? k = some g := h.here
  have run : exec (.movs f) s = .next _ :=
    Precise.issueWord_badUnit (Precise.turn_of_issues h calm) h.legal chosen
  rw [State.raise, if_neg (show ¬ (tILLEGAL == tPOISON) = true by decide), show (g.issue (.movs f)).key = k from key,
    Precise.takeTrap_eq_inHandler here calm handler] at run
  refine ⟨_, Precise.inHandler g (g.issue (.movs f)).pc (BitVec.ofNat 32 l.trapv) trap, ⟨run, ?_⟩, rfl, rfl, rfl, rfl, rfl⟩
  rw [State.group?_setGroup, here]
  simp [Precise.inHandler, key]

/-- Settles O13: `movs` brings the value of a special register to D in every unit; a write waits for the drain, and a reserved
rounding mode fails its check. -/
theorem specialRegisters : Obligations.SpecialRegisters :=
  ⟨specialRegisterReads, movs_writesFpsr, movs_writesFpcr, movs_reservedMode_traps, movs_writesMsr⟩

/-! ### Where the statements of O15 and O35 fail -/

/-- A meaning answers a next state that passes a test. -/
def answers (o : Out) (p : State → Bool) : Bool :=
  match o with
  | .next t => p t
  | _ => false

theorem answers_next {o : Out} {p : State → Bool} {t : State} (h : answers o p = true) (run : o = .next t) : p t = true := by
  rw [run] at h
  exact h

def oneGroup : GKey := ⟨1, 0, 0⟩

/-- A group of more lanes than a lane mask has bits: lanes 0 to 63 stand at word 0, lane 64 at the word after it. -/
def wideGroup : Group :=
  { newGroup fetchLaunch 0 0 0 0 0 false with lanes := List.replicate 64 (newLane 0) ++ [newLane 4] }

def wideState : State := { State.reset with groups := [wideGroup], turn := .group oneGroup }

def yieldWord : FmtF := ⟨false, 0, 0⟩

theorem wideState_issues : Issues (.yield yieldWord) wideState oneGroup wideGroup where
  turn := rfl
  here := rfl
  ready := by decide +kernel
  calm := by decide
  legal := by decide +kernel
  mask := rfl
  live := by decide +kernel
  fresh := fun _ _ _ _ => rfl
  again := nofun

theorem wideGroup_unparked : ∀ l y m, wideGroup.lane? l = some y → y.park ≠ some (.yield m) := by
  have unparked : ∀ y ∈ wideGroup.lanes, y.park = none := by decide +kernel
  intro l y m here
  simp [unparked y (List.mem_of_getElem? here)]

theorem wideGroup_others :
    (wideGroup.readyLanes.filter fun m => !(wideGroup.issue (.yield yieldWord)).issuing.contains m) = [64] := by
  decide +kernel

/-- Lane 64 has no bit in the mask of those that a yielding fibre waits for, so lane 0 does not park. -/
theorem wideState_yield : answers (exec (.yield yieldWord) wideState) (fun t =>
    (t.group? oneGroup).bind (fun g => (g.lane? 0).map (·.park)) == some none) = true := by
  decide +kernel

theorem not_endAndYield : ¬ EndAndYield := by
  rintro ⟨-, -, -, yield⟩
  obtain ⟨t, g', ⟨run, here⟩, -, parks⟩ :=
    yield yieldWord wideState oneGroup wideGroup wideState_issues wideGroup_unparked
  have park := answers_next wideState_yield run
  have parked := parks 0 (by decide +kernel)
  rw [wideGroup_others] at parked
  simp [here, parked] at park

/-- Refutes O15: nothing bounds the lanes of a group, and where the other ready fibre stands in lane 64, which no mask of
64 lanes names, `yield` parks no fibre (01 R19). -/
theorem not_fibresStartYieldAndEnd : ¬ Obligations.FibresStartYieldAndEnd := fun h => not_endAndYield h.2.1

/-- An atomic of lanes 0 to 2, of which lane 0 has failed at a peer (22 R429). -/
def failedAtomic : PendOp :=
  { pendOf ((newGroup fetchLaunch 0 0 0 0 0 false).issue (.atomI32 none ⟨false, 8, 100, 0, 0⟩)) 7 [] with
    lanes := 0b111, fails := [(0, tREMFAULT, 0)] }

/-- The reply for its lane 1, which awaits it in v8. -/
def failedReply : ReplyMsg := ⟨7, oneGroup, [(some 1, 8, [⟨5, false⟩], false)]⟩

def failedGroup : Group :=
  { newGroup fetchLaunch 0 0 0 0 0 false with
    pend := [failedAtomic], written := [⟨some 1, 8, none, false, some 7, none, false⟩] }

/-- Lane 2's part is still at its home. -/
def failedState : State :=
  { State.reset with
    groups := [failedGroup], replies := [failedReply],
    homes := [⟨7, .core 0, oneGroup, 0, .rmw .global (.i32 0) none [⟨2, 0, 0, 1, 0⟩], 0⟩] }

/-- The failure is not settled until every lane is answered, and till then the instruction stays pending. -/
theorem failedState_reply :
    answers (exec (.reply 7) failedState) (fun t => (t.group? oneGroup).map (·.pend) == some [failedAtomic]) = true := by
  decide +kernel

theorem not_repliesBringTheirValues : ¬ RepliesBringTheirValues := by
  intro h
  obtain ⟨t, g', run, here, -, done, -⟩ := h failedState failedReply oneGroup failedGroup failedAtomic (by decide +kernel) rfl
    (by decide +kernel) rfl rfl (by decide) (by decide) (by decide) (by decide) (by decide) (by decide) (by decide)
  have pend := answers_next failedState_reply run
  simp [here, done] at pend

/-- Refutes O35: no hypothesis says that no lane of the instruction has failed. Where one has, and another is not answered,
a reply that brings every value the group awaits does not complete the instruction. -/
theorem not_answersComplete : ¬ Obligations.AnswersComplete := fun h => not_repliesBringTheirValues h.2

end Sys2Proof.FibreRuns
end

section
/-!
Quad and group words (O23, O24, O25). First what a write of results across the lanes leaves of its group, once for every word
that goes through `crossWord`; then what a lane's operand reads; then the moves and derivatives, the votes and matches, and the
group in which the statement of the reductions fails.
-/

namespace Sys2Proof.CrossLane

open Sys2Proof Sys2Proof.Machine Sys2Proof.Claims Sys2Proof.FibreRuns

/-! ### What results across the lanes leave as it was -/

/-- What the issue of a word has settled in a group: its key, its run, and where its fibres stand. -/
structure RunKept (g g' : Group) : Prop where
  key : g'.key = g.key
  count : g'.runCount = g.runCount
  drain : g'.draining = g.draining
  pc : ∀ l, (g'.lane? l).map (·.pc) = (g.lane? l).map (·.pc)

theorem RunKept.trans {g h k : Group} (a : RunKept g h) (b : RunKept h k) : RunKept g k :=
  ⟨b.key.trans a.key, b.count.trans a.count, b.drain.trans a.drain, fun l => (b.pc l).trans (a.pc l)⟩

theorem RunKept.of_regsOnly {g g' : Group} (h : RegsOnly g g') : RunKept g g' :=
  ⟨h.group_field (·.key) fun _ _ _ _ => rfl, h.group_field (·.runCount) fun _ _ _ _ => rfl,
    h.group_field (·.draining) fun _ _ _ _ => rfl, h.lane_field (·.pc) fun _ => rfl⟩

theorem RunKept.foldl {α : Type} {step : Group → α → Group} (h : ∀ g a, RunKept g (step g a)) (l : List α) :
    ∀ g, RunKept g (l.foldl step g) := by
  induction l with
  | nil => exact fun g => RunKept.of_regsOnly (RegsOnly.refl g)
  | cons a t ih => exact fun g => (h g a).trans (ih _)

theorem RunKept.raiseFlags (g : Group) (x : Issue) (u : Option Nat) (fl : Flags) : RunKept g (g.raiseFlags x u fl) := by
  have refl := RunKept.of_regsOnly (RegsOnly.refl g)
  unfold Group.raiseFlags
  split
  · exact refl
  · split
    · split
      · refine ⟨rfl, rfl, rfl, fun l => ?_⟩
        rw [Group.lane?_modLane]
        split
        · cases g.lane? l <;> rfl
        · rfl
      · exact refl
    · refine ⟨rfl, rfl, rfl, fun l => ?_⟩
      rw [Group.modLanes_lane?]
      cases g.lane? l with
      | none => rfl
      | some y => by_cases h : l ∈ x.active <;> simp [h]

theorem RunKept.retired {g g' : Group} {i : Instr} (h : RunKept (g.advance (g.issue i)) g') : Retired (g.issue i) g g' :=
  retired_of_advance h.count h.drain h.pc

/-- The operand of D that a word writes. -/
def destOf (d : Desc) : Option Opnd := d.ops.find? fun o => o.role == .d && o.write

/-- One unit's result of a cross-lane word. -/
def crossOut (x : Issue) (o : Opnd) (f : Option Nat → Val × Flags) (g : Group) (u : Option Nat) : Group :=
  (g.writeOpnd u o (f u).1).raiseFlags x u (f u).2

theorem crossOut_bases (x : Issue) (o : Opnd) (f : Option Nat → Val × Flags) (g : Group) (u : Option Nat) :
    SameBases g (crossOut x o f g u) :=
  (Group.writeOpnd_bases _ _ _ _).trans (Group.raiseFlags_bases _ _ _ _)

theorem crossOut_runKept (x : Issue) (o : Opnd) (f : Option Nat → Val × Flags) (g : Group) (u : Option Nat) :
    RunKept g (crossOut x o f g u) :=
  (RunKept.of_regsOnly (RegsOnly.writeOpnd g u o _)).trans (RunKept.raiseFlags _ x u _)

section
variable {x : Issue} {o : Opnd}
  (dest : destOf x.desc = some o) (someone : firstOfNone x o = false)
include dest someone

theorem crossWrite_eq (f : Option Nat → Val × Flags) (g : Group) :
    g.crossWrite x f = ((crossUnits x o).foldl (crossOut x o f) (g.freeLast x)).zeroMasked x o := by
  unfold destOf at dest
  unfold Group.crossWrite
  simp only [dest, someone, Bool.false_eq_true, if_false, List.foldl_map]
  rfl

theorem crossWrite_runKept (f : Option Nat → Val × Flags) (g : Group) : RunKept g (g.crossWrite x f) := by
  rw [crossWrite_eq dest someone]
  exact ((RunKept.of_regsOnly (RegsOnly.freeLast g x)).trans (RunKept.foldl (crossOut_runKept x o f) _ _)).trans
    (RunKept.foldl (fun g l => RunKept.of_regsOnly (RegsOnly.writeOpnd g (some l) o Val.zero)) _ _)

end

/-- A fact of each unit in which a cross-lane word writes is one of the group, or of each lane that receives (05 R127). -/
theorem forall_crossUnits {x : Issue} {o : Opnd} {P : Option Nat → Prop} :
    (∀ u ∈ crossUnits x o, P u) ↔ if isUni o.field then P none else ∀ l ∈ x.receiving, P (some l) := by
  unfold crossUnits
  split <;> simp

/-- The units of a cross-lane word do not meet in a register. -/
theorem crossUnits_apart (g : Group) (x : Issue) (o : Opnd) (once : x.once = true → isUni o.field = true)
    (half : oneHalf o.field.toNat o.count) :
    (crossUnits x o).Pairwise fun u v => ∀ q : RegPlace, (∃ j < o.count, q = g.place u (o.field.toNat + j)) →
      ¬ ∃ j < o.count, q = g.place v (o.field.toNat + j) := by
  unfold crossUnits
  split
  · exact List.pairwise_singleton _ _
  · rename_i vector
    have lanes : x.allUnits = x.receiving.map some := if_neg fun h => vector (once h)
    exact lanes ▸ places_apart g x o (fun uni => absurd (decide_eq_true uni) vector) half

/-- The registers of D hold a value of their unit, and its poison. -/
def CrossGives (x : Issue) (g' : Group) (o : Opnd) (val : Option Nat → Val) : Prop :=
  ∀ u ∈ crossUnits x o, ∀ j < o.count,
    g'.reg? u (o.field.toNat + j) = some ⟨bitsOf (val u).bits (32 * j) 32, (val u).poison⟩

theorem crossWrite_gives {x : Issue} {o : Opnd} (f : Option Nat → Val × Flags) (g : Group)
    (dest : destOf x.desc = some o) (someone : firstOfNone x o = false)
    (once : x.once = true → isUni o.field = true) (half : oneHalf o.field.toNat o.count)
    (lanes : ∀ l ∈ x.receiving, l < g.lanes.length) (masked : ∀ l ∈ x.zeroed, l ∉ x.receiving)
    (unmasked : isUni o.field = true → x.zeroed = []) :
    CrossGives x (g.crossWrite x f) o fun u => (f u).1 := by
  intro u hu j hj
  have exist : 96 ≤ o.field.toNat ∨ ∃ l, u = some l ∧ l ∈ x.receiving := by
    unfold crossUnits at hu
    split at hu
    · exact .inl (of_decide_eq_true ‹_›)
    · obtain ⟨l, hl, rfl⟩ := List.mem_map.mp hu
      exact .inr ⟨l, rfl, hl⟩
  have names (i : Nat) : g.names u (o.field.toNat + i) :=
    exist.imp (by omega) fun ⟨l, e, hl⟩ => ⟨l, e, lanes l hl⟩
  have place : 96 ≤ o.field.toNat + j ∨ u.isSome = true := (names j).imp id fun ⟨l, e, _⟩ => by simp [e]
  have freed := Group.freeLast_bases g x
  have written := freed.trans (foldl_bases (crossOut x o f) (crossOut_bases x o f) (crossUnits x o) (g.freeLast x))
  rw [crossWrite_eq dest someone, Group.reg?_eq_at _ _ _ place,
    (written.trans (Group.zeroMasked_bases _ x o)).place, Group.zeroMasked_other]
  · refine foldl_same g (crossOut x o f) (fun u q => ∃ j < o.count, q = g.place u (o.field.toNat + j))
      (fun _ _ => ⟨bitsOf (f u).1.bits (32 * j) 32, (f u).1.poison⟩) (crossOut_bases x o f) ?_ (crossUnits x o) _ freed
      (crossUnits_apart g x o once half) u hu _ ⟨j, hj, rfl⟩ fun h same => ?_
    · intro h u q same out
      rw [crossOut, Group.raiseFlags_at]
      refine Group.writeOpnd_other h u o _ q fun i hi e => out ⟨i, hi, ?_⟩
      rwa [same.place] at e
    · rw [crossOut, Group.raiseFlags_at, ← same.place]
      exact Group.writeOpnd_same h u o _ half (fun i _ => same.names (names i)) j hj
  · intro l hl i hi e
    rw [written.place] at e
    have vector : ¬ 96 ≤ o.field.toNat := fun uni => by simp [unmasked (decide_eq_true uni)] at hl
    obtain ⟨m, rfl, hm⟩ := exist.resolve_left vector
    have low := half.resolve_left vector
    rw [g.place_lane m _ (by omega), g.place_lane l _ (by omega)] at e
    obtain rfl : m = l := by simpa using congrArg Prod.fst e
    exact masked m hl hm

theorem bitsOf_dw (v : BitVec 128) {lo : Nat} (low : lo ≤ 32) : bitsOf (bitsOf v 0 64) lo 32 = bitsOf v lo 32 := by
  apply BitVec.eq_of_getLsbD_eq
  intro i hi
  have inside : lo + i < 64 := by omega
  simp [inside]

section
variable {x : Issue} {g' : Group} {o : Opnd} {val : Option Nat → Val} (h : CrossGives x g' o val)
include h

/-- A vector D holds in each receiving lane the value and its poison. -/
theorem CrossGives.lane (pos : 0 < o.count) (vector : isUni o.field = false) {l : Nat} (hl : l ∈ x.receiving) :
    g'.reg? (some l) o.field.toNat = some ⟨(val (some l)).w, (val (some l)).poison⟩ := by
  refine h (some l) ?_ 0 pos
  simpa [crossUnits, vector] using hl

theorem CrossGives.holds32 (pos : 0 < o.count) {w : Nat → Word} (eq : ∀ u ∈ crossUnits x o, (val u).w = w (u.getD 0)) :
    CrossHolds32 x g' o.field w :=
  (forall_crossUnits (P := fun u => (g'.reg? u o.field.toNat).map (·.val) = some (w (u.getD 0)))).mp fun u hu => by
    rw [show g'.reg? u o.field.toNat = _ from h u hu 0 pos, ← eq u hu]
    rfl

theorem CrossGives.holds64 (two : o.count = 2) {w : Nat → DWord} (eq : ∀ u ∈ crossUnits x o, (val u).dw = w (u.getD 0)) :
    CrossHolds64 x g' o.field w :=
  (forall_crossUnits (P := fun u => (g'.reg? u o.field.toNat).map (·.val) = some (bitsOf (w (u.getD 0)) 0 32) ∧
    (g'.reg? u (o.field.toNat + 1)).map (·.val) = some (bitsOf (w (u.getD 0)) 32 32))).mp fun u hu => by
    rw [show g'.reg? u o.field.toNat = _ from h u hu 0 (by omega), h u hu 1 (by omega), ← eq u hu, Val.dw]
    exact ⟨congrArg some (bitsOf_dw _ (by decide)).symm, congrArg some (bitsOf_dw _ (by decide)).symm⟩

theorem CrossGives.bad {n : Nat} (count : o.count = n) {b : Nat → Bool}
    (eq : ∀ u ∈ crossUnits x o, (val u).poison = b (u.getD 0)) : CrossBad x g' o.field n b := by
  subst count
  exact fun j hj => (forall_crossUnits (P := fun u => (g'.reg? u (o.field.toNat + j)).map (·.poison) = some (b (u.getD 0)))).mp
    fun u hu => by rw [h u hu j hj, ← eq u hu]; rfl

end

/-! ### How a cross-lane word issues -/

theorem pfxOk_of_issues {i : Instr} {s : State} {k : GKey} {g : Group} (h : Issues i s k g) :
    (describe g.w i).pfxOk i.pfx = true := by
  have legal := h.legal
  unfold wordChecks at legal
  dsimp only at legal
  split at legal
  · cases legal
  · split at legal
    · cases legal
    · rename_i ok
      rwa [Bool.not_eq_true', Bool.not_eq_false] at ok

/-- Lanes that MZ clears take no result. -/
theorem zeroed_not_receiving {g : Group} {i : Instr} : ∀ l ∈ (g.issue i).zeroed, l ∉ (g.issue i).receiving := by
  intro l zeroed receiving
  have off : (g.lane? l).any (maskBit i.pfx) = false := by
    simp only [Group.issue] at zeroed
    split at zeroed
    · simpa using (List.mem_filter.mp zeroed).2
    · simp at zeroed
  simp only [Issue.receiving, Group.issue, List.mem_filter, Bool.or_eq_true, List.contains_iff_mem, off] at receiving
  simp at receiving

/-- A word that clears no lane under MZ, or executes once, is issued without MZ (02 R45). -/
theorem zeroed_of_issues {i : Instr} {s : State} {k : GKey} {g : Group} (h : Issues i s k g)
    (unmasked : (describe g.w i).use.mz = false ∨ (describe g.w i).once = true) : (g.issue i).zeroed = [] := by
  have ok := pfxOk_of_issues h
  refine if_neg ?_
  cases hp : i.pfx with
  | none => simp
  | some q =>
    rw [hp] at ok
    simp only [Desc.pfxOk, Bool.and_eq_true, Bool.or_eq_true, Bool.not_eq_true'] at ok
    rcases unmasked with e | e <;> simp_all

theorem uniform_of_once {i : Instr} {g : Group} {o : Opnd} (mem : o ∈ (describe g.w i).ops) (once : (g.issue i).once = true) :
    isUni o.field = true := by
  have all : (describe g.w i).once = true := once
  simp only [Desc.once, Bool.and_eq_true, List.all_eq_true] at all
  exact all.2 o mem

/-- A word with a vector operand executes in each lane that receives. -/
theorem mem_allUnits {i : Instr} {g : Group} {o : Opnd} (mem : o ∈ (describe g.w i).ops) (vector : isUni o.field = false)
    {l : Nat} (hl : l ∈ (g.issue i).receiving) : some l ∈ (g.issue i).allUnits := by
  have lanes : (g.issue i).allUnits = (g.issue i).receiving.map some :=
    if_neg fun once => Bool.false_ne_true (vector.symm.trans (uniform_of_once mem once))
  exact lanes ▸ List.mem_map.mpr ⟨l, hl, rfl⟩

theorem mem_units {i : Instr} {g : Group} {o : Opnd} (mem : o ∈ (describe g.w i).ops) (vector : isUni o.field = false)
    {l : Nat} (hl : l ∈ (g.issue i).active) : some l ∈ (g.issue i).units := by
  have lanes : (g.issue i).units = (g.issue i).active.map some :=
    if_neg fun once => Bool.false_ne_true (vector.symm.trans (uniform_of_once mem once))
  exact lanes ▸ List.mem_map.mpr ⟨l, hl, rfl⟩

/-- What the words that write across the lanes have in common: `val` gives each unit's result, D is the operand `o`, and a
uniform D takes no mask (05 R127). -/
structure CrossWord (i : Instr) (o : Opnd) (val : State → Issue → Group → Opnd → Option Nat → Val × Flags) : Prop where
  run : ∀ s, exec i s = crossWord i s (val s)
  early : mayTrapLate i = false
  dest : ∀ w, destOf (describe w i) = some o
  width : o.count = 1 ∨ o.count = 2 ∧ o.align = 2
  uniform : ∀ w, (describe w i).legal = true → isUni o.field = true →
    (describe w i).use.mz = false ∨ (describe w i).once = true

/-- A cross-lane word that issues completes, and each unit in which it writes has its result. -/
theorem CrossWord.gives {i : Instr} {o : Opnd} {val : State → Issue → Group → Opnd → Option Nat → Val × Flags}
    (word : CrossWord i o val) {s : State} {k : GKey} {g : Group} (h : Issues i s k g)
    (someone : firstOfNone (g.issue i) o = false) {a : Opnd} (source : ((describe g.w i).opnd? .a).getD (src .a 0) = a) :
    ∃ t g', Runs i s k t g' ∧ Retired (g.issue i) g g' ∧ CrossGives (g.issue i) g' o fun u => (val s (g.issue i) g a u).1 := by
  subst source
  obtain ⟨legal, aligned⟩ := legal_of_issues h
  have dest : destOf (g.issue i).desc = some o := word.dest g.w
  have mem : o ∈ (describe g.w i).ops := List.mem_of_find?_eq_some (word.dest g.w)
  have half : oneHalf o.field.toNat o.count := by
    unfold oneHalf
    rcases word.width with e | ⟨e, two⟩
    · omega
    · simp only [Desc.aligned, List.all_eq_true] at aligned
      have := aligned o mem
      simp only [two, beq_iff_eq] at this
      omega
  have lanes : ∀ l ∈ (g.issue i).receiving, l < (g.advance (g.issue i)).lanes.length := by
    intro l hl
    obtain ⟨y, hy⟩ := mem_receiving hl
    rw [(advance_bases g (g.issue i)).2.2]
    exact lane?_lt_length hy
  let out (q : Group) : Group := q.crossWrite (g.issue i) (val s (g.issue i) g (((describe g.w i).opnd? .a).getD (src .a 0)))
  have key : (g.issue i).key = k := group?_key h.here
  refine ⟨(s.drawn.setGroup (g.advance (g.issue i))).modGroup k out, out (g.advance (g.issue i)),
    ⟨exec_done h (word.run s) word.early (fun _ _ => rfl) ?_, ?_⟩, ?_, ?_⟩
  · rw [← key]
    rfl
  · exact runs_modGroup h.here key fun q => (crossWrite_runKept dest someone _ q).key
  · exact (crossWrite_runKept dest someone _ _).retired
  · exact crossWrite_gives _ _ dest someone (uniform_of_once mem) half lanes zeroed_not_receiving fun uni =>
      zeroed_of_issues h (word.uniform g.w legal uni)

/-- `bcast.first`, whose value may have no lane to come from (05 R142). -/
def isFirst (i : Instr) : Bool :=
  match i with
  | .bcast _ f => f.imm == 0x1FF
  | _ => false

theorem firstOfNone_of_not_first {g : Group} {i : Instr} {o : Opnd} (named : isFirst i = false) :
    firstOfNone (g.issue i) o = false := by
  have split : firstOfNone (g.issue i) o = ((g.issue i).active.isEmpty && !isUni o.field && isFirst i) := rfl
  rw [split, named, Bool.and_false]

/-! ### What an operand of a lane reads -/

section
variable {s : State} {g : Group} {u : Option Nat}

/-- A value is poisoned where one of its registers is (05 R129). -/
theorem readOpnd_poison {o : Opnd} (fresh : ∀ j < o.count, g.runWrites u (o.field.toNat + j) = []) :
    (readOpnd s g u o).poison = (List.range o.count).any fun j => (g.reg? u (o.field.toNat + j)).any (·.poison) := by
  show (readOpndRegs s g u o).any Reg.isPoisoned = _
  rw [readOpndRegs, List.any_map, Bool.eq_iff_iff, List.any_eq_true, List.any_eq_true]
  refine exists_congr fun j => and_congr_right fun hj => ?_
  rw [Function.comp_apply, readField_fresh s g u _ (fresh j (List.mem_range.mp hj))]
  cases g.reg? u (o.field.toNat + j) <;> rfl

theorem ofRegs_one_dw (tag : Bool) (r : Option Reg) : (Val.ofRegs tag [r]).dw = (r.elim 0 (·.val) : Word).setWidth 64 := by
  cases r with
  | none => rfl
  | some r =>
    have := r.val.isLt
    apply BitVec.eq_of_toNat_eq
    simp [Val.dw, Val.ofRegs]

theorem ofRegs_two_dw (tag : Bool) (a b : Option Reg) :
    (Val.ofRegs tag [a, b]).dw = (b.elim 0 (·.val) ++ a.elim 0 (·.val) : DWord) := by
  apply BitVec.eq_of_toNat_eq
  have ha := (a.elim 0 (·.val) : Word).isLt
  have hb := (b.elim 0 (·.val) : Word).isLt
  simp only [Val.dw, Val.ofRegs, List.foldr, Precise.elim_toNat, Precise.toNat_append_eq, BitVec.extractLsb'_toNat,
    BitVec.toNat_ofNat, Nat.shiftRight_zero]
  omega

theorem readOpnd_w {r : Role} {f : BitVec 7} {last : Bool} (fresh : g.runWrites u f.toNat = []) :
    (readOpnd s g u (src r f 1 last)).w = g.word u f.toNat := by
  show (Val.ofRegs _ [(readField s g u f.toNat).1]).w = _
  rw [Precise.ofRegs_one_w, readField_fresh s g u _ fresh]
  rfl

theorem readOpnd_dw {r : Role} {f : BitVec 7} {last : Bool} (two : Bool)
    (fresh : ∀ j < (if two then 2 else 1), g.runWrites u (f.toNat + j) = []) :
    (readOpnd s g u (src r f (if two then 2 else 1) last)).dw = wide (g.word u) two f := by
  have field (j : Nat) (hj : j < if two then 2 else 1) := readField_fresh s g u _ (fresh j hj)
  cases two with
  | false =>
    show (Val.ofRegs _ [(readField s g u (f.toNat + 0)).1]).dw = _
    rw [ofRegs_one_dw, field 0 (by decide)]
    rfl
  | true =>
    show (Val.ofRegs _ [(readField s g u (f.toNat + 0)).1, (readField s g u (f.toNat + 1)).1]).dw = _
    rw [ofRegs_two_dw, field 0 (by decide), field 1 (by decide)]
    rfl

end

/-- The word of a result that is given as a number. -/
theorem ofNat_w (n : Nat) (tag poison : Bool) : (⟨BitVec.ofNat 128 n, tag, poison⟩ : Val).w = BitVec.ofNat 32 n := by
  have := bitsOf_ofNat_word n (j := 0) (by decide)
  rwa [Nat.mul_zero, Nat.pow_zero, Nat.div_one] at this

section
variable {s : State} {g : Group} {f : BitVec 7} {last : Bool} (fresh : SourceFresh g f) (j : Nat)
include fresh

/-- 05 R128: what a lane supplies is its register; 0 from a free lane. -/
theorem supply_w : (supply s g (src .a f 1 last) j).w = supplied g f j := by
  unfold supply supplied
  cases g.lane? j with
  | none => rfl
  | some y => by_cases free : y.status = .free <;> simp [free, readOpnd_w (fresh j)]; rfl

theorem supply_poison : (supply s g (src .a f 1 last) j).poison = badSupply g f j := by
  have read : (readOpnd s g (some j) (src .a f 1 last)).poison = (g.reg? (some j) f.toNat).any (·.poison) := by
    rw [readOpnd_poison fun i hi => by rw [Nat.lt_one_iff.mp hi]; exact fresh j]
    simp [src]
  unfold supply badSupply
  cases g.lane? j with
  | none => rfl
  | some y => by_cases free : y.status = .free <;> simp [free, read]; rfl

end

/-! ### Which lane a lane takes its value from (O23) -/

/-- A cross-lane word that brings to each unit what lane `from'` of it supplies. -/
theorem CrossWord.supplies {i : Instr} {d a : BitVec 7} {last : Bool}
    {val : State → Issue → Group → Opnd → Option Nat → Val × Flags} (word : CrossWord i (dst .d d) val) {s : State} {k : GKey}
    {g : Group} (h : Issues i s k g) (fresh : SourceFresh g a) (someone : firstOfNone (g.issue i) (dst .d d) = false)
    (source : ((describe g.w i).opnd? .a).getD (src .a 0) = src .a a 1 last) {from' : Nat → Nat}
    (takes : ∀ u, (val s (g.issue i) g (src .a a 1 last) u).1 = supply s g (src .a a 1 last) (from' (u.getD 0))) :
    ∃ t g', Runs i s k t g' ∧ Retired (g.issue i) g g' ∧ (CrossHolds32 (g.issue i) g' d fun l => supplied g a (from' l)) ∧
      CrossBad (g.issue i) g' d 1 fun l => badSupply g a (from' l) := by
  obtain ⟨t, g', run, retired, gives⟩ := word.gives h someone source
  exact ⟨t, g', run, retired, gives.holds32 Nat.one_pos fun u _ => by rw [takes, supply_w fresh],
    gives.bad rfl fun u _ => by rw [takes, supply_poison fresh]⟩

theorem CrossWord.of_moveWord {i : Instr} {d : BitVec 7} {from_ : State → Issue → Group → Nat → Nat}
    (run : ∀ s, exec i s = moveWord i s (from_ s)) (early : mayTrapLate i = false)
    (dest : ∀ w, destOf (describe w i) = some (dst .d d))
    (vector : ∀ w, (describe w i).legal = true → isUni d = false) :
    CrossWord i (dst .d d) fun s x g a u => (supply s g a (from_ s x g (u.getD 0)), 0) :=
  ⟨run, early, dest, .inl rfl, fun w legal uni => nomatch (vector w legal).symm.trans uni⟩

/-- A word that moves a value from the lane that its rule names. -/
theorem moves_of_moveWord {i : Instr} {d a : BitVec 7} {last : Bool} {source : Group → Issue → Nat → Nat}
    (run : ∀ s, exec i s = moveWord i s fun x g l => source g x l) (early : mayTrapLate i = false)
    (dest : ∀ w, destOf (describe w i) = some (dst .d d))
    (opnd : ∀ w, (describe w i).opnd? .a = some (src .a a 1 last))
    (vector : ∀ w, (describe w i).legal = true → isUni d = false) (named : isFirst i = false) : Moves i d a source := by
  have word := CrossWord.of_moveWord (from_ := fun _ x g l => source g x l) run early dest vector
  exact fun s k g h fresh => word.supplies h fresh (firstOfNone_of_not_first named) (by rw [opnd]; rfl) fun _ => rfl

theorem shflIdx_moves (p : Pfx) (f : FmtRRR) (s : State) (k : GKey) (g : Group) (h : Issues (.shflIdx p f) s k g)
    (fresh : SourceFresh g f.a) :
    ∃ t g', Runs (.shflIdx p f) s k t g' ∧ Retired (g.issue (.shflIdx p f)) g g' ∧
      ∀ l ∈ (g.issue (.shflIdx p f)).receiving,
        let j := (g.word (some l) f.b.toNat).toNat
        let from' := if f.x then (if j < g.w then j else l) else j % g.w
        g'.reg? (some l) f.d.toNat = some ⟨supplied g f.a from', badSupply g f.a from'⟩ := by
  have legal : (!isUni f.d) = true := (legal_of_issues h).1
  have vector : isUni f.d = false := by simpa using legal
  have word := CrossWord.of_moveWord (i := .shflIdx p f) (d := f.d) (from_ := fun s x g i =>
    let k := (readRole s g x.desc (some i) .b).w.toNat
    if f.x then (if k < g.w then k else i) else k % g.w) (fun _ => rfl) rfl (fun _ => rfl) fun _ _ => vector
  obtain ⟨t, g', run, retired, gives⟩ := word.gives h (firstOfNone_of_not_first rfl) (a := src .a f.a 1 f.la) rfl
  refine ⟨t, g', run, retired, fun l hl => ?_⟩
  have selector := readRole_word_allUnits h (mem_allUnits (o := dst .d f.d) List.mem_cons_self vector hl) (r := .b) (f := f.b)
    (last := f.lb) rfl
  have result := gives.lane Nat.one_pos vector hl
  simp only [Option.getD_some, selector, supply_w fresh, supply_poison fresh] at result
  exact result

/-- The lanes that `shfl.rel` names (05 R133). -/
theorem relLane_eq (imm : BitVec 9) (w l : Nat) : relLane imm w l =
    let k := (bitsOf imm 0 7).toInt
    if bitsOf imm 7 2 = 0 then (min (max ((l : Int) + k) 0) (w - 1)).toNat
    else if bitsOf imm 7 2 = 1 then (((l : Int) + k) % w).toNat
    else if bitsOf imm 7 2 = 2 then (l ^^^ (bitsOf imm 0 6).toNat) % w
    else if 2 ^ (bitsOf imm 0 3).toNat ≤ w then l ^^^ (2 ^ (bitsOf imm 0 3).toNat - 1) else w - 1 - l := by
  unfold relLane
  generalize bitsOf imm 7 2 = mode
  obtain rfl | rfl | rfl | rfl : mode = 0 ∨ mode = 1 ∨ mode = 2 ∨ mode = 3 := by revert mode; decide
  all_goals rfl

theorem shflRel_moves (p : Pfx) (f : FmtRI) : Moves (.shflRel p f) f.d f.a fun g _ l => relLane f.imm g.w l := by
  refine moves_of_moveWord (fun _ => rfl) rfl (fun _ => rfl) (fun _ => rfl) (fun _ legal => ?_) rfl
  have vector : (!isUni f.d && _ && _) = true := legal
  simp only [Bool.and_eq_true, Bool.not_eq_true'] at vector
  exact vector.1.1

theorem descRM_vector {f : FmtRM} {nd na : Nat} {use : PfxUse}
    (legal : (descRM f nd na use (!f.x && !isUni f.d)).legal = true) : isUni f.d = false := by
  simp only [descRM, Bool.and_eq_true, Bool.not_eq_true'] at legal
  exact legal.2

/-- The words that exchange the lanes of a quad or broadcast one of them (05 R134). -/
theorem moves_of_quadWord {i : Instr} {f : FmtRM} {source : Nat → Nat}
    (run : ∀ s, exec i s = moveWord i s fun _ _ l => source l) (early : mayTrapLate i = false)
    (form : ∀ w, describe w i = descRM f 1 1 useMask (!f.x && !isUni f.d)) (named : isFirst i = false) :
    Moves i f.d f.a fun _ _ l => source l := by
  refine moves_of_moveWord (last := f.la) run early (fun w => by rw [form]; rfl) (fun w => by rw [form]; rfl)
    (fun w legal => ?_) named
  rw [form] at legal
  exact descRM_vector legal

theorem bcast_cross (p : Pfx) (f : FmtRI) : CrossWord (.bcast p f) (dst .d f.d) fun s x g a _ =>
    if f.imm == 0x1FF then ((match x.active.head? with
      | some j => supply s g a j
      | none => Val.zero), 0) else (supply s g a f.imm.toNat, 0) :=
  ⟨fun _ => rfl, rfl, fun _ => rfl, .inl rfl, fun w _ uni => .inl (by
    show (!isUni f.d) = false
    rw [show isUni f.d = true from uni]
    rfl)⟩

theorem bcast_moves (p : Pfx) (f : FmtRI) (named : f.imm ≠ 0x1FF) : Moves (.bcast p f) f.d f.a fun _ _ _ => f.imm.toNat := by
  refine fun s k g h fresh => (bcast_cross p f).supplies h fresh (firstOfNone_of_not_first ?_) (last := f.la) rfl fun u => ?_
  · simpa [isFirst] using named
  · rw [if_neg (by simpa using named)]

theorem bcastFirst_moves (p : Pfx) (f : FmtRI) (s : State) (k : GKey) (g : Group) (j : Nat) (first : f.imm = 0x1FF)
    (h : Issues (.bcast p f) s k g) (fresh : SourceFresh g f.a) (head : (g.issue (.bcast p f)).active.head? = some j) :
    ∃ t g', Runs (.bcast p f) s k t g' ∧ Retired (g.issue (.bcast p f)) g g' ∧
      (CrossHolds32 (g.issue (.bcast p f)) g' f.d fun _ => supplied g f.a j) ∧
      CrossBad (g.issue (.bcast p f)) g' f.d 1 fun _ => badSupply g f.a j := by
  refine (bcast_cross p f).supplies h fresh ?_ (last := f.la) rfl (from' := fun _ => j) fun u => ?_
  · have some_active : (g.issue (.bcast p f)).active.isEmpty = false := by
      cases active : (g.issue (.bcast p f)).active with
      | nil => simp [active] at head
      | cons => rfl
    rw [firstOfNone, some_active, Bool.false_and, Bool.false_and]
  · simp [first, head]

theorem laneMoves : LaneMoves := by
  refine ⟨shflIdx_moves, fun p f => ?rel, fun p f => ?across, fun p f => ?down, fun p f => ?diagonal, fun p f => ?qbc,
    bcast_moves, bcastFirst_moves⟩
  case rel => simpa only [relLane_eq] using shflRel_moves p f
  case across | down | diagonal => exact moves_of_quadWord (fun _ => rfl) rfl (fun _ => rfl) rfl
  case qbc =>
    have low : (bitsOf f.m 0 2).toNat = f.m.toNat % 4 := by simp
    rw [← low]
    exact moves_of_quadWord (fun _ => rfl) rfl (fun _ => rfl) rfl

theorem floatEnv_eq (g : Group) (p : Pfx) : g.floatEnv p = envOf g p := by
  cases p with
  | none => rfl
  | some q => simp [Group.floatEnv, envOf, satOf]; rfl

/-- The left lane of a pair, or the upper one (05 R135). -/
def lowerLane (bit l : Nat) : Nat := if l.testBit (bit / 2) then l - bit else l

theorem lowerLane_one (l : Nat) : lowerLane 1 l = l - l % 2 := by
  have bit : l.testBit (1 / 2) = decide (l % 2 = 1) := Nat.testBit_zero l
  simp only [lowerLane, bit, decide_eq_true_eq]
  split <;> omega

theorem lowerLane_two (l : Nat) : lowerLane 2 l = l - l / 2 % 2 * 2 := by
  have bit : l.testBit (2 / 2) = decide (l / 2 % 2 = 1) := by rw [Nat.testBit_eq_decide_div_mod_eq]
  simp only [lowerLane, bit, decide_eq_true_eq]
  split <;> omega

/-- 05 R135: each receiving lane holds the difference of two lanes of its quad, poisoned where one of them is. -/
theorem derivative_gives {i : Instr} {p : Pfx} {f : FmtRM} {bit : Nat} (pfx : i.pfx = p)
    (run : ∀ s, exec i s = derivative i s bit) (early : mayTrapLate i = false)
    (form : ∀ w, describe w i = descRM f 1 1 { mz := true, rm := true } (!f.x && !isUni f.d))
    (named : isFirst i = false) {s : State} {k : GKey} {g : Group} (h : Issues i s k g) (fresh : SourceFresh g f.a) :
    ∃ t g', Runs i s k t g' ∧ Retired (g.issue i) g g' ∧ ∀ l ∈ (g.issue i).receiving, g'.reg? (some l) f.d.toNat =
      some ⟨BitVec.ofNat 32 (floatSub { envOf g p with sat := false } (floatOf false (supplied g f.a (l ||| bit)))
        (floatOf false (supplied g f.a (lowerLane bit l)))).bits,
        badSupply g f.a (l ||| bit) || badSupply g f.a (lowerLane bit l)⟩ := by
  have legal (w : Nat) (legal : (describe w i).legal = true) : isUni f.d = false := by
    rw [form] at legal
    exact descRM_vector legal
  have vector := legal g.w (legal_of_issues h).1
  have word : CrossWord i (dst .d f.d) _ :=
    ⟨run, early, fun w => by rw [form]; rfl, .inl rfl, fun w ok uni => nomatch (legal w ok).symm.trans uni⟩
  obtain ⟨t, g', run, retired, gives⟩ := word.gives h (firstOfNone_of_not_first named) (a := src .a f.a 1 f.la)
    (by rw [form]; rfl)
  refine ⟨t, g', run, retired, fun l hl => ?_⟩
  have result := gives.lane Nat.one_pos vector hl
  simp only [Option.getD_some, ofNat_w, f32, supply_w fresh, supply_poison fresh, floatEnv_eq] at result
  rw [← pfx]
  exact result

theorem quadDerivatives : QuadDerivatives := by
  refine ⟨fun p f s k g h fresh => ?x, fun p f s k g h fresh => ?y⟩
  case x =>
    have gives := derivative_gives (i := .qddx p f) (p := p) (bit := 1) rfl (fun _ => rfl) rfl (fun _ => rfl) rfl h fresh
    simpa only [lowerLane_one] using gives
  case y =>
    have gives := derivative_gives (i := .qddy p f) (p := p) (bit := 2) rfl (fun _ => rfl) rfl (fun _ => rfl) rfl h fresh
    simpa only [lowerLane_two] using gives

/-- Settles O23: each word moves what its lane supplies, or takes the difference of what two lanes supply. -/
theorem laneMovesAndDerivatives : Obligations.LaneMovesAndDerivatives := ⟨laneMoves, quadDerivatives⟩

/-! ### Votes and matches (O24) -/

/-- The operands of a vote: D has `n` registers, and A names a predicate (05 R136). -/
def voteForm (f : FmtRM) (n : Nat) : Desc :=
  { ops := [dst .d f.d n], use := useMask, uniDst := true, legal := bitsOf f.a 4 3 == 0 && !f.la }

/-- The contributing lanes that vote. -/
def voters (g : Group) (x : Issue) (f : FmtRM) : List Nat :=
  x.active.filter fun l => (g.lane? l).any fun y => holds y.preds f.a.toNat != f.x

theorem predicate_of_legal {f : FmtRM} (legal : (bitsOf f.a 4 3 == 0 && !f.la) = true) :
    (bitsOf f.a 0 4).toNat = f.a.toNat := by
  simp only [Bool.and_eq_true, beq_iff_eq] at legal
  have high : f.a.toNat >>> 4 % 2 ^ 3 = 0 := congrArg BitVec.toNat legal.1
  have := f.a.isLt
  simp only [BitVec.extractLsb'_toNat, Nat.shiftRight_eq_div_pow] at high ⊢
  omega

/-- 05 R136: a vote completes with its function of the lanes that vote and those that contribute. -/
theorem vote_gives {i : Instr} {f : FmtRM} {n empty : Nat} {fn : List Nat → List Nat → Nat}
    (run : ∀ s, exec i s = voteWord i f s empty fn) (early : mayTrapLate i = false) (form : ∀ w, describe w i = voteForm f n)
    (width : n = 1 ∨ n = 2) (named : isFirst i = false) {s : State} {k : GKey} {g : Group} (h : Issues i s k g) :
    ∃ t g', Runs i s k t g' ∧ Retired (g.issue i) g g' ∧ CrossGives (g.issue i) g' (dst .d f.d n) fun _ =>
      ⟨BitVec.ofNat 128 (if (g.issue i).active = [] then empty else fn (voters g (g.issue i) f) (g.issue i).active), false,
        badVote g (g.issue i) f⟩ := by
  have legal := (legal_of_issues h).1
  rw [form] at legal
  have uniform (w : Nat) (uni : isUni f.d = true) : (describe w i).once = true := by
    rw [form]
    simpa [voteForm, Desc.once, dst] using uni
  have word : CrossWord i (dst .d f.d n) _ :=
    ⟨run, early, fun w => by rw [form]; rfl, width.imp id fun two => by subst two; exact ⟨rfl, rfl⟩,
      fun w _ uni => .inr (uniform w uni)⟩
  obtain ⟨t, g', run, retired, gives⟩ := word.gives h (firstOfNone_of_not_first named) rfl
  refine ⟨t, g', run, retired, ?_⟩
  simp only [predicate_of_legal legal, List.isEmpty_iff] at gives
  exact gives

/-- A vote of one register. -/
theorem votes_of_voteWord {i : Instr} {f : FmtRM} {empty : Nat} {fn : List Nat → List Nat → Nat}
    {val : List Nat → List Nat → Word} (run : ∀ s, exec i s = voteWord i f s empty fn) (early : mayTrapLate i = false)
    (form : ∀ w, describe w i = voteForm f 1) (named : isFirst i = false)
    (counts : ∀ v c : List Nat, (c = [] → v = []) → BitVec.ofNat 32 (if c = [] then empty else fn v c) = val v c) :
    Votes i f val := by
  intro s k g h
  obtain ⟨t, g', run, retired, gives⟩ := vote_gives run early form (.inl rfl) named h
  refine ⟨t, g', run, retired, gives.holds32 Nat.one_pos fun u _ => ?_, gives.bad rfl fun _ _ => rfl⟩
  rw [ofNat_w, counts _ _ fun none => by rw [voters, none, List.filter_nil]]
  rfl

theorem ofNat_dw (x : DWord) (tag poison : Bool) : (⟨BitVec.ofNat 128 x.toNat, tag, poison⟩ : Val).dw = x := by
  apply BitVec.eq_of_toNat_eq
  have := x.isLt
  simp only [Val.dw, BitVec.extractLsb'_toNat, BitVec.toNat_ofNat, Nat.shiftRight_zero]
  omega

theorem voteMask_gives (p : Pfx) (f : FmtRM) (s : State) (k : GKey) (g : Group) (h : Issues (.voteMask p f) s k g) :
    ∃ t g', Runs (.voteMask p f) s k t g' ∧ Retired (g.issue (.voteMask p f)) g g' ∧
      (CrossHolds64 (g.issue (.voteMask p f)) g' f.d fun _ => maskOf ((g.issue (.voteMask p f)).active.filter fun l =>
        (g.lane? l).any fun y => holds y.preds f.a.toNat != f.x)) ∧
      CrossBad (g.issue (.voteMask p f)) g' f.d 2 fun _ => badVote g (g.issue (.voteMask p f)) f := by
  obtain ⟨t, g', run, retired, gives⟩ := vote_gives (i := .voteMask p f) (n := 2) (empty := 0)
    (fn := fun v _ => (maskOf v).toNat) (fun _ => rfl) rfl (fun _ => rfl) (.inr rfl) rfl h
  refine ⟨t, g', run, retired, gives.holds64 rfl fun u _ => ?_, gives.bad rfl fun _ _ => rfl⟩
  have mask : (if (g.issue (.voteMask p f)).active = [] then 0 else (maskOf (voters g (g.issue (.voteMask p f)) f)).toNat) =
      (maskOf (voters g (g.issue (.voteMask p f)) f)).toNat := by
    split
    · rename_i none
      rw [voters, none]
      rfl
    · rfl
  rw [mask, ofNat_dw]
  rfl

theorem voteSome_votes (p : Pfx) (f : FmtRM) : Votes (.voteSome p f) f fun v _ => if v = [] then 0 else 1 := by
  refine votes_of_voteWord (empty := 0) (fn := fun v _ => oneIf (!v.isEmpty)) (fun _ => rfl) rfl (fun _ => rfl)
    rfl fun v c none => ?_
  cases c with
  | nil => simp [none rfl]
  | cons => cases v <;> simp [oneIf]

theorem voteEvery_votes (p : Pfx) (f : FmtRM) :
    Votes (.voteEvery p f) f fun v c => if c ≠ [] ∧ v.length = c.length then 1 else 0 := by
  refine votes_of_voteWord (empty := 0) (fn := fun v c => oneIf (v.length == c.length)) (fun _ => rfl) rfl (fun _ => rfl)
    rfl fun v c _ => ?_
  cases c <;> simp [oneIf, apply_ite (BitVec.ofNat 32)]

theorem voteAgree_votes (p : Pfx) (f : FmtRM) :
    Votes (.voteAgree p f) f fun v c => if c ≠ [] ∧ (v = [] ∨ v.length = c.length) then 1 else 0 := by
  refine votes_of_voteWord (empty := 0) (fn := fun v c => oneIf (v.isEmpty || v.length == c.length)) (fun _ => rfl) rfl
    (fun _ => rfl) rfl fun v c _ => ?_
  cases c <;> simp [oneIf, apply_ite (BitVec.ofNat 32)]

theorem voteCount_votes (p : Pfx) (f : FmtRM) : Votes (.voteCount p f) f fun v _ => BitVec.ofNat 32 v.length := by
  refine votes_of_voteWord (empty := 0) (fn := fun v _ => v.length) (fun _ => rfl) rfl (fun _ => rfl) rfl
    fun v c none => ?_
  split
  · rw [none ‹_›, List.length_nil]
  · rfl

theorem voteFirst_votes (p : Pfx) (f : FmtRM) :
    Votes (.voteFirst p f) f fun v _ => v.head?.elim 0xFFFFFFFF (BitVec.ofNat 32) := by
  refine votes_of_voteWord (empty := 0xFFFFFFFF) (fn := fun v _ => v.head?.getD 0xFFFFFFFF) (fun _ => rfl) rfl (fun _ => rfl)
    rfl fun v c none => ?_
  split
  · rw [none ‹_›]
    rfl
  · cases v.head? <;> rfl

theorem voteLast_votes (p : Pfx) (f : FmtRM) :
    Votes (.voteLast p f) f fun v _ => v.getLast?.elim 0xFFFFFFFF (BitVec.ofNat 32) := by
  refine votes_of_voteWord (empty := 0xFFFFFFFF) (fn := fun v _ => v.getLast?.getD 0xFFFFFFFF) (fun _ => rfl) rfl (fun _ => rfl)
    rfl fun v c none => ?_
  split
  · rw [none ‹_›]
    rfl
  · cases v.getLast? <;> rfl

/-- 05 R137: the lanes among those that contribute whose value is that of a lane. -/
def equals (g : Group) (x : Issue) (f : FmtRM) (l : Nat) : List Nat :=
  x.active.filter fun j => wide (g.word (some j)) (f.m.getLsbD 0) f.a == wide (g.word (some l)) (f.m.getLsbD 0) f.a

/-- The registers of D of a match: two for a mask, one for a count or a rank (05 R137). -/
def matchRegs (f : FmtRM) : Nat := if f.m.toNat ≤ 1 then 2 else 1

/-- The source of a match: a pair, or one register (05 R137). -/
def matchSource (f : FmtRM) : Opnd := src .a f.a (if f.m.getLsbD 0 then 2 else 1) f.la

theorem describe_match (p : Pfx) (f : FmtRM) (w : Nat) : describe w (.matchF p f) =
    descRM f (matchRegs f) (if f.m.getLsbD 0 then 2 else 1) useMask (!f.x && !isUni f.d && decide (f.m.toNat ≤ 5)) := by
  have mask : (f.m == 0 || f.m == 1) = decide (f.m.toNat ≤ 1) := by
    generalize f.m = m
    revert m
    decide
  show descRM f (if f.m == 0 || f.m == 1 then 2 else 1) _ _ _ = _
  rw [mask, matchRegs]
  simp

/-- A word finds the sources of a lane that takes part as its file holds them (01 R22). -/
theorem source_fresh {i : Instr} {s : State} {k : GKey} {g : Group} (h : Issues i s k g) {u : Option Nat}
    (hu : u ∈ (g.issue i).units ∨ u ∈ (g.issue i).allUnits) {o : Opnd} (mem : o ∈ (describe g.w i).ops) (read : o.read = true)
    (now : o.now = true) : ∀ j < o.count, g.runWrites u (o.field.toNat + j) = [] :=
  fun _ hj => h.fresh u hu _ (Precise.mem_unitFields mem read now hj)

theorem filter_pairs {α : Type} (c : List Nat) (r : Nat → α) (p : α → Bool) :
    ((c.map fun l => (l, r l)).filter fun q => p q.2).map (·.1) = c.filter fun l => p (r l) := by
  rw [List.filter_map, List.map_map]
  exact List.map_id _

/-- The two operands of a match. -/
theorem match_operands (p : Pfx) (f : FmtRM) (w : Nat) : (describe w (.matchF p f)).ops =
    [dst .d f.d (matchRegs f), matchSource f] := by
  rw [describe_match]
  rfl

theorem match_vector {p : Pfx} {f : FmtRM} {w : Nat} (legal : (describe w (.matchF p f)).legal = true) : isUni f.d = false := by
  rw [describe_match] at legal
  simp only [descRM, Bool.and_eq_true, Bool.not_eq_true'] at legal
  exact legal.1.2

section
variable {p : Pfx} {f : FmtRM} {s : State} {k : GKey} {g : Group} (h : Issues (.matchF p f) s k g)
include h

/-- What a lane of a match reads. -/
theorem match_reads {l : Nat} (hl : l ∈ (g.issue (.matchF p f)).active ∨ l ∈ (g.issue (.matchF p f)).receiving) :
    (readOpnd s g (some l) (matchSource f)).dw = wide (g.word (some l)) (f.m.getLsbD 0) f.a ∧
      (readOpnd s g (some l) (matchSource f)).poison = badSource g (f.m.getLsbD 0) f.a l := by
  have vector := match_vector (legal_of_issues h).1
  have d_mem : dst .d f.d (matchRegs f) ∈ (describe g.w (.matchF p f)).ops := by simp [match_operands]
  have a_mem : matchSource f ∈ (describe g.w (.matchF p f)).ops := by simp [match_operands]
  have unit := hl.imp (mem_units (o := dst .d f.d (matchRegs f)) d_mem vector) (mem_allUnits d_mem vector)
  have fresh := source_fresh h unit a_mem rfl rfl
  exact ⟨readOpnd_dw _ fresh, readOpnd_poison fresh⟩

/-- 05 R137: what `match` gives a lane, from the lanes whose value is its own. -/
theorem match_gives :
    ∃ t g' val, Runs (.matchF p f) s k t g' ∧ Retired (g.issue (.matchF p f)) g g' ∧
      CrossGives (g.issue (.matchF p f)) g' (dst .d f.d (matchRegs f)) val ∧
      ∀ u ∈ crossUnits (g.issue (.matchF p f)) (dst .d f.d (matchRegs f)), val u =
        ⟨BitVec.ofNat 128 (matchOut f.m.toNat (u.getD 0) (equals g (g.issue (.matchF p f)) f (u.getD 0))), false,
          badSource g (f.m.getLsbD 0) f.a (u.getD 0) ||
            (g.issue (.matchF p f)).active.any (badSource g (f.m.getLsbD 0) f.a)⟩ := by
  have word : CrossWord (.matchF p f) (dst .d f.d (matchRegs f)) fun s x g a u =>
      let i := u.getD 0
      let own := readOpnd s g (some i) a
      let vals := x.active.map fun l => (l, readOpnd s g (some l) a)
      let e := (vals.filter fun q => q.2.dw == own.dw).map (·.1)
      (⟨BitVec.ofNat 128 (matchOut f.m.toNat i e), false, own.poison || vals.any (fun q => q.2.poison)⟩, 0) := by
    refine ⟨fun _ => rfl, rfl, fun w => by rw [destOf, match_operands]; rfl, ?_,
      fun w legal uni => nomatch (match_vector legal).symm.trans uni⟩
    by_cases mask : f.m.toNat ≤ 1 <;> simp [dst, matchRegs, mask, alignOf]
  obtain ⟨t, g', run, retired, gives⟩ := word.gives h (firstOfNone_of_not_first rfl)
    (a := matchSource f) (by rw [Desc.opnd?, match_operands]; rfl)
  refine ⟨t, g', _, run, retired, gives, ?_⟩
  refine forall_crossUnits.mpr ?_
  rw [if_neg (by simp [dst, match_vector (legal_of_issues h).1])]
  intro l hl
  obtain ⟨own, ownBad⟩ := match_reads h (.inr hl)
  have same : (((g.issue (.matchF p f)).active.map fun j => (j, readOpnd s g (some j) (matchSource f))).filter
      fun q => q.2.dw == wide (g.word (some l)) (f.m.getLsbD 0) f.a).map (·.1) = equals g (g.issue (.matchF p f)) f l := by
    rw [filter_pairs _ _ fun v : Val => v.dw == wide (g.word (some l)) (f.m.getLsbD 0) f.a]
    exact List.filter_congr fun j hj => by rw [(match_reads h (.inl hj)).1]
  have bad : (g.issue (.matchF p f)).active.any (fun j => (readOpnd s g (some j) (matchSource f)).poison) =
      (g.issue (.matchF p f)).active.any (badSource g (f.m.getLsbD 0) f.a) := by
    rw [Bool.eq_iff_iff, List.any_eq_true, List.any_eq_true]
    exact exists_congr fun j => and_congr_right fun hj => by rw [(match_reads h (.inl hj)).2]
  simp only [Option.getD_some, List.any_map, Function.comp_def, own, ownBad, same, bad]

end

/-- 05 R137: masks, counts and ranks of the lanes with a lane's value. -/
theorem match_results (p : Pfx) (f : FmtRM) (s : State) (k : GKey) (g : Group) (h : Issues (.matchF p f) s k g) :
    let x := g.issue (.matchF p f)
    let val (l : Nat) : DWord := wide (g.word (some l)) (f.m.getLsbD 0) f.a
    let same (l : Nat) : List Nat := x.active.filter fun j => val j == val l
    ∃ t g', Runs (.matchF p f) s k t g' ∧ Retired x g g' ∧
      (if f.m.toNat ≤ 1 then CrossHolds64 x g' f.d fun l => maskOf (same l)
      else CrossHolds32 x g' f.d fun l => BitVec.ofNat 32 (
        if f.m.toNat ≤ 3 then (if (same l).head? = some l then (same l).length else 0)
        else ((same l).filter (· < l)).length)) ∧
      CrossBad x g' f.d (if f.m.toNat ≤ 1 then 2 else 1) fun l =>
        badSource g (f.m.getLsbD 0) f.a l || x.active.any (badSource g (f.m.getLsbD 0) f.a) := by
  obtain ⟨t, g', val, run, retired, gives, result⟩ := match_gives h
  refine ⟨t, g', run, retired, ?_, gives.bad rfl fun u hu => by rw [result u hu]⟩
  split
  · rename_i mask
    refine gives.holds64 (if_pos mask) fun u hu => ?_
    rw [result u hu, matchOut, if_pos mask, ofNat_dw]
    rfl
  · rename_i mask
    refine gives.holds32 (by simp [dst, matchRegs, mask]) fun u hu => ?_
    rw [result u hu, ofNat_w, matchOut, if_neg mask]
    simp only [beq_iff_eq]
    rfl

/-- Settles O24: each vote is its function of the lanes that vote and contribute, each match that of the lanes with an equal
value. -/
theorem votesAndMatches : Obligations.VotesAndMatches :=
  ⟨voteSome_votes, voteEvery_votes, voteAgree_votes, voteCount_votes, voteFirst_votes, voteLast_votes, voteMask_gives,
    match_results⟩

/-! ### Where the statement of O25 fails -/

/-- A live fibre with +infinity in v0. -/
def infinityLane : Lane := { newLane 0 with v := ⟨[(0, ⟨0x7F800000, false⟩)], [], []⟩ }

/-- A group of 65 such lanes, where 01 R9 has at most 64. -/
def crowdedGroup : Group := { newGroup fetchLaunch 0 0 0 0 0 false with lanes := List.replicate 65 infinityLane }

def crowdedState : State := { State.reset with groups := [crowdedGroup], turn := .group oneGroup }

/-- `redg.min.f32 v1, v0`. -/
def minWord : FmtRM := ⟨false, 1, 0, 9, false, false⟩

theorem crowdedState_issues : Issues (.redg none minWord) crowdedState oneGroup crowdedGroup where
  turn := rfl
  here := rfl
  ready := by decide +kernel
  calm := by decide
  legal := by decide +kernel
  mask := rfl
  live := by decide +kernel
  fresh := fun _ _ _ _ => rfl
  again := nofun

/-- The minimum is +infinity, which raises NF (05 R139). -/
theorem crowdedGroup_flags : foldNF 9 (treeFold 9 { envOf crowdedGroup none with sat := false } 3
    (leavesOf crowdedGroup (crowdedGroup.issue (.redg none minWord)) minWord)).1 = fNF := by
  decide +kernel

/-- Lane 64 contributes, and takes no result; so it gains no flag. -/
theorem crowdedState_redg : answers (exec (.redg none minWord) crowdedState) (fun t =>
    (t.group? oneGroup).bind (fun g => (g.lane? 64).map (·.flags)) == some 0) = true := by
  decide +kernel

/-- Refutes O25: nothing bounds the lanes of a group, and an active fibre of lane 64, which no result of a vector D reaches,
gains no flag of a `redg`. -/
theorem not_reductionsAndScans : ¬ Obligations.ReductionsAndScans := by
  rintro ⟨redg, -⟩
  obtain ⟨t, g', ⟨run, here⟩, -, -, gains, -⟩ := redg none minWord crowdedState oneGroup crowdedGroup 3 crowdedState_issues rfl
  have gained := gains 64 (by decide +kernel) infinityLane rfl
  rw [show minWord.m.toNat = 9 from rfl, crowdedGroup_flags] at gained
  have flags := answers_next crowdedState_redg run
  rw [here, Option.bind_some, gained, beq_iff_eq, Option.some.injEq] at flags
  exact absurd (BitVec.or_eq_zero_iff.mp flags).2 (by decide)

end Sys2Proof.CrossLane
end
